-- ==== Sys2Proof/Word.lean ====
section
/-! DEFINITION. The word types of the machine and their plainest arithmetic. -/
namespace Sys2Proof

/-- A 64-bit register value. -/
abbrev Word := BitVec 64
/-- A byte of memory. -/
abbrev Byte := BitVec 8
/-- A 256-bit vector register value. -/
abbrev VWord := BitVec 256

/-- All bits set when `b`, else zero: a relation written as an integer. -/
def boolWord (b : Bool) : Word := if b then 1 else 0

end Sys2Proof
end

