-- ==== Sys2Proof/Config.lean ====
section
/-! DEFINITION. What an implementation fixes, and the free values: values the spec leaves open, of which nothing
is known. Each is applied to a counter of the state, so that every draw is a fresh value. -/
namespace Sys2Proof.Config

/-- An unspecified word: the value of a poisoned vector lane, a byte a copy leaves unspecified.
DESIGN CHOICE (log 5), safe. -/
opaque freeWord : Nat → Word
/-- An unspecified choice between two outcomes that the spec allows. -/
opaque freeBool : Nat → Bool
/-- An unspecified number below a bound that its user applies. -/
opaque freeNat : Nat → Nat
/-- Whether an Ed25519 signature by an operator key or by Farridon's key is good (R395, R403). -/
opaque imageSigned : List Byte → Bool
/-- The version number that a firmware image carries (R403). -/
opaque imageVersion : List Byte → BitVec 32
/-- Whether a firmware image boots (R400, R403). -/
opaque imageBoots : List Byte → Bool
/-- The SHA-512 hash of bytes (R404). -/
opaque sha512 : List Byte → BitVec 512
/-- The Ed25519 signature of an attestation report by the device identity key (R404). -/
opaque identitySignature : List Byte → BitVec 512
/-- The device identity's public key (R404). -/
opaque identityKey : BitVec 256

/-- The number of an event of the log, which the spec does not give (R401). -/
opaque eventCode : Nat → BitVec 16
/-- The slack that one more frequency step takes (R384). -/
opaque stepMargin : Nat
/-- The bank of its pseudo-channel that a byte of DRAM lies in (R74). DESIGN CHOICE (log 65), safe. -/
opaque bankOf : Nat → Nat
/-- The bytes of a partition configuration, for the hash of an attestation report: each virtual function with its domes,
and its weight, context table and slice window base (R404). -/
opaque partitionImage : List (Nat × List Nat × List Nat) → List Byte

end Sys2Proof.Config
end

