-- ==== Sys2Proof/Syntax.lean ====
section
/-! DEFINITION. The syntax of the machine: operand types and the one inductive of instructions and steps. -/
namespace Sys2Proof

/-- A g register number (R83). -/
abbrev GReg := Fin 32
/-- An f register number (R83). -/
abbrev FReg := Fin 16
/-- A vector register number (R83). -/
abbrev VecReg := Fin 16
/-- A tile register number (R264). -/
abbrev TReg := Fin 8
/-- An accumulator number (R264). -/
abbrev ZReg := Fin 4
/-- An m register number (R102), read by MOVM. -/
abbrev MReg := Fin 6
/-- A lookahead count (R115). -/
abbrev Look := Fin 16
/-- A near-unit port number (R308). -/
abbrev Port := Fin 64

/-- A register of the g or the f file, where an instruction names the file (R133, R195). -/
inductive GFReg where
  | g (r : GReg)
  | f (r : FReg)
deriving DecidableEq, Repr

/-- The system registers of R101. -/
inductive SysReg where
  | kid | kself | extset | asid | vfid | dtime | rgnpc | rgnrec | fcause | faddr
  | splo | ovfptr | mwgt | dseed | dkeep | inbstat
deriving DecidableEq, Repr

/-- The levels that CANCEL names (R152). -/
inductive Level where
  | launch | graph | phase | job
deriving DecidableEq, Repr

/-- The rounding codes of R110. -/
inductive Rnd where
  | rne | rtz | rup | rdn | rna
deriving DecidableEq, Repr

/-- The type codes of R110. -/
inductive Ty where
  | s64 | s32 | s16 | s8 | z64 | z32 | z16 | z8 | f32 | f16 | bf16 | f64 | e4m3 | e5m2 | n4
deriving DecidableEq, Repr

/-- The scalar type codes of FCVT (R110). -/
inductive STy where
  | s64 | s32 | z64 | z32 | f32 | f64 | f16 | bf16
deriving DecidableEq, Repr

/-- The source codes of VCVT (R169). -/
inductive VSrc where
  | s32 | z32 | s16 | s8 | f32 | f16 | bf16 | f64
deriving DecidableEq, Repr

/-- The operations of VRED (R194). -/
inductive RedOp where
  | sum | min | max
deriving DecidableEq, Repr

/-- The ordering codes of atomics (R111). -/
inductive Order where
  | plain | acq | rel | ar
deriving DecidableEq, Repr

/-- The kinds of access a translation is made for (R206). -/
inductive Access where
  | read | write | execute
deriving DecidableEq, Repr

/-- A place whose word suffers an uncorrectable error (R212, R333): a word of memory, one of an inbox slot (0 to 5 of the payload, 6 and 7
of the header), one of the n-th message on its way, one of the n-th that SEND has sent to another package, one of a multicast on its way to some domes, one of the n-th packet of a reduction round on its way
to a node, or one of what a node holds of a round. -/
inductive WordPlace where
  | memory (pa : Nat)
  | inbox (core slot word : Nat)
  | flight (n : Nat)
  | sent (n : Nat)
  | branch (multicast : Nat) (domes : List Nat)
  | part (round n : Nat)
  | held (round node : Nat)
deriving DecidableEq, Repr

/-- The agents for which a write is performed as seen (R356): a core with the service contexts that act for it, a copy channel
of a core, a matrix unit, a near unit of a home, a home, a stack reduction engine, an Almucantar array, the Orrery, the Station
Controller, a KCP copy channel, and the host with the other packages. -/
inductive Viewer where
  | core (k : Nat)
  | channel (k n : Nat)
  | matrix (u : Nat)
  | nearUnit (h u : Nat)
  | home (h : Nat)
  | stack (i : Nat)
  | array (dome : Nat)
  | orrery
  | station
  | kcpChannel (n : Nat)
  | uet (source : Nat)
deriving DecidableEq, Repr

/-- The instructions and the steps of the machine: one constructor for each row of spec/opcode_table.json, in its order.
DESIGN CHOICE (log 8), unsafe. -/
inductive Instr where
  -- Register-register integer instructions (R124, R125); w = true is the .s32 form.
  | add (w : Bool) (d a b : GReg)
  | sub (w : Bool) (d a b : GReg)
  | and (w : Bool) (d a b : GReg)
  | or (w : Bool) (d a b : GReg)
  | xor (w : Bool) (d a b : GReg)
  | andn (w : Bool) (d a b : GReg)
  | sll (w : Bool) (d a b : GReg)
  | srl (w : Bool) (d a b : GReg)
  | sra (w : Bool) (d a b : GReg)
  | rot (w : Bool) (d a b : GReg)
  | min (w : Bool) (d a b : GReg)
  | max (w : Bool) (d a b : GReg)
  | minz (w : Bool) (d a b : GReg)
  | maxz (w : Bool) (d a b : GReg)
  | slt (w : Bool) (d a b : GReg)
  | sltz (w : Bool) (d a b : GReg)
  | sel (d a b : GReg)
  | clz (w : Bool) (d a : GReg)
  | ctz (w : Bool) (d a : GReg)
  | popc (w : Bool) (d a : GReg)
  | bswap (w : Bool) (d a : GReg)
  | mov (d a : GReg)
  | movm (d : GReg) (n : MReg)
  -- Multiply and divide (R126); l is the lookahead count.
  | mul (w : Bool) (l : Look) (d a b : GReg)
  | mulh (l : Look) (d a b : GReg)
  | mulhz (l : Look) (d a b : GReg)
  | div (w : Bool) (l : Look) (d a b : GReg)
  | divz (w : Bool) (l : Look) (d a b : GReg)
  | rem (w : Bool) (l : Look) (d a b : GReg)
  | remz (w : Bool) (l : Look) (d a b : GReg)
  -- Immediates, shifts and bit fields (R127); len1 is the length minus 1.
  | addi (d a : GReg) (imm : BitVec 15)
  | addiw (d a : GReg) (imm : BitVec 15)
  | andi (d a : GReg) (imm : BitVec 15)
  | ori (d a : GReg) (imm : BitVec 15)
  | xori (d a : GReg) (imm : BitVec 15)
  | slti (d a : GReg) (imm : BitVec 15)
  | lih (d a : GReg) (imm : BitVec 15)
  | slli (w : Bool) (d a : GReg) (k : Fin 64)
  | srli (w : Bool) (d a : GReg) (k : Fin 64)
  | srai (w : Bool) (d a : GReg) (k : Fin 64)
  | extS64 (d a : GReg) (pos len1 : Fin 64)
  | extZ64 (d a : GReg) (pos len1 : Fin 64)
  | ins (d a : GReg) (pos len1 : Fin 64)
  -- Capability instructions (R128 to R132).
  | cbnd (d a b : GReg)
  | cprm (d a b : GReg)
  | cget (d a : GReg) (sel : Fin 8)
  | ctag (d a : GReg)
  | cstrip (d a : GReg)
  -- Ephemeris instructions (R133 to R136).
  | ewait (r : GFReg)
  | estat (d : GReg)
  | edrop (r : GFReg)
  -- Branches, jumps and regions (R137, R138, R142).
  | beq (a b : GReg) (off : BitVec 12)
  | bne (a b : GReg) (off : BitVec 12)
  | blt (a b : GReg) (off : BitVec 12)
  | bge (a b : GReg) (off : BitVec 12)
  | blo (a b : GReg) (off : BitVec 12)
  | bhs (a b : GReg) (off : BitVec 12)
  | btag (a : GReg) (mask : BitVec 4) (off : BitVec 12)
  | j (off : BitVec 25)
  | jal (off : BitVec 25)
  | jalr (d a : GReg) (imm : BitVec 15)
  | rgn (off : BitVec 25)
  -- System instructions (R146 to R151) and system registers (R150).
  | nop
  | hend
  | trap (code : BitVec 14)
  | brk (code : BitVec 14)
  | tlbi (a : GReg)
  | icinv (a b : GReg)
  | dcwb (a b : GReg)
  | dcinv (a b : GReg)
  | srr (d : GReg) (r : SysReg)
  | srw (r : SysReg) (a : GReg)
  | srx (d : GReg) (r : SysReg) (a : GReg)
  -- Creating and governing work (R152 to R158).
  | spawn (d a b : GReg) (n : Fin 7)
  | launch (d a : GReg)
  | cancel (d a : GReg) (lv : Level)
  | garm (d a b : GReg)
  | grel (d a : GReg)
  -- Scalar floating point, .f32 (R180 to R188).
  | fadd (r : Rnd) (l : Look) (d a b : FReg)
  | fsub (r : Rnd) (l : Look) (d a b : FReg)
  | fmul (r : Rnd) (l : Look) (d a b : FReg)
  | fdiv (r : Rnd) (l : Look) (d a b : FReg)
  | fsqrt (r : Rnd) (l : Look) (d a : FReg)
  | fmin (l : Look) (d a b : FReg)
  | fmax (l : Look) (d a b : FReg)
  | fcmp (l : Look) (d : GReg) (a b : FReg)
  | fcls (l : Look) (d : GReg) (a : FReg)
  | fmvg (l : Look) (d : GReg) (a : FReg)
  | fmvf (l : Look) (d : FReg) (a : GReg)
  -- Scalar floating point, .f64 (X64).
  | faddF64 (r : Rnd) (l : Look) (d a b : FReg)
  | fsubF64 (r : Rnd) (l : Look) (d a b : FReg)
  | fmulF64 (r : Rnd) (l : Look) (d a b : FReg)
  | fdivF64 (r : Rnd) (l : Look) (d a b : FReg)
  | fsqrtF64 (r : Rnd) (l : Look) (d a : FReg)
  | fminF64 (l : Look) (d a b : FReg)
  | fmaxF64 (l : Look) (d a b : FReg)
  | fcmpF64 (l : Look) (d : GReg) (a b : FReg)
  | fclsF64 (l : Look) (d : GReg) (a : FReg)
  | fmvgF64 (l : Look) (d : GReg) (a : FReg)
  | fmvfF64 (l : Look) (d : FReg) (a : GReg)
  -- Fused multiply-add (R187), constants (R188) and conversion (R166, R167; register fields raw).
  | ffma (r : Rnd) (l : Look) (d a b c : FReg)
  | ffmaF64 (r : Rnd) (l : Look) (d a b c : FReg)
  | fliF32 (d : FReg) (imm : BitVec 15)
  | fliF64 (d : FReg) (imm : BitVec 15)
  | fcvt (src dst : STy) (r : Rnd) (l : Look) (d a : Fin 32)
  -- Anchored tasks (R76 to R82); n1 is the count minus 1.
  | anq (d a b : GReg)
  | anqb (d a b : GReg) (n1 : Fin 16)
  | aqcf (d a b : GReg)
  | nlease (d a b : GReg)
  | nfree (d a b : GReg)
  | tret
  -- The vector unit (R189 to R197) and vector conversions (R168 to R172).
  | vadd (t : Ty) (l : Look) (d a b : VecReg)
  | vsub (t : Ty) (l : Look) (d a b : VecReg)
  | vmul (t : Ty) (l : Look) (d a b : VecReg)
  | vfma (t : Ty) (l : Look) (d a b : VecReg)
  | vmin (t : Ty) (l : Look) (d a b : VecReg)
  | vmax (t : Ty) (l : Look) (d a b : VecReg)
  | vabs (t : Ty) (l : Look) (d a : VecReg)
  | vneg (t : Ty) (l : Look) (d a : VecReg)
  | vand (l : Look) (d a b : VecReg)
  | vor (l : Look) (d a b : VecReg)
  | vxor (l : Look) (d a b : VecReg)
  | vsel (t : Ty) (l : Look) (d a b : VecReg)
  | vshl (t : Ty) (l : Look) (d a b : VecReg)
  | vshr (t : Ty) (l : Look) (d a b : VecReg)
  | vcmp (t : Ty) (l : Look) (d a b : VecReg)
  | vdiv (t : Ty) (l : Look) (d a b : VecReg)
  | vred (t : Ty) (l : Look) (d a : VecReg) (op : RedOp)
  | vbc (t : Ty) (l : Look) (d : VecReg) (a : GFReg)
  | vshf (t : Ty) (l : Look) (d a b : VecReg)
  | vmov (l : Look) (d a : VecReg)
  | vget (t : Ty) (l : Look) (d : GReg) (a : VecReg) (b : GReg)
  | vset (t : Ty) (l : Look) (d : VecReg) (a b : GReg)
  | vpack (t : Ty) (l : Look) (d a b : VecReg)
  | ldv (l : Look) (d : VecReg) (a b : GReg)
  | vcvt (t : Ty) (src : VSrc) (r : Rnd) (l : Look) (d a : VecReg)
  | vqnt (t : Ty) (l : Look) (d a b : VecReg)
  | vdqnt (t : Ty) (l : Look) (d a b : VecReg)
  -- Loads and stores (R222 to R231); a raw register field is f for .f32 and .f64, g otherwise.
  | ld (t : Ty) (l : Look) (d : Fin 32) (a b : GReg)
  | lde (t : Ty) (d : Fin 32) (a b : GReg)
  | ldacq (t : Ty) (d a b : GReg)
  | ldc (l : Look) (d a b : GReg)
  | st (t : Ty) (c : Fin 32) (a b : GReg)
  | strel (t : Ty) (c a b : GReg)
  | stc (c a b : GReg)
  | stv (c : VecReg) (a b : GReg)
  -- Atomics, FENCE and WAITA (R234 to R241).
  | amoSwap (o : Order) (w : Bool) (d a b : GReg)
  | amoAdd (o : Order) (w : Bool) (d a b : GReg)
  | amoSetb (o : Order) (w : Bool) (d a b : GReg)
  | amoClrb (o : Order) (w : Bool) (d a b : GReg)
  | amoFlipb (o : Order) (w : Bool) (d a b : GReg)
  | amoKeepb (o : Order) (w : Bool) (d a b : GReg)
  | amoMin (o : Order) (w : Bool) (d a b : GReg)
  | amoMax (o : Order) (w : Bool) (d a b : GReg)
  | amoMinz (o : Order) (w : Bool) (d a b : GReg)
  | amoMaxz (o : Order) (w : Bool) (d a b : GReg)
  | amoIncw (o : Order) (w : Bool) (d a b : GReg)
  | amoDecw (o : Order) (w : Bool) (d a b : GReg)
  | rwrSum (rel : Bool) (t : Ty) (a : GReg) (b : Fin 32)
  | rwrMax (rel : Bool) (t : Ty) (a : GReg) (b : Fin 32)
  | rwrMin (rel : Bool) (t : Ty) (a : GReg) (b : Fin 32)
  | cas (o : Order) (w : Bool) (d a b : GReg)
  | fence (a : GReg)
  | waita (t : Ty) (d a b : GReg)
  -- Copy engines and the stack reduction engine (R255 to R263).
  | cpy (l : Look) (a : GReg)
  | cpyt (l : Look) (d a : GReg)
  | cwm (d : GReg) (ch : Fin 4)
  | cres (d a : GReg)
  | red (l : Look) (d a : GReg)
  -- Matrix units (R277 to R289).
  | mmaBf (c : FReg) (l : Look) (d : ZReg) (a b : TReg)
  | mmaH (c : FReg) (l : Look) (d : ZReg) (a b : TReg)
  | mmaF32 (c : FReg) (l : Look) (d : ZReg) (a b : TReg)
  | mmaI8 (c : FReg) (l : Look) (d : ZReg) (a b : TReg)
  | mmaE44 (c : FReg) (l : Look) (d : ZReg) (a b : TReg)
  | mmaE55 (c : FReg) (l : Look) (d : ZReg) (a b : TReg)
  | mmaE45 (c : FReg) (l : Look) (d : ZReg) (a b : TReg)
  | mmaN4e (c : FReg) (l : Look) (d : ZReg) (a b : TReg)
  | mmaN4 (c : FReg) (l : Look) (d : ZReg) (a b : TReg)
  | tcfg (d : TReg) (a : GReg)
  | tld (l : Look) (d : TReg) (a b : GReg)
  | tldN4 (l : Look) (d : TReg) (a b : GReg)
  | tst (d : TReg) (a b : GReg)
  | zclr (d : ZReg) (a : GReg)
  | zdrn (drop res : Bool) (d : TReg) (z : ZReg) (r : TReg) (b : FReg)
  | zexp (d : GReg) (z : ZReg)
  | zget (d : GReg) (z : ZReg) (b : GReg)
  | mfin (d : GReg)
  -- The Almucantar array (R298 to R303).
  | acfg (d a : GReg)
  | aload (d a : GReg)
  | aeval (d a b : GReg)
  | agth (d a b : GReg)
  -- Messages (R339 to R347) and Meridian (R354, R355).
  | send (d a b : GReg) (n : Fin 7)
  | sendm (d a b : GReg) (n : Fin 7)
  | sendr (d a : GReg) (n : Fin 6)
  | mrel
  | clsw (d a b : GReg)
  | clsr (d a : GReg)
  | clsen (d a b : GReg)
  | cpnd (d : GReg) (sel : Fin 3)
  | mbar (d a : GReg)
  | mwait (a b : GReg)
  | mbc (a b : GReg)
  | mrcv (d a b : GReg)
  -- Compact instructions (R113); w = true is the .s32 form.
  | cAdd (d a : GReg)
  | cSub (d a : GReg)
  | cMov (d a : GReg)
  | cAnd (d a : GReg)
  | cAddi (d : GReg) (i : BitVec 6)
  | cAddiZero (d : GReg) (i : BitVec 6)
  | cSlli (d : GReg) (k : Fin 64)
  | cSrli (d : GReg) (k : Fin 64)
  | cLd (w : Bool) (d a : GReg)
  | cSt (w : Bool) (d a : GReg)
  | cBeq (a : GReg) (off : BitVec 6)
  | cBne (a : GReg) (off : BitVec 6)
  | cJ (off : BitVec 11)
  | cJalrG0 (a : GReg)
  | cJalrLink (a : GReg)
  | cNop
  | cHend
  | cTret
  | cBrk
  | cRgn (off : BitVec 11)
  -- Near-unit forms (R307): guards g, sources s, destinations d of move 0 and move 1.
  | nearTwoMoves (g1 : Fin 4) (s1 d1 : Port) (g0 : Fin 4) (s0 d0 : Port)
  | nearImmediateMove (x : Fin 3) (g : Fin 4) (d : Port) (imm : BitVec 16)
  -- Near-unit and home steps; h is a home, u a near unit, n an index into a list of State.
  | nearChunkArrival (h u : Nat)
  | nearTaskRetirement (h u : Nat)
  | nearInstructionLimit (h u : Nat)
  | nearTake (h u : Nat)
  | nearHeaderReadComplete (h u : Nat)
  | homeEnqueue (n : Nat)
  | homeQueueConfigure (n : Nat)
  | homeLeaseRequest (n : Nat)
  | homeLeaseFree (n : Nat)
  | leaseExpiry (h : Nat)
  | leaseReturnToShared (h : Nat)
  | refreshBurst (h : Nat)
  -- Core-side steps; k is a core.
  | ephemerisResolution (n : Nat)
  | storeAcknowledge (k : Nat)
  | remoteAccessService (k : Nat)
  | atomicAtHome (k : Nat)
  | rwrAtHome (k : Nat)
  | pageTableWalk (k : Nat) (va : BitVec 64) (acc : Access)
  | waitaWake (k : Nat)
  | waitaTimerExpiry (k : Nat)
  -- Message and Meridian steps.
  | messageArrival (n : Nat)
  | handlerStart (k : Nat)
  | parkingTimeout (dome : Nat)
  | spawnResponse (n : Nat)
  | multicastForward (n : Nat) (dome : Nat)
  | reductionMerge (n : Nat)
  | barrierCompletion (c : Nat)
  | broadcastCompletion (c : Nat)
  | preemptionLineRaise (die line : Nat)
  -- Orrery steps.
  | orreryLaunchRequest
  | orreryCancelRequest
  | orreryGarmRequest
  | orreryGrelRequest
  | freeResourceReport (die : Nat)
  | orreryDispatchCycle
  | dieAgentPlacement (n : Nat)
  | tcbHeadBodyRead (g : Nat)
  | tcbBodyStart (g : Nat)
  | domeLeavesRetiring (dome : Nat)
  | meshRestitch (vf : Nat)
  -- Engine steps.
  | copyRequestStart (k : Nat) (ch : Fin 4)
  | copyBeat (k : Nat) (ch : Fin 4)
  | copyCompletion (k : Nat) (ch : Fin 4)
  | copySuspend (k : Nat) (ch : Fin 4)
  | cresAtChannel (n : Nat)
  | redBlockStart (stack : Nat)
  | redBlockCompletion (stack : Nat)
  | redFault (stack : Nat)
  | mmaExecute (unit : Nat)
  | tldExecute (unit : Nat)
  | tstExecute (unit : Nat)
  | zclrExecute (unit : Nat)
  | zdrnExecute (unit : Nat)
  | zexpZgetReturn (unit : Nat)
  | mfinResolution (k : Nat)
  | aloadExecute (dome : Nat)
  | aevalExecute (dome : Nat)
  | agthExecute (dome : Nat)
  -- Pre-emption, migration, power and heat.
  | preemptionRequestArrival (k : Nat)
  | preemptionTake (k : Nat)
  | contextResume (n : Nat)
  | extensionMigration (k : Nat)
  | thermalExchange (dome : Nat)
  | regulatorUpdate (k : Nat)
  | droopPause (k : Nat)
  | thermalSample
  | powerLeaseExpiry
  | packagePowerCheck
  | inletOvertemp
  | patrolScrub (w : Nat)
  -- KCP requests; ep is the endpoint whose oldest request is performed.
  | kcpLaunch (ep : Nat)
  | kcpCopy (ep : Nat)
  | kcpRead (ep : Nat)
  | kcpWrite (ep : Nat)
  | kcpCancel (ep : Nat)
  | kcpClose (ep : Nat)
  | kcpGrant (ep : Nat)
  | kcpListen (ep : Nat)
  | kcpShoot (ep : Nat)
  | kcpCount (ep : Nat)
  | kcpAttest (ep : Nat)
  | kcpOpen (ep : Nat)
  | kcpPart (ep : Nat)
  | kcpToken (ep : Nat)
  | kcpFwupdImage (ep : Nat)
  | kcpFwupdCommit (ep : Nat)
  | kcpSvc (ep : Nat)
  | kcpLog (ep : Nat)
  | kcpKeysAdd (ep : Nat)
  | kcpKeysRevoke (ep : Nat)
  | kcpUnknownOp (ep : Nat)
  | stationControllerRestart
  | stackRecalibrationComplete (stack : Nat)
  | bringUp (failed : Option (Fin 3)) (badDomes : List Nat)
  -- Illegal encodings and events from outside.
  | illegalInstruction (detail : Nat)
  | nearReservedForm (detail : Nat)
  | uetRemoteMemoryAccess (n : Nat)
  | unsupportedUetPacket (n : Nat)
  | wordBecomesUncorrectable (p : WordPlace)
  | refreshDue (h bank : Nat)
  | nearWriteQueueDrain (h u : Nat)
  | inletTemperatureRecovery
  | domeSelfTestComplete (dome : Nat) (pass : Bool)
  | powerLoss
  | writePerformedAsSeen (n : Nat) (v : Viewer)
deriving DecidableEq, Repr

end Sys2Proof
end

