-- ==== Sys2Proof/WellFormed.lean ====
section
/-! DEFINITION. Which instructions are well formed: the operand values that an encoding accepts (R111 to R118). -/
namespace Sys2Proof

/-- The types of LD and ST (R222, R228): ty 0000 to 1000 and 1011. -/
def ldTypes : List Ty := [.s64, .s32, .s16, .s8, .z64, .z32, .z16, .z8, .f32, .f64]
/-- The types of LDE (R222): ty 0000 to 1000. -/
def ldeTypes : List Ty := [.s64, .s32, .s16, .s8, .z64, .z32, .z16, .z8, .f32]
/-- The integer types: ty 0000 to 0111 (LDACQ, STREL, VSHL, VSHR). -/
def intTypes : List Ty := [.s64, .s32, .s16, .s8, .z64, .z32, .z16, .z8]
/-- The types of RWR (R238). -/
def rwrTypes : List Ty := [.s64, .s32, .f32, .bf16]
/-- The types of WAITA (R240). -/
def waitaTypes : List Ty := [.s64, .s32, .z16]
/-- The lane types of most vector instructions (R190): ty 0000 to 1011. -/
def laneTypes : List Ty := [.s64, .s32, .s16, .s8, .z64, .z32, .z16, .z8, .f32, .f16, .bf16, .f64]
/-- The types of VABS and VNEG (R190): signed and float. -/
def signedTypes : List Ty := [.s64, .s32, .s16, .s8, .f32, .f16, .bf16, .f64]
/-- The types of VDIV (R190): ty 1000 to 1011. -/
def floatTypes : List Ty := [.f32, .f16, .bf16, .f64]
/-- The destination types of VPACK (R168). -/
def packTypes : List Ty := [.s16, .s8, .z16, .z8, .f16, .bf16, .e4m3, .e5m2]
/-- The types of VQNT and VDQNT (R168). -/
def qntTypes : List Ty := [.s16, .s8, .z16, .z8, .f16, .bf16, .e4m3, .e5m2, .n4]
/-- The destination types of VCVT (R168). -/
def vcvtTypes : List Ty := [.s32, .s16, .s8, .z32, .z16, .z8, .f32, .f16, .bf16, .f64, .e4m3, .e5m2]

/-- The integer types of R110. -/
def Ty.isInt : Ty → Bool
  | .s64 | .s32 | .s16 | .s8 | .z64 | .z32 | .z16 | .z8 => true
  | .f32 | .f16 | .bf16 | .f64 | .e4m3 | .e5m2 | .n4 => false

/-- The integer types among FCVT's scalar types. -/
def STy.isInt : STy → Bool
  | .s64 | .s32 | .z64 | .z32 => true
  | .f32 | .f64 | .f16 | .bf16 => false

/-- The type that a VCVT source code names (R169). -/
def VSrc.ty : VSrc → Ty
  | .s32 => .s32 | .z32 => .z32 | .s16 => .s16 | .s8 => .s8
  | .f32 => .f32 | .f16 => .f16 | .bf16 => .bf16 | .f64 => .f64

/-- A type pair that FCVT accepts (R166): not equal, and not integer to integer. -/
def fcvtPair (src dst : STy) : Bool := src != dst && !(src.isInt && dst.isInt)

/-- A type pair that VCVT accepts (R169): not equal, and not integer to integer. -/
def vcvtPair (src : VSrc) (dst : Ty) : Bool := src.ty != dst && !(src.ty.isInt && dst.isInt)

/-- The type's register is an f register (R222, R228, R238). -/
def Ty.inF : Ty → Bool
  | .f32 | .f64 => true
  | .s64 | .s32 | .s16 | .s8 | .z64 | .z32 | .z16 | .z8 | .f16 | .bf16 | .e4m3 | .e5m2 | .n4 => false

/-- FCVT's type sits in an f register (R110). -/
def STy.inF : STy → Bool
  | .f32 | .f64 => true
  | .s64 | .s32 | .z64 | .z32 | .f16 | .bf16 => false

/-- The register field lies in the file that the type names (R108). -/
def tReg (t : Ty) (r : Fin 32) : Bool := !t.inF || decide (r.val < 16)

/-- The register field lies in the file that FCVT's type names (R108). -/
def sReg (t : STy) (r : Fin 32) : Bool := !t.inF || decide (r.val < 16)

/-- The payload registers of SEND, SENDM and SENDR exist, and d is 0 where there are none (R339). -/
def payloadOk (d : GReg) (n : Nat) : Bool := decide (d.val + n ≤ 32) && (n != 0 || d == 0)

/-- An instruction that some encoding stands for. -/
def Instr.wf : Instr → Bool
  | .slli w _ _ k => !w || decide (k.val < 32)
  | .srli w _ _ k => !w || decide (k.val < 32)
  | .srai w _ _ k => !w || decide (k.val < 32)
  | .extS64 _ _ pos len1 => decide (pos.val + len1.val + 1 ≤ 64)
  | .extZ64 _ _ pos len1 => decide (pos.val + len1.val + 1 ≤ 64)
  | .ins _ _ pos len1 => decide (pos.val + len1.val + 1 ≤ 64)
  | .btag _ mask _ => !mask.getLsbD 2
  | .ffma r _ _ _ _ _ => r != .rna
  | .ffmaF64 r _ _ _ _ _ => r != .rna
  | .fcvt src dst _ _ d a => fcvtPair src dst && sReg dst d && sReg src a
  | .vadd t _ _ _ _ => laneTypes.contains t
  | .vsub t _ _ _ _ => laneTypes.contains t
  | .vmul t _ _ _ _ => laneTypes.contains t
  | .vfma t _ _ _ _ => laneTypes.contains t
  | .vmin t _ _ _ _ => laneTypes.contains t
  | .vmax t _ _ _ _ => laneTypes.contains t
  | .vabs t _ _ _ => signedTypes.contains t
  | .vneg t _ _ _ => signedTypes.contains t
  | .vsel t _ _ _ _ => laneTypes.contains t
  | .vshl t _ _ _ _ => intTypes.contains t
  | .vshr t _ _ _ _ => intTypes.contains t
  | .vcmp t _ _ _ _ => laneTypes.contains t
  | .vdiv t _ _ _ _ => floatTypes.contains t
  | .vred t _ _ _ _ => laneTypes.contains t
  | .vbc t _ _ _ => laneTypes.contains t
  | .vshf t _ _ _ _ => laneTypes.contains t
  | .vget t _ _ _ _ => laneTypes.contains t
  | .vset t _ _ _ _ => laneTypes.contains t
  | .vpack t _ _ _ _ => packTypes.contains t
  | .vcvt t src r _ _ _ => vcvtTypes.contains t && vcvtPair src t && r != .rna
  | .vqnt t _ _ _ _ => qntTypes.contains t
  | .vdqnt t _ _ _ _ => qntTypes.contains t
  | .ld t _ d _ _ => ldTypes.contains t && tReg t d
  | .lde t d _ _ => ldeTypes.contains t && tReg t d
  | .ldacq t _ _ _ => intTypes.contains t
  | .st t c _ _ => ldTypes.contains t && tReg t c
  | .strel t _ _ _ => intTypes.contains t
  | .rwrSum _ t _ b => rwrTypes.contains t && tReg t b
  | .rwrMax _ t _ b => rwrTypes.contains t && tReg t b
  | .rwrMin _ t _ b => rwrTypes.contains t && tReg t b
  | .waita t _ _ _ => waitaTypes.contains t
  | .cpy _ a => decide (a.val ≤ 28)
  | .cpyt _ _ a => decide (a.val ≤ 28)
  | .zdrn drop res _ _ r b => (drop || b == 0) && (res || r == 0)
  | .aeval _ a _ => decide (a.val ≤ 30)
  | .agth _ a _ => decide (a.val ≤ 28)
  | .send d _ _ n => payloadOk d n.val
  | .sendm d _ _ n => payloadOk d n.val
  | .sendr d _ n => payloadOk d n.val
  | .add .. | .sub .. | .and .. | .or .. | .xor .. | .andn .. | .sll .. | .srl .. | .sra .. | .rot ..
  | .min .. | .max .. | .minz .. | .maxz .. | .slt .. | .sltz .. | .sel .. | .clz .. | .ctz .. | .popc ..
  | .bswap .. | .mov .. | .movm .. | .mul .. | .mulh .. | .mulhz .. | .div .. | .divz .. | .rem .. | .remz ..
  | .addi .. | .addiw .. | .andi .. | .ori .. | .xori .. | .slti .. | .lih .. | .cbnd .. | .cprm .. | .cget ..
  | .ctag .. | .cstrip .. | .ewait .. | .estat .. | .edrop .. | .beq .. | .bne .. | .blt .. | .bge ..
  | .blo .. | .bhs .. | .j .. | .jal .. | .jalr .. | .rgn .. | .nop | .hend | .trap .. | .brk .. | .tlbi ..
  | .icinv .. | .dcwb .. | .dcinv .. | .srr .. | .srw .. | .srx .. | .spawn .. | .launch .. | .cancel ..
  | .garm .. | .grel .. | .fadd .. | .fsub .. | .fmul .. | .fdiv .. | .fsqrt .. | .fmin .. | .fmax ..
  | .fcmp .. | .fcls .. | .fmvg .. | .fmvf .. | .faddF64 .. | .fsubF64 .. | .fmulF64 .. | .fdivF64 ..
  | .fsqrtF64 .. | .fminF64 .. | .fmaxF64 .. | .fcmpF64 .. | .fclsF64 .. | .fmvgF64 .. | .fmvfF64 ..
  | .fliF32 .. | .fliF64 .. | .anq .. | .anqb .. | .aqcf .. | .nlease .. | .nfree .. | .tret | .vand ..
  | .vor .. | .vxor .. | .vmov .. | .ldv .. | .ldc .. | .stc .. | .stv .. | .amoSwap .. | .amoAdd ..
  | .amoSetb .. | .amoClrb .. | .amoFlipb .. | .amoKeepb .. | .amoMin .. | .amoMax .. | .amoMinz ..
  | .amoMaxz .. | .amoIncw .. | .amoDecw .. | .cas .. | .fence .. | .cwm .. | .cres .. | .red .. | .mmaBf ..
  | .mmaH .. | .mmaF32 .. | .mmaI8 .. | .mmaE44 .. | .mmaE55 .. | .mmaE45 .. | .mmaN4e .. | .mmaN4 ..
  | .tcfg .. | .tld .. | .tldN4 .. | .tst .. | .zclr .. | .zexp .. | .zget .. | .mfin .. | .acfg ..
  | .aload .. | .mrel | .clsw .. | .clsr .. | .clsen .. | .cpnd .. | .mbar .. | .mwait .. | .mbc .. | .mrcv ..
  | .cAdd .. | .cSub .. | .cMov .. | .cAnd .. | .cAddi .. | .cAddiZero .. | .cSlli .. | .cSrli .. | .cLd ..
  | .cSt .. | .cBeq .. | .cBne .. | .cJ .. | .cJalrG0 .. | .cJalrLink .. | .cNop | .cHend | .cTret | .cBrk
  | .cRgn .. | .nearTwoMoves .. | .nearImmediateMove .. | .nearChunkArrival .. | .nearTaskRetirement ..
  | .nearInstructionLimit .. | .nearTake .. | .nearHeaderReadComplete .. | .homeEnqueue ..
  | .homeQueueConfigure .. | .homeLeaseRequest .. | .homeLeaseFree .. | .leaseExpiry ..
  | .leaseReturnToShared .. | .refreshBurst .. | .ephemerisResolution .. | .storeAcknowledge ..
  | .remoteAccessService .. | .atomicAtHome .. | .rwrAtHome .. | .pageTableWalk .. | .waitaWake ..
  | .waitaTimerExpiry .. | .messageArrival .. | .handlerStart .. | .parkingTimeout .. | .spawnResponse ..
  | .multicastForward .. | .reductionMerge .. | .barrierCompletion .. | .broadcastCompletion ..
  | .preemptionLineRaise .. | .orreryLaunchRequest | .orreryCancelRequest | .orreryGarmRequest
  | .orreryGrelRequest | .freeResourceReport .. | .orreryDispatchCycle | .dieAgentPlacement ..
  | .tcbHeadBodyRead .. | .tcbBodyStart .. | .domeLeavesRetiring .. | .meshRestitch .. | .copyRequestStart ..
  | .copyBeat .. | .copyCompletion .. | .copySuspend .. | .cresAtChannel .. | .redBlockStart ..
  | .redBlockCompletion .. | .redFault .. | .mmaExecute .. | .tldExecute .. | .tstExecute .. | .zclrExecute ..
  | .zdrnExecute .. | .zexpZgetReturn .. | .mfinResolution .. | .aloadExecute .. | .aevalExecute ..
  | .agthExecute .. | .preemptionRequestArrival .. | .preemptionTake .. | .contextResume ..
  | .extensionMigration .. | .thermalExchange .. | .regulatorUpdate .. | .droopPause .. | .thermalSample
  | .powerLeaseExpiry | .packagePowerCheck | .inletOvertemp | .patrolScrub .. | .kcpLaunch .. | .kcpCopy ..
  | .kcpRead .. | .kcpWrite .. | .kcpCancel .. | .kcpClose .. | .kcpGrant .. | .kcpListen .. | .kcpShoot ..
  | .kcpCount .. | .kcpAttest .. | .kcpOpen .. | .kcpPart .. | .kcpToken .. | .kcpFwupdImage ..
  | .kcpFwupdCommit .. | .kcpSvc .. | .kcpLog .. | .kcpKeysAdd .. | .kcpKeysRevoke .. | .kcpUnknownOp ..
  | .stationControllerRestart | .stackRecalibrationComplete .. | .bringUp .. | .illegalInstruction ..
  | .nearReservedForm .. | .uetRemoteMemoryAccess .. | .unsupportedUetPacket .. | .wordBecomesUncorrectable ..
  | .refreshDue .. | .nearWriteQueueDrain .. | .inletTemperatureRecovery | .domeSelfTestComplete ..
  | .powerLoss | .writePerformedAsSeen .. => true

end Sys2Proof
end

