-- ==== Sys2Proof/Machine/Float.lean ====
section
/-! DEFINITION. Number formats, exact values, and the rounding that arithmetic and conversions share (R159 to R165,
R177, R182 to R185). -/
namespace Sys2Proof.Machine

/-- A floating-point format (R159): width, exponent and fraction widths, bias, and whether it follows IEEE 754 in
its infinities and NaNs; E4M3 does not. -/
structure Fmt where
  w : Nat
  ew : Nat
  mw : Nat
  bias : Int
  ieee : Bool
deriving DecidableEq, Repr

/-- FP64 (R159). -/
def fp64 : Fmt := ⟨64, 11, 52, 1023, true⟩
/-- FP32 (R159). -/
def fp32 : Fmt := ⟨32, 8, 23, 127, true⟩
/-- FP16 (R159). -/
def fp16 : Fmt := ⟨16, 5, 10, 15, true⟩
/-- BF16 (R159). -/
def bf16 : Fmt := ⟨16, 8, 7, 127, true⟩
/-- E5M2 (R159). -/
def e5m2 : Fmt := ⟨8, 5, 2, 15, true⟩
/-- E4M3 (R159). -/
def e4m3 : Fmt := ⟨8, 4, 3, 7, false⟩

/-- A number as an operation sees it: a NaN with its sign and fraction, an infinity, or a sign with the exact
magnitude num / den. -/
inductive FVal where
  | nan (neg : Bool) (frac : Nat)
  | inf (neg : Bool)
  | fin (neg : Bool) (num den : Nat)
deriving DecidableEq, Repr

/-- The sign bit of a code. -/
def Fmt.sign (f : Fmt) (x : Nat) : Bool := x / 2 ^ (f.w - 1) % 2 == 1
/-- The exponent field of a code. -/
def Fmt.exp (f : Fmt) (x : Nat) : Nat := x / 2 ^ f.mw % 2 ^ f.ew
/-- The fraction field of a code. -/
def Fmt.frac (f : Fmt) (x : Nat) : Nat := x % 2 ^ f.mw
/-- A code from its sign and the rest. -/
def Fmt.code (f : Fmt) (neg : Bool) (mag : Nat) : Nat := (if neg then 2 ^ (f.w - 1) else 0) + mag
/-- The magnitude code of infinity. -/
def Fmt.infMag (f : Fmt) : Nat := (2 ^ f.ew - 1) * 2 ^ f.mw
/-- The magnitude code of the largest finite value (R159). -/
def Fmt.maxMag (f : Fmt) : Nat := if f.ieee then f.infMag - 1 else 2 ^ (f.ew + f.mw) - 2
/-- The quiet bit of the fraction (R160). -/
def Fmt.quiet (f : Fmt) : Nat := 2 ^ (f.mw - 1)
/-- The canonical NaN (R160): positive, quiet, every other fraction bit 0. -/
def Fmt.canonical (f : Fmt) : Nat := if f.ieee then f.infMag + f.quiet else 2 ^ (f.ew + f.mw) - 1
/-- The code is a NaN (R159). -/
def Fmt.isNan (f : Fmt) (x : Nat) : Bool :=
  if f.ieee then f.exp x == 2 ^ f.ew - 1 && f.frac x != 0 else x % 2 ^ (f.w - 1) == 2 ^ (f.ew + f.mw) - 1
/-- The code is an infinity (R159). -/
def Fmt.isInf (f : Fmt) (x : Nat) : Bool := f.ieee && f.exp x == 2 ^ f.ew - 1 && f.frac x == 0
/-- The code is a zero of either sign. -/
def Fmt.isZero (f : Fmt) (x : Nat) : Bool := x % 2 ^ (f.w - 1) == 0

/-- n · 2^e as a numerator and a denominator. -/
def scale (n : Nat) (e : Int) : Nat × Nat := if 0 ≤ e then (n * 2 ^ e.toNat, 1) else (n, 2 ^ (-e).toNat)

/-- The value of a code (R159). -/
def Fmt.value (f : Fmt) (x : Nat) : FVal :=
  if f.isNan x then .nan (f.sign x) (f.frac x)
  else if f.isInf x then .inf (f.sign x)
  else
    let r := if f.exp x = 0 then scale (f.frac x) (1 - f.bias - f.mw)
             else scale (2 ^ f.mw + f.frac x) (f.exp x - f.bias - f.mw)
    .fin (f.sign x) r.1 r.2

/-! ## Rounding a magnitude (R164) -/

/-- Whether the upper neighbour is taken: `odd` the last bit below, `r / d` the remainder in units of the last
place (R110, R164). -/
def roundUp (rnd : Rnd) (neg odd : Bool) (r d : Nat) : Bool :=
  match rnd with
  | .rne => decide (d < 2 * r) || (decide (2 * r = d) && odd)
  | .rna => decide (d ≤ 2 * r)
  | .rtz => false
  | .rup => !neg && r != 0
  | .rdn => neg && r != 0

/-- n / d rounded to a natural number. -/
def roundNat (rnd : Rnd) (neg : Bool) (n d : Nat) : Nat :=
  let q := n / d
  if roundUp rnd neg (q % 2 == 1) (n % d) d then q + 1 else q

/-- The exponent e with 2^e ≤ n / d < 2^(e+1), for n > 0. -/
def exponent (n d : Nat) : Int :=
  let e : Int := (Nat.log2 n : Int) - (Nat.log2 d : Int)
  let below := if 0 ≤ e then decide (n < d * 2 ^ e.toNat) else decide (n * 2 ^ (-e).toNat < d)
  if below then e - 1 else e

/-- The magnitude code nearest to n / d in the format with its exponent unbounded above (R164 steps 3 and 4). -/
def Fmt.magOf (f : Fmt) (rnd : Rnd) (neg : Bool) (n d : Nat) : Nat :=
  if n = 0 then 0
  else
    let e := max (exponent n d) (1 - f.bias)
    let u := e - f.mw
    let r := if 0 ≤ u then roundNat rnd neg n (d * 2 ^ u.toNat) else roundNat rnd neg (n * 2 ^ (-u).toNat) d
    ((e + f.bias - 1) * 2 ^ f.mw + r).toNat

/-- The IEEE result beyond the largest finite value: infinity, or the largest finite value where the rounding
points inward (R177). -/
def Fmt.overflow (f : Fmt) (rnd : Rnd) (neg : Bool) : Nat :=
  match rnd with
  | .rne | .rna => f.infMag
  | .rtz => f.maxMag
  | .rup => if neg then f.maxMag else f.infMag
  | .rdn => if neg then f.infMag else f.maxMag

/-- An exact finite value rounded as arithmetic rounds it (R177). -/
def Fmt.roundArith (f : Fmt) (rnd : Rnd) (neg : Bool) (n d : Nat) : Nat :=
  let m := f.magOf rnd neg n d
  f.code neg (if f.maxMag < m then f.overflow rnd neg else m)

/-- An exact finite value rounded as a conversion rounds it: it saturates (R164 step 5). -/
def Fmt.roundSat (f : Fmt) (rnd : Rnd) (neg : Bool) (n d : Nat) : Nat := f.code neg (min (f.magOf rnd neg n d) f.maxMag)

/-! ## Signed sums -/

/-- A signed exact value: integer numerator over a positive denominator. -/
def signed (neg : Bool) (n : Nat) : Int := if neg then -(n : Int) else n

/-- The sign of an exact sum or product that is zero: that of both parts where they agree, else + in every mode
but RDN (R177). -/
def zeroSign (rnd : Rnd) (a b : Bool) : Bool := if a == b then a else rnd == .rdn

/-- The sum of two finite values, rounded (R177). -/
def Fmt.addFin (f : Fmt) (rnd : Rnd) (na : Bool) (a da : Nat) (nb : Bool) (b db : Nat) : Nat :=
  let s := signed na a * db + signed nb b * da
  if s = 0 then f.code (if a = 0 ∧ b = 0 then zeroSign rnd na nb else rnd == .rdn) 0
  else f.roundArith rnd (decide (s < 0)) s.natAbs (da * db)

/-- A NaN operand as a result: its quiet bit set (R177). -/
def Fmt.quieted (f : Fmt) (x : Nat) : Nat := if f.frac x / f.quiet % 2 = 1 then x else x + f.quiet

/-- The first NaN among operands, quieted (R177). -/
def Fmt.firstNan (f : Fmt) : List Nat → Option Nat
  | [] => none
  | x :: rest => if f.isNan x then some (f.quieted x) else f.firstNan rest

/-- x + y, with the sign of y flipped where `sub` (R177, R182). -/
def Fmt.add (f : Fmt) (rnd : Rnd) (sub : Bool) (x y : Nat) : Nat :=
  match f.firstNan [x, y] with
  | some r => r
  | none =>
    match f.value x, f.value y with
    | .inf a, .inf b => if a == (b != sub) then f.code a f.infMag else f.canonical
    | .inf a, _ => f.code a f.infMag
    | _, .inf b => f.code (b != sub) f.infMag
    | .fin a n d, .fin b m e => f.addFin rnd a n d (b != sub) m e
    | _, _ => f.canonical

/-- x · y (R177, R182). -/
def Fmt.mul (f : Fmt) (rnd : Rnd) (x y : Nat) : Nat :=
  match f.firstNan [x, y] with
  | some r => r
  | none =>
    match f.value x, f.value y with
    | .inf a, .inf b => f.code (a != b) f.infMag
    | .inf a, .fin b n _ => if n = 0 then f.canonical else f.code (a != b) f.infMag
    | .fin a n _, .inf b => if n = 0 then f.canonical else f.code (a != b) f.infMag
    | .fin a n d, .fin b m e => f.roundArith rnd (a != b) (n * m) (d * e)
    | _, _ => f.canonical

/-- x / y (R177, R182). -/
def Fmt.div (f : Fmt) (rnd : Rnd) (x y : Nat) : Nat :=
  match f.firstNan [x, y] with
  | some r => r
  | none =>
    match f.value x, f.value y with
    | .inf _, .inf _ => f.canonical
    | .inf a, .fin b _ _ => f.code (a != b) f.infMag
    | .fin a _ _, .inf b => f.code (a != b) 0
    | .fin a n d, .fin b m e =>
      if m = 0 then (if n = 0 then f.canonical else f.code (a != b) f.infMag)
      else f.roundArith rnd (a != b) (n * e) (d * m)
    | _, _ => f.canonical

/-- The sign of a zero that is the sum of a zero product and a zero addend (R187). DEDUCED (log 96), unsafe: -0 in RDN whatever the
two signs, as R187 says and a plain sum by IEEE 754 does not. -/
def fmaZero (rnd : Rnd) (a b : Bool) : Bool := (a && b) || rnd == .rdn

/-- x · y + z in one rounding (R177, R187). -/
def Fmt.fma (f : Fmt) (rnd : Rnd) (x y z : Nat) : Nat :=
  match f.firstNan [x, y, z] with
  | some r => r
  | none =>
    match f.value x, f.value y, f.value z with
    | .fin a n d, .fin b m e, .fin c p q =>
      if n * m = 0 ∧ p = 0 then f.code (fmaZero rnd (a != b) c) 0 else f.addFin rnd (a != b) (n * m) (d * e) c p q
    | .fin _ _ _, .fin _ _ _, .inf c => f.code c f.infMag
    | _, _, vz =>
      let zero := f.isZero x || f.isZero y
      let s := f.sign x != f.sign y
      match vz with
      | .inf c => if zero || s != c then f.canonical else f.code c f.infMag
      | _ => if zero then f.canonical else f.code s f.infMag

/-- Bits of the floor of the square root, from bit b - 1 down, above the bits already found. -/
def rootBits (n : Nat) : Nat → Nat → Nat
  | 0, r => r
  | b + 1, r => if (r + 2 ^ b) * (r + 2 ^ b) ≤ n then rootBits n b (r + 2 ^ b) else rootBits n b r

/-- The floor of the square root. -/
def rootFloor (n : Nat) : Nat := rootBits n (Nat.log2 n / 2 + 1) 0

/-- The square root (R177, R182). -/
def Fmt.sqrt (f : Fmt) (rnd : Rnd) (x : Nat) : Nat :=
  match f.value x with
  | .nan _ _ => f.quieted x
  | .inf neg => if neg then f.canonical else x
  | .fin neg n d =>
    if n = 0 then x
    else if neg then f.canonical
    else
      -- floor(2^k sqrt(n / d)), with a lower half bit that says whether anything is left
      let e := exponent n d
      let k := 2 * f.mw + (if e < 0 then (-e).toNat else 0) + 4
      let t := n * 4 ^ k / d
      let r := rootFloor t
      let exact := decide (r * r * d = n * 4 ^ k)
      f.roundArith rnd false (2 * r + (if exact then 0 else 1)) (2 ^ (k + 1))

/-- A sign and magnitude that orders the codes that are no NaN, -0 below +0 (R183). -/
def Fmt.rank (f : Fmt) (x : Nat) : Int :=
  let m : Int := (x % 2 ^ (f.w - 1) : Nat)
  if f.sign x then -m - 1 else m

/-- The lesser of two codes (R183). -/
def Fmt.fmin (f : Fmt) (x y : Nat) : Nat :=
  if f.isNan x && f.isNan y then f.canonical
  else if f.isNan x then y else if f.isNan y then x
  else if f.rank x ≤ f.rank y then x else y

/-- The greater of two codes (R183). -/
def Fmt.fmax (f : Fmt) (x y : Nat) : Nat :=
  if f.isNan x && f.isNan y then f.canonical
  else if f.isNan x then y else if f.isNan y then x
  else if f.rank y ≤ f.rank x then x else y

/-- The relation code of two codes (R184): 1 below, 2 equal, 4 above, 8 unordered. -/
def Fmt.relation (f : Fmt) (x y : Nat) : Nat :=
  if f.isNan x || f.isNan y then 8
  else if f.isZero x && f.isZero y then 2
  else if f.rank x < f.rank y then 1 else if f.rank x = f.rank y then 2 else 4

/-- The class word of a code (R185). -/
def Fmt.classWord (f : Fmt) (x : Nat) : Nat :=
  (if f.sign x then 0x80 else 0) +
  (if f.isNan x then (if f.frac x / f.quiet % 2 = 1 then 0x10 else 0x20)
   else if f.isInf x then 0x08
   else if f.isZero x then 0x01
   else if f.exp x = 0 then 0x02 else 0x04)

/-! ## Conversions (R164, R165) -/

/-- A NaN in a format that has NaNs: sign kept, fraction at the top, quiet bit set; E4M3 has one NaN for each sign
(R165). `smw` is the width of the source's fraction. -/
def Fmt.nanFrom (f : Fmt) (neg : Bool) (frac smw : Nat) : Nat :=
  if f.ieee then
    let fr := if smw ≤ f.mw then frac * 2 ^ (f.mw - smw) else frac / 2 ^ (smw - f.mw)
    f.code neg (f.infMag + (if fr / f.quiet % 2 = 1 then fr else fr + f.quiet))
  else f.code neg (2 ^ (f.ew + f.mw) - 1)

/-- An infinity: the target's, or its largest finite value where it has none (R164 step 1). -/
def Fmt.infFrom (f : Fmt) (neg : Bool) : Nat := f.code neg (if f.ieee then f.infMag else f.maxMag)

/-- A value converted to a format, saturating (R164, R165). -/
def Fmt.convert (f : Fmt) (rnd : Rnd) (smw : Nat) : FVal → Nat
  | .nan neg frac => f.nanFrom neg frac smw
  | .inf neg => f.infFrom neg
  | .fin neg n d => f.roundSat rnd neg n d

/-- A value converted to the integers from lo to hi, saturating; a NaN gives 0 (R164, R165). DESIGN CHOICE (log 95), unsafe: where the
type has no negative value, minus infinity and what lies below 0 give 0. -/
def toInt (rnd : Rnd) (lo hi : Int) : FVal → Int
  | .nan _ _ => 0
  | .inf neg => if neg then lo else hi
  | .fin neg n d => max lo (min hi (signed neg (roundNat rnd neg n d)))

/-- An integer as an exact value. -/
def ofInt (i : Int) : FVal := .fin (decide (i < 0)) i.natAbs 1

/-- The value is a NaN. -/
def FVal.isNan : FVal → Bool
  | .nan _ _ => true
  | _ => false

/-- The quotient of two values: x/0 is an infinity; 0/0, infinity over infinity and a NaN give a NaN (R170). DESIGN CHOICE (log 88),
unsafe: of two NaNs the dividend's. -/
def FVal.div : FVal → FVal → FVal
  | .nan s f, _ => .nan s f
  | _, .nan s f => .nan s f
  | .inf _, .inf _ => .nan false 0
  | .inf a, .fin b _ _ => .inf (a != b)
  | .fin a _ _, .inf b => .fin (a != b) 0 1
  | .fin a n d, .fin b m e =>
    if m = 0 then (if n = 0 then .nan false 0 else .inf (a != b)) else .fin (a != b) (n * e) (d * m)

/-! ## N4 blocks (R161) -/

/-- The code value of a 4-bit code of type T, as sign and twice its magnitude. -/
def n4Twice (t c : Nat) : Bool × Nat :=
  match t with
  | 0 => if 8 ≤ c then (true, 2 * (16 - c)) else (false, 2 * c)
  | 1 => (decide (8 ≤ c), [0, 1, 2, 3, 4, 6, 8, 12].getD (c % 8) 0)
  | 2 => (decide (8 ≤ c), if c % 8 = 0 then 0 else 2 ^ (c % 8))
  | _ => (decide (8 ≤ c), [0, 2, 4, 6, 8, 12, 16, 24].getD (c % 8) 0)

/-- The value of a code under a scale byte: code value times 2^(e - 32) (R161). -/
def n4Value (scaleByte c : Nat) : FVal :=
  let v := n4Twice (scaleByte / 64 % 4) (c % 16)
  let r := scale v.2 ((scaleByte % 64 : Nat) - 33)
  .fin v.1 r.1 r.2

/-- |a/b - c/d| compared: the first is nearer to n/d than the second, or as near and its code is even. -/
def n4Nearer (sb : Nat) (neg : Bool) (n d : Nat) (c best : Nat) : Bool :=
  let dist (c : Nat) : Nat × Nat :=
    match n4Value sb c with
    | .fin s m e => ((signed s m * d - signed neg n * e).natAbs, d * e)
    | _ => (0, 1)
  let x := dist c
  let y := dist best
  decide (x.1 * y.2 < y.1 * x.2) || (decide (x.1 * y.2 = y.1 * x.2) && c % 2 == 0 && best % 2 == 1)

/-- The codes of a block type, smallest magnitude first, those of one sign; -0 stands where the type has it. -/
def n4Codes (t : Nat) (neg : Bool) : List Nat :=
  if neg then (if t = 0 then [0, 15, 14, 13, 12, 11, 10, 9, 8] else [8, 9, 10, 11, 12, 13, 14, 15])
  else List.range 8

/-- A value rounded RNE to a code of a block; it saturates, a NaN gives +0, and a zero takes the value's sign where
the type has -0 (R164, R165). -/
def n4Quantise (sb : Nat) : FVal → Nat
  | .nan _ _ => 0
  | .inf neg => (n4Codes (sb / 64 % 4) neg).getLastD 0
  | .fin neg n d => (n4Codes (sb / 64 % 4) neg).foldl (fun best c => if n4Nearer sb neg n d c best then c else best)
      ((n4Codes (sb / 64 % 4) neg).headD 0)

/-! ## Formats of the types of R110 -/

/-- The floating-point format of a type. -/
def tyFmt : Ty → Option Fmt
  | .f32 => some fp32 | .f16 => some fp16 | .bf16 => some bf16 | .f64 => some fp64
  | .e4m3 => some e4m3 | .e5m2 => some e5m2
  | .s64 | .s32 | .s16 | .s8 | .z64 | .z32 | .z16 | .z8 | .n4 => none

/-- The width of a type in bits (R189, R267). -/
def tyWidth : Ty → Nat
  | .s64 | .z64 | .f64 => 64
  | .s32 | .z32 | .f32 => 32
  | .s16 | .z16 | .f16 | .bf16 => 16
  | .s8 | .z8 | .e4m3 | .e5m2 => 8
  | .n4 => 4

/-- The type is a signed integer type. -/
def tySigned : Ty → Bool
  | .s64 | .s32 | .s16 | .s8 => true
  | .z64 | .z32 | .z16 | .z8 | .f32 | .f16 | .bf16 | .f64 | .e4m3 | .e5m2 | .n4 => false

/-- The low w bits of a number as a signed integer. -/
def sextNat (w x : Nat) : Int := let y := x % 2 ^ w; if y < 2 ^ (w - 1) then (y : Int) else (y : Int) - 2 ^ w

/-- A signed integer as w bits. -/
def bitsOf (w : Nat) (i : Int) : Nat := (i % (2 ^ w : Int)).toNat

/-- The value of an element of a type. -/
def tyValue (t : Ty) (x : Nat) : FVal :=
  match tyFmt t with
  | some f => f.value x
  | none => ofInt (if tySigned t then sextNat (tyWidth t) x else (x % 2 ^ tyWidth t : Nat))

/-- A value converted to a type, as its bits (R164, R165); `smw` is the source's fraction width. -/
def tyConvert (t : Ty) (rnd : Rnd) (smw : Nat) (v : FVal) : Nat :=
  match tyFmt t with
  | some f => f.convert rnd smw v
  | none =>
    let w := tyWidth t
    if tySigned t then bitsOf w (toInt rnd (-(2 ^ (w - 1))) (2 ^ (w - 1) - 1) v)
    else bitsOf w (toInt rnd 0 (2 ^ w - 1) v)

/-- The fraction width of a type, 0 for an integer type. -/
def tyFrac (t : Ty) : Nat := match tyFmt t with | some f => f.mw | none => 0

end Sys2Proof.Machine
end

