-- ==== Sys2Proof/Machine/State.lean ====
section
/-! DEFINITION. The state of the machine as plain data, the reasons a step can stop, and the state after reset. -/
namespace Sys2Proof.Machine

/-- A finite table from numbers to entries, in ascending number. -/
abbrev Map (α : Type) := List (Nat × α)

/-! ## Registers -/

/-- The 2-bit tag of a g or f register (R87). -/
inductive Tag where
  | data | cap | eph | pois
deriving DecidableEq, Repr

/-- A g or f register: tag, value and metadata (R83, R87). -/
structure Reg where
  tag : Tag
  value : Word
  info : Word
deriving DecidableEq, Repr

/-- A vector register: 256 bits and one poison bit for each 32-bit lane (R83). -/
structure VReg where
  value : VWord
  pois : BitVec 8
deriving DecidableEq, Repr

/-- The kind of an ephemeris (R95). -/
inductive EphKind where
  | i64 | i32 | f32
deriving DecidableEq, Repr

/-- The state of a symbol (R96). -/
inductive SymState where
  | free | pending | resolved
deriving DecidableEq, Repr

/-- An entry of a core's symbol table (R96). -/
structure Sym where
  state : SymState
  count : Nat
  kind : EphKind
  gen : BitVec 4
deriving DecidableEq, Repr

/-- The symbol that a request's late value resolves: number and generation (R96). -/
structure SymRef where
  sym : Fin 32
  gen : BitVec 4
deriving DecidableEq, Repr

/-! ## Memory -/

/-- The mark of a poisoned word (R212). -/
inductive Mark where
  | hardware | stored
deriving DecidableEq, Repr

/-- A set of agents (R211, R318, R358): one agent, a core with its copy channels, the cores of a dome or of a die, all agents of a
dome or of a die, a home with its near units, those of the package. -/
inductive Seer where
  | one (v : Viewer)
  | own (k : Nat)
  | coresOfDome (d : Nat)
  | coresOfDie (d : Nat)
  | dome (d : Nat)
  | die (d : Nat)
  | home (h : Nat)
  | package
deriving DecidableEq, Repr

/-- The agents that belong to every listed set; with none listed, every agent. -/
abbrev Audience := List Seer

/-- A write that has left its issuer and is not yet performed as seen by every agent (R356, R360): the bytes,
granule tags and word marks it replaced, the audiences that have seen it, the writes it must follow as seen by
the agents of `inScope` (R233), those that an acquire of it brings without such an order, each with the agents it brings them to
(R363), whether it is an atomic's (R363), and, for an atomic's, the earlier atomics of its 8-byte words (R235, R356). -/
structure Unseen where
  id : Nat
  writer : Viewer
  bytes : List Host.Cell
  tags : List (Nat × Bool)
  marks : List (Nat × Option Mark)
  seenBy : List Audience
  inScope : Audience
  after : List Nat
  carry : List (Nat × Audience)
  atomic : Bool
  order : List Nat
deriving DecidableEq, Repr

/-- A core's watch on an 8-byte word for WAITA (R241): the word, the time of the last read, and whether a wake
has been sent since. -/
structure Watch where
  core : Nat
  word : Nat
  since : Nat
  woken : Bool
deriving DecidableEq, Repr

/-- The memory of the package: bytes by physical address, the granules whose hidden tag is set (R93), the marks
of poisoned words (R212), the words with flipped bits that no read has met yet and how many (R212, R216), the writes not yet
seen by all, and the watches of WAITA. -/
structure Memory where
  cells : List Host.Cell
  tags : List Nat
  marks : Map Mark
  upsets : Map Nat
  unseen : List Unseen
  nextId : Nat
  watches : List Watch
deriving DecidableEq, Repr

/-- The bytes of one granule or line held outside memory: value, tags of its granules and marks of its words. -/
structure Line where
  base : Nat
  bytes : List Byte
  tags : List Bool
  marks : List (Option Mark)
  dirty : Bool
deriving DecidableEq, Repr

/-- A TLB entry (R208): the page's virtual base and size, and the leaf's fields (R205). -/
structure TlbEntry where
  asid : Nat
  va : Nat
  size : Nat
  pa : Nat
  sc : Nat
  mt : Nat
  r : Bool
  w : Bool
  x : Bool
  d : Bool
deriving DecidableEq, Repr

/-! ## Messages -/

/-- A message as it stands in its 64-byte beat (R321). -/
structure Msg where
  dest : Nat
  src : Nat
  pri : Nat
  cls : Nat
  xpkg : Bool
  incomplete : Bool
  flags : BitVec 6
  launch : Nat
  time : BitVec 48
  ptag : BitVec 12
  m : Vector Word 6
deriving DecidableEq, Repr

/-- An anchored task's entry: home, queue and sequence number. -/
structure TaskRef where
  home : Nat
  queue : Nat
  seq : Nat
deriving DecidableEq, Repr

/-- What a message is for: it decides who may take it, which PC it starts and how it counts. -/
inductive MsgKind where
  /-- The start of a unit of a launch (R28). -/
  | start (unit : Nat)
  /-- The delivery of a far body (R68). -/
  | task (t : TaskRef)
  /-- SEND or SENDM (R342, R343). -/
  | send
  /-- SPAWN, with the symbol its status resolves and the landing slot at the sender (R53), and the stamp of the sender's launch
  (R54). -/
  | spawn (st : Option SymRef) (landing : Nat) (born : Option Nat)
  /-- The result of a reduction group (R336). -/
  | root (group : Nat)
  /-- A copy or NFREE completion message, for a reserved slot (R250, R81). -/
  | completion
  /-- A fault message (R371, R252, R319, R31). -/
  | fault
  /-- A NOTIFY message (R42). -/
  | notify
  /-- A message from another package (R338). -/
  | cross
deriving DecidableEq, Repr

/-- The engines that generate messages (R330). -/
inductive Engine where
  | channel (core n : Nat) | home (h : Nat) | nearUnit (h u : Nat) | stack (i : Nat) | orrery
deriving DecidableEq, Repr

/-- A message with what the device keeps about it: whether it added a member to its launch (R24), the writes that its
handler's start acquires (R348, R363), the virtual function that sent it (R55), and the engine that generated it (R330). -/
structure Packet where
  msg : Msg
  kind : MsgKind
  member : Bool
  carried : List Nat
  vf : Nat
  engine : Option Engine
deriving DecidableEq, Repr

/-- Where a message is on its way (R331). -/
inductive Travel where
  /-- In the sender's outbound queue or on a link. -/
  | link
  /-- In the parking buffer of the destination's dome, since a time. -/
  | parked (since : Nat)
  /-- On its way from a die agent to the reserved inbox slot (R49). -/
  | placed (slot : Nat)
deriving DecidableEq, Repr

/-- A message on its way. -/
structure Flight where
  packet : Packet
  travel : Travel
deriving DecidableEq, Repr

/-- The state of an inbox slot (R323). -/
inductive Slot where
  | free
  /-- Kept for a start message or delivery on its way (R49). -/
  | reserved
  /-- Kept as the landing of a SPAWN's bounce (R53). -/
  | landing
  | holds (p : Packet)
deriving DecidableEq, Repr

/-! ## Activations -/

/-- The running activation of a core (R21, R22). `regionNo` counts the regions of the core; a queued request
carries the number of its region. `counted`: it is a member of its launch (R24). `base` is the core's region number when
the activation came to it: its requests carry that number or a higher one. `left` is the base core that it has migrated from
(R380). -/
structure Act where
  launch : Nat
  kind : MsgKind
  counted : Bool
  startPc : Word
  entry : Bool
  gmask : BitVec 32
  fmask : BitVec 16
  vmask : BitVec 16
  tmask : BitVec 8
  zmask : BitVec 4
  commit : Bool
  carve : Nat
  slim : Nat
  ovf : Word
  base : Nat
  left : Option Nat
deriving DecidableEq, Repr

/-- A register that an instruction reads or writes, by file. -/
inductive RegName where
  | g (r : GReg) | f (r : FReg) | v (r : VecReg) | t (r : TReg) | z (r : ZReg)
deriving DecidableEq, Repr

/-- An open lookahead window (R116, R117): the registers of D, the position of the last instruction issued in
it, and its length. -/
structure Window where
  regs : List RegName
  pos : Nat
  len : Nat
deriving DecidableEq, Repr

/-- What an activation is stalled on (R374). -/
inductive Wait where
  | operand | lookahead | symbolTable | ewait | liveIn | copyFifo | watermark | matrixQueue | arrayQueue | outbound
  | waita | mwait | unitValue | migration | saving | exchange
deriving DecidableEq, Repr

/-! ## Store buffer and split-phase loads -/

/-- The operators of AMO (R236). -/
inductive AmoOp where
  | swap | add | setb | clrb | flipb | keepb | min | max | minz | maxz | incw | decw
deriving DecidableEq, Repr

/-- What a store-buffer entry does at its performance point (R232). -/
inductive BufOp where
  /-- A store: the little-endian bytes as a number, the words that take the stored mark, and whether the granule's
  tag is set. -/
  | store (data : Nat) (pois : BitVec 4) (setTag : Bool)
  | amo (op : AmoOp) (y : Nat) (res : Option SymRef)
  | cas (e y : Nat) (res : Option SymRef)
  | rwr (op : RedOp) (ty : Ty) (y : Nat)
deriving DecidableEq, Repr

/-- An entry of the store buffer (R232): place, size, scope and order (R233); whether it is served by the data cache, or acts at
memory once the line that holds it has been written back and invalidated (R221); of a release the writes that the core had read
or acquired at its issue (R361). -/
structure BufEntry where
  va : Nat
  pa : Nat
  size : Nat
  scope : Nat
  cached : Bool
  bypass : Bool
  acquire : Bool
  release : Bool
  op : BufOp
  prior : List Nat := []
deriving DecidableEq, Repr

/-- An LDE that has issued and is not yet performed (R225): `behind` entries of the store buffer leave before it is. -/
structure Lde where
  va : Nat
  pa : Nat
  ty : Ty
  cached : Bool
  res : Option SymRef
  behind : Nat
deriving DecidableEq, Repr

/-- A late value on its way to a core's symbol: the value to resolve with, DATA or POIS (R99), and the writes
acquired with it (R363). -/
structure Arrival where
  core : Nat
  res : SymRef
  value : Reg
  carried : List Nat
deriving DecidableEq, Repr

/-! ## Copy channels -/

/-- One side of a copy request: a virtual address of the issuer, or a remote word (R246). -/
inductive CopySide where
  | here (va : Nat)
  | remote (package va : Nat)
deriving DecidableEq, Repr

/-- A copy request with what is recorded at its issue (R244, R256). -/
structure CopyReq where
  src : CopySide
  dst : CopySide
  shape : Word
  flag : Nat
  asid : Nat
  vf : Nat
  launch : Nat
  super : Nat
  region : Nat
  ordinal : Nat
  carried : List Nat
deriving DecidableEq, Repr

/-- Why a channel is suspended (R252): the side, the cause and detail, the faulting address, and the size of the page or word
that holds it. -/
structure CopyFault where
  side : Nat
  cause : Nat
  detail : Nat
  addr : Word
  size : Nat
deriving DecidableEq, Repr

/-- The state of a copy channel (R257). -/
inductive ChanState where
  | idle | active | suspended | abandoned
deriving DecidableEq, Repr

/-- A copy channel: the active request, the bytes of its extent already written, its watermark, and the words
that poison-and-continue marks (R248, R252, R258). `ids` names the writes of the request; `sent` counts the bytes of a remote
beat that UET has not acknowledged yet, and `refused` is the reason where the other package has refused it (R246, R252). -/
structure Channel where
  state : ChanState
  req : Option CopyReq
  done : Nat
  wm : Nat
  fault : Option CopyFault
  skips : List CopyFault
  ids : List Nat
  sent : Nat
  refused : Option Nat
deriving DecidableEq, Repr

/-! ## Matrix units and arrays -/

/-- A poison record in the layout of R100 (R269); origin 0 is clean. -/
abbrev PoisonRecord := Word

/-- A shape register's fields (R267). -/
structure Shape where
  rows : Nat
  fmt : Ty
  cols : Nat
deriving DecidableEq, Repr

/-- A tile: 16 rows of 128 bytes, its shape, 128 sidecar bytes and its poison record (R264 to R269). -/
structure Tile where
  data : BitVec 16384
  shape : Shape
  sidecar : BitVec 1024
  pois : PoisonRecord
deriving DecidableEq, Repr

/-- An accumulator's contents: 256 mantissas, exponent, special codes, origin and poison record (R264, R270). -/
structure AccBody where
  m : Vector Int 256
  e : Int
  code : Vector (BitVec 2) 256
  orgRow : BitVec 24
  orgCol : BitVec 24
  pois : PoisonRecord
deriving DecidableEq, Repr

/-- An accumulator with its region image and the region whose snapshot it is (R272). -/
structure Acc where
  body : AccBody
  image : AccBody
  mark : Option Nat
deriving DecidableEq, Repr

/-- A translated extent of a matrix or array command: virtual address, physical address, bytes, and its page's scope
(R210, R281). -/
structure Extent where
  va : Nat
  pa : Nat
  size : Nat
  sc : Nat
deriving DecidableEq, Repr

/-- The operand formats of the nine MMA opcodes (R284). -/
inductive MmaOp where
  | bf | h | f32 | i8 | e44 | e55 | e45 | n4e | n4
deriving DecidableEq, Repr

/-- A command of a matrix queue with what it recorded at issue (R274); `renew` is no command: it stands where the unit resets what it
holds for the core, or takes the tiles and accumulators of a context over, after the commands before it (R265, R378). -/
inductive MatCmd where
  | mma (op : MmaOp) (z : ZReg) (a b : TReg) (sa sb : Shape) (p : Nat) (pois : PoisonRecord)
  | tld (n4 : Bool) (t : TReg) (sh : Shape) (rows sides : List (List Extent))
  | tst (t : TReg) (sh : Shape) (rows : List (List Extent))
  | zclr (z : ZReg) (word : Word)
  | zdrn (drop res : Bool) (t : TReg) (z : ZReg) (r : TReg) (sh rsh : Shape) (p : BitVec 32) (seed : Word)
      (keep : BitVec 32)
  | zexp (d : GReg) (z : ZReg)
  | zget (d : GReg) (z : ZReg) (n : Nat)
  | mfin (res : SymRef)
  | renew (all : Bool) (tiles : Map Tile) (accs : Map Acc)
deriving DecidableEq, Repr

/-- A queued matrix command: the command, its region and the writes it acquires (R272, R290). -/
structure MatEntry where
  cmd : MatCmd
  region : Nat
  carried : List Nat
deriving DecidableEq, Repr

/-- What a matrix unit holds for one logical core (R264, R274), the value it has returned for a blocked ZEXP or
ZGET (R288), and the writes that the core's commands have made (R290). -/
structure MatCore where
  tiles : Vector Tile 8
  accs : Vector Acc 4
  owner : Nat × Nat
  queue : List MatEntry
  value : Option Reg
  ids : List Nat
deriving DecidableEq, Repr

/-- The ring position of a resource shared by weighted round robin (R275, R296, R44): the holder, if any, and how
many grants it has left. -/
structure Turn where
  holder : Option Nat
  left : Nat
deriving DecidableEq, Repr

/-- The three resources of a matrix unit (R274, R275). -/
structure MatUnit where
  array : Turn
  path : Turn
  port : Turn
  throttled : Bool
deriving DecidableEq, Repr

/-- A command of an array queue with what it recorded at issue (R296, R301 to R303). -/
inductive ArrCmd where
  | aload (image : List Extent)
  | aeval (n : Nat) (features out : List Extent)
  | agth (n : Nat) (leaves table partials out : List Extent)
deriving DecidableEq, Repr

/-- A queued array command (R296). -/
structure ArrEntry where
  cmd : ArrCmd
  key : Nat
  fmt : Bool
  asid : Nat
  vf : Nat
  res : Option SymRef
  region : Nat
  carried : List Nat
deriving DecidableEq, Repr

/-- A cell of the Almucantar array: the fields that count of its image (R292). -/
structure ArrCell where
  thr : BitVec 16
  fidx : BitVec 8
  v : Bool
  mr : Bool
  mask : Word
deriving DecidableEq, Repr

/-- The array of a dome: cells by column and row, 64 times column plus row, and what ALOAD recorded (R295). -/
structure AlmArray where
  cells : Map ArrCell
  ivalid : Bool
  key : Nat
  fmt : Bool
  asid : Nat
  vf : Nat
  turn : Option Nat
deriving DecidableEq, Repr

/-! ## A core -/

/-- Everything a logical core holds (R83, R101 and the rules named by the fields). Its KID is its number, and its
EXTSET follows from it (R11). `obs` names the writes that it has read or acquired, `atomicObs` those read by its atomics that have
left the buffer (R361), `fenced` those that its FENCEs cover with the agents of their scopes (R363), `landed` the writes of its
completed copies that it has not acquired (R248), and `owed` those that the late values in its registers bring, to be acquired by
the first instruction that reads the register (R363). `trimmed` is the reference cycle of its regulator's latest loop (R383). -/
structure Core where
  g : Vector Reg 32
  f : Vector Reg 16
  v : Vector VReg 16
  pc : Word
  act : Option Act
  regionNo : Nat
  windows : List Window
  wait : Option Wait
  sym : Vector Sym 32
  kself : Nat
  asid : Nat
  vfid : Nat
  rgnpc : Word
  rgnrec : Word
  fcause : BitVec 16
  faddr : Word
  splo : Word
  ovfptr : Word
  mwgt : BitVec 4
  dseed : Word
  dkeep : BitVec 32
  arrCfg : Word
  classes : Vector Word 64
  slots : Vector Slot 32
  order : List (Fin 32)
  pinned : Option (Fin 32)
  rounds : Map Nat
  buf : List BufEntry
  ldes : List Lde
  dcache : List Line
  icache : List Line
  tlb : List TlbEntry
  fifo : List CopyReq
  ordinal : Nat
  chans : Vector Channel 4
  arrQueue : List ArrEntry
  obs : List Nat
  atomicObs : List Nat
  fenced : List (Nat × Audience)
  landed : List (CopyReq × List Nat)
  owed : List (RegName × List Nat)
  bc : Map (SymRef × Word)
  lineMask : BitVec 8
  preempt : Bool
  busyFor : Option (Nat × Nat)
  step : Nat
  stepSince : Nat
  thermalCap : Nat
  slackCap : Nat
  supply : Nat
  trimmed : Option Nat
  asking : Bool
  vacated : Option Nat
  exchanged : Option Nat
deriving DecidableEq, Repr

/-! ## Homes, near units and stacks -/

/-- A task descriptor's fields (R32). -/
structure TaskDesc where
  anchor : Nat
  alen : Nat
  nearpc : Nat
  queue : Nat
  farOnly : Bool
  nearOnly : Bool
  ordered : Bool
  fclass : Nat
  farpc : Word
  tkind : Nat
  tidx : Nat
  args : Vector Word 4
deriving DecidableEq, Repr

/-- The conditions of an anchor-queue entry (R64). -/
inductive Cond where
  | waiting | taken | offered | delivered
deriving DecidableEq, Repr

/-- An anchor-queue entry (R64): descriptor, physical anchor, the permissions of the enqueuing capability and of
the page, the page's scope (R211), its context launch (R69), the core on whose behalf it was enqueued, the writes its bodies
acquire (R71), and the stamp of the time when the Orrery first took it from its stream (R45). -/
structure Entry where
  seq : Nat
  cond : Cond
  headerRead : Bool
  passed : Bool
  desc : TaskDesc
  pa : Nat
  perms : Word
  pageR : Bool
  pageW : Bool
  sc : Nat
  ctx : Nat
  core : Nat
  carried : List Nat
  turn : Nat
deriving DecidableEq, Repr

/-- An anchor queue (R64, R65, R79). -/
structure Queue where
  entries : List Entry
  counter : Nat
  thresh : Nat
  dpri : Nat
deriving DecidableEq, Repr

/-- A near-unit value: eight 32-bit lanes and their poison bits (R306). -/
structure NearVal where
  lanes : Vector (BitVec 32) 8
  pois : BitVec 8
deriving DecidableEq, Repr

/-- A near-body image (R316) with its key (R317). -/
structure Image where
  asid : Nat
  pa : Nat
  stamp : BitVec 32
  code : List (BitVec 32)
deriving DecidableEq, Repr

/-- A chunk of the load FIFO: its bytes once it has arrived (R313). -/
structure Chunk where
  off : Nat
  arrived : Option NearVal
deriving DecidableEq, Repr

/-- A store waiting in a near unit's write queue: offset, value and lane mask (R313, R315). -/
structure NearWrite where
  off : Nat
  value : NearVal
  mask : BitVec 8
deriving DecidableEq, Repr

/-- What a near unit is doing. -/
inductive NearMode where
  | idle
  /-- Reading the header of a selected head (R317). -/
  | header (queue seq : Nat)
  | running (queue seq : Nat)
  /-- After done: the write queue drains, then the task retires (R314). -/
  | retiring (queue seq : Nat)
deriving DecidableEq, Repr

/-- A near unit (R306). `count` is the number of instructions of the task; `cache` has the image started last
first (R317). -/
structure NearUnit where
  mode : NearMode
  n : Vector NearVal 8
  o : NearVal
  res : NearVal
  k : BitVec 4
  sta : BitVec 32
  stm : BitVec 8
  fifo : List Chunk
  index : Nat
  count : Nat
  image : Image
  writes : List NearWrite
  cache : List Image
deriving DecidableEq, Repr

/-- The completion owed to an NFREE: its status symbol and message (R81). -/
structure FreeNote where
  core : Nat
  res : Option SymRef
  cls : Option Nat
  launch : Nat
deriving DecidableEq, Repr

/-- A home (R62 to R75): its queues and units, the lease, the postponed refreshes of its banks, the writes of retired
tasks to their own anchors (`released`), and all their writes (`retired`), which later bodies, at any home, acquire (R71). -/
structure Home where
  queues : Vector Queue 8
  ptr : Nat
  units : Vector NearUnit 4
  lease : Option (Nat × Nat)
  returning : Bool
  notes : List FreeNote
  refresh : Map Nat
  burst : Bool
  released : List Nat
  retired : List Nat
deriving DecidableEq, Repr

/-- Who issues a request to the Orrery or to a home, as the request carries it: the core, the reference cycle of its issue,
its launch and that launch's stamp, the job, the virtual function and ASID, and the graph and phase of the launch. -/
structure Asker where
  core : Nat
  since : Nat
  launch : Nat
  born : Option Nat
  job : Nat
  vf : Nat
  asid : Nat
  graph : Option Nat
  phase : Option Nat
deriving DecidableEq, Repr

/-- A request on its way to a home (R78 to R81), with the issuing core and the symbol of its status. -/
inductive HomeReq where
  | enqueue (who : Asker) (res : Option SymRef) (descs : List (Option (BitVec 512))) (base top perms : Nat)
      (carried : List Nat)
  | config (core : Nat) (res : Option SymRef) (home : Nat) (word : Word)
  | lease (core : Nat) (res : Option SymRef) (home launch : Nat) (born : Option Nat) (count : Nat)
  | free (core : Nat) (res : Option SymRef) (home launch : Nat) (born : Option Nat) (word : Word)
deriving DecidableEq, Repr

/-- A parameter block of a stack reduction engine with what its issue recorded (R259, R263). -/
structure RedBlock where
  block : BitVec 1024
  addr : Nat
  asid : Nat
  vf : Nat
  launch : Nat
  core : Nat
  carried : List Nat
deriving DecidableEq, Repr

/-- A stack: its reduction engine with the elements and the writes of its active block (R260), and what the management of
heat and service says of it. -/
structure Stack where
  queue : List RedBlock
  active : Option RedBlock
  done : Nat
  ids : List Nat
  blocked : Bool
  recal : Bool
deriving DecidableEq, Repr

/-! ## Levels of work -/

/-- A completion counter record (R24). -/
structure Counts where
  closed : Bool
  members : Nat
  done : Nat
  faulted : Nat
  cancelled : Nat
deriving DecidableEq, Repr

/-- A launch descriptor's fields (R26), with the tags its template words were read with (R28). -/
structure LaunchDesc where
  pc : Word
  pri : Nat
  cls : Nat
  notify : Bool
  carve : Nat
  slim : Nat
  units : Nat
  domes : BitVec 64
  super : Nat
  fclass : Nat
  job : Nat
  phase : Nat
  gv : Bool
  graph : Nat
  ovf : Word
  ncore : Nat
  ncls : Nat
  template : Vector Word 6
  ttags : BitVec 6
deriving DecidableEq, Repr

/-- A live launch (R23, R24): descriptor, counters, the next undispatched unit, its pins (R69, R31, R424, R336), the TCB
it is the body of, the writes its units acquire (R41), those its ended units have released (R148), the core on whose
behalf the Orrery sends for it (R321), and the stamp that tells it from other launches of its index. -/
structure Launch where
  desc : LaunchDesc
  counts : Counts
  next : Nat
  vf : Nat
  asid : Nat
  pins : Nat
  cancelled : Bool
  tcb : Option Nat
  carried : List Nat
  finished : List Nat
  core : Nat
  born : Nat
deriving DecidableEq, Repr

/-- A live graph (R23): its counters, its owners and its ready queue of TCBs with the cycle in which each became READY, and
the head's priority once its body has been read, and the reference cycle of its latest start of a TCB (R52). -/
structure Graph where
  counts : Counts
  job : Nat
  phase : Nat
  ready : List (Nat × Nat)
  headPri : Option Nat
  started : Option Nat
deriving DecidableEq, Repr

/-- A live phase (R23). -/
structure Phase where
  counts : Counts
  job : Nat
deriving DecidableEq, Repr

/-- A live job (R23, R399), with its first faulted launch (R25). -/
structure Job where
  counts : Counts
  vf : Nat
  asid : Nat
  firstFault : Option Nat
deriving DecidableEq, Repr

/-- A completion reported over KCP (R25): the virtual function, the level and index, the outcome in the coding of
R42, and the first faulted launch of a job. -/
structure Report where
  vf : Nat
  level : Level
  index : Nat
  outcome : Nat
  first : Option Nat
deriving DecidableEq, Repr

/-- The states of a TCB (R30). -/
inductive TcbState where
  | free | armed | ready | running | done | faulted | cancelled
deriving DecidableEq, Repr

/-- The owner record of a TCB (R31). -/
structure Owner where
  launch : Nat
  job : Nat
  asid : Nat
  vf : Nat
  super : Nat
  fclass : Nat
  pri : Nat
  core : Nat
deriving DecidableEq, Repr

/-- A TCB in the Orrery's table (R29 to R31): kind 0 NULL, 1 LAUNCH, 2 TASK; the task count and how its tasks
ended (R429); the writes its body acquires (R157, R363). -/
structure Tcb where
  kind : Nat
  state : TcbState
  counter : Nat
  graph : Nat
  body : Nat
  succ : List Nat
  user : Word
  owner : Owner
  tasks : Nat
  anyFault : Bool
  anyCancel : Bool
  carried : List Nat
deriving DecidableEq, Repr

/-- A request that waits at the Orrery (R153, R426), with the symbol of its status. -/
inductive OrreryReq where
  | launch (who : Asker) (res : Option SymRef) (addr : Nat) (carried : List Nat)
  | cancel (who : Asker) (res : Option SymRef) (lv : Level) (index : Word)
  | garm (who : Asker) (res : Option SymRef) (addr : Nat) (near : Bool) (index : Word) (carried : List Nat)
  | grel (who : Asker) (res : Option SymRef) (index : Word)
deriving DecidableEq, Repr

/-- A saved context as the Orrery knows it (R376, R378, R425): the stamp that orders the saves, its launch, KSELF, the address
of its record, whether it needs an extended core, and what the record does not show of its activation and its messages.
DEDUCED (log 38), unsafe. -/
structure Saved where
  stamp : Nat
  launch : Nat
  kself : Nat
  record : Nat
  ext : Bool
  vf : Nat
  asid : Nat
  pri : Nat
  act : Option Act
  inbox : List (Fin 32 × Packet)
  pinned : Option (Fin 32)
  carried : List Nat
deriving DecidableEq, Repr

/-- A task that a home has passed to the Orrery (R67). -/
structure Offer where
  t : TaskRef
  vf : Nat
  pri : Nat
deriving DecidableEq, Repr

/-- An item that the Orrery places (R43, R45): a unit, an offered task, a saved context, or the READY head of a graph. -/
inductive Item where
  | unit (launch unit : Nat)
  | task (o : Offer)
  | ctx (c : Saved)
  | tcb (graph : Nat)
deriving DecidableEq, Repr

/-- A placement passed to a die agent (R49). -/
structure Placement where
  item : Item
  dome : Nat
deriving DecidableEq, Repr

/-- A virtual function (R44, R55, R204, R428, R327): its partition, weight, context table, slice window base,
listener launches by package, and whether remote access is enabled. -/
structure Vf where
  domes : List Nat
  weight : Nat
  ctx : Nat
  swb : Nat
  listen : Map Nat
  remote : Bool
deriving DecidableEq, Repr

/-- The service state of a dome (R56, R57, R400, R405); a retiring one may have a new owner already (R57). -/
inductive DomeMode where
  | unassigned
  | owned (vf : Nat)
  | retiring (vf : Nat) (service : Bool) (next : Option Nat)
  | testing
  | disabled
deriving DecidableEq, Repr

/-- A report of a die agent about a dome (R47): the reference cycle in which it was sent, IDLE and FREE. -/
structure CountReport where
  sent : Nat
  idle : Nat
  free : Nat
deriving DecidableEq, Repr

/-- A dome: its core table (R381), array, service state, the Orrery's counts, a report on its way (R47), and the two logical cores
of a thermal exchange that runs (R381). -/
structure Dome where
  phys : Map Nat
  alm : AlmArray
  mode : DomeMode
  idle : Nat
  free : Nat
  noExt : Bool
  noBase : Bool
  throttled : Bool
  report : Option CountReport
  exchange : Option (Nat × Nat)
deriving DecidableEq, Repr

/-! ## Networks -/

/-- The kinds of a route entry (R328): dimension order, the next dome of a ring, the next dome toward a tree's root, the
domes of the branches below. -/
inductive Route where
  | dimension | ring (next : Nat) | treeUp (root next : Nat) | treeDown (branches : List Nat)
deriving DecidableEq, Repr

/-- How the mesh links inside a partition are stitched (R58). -/
inductive Topology where
  | ring | tree | torus
deriving DecidableEq, Repr

/-- A re-stitching of a partition that waits until the partition is quiet (R58): the topology, if it changes, and the
route entries to load, by dome and class. -/
structure Restitch where
  vf : Nat
  topology : Option Topology
  loads : List (Nat × Nat × Route)
deriving DecidableEq, Repr

/-- A group (R334). -/
inductive Group where
  | multicast (vf route : Nat) (members : List Nat)
  | reduction (vf route : Nat) (contrib : List Nat) (root rclass rpri op fmt nw launch : Nat)
deriving DecidableEq, Repr

/-- A copy of a multicast (R335): in a whole-packet buffer of the router of a dome, or still in the outbound queue of a core of that
dome (R331), with the members that it is still to serve. -/
structure McCopy where
  node : Nat
  queued : Bool
  left : List Nat
deriving DecidableEq, Repr

/-- A multicast on its way down its tree (R335): the class whose route entries carry it (R334), and its copies. -/
structure Multicast where
  packet : Packet
  route : Nat
  copies : List McCopy
deriving DecidableEq, Repr

/-- A packet of a round on its way to a node of the tree, the router of a dome (R336): the mask of its contributors, its
words, and the core whose outbound queue it may still stand in (R331). -/
structure Part where
  node : Nat
  mask : BitVec 64
  words : List Word
  src : Option Nat
deriving DecidableEq, Repr

/-- An open round of a reduction group (R336): the packets on their way up its tree, what each node holds, and the writes
that the root handler acquires. -/
structure Round where
  group : Nat
  round : Nat
  parts : List Part
  held : Map Part
  carried : List Nat
  abandoned : Bool
deriving DecidableEq, Repr

/-- A barrier channel (R351): owner, participants, count, phase, the ticks of the completions on their way, and the tick and
core of the last arrival registered. -/
structure Barrier where
  vf : Option Nat
  parties : Nat
  count : Nat
  p : Bool
  flips : List Nat
  last : Option (Nat × Nat)
deriving DecidableEq, Repr

/-- A broadcast slot (R352): owner, value, sequence, and the writes on their way with their ticks and cores. -/
structure Bcast where
  vf : Option Nat
  value : BitVec 32
  seq : BitVec 32
  pending : List (Nat × Nat × BitVec 32)
deriving DecidableEq, Repr

/-! ## The Station Controller and the host -/

/-- The counters that the chapters name (R401); a number names the stack, dome, core, home or endpoint. -/
inductive Counter where
  | corrected (place : Nat) | poisoned (place : Nat) | merges (place : Nat) | cleared (place : Nat)
  | poisonLoads (place : Nat) | atomicPoison (place : Nat) | mixedReduction | nanToZero (k : Nat)
  | nanToZeroUnit (u : Nat)
  | dropped (k : Nat) | discarded (k : Nat) | spawnRefused (k : Nat) | badTag | renormSaturated (k : Nat)
  | invalidLeaf (dome : Nat) | arrayPoison (dome : Nat) | redPoison (stack : Nat) | notifyDiscarded
  | linkDropped | linkCorrected | lapsedPreempt | droop (k : Nat) | stepTime (k step : Nat) | exchanges (k : Nat)
  | lapsed (k : Nat) | tokens | tokensIgnored | tokensExpired | tokensClamped | badPacket | crossDropped
  | parkTimeout (k : Nat) | minimum (region : Nat)
deriving DecidableEq, Repr

/-- The events of the log (R401). DESIGN CHOICE (log 51), safe. -/
inductive LogCode where
  | poison | park | domeFailed | firmware | keyChange | safe | restart | token | inlet | recal
deriving DecidableEq, Repr

/-- A log entry (R401): TIME, SRC, CODE and the 16 bytes of DATA. -/
structure LogEntry where
  time : Nat
  src : Nat
  code : LogCode
  data : BitVec 128
deriving DecidableEq, Repr

/-- A firmware slot (R403). -/
structure FwSlot where
  version : BitVec 32
  image : List Byte
  valid : Bool
  ready : Bool
deriving DecidableEq, Repr

/-- The state of bring-up (R400), and of a restart of the Station Controller after a firmware update, from READY or from SAFE
(R403). -/
inductive BootState where
  | booting | ready | restarting | safe | restartingSafe
deriving DecidableEq, Repr

/-- What PART sets (R397). -/
inductive PartOp where
  | assign (vf dome : Nat) | remove (dome : Nat) (preempt : Bool) | weight (vf w : Nat)
  | context (vf base : Nat) | swb (vf base : Nat) | remote (vf : Nat) (on : Bool)
  | channel (c vf parties : Nat) | slot (c vf : Nat) | line (die n vf : Nat) | group (n : Nat) (g : Group)
  | route (dome cls : Nat) (r : Route) | stitch (vf : Nat) (t : Topology) | package (n : Nat)
deriving DecidableEq, Repr

/-- The body of a KCP request (R397, R399, R403). DESIGN CHOICE (log 46), unsafe. -/
inductive KcpBody where
  | launchAt (addr job : Nat) (reserved : Bool)
  | launchBody (desc : BitVec 1024)
  | copy (job src dst len flag fval : Nat)
  | read (job addr len : Nat)
  | write (job addr : Nat) (data : List Byte)
  | cancel (lv : Level) (index : Word)
  | close (phase : Bool) (index : Nat)
  | grant (job addr : Nat) (value info : Word)
  | listen (clear : Bool) (package launch : Nat)
  | shoot (asid va : Nat)
  | count (c : Counter)
  | attest (nonce : List Byte)
  | open (body : BitVec 128)
  | part (op : PartOp)
  | token (body : BitVec 128)
  | fwupd (commit : Bool) (reserved : Bool) (image : List Byte)
  | svc (stack : Bool) (index : Nat) (back : Bool)
  | log (first n : Nat)
  | keys (body : BitVec 320)
  | other (op : Nat)
deriving DecidableEq, Repr

/-- The 16-byte header of a KCP request or reply (R397): RPLY, OP, STAT, TAG, LEN and the reserved bytes 12 to 15. -/
structure KcpHeader where
  rply : Bool
  op : BitVec 15
  stat : BitVec 16
  tag : BitVec 32
  len : BitVec 32
  reserved : BitVec 32
deriving DecidableEq, Repr

/-- A KCP request at an endpoint (R397): its header, the key that signed it, its body, whether the Station Controller was
restarting, or in SAFE, when it arrived (R400, R403), and the reference cycle in which it arrived (R391). -/
structure KcpReq where
  header : KcpHeader
  signer : Option (BitVec 256)
  body : KcpBody
  busy : Bool
  arrived : Nat
deriving DecidableEq, Repr

/-- A KCP reply (R397): header and body; for READ the offsets of the poisoned words, for LOG the entries. -/
structure KcpReply where
  endpoint : Nat
  header : KcpHeader
  body : List Byte
  poisoned : List Nat
  entries : List LogEntry
deriving DecidableEq, Repr

/-- A COPY or WRITE that an endpoint is performing (R10, R398): the KCP copy channel of a COPY, what it copies from which pages to
which, the place of its flag and the value, the bytes and the flag that it has written, and its writes with the agents of their
pages' scopes. A COPY's addresses are translated when it is taken up (log 78). -/
structure KcpRun where
  channel : Option Nat
  src : Nat
  dst : Nat
  len : Nat
  sources : List Extent
  dests : List Extent
  flag : Extent
  val : Nat
  done : Nat
  flagged : Bool
  ids : List (Nat × Audience)
deriving DecidableEq, Repr

/-- An arriving UET packet (R394, R338, R246), with the package or host that sent it. -/
inductive UetPacket where
  | message (srcPkg : Nat) (vf : Nat) (msg : Msg)
  | read (source vf asid va len : Nat)
  | write (source vf asid va : Nat) (data : List Byte) (pois : Bool)
  | unsupported
deriving DecidableEq, Repr

/-- What the outside world sends to the package. DEDUCED (log 58), safe. -/
inductive Input where
  | kcp (endpoint : Nat) (req : KcpReq)
  | uet (p : UetPacket)
  | temperature (region : Nat) (quarters : Int)
  | power (watts : Nat)
  | inlet (quarters : Int)
  | slack (core : Nat) (slack : Int)
  | remoteData (package vf asid va : Nat) (data : List Byte) (refusal : Option Nat)
  | remoteAck (core channel : Nat) (refusal : Option Nat)
  | upset (pa : Nat)
  | linkUpset
  | slackTarget (goal : Int)
deriving DecidableEq, Repr

/-- A remote write that a copy channel has sent (R246): package, the job's virtual function and ASID, address, bytes, and whether
they are poison (R258). -/
structure RemoteWrite where
  package : Nat
  vf : Nat
  asid : Nat
  va : Nat
  data : List Byte
  pois : Bool
deriving DecidableEq, Repr

/-- What another package has answered to a channel's read (R246): package, the job's virtual function and ASID, address, and the
bytes or the reason of its refusal. -/
structure RemoteData where
  package : Nat
  vf : Nat
  asid : Nat
  va : Nat
  data : List Byte
  refusal : Option Nat
deriving DecidableEq, Repr

/-- The Station Controller (R391, R396, R401 to R403). -/
structure Station where
  boot : BootState
  counters : List (Counter × Nat)
  log : List LogEntry
  keys : List (BitVec 256)
  slotA : FwSlot
  slotB : FwSlot
  activeB : Bool
  fused : BitVec 32
  rows : Nat
  anyToken : Bool
  lastSeq : BitVec 32
  budget : Nat
  expiry : Nat
  inletOver : Bool
  inletSince : Nat
  packageCap : Nat
  halfArrays : Bool
  suspended : Bool
  sampledAt : Option Nat
  checkedAt : Option Nat
  power : Nat
  inlet : Int
  temps : Map Int
  sampled : Map Int
  balances : Map Int
  minima : Map Int
  slackTarget : Int
  slacks : Map Int
  package : Option Nat
deriving DecidableEq, Repr

/-! ## Whose turn it is -/

/-- A turn: which agent acts next. It is the model's own record of the order in which agents move. -/
inductive Move where
  | core (k : Nat)
  | near (h u : Nat)
  | event (i : Instr)
  | tick
  | performLde (k n : Nat)
  | recordLeaves (word : Nat)
  | input (i : Input)
deriving DecidableEq, Repr

/-- The whole package. `served` is the reference cycle in which the Orrery processed its latest request (R426), `dispatched`
that in which it last placed items (R43). -/
structure State where
  mem : Memory
  cores : Map Core
  mats : Map MatCore
  matUnits : Map MatUnit
  domes : Map Dome
  homes : Map Home
  stackTable : Map Stack
  launches : Map Launch
  graphs : Map Graph
  phases : Map Phase
  jobs : Map Job
  tcbs : Map Tcb
  accepted : List Nat
  front : List Item
  offers : List Offer
  saved : List Saved
  turns : Vector Turn 4
  oreqs : List OrreryReq
  served : Option Nat
  dispatched : Option Nat
  placements : List Placement
  vfs : Map Vf
  hreqs : List HomeReq
  flights : List Flight
  multis : List Multicast
  rounds : List Round
  groups : Map Group
  routes : Map Route
  barriers : Map Barrier
  bcasts : Map Bcast
  lines : Map Nat
  stitch : Option Restitch
  topologies : Map Topology
  reports : List Report
  cres : List (Nat × Nat × Option SymRef × Word)
  lastRwr : Map (RedOp × Ty)
  arrivals : List Arrival
  kcp : Map (List KcpReq)
  kcpRuns : Map KcpRun
  replies : List KcpReply
  uet : List UetPacket
  sent : List (Nat × Msg)
  remote : List RemoteData
  rma : List RemoteWrite
  tlbs : List (Viewer × TlbEntry)
  uetOut : List (Option (List Byte))
  sc : Station
  rc : Nat
  cur : Nat
  nearCur : Option (Nat × Nat)
  agenda : List Move
  fresh : Nat
deriving DecidableEq, Repr

/-! ## Reset -/

/-- A register that holds plain data. -/
def Reg.data (x : Word) : Reg := ⟨.data, x, 0⟩

/-- A free symbol (R96). -/
def Sym.reset : Sym := ⟨.free, 0, .i64, 0⟩

/-- An idle copy channel after reset: its WM is 0 (R257). -/
def Channel.reset : Channel := ⟨.idle, none, 0, 0, none, [], [], 0, none⟩

/-- A tile after reset (R264, R267). -/
def Tile.reset : Tile := ⟨0, ⟨16, .bf16, 64⟩, 0, 0⟩

/-- The contents of an accumulator after reset (R264). -/
def AccBody.reset : AccBody := ⟨Vector.replicate 256 0, 0, Vector.replicate 256 0, 0, 0, 0⟩

/-- An accumulator after reset (R264). -/
def Acc.reset : Acc := ⟨AccBody.reset, AccBody.reset, none⟩

/-- What a matrix unit holds for a core after reset (R264). -/
def MatCore.reset : MatCore :=
  ⟨Vector.replicate 8 Tile.reset, Vector.replicate 4 Acc.reset, (0, 0), [], none, []⟩

/-- The turn before the lowest of a ring (R275, R44). -/
def Turn.reset : Turn := ⟨none, 0⟩

/-- A matrix unit after reset (R275). -/
def MatUnit.reset : MatUnit := ⟨Turn.reset, Turn.reset, Turn.reset, false⟩

/-- Core k after reset: MWGT 1, the other system registers 0 (R101), KSELF the core's own id, no class entry
(R34). DESIGN CHOICE (log 2), unsafe. DESIGN CHOICE (log 3), unsafe. DESIGN CHOICE (log 15), unsafe. -/
def Core.reset (k : Nat) : Core where
  g := Vector.replicate 32 (Reg.data 0)
  f := Vector.replicate 16 (Reg.data 0)
  v := Vector.replicate 16 ⟨0, 0⟩
  pc := 0
  act := none
  regionNo := 0
  windows := []
  wait := none
  sym := Vector.replicate 32 Sym.reset
  kself := k
  asid := 0
  vfid := 0
  rgnpc := 0
  rgnrec := 0
  fcause := 0
  faddr := 0
  splo := 0
  ovfptr := 0
  mwgt := 1
  dseed := 0
  dkeep := 0
  arrCfg := 0
  classes := Vector.replicate 64 0
  slots := Vector.replicate 32 .free
  order := []
  pinned := none
  rounds := []
  buf := []
  ldes := []
  dcache := []
  icache := []
  tlb := []
  fifo := []
  ordinal := 0
  chans := Vector.replicate 4 Channel.reset
  arrQueue := []
  obs := []
  atomicObs := []
  fenced := []
  landed := []
  owed := []
  bc := []
  lineMask := 0
  preempt := false
  busyFor := none
  step := 24
  stepSince := 0
  thermalCap := 24
  slackCap := 24
  supply := 120
  trimmed := none
  asking := false
  vacated := none
  exchanged := none

/-- A near-unit value of zeros (R306). -/
def NearVal.zero : NearVal := ⟨Vector.replicate 8 0, 0⟩

/-- A near unit after reset: no task, the state of R306. -/
def NearUnit.reset : NearUnit where
  mode := .idle
  n := Vector.replicate 8 NearVal.zero
  o := NearVal.zero
  res := NearVal.zero
  k := 0xF
  sta := 0
  stm := 0xFF
  fifo := []
  index := 0
  count := 0
  image := ⟨0, 0, 0, []⟩
  writes := []
  cache := []

/-- An anchor queue after reset: counter 0, T 0, delivery priority 2 (R64, R65, R46). -/
def Queue.reset : Queue := ⟨[], 0, 0, 2⟩

/-- A home after reset: shared mode, the take pointer at queue 7 (R66, R73). DESIGN CHOICE (log 16), unsafe. -/
def Home.reset : Home :=
  ⟨Vector.replicate 8 Queue.reset, 7, Vector.replicate 4 NearUnit.reset, none, false, [], [], false, [], []⟩

/-- A stack after reset: the engine idle. -/
def Stack.reset : Stack := ⟨[], none, 0, [], false, false⟩

/-- An Almucantar array after reset (R295, R296). -/
def AlmArray.reset : AlmArray := ⟨[], false, 0, false, 0, 0, none⟩

/-- A dome after reset: in service, in no partition; the Orrery holds IDLE 0 and FREE 0 (R47).
DESIGN CHOICE (log 7), unsafe. -/
def Dome.reset : Dome := ⟨[], AlmArray.reset, .unassigned, 0, 0, false, false, false, none, none⟩

/-- A virtual function after reset: no dome, SWB as R428 gives. -/
def Vf.reset : Vf := ⟨[], 1, 0, 0x40000000, [], false⟩

/-- A TCB after reset (R30). -/
def Tcb.reset : Tcb := ⟨0, .free, 0, 0, 0, [], 0, ⟨0, 0, 0, 0, 0, 0, 0, 0⟩, 0, false, false, []⟩

/-- A barrier channel after reset (R351). DESIGN CHOICE (log 13), unsafe. -/
def Barrier.reset : Barrier := ⟨none, 1, 0, false, [], none⟩

/-- A broadcast slot after reset (R352). -/
def Bcast.reset : Bcast := ⟨none, 0, 0, []⟩

/-- A firmware slot after reset. -/
def FwSlot.reset : FwSlot := ⟨0, [], true, false⟩

/-- The Station Controller after reset (R391, R401, R403). DESIGN CHOICE (log 14), unsafe. -/
def Station.reset : Station where
  boot := .booting
  counters := []
  log := []
  keys := []
  slotA := FwSlot.reset
  slotB := FwSlot.reset
  activeB := false
  fused := 0
  rows := 0
  anyToken := false
  lastSeq := 0
  budget := 1800
  expiry := 0
  inletOver := false
  inletSince := 0
  packageCap := 24
  halfArrays := false
  suspended := false
  sampledAt := none
  checkedAt := none
  power := 0
  inlet := 0
  temps := []
  sampled := []
  balances := []
  minima := []
  slackTarget := 0
  slacks := []
  package := none

/-- Memory with nothing listed. -/
def Memory.reset : Memory := ⟨[], [], [], [], [], 0, []⟩

/-- The package right after reset: no activation runs, nothing is live, memory lists nothing. DESIGN CHOICE (log 99), unsafe: the device
time starts at 0. -/
def State.reset : State where
  mem := Memory.reset
  cores := []
  mats := []
  matUnits := []
  domes := []
  homes := []
  stackTable := []
  launches := []
  graphs := []
  phases := []
  jobs := []
  tcbs := []
  accepted := []
  front := []
  offers := []
  saved := []
  turns := Vector.replicate 4 Turn.reset
  oreqs := []
  served := none
  dispatched := none
  placements := []
  vfs := []
  hreqs := []
  flights := []
  multis := []
  rounds := []
  groups := []
  routes := []
  barriers := []
  bcasts := []
  lines := []
  stitch := none
  topologies := []
  reports := []
  cres := []
  lastRwr := []
  arrivals := []
  kcp := []
  kcpRuns := []
  replies := []
  uet := []
  sent := []
  remote := []
  rma := []
  tlbs := []
  uetOut := []
  sc := Station.reset
  rc := 0
  cur := 0
  nearCur := none
  agenda := []
  fresh := 0

/-! ## Stops -/

/-- The faults that stop the machine: none. Every fault of the spec is taken (R370, R319, R252, R262): the machine
goes on. -/
inductive Fault where
deriving DecidableEq, Repr

/-- The refusals of the model. -/
inductive Refusal where
  /-- Raised by exec for an instruction that has no meaning yet; safe: the machine stops. -/
  | notModelled (mnemonic : String)
deriving DecidableEq, Repr

end Sys2Proof.Machine
end

