-- ==== Sys2Proof/Machine/Map.lean ====
section
/-! DEFINITION. Finite tables in ascending order of their numbers. -/
namespace Sys2Proof.Machine

/-- The entry of a number. -/
def mget {α : Type} : Map α → Nat → Option α
  | [], _ => none
  | (k, v) :: rest, i => if i = k then some v else if i < k then none else mget rest i

/-- The table with the entry of a number set. -/
def mput {α : Type} : Map α → Nat → α → Map α
  | [], i, x => [(i, x)]
  | (k, v) :: rest, i, x =>
    if i = k then (i, x) :: rest else if i < k then (i, x) :: (k, v) :: rest else (k, v) :: mput rest i x

/-- The table without the entry of a number. -/
def mdel {α : Type} : Map α → Nat → Map α
  | [], _ => []
  | (k, v) :: rest, i => if i = k then rest else if i < k then (k, v) :: rest else (k, v) :: mdel rest i

/-- The set of numbers with a number put in, in ascending order. -/
def setIn : List Nat → Nat → List Nat
  | [], i => [i]
  | k :: rest, i => if i = k then k :: rest else if i < k then i :: k :: rest else k :: setIn rest i

/-- The set of numbers with a number taken out. -/
def setOut : List Nat → Nat → List Nat
  | [], _ => []
  | k :: rest, i => if i = k then rest else if i < k then k :: rest else k :: setOut rest i

/-- The lowest number below a bound that meets a condition. -/
def lowest (p : Nat → Bool) (bound : Nat) : Option Nat := (List.range bound).find? p

/-- The list with an element put in unless it is there. -/
def addNew {α : Type} [DecidableEq α] (l : List α) (x : α) : List α := if l.contains x then l else l ++ [x]

/-- The list without its n-th element. -/
def dropAt {α : Type} : List α → Nat → List α
  | [], _ => []
  | _ :: l, 0 => l
  | x :: l, n + 1 => x :: dropAt l n

end Sys2Proof.Machine
end

