-- ==== Sys2Proof/Machine/Memory.lean ====
section
/-! DEFINITION. Memory by physical address: bytes, hidden tags, poison marks, and what each agent sees of writes
that are not yet performed for it (R93, R199, R212 to R215, R356). -/
namespace Sys2Proof.Machine

/-! ## Bytes -/

/-- What an unlisted address reads as: 0. DESIGN CHOICE (log 1), unsafe. -/
def unlisted : Byte := 0

/-- The byte at an address. -/
def cellGet : List Host.Cell → Nat → Byte
  | [], _ => unlisted
  | (k, v) :: rest, a => if a = k then v else if a < k then unlisted else cellGet rest a

/-- The bytes with one written: an entry equal to what an unlisted address reads as is not kept. -/
def cellPut : List Host.Cell → Nat → Byte → List Host.Cell
  | [], a, x => if x = unlisted then [] else [(a, x)]
  | (k, v) :: rest, a, x =>
    if a = k then (if x = unlisted then rest else (k, x) :: rest)
    else if a < k then (if x = unlisted then (k, v) :: rest else (a, x) :: (k, v) :: rest)
    else (k, v) :: cellPut rest a x

/-- Every entry lies above `lo` and the entries rise; none reads as an unlisted address does. -/
def cellsWf : Option Nat → List Host.Cell → Bool
  | _, [] => true
  | lo, (k, v) :: rest => (match lo with | none => true | some l => decide (l < k)) && v != unlisted && cellsWf (some k) rest

/-- Numbers that rise. -/
def rising : Option Nat → List Nat → Bool
  | _, [] => true
  | lo, k :: rest => (match lo with | none => true | some l => decide (l < k)) && rising (some k) rest

/-- The canonical form of memory: bytes, tags and marks strictly rising, and no byte listed that reads as an
unlisted one. -/
def Memory.wf (m : Memory) : Bool :=
  cellsWf none m.cells && rising none m.tags && rising none (m.marks.map Prod.fst)

/-- The coherence-latest byte. -/
def Memory.byte (m : Memory) (a : Nat) : Byte := cellGet m.cells a
/-- The coherence-latest tag of a granule. -/
def Memory.tag (m : Memory) (gr : Nat) : Bool := m.tags.contains gr
/-- The coherence-latest mark of a word. -/
def Memory.mark (m : Memory) (w : Nat) : Option Mark := mget m.marks w

/-! ## What an agent sees (R356) -/

/-- The die of a core, dome or array (R12). -/
def dieOfDome (d : Nat) : Nat := d / 16
/-- The dome of a core. -/
def domeOf (k : Nat) : Nat := k / 128
/-- The die of a core. -/
def dieOf (k : Nat) : Nat := k / 2048
/-- A number that names a logical core: its core field lies below 96 (R102, R199). -/
def isCore (k : Nat) : Bool := decide (k < 8192) && decide (k % 128 < 96)

/-- The dome that an agent of a compute die belongs to (R11, R12). -/
def viewerDome : Viewer → Option Nat
  | .core k | .channel k _ => some (domeOf k)
  | .matrix u => some (u / 12)
  | .array d => some d
  | .nearUnit .. | .home _ | .stack _ | .orrery | .station | .kcpChannel _ | .uet _ => none

/-- The agent belongs to the set (R211, R358). -/
def Seer.covers : Seer → Viewer → Bool
  | .one u, v => u == v
  | .own j, .core k | .own j, .channel k _ => j == k
  | .own _, _ => false
  | .coresOfDome d, .core k => domeOf k == d
  | .coresOfDie d, .core k => dieOf k == d
  | .coresOfDome _, _ | .coresOfDie _, _ => false
  | .dome d, v => viewerDome v == some d
  | .die d, v => (viewerDome v).map dieOfDome == some d
  | .home h, .home i | .home h, .nearUnit i _ => h == i
  | .home _, _ => false
  | .package, .uet _ => false
  | .package, _ => true

/-- The agent belongs to the audience. -/
def Audience.covers (l : Audience) (v : Viewer) : Bool := l.all (·.covers v)

/-- The agents of both audiences. -/
def Audience.meet (l m : Audience) : Audience := m.foldl addNew l

/-- The write is performed as seen by the agent. -/
def Unseen.seen (e : Unseen) (v : Viewer) : Bool := e.writer == v || e.seenBy.any (·.covers v)

/-- The old byte that a write replaced at an address. -/
def Unseen.oldByte (e : Unseen) (a : Nat) : Option Byte := (e.bytes.find? (·.1 == a)).map Prod.snd

/-- The value that an agent sees: that of the coherence-latest write at the place among those performed as seen by
it, or the initial one (R356). -/
def latestSeen {α : Type} (v : Viewer) (old : Unseen → Option α) (now : α) (l : List Unseen) : α :=
  (l.foldr (fun e acc => if acc.2 then acc else match old e with
    | none => acc
    | some x => if e.seen v then (acc.1, true) else (x, false)) (now, false)).1

/-- The byte that an agent reads (R356). DEDUCED (log 9), unsafe. -/
def Memory.view (m : Memory) (v : Viewer) (a : Nat) : Byte :=
  latestSeen v (fun e => e.oldByte a) (m.byte a) m.unseen

/-- The granule tag that an agent reads. -/
def Memory.viewTag (m : Memory) (v : Viewer) (gr : Nat) : Bool :=
  latestSeen v (fun e => (e.tags.find? (·.1 == gr)).map Prod.snd) (m.tag gr) m.unseen

/-- The word mark that an agent reads. -/
def Memory.viewMark (m : Memory) (v : Viewer) (w : Nat) : Option Mark :=
  latestSeen v (fun e => (e.marks.find? (·.1 == w)).map Prod.snd) (m.mark w) m.unseen

/-- `n` addresses from `a`. -/
def span (a n : Nat) : List Nat := List.range' a n

/-- Bytes as a little-endian number (R2). -/
def leNat : List Byte → Nat
  | [] => 0
  | b :: rest => b.toNat + 256 * leNat rest

/-- The `n` little-endian bytes of a number (R2). -/
def leBytes : Nat → Nat → List Byte
  | 0, _ => []
  | n + 1, x => BitVec.ofNat 8 x :: leBytes n (x / 256)

/-- The bytes that an agent reads. -/
def Memory.viewBytes (m : Memory) (v : Viewer) (a n : Nat) : List Byte := (span a n).map (m.view v)

/-- The little-endian number that an agent reads. -/
def Memory.viewNat (m : Memory) (v : Viewer) (a n : Nat) : Nat := leNat (m.viewBytes v a n)

/-- The numbers of the 8-byte words that a span touches. -/
def wordsOf (a n : Nat) : List Nat := if n = 0 then [] else List.range' (a / 8) ((a + n - 1) / 8 + 1 - a / 8)

/-- The numbers of the 16-byte granules that a span touches. -/
def granulesOf (a n : Nat) : List Nat := if n = 0 then [] else List.range' (a / 16) ((a + n - 1) / 16 + 1 - a / 16)

/-- The first poisoned word of a span, as the agent sees it, with its mark. -/
def Memory.poisonIn (m : Memory) (v : Viewer) (a n : Nat) : Option (Nat × Mark) :=
  (wordsOf a n).findSome? fun w => (m.viewMark v w).map fun k => (w, k)

/-- The write from which the agent takes a byte, if some other agent has not seen that write. -/
def Memory.source (m : Memory) (v : Viewer) (a : Nat) : Option Unseen :=
  m.unseen.reverse.find? fun e => e.seen v && (e.oldByte a).isSome

/-- The writes that an agent reads at a span, of those that some other agent has not seen (R361). -/
def Memory.readIds (m : Memory) (v : Viewer) (a n : Nat) : List Nat :=
  (span a n).foldl (fun l x => match m.source v x with | some e => addNew l e.id | none => l) []

/-- The latest writes of the log at the bytes of a span. -/
def Memory.latestIds (m : Memory) (a n : Nat) : List Nat :=
  (span a n).foldl (fun l x => match m.unseen.reverse.find? fun e => (e.oldByte x).isSome with
    | some e => addNew l e.id
    | none => l) []

/-- The writes of the log at a span. -/
def Memory.writesAt (m : Memory) (a n : Nat) : List Nat :=
  (m.unseen.filter fun e => (span a n).any fun x => (e.oldByte x).isSome).map (·.id)

/-- The writes of the log in the 8-byte words of a span. -/
def Memory.wordWrites (m : Memory) (a n : Nat) : List Nat := m.writesAt (a / 8 * 8) (8 * (wordsOf a n).length)

/-- The atomics of the log in the 8-byte words of a span, in which they have one order (R235). -/
def Memory.atomicsAt (m : Memory) (a n : Nat) : List Nat :=
  let l := m.wordWrites a n
  (m.unseen.filter fun e => e.atomic && l.contains e.id).map (·.id)

/-- The writes that an acquire at a span reads (R363): those it takes its bytes from, and, where one of them is an atomic's, every
earlier one in its word's order. -/
def Memory.acquireIds (m : Memory) (v : Viewer) (a n : Nat) : List Nat :=
  let l := m.readIds v a n
  let atomic := (m.unseen.filter fun e => e.atomic && l.contains e.id).map (·.id)
  l ++ (m.wordWrites a n).filter fun i => !l.contains i && atomic.any fun j => decide (i < j)

/-- What an acquire by an agent brings with a write: what a release covered, for an agent in its scope (R233, R361, R362), and what
a FENCE before it or its engine's block did (R363). -/
def Unseen.brings (e : Unseen) (v : Viewer) : List Nat :=
  (if e.inScope.covers v then e.after else []) ++ (e.carry.filter fun c => c.2.covers v).map Prod.fst

/-- The writes that an acquire of some brings to an agent. -/
def Memory.released (m : Memory) (ids : List Nat) (v : Viewer) : List Nat :=
  (m.unseen.filter fun e => ids.contains e.id).flatMap (·.brings v)

/-! ## Writing -/

/-- The bytes with a run of them written. -/
def putBytes (cells : List Host.Cell) : Nat → List Byte → List Host.Cell
  | _, [] => cells
  | a, b :: rest => putBytes (cellPut cells a b) (a + 1) rest

/-- The tags with those of the granules set or cleared. -/
def putTags (tags : List Nat) (b : Bool) : List Nat → List Nat
  | [] => tags
  | gr :: rest => putTags (if b then setIn tags gr else setOut tags gr) b rest

/-- The mark a word has after a write of bytes [a, a+n) (R213 to R215): the stored mark where the datum is poison;
none where the whole word is written; the hardware mark where a part of a marked word is. -/
def newMark (old : Option Mark) (a n w : Nat) (pois : Bool) : Option Mark :=
  if pois then some .stored
  else if a ≤ 8 * w ∧ 8 * w + 8 ≤ a + n then none
  else old.map fun _ => .hardware

/-- The marks with one set or cleared. -/
def putMark (marks : Map Mark) (w : Nat) : Option Mark → Map Mark
  | none => mdel marks w
  | some k => mput marks w k

/-- The marks after a write; bit i of `pois` is set where the i-th word's datum is poison. -/
def putMarks (a n : Nat) (pois : Nat → Bool) (marks : Map Mark) : List Nat → Map Mark
  | [] => marks
  | w :: rest => putMarks a n pois (putMark marks w (newMark (mget marks w) a n w (pois (w - a / 8)))) rest

/-- The watches after a write to the words: every core that watches one of them is sent a wake (R241). -/
def wake (ws : List Nat) (watches : List Watch) : List Watch :=
  watches.map fun x => if ws.contains x.word then { x with woken := true } else x

/-- What a write is for the agents: who writes, who sees it at once, what it must follow and for whom, what its acquire brings, and
whether it is an atomic's, with the earlier atomics of its words (R233, R235, R360, R363). -/
structure Visibility where
  writer : Viewer
  seenBy : List Audience := []
  inScope : Audience := []
  after : List Nat := []
  carry : List (Nat × Audience) := []
  atomic : Bool := false
  order : List Nat := []
deriving DecidableEq, Repr

/-- A write that every agent sees at once. -/
def Visibility.everyone (v : Viewer) : Visibility := { writer := v, seenBy := [[]] }

/-- The write without the places that a later one has replaced for everyone. -/
def Unseen.less (e : Unseen) (bytes gs ws : Nat → Bool) : Unseen :=
  { e with
    bytes := e.bytes.filter fun x => !bytes x.1
    tags := e.tags.filter fun x => !gs x.1
    marks := e.marks.filter fun x => !ws x.1 }

/-- The writes not yet seen, with this one put last unless every agent sees it at once; the earlier ones then lose its
places. -/
def Memory.noteUnseen (m : Memory) (vis : Visibility) (a : Nat) (bs : List Byte) : List Unseen :=
  if vis.seenBy.contains [] then
    m.unseen.map fun e => e.less (fun x => decide (a ≤ x) && decide (x < a + bs.length)) (granulesOf a bs.length).contains
      (wordsOf a bs.length).contains
  else m.unseen ++ [{
    id := m.nextId
    writer := vis.writer
    bytes := (span a bs.length).map fun x => (x, m.byte x)
    tags := (granulesOf a bs.length).map fun gr => (gr, m.tag gr)
    marks := (wordsOf a bs.length).map fun w => (w, m.mark w)
    seenBy := vis.seenBy
    inScope := vis.inScope
    after := vis.after
    carry := vis.carry
    atomic := vis.atomic
    order := vis.order }]

/-- The flipped bits after a write: a word written whole has fresh check bits (R213). -/
def Memory.upsetsLeft (m : Memory) (a n : Nat) : Map Nat :=
  m.upsets.filter fun x => !(decide (a ≤ 8 * x.1) && decide (8 * x.1 + 8 ≤ a + n))

/-- A write of bytes from `a` on: merges and marks follow R214 and R215, the granules' tags are set or cleared
(R93), and a wake goes to every core watching a word of it (R241). -/
def Memory.write (m : Memory) (vis : Visibility) (a : Nat) (bs : List Byte) (pois : Nat → Bool) (tag : Bool) :
    Memory where
  cells := putBytes m.cells a bs
  tags := putTags m.tags tag (granulesOf a bs.length)
  marks := putMarks a bs.length pois m.marks (wordsOf a bs.length)
  upsets := m.upsetsLeft a bs.length
  unseen := m.noteUnseen vis a bs
  nextId := m.nextId + 1
  watches := wake (wordsOf a bs.length) m.watches

/-- The tags of granules from one on, set one by one. -/
def setTags (tags : List Nat) : Nat → List Bool → List Nat
  | _, [] => tags
  | gr, b :: rest => setTags (if b then setIn tags gr else setOut tags gr) (gr + 1) rest

/-- The marks of words from one on, set one by one. -/
def setMarks (marks : Map Mark) : Nat → List (Option Mark) → Map Mark
  | _, [] => marks
  | w, k :: rest => setMarks (putMark marks w k) (w + 1) rest

/-- A write of whole granules with their tags and marks, as a cache or a tag-preserving copy writes them. -/
def Memory.writeWhole (m : Memory) (vis : Visibility) (a : Nat) (bs : List Byte) (tags : List Bool)
    (marks : List (Option Mark)) : Memory where
  cells := putBytes m.cells a bs
  tags := setTags m.tags (a / 16) tags
  marks := setMarks m.marks (a / 8) marks
  upsets := m.upsetsLeft a bs.length
  unseen := m.noteUnseen vis a bs
  nextId := m.nextId + 1
  watches := wake (wordsOf a bs.length) m.watches

/-- A plain write of clean bytes. -/
def Memory.writeData (m : Memory) (vis : Visibility) (a : Nat) (bs : List Byte) : Memory :=
  m.write vis a bs (fun _ => false) false

/-- A word takes a mark where it stands (R212): its granule's tag clears (R93, R214). -/
def Memory.setMark (m : Memory) (w : Nat) (k : Mark) : Memory :=
  { m with marks := mput m.marks w k, tags := setOut m.tags (w / 2) }

/-- How many marks a write clears, how many marked words it merges into, and how many words it marks anew (R213 to R215, R217),
from the marks that stood. -/
def markEvents (mark : Nat → Option Mark) (a n : Nat) (pois : Nat → Bool) : Nat × Nat × Nat :=
  let whole (w : Nat) : Bool := decide (a ≤ 8 * w) && decide (8 * w + 8 ≤ a + n)
  let count (p : Nat → Bool) : Nat := ((wordsOf a n).filter p).length
  (count fun w => (mark w).isSome && !pois (w - a / 8) && whole w, count fun w => (mark w).isSome && !whole w,
    count fun w => (mark w).isNone && pois (w - a / 8))

/-! ## Performing writes for other agents -/

/-- Two writes touch one 8-byte word. -/
def Unseen.sameWord (e f : Unseen) : Bool := e.bytes.any fun x => f.bytes.any fun y => y.1 / 8 == x.1 / 8

/-- Every agent has seen the write, and no acquire needs it any more: one that brings others stays while some agent has not seen
those, and an atomic while an earlier write to its words is unseen by some agent (R363). -/
def Memory.settled (m : Memory) (e : Unseen) : Bool :=
  e.seenBy.contains [] && !(m.unseen.any fun f => !f.seenBy.contains [] && (e.after ++ e.carry.map Prod.fst).contains f.id) &&
    !(e.atomic && m.unseen.any fun f => decide (f.id < e.id) && f.sameWord e && !f.seenBy.contains [])

/-- The write without the places of some that came later. -/
def Unseen.lessLater (e : Unseen) (later : List Unseen) : Unseen :=
  e.less (fun x => later.any fun g => (g.oldByte x).isSome) (fun x => later.any fun g => g.tags.any fun y => y.1 == x)
    fun x => later.any fun g => g.marks.any fun y => y.1 == x

/-- The writes that do not meet a condition; one before others that meet it loses their places. -/
def withoutSettled (p : Unseen → Bool) : List Unseen → List Unseen
  | [] => []
  | e :: rest => if p e then withoutSettled p rest else e.lessLater (rest.filter p) :: withoutSettled p rest

/-- The writes of the log that are settled leave it, and earlier ones lose their places: whoever reads there reads the later
write (R356). -/
def Memory.trim (m : Memory) : Memory := { m with unseen := withoutSettled m.settled m.unseen }

/-- The listed writes are performed as seen by the agents of an audience. -/
def Memory.show (m : Memory) (ids : List Nat) (dest : Audience) : Memory :=
  Memory.trim { m with
    unseen := m.unseen.map fun e => if ids.contains e.id then { e with seenBy := addNew e.seenBy dest } else e }

/-- The writes that must be seen by an agent before this one is: those it follows by a release (R233) whose scope
holds the agent, and the earlier atomics of an atomic's words (R235, R356). -/
def Memory.before (m : Memory) (e : Unseen) (v : Viewer) : List Nat :=
  (m.unseen.filter fun f => !f.seen v && (e.order.contains f.id || (e.after.contains f.id && e.inScope.covers v))).map (·.id)

/-- One write is performed as seen by one agent, if every write it follows for that agent has been (R360). -/
def Memory.perform (m : Memory) (id : Nat) (v : Viewer) : Memory :=
  match m.unseen.find? (·.id == id) with
  | some e => if (m.before e v).isEmpty then m.show [id] [.one v] else m
  | none => m

/-- The writes that a write brings to an audience that sees it: those it follows, and the earlier atomics of its words (R233,
R356). -/
def Unseen.ahead (e : Unseen) (dest : Audience) : List (Nat × Audience) :=
  (e.after.map fun i => (i, dest.meet e.inScope)) ++ e.order.map fun i => (i, dest)

/-- The writes that an audience must see, each with the agents for whom: those listed, and those they bring (R233, R356, R361,
R362). -/
def Memory.closure (m : Memory) (ids : List Nat) (dest : Audience) : List (Nat × Audience) :=
  m.unseen.foldr (fun e acc => ((acc.filter (·.1 == e.id)).flatMap fun p => e.ahead p.2).foldl addNew acc)
    (ids.map fun i => (i, dest))

/-- The listed writes are performed as seen by an audience, after those they follow (R361, R363). -/
def Memory.showAfter (m : Memory) (ids : List Nat) (dest : Audience) : Memory :=
  (m.closure ids dest).foldl (fun n p => n.show [p.1] p.2) m

/-- The listed writes are performed as seen by an agent, after those they follow (R361, R363). -/
def Memory.acquire (m : Memory) (ids : List Nat) (v : Viewer) : Memory := m.showAfter ids [.one v]

/-- The listed writes that are still unseen by some agent. -/
def Memory.live (m : Memory) (ids : List Nat) : List Nat := (m.unseen.filter fun e => ids.contains e.id).map (·.id)

/-- The listed writes that touch a span. -/
def Memory.within (m : Memory) (ids : List Nat) (a n : Nat) : List Nat :=
  (m.writesAt a n).filter fun i => ids.contains i

/-- The writes of one agent that some agent has not seen. -/
def Memory.writesOf (m : Memory) (v : Viewer) : List Nat := (m.unseen.filter fun e => e.writer == v).map (·.id)

/-! ## The physical address space (R199) -/

/-- DRAM that programs can map. -/
def isDram (pa : Nat) : Bool := decide (pa < 0x00BFC0000000)
/-- DRAM reserved by the Station Controller. -/
def isReserved (pa : Nat) : Bool := decide (0x00BFC0000000 ≤ pa) && decide (pa < 0x00C000000000)
/-- The core whose scratchpad slice holds an address. -/
def sliceOf (pa : Nat) : Option Nat :=
  if 0x8000000000000 ≤ pa ∧ isCore ((pa - 0x8000000000000) / 0x40000) then some ((pa - 0x8000000000000) / 0x40000)
  else none
/-- The physical base of a core's slice. -/
def slicePa (k : Nat) : Nat := 0x8000000000000 + k * 0x40000
/-- An address that a leaf may map. -/
def mappable (pa : Nat) : Bool := isDram pa || (sliceOf pa).isSome
/-- The home of a DRAM address (R62): PA[20:12] XOR PA[29:21]. -/
def homeOfPa (pa : Nat) : Nat := (pa / 2 ^ 12 % 512) ^^^ (pa / 2 ^ 21 % 512)
/-- The stack of a home (R62). -/
def stackOfHome (h : Nat) : Nat := h / 32

end Sys2Proof.Machine
end

