-- ==== Sys2Proof/Machine/Operands.lean ====
section
/-! DEFINITION. The registers of a core, capabilities, and the forms operands take (R83 to R96, R107 to R110). -/
namespace Sys2Proof.Machine

/-! ## Capabilities (R89 to R92) -/

/-- The permissions of a capability, by their bit in the metadata (R89). -/
inductive Perm where
  | r | w | x | lcap | scap | send | near | atom
deriving DecidableEq, Repr

/-- The metadata bit of a permission (R89). -/
def Perm.bit : Perm → Nat
  | .r => 63 | .w => 62 | .x => 61 | .lcap => 60 | .scap => 59 | .send => 58 | .near => 57 | .atom => 56

/-- The metadata grants a permission. -/
def hasPerm (info : Word) (p : Perm) : Bool := info.getLsbD p.bit
/-- The granule exponent G, [55:50] (R89). -/
def capG (info : Word) : Nat := info.toNat / 2 ^ 50 % 2 ^ 6
/-- The base field B, [49:25] (R89). -/
def capB (info : Word) : Nat := info.toNat / 2 ^ 25 % 2 ^ 25
/-- The length field L, [24:0] (R89). -/
def capL (info : Word) : Nat := info.toNat % 2 ^ 25

/-- The base that a capability's metadata gives for an address (R90); it may be negative. -/
def capBase (info addr : Word) : Int :=
  let a := addr.toNat / 2 ^ capG info
  let b : Int := (a / 2 ^ 25 * 2 ^ 25 + capB info : Nat)
  (if (a : Int) < b then b - 2 ^ 25 else b) * 2 ^ capG info

/-- The top that a capability's metadata gives for an address (R90). -/
def capTop (info addr : Word) : Int := capBase info addr + (capL info * 2 ^ capG info : Nat)

/-- A capability is malformed (R90). -/
def malformed (info addr : Word) : Bool :=
  decide (40 < capG info) || capL info == 0 || decide (capBase info addr < 0) ||
    decide (2 ^ 48 < capTop info addr)

/-- Why an access through a register fails, as the DETAIL of a capability fault (R92, R369); 0 where it is
permitted. The bounds are decoded from the register's own value. -/
def capFault (x : Reg) (addr size : Nat) (perms : List Perm) : Nat :=
  if x.tag != .cap then 1
  else if malformed x.info x.value then 2
  else if (addr : Int) < capBase x.info x.value ∨ capTop x.info x.value < (addr + size : Nat) then 3
  else if perms.all (hasPerm x.info) then 0 else 4

/-! ## Registers (R83, R84) -/

/-- A register holding a capability. -/
def Reg.mkCap (v info : Word) : Reg := ⟨.cap, v, info⟩
/-- A poisoned register with an origin record (R100). -/
def Reg.poison (origin addr : Nat) : Reg := ⟨.pois, 0, BitVec.ofNat 64 (origin * 2 ^ 56 + addr % 2 ^ 48)⟩
/-- A poisoned register that keeps another's origin record. -/
def Reg.poisonOf (x : Reg) : Reg := ⟨.pois, 0, x.info⟩

/-- A g register: g0 reads as DATA 0 (R83). -/
def Core.readG (c : Core) (r : GReg) : Reg := if r = 0 then Reg.data 0 else c.g[r.val]

/-- What f0 reads as: +1.0 in FP32, or in FP64 (R84). -/
def fOne (wide : Bool) : Word := if wide then 0x3FF0000000000000 else 0x3F800000

/-- An f register, f0 as an FP32 or FP64 reader sees it (R84). -/
def Core.readF (c : Core) (wide : Bool) (r : FReg) : Reg := if r = 0 then Reg.data (fOne wide) else c.f[r.val]

/-- A register of the g or the f file. -/
def Core.readGF (c : Core) (wide : Bool) : GFReg → Reg
  | .g r => c.readG r
  | .f r => c.readF wide r

/-- The symbol that an ephemeris names (R95). -/
def symOf (x : Reg) : Fin 32 := Fin.ofNat 32 (x.info.toNat / 2 ^ 51)
/-- The kind of an ephemeris (R95). -/
def kindOf (x : Reg) : EphKind :=
  match x.info.toNat / 2 ^ 62 with | 0 => .i64 | 1 => .i32 | _ => .f32
/-- The code of a kind (R95). -/
def EphKind.code : EphKind → Nat
  | .i64 => 0 | .i32 => 1 | .f32 => 2
/-- The 48-bit scale field of an ephemeris (R95). -/
def scaleOf (x : Reg) : Nat := x.info.toNat % 2 ^ 48

/-- An ephemeris over a symbol with a scale and an offset (R95). -/
def Reg.eph (kind : EphKind) (sym : Fin 32) (scale : Nat) (off : Word) : Reg :=
  ⟨.eph, off, BitVec.ofNat 64 (kind.code * 2 ^ 62 + sym.val * 2 ^ 51 + scale % 2 ^ 48)⟩

/-- The symbol table with a reference more, if the register holds an ephemeris (R96). -/
def addRef (t : Vector Sym 32) (x : Reg) : Vector Sym 32 :=
  if x.tag = .eph then t.set (symOf x).val { t[(symOf x).val] with count := t[(symOf x).val].count + 1 } else t

/-- The symbol table with a reference less, if the register held an ephemeris (R96). -/
def dropRef (t : Vector Sym 32) (x : Reg) : Vector Sym 32 :=
  if x.tag = .eph then t.set (symOf x).val { t[(symOf x).val] with count := t[(symOf x).val].count - 1 } else t

/-- A write to a g register: to g0 it is discarded (R83); references are counted (R96). -/
def Core.setG (c : Core) (d : GReg) (x : Reg) : Core :=
  if d = 0 then c
  else { c with g := c.g.set d.val x, sym := dropRef (addRef c.sym x) c.g[d.val] }

/-- A write to an f register: to f0 it is discarded (R83), and a capability is received as DATA (R84). -/
def Core.setF (c : Core) (d : FReg) (x : Reg) : Core :=
  let y := if x.tag = .cap then Reg.data x.value else x
  if d = 0 then c
  else { c with f := c.f.set d.val y, sym := dropRef (addRef c.sym y) c.f[d.val] }

/-- A vector register. -/
def Core.readV (c : Core) (r : VecReg) : VReg := c.v[r.val]
/-- A write to a vector register. -/
def Core.setV (c : Core) (d : VecReg) (x : VReg) : Core := { c with v := c.v.set d.val x }

/-- The value of a raw register field: an f register of number below 16 where the type names the f file. -/
def Core.readRaw (c : Core) (inF wide : Bool) (r : Fin 32) : Reg :=
  if inF then c.readF wide (Fin.ofNat 16 r.val) else c.readG r

/-- A write through a raw register field. -/
def Core.setRaw (c : Core) (inF : Bool) (d : Fin 32) (x : Reg) : Core :=
  if inF then c.setF (Fin.ofNat 16 d.val) x else c.setG d x

/-- The register that a raw field names. -/
def rawName (inF : Bool) (r : Fin 32) : RegName := if inF then .f (Fin.ofNat 16 r.val) else .g r

/-- The register's name, by file. -/
def gfName : GFReg → RegName
  | .g r => .g r
  | .f r => .f r

/-! ## Immediates (R109) -/

/-- The I-format immediate, sign-extended. -/
def simm (imm : BitVec 15) : Word := imm.signExtend 64
/-- The I-format immediate, zero-extended. -/
def zimm (imm : BitVec 15) : Word := imm.zeroExtend 64
/-- A branch or jump target: PC plus twice the offset. -/
def target {n : Nat} (pc : Word) (off : BitVec n) : Word := pc + off.signExtend 64 * 2
/-- A region record's address: PC with bits [3:0] cleared, plus 16 times the offset. -/
def recordAt {n : Nat} (pc : Word) (off : BitVec n) : Word := (pc &&& ~~~(15 : Word)) + off.signExtend 64 * 16

/-- A 32-bit result as an integer register holds it: sign-extended (R123). -/
def sext32 (x : Word) : Word := (x.truncate 32).signExtend 64

/-! ## The symbol table (R96, R99) -/

/-- The free entry with the lowest number (R96). -/
def Core.freeSym (c : Core) : Option (Fin 32) := (List.finRange 32).find? fun i => c.sym[i.val].state == .free

/-- The scale and offset of a new ephemeris: 1 and 0, or 1.0 and -0.0 for F32 (R96). -/
def Reg.newEph (kind : EphKind) (sym : Fin 32) : Reg :=
  match kind with
  | .f32 => Reg.eph .f32 sym 0x3F800000 0x80000000
  | k => Reg.eph k sym 1 0

/-- The symbol allocated: Pending, no reference yet, its generation advanced (R96). The register written next adds
the first reference. -/
def Core.allocate (c : Core) (i : Fin 32) (kind : EphKind) : Core :=
  { c with sym := c.sym.set i.val ⟨.pending, 0, kind, c.sym[i.val].gen + 1⟩ }

/-- The reference that a request for the symbol carries (R96). -/
def Core.symRef (c : Core) (i : Fin 32) : SymRef := ⟨i, c.sym[i.val].gen⟩

/-- What a register that holds an ephemeris becomes when its symbol's value arrives (R99). -/
def resolveReg (x value : Reg) : Reg :=
  if value.tag = .pois then Reg.poisonOf value
  else
    match kindOf x with
    | .i64 => Reg.data (BitVec.ofInt 64 (sextNat 48 (scaleOf x) * value.value.toNat + x.value.toNat))
    | .i32 => Reg.data (sext32 (BitVec.ofInt 64 (sextNat 48 (scaleOf x) * value.value.toNat + x.value.toNat)))
    | .f32 => Reg.data (BitVec.ofNat 64 (fp32.fma .rne (scaleOf x % 2 ^ 32) (value.value.toNat % 2 ^ 32)
        (x.value.toNat % 2 ^ 32)))

/-- The register after a symbol's value has arrived: rewritten if it holds the symbol. -/
def rewriteReg (i : Fin 32) (value x : Reg) : Reg :=
  if x.tag = .eph ∧ symOf x = i then resolveReg x value else x

/-- The arrival of a symbol's value: every register that holds the symbol is rewritten and the entry is freed; an
arrival whose generation differs, or that finds the entry Free, is discarded (R99). -/
def Core.resolve (c : Core) (ref : SymRef) (value : Reg) : Core :=
  let e := c.sym[ref.sym.val]
  if e.state = .free ∨ e.gen ≠ ref.gen then c
  else
    { c with
      g := c.g.map (rewriteReg ref.sym value)
      f := c.f.map (rewriteReg ref.sym value)
      sym := c.sym.set ref.sym.val ⟨.free, 0, e.kind, e.gen⟩ }

/-- What a register becomes when its symbol is dropped by a pre-emption, a fault or the end of an activation: it is
read by nobody again; it is made DATA 0. -/
def dropSyms (x : Reg) : Reg := if x.tag = .eph then Reg.data 0 else x

/-- Every symbol dropped (R99, R148, R370), and with the values what they would have acquired. -/
def Core.dropAllSyms (c : Core) : Core :=
  { c with
    owed := []
    g := c.g.map dropSyms
    f := c.f.map dropSyms
    sym := c.sym.map fun e => ⟨.free, 0, e.kind, e.gen⟩
    bc := [] }

end Sys2Proof.Machine
end

