-- ==== Sys2Proof/Machine/Basic.lean ====
section
/-! DEFINITION. Reading and writing the parts of the state: units by their numbers, time, counters, free values. -/
namespace Sys2Proof.Machine

/-! ## Units -/

/-- Core k: reset where nothing has been written. -/
def State.core (s : State) (k : Nat) : Core := (mget s.cores k).getD (Core.reset k)
/-- The state with core k replaced. -/
def State.setCore (s : State) (k : Nat) (c : Core) : State := { s with cores := mput s.cores k c }
/-- The core whose turn it is. -/
def State.me (s : State) : Core := s.core s.cur
/-- The state with that core replaced. -/
def State.setMe (s : State) (c : Core) : State := s.setCore s.cur c
/-- What the matrix unit holds for core k. -/
def State.mat (s : State) (k : Nat) : MatCore := (mget s.mats k).getD MatCore.reset
/-- The state with it replaced. -/
def State.setMat (s : State) (k : Nat) (m : MatCore) : State := { s with mats := mput s.mats k m }
/-- Dome d. -/
def State.dome (s : State) (d : Nat) : Dome := (mget s.domes d).getD Dome.reset
/-- The state with dome d replaced. -/
def State.setDome (s : State) (d : Nat) (x : Dome) : State := { s with domes := mput s.domes d x }
/-- Home h. -/
def State.home (s : State) (h : Nat) : Home := (mget s.homes h).getD Home.reset
/-- The state with home h replaced. -/
def State.setHome (s : State) (h : Nat) (x : Home) : State := { s with homes := mput s.homes h x }
/-- Stack i. -/
def State.stack (s : State) (i : Nat) : Stack := (mget s.stackTable i).getD Stack.reset
/-- The state with stack i replaced. -/
def State.setStack (s : State) (i : Nat) (x : Stack) : State := { s with stackTable := mput s.stackTable i x }
/-- A virtual function. -/
def State.vf (s : State) (n : Nat) : Vf := (mget s.vfs n).getD Vf.reset
/-- The state with a virtual function replaced. -/
def State.setVf (s : State) (n : Nat) (x : Vf) : State := { s with vfs := mput s.vfs n x }
/-- A TCB. -/
def State.tcb (s : State) (t : Nat) : Tcb := (mget s.tcbs t).getD Tcb.reset
/-- The state with a TCB replaced. -/
def State.setTcb (s : State) (t : Nat) (x : Tcb) : State := { s with tcbs := mput s.tcbs t x }
/-- The state with a live launch replaced. -/
def State.setLaunch (s : State) (l : Nat) (x : Launch) : State := { s with launches := mput s.launches l x }
/-- Core k takes part in a thermal exchange that runs: its dome's crossbar holds what reaches it (R381, R389). -/
def State.held (s : State) (k : Nat) : Bool :=
  match (s.dome (domeOf k)).exchange with | some (a, b) => k == a || k == b | none => false
/-- An address lies in the slice of a core that takes part in a thermal exchange: accesses to it are held (R389). -/
def State.heldAt (s : State) (pa : Nat) : Bool := match sliceOf pa with | some j => s.held j | none => false
/-- Some bytes of a span lie in such a slice. -/
def State.heldSpan (s : State) (pa n : Nat) : Bool := s.heldAt pa || s.heldAt (pa + (n - 1))
/-- Some dome runs an exchange. Abandonments of copies, and saves of contexts, whose many bytes one of its slices may hold, wait
(log 42). -/
def State.exchanging (s : State) : Bool := s.domes.any (·.2.exchange.isSome)
/-- The state with the memory replaced. -/
def State.setMem (s : State) (m : Memory) : State := { s with mem := m }

/-- An entry of a table changed, if it is there. -/
def mmod {α : Type} (m : Map α) (i : Nat) (f : α → α) : Map α :=
  match mget m i with
  | some x => mput m i (f x)
  | none => m

/-! ## Time, counters, log -/

/-- Device time in nanoseconds (R20): five sixths of the reference cycles. DESIGN CHOICE (log 6), unsafe. -/
def State.time (s : State) : Nat := s.rc * 5 / 6

/-- A counter's value (R401). -/
def State.counter (s : State) (c : Counter) : Nat :=
  ((s.sc.counters.find? (·.1 == c)).map Prod.snd).getD 0

/-- The counters with one of them advanced; they are 64 bits wide and saturate (R401). -/
def bump (c : Counter) (n : Nat) : List (Counter × Nat) → List (Counter × Nat)
  | [] => [(c, min n (2 ^ 64 - 1))]
  | (d, x) :: rest => if d = c then (d, min (x + n) (2 ^ 64 - 1)) :: rest else (d, x) :: bump c n rest

/-- An event counted (R401). -/
def State.count (s : State) (c : Counter) (n : Nat := 1) : State :=
  if n = 0 then s else { s with sc := { s.sc with counters := bump c n s.sc.counters } }

/-- An entry written to the event log, a ring of 65,536 (R401); DATA holds the words of `data` from the lowest on. -/
def State.note (s : State) (src : Nat) (code : LogCode) (data : List Nat) : State :=
  let e : LogEntry := ⟨s.time, src, code, BitVec.ofNat 128 (data.foldr (fun x acc => x + 2 ^ 64 * acc) 0)⟩
  { s with sc := { s.sc with log := (s.sc.log ++ [e]).drop (s.sc.log.length + 1 - 65536) } }

/-! ## Free values (log 5) -/

/-- The state with one more free value drawn; the value is named by the counter before. -/
def State.draw (s : State) (n : Nat := 1) : State := { s with fresh := s.fresh + n }

/-- A free choice among the numbers below a bound that meet a condition. -/
def State.anyBelow (s : State) (p : Nat → Bool) (bound : Nat) : Option Nat :=
  let l := (List.range bound).filter p
  l[Config.freeNat s.fresh % l.length]?

/-- The places where a stack or a dome counts the errors of its memory (R217): stacks 0 to 15, then domes. -/
def placeOf (pa : Nat) : Nat :=
  match sliceOf pa with
  | some k => 16 + domeOf k
  | none => stackOfHome (homeOfPa pa)

/-! ## Error-correcting codes (R212, R215, R217) -/

/-- The source that the event log gives an error of a place of memory (R401). -/
def srcOf (place : Nat) : Nat := if place < 16 then 0x2000 + place else 0x3000 + (place - 16)

/-- An uncorrectable word takes the hardware mark; it is counted and logged where it was not marked before (R212, R217). -/
def State.markWord (s : State) (w : Nat) : State :=
  if (s.mem.mark w).isSome then s
  else ((s.setMem (s.mem.setMark w .hardware)).count (.poisoned (placeOf (8 * w)))).note (srcOf (placeOf (8 * w))) .poison [8 * w]

/-- A word's code is checked where it is read (R212): one flipped bit is corrected, written back and counted; more leave the word
poisoned. -/
def State.checkWord (s : State) (w : Nat) : State :=
  match mget s.mem.upsets w with
  | none => s
  | some n =>
    let t := s.setMem { s.mem with upsets := mdel s.mem.upsets w }
    if n = 1 then t.count (.corrected (placeOf (8 * w))) else t.markWord w

/-- The codes of the words of a span are checked. -/
def State.checked (s : State) (pa n : Nat) : State :=
  if s.mem.upsets.isEmpty then s else (wordsOf pa n).foldl State.checkWord s

/-- The counts of a write (R217): marks cleared, merges, and words newly marked. -/
def State.countMarks (s : State) (pa : Nat) (ev : Nat × Nat × Nat) : State :=
  ((s.count (.cleared (placeOf pa)) ev.1).count (.merges (placeOf pa)) ev.2.1).count (.poisoned (placeOf pa)) ev.2.2

/-! ## Late values -/

/-- A late value sent to the symbol of a core; without a symbol it is discarded (R84, R99). -/
def State.arrive (s : State) (k : Nat) (res : Option SymRef) (value : Reg) (carried : List Nat) : State :=
  match res with
  | some r => { s with arrivals := s.arrivals ++ [⟨k, r, value, carried⟩] }
  | none => s

/-- A status sent. -/
def State.status (s : State) (k : Nat) (res : Option SymRef) (w : Word) : State := s.arrive k res (Reg.data w) []

/-- A refusal's status: REF and the reason code (R40, R77). -/
def refusal (code : Nat) : Word := BitVec.ofNat 64 (2 ^ 63 + code)

/-! ## Messages -/

/-- A message sent: it joins the traffic. -/
def State.post (s : State) (p : Packet) : State := { s with flights := s.flights ++ [⟨p, .link⟩] }

/-- The payload words of a message: the listed ones, then zeros. -/
def payload (l : List Word) : Vector Word 6 := Vector.ofFn fun i => l.getD i.val 0

/-- A message with plain words, as an engine, the Orrery or the device forms it (R321). -/
def State.message (s : State) (dest src pri cls launch : Nat) (flags : BitVec 6) (words : List Word) : Msg where
  dest := dest
  src := src
  pri := pri
  cls := cls
  xpkg := false
  incomplete := false
  flags := flags
  launch := launch
  time := BitVec.ofNat 48 s.time
  ptag := 0
  m := payload words

/-- A word from a number. -/
abbrev w64 (n : Nat) : Word := BitVec.ofNat 64 n

/-- A domain's partition holds the core: its dome belongs to the virtual function (R55). -/
def State.inPartition (s : State) (vf k : Nat) : Bool := isCore k && (s.vf vf).domes.contains (domeOf k)

end Sys2Proof.Machine
end

