-- ==== Sys2Proof/Machine/Levels.lean ====
section
/-! DEFINITION. Launches, graphs, phases, jobs and TCBs: their counters, completion, and the retirement of anchored
tasks (R23 to R31, R42, R51, R65, R67, R70 to R72, R370, R429). -/
namespace Sys2Proof.Machine

/-! ## Counter records (R24) -/

/-- How a member ends (R24). -/
inductive End where
  | done | faulted | cancelled
deriving DecidableEq, Repr

/-- The code of an outcome (R42). -/
def End.code : End → Nat
  | .done => 0 | .cancelled => 1 | .faulted => 2

/-- A counter record with no member. -/
def Counts.new (closed : Bool) (members : Nat) : Counts := ⟨closed, members, 0, 0, 0⟩

/-- Sealed, and every member has ended (R24). -/
def Counts.isComplete (c : Counts) : Bool := c.closed && c.done + c.faulted + c.cancelled == c.members

/-- The outcome of a complete instance (R24). -/
def Counts.outcome (c : Counts) : End :=
  if 0 < c.faulted then .faulted else if 0 < c.cancelled then .cancelled else .done

/-- One member, or `n` of them, ended. -/
def Counts.finish (c : Counts) (e : End) (n : Nat := 1) : Counts :=
  match e with
  | .done => { c with done := c.done + n }
  | .faulted => { c with faulted := c.faulted + n }
  | .cancelled => { c with cancelled := c.cancelled + n }

/-- No member can be added without carrying MEMBERS past its 32 bits (R24). -/
def Counts.isFull (c : Counts) : Bool := decide (2 ^ 32 - 1 ≤ c.members)

/-- One member added. -/
def Counts.join (c : Counts) : Counts := { c with members := c.members + 1 }

/-! ## Members of launches -/

/-- A live launch takes one more member (R24). -/
def State.canJoin (s : State) (l : Nat) : Bool :=
  match mget s.launches l with
  | some x => !x.counts.isFull
  | none => false

/-- One member added to a launch (R24). -/
def State.join (s : State) (l : Nat) : State :=
  { s with launches := mmod s.launches l fun x => { x with counts := x.counts.join } }

/-- A pin put on a launch: it does not complete while one holds it (R24). -/
def State.pin (s : State) (l : Nat) : State :=
  { s with launches := mmod s.launches l fun x => { x with pins := x.pins + 1 } }

/-- A standing listener naming holds the launch (R24, R327). -/
def State.listened (s : State) (l : Nat) : Bool := s.vfs.any fun v => v.2.listen.any fun e => e.2 == l

/-! ## TCBs (R30, R51, R52) -/

/-- A TCB that became READY enters its graph's queue: behind those of earlier cycles, and among those of the same
cycle in ascending index (R52). -/
def readyInsert (t now : Nat) : List (Nat × Nat) → List (Nat × Nat)
  | [] => [(t, now)]
  | (u, c) :: rest => if c = now ∧ t < u then (t, now) :: (u, c) :: rest else (u, c) :: readyInsert t now rest

/-- A TCB moves to READY (R30, R51). -/
def State.tcbReady (s : State) (t : Nat) : State :=
  let x := s.tcb t
  { s.setTcb t { x with state := .ready } with
    graphs := mmod s.graphs x.graph fun g =>
      let q := readyInsert t s.rc g.ready
      { g with
        ready := q
        headPri := if q.head? = g.ready.head? then g.headPri else none } }

/-- The counter of one successor that is still ARMED decreases; at 0 the TCB becomes READY. Its body acquires what the
predecessor's work released (R30, R51, R363). A successor that CANCEL has reached stays CANCELLED (R25). -/
def State.release1 (ids : List Nat) (s : State) (t : Nat) : State :=
  let x := s.tcb t
  let y := { x with counter := x.counter - 1, carried := x.carried ++ ids }
  if x.state = .armed then (if x.counter = 1 then (s.setTcb t y).tcbReady t else s.setTcb t y) else s

/-- A TCB's body has completed (R30): its state, its successors, its graph's counter (R25), and the pin on its owner
launch (R31). -/
def State.tcbEnd (s : State) (t : Nat) (e : End) (ids : List Nat) : State :=
  let x := s.tcb t
  match e with
  | .faulted => s.setTcb t { x with state := .faulted }
  | .done | .cancelled =>
    let s1 := s.setTcb t { x with state := if e = .done then .done else .cancelled }
    let s2 : State := { s1 with
      graphs := mmod s1.graphs x.graph fun g => { g with counts := g.counts.finish e }
      launches := mmod s1.launches x.owner.launch fun l => { l with pins := l.pins - 1 } }
    if e = .done then x.succ.foldl (State.release1 ids) s2 else s2

/-! ## Completion (R24, R25, R42) -/

/-- The NOTIFY message of a complete launch (R42); toward a core outside the partition it is not delivered (R55). -/
def State.notify (s : State) (l : Nat) (x : Launch) : State :=
  if x.desc.notify && s.inPartition x.vf x.desc.ncore then
    let msg := s.message x.desc.ncore x.core x.desc.pri x.desc.ncls l 0
      [w64 l, w64 x.counts.outcome.code, w64 x.counts.done, w64 x.counts.faulted, w64 x.counts.cancelled, w64 s.time]
    s.post ⟨msg, .notify, false, x.finished, x.vf, some .orrery⟩
  else s.count .notifyDiscarded (if x.desc.notify then 1 else 0)

/-- A lease ends: the home begins its return to shared mode (R75). -/
def Home.endLease (x : Home) : Home := if x.lease.isSome then { x with lease := none, returning := true } else x

/-- The leases that a launch holds end with it (R73). -/
def State.endLeases (s : State) (l : Nat) : State :=
  { s with homes := s.homes.map fun h => (h.1, if h.2.lease.any (·.1 == l) then h.2.endLease else h.2) }

/-- A launch completes: it leaves its table, its leases end, it notifies, and its parent's counter advances (R23, R25,
R30, R73). -/
def State.endLaunch (s : State) (l : Nat) (x : Launch) : State :=
  let s1 := (({ s with launches := mdel s.launches l } : State).endLeases l).notify l x
  let e := x.counts.outcome
  let s2 : State := if e = .faulted then
    { s1 with jobs := mmod s1.jobs x.desc.job fun j => { j with firstFault := j.firstFault.orElse fun _ => some l } }
    else s1
  match x.tcb with
  | some t => s2.tcbEnd t e x.finished
  | none =>
    if x.desc.gv then { s2 with graphs := mmod s2.graphs x.desc.graph fun g => { g with counts := g.counts.finish e } }
    else { s2 with phases := mmod s2.phases x.desc.phase fun p => { p with counts := p.counts.finish e } }

/-- A graph completes: its TCBs return to FREE and its phase's counter advances (R25, R30). -/
def State.endGraph (s : State) (n : Nat) (g : Graph) : State :=
  { s with
    graphs := mdel s.graphs n
    tcbs := s.tcbs.filter fun t => t.2.graph != n
    phases := mmod s.phases g.phase fun p => { p with counts := p.counts.finish g.counts.outcome } }

/-- A phase completes: it is reported over KCP and its job's counter advances (R23, R25, R399). -/
def State.endPhase (s : State) (n : Nat) (p : Phase) : State :=
  { s with
    phases := mdel s.phases n
    reports := s.reports ++ [⟨((mget s.jobs p.job).map (·.vf)).getD 0, .phase, n, p.counts.outcome.code, none⟩]
    jobs := mmod s.jobs p.job fun j => { j with counts := j.counts.finish p.counts.outcome } }

/-- A job completes: it is reported over KCP, a FAULTED one with its first faulted launch (R25). -/
def State.endJob (s : State) (n : Nat) (j : Job) : State :=
  { s with
    jobs := mdel s.jobs n
    reports := s.reports ++ [⟨j.vf, .job, n, j.counts.outcome.code,
      if j.counts.outcome = .faulted then j.firstFault else none⟩] }

/-- The first complete instance completes, if there is one. -/
def State.settle1 (s : State) : Option State :=
  match s.launches.find? fun x => x.2.counts.isComplete && x.2.pins == 0 && !s.listened x.1 with
  | some x => some (s.endLaunch x.1 x.2)
  | none =>
    match s.graphs.find? fun x => x.2.counts.isComplete with
    | some x => some (s.endGraph x.1 x.2)
    | none =>
      match s.phases.find? fun x => x.2.counts.isComplete with
      | some x => some (s.endPhase x.1 x.2)
      | none => (s.jobs.find? fun x => x.2.counts.isComplete).map fun x => s.endJob x.1 x.2

/-- At most `n` instances complete. -/
def State.settleN : Nat → State → State
  | 0, s => s
  | n + 1, s =>
    match s.settle1 with
    | some t => State.settleN n t
    | none => s

/-- Every instance that is complete completes, its parents with it, in the same reference cycle (R25, R382). -/
def State.settle (s : State) : State :=
  State.settleN (s.launches.length + s.graphs.length + s.phases.length + s.jobs.length) s

/-- A member of a launch ended, and released what it wrote (R24, R148). -/
def State.endMember (s : State) (l : Nat) (e : End) (ids : List Nat := []) : State :=
  State.settle { s with launches := mmod s.launches l fun x =>
    { x with counts := x.counts.finish e, finished := x.finished ++ ids } }

/-- A pin taken off a launch. -/
def State.unpin (s : State) (l : Nat) : State :=
  State.settle { s with launches := mmod s.launches l fun x => { x with pins := x.pins - 1 } }

/-! ## The fault message (R370, R371) -/

/-- The first word of a fault message (R371). -/
def faultWord (code : Nat) (tcb : Option Nat) (kid detail cause : Nat) : Word :=
  w64 (code * 2 ^ 48 + (match tcb with | some t => t * 2 ^ 30 + 2 ^ 29 | none => 0) + kid % 2 ^ 13 * 2 ^ 16 +
    detail % 256 * 256 + cause)

/-- A fault message goes to a supervisor, adding a member to the launch where that is allowed (R24, R370, R371). Toward
a core outside the partition it is not sent, and the member counts CANCELLED (R55, R370). -/
def State.faultTo (s : State) (vf super fcls pri l src : Nat) (words : List Word) (ids : List Nat)
    (engine : Option Engine := none) : State :=
  let ok := s.canJoin l
  let s1 := if ok then s.join l else s
  if s.inPartition vf super then s1.post ⟨s.message super src pri fcls l 0x20 words, .fault, ok, ids, vf, engine⟩
  else
    let s2 := s1.count (.dropped src)
    if ok then s2.endMember l .cancelled else s2

/-- A fault message to the supervisor of a live launch. -/
def State.faultMessage (s : State) (l src : Nat) (words : List Word) (ids : List Nat) (engine : Option Engine := none) :
    State :=
  match mget s.launches l with
  | some x => s.faultTo x.vf x.desc.super x.desc.fclass x.desc.pri l src words ids engine
  | none => s

/-- USER of the TCB, or 0 (R371). -/
def State.userWord (s : State) (t : Option Nat) : Word :=
  match t with
  | some i => (s.tcb i).user
  | none => 0

/-! ## Anchored tasks (R64 to R72) -/

/-- The entry of a task in its queue. -/
def Queue.find (q : Queue) (seq : Nat) : Option Entry := q.entries.find? (·.seq == seq)

/-- Sequence numbers compared modulo 2^32: a before b (R64). -/
def seqBefore (a b : Nat) : Bool := decide ((b + 2 ^ 32 - a) % 2 ^ 32 < 2 ^ 31) && a != b

/-- Two anchors overlap in their physical bytes (R70). -/
def Entry.overlaps (e f : Entry) : Bool := decide (e.pa ≤ f.pa + f.desc.alen) && decide (f.pa ≤ e.pa + e.desc.alen)

/-- An entry is withheld: it is ORDERED and a live entry before it overlaps its anchor (R70). -/
def Queue.withheld (q : Queue) (e : Entry) : Bool :=
  e.desc.ordered && q.entries.any fun f => seqBefore f.seq e.seq && f.overlaps e

/-- A queue's depth: its Waiting entries (R64). -/
def Queue.depth (q : Queue) : Nat := (q.entries.filter (·.cond == .waiting)).length

/-- An entry changed in its queue. -/
def Queue.modEntry (q : Queue) (seq : Nat) (f : Entry → Entry) : Queue :=
  { q with entries := q.entries.map fun e => if e.seq = seq then f e else e }

/-- A queue changed in its home. -/
def Home.modQueue (x : Home) (i : Nat) (f : Queue → Queue) : Home :=
  { x with queues := Vector.ofFn fun j : Fin 8 => if j.val = i then f x.queues[j.val] else x.queues[j.val] }

/-- A queue of a home, by number. -/
def Home.queue (x : Home) (i : Nat) : Queue := x.queues[Fin.ofNat 8 i]

/-- Every Waiting FAR-ONLY entry becomes Offered (R65 rule 1). -/
def Queue.offerFar (q : Queue) : Queue :=
  { q with entries := q.entries.map fun e => if e.cond = .waiting ∧ e.desc.farOnly then { e with cond := .offered } else e }

/-- The entry that rule 3 of R65 offers: the highest Waiting one that is not NEAR-ONLY and not under a header read. -/
def Queue.offerable (q : Queue) : Option Entry :=
  (q.entries.filter fun e => e.cond == .waiting && !e.desc.nearOnly && !e.headerRead).foldl
    (fun best e => match best with
      | none => some e
      | some b => if seqBefore b.seq e.seq then some e else some b) none

/-- Rule 3 of R65, at most n times. -/
def Queue.offerOver : Nat → Queue → Queue
  | 0, q => q
  | n + 1, q =>
    if q.thresh < q.depth then
      match q.offerable with
      | some e => Queue.offerOver n (q.modEntry e.seq fun x => { x with cond := .offered })
      | none => q
    else q

/-- The offer rule (R65). -/
def Queue.offer (q : Queue) : Queue :=
  let q1 := q.offerFar
  if q1.thresh = 0 then q1 else q1.offerOver q1.entries.length

/-- The virtual function of a context launch. -/
def State.launchVf (s : State) (l : Nat) : Nat := ((mget s.launches l).map (·.vf)).getD 0

/-- One task reaches its delivery point: the home passes it to the Orrery (R67), and its body acquires what the tasks that
have retired before, at any home, wrote within its anchor (R71). -/
def State.passTask (h qi : Nat) (s : State) (e : Entry) : State :=
  let x := s.home h
  let got := s.mem.within (s.homes.flatMap fun y => y.2.retired) e.pa (e.desc.alen + 1)
  { s.setHome h (x.modQueue qi fun q => q.modEntry e.seq fun y => { y with passed := true, carried := y.carried ++ got }) with
    offers := s.offers ++ [⟨⟨h, qi, e.seq⟩, s.launchVf e.ctx, (x.queue qi).dpri⟩] }

/-- Every Offered entry of a queue that is not withheld and not passed yet is passed, in ascending sequence (R67). -/
def State.passTasks (s : State) (h qi : Nat) : State :=
  let q := (s.home h).queue qi
  (q.entries.filter fun e => e.cond == .offered && !e.passed && !q.withheld e).foldl (State.passTask h qi) s

/-- The offer rule at a queue and the passing of what it offered (R65, R67). -/
def State.offerQueue (s : State) (h qi : Nat) : State :=
  (s.setHome h ((s.home h).modQueue qi Queue.offer)).passTasks h qi

/-- A TCB's task count falls by one; at 0 its body completes (R429). -/
def State.tcbTaskEnd (s : State) (t : Nat) (e : End) (ids : List Nat) : State :=
  let x := s.tcb t
  let y := { x with
    tasks := x.tasks - 1
    anyFault := x.anyFault || e == .faulted
    anyCancel := x.anyCancel || e == .cancelled
    carried := x.carried ++ ids }
  if x.tasks = 1 then
    (s.setTcb t y).tcbEnd t (if y.anyFault then .faulted else if y.anyCancel then .cancelled else .done) y.carried
  else s.setTcb t y

/-- The target of a task advances (R33, R72). -/
def State.targetEnd (s : State) (d : TaskDesc) (e : End) (ids : List Nat) : State :=
  match d.tkind with
  | 1 => { s with launches := mmod s.launches d.tidx fun x =>
      { x with counts := x.counts.finish e, finished := x.finished ++ ids } }
  | 2 => { s with graphs := mmod s.graphs d.tidx fun g => { g with counts := g.counts.finish e } }
  | 3 => s.tcbTaskEnd d.tidx e ids
  | _ => s

/-- A task leaves its queue: retired, retired faulted or cancelled (R72). Its target advances, its pin ends, its
writes are released (R71), and tasks withheld behind it proceed (R70, R67). -/
def State.retireTask (s : State) (t : TaskRef) (e : End) (ids : List Nat) : State :=
  let x := s.home t.home
  match (x.queue t.queue).find t.seq with
  | none => s
  | some en =>
    let x1 := x.modQueue t.queue fun q => { q with entries := q.entries.filter fun y => y.seq != t.seq }
    let x2 := { x1 with
      released := s.mem.live (x1.released ++ s.mem.within ids en.pa (en.desc.alen + 1))
      retired := s.mem.live (x1.retired ++ ids) }
    let s1 := (s.setHome t.home x2).passTasks t.home t.queue
    let s2 := s1.targetEnd en.desc e ids
    ({ s2 with launches := mmod s2.launches en.ctx fun l => { l with pins := l.pins - 1 } } : State).settle

/-- The TCB a task's fault message names: that of its target (R371). -/
def State.taskTcb (s : State) (t : TaskRef) : Option Nat :=
  match ((s.home t.home).queue t.queue).find t.seq with
  | some e => if e.desc.tkind = 3 then some e.desc.tidx else none
  | none => none

end Sys2Proof.Machine
end

