-- ==== Sys2Proof/Machine/Translate.lean ====
section
/-! DEFINITION. Translation: page-table walks, TLBs, rights, and the stack window (R36, R37, R204 to R211, R428). -/
namespace Sys2Proof.Machine

/-! ## Walks (R204 to R207) -/

/-- What a leaf gives (R205): its page's virtual base, size, and fields. -/
structure Leaf where
  va : Nat
  size : Nat
  pa : Nat
  sc : Nat
  mt : Nat
  r : Bool
  w : Bool
  x : Bool
  d : Bool
deriving DecidableEq, Repr

/-- Bits [lo + n - 1 : lo] of a number. -/
def bits (x lo n : Nat) : Nat := x / 2 ^ lo % 2 ^ n

/-- A bit of a number. -/
def bit (x i : Nat) : Bool := bits x i 1 == 1

/-- A pointer is malformed: reserved bits, [54:52], [9:2] or PA[13:12] are not 0 (R205). -/
def pointerBad (e : Nat) : Bool := bits e 55 9 != 0 || bits e 52 3 != 0 || bits e 2 10 != 0 || bits e 12 2 != 0

/-- A leaf of a page of 2^sh bytes is malformed: reserved bits, SC, MT, or PA bits below the page size (R205). -/
def leafBad (sh e : Nat) : Bool :=
  bits e 55 9 != 0 || bits e 10 2 != 0 || bit e 5 || decide (4 < bits e 52 3) || decide (1 < bits e 8 2) ||
    (bits e 12 40 * 2 ^ 12) % 2 ^ sh != 0

/-- The fields of a leaf of a page of 2^sh bytes that holds a virtual address (R205). -/
def leafOf (va sh e : Nat) : Leaf where
  va := va / 2 ^ sh * 2 ^ sh
  size := 2 ^ sh
  pa := bits e 12 40 * 2 ^ 12
  sc := bits e 52 3
  mt := bits e 8 2
  r := bit e 2
  w := bit e 3
  x := bit e 4
  d := bit e 7

/-- The levels of the walk (R204): the low bit of the index, its width, and whether only a leaf may stand there. -/
def walkLevels : List (Nat × Nat × Bool) := [(37, 11, false), (26, 11, false), (16, 10, true)]

/-- A walk from a table down: the leaf and the address of its PTE, or the DETAIL of R207. -/
def walkFrom (m : Memory) (v : Viewer) (va : Nat) : List (Nat × Nat × Bool) → Nat → Except Nat (Leaf × Nat)
  | [], _ => .error 3
  | (sh, n, last) :: rest, table =>
    let at_ := table + 8 * bits va sh n
    let e := m.viewNat v at_ 8
    if (m.viewMark v (at_ / 8)).isSome then .error 6
    else if !bit e 0 then .error 2
    else if bit e 1 then (if leafBad sh e then .error 3 else .ok (leafOf va sh e, at_))
    else if last || pointerBad e then .error 3
    else walkFrom m v va rest (bits e 12 40 * 2 ^ 12)

/-- A whole walk: the context entry, then the levels (R204). -/
def walk (m : Memory) (v : Viewer) (ctx asid va : Nat) : Except Nat (Leaf × Nat) :=
  let at_ := ctx + 16 * asid
  let e := m.viewNat v at_ 8
  let poison (w : Nat) : Bool := (m.viewMark v (at_ / 8 + w)).isSome
  if poison 0 then .error 6
  else if !bit e 0 then .error 2
  else if bits e 1 13 != 0 || bits e 52 12 != 0 then .error 3
  else if poison 1 then .error 6
  else if m.viewNat v (at_ + 8) 8 != 0 then .error 3
  else walkFrom m v va walkLevels (bits e 14 38 * 2 ^ 14)

/-- The size of what an address shares with its neighbours where a walk from a table down ends: the page of the leaf, or what the
last entry read would map. -/
def spanFrom (m : Memory) (v : Viewer) (va : Nat) : List (Nat × Nat × Bool) → Nat → Nat
  | [], _ => 2 ^ 16
  | (sh, n, last) :: rest, table =>
    let at_ := table + 8 * bits va sh n
    let e := m.viewNat v at_ 8
    if (m.viewMark v (at_ / 8)).isSome || !bit e 0 || bit e 1 || last || pointerBad e then 2 ^ sh
    else spanFrom m v va rest (bits e 12 40 * 2 ^ 12)

/-- The size of the source page that fails for an engine (R258): all of an address space whose context entry fails. -/
def failSize (m : Memory) (v : Viewer) (ctx asid va : Nat) : Nat :=
  match walk m v ctx asid (va % 2 ^ 48) with
  | .ok r => r.1.size
  | .error _ =>
    let at_ := ctx + 16 * asid
    let e := m.viewNat v at_ 8
    if (m.poisonIn v at_ 16).isSome || !bit e 0 || bits e 1 13 != 0 || bits e 52 12 != 0 || m.viewNat v (at_ + 8) 8 != 0 then
      2 ^ 48
    else spanFrom m v (va % 2 ^ 48) walkLevels (bits e 14 38 * 2 ^ 14)

/-- The page grants the accesses (R206). -/
def Leaf.grants (l : Leaf) (rights : List Access) : Bool :=
  rights.all fun a => match a with | .read => l.r | .write => l.w | .execute => l.x

/-- The walker sets A, and D before a store (R205, R206): the PTE's byte is written as seen by all.
DESIGN CHOICE (log 17), unsafe. -/
def setAD (m : Memory) (v : Viewer) (pte : Nat) (dirty : Bool) : Memory :=
  let b := m.byte pte
  m.writeData (Visibility.everyone v) pte [b ||| 0x40 ||| (if dirty then 0x80 else 0)]

/-- The PTE that the walk read lacks A, or D before a store (R205, R206). -/
def lacksAD (m : Memory) (v : Viewer) (pte : Nat) (dirty : Bool) : Bool :=
  let e := m.viewNat v pte 8
  !(bit e 6 && (bit e 7 || !dirty))

/-- The compare of R206: the PTE at its home is not the one that the walk read, though A or D is to be set. -/
def pteChanged (m : Memory) (v : Viewer) (pte : Nat) (dirty : Bool) : Bool :=
  lacksAD m v pte dirty && m.viewNat v pte 8 != leNat ((span pte 8).map m.byte)

/-- The writes to a PTE are seen by the walker whose compare failed (R206). -/
def Memory.refresh (m : Memory) (v : Viewer) (pte : Nat) : Memory := m.acquire (m.writesAt pte 8) v

/-- A translated access: its physical address and its page's scope and memory type. -/
structure Place where
  pa : Nat
  sc : Nat
  mt : Nat
deriving DecidableEq, Repr

/-- The place that a leaf gives an address. -/
def Leaf.place (l : Leaf) (va : Nat) : Place := ⟨l.pa + (va - l.va), l.sc, l.mt⟩

/-- The checks of a leaf for an access (R207): the physical address exists and is not reserved, then the rights. -/
def Leaf.check (l : Leaf) (va : Nat) (rights : List Access) : Except Nat Place :=
  if !mappable (l.place va).pa then .error 4
  else if !l.grants rights then .error 5
  else .ok (l.place va)

/-- The codes of the entries that a walk from a table down reads are checked (R212). -/
def State.checkedFrom (v : Viewer) (va : Nat) : List (Nat × Nat × Bool) → Nat → State → State
  | [], _, s => s
  | (sh, n, last) :: rest, table, s =>
    let at_ := table + 8 * bits va sh n
    let t := s.checked at_ 8
    let e := t.mem.viewNat v at_ 8
    if (t.mem.viewMark v (at_ / 8)).isSome || !bit e 0 || bit e 1 || last || pointerBad e then t
    else State.checkedFrom v va rest (bits e 12 40 * 2 ^ 12) t

/-- The codes of what a whole walk reads are checked (R212). -/
def State.checkedWalk (s : State) (v : Viewer) (vf asid va : Nat) : State :=
  if s.mem.upsets.isEmpty then s
  else
    let at_ := (s.vf vf).ctx + 16 * asid
    let t := s.checked at_ 16
    State.checkedFrom v va walkLevels (bits (t.mem.viewNat v at_ 8) 14 38 * 2 ^ 14) t

/-- One walk (R207); where it succeeds, it sets A, and D before a store, if the PTE lacks them. -/
def State.walkOnce (s : State) (v : Viewer) (vf asid va : Nat) (rights : List Access) :
    Except Nat (Place × Leaf) × State :=
  match walk s.mem v (s.vf vf).ctx asid va with
  | .error d => (.error d, s)
  | .ok (l, pte) =>
    match l.check va rights with
    | .error d => (.error d, s)
    | .ok p =>
      let st := rights.contains .write
      (.ok (p, { l with d := l.d || st }), if lacksAD s.mem v pte st then { s with mem := setAD s.mem v pte st } else s)

/-- The PTE at which the compare-and-swap of a walk fails (R206), if it does. -/
def State.walkStale (s : State) (v : Viewer) (vf asid va : Nat) (rights : List Access) : Option Nat :=
  match walk s.mem v (s.vf vf).ctx asid va with
  | .error _ => none
  | .ok (l, pte) =>
    match l.check va rights with
    | .error _ => none
    | .ok _ => if pteChanged s.mem v pte (rights.contains .write) then some pte else none

/-- Walks until the compare-and-swap of one holds: after a failure the walk restarts from level 1 (R206), and the walker has seen
the writes to that PTE. -/
def State.walks (v : Viewer) (vf asid va : Nat) (rights : List Access) : Nat → State → Except Nat (Place × Leaf) × State
  | 0, s => (s.checkedWalk v vf asid va).walkOnce v vf asid va rights
  | n + 1, s =>
    let t := s.checkedWalk v vf asid va
    match t.walkStale v vf asid va rights with
    | none => t.walkOnce v vf asid va rights
    | some pte => State.walks v vf asid va rights n { t with mem := t.mem.refresh v pte }

/-- A translation by a walk (R207). Each restart shows the walker a write that it had not seen, so there are no more of them than
such writes. -/
def State.walkTo (s : State) (v : Viewer) (vf asid va : Nat) (rights : List Access) :
    Except Nat (Place × Leaf) × State :=
  if 2 ^ 48 ≤ va then (.error 1, s) else State.walks v vf asid va rights s.mem.unseen.length s

/-! ## TLBs (R208, R210) -/

/-- The leaf that a TLB entry holds. -/
def TlbEntry.leaf (e : TlbEntry) : Leaf := ⟨e.va, e.size, e.pa, e.sc, e.mt, e.r, e.w, e.x, e.d⟩

/-- The TLB entry that translates an address under an ASID (R208). -/
def tlbFind (t : List TlbEntry) (asid va : Nat) : Option TlbEntry :=
  t.find? fun e => e.asid == asid && decide (e.va ≤ va) && decide (va < e.va + e.size)

/-- The TLB with a leaf filled in. -/
def tlbFill (t : List TlbEntry) (asid : Nat) (l : Leaf) : List TlbEntry :=
  ⟨asid, l.va, l.size, l.pa, l.sc, l.mt, l.r, l.w, l.x, l.d⟩ :: t.filter fun e => !(e.asid == asid && e.va == l.va && e.size == l.size)

/-- The agent whose TLB serves a translation (R210): a near unit's accesses are translated by its home. DEDUCED (log 18), safe. -/
def translatorOf : Viewer → Viewer
  | .nearUnit h _ => .home h
  | v => v

/-- An agent that keeps a TLB (R210). -/
def hasTlb : Viewer → Bool
  | .orrery | .station | .uet _ => false
  | _ => true

/-- The TLB of an agent (R210). -/
def State.tlbOf (s : State) : Viewer → List TlbEntry
  | .core k => (s.core k).tlb
  | v => (s.tlbs.filter (·.1 == v)).map Prod.snd

/-- The state with a leaf filled into an agent's TLB. -/
def State.fillTlb (s : State) (v : Viewer) (asid : Nat) (l : Leaf) : State :=
  match v with
  | .core k => s.setCore k { s.core k with tlb := tlbFill (s.core k).tlb asid l }
  | v =>
    if hasTlb v then
      { s with tlbs := (tlbFill (s.tlbOf v) asid l).map (fun e => (v, e)) ++ s.tlbs.filter fun x => x.1 != v }
    else s

/-- A translation for an agent: by its TLB, stale or not (R210), or by a walk that fills it. An entry whose D is clear does not
serve a store (R205). -/
def State.engineTo (s : State) (v : Viewer) (vf asid va : Nat) (rights : List Access) : Except Nat Place × State :=
  if 2 ^ 48 ≤ va then (.error 1, s)
  else
    match (tlbFind (s.tlbOf (translatorOf v)) asid va).filter fun e => e.d || !rights.contains .write with
    | some e => (e.leaf.check va rights, s)
    | none =>
      match s.walkTo v vf asid va rights with
      | (.error d, t) => (.error d, t)
      | (.ok (p, l), t) => (.ok p, t.fillTlb (translatorOf v) asid l)

/-- A span of an address space, within a page, lies in a slice whose accesses are held (R389). -/
def State.heldFor (s : State) (v : Viewer) (vf asid va n : Nat) (rights : List Access) : Bool :=
  match (s.engineTo v vf asid va rights).1 with
  | .ok p => s.heldSpan p.pa n
  | .error _ => false

/-- A translation for the activation of core k. -/
def State.translate (s : State) (k va : Nat) (rights : List Access) : Except Nat Place × State :=
  s.engineTo (.core k) (s.core k).vfid (s.core k).asid va rights

/-! ## The stack window (R36, R37) -/

/-- The virtual base of a core's slice for a virtual function (R428). -/
def State.sliceVa (s : State) (vf k : Nat) : Nat := (s.vf vf).swb + k * 2 ^ 18

/-- What the stack window does with an address (R36, R37). -/
inductive Redirect where
  | same | dest (va : Nat) | overflow
deriving DecidableEq, Repr

/-- An address in [slice_top - SLIM × 4 KiB, SPLO) is redirected to OVFPTR + (addr - slice_base); with OVF = 0 it is a
stack overflow (R36, R37). -/
def State.redirect (s : State) (k va : Nat) : Redirect :=
  let c := s.core k
  match c.act with
  | none => .same
  | some a =>
    let base := s.sliceVa c.vfid c.kself
    if base + 0x40000 - a.slim * 4096 ≤ va ∧ va < c.splo.toNat then
      if a.ovf = 0 then .overflow else .dest (c.ovfptr.toNat + (va - base))
    else .same

/-- Metadata with G = 0 over `len` bytes from an address (R68, R89). -/
def capInfo0 (addr len perms : Nat) : Word := w64 (perms * 2 ^ 56 + addr % 2 ^ 25 * 2 ^ 25 + len)

/-- The least granule exponent with which bounds are representable (R129). -/
def capExp (lo hi : Nat) : Option Nat :=
  (List.range 41).find? fun g => decide ((hi + 2 ^ g - 1) / 2 ^ g - lo / 2 ^ g ≤ 2 ^ 25 - 1)

/-- The stack capability of R36: value slice_top, over the stack window, with R, W, LCAP and SCAP. -/
def State.stackCap (s : State) (vf kself slim : Nat) : Reg :=
  let top := s.sliceVa vf kself + 0x40000
  let lo := top - slim * 4096
  Reg.mkCap (w64 top) (capInfo0 lo (slim * 4096) 0xD8)

end Sys2Proof.Machine
end

