-- ==== Sys2Proof/Machine/Access.lean ====
section
/-! DEFINITION. How a core reaches memory: the data cache, loads, the store buffer, atomics, releases and fences
(R201, R203, R211 to R215, R221 to R241, R357 to R362). -/
namespace Sys2Proof.Machine

/-! ## Scopes (R211, R358) -/

/-- The agents that share a page of a scope with core k (R211). -/
def seerOf (k sc : Nat) : Audience :=
  match sc with | 0 => [.own k] | 1 => [.dome (domeOf k)] | 2 => [.die (dieOf k)] | 3 => [.package] | _ => []

/-- A location that is die-local to the die of core k, scope aside: DRAM, or a slice of that die (R358). -/
def dieLocal (k pa : Nat) : Bool :=
  match sliceOf pa with | some j => dieOf j == dieOf k | none => true

/-- Who sees a store of core k when it leaves the buffer (R358): the cores toward which the location is
die-local. -/
def storeSeen (k pa sc : Nat) : List Audience :=
  if sc = 0 ∨ !dieLocal k pa then [] else if sc = 1 then [[.coresOfDome (domeOf k)]] else [[.coresOfDie (dieOf k)]]

/-- A page whose accesses go through the data cache: DRAM with SC = CORE and MT = 00 (R203). -/
def cachedPlace (p : Place) : Bool := p.sc == 0 && p.mt == 0 && isDram p.pa

/-! ## The data cache (R203) -/

/-- The line as core k reads it from memory. -/
def State.readLine (s : State) (v : Viewer) (base : Nat) : Line where
  base := base
  bytes := s.mem.viewBytes v base 64
  tags := (granulesOf base 64).map (s.mem.viewTag v)
  marks := (wordsOf base 64).map (s.mem.viewMark v)
  dirty := false

/-- A dirty line written back: it stands as the core's store (R151). -/
def State.writeLine (s : State) (k : Nat) (l : Line) : State :=
  if l.dirty then s.setMem (s.mem.writeWhole { writer := .core k } l.base l.bytes l.tags l.marks) else s

/-- The core's lines that meet a condition are written back, and dropped where `drop`. -/
def State.flush (s : State) (k : Nat) (drop : Bool) (p : Line → Bool) : State :=
  let c := s.core k
  let s1 := (c.dcache.filter p).foldl (fun t l => t.writeLine k l) s
  let clean (l : Line) : Line := if p l then { l with dirty := false } else l
  s1.setCore k { c with dcache := if drop then c.dcache.filter (!p ·) else c.dcache.map clean }

/-- Every line written back and invalidated, as before a context leaves the core (R203). -/
def State.flushAll (s : State) (k : Nat) : State := s.flush k true fun _ => true

/-- The cached line that holds an address. -/
def Core.lineAt (c : Core) (pa : Nat) : Option Line := c.dcache.find? (·.base == pa / 64 * 64)

/-- The lines that a data cache of 16 KiB and an instruction cache of 32 KiB hold (R10, R203). -/
def dataLines : Nat := 256
/-- The lines of an instruction cache (R10). -/
def codeLines : Nat := 512

/-- A line brought into the cache; whether another line is evicted first, and in a full cache which one, is the hardware's choice
(log 11). DESIGN CHOICE (log 11), unsafe. -/
def State.fill (s0 : State) (k pa : Nat) : State :=
  match (s0.core k).lineAt pa with
  | some _ => s0
  | none =>
    let s := s0.checked (pa / 64 * 64) 64
    let l := s.readLine (.core k) (pa / 64 * 64)
    let c := s.core k
    if c.dcache.isEmpty then s.setCore k { c with dcache := [l] }
    else
      let n := Config.freeNat s.fresh
      let s1 := s.draw
      let s2 := match c.dcache[if c.dcache.length < dataLines then n else n % c.dcache.length]? with
        | some old => s1.flush k true fun x => x.base == old.base
        | none => s1
      s2.setCore k { s2.core k with dcache := l :: (s2.core k).dcache }

/-! ## Loads -/

/-- What an access reads: bytes, the marks of the words it touches, its granule's tag, and whether the core's own store buffer
gave them (R232). -/
structure Loaded where
  bytes : List Byte
  marks : List (Option Mark)
  tag : Bool
  own : Bool
deriving DecidableEq, Repr

/-- The bytes of a buffered store that an access lies in. -/
def BufEntry.covers (e : BufEntry) (pa n : Nat) : Bool :=
  match e.op with
  | .store _ _ _ => decide (e.pa ≤ pa) && decide (pa + n ≤ e.pa + e.size)
  | .amo _ _ _ | .cas _ _ _ | .rwr _ _ _ => false

/-- A buffered access shares a byte with a span. -/
def BufEntry.meets (e : BufEntry) (pa n : Nat) : Bool := decide (e.pa < pa + n) && decide (pa < e.pa + e.size)

/-- What a load takes from a buffered store (R232). -/
def BufEntry.forward (e : BufEntry) (pa n : Nat) : Loaded :=
  match e.op with
  | .store data pois setTag =>
    ⟨(leBytes e.size data).drop (pa - e.pa) |>.take n,
      (wordsOf pa n).map fun w => if pois.getLsbD (w - e.pa / 8) then some .stored else none, setTag, true⟩
  | .amo _ _ _ | .cas _ _ _ | .rwr _ _ _ => ⟨[], [], false, true⟩

/-- The youngest buffered access that shares a byte with a span. -/
def Core.youngest (c : Core) (pa n : Nat) : Option BufEntry := c.buf.reverse.find? (·.meets pa n)

/-- What core k reads of memory or of its data cache. -/
def State.loadAt (s : State) (k pa n : Nat) (cached : Bool) : Loaded × State :=
  if cached then
    let t := s.fill k pa
    match (t.core k).lineAt pa with
    | some l =>
      (⟨(l.bytes.drop (pa - l.base)).take n,
        (wordsOf pa n).map fun w => l.marks.getD (w - l.base / 8) none,
        l.tags.getD (pa / 16 - l.base / 16) false, false⟩, t)
    | none => (⟨[], [], false, false⟩, t)
  else
    let t := s.checked pa n
    let c := t.core k
    (⟨t.mem.viewBytes (.core k) pa n, (wordsOf pa n).map (t.mem.viewMark (.core k)), t.mem.viewTag (.core k) (pa / 16), false⟩,
      t.setCore k { c with obs := t.mem.live (c.obs ++ t.mem.readIds (.core k) pa n) })

/-- The origin that a poisoned word gives a load of core k (R100, R213). DEDUCED (log 55), unsafe. -/
def originOf (k pa : Nat) (m : Mark) : Nat :=
  match sliceOf pa with
  | some j => if domeOf j ≠ domeOf k then 6 else match m with | .hardware => 1 | .stored => 7
  | none => match m with | .hardware => 2 | .stored => 7

/-- The register that a load of a poisoned word delivers, with the virtual address of the first such word. -/
def Loaded.poison (x : Loaded) (k va pa : Nat) : Option Reg :=
  (x.marks.zipIdx.findSome? fun m => m.1.map fun q => (q, m.2)).map fun m =>
    Reg.poison (if x.own then 7 else originOf k (pa / 8 * 8 + 8 * m.2) m.1) (va / 8 * 8 + 8 * m.2)

/-- The register value of the bytes of a type (R223). -/
def loadWord (t : Ty) (x : Nat) : Word :=
  if tySigned t then BitVec.ofInt 64 (sextNat (tyWidth t) x) else w64 x

/-- The bytes of a type (R220). -/
def tyBytes (t : Ty) : Nat := tyWidth t / 8

/-- A poison load delivered is counted (R217). -/
def State.countPoison (s : State) (pa : Nat) (x : Loaded) : State :=
  if x.marks.any Option.isSome then s.count (.poisonLoads (placeOf pa)) else s

/-- The register that a load of a type delivers (R213, R223). -/
def Loaded.reg (x : Loaded) (k va pa : Nat) (t : Ty) : Reg :=
  (x.poison k va pa).getD (Reg.data (loadWord t (leNat x.bytes)))

/-! ## Split-phase loads (R225) -/

/-- An LDE is performed: its value is taken now, and arrives later. -/
def State.performLde (s : State) (k : Nat) (e : Lde) : State :=
  let r := s.loadAt k e.pa (tyBytes e.ty) e.cached
  (r.2.countPoison e.pa r.1).arrive k e.res (r.1.reg k e.va e.pa e.ty) []

/-- The pending LDEs that meet a condition are performed, the others wait on. -/
def State.performLdes (s : State) (k : Nat) (p : Lde → Bool) : State :=
  let c := s.core k
  (c.ldes.filter p).foldl (fun t e => t.performLde k e) (s.setCore k { c with ldes := c.ldes.filter fun e => !p e })

/-- The n-th pending LDE is performed, unless a buffered store that it overlaps has to leave first (R225). -/
def State.performNth (s : State) (k n : Nat) : State :=
  let c := s.core k
  match c.ldes[n]? with
  | some e =>
    if e.behind = 0 && !s.heldAt e.pa then (s.setCore k { c with ldes := dropAt c.ldes n }).performLde k e else s
  | none => s

/-! ## Atomics (R235 to R239) -/

/-- The new value of an AMO on w bits (R236). -/
def amoNew (op : AmoOp) (w x y : Nat) : Nat :=
  match op with
  | .swap => y
  | .add => (x + y) % 2 ^ w
  | .setb => x ||| y
  | .clrb => x ^^^ (x &&& y)
  | .flipb => x ^^^ y
  | .keepb => x &&& y
  | .min => if sextNat w x ≤ sextNat w y then x else y
  | .max => if sextNat w y ≤ sextNat w x then x else y
  | .minz => Nat.min x y
  | .maxz => Nat.max x y
  | .incw => if y ≤ x then 0 else x + 1
  | .decw => if x = 0 ∨ y < x then y else x - 1

/-- The new value of an RWR (R238). -/
def rwrNew (op : RedOp) (t : Ty) (x y : Nat) : Nat :=
  match tyFmt t with
  | some f => match op with | .sum => f.add .rne false x y | .min => f.fmin x y | .max => f.fmax x y
  | none =>
    let w := tyWidth t
    match op with
    | .sum => (x + y) % 2 ^ w
    | .min => if sextNat w x ≤ sextNat w y then x else y
    | .max => if sextNat w y ≤ sextNat w x then x else y

/-- The old value as the destination receives it (R236). -/
def oldWord (n x : Nat) : Word := if n = 8 then w64 x else BitVec.ofInt 64 (sextNat 32 x)

/-- The origin of an atomic's poisoned word (R236). -/
def atomicOrigin (k pa : Nat) : Nat :=
  match sliceOf pa with | some j => if j = k then 1 else 6 | none => 2

/-! ## The store buffer (R232, R359) -/

/-- The writes that a release of core k at once covers: its own and those it has read or acquired (R361). -/
def State.priorIds (s : State) (k : Nat) : List Nat :=
  s.mem.writesOf (.core k) ++ s.mem.live (s.core k).obs

/-- An entry is a plain store. -/
def BufEntry.isStore (e : BufEntry) : Bool :=
  match e.op with | .store _ _ _ => true | .amo _ _ _ | .cas _ _ _ | .rwr _ _ _ => false

/-- The writes that a buffered release of core k covers when it leaves the buffer (R361): the core's own until then, those that it
had read or acquired at its issue, and those that its earlier atomics have read since. -/
def State.coveredBy (s : State) (k : Nat) (e : BufEntry) : List Nat :=
  s.mem.writesOf (.core k) ++ s.mem.live (e.prior ++ (s.core k).atomicObs)

/-- How a buffered write of core k becomes visible when it leaves the buffer (R233, R358, R360); whoever acquires it acquires what
the core's FENCEs before it cover (R363). -/
def State.visOf (s : State) (k : Nat) (e : BufEntry) : Visibility where
  writer := .core k
  seenBy := storeSeen k e.pa e.scope
  inScope := seerOf k e.scope
  after := if e.release then s.coveredBy k e else []
  carry := (s.core k).fenced.filter fun c => s.mem.unseen.any (·.id == c.1)
  atomic := !e.isStore
  order := if e.isStore then [] else s.mem.atomicsAt e.pa e.size

/-- What a write must follow is performed first for the agents that see the write at once: of a release for those of its scope (R233,
R361, R362), of an atomic's word for them all, the writer among them (R235, R356). -/
def State.before (s : State) (v : Visibility) : State :=
  let m := v.seenBy.foldl (fun m x => (m.showAfter v.after (x.meet v.inScope)).showAfter v.order x) s.mem
  s.setMem (m.acquire v.order v.writer)

/-- The words that a write covers only in part are read for the merge (R215). -/
def State.merged (s : State) (pa n : Nat) : State :=
  if s.mem.upsets.isEmpty then s
  else ((wordsOf pa n).filter fun w => !(decide (pa ≤ 8 * w) && decide (8 * w + 8 ≤ pa + n))).foldl State.checkWord s

/-- Bytes written to memory, with the counts of R217. -/
def State.writeMem (s0 : State) (v : Visibility) (pa : Nat) (bs : List Byte) (pois : Nat → Bool) (tag : Bool) : State :=
  let s := s0.merged pa bs.length
  (s.setMem (s.mem.write v pa bs pois tag)).countMarks pa (markEvents s.mem.mark pa bs.length pois)

/-- The mark of a word of a line. -/
def Line.mark (l : Line) (w : Nat) : Option Mark := l.marks.getD (w - l.base / 8) none

/-- A store to a cached line updates the line only (R203); its merges and marks are counted (R217). -/
def State.cacheStore (s : State) (k pa : Nat) (bs : List Byte) (pois : Nat → Bool) (tag : Bool) : State :=
  let t0 := s.fill k pa
  let t := match (t0.core k).lineAt pa with
    | some l => t0.countMarks pa (markEvents l.mark pa bs.length pois)
    | none => t0
  let c := t.core k
  let upd (l : Line) : Line :=
    { l with
      bytes := l.bytes.take (pa - l.base) ++ bs ++ l.bytes.drop (pa - l.base + bs.length)
      tags := l.tags.zipIdx.map fun x => if (granulesOf pa bs.length).contains (l.base / 16 + x.2) then tag else x.1
      marks := l.marks.zipIdx.map fun x =>
        let w := l.base / 8 + x.2
        if (wordsOf pa bs.length).contains w then newMark x.1 pa bs.length w (pois (w - pa / 8)) else x.1
      dirty := true }
  t.setCore k { c with dcache := c.dcache.map fun l => if l.base = pa / 64 * 64 then upd l else l }

/-- Some writes count as read or acquired by core k, at once or by an atomic of its store buffer (R361). -/
def State.observe (s : State) (k : Nat) (ids : List Nat) : State :=
  let c := s.core k
  s.setCore k { c with obs := s.mem.live (c.obs ++ ids), atomicObs := s.mem.live (c.atomicObs ++ ids) }

/-- An atomic reads the coherence-latest value: the writes there, and those they follow, are seen by the core. With acquire
ordering, what a release there brings is seen by it too and counts as the core's own (R361, R363). -/
def State.readLatest (s : State) (k pa n : Nat) (acq : Bool) : State :=
  let s1 := s.setMem (s.mem.acquire (s.mem.latestIds pa n) (.core k))
  if acq then
    let l := s1.mem.acquireIds (.core k) pa n
    let ids := l ++ s1.mem.released l (.core k)
    (s1.setMem (s1.mem.acquire ids (.core k))).observe k ids
  else s1.observe k (s1.mem.readIds (.core k) pa n)

/-- An AMO or CAS at the home of its word, whole (R235 to R237): `f` gives the new value, if one is written. -/
def State.atomic (s : State) (k : Nat) (e : BufEntry) (res : Option SymRef) (f : Nat → Option Nat) : State :=
  let s1 := ((s.before (s.visOf k e)).checked e.pa e.size).readLatest k e.pa e.size e.acquire
  match s1.mem.mark (e.pa / 8) with
  | some _ =>
    (s1.count (.atomicPoison (placeOf e.pa))).arrive k res (Reg.poison (atomicOrigin k e.pa) (e.va / 8 * 8)) []
  | none =>
    let x := leNat ((span e.pa e.size).map s1.mem.byte)
    let s2 := match f x with
      | some y => s1.writeMem (s.visOf k e) e.pa (leBytes e.size y) (fun _ => false) false
      | none => s1
    s2.arrive k res (Reg.data (oldWord e.size x)) []

/-- An RWR at the home of its word, whole (R235, R238, R239). -/
def State.reduce (s : State) (k : Nat) (e : BufEntry) (op : RedOp) (t : Ty) (y : Nat) : State :=
  let s1 := (s.before (s.visOf k e)).checked e.pa e.size
  match s1.mem.mark (e.pa / 8) with
  | some _ => s1.count (.atomicPoison (placeOf e.pa))
  | none =>
    let x := leNat ((span e.pa e.size).map s1.mem.byte)
    let mixed := match mget s1.lastRwr (e.pa / 8) with | some r => r != (op, t) | none => false
    let s2 := s1.writeMem (s.visOf k e) e.pa (leBytes e.size (rwrNew op t x y)) (fun _ => false) false
    { s2 with lastRwr := mput s2.lastRwr (e.pa / 8) (op, t) }.count .mixedReduction (if mixed then 1 else 0)

/-- A buffered access at its performance point (R232, R359); the line that holds it leaves the cache first where R221 says so. -/
def State.perform (s0 : State) (k : Nat) (e : BufEntry) : State :=
  let s := if e.bypass then s0.flush k true fun l => l.base == e.pa / 64 * 64 else s0
  match e.op with
  | .store data pois setTag =>
    let bs := leBytes e.size data
    let p := fun i => pois.getLsbD i
    if e.cached then s.cacheStore k e.pa bs p setTag
    else (s.before (s.visOf k e)).writeMem (s.visOf k e) e.pa bs p setTag
  | .amo op y res => s.atomic k e res fun x => some (amoNew op (8 * e.size) x y)
  | .cas x y res => s.atomic k e res fun old => if old = x then some y else none
  | .rwr op t y => s.reduce k e op t y

/-- The head of the buffer leaves it: earlier pending LDEs of bytes it writes are performed first (R225, R232). Those that wait for
entries of the buffer wait for one less. DEDUCED (log 20), safe. -/
def State.performHead (s : State) (k : Nat) : State :=
  match (s.core k).buf with
  | [] => s
  | e :: rest =>
    let s1 := s.performLdes k fun l =>
      l.behind == 0 && decide (e.pa < l.pa + tyBytes l.ty) && decide (l.pa < e.pa + e.size)
    (s1.setCore k { s1.core k with
      buf := rest
      ldes := (s1.core k).ldes.map fun l => { l with behind := l.behind - 1 } }).perform k e

/-- The head leaves the buffer, n times. -/
def State.performN (k : Nat) : Nat → State → State
  | 0, s => s
  | n + 1, s => State.performN k n (s.performHead k)

/-- The buffer drains (R232). -/
def State.drain (s : State) (k : Nat) : State := State.performN k (s.core k).buf.length s

/-- How many entries of a buffer have left once the last that meets a condition has. -/
def lastOf (l : List BufEntry) (p : BufEntry → Bool) : Nat :=
  match l.reverse.findIdx? p with
  | some i => l.length - i
  | none => 0

/-- The entries that meet a condition leave the buffer, with those before them. -/
def State.drainPast (s : State) (k : Nat) (p : BufEntry → Bool) : State := State.performN k (lastOf (s.core k).buf p) s

/-- How many entries of the store buffer must leave before every LDE of a core can be performed (R225). -/
def Core.awaited (c : Core) : Nat := c.ldes.foldl (fun n e => max n e.behind) 0

/-- Every earlier LDE is performed, as a release, a FENCE or a commit instruction needs (R225): one that overlaps a buffered store
in part once that has left. -/
def State.settleLdes (s : State) (k : Nat) : State :=
  let t := s.performLdes k (·.behind == 0)
  if (t.core k).ldes.isEmpty then t else (State.performN k (t.core k).awaited t).performLdes k fun _ => true

/-- Every earlier LDE is performed and the buffer drains, as a release needs (R225, R233). -/
def State.settleAccesses (s : State) (k : Nat) : State := (s.settleLdes k).drain k

/-- An access enters the buffer; a full buffer first lets its head leave (R232). -/
def State.enqueue (s : State) (k : Nat) (e : BufEntry) : State :=
  let t := if 16 ≤ (s.core k).buf.length then s.performHead k else s
  t.setCore k { t.core k with buf := (t.core k).buf ++ [{ e with prior := if e.release then (t.core k).obs else [] }] }

/-- An entry that a load of a span must see leave the buffer: an atomic or RWR of its bytes, or a store of some of them (R232). -/
def BufEntry.delays (e : BufEntry) (pa n : Nat) : Bool := e.meets pa n && !e.covers pa n

/-- A load's view of the buffer (R232): whatever it must wait for leaves, and the youngest store of all its bytes forwards them. An
acquire in the buffer is performed before any later access (R233). -/
def State.load (s : State) (k pa n : Nat) (cached : Bool) : Loaded × State :=
  let s0 := s.drainPast k fun e => e.acquire || e.delays pa n
  match (s0.core k).youngest pa n with
  | none => s0.loadAt k pa n cached
  | some e => (e.forward pa n, s0)

/-! ## Releases and fences (R233, R234, R361, R363) -/

/-- release(all prior accesses): the accesses are performed, and the writes that whoever acquires must see
(R341, R363). -/
def State.release (s : State) (k : Nat) : List Nat × State :=
  let t := s.settleAccesses k
  (t.priorIds k, t)

/-- An acquire by a core: the writes are performed as seen by it, and count as its own for its later releases
(R361). -/
def State.acquire (s : State) (k : Nat) (ids : List Nat) : State :=
  if ids.isEmpty then s
  else
    let s1 := s.setMem (s.mem.acquire ids (.core k))
    let c := s1.core k
    s1.setCore k { c with obs := s1.mem.live (c.obs ++ ids) }

/-- An acquire load has read a span (R363): what the releases that it read cover is acquired. -/
def State.acquireAt (s : State) (k pa n : Nat) : State :=
  let l := s.mem.acquireIds (.core k) pa n
  s.acquire k (l ++ s.mem.released l (.core k))

/-- FENCE: every earlier access is performed as seen by all agents of the scope (R234, R361). A later store of the core brings
what it covers to an acquirer of that scope (R363). -/
def State.fenceTo (s : State) (k sc : Nat) : State :=
  let t := s.settleAccesses k
  let ids := t.priorIds k
  let u := t.setMem (t.mem.showAfter ids (seerOf k sc))
  let c := u.core k
  let now := (u.mem.live ids).map fun i => (i, seerOf k sc)
  u.setCore k { c with fenced := now.foldl addNew (c.fenced.filter fun x => u.mem.unseen.any (·.id == x.1)) }

end Sys2Proof.Machine
end

