-- ==== Sys2Proof/Machine/Ops.lean ====
section
/-! DEFINITION. The operations that the meanings share: taking a fault, ending an activation, issuing an instruction,
and preparing a memory access (R22, R105, R115 to R119, R143, R145, R219, R248, R370, R371). -/
namespace Sys2Proof.Machine

/-- What exec answers. -/
abbrev Out := Host.Outcome State Fault Refusal

/-! ## The end of an activation -/

/-- The slot's message leaves it. -/
def Core.freeSlot (c : Core) (i : Fin 32) : Core :=
  { c with slots := c.slots.set i.val .free, order := c.order.filter (· != i) }

/-- The pinned slot is freed, unless MREL has freed it (R148, R345). -/
def Core.freePinned (c : Core) : Core :=
  match c.pinned with
  | some i => { c.freeSlot i with pinned := none }
  | none => c

/-- A pre-emption request stays with a core as its activation ends (R374, R425): where OVF is not 0 and messages wait. -/
def Core.staysAsked (c : Core) : Bool :=
  c.preempt && (match c.act with | some a => a.ovf != 0 | none => false) && c.order.any fun i => c.pinned != some i

/-- The activation leaves the core: symbols dropped, slot freed, windows and waits gone (R148, R370, R382). -/
def Core.leave (c : Core) : Core :=
  { c.dropAllSyms.freePinned with act := none, windows := [], wait := none, preempt := c.staysAsked }

/-- The activation of core k is over: its watch ends, and the base core that it migrated from is free again (R380). -/
def State.leave (s : State) (k : Nat) : State :=
  let base := (s.core k).act.bind (·.left)
  let s1 := s.setCore k (s.core k).leave
  { s1 with
    mem := { s1.mem with watches := s1.mem.watches.filter fun w => w.core != k }
    cores := s1.cores.map fun x => (x.1, if base = some x.1 then { x.2 with busyFor := none } else x.2) }

/-! ## Taking a fault (R370) -/

/-- The TCB that an activation's fault message names (R371). -/
def State.actTcb (s : State) (a : Act) : Option Nat :=
  match a.kind with
  | .task t => s.taskTcb t
  | _ => (mget s.launches a.launch).bind (·.tcb)

/-- The payload of the fault message of an activation on core k (R371). -/
def State.faultWords (s : State) (k : Nat) (a : Act) (cause detail : Nat) (faddr : Word) (code : Nat) : List Word :=
  let c := s.core k
  [faultWord code (s.actTcb a) k detail cause, faddr, c.pc, c.rgnpc, s.userWord (s.actTcb a), w64 s.time]

/-- The unit of an activation counts as ended: in its launch, or for a far body through its task alone (R72, R370,
R382). -/
def State.endUnit (s : State) (a : Act) (e : End) (ids : List Nat) : State :=
  match a.kind with
  | .task t => s.retireTask t e ids
  | _ => if a.counted then s.endMember a.launch e ids else s

/-- The 48 bits of an address that FADDR holds (R102). -/
def addr48 (x : Word) : Word := x &&& 0xFFFFFFFFFFFF

/-- FCAUSE and FADDR set (R102, R369). -/
def Core.caused (c : Core) (cause detail : Nat) (faddr : Word) : Core :=
  { c with fcause := BitVec.ofNat 16 (detail * 256 + cause), faddr := addr48 faddr }

/-- A fault of the activation on core k is taken (R370): FCAUSE and FADDR, the release toward the supervisor, the
fault message with its member, and the unit's count. The activation ends; the core goes on with its inbox. -/
def State.faultAt (s : State) (k cause detail : Nat) (faddr : Word) (code : Nat := 0) : State :=
  match (s.core k).act with
  | none => s
  | some a =>
    let words := s.faultWords k a cause detail (addr48 faddr) code
    let r := (s.setCore k ((s.core k).caused cause detail faddr)).release k
    ((r.2.leave k).faultMessage a.launch k words r.1).endUnit a .faulted r.1

/-- A fault of the activation whose turn it is. -/
def State.coreFault (s : State) (cause detail : Nat) (faddr : Word) (code : Nat := 0) : State :=
  s.faultAt s.cur cause detail faddr code

/-! ## Issue -/

/-- How an instruction's own effect ends: with the next instruction, a jump, the end of the activation, a stall, or
a fault (R369) with the code of TRAP or BRK; what the walks and reads before a fault have done to page tables, TLBs and error
codes stays (R205, R212). -/
inductive Res where
  | ok (s : State)
  | jump (pc : Word) (s : State)
  | ended (s : State)
  | wait (w : Wait) (s : State)
  | fault (cause detail : Nat) (addr : Word) (code : Nat) (s : State)
deriving DecidableEq, Repr

/-- What the issue rules need of an instruction: the registers it reads and writes, its lookahead count, whether it
is a commit instruction, RGN, of X64, or a TLD, whose tile the matrix unit writes (R278), and its length in bytes. -/
structure Issue where
  reads : List RegName := []
  writes : List RegName := []
  look : Nat := 0
  commit : Bool := false
  rgn : Bool := false
  x64 : Bool := false
  tile : Bool := false
  len : Nat := 4
deriving DecidableEq, Repr

/-- The hard-wired registers cannot be written (R83, R117). -/
def RegName.real (r : RegName) : Bool := r != .g 0 && r != .f 0

/-- A register is named live-in by the region (R143). -/
def Act.liveIn (a : Act) : RegName → Bool
  | .g r => a.gmask.getLsbD r.val
  | .f r => a.fmask.getLsbD r.val
  | .v r => a.vmask.getLsbD r.val
  | .t r => a.tmask.getLsbD r.val
  | .z _ => false

/-- The window still runs: instructions of it are yet to issue. -/
def Window.live (w : Window) : Bool := decide (w.pos < w.len)

/-- The window is that of a TLD, whose tile is written by the matrix unit (R278). -/
def Window.ofTile (w : Window) : Bool := w.regs.any fun r => match r with | .t _ => true | _ => false

/-- The position at which an instruction violates an open window (R117). DESIGN CHOICE (log 60), unsafe: of two overlapping
windows that it violates, DETAIL gives the position in the one that opened first. -/
def Issue.violation (i : Issue) (ws : List Window) : Option Nat :=
  (ws.find? fun w => w.live && w.regs.any fun r => i.reads.contains r || i.writes.contains r).map fun w => w.pos + 1

/-- The fault that the issue rules raise, as cause and detail: a lookahead violation (R117), an instruction other than
RGN after a commit (R145), a write to a live-in (R143). DEDUCED (log 21), unsafe. -/
def Issue.check (i : Issue) (c : Core) (a : Act) : Option (Nat × Nat) :=
  match i.violation c.windows with
  | some p => some (2, p)
  | none =>
    if a.commit && !i.rgn then some (8, 2)
    else if i.writes.any a.liveIn then some (8, 1)
    else none

/-- The windows after one more instruction, with that of the instruction itself (R116). One of a TLD stays until its
tile has been written; its window of length 0 makes the next instruction wait for that. -/
def Issue.windows (i : Issue) (ws : List Window) : List Window :=
  let aged := ((ws.filter Window.live).map fun w => { w with pos := w.pos + 1 }).filter fun w => w.live || w.ofTile
  if i.look = 0 && !i.tile then aged else aged ++ [⟨i.writes.filter RegName.real, 0, i.look⟩]

/-- A TLD of a window has not written its tile yet (R278). -/
def MatCore.pending (m : MatCore) (w : Window) : Bool :=
  w.regs.any fun r =>
    match r with
    | .t d => m.queue.any fun e => match e.cmd with | .tld _ t .. => t == d | _ => false
    | _ => false

/-- An instruction that follows a window, RGN and every commit instruction wait until the instruction of the window has
completed (R116). -/
def State.lookBlocked (s : State) (i : Issue) : Bool :=
  s.me.windows.any fun w => (!w.live || i.commit || i.rgn) && (s.mat s.cur).pending w

/-- A TLD of an open window is still to read its tile. -/
def State.tileDue (s : State) : Bool := s.me.windows.any (s.mat s.cur).pending

/-- A memory access in the window of a TLD takes effect after the TLD's own reads (R116): it waits for them.
DEDUCED (log 61), safe. -/
def State.inOrder (s : State) (k : Res) : Res := if s.tileDue then .wait .lookahead s else k

/-- What the late values in some registers of the core whose turn it is bring is acquired (R363). -/
def State.acquireOwed (s : State) (l : List RegName) : State :=
  let due := s.me.owed.filter fun x => l.contains x.1
  if due.isEmpty then s
  else
    let t := s.acquire s.cur (s.mem.live (due.flatMap Prod.snd))
    t.setMe { t.me with owed := t.me.owed.filter fun x => !l.contains x.1 }

/-- The core goes on at a PC after an instruction (R116, R145); what the old values of the registers that it wrote would have
brought is given up. -/
def Core.advance (c : Core) (i : Issue) (pc : Word) : Core :=
  { c with
    pc := pc
    wait := none
    windows := i.windows c.windows
    owed := c.owed.filter fun x => !i.writes.contains x.1
    act := c.act.map fun a => if i.commit then { a with commit := true } else a }

/-- The state after an instruction that went on at a PC. -/
def State.advance (s : State) (i : Issue) (pc : Word) : State := s.setMe (s.me.advance i pc)

/-- The next state of an instruction from how its effect ended. A jump to an odd address faults at the transferring
instruction (R105); a fault leaves no other effect of the instruction (R8, R370). -/
def State.finish (s : State) (i : Issue) : Res → State
  | .ok t => t.advance i (s.me.pc + BitVec.ofNat 64 i.len)
  | .jump pc t => if pc.getLsbD 0 then s.coreFault 3 0 pc else t.advance i pc
  | .ended t => t
  | .wait w t => t.setMe { t.me with wait := some w }
  | .fault cause detail addr code t => t.coreFault cause detail addr code

/-- The core carries X64: its core field is 88 to 95 (R11). -/
def isExt (k : Nat) : Bool := decide (88 ≤ k % 128)

/-- An instruction issues on the core whose turn it is: the wait for lookahead instructions, the issue rules, then its own
effect. Without a running activation nothing issues. An X64 instruction on a base core asks for extension migration (R119). What
the late values that it reads bring is acquired first (R363). A commit instruction waits until every earlier LDE is performed
(R225). DEDUCED (log 89), unsafe: every instruction that reads the register of such a value counts as one that waits for it. -/
def State.issue (s : State) (i : Issue) (body : State → Res) : Out :=
  match s.me.act with
  | none => .next s
  | some a =>
    if s.lookBlocked i then .next (s.setMe { s.me with wait := some .lookahead })
    else
      match i.check s.me a with
      | some f => .next (s.coreFault f.1 f.2 s.me.pc)
      | none =>
        if i.x64 && !isExt s.cur then .next (s.setMe { s.me with wait := some .migration })
        else
          let u := s.acquireOwed i.reads
          let t := if i.commit then u.settleLdes u.cur else u
          .next (t.finish i (body t))

/-! ## Operands -/

/-- The effect waits until none of the operands is an ephemeris (R98). -/
def State.ready (s : State) (l : List Reg) (k : Res) : Res :=
  if l.any fun x => x.tag == .eph then .wait .operand s else k

/-- The effect waits until none of the operands is an ephemeris, but for a result that a poisoned one decides (R88, R98). -/
def State.readyOrPois (s : State) (l : List Reg) (k : Res) : Res := if l.any (·.tag == .pois) then k else s.ready l k

/-- The same where a poisoned operand among them is a fault: `pois` raises it before the wait (R88). -/
def State.readyUnless (s : State) (l : List Reg) (pois : Res → Res) (k : Res) : Res :=
  if l.any fun x => x.tag == .eph then pois (.wait .operand s) else k

/-- A fault at the instruction's own PC. -/
def State.faultPc (s : State) (cause detail : Nat) : Res := .fault cause detail s.me.pc 0 s

/-- A poison fault with a DETAIL of R369 unless every operand is clean. DEDUCED (log 22), unsafe. -/
def State.clean (s : State) (l : List Reg) (detail : Nat) (k : Res) : Res :=
  if l.any fun x => x.tag == .pois then s.faultPc 7 detail else k

/-- The effect ends with a g register written. -/
def State.writeG (s : State) (d : GReg) (x : Reg) : Res := .ok (s.setMe (s.me.setG d x))
/-- The effect ends with an f register written. -/
def State.writeF (s : State) (d : FReg) (x : Reg) : Res := .ok (s.setMe (s.me.setF d x))
/-- The effect ends with a vector register written. -/
def State.writeV (s : State) (d : VecReg) (x : VReg) : Res := .ok (s.setMe (s.me.setV d x))

/-- Element i of width w. -/
def elem (v : VWord) (w i : Nat) : Nat := v.toNat / 2 ^ (w * i) % 2 ^ w

/-- Elements of width w packed from element 0 up; bits above them are 0. -/
def packElems (w : Nat) (l : List Nat) : VWord := BitVec.ofNat 256 (l.foldr (fun x acc => x % 2 ^ w + 2 ^ w * acc) 0)

/-- The value with every poisoned lane replaced by a free value: it is unspecified (R100, R189). -/
def scrub (v : VWord) (p : BitVec 8) (n : Nat) : VWord :=
  packElems 32 ((List.range 8).map fun j => if p.getLsbD j then (Config.freeWord (n + j)).toNat else elem v 32 j)

/-- The effect ends with a vector register written; poisoned lanes hold free values (R100). -/
def State.writeLanes (s : State) (d : VecReg) (v : VWord) (p : BitVec 8) : Res :=
  if p = 0 then s.writeV d ⟨v, 0⟩ else s.draw 8 |>.writeV d ⟨scrub v p s.fresh, p⟩

/-- A destination register receives a new ephemeris (R96): with no free symbol the instruction stalls before it
issues any request; to g0 or f0 no symbol is allocated (R84). The request's effect gets the symbol and the state. -/
def State.lateTo (s : State) (toReg : Bool) (kind : EphKind) (write : Core → Reg → Core)
    (k : Option SymRef → State → Res) : Res :=
  if toReg then
    match s.me.freeSym with
    | none => .wait .symbolTable s
    | some i =>
      let c := s.me.allocate i kind
      k (some (c.symRef i)) (s.setMe (write c (Reg.newEph kind i)))
  else k none s

/-- The same for a g register. -/
def State.lateG (s : State) (d : GReg) (kind : EphKind) (k : Option SymRef → State → Res) : Res :=
  s.lateTo (d != 0) kind (fun c x => c.setG d x) k

/-! ## Watermarks (R244, R245, R248) -/

/-- The shape's TWOD bit (R244). -/
def shTwod (sh : Word) : Bool := sh.getLsbD 36
/-- The shape's row count less one (R244). -/
def shRows (sh : Word) : Nat := bits sh.toNat 28 8
/-- The bytes of a row, or of the whole linear copy (R244, R245). -/
def shRow (sh : Word) : Nat := if shTwod sh then (bits sh.toNat 18 10 + 1) * 4 else bits sh.toNat 0 36 + 1
/-- The stride of a side in bytes (R244). -/
def shStride (sh : Word) (dst : Bool) : Nat := if dst then bits sh.toNat 0 9 * 64 else bits sh.toNat 9 9 * 64
/-- The length of a side's extent (R245). -/
def shExtent (sh : Word) (dst : Bool) : Nat := if shTwod sh then shRows sh * shStride sh dst + shRow sh else shRow sh

/-- The bytes of a local destination at or above a watermark meet an access (R248). -/
def CopyReq.blocks (r : CopyReq) (wm va n : Nat) : Bool :=
  match r.dst with
  | .here d => decide (max wm d < va + n) && decide (max wm va < d + shExtent r.shape true)
  | .remote _ _ => false

/-- An access meets the destination extent of a request. -/
def CopyReq.meets (r : CopyReq) (va n : Nat) : Bool :=
  match r.dst with
  | .here d => decide (d < va + n) && decide (va < d + shExtent r.shape true)
  | .remote _ _ => false

/-- The writes of the copies whose watermark an access has passed (R248), those of completed copies among them. -/
def Core.passed (c : Core) (va n : Nat) : List Nat :=
  (c.chans.toList.flatMap fun ch => if ch.req.any (·.meets va n) then ch.ids else []) ++
    c.landed.flatMap fun x => if x.1.meets va n then x.2 else []

/-- An access that has passed the watermarks acquires the bytes below them (R248). -/
def State.passWm (s : State) (va n : Nat) : State := s.acquire s.cur (s.mem.live (s.me.passed va n))

/-- An access of the core's pipeline stalls on a watermark (R248). -/
def Core.wmBlocked (c : Core) (va n : Nat) : Bool :=
  c.fifo.any (·.blocks 0 va n) ||
    c.chans.toList.any fun ch =>
      match ch.req with
      | some r => r.blocks ch.wm va n
      | none => false

/-! ## Preparing an access (R219) -/

/-- The access's address after the stack window (R36), or the stack overflow fault (R37). -/
def State.inWindow (s : State) (va : Nat) (k : Nat → Res) : Res :=
  match s.redirect s.cur va with
  | .same => k va
  | .dest w => k w
  | .overflow => .fault 9 0 (w64 va) 0 s

/-- An access at an address through a capability register, prepared per R219: poison, capability, alignment, stack
window, translation, the watermark stall of R248, past which the access acquires what the copies have written, and the crossbar that
holds what is for a core of a thermal exchange (R389). -/
def State.prepareAt (s : State) (a : Reg) (addr : Word) (size : Nat) (perms : List Perm) (rights : List Access)
    (k : Nat → Place → State → Res) : Res :=
  if a.tag == .pois then s.faultPc 7 1
  else
    match capFault a addr.toNat size perms with
    | 0 =>
      if addr.toNat % size != 0 then .fault 4 0 addr 0 s
      else
        s.inWindow addr.toNat fun va =>
          match s.translate s.cur va rights with
          | (.error d, t) => .fault 6 d (w64 va) 0 t
          | (.ok p, t) =>
            if s.me.wmBlocked va size then .wait .watermark s
            else if s.heldAt p.pa then .wait .exchange s
            else s.inOrder (k va p (t.passWm va size))
    | d => .fault 5 d addr 0 s

/-- An access at the base plus the index (R218, R219). -/
def State.prepare (s : State) (a b : Reg) (size : Nat) (perms : List Perm) (rights : List Access)
    (k : Nat → Place → State → Res) : Res :=
  if b.tag == .pois then s.faultPc 7 1 else s.prepareAt a (a.value + b.value) size perms rights k

end Sys2Proof.Machine
end

