-- ==== Sys2Proof/Machine/Flags.lean ====
section
/-! DEFINITION. The tag of a result (R88, R91), the transforms of ephemerides (R97), and the comparisons of values.
This machine has no flags register: a comparison yields a value. -/
namespace Sys2Proof.Machine

/-! ## Result tags (R88) -/

/-- The first POIS operand in the order a, b, third source (R88). -/
def firstPois (l : List Reg) : Option Reg := l.find? (·.tag == .pois)

/-- The result of an eager computation: POIS with the first poisoned operand's record, else DATA (R88). -/
def resultOf (l : List Reg) (v : Word) : Reg := ((firstPois l).map Reg.poisonOf).getD (Reg.data v)

/-- An operand's value as an instruction of a width takes it (R122). -/
def arg (w : Bool) (x : Reg) : Word := if w then sext32 x.value else x.value

/-- A result as an instruction of a width writes it (R122). -/
def fit (w : Bool) (v : Word) : Word := if w then sext32 v else v

/-- A capability moved to a new value: it stays one within its bounds, both ends included, decoded from the original
value (R91). -/
def carryCap (x : Reg) (v : Word) : Reg :=
  if capBase x.info x.value ≤ (v.toNat : Int) ∧ (v.toNat : Int) ≤ capTop x.info x.value then Reg.mkCap v x.info
  else Reg.data v

/-! ## Transforms (R97) -/

/-- The instructions that transform an integer ephemeris (R97). -/
inductive Xform where
  | add | sub | mul | sll
deriving DecidableEq, Repr

/-- An integer transform's result from the new scale and offset: none where the scale leaves its 48 bits; DATA o where
it is 0 (R97). DESIGN CHOICE (log 94), unsafe: of a .s32 form too that DATA is o as it stands. -/
def ephOf (kind : EphKind) (sym : Fin 32) (sc off : Int) : Option Reg :=
  if sc < -(2 ^ 47) ∨ 2 ^ 47 ≤ sc then none
  else if sc = 0 then some (Reg.data (BitVec.ofInt 64 off))
  else some (Reg.eph kind sym (bitsOf 48 sc) (BitVec.ofInt 64 off))

/-- The scale of an integer ephemeris. -/
def iscale (x : Reg) : Int := sextNat 48 (scaleOf x)

/-- The result of transforming without waiting, if R97 lists the operands. -/
def transform (xf : Xform) (w : Bool) (x y : Reg) : Option Reg :=
  let kind : EphKind := if w then .i32 else .i64
  if x.tag = .eph ∧ y.tag = .eph then
    if kindOf x = kind ∧ kindOf y = kind ∧ symOf x = symOf y then
      match xf with
      | .add => ephOf kind (symOf x) (iscale x + iscale y) (x.value.toInt + y.value.toInt)
      | .sub => ephOf kind (symOf x) (iscale x - iscale y) (x.value.toInt - y.value.toInt)
      | .mul | .sll => none
    else none
  else if x.tag = .eph ∧ y.tag = .data ∧ kindOf x = kind then
    let k := (arg w y).toInt
    match xf with
    | .add => ephOf kind (symOf x) (iscale x) (x.value.toInt + k)
    | .sub => ephOf kind (symOf x) (iscale x) (x.value.toInt - k)
    | .mul => ephOf kind (symOf x) (iscale x * k) (x.value.toInt * k)
    | .sll => ephOf kind (symOf x) (iscale x * 2 ^ y.value.toNat) (x.value.toInt * 2 ^ y.value.toNat)
  else if x.tag = .data ∧ y.tag = .eph ∧ kindOf y = kind then
    let k := (arg w x).toInt
    match xf with
    | .add => ephOf kind (symOf y) (iscale y) (k + y.value.toInt)
    | .sub => ephOf kind (symOf y) (-iscale y) (k - y.value.toInt)
    | .mul => ephOf kind (symOf y) (iscale y * k) (y.value.toInt * k)
    | .sll => none
  else none

/-! ## Comparisons -/

/-- x < y, signed, on a width's values. -/
def lessS (x y : Word) : Bool := x.slt y
/-- x < y, unsigned, on the low w bits. -/
def lessZ (w : Bool) (x y : Word) : Bool := if w then (x.truncate 32).ult (y.truncate 32) else x.ult y

/-- The conditions of BR on values (R137). -/
inductive Cond2 where
  | eq | ne | lt | ge | lo | hs
deriving DecidableEq, Repr

/-- The condition holds (R137). -/
def Cond2.holds : Cond2 → Word → Word → Bool
  | .eq, x, y => x == y
  | .ne, x, y => x != y
  | .lt, x, y => x.slt y
  | .ge, x, y => !x.slt y
  | .lo, x, y => x.ult y
  | .hs, x, y => !x.ult y

/-- The code of a tag (R87). -/
def Tag.code : Tag → Nat
  | .data => 0 | .cap => 1 | .eph => 2 | .pois => 3

/-! ## Integer results (R88, R91, R97, R98) -/

/-- The effect of a two-operand integer instruction of a width: POIS first, then the transform or the wait, then the
carried capability, then the value. -/
def State.integer (s : State) (w : Bool) (d : GReg) (x y : Reg) (xf : Option Xform) (carry : Bool)
    (f : Word → Word → Word) : Res :=
  match firstPois [x, y] with
  | some p => s.writeG d p.poisonOf
  | none =>
    if x.tag == .eph || y.tag == .eph then
      match xf.bind fun t => transform t w x y with
      | some r => s.writeG d r
      | none => .wait .operand s
    else if carry && !w && x.tag == .cap && y.tag == .data then s.writeG d (carryCap x (f x.value y.value))
    else s.writeG d (Reg.data (fit w (f (arg w x) (arg w y))))

end Sys2Proof.Machine
end

