-- ==== Sys2Proof/Machine/Integer.lean ====
section
/-! DEFINITION. The integer instructions: register-register, multiply and divide, immediates, shifts and bit fields
(R122 to R127). -/
namespace Sys2Proof.Machine

/-- The issue of an instruction with d, a and b in the g file. -/
def rrr (d a b : GReg) (l : Look := 0) : Issue := { reads := [.g a, .g b], writes := [.g d], look := l.val }
/-- The issue of an instruction with d and a in the g file. -/
def rr (d a : GReg) : Issue := { reads := [.g a], writes := [.g d] }

/-! ## Value functions (R125, R126) -/

/-- The shift amount: y mod w (R125). -/
def amount (w : Bool) (y : Word) : Nat := y.toNat % (if w then 32 else 64)
/-- Logical right shift of the low w bits. -/
def srlOf (w : Bool) (x : Word) (n : Nat) : Word := if w then ((x.truncate 32) >>> n).zeroExtend 64 else x >>> n
/-- Arithmetic right shift: the operand is sign-extended from w bits (R122). -/
def sraOf (x : Word) (n : Nat) : Word := x.sshiftRight n
/-- Rotation right of the low w bits. -/
def rotOf (w : Bool) (x : Word) (n : Nat) : Word :=
  if w then ((x.truncate 32).rotateRight n).zeroExtend 64 else x.rotateRight n
/-- The low w bits as a number. -/
def lowNat (w : Bool) (x : Word) : Nat := if w then x.toNat % 2 ^ 32 else x.toNat
/-- Leading zero bits of a number of `n` bits. -/
def clzNat : Nat → Nat → Nat
  | 0, _ => 0
  | n + 1, x => if x.testBit n then 0 else clzNat n x + 1
/-- Trailing zero bits: the first set bit from `i` on, among `n` bits. -/
def ctzNat : Nat → Nat → Nat → Nat
  | 0, _, _ => 0
  | n + 1, i, x => if x.testBit i then 0 else ctzNat n (i + 1) x + 1
/-- Set bits among the lowest n. -/
def popNat : Nat → Nat → Nat
  | 0, _ => 0
  | n + 1, x => x % 2 + popNat n (x / 2)
/-- The width of a form in bits. -/
def wd (w : Bool) : Nat := if w then 32 else 64
/-- The bytes of the low w bits in reverse order (R125). -/
def bswapOf (w : Bool) (x : Word) : Word := w64 (leNat (leBytes (wd w / 8) x.toNat).reverse)

/-- DIV (R126): -1 for a zero divisor; the quotient of the most negative number by -1 wraps to itself. -/
def divOf (x y : Word) : Word := if y = 0 then -1 else BitVec.ofInt 64 (x.toInt.tdiv y.toInt)
/-- REM (R126). -/
def remOf (x y : Word) : Word := if y = 0 then x else BitVec.ofInt 64 (x.toInt.tmod y.toInt)
/-- DIVZ (R126). -/
def divzOf (w : Bool) (x y : Word) : Word := if lowNat w y = 0 then -1 else w64 (lowNat w x / lowNat w y)
/-- REMZ (R126). -/
def remzOf (w : Bool) (x y : Word) : Word := if lowNat w y = 0 then x else w64 (lowNat w x % lowNat w y)

/-! ## Register to register (R124, R125) -/

/-- A two-operand integer instruction. -/
def State.int3 (s : State) (w : Bool) (l : Look) (d a b : GReg) (xf : Option Xform) (carry : Bool)
    (f : Word → Word → Word) (len : Nat := 4) : Out :=
  s.issue { rrr d a b l with len := len } fun t => t.integer w d (t.me.readG a) (t.me.readG b) xf carry f

/-- A one-operand integer instruction. -/
def State.int2 (s : State) (w : Bool) (d a : GReg) (f : Word → Word) : Out :=
  s.issue (rr d a) fun t => t.integer w d (t.me.readG a) (Reg.data 0) none false fun x _ => f x

/-- ADD (R125): carries a capability, transforms an ephemeris. -/
def execAdd (w : Bool) (d a b : GReg) (s : State) : Out := s.int3 w 0 d a b (some .add) true (· + ·)
/-- SUB (R125). -/
def execSub (w : Bool) (d a b : GReg) (s : State) : Out := s.int3 w 0 d a b (some .sub) true (· - ·)
/-- AND (R125). -/
def execAnd (w : Bool) (d a b : GReg) (s : State) : Out := s.int3 w 0 d a b none false (· &&& ·)
/-- OR (R125). -/
def execOr (w : Bool) (d a b : GReg) (s : State) : Out := s.int3 w 0 d a b none false (· ||| ·)
/-- XOR (R125). -/
def execXor (w : Bool) (d a b : GReg) (s : State) : Out := s.int3 w 0 d a b none false (· ^^^ ·)
/-- ANDN (R125). -/
def execAndn (w : Bool) (d a b : GReg) (s : State) : Out := s.int3 w 0 d a b none false fun x y => x &&& ~~~y
/-- SLL (R125). -/
def execSll (w : Bool) (d a b : GReg) (s : State) : Out := s.int3 w 0 d a b none false fun x y => x <<< amount w y
/-- SRL (R125). -/
def execSrl (w : Bool) (d a b : GReg) (s : State) : Out := s.int3 w 0 d a b none false fun x y => srlOf w x (amount w y)
/-- SRA (R125). -/
def execSra (w : Bool) (d a b : GReg) (s : State) : Out := s.int3 w 0 d a b none false fun x y => sraOf x (amount w y)
/-- ROT (R125). -/
def execRot (w : Bool) (d a b : GReg) (s : State) : Out := s.int3 w 0 d a b none false fun x y => rotOf w x (amount w y)
/-- MIN (R125). -/
def execMin (w : Bool) (d a b : GReg) (s : State) : Out := s.int3 w 0 d a b none false fun x y => if lessS y x then y else x
/-- MAX (R125). -/
def execMax (w : Bool) (d a b : GReg) (s : State) : Out := s.int3 w 0 d a b none false fun x y => if lessS x y then y else x
/-- MINZ (R125). -/
def execMinz (w : Bool) (d a b : GReg) (s : State) : Out := s.int3 w 0 d a b none false fun x y => if lessZ w y x then y else x
/-- MAXZ (R125). -/
def execMaxz (w : Bool) (d a b : GReg) (s : State) : Out := s.int3 w 0 d a b none false fun x y => if lessZ w x y then y else x
/-- SLT (R125). -/
def execSlt (w : Bool) (d a b : GReg) (s : State) : Out := s.int3 w 0 d a b none false fun x y => boolWord (lessS x y)
/-- SLTZ (R125). -/
def execSltz (w : Bool) (d a b : GReg) (s : State) : Out := s.int3 w 0 d a b none false fun x y => boolWord (lessZ w x y)

/-- SEL (R125): waits for an EPH in d, a or b; d is read before it is written; it returns DATA. -/
def execSel (d a b : GReg) (s : State) : Out :=
  s.issue { reads := [.g a, .g b, .g d], writes := [.g d] } fun t =>
    let x := t.me.readG a
    let y := t.me.readG b
    let z := t.me.readG d
    t.readyOrPois [x, y, z] (t.writeG d (resultOf [x, y, z] (if z.value ≠ 0 then x.value else y.value)))

/-- CLZ (R125). -/
def execClz (w : Bool) (d a : GReg) (s : State) : Out := s.int2 w d a fun x => w64 (clzNat (wd w) (lowNat w x))
/-- CTZ (R125). -/
def execCtz (w : Bool) (d a : GReg) (s : State) : Out := s.int2 w d a fun x => w64 (ctzNat (wd w) 0 (lowNat w x))
/-- POPC (R125). -/
def execPopc (w : Bool) (d a : GReg) (s : State) : Out := s.int2 w d a fun x => w64 (popNat (wd w) (lowNat w x))
/-- BSWAP (R125). -/
def execBswap (w : Bool) (d a : GReg) (s : State) : Out := s.int2 w d a (bswapOf w)

/-- MOV of a length (R88, R125): value, tag and metadata, an ephemeris too. -/
def State.movOf (s : State) (d a : GReg) (len : Nat) : Out :=
  s.issue { rr d a with len := len } fun t => t.writeG d (t.me.readG a)

/-- MOV (R125). -/
def execMov (d a : GReg) (s : State) : Out := s.movOf d a 4

/-- The tag bits of payload word n (R321). -/
def Msg.tagOf (m : Msg) (n : Nat) : Nat := m.ptag.toNat / 4 ^ n % 4

/-- The message of a slot. -/
def Slot.msg : Slot → Option Packet
  | .holds p => some p
  | .free | .reserved | .landing => none

/-- The pinned message (R85). -/
def Core.pinnedMsg (c : Core) : Option Packet := c.pinned.bind fun i => (c.slots[i.val]).msg

/-- mN as R85 reads it; a tag that is never sent reads as poison (R322). A CAP word whose metadata word N+1 has become
uncorrectable (tag 3, R333) still reads as a CAP with that word's bits: DESIGN CHOICE (log 85), unsafe. -/
def Core.readM (c : Core) (n : MReg) : Reg :=
  match c.pinnedMsg with
  | none => Reg.data 0
  | some p =>
    match p.msg.tagOf n.val with
    | 0 => Reg.data p.msg.m[n.val]
    | 1 => if h : n.val + 1 < 6 then Reg.mkCap p.msg.m[n.val] p.msg.m[n.val + 1] else Reg.data p.msg.m[n.val]
    | _ => Reg.poison 4 0

/-- MOVM (R125). -/
def execMovm (d : GReg) (n : MReg) (s : State) : Out :=
  s.issue { writes := [.g d] } fun t => t.writeG d (t.me.readM n)

/-! ## Multiply and divide (R126) -/

/-- MUL (R126): transforms an ephemeris. -/
def execMul (w : Bool) (l : Look) (d a b : GReg) (s : State) : Out := s.int3 w l d a b (some .mul) false (· * ·)
/-- MULH (R126). -/
def execMulh (l : Look) (d a b : GReg) (s : State) : Out :=
  s.int3 false l d a b none false fun x y => BitVec.ofInt 64 (x.toInt * y.toInt / 2 ^ 64)
/-- MULHZ (R126). -/
def execMulhz (l : Look) (d a b : GReg) (s : State) : Out :=
  s.int3 false l d a b none false fun x y => w64 (x.toNat * y.toNat / 2 ^ 64)
/-- DIV (R126). -/
def execDiv (w : Bool) (l : Look) (d a b : GReg) (s : State) : Out := s.int3 w l d a b none false divOf
/-- DIVZ (R126). -/
def execDivz (w : Bool) (l : Look) (d a b : GReg) (s : State) : Out := s.int3 w l d a b none false (divzOf w)
/-- REM (R126). -/
def execRem (w : Bool) (l : Look) (d a b : GReg) (s : State) : Out := s.int3 w l d a b none false remOf
/-- REMZ (R126). -/
def execRemz (w : Bool) (l : Look) (d a b : GReg) (s : State) : Out := s.int3 w l d a b none false (remzOf w)

/-! ## Immediates, shifts and bit fields (R127) -/

/-- An integer instruction with an immediate. -/
def State.intI (s : State) (w : Bool) (d a : GReg) (imm : Word) (xf : Option Xform) (carry : Bool)
    (f : Word → Word → Word) (len : Nat := 4) : Out :=
  s.issue { rr d a with len := len } fun t => t.integer w d (t.me.readG a) (Reg.data imm) xf carry f

/-- ADDI (R127): carries a capability, transforms an ephemeris. -/
def execAddi (d a : GReg) (imm : BitVec 15) (s : State) : Out := s.intI false d a (simm imm) (some .add) true (· + ·)
/-- ADDI.s32 (R127). -/
def execAddiw (d a : GReg) (imm : BitVec 15) (s : State) : Out := s.intI true d a (simm imm) (some .add) false (· + ·)
/-- ANDI (R127). -/
def execAndi (d a : GReg) (imm : BitVec 15) (s : State) : Out := s.intI false d a (simm imm) none false (· &&& ·)
/-- ORI (R127). -/
def execOri (d a : GReg) (imm : BitVec 15) (s : State) : Out := s.intI false d a (zimm imm) none false (· ||| ·)
/-- XORI (R127). -/
def execXori (d a : GReg) (imm : BitVec 15) (s : State) : Out := s.intI false d a (zimm imm) none false (· ^^^ ·)
/-- SLTI (R127). -/
def execSlti (d a : GReg) (imm : BitVec 15) (s : State) : Out :=
  s.intI false d a (simm imm) none false fun x y => boolWord (lessS x y)
/-- LIH (R127). -/
def execLih (d a : GReg) (imm : BitVec 15) (s : State) : Out :=
  s.intI false d a (zimm imm) none false fun x y => (x <<< 15) ||| y
/-- SLLI (R127): transforms an ephemeris. -/
def execSlli (w : Bool) (d a : GReg) (k : Fin 64) (s : State) : Out :=
  s.intI w d a (w64 k.val) (some .sll) false fun x y => x <<< y.toNat
/-- SRLI (R127). -/
def execSrli (w : Bool) (d a : GReg) (k : Fin 64) (s : State) : Out :=
  s.intI w d a (w64 k.val) none false fun x y => srlOf w x y.toNat
/-- SRAI (R127). -/
def execSrai (w : Bool) (d a : GReg) (k : Fin 64) (s : State) : Out :=
  s.intI w d a (w64 k.val) none false fun x y => sraOf x y.toNat

/-- The field of `len1 + 1` bits at a position, as a number. -/
def fieldNat (x : Word) (pos len1 : Nat) : Nat := x.toNat / 2 ^ pos % 2 ^ (len1 + 1)

/-- EXT.s64 (R127). -/
def execExtS64 (d a : GReg) (pos len1 : Fin 64) (s : State) : Out :=
  s.int2 false d a fun x => BitVec.ofInt 64 (sextNat (len1.val + 1) (fieldNat x pos.val len1.val))
/-- EXT.z64 (R127). -/
def execExtZ64 (d a : GReg) (pos len1 : Fin 64) (s : State) : Out :=
  s.int2 false d a fun x => w64 (fieldNat x pos.val len1.val)

/-- The value with the field of `len1 + 1` bits at a position replaced by the low bits of another (R127). -/
def insOf (x y : Word) (pos len1 : Nat) : Word :=
  let m : Word := w64 ((2 ^ (len1 + 1) - 1) * 2 ^ pos)
  (y &&& ~~~m) ||| ((x <<< pos) &&& m)

/-- INS (R127): d is a source too, and is read first. -/
def execIns (d a : GReg) (pos len1 : Fin 64) (s : State) : Out :=
  s.issue { reads := [.g a, .g d], writes := [.g d] } fun t =>
    let x := t.me.readG a
    let y := t.me.readG d
    t.readyOrPois [x, y] (t.writeG d (resultOf [x, y] (insOf x.value y.value pos.val len1.val)))

end Sys2Proof.Machine
end

