-- ==== Sys2Proof/Machine/Capability.lean ====
section
/-! DEFINITION. The capability and ephemeris instructions (R128 to R136). -/
namespace Sys2Proof.Machine

/-! ## Capabilities -/

/-- Metadata from its fields (R89). -/
def capInfo (perms g b l : Nat) : Word := w64 (perms * 2 ^ 56 + g * 2 ^ 50 + b % 2 ^ 25 * 2 ^ 25 + l)

/-- The permission byte of metadata (R89). -/
def capPerms (info : Word) : Nat := info.toNat / 2 ^ 56

/-- CBND's result for a clean capability operand and a length (R129). -/
def bound (x : Reg) (len : Nat) : Reg :=
  let lo := x.value.toNat
  let hi := lo + len
  if x.tag != .cap || malformed x.info x.value || len == 0 then Reg.data x.value
  else
    match capExp lo hi with
    | none => Reg.data x.value
    | some g =>
      let nb := lo / 2 ^ g
      let nt := (hi + 2 ^ g - 1) / 2 ^ g
      if ((nb * 2 ^ g : Nat) : Int) < capBase x.info x.value ∨ capTop x.info x.value < (nt * 2 ^ g : Nat) then
        Reg.data x.value
      else Reg.mkCap x.value (capInfo (capPerms x.info) g nb (nt - nb))

/-- CBND (R129). -/
def execCbnd (d a b : GReg) (s : State) : Out :=
  s.issue (rrr d a b) fun t =>
    let x := t.me.readG a
    let y := t.me.readG b
    t.readyOrPois [x, y] (t.writeG d (((firstPois [x, y]).map Reg.poisonOf).getD (bound x y.value.toNat)))

/-- CPRM's result: the permission byte ANDed with the low byte of b (R130). -/
def restrict (x y : Reg) : Reg :=
  if x.tag = .cap then
    Reg.mkCap x.value (x.info &&& (w64 (y.value.toNat % 256 * 2 ^ 56 + (2 ^ 56 - 1))))
  else Reg.data x.value

/-- CPRM (R130). -/
def execCprm (d a b : GReg) (s : State) : Out :=
  s.issue (rrr d a b) fun t =>
    let x := t.me.readG a
    let y := t.me.readG b
    t.readyOrPois [x, y] (t.writeG d (((firstPois [x, y]).map Reg.poisonOf).getD (restrict x y)))

/-- CGET's result for a capability (R131). -/
def capField (x : Reg) (sel : Fin 8) : Word :=
  match sel.val with
  | 0 => BitVec.ofInt 64 (capBase x.info x.value)
  | 1 => BitVec.ofInt 64 (capTop x.info x.value)
  | 2 => w64 (capPerms x.info)
  | 3 => w64 (capG x.info)
  | 4 => w64 (capB x.info)
  | 5 => w64 (capL x.info)
  | 6 => x.info
  | _ => boolWord (malformed x.info x.value)

/-- CGET (R131). -/
def execCget (d a : GReg) (sel : Fin 8) (s : State) : Out :=
  s.issue (rr d a) fun t =>
    let x := t.me.readG a
    t.ready [x] (t.writeG d (resultOf [x] (if x.tag = .cap then capField x sel else 0)))

/-- CTAG (R132): a POIS operand does not poison its result. -/
def execCtag (d a : GReg) (s : State) : Out :=
  s.issue (rr d a) fun t =>
    let x := t.me.readG a
    t.ready [x] (t.writeG d (Reg.data (w64 x.tag.code)))

/-- CSTRIP (R132). -/
def execCstrip (d a : GReg) (s : State) : Out :=
  s.issue (rr d a) fun t =>
    let x := t.me.readG a
    t.ready [x] (t.writeG d (resultOf [x] x.value))

/-! ## Ephemerides -/

/-- A register of the g or f file, as it stands. -/
def Core.readTag (c : Core) (r : GFReg) : Reg := c.readGF false r

/-- Every g and f register by name. -/
def allNames : List RegName := (List.finRange 32).map RegName.g ++ (List.finRange 16).map RegName.f

/-- The registers that hold a symbol. -/
def Core.holders (c : Core) (i : Fin 32) : List RegName :=
  ((List.finRange 32).filter fun r => c.g[r.val].tag == .eph && symOf c.g[r.val] == i).map RegName.g ++
    ((List.finRange 16).filter fun r => c.f[r.val].tag == .eph && symOf c.f[r.val] == i).map RegName.f

/-- No g or f register holds an EPH. -/
def Core.noEph (c : Core) : Bool := c.g.toList.all (·.tag != .eph) && c.f.toList.all (·.tag != .eph)

/-- EWAIT (R134): until the register holds no EPH; with g0, until no register does. -/
def execEwait (r : GFReg) (s : State) : Out :=
  s.issue { reads := if r = .g 0 then allNames else [gfName r] } fun t =>
    if (if r = .g 0 then t.me.noEph else (t.me.readTag r).tag != .eph) then .ok t else .wait .ewait t

/-- The snapshot of the symbol table (R135). -/
def Core.estat (c : Core) : Word :=
  w64 ((c.sym.toList.filter (·.state == .free)).length * 2 ^ 32 +
    ((List.range 32).map fun i => if (c.sym[Fin.ofNat 32 i]).state = .pending then 2 ^ i else 0).sum)

/-- ESTAT (R135). -/
def execEstat (d : GReg) (s : State) : Out := s.issue { writes := [.g d] } fun t => t.writeG d (Reg.data t.me.estat)

/-- What a register becomes when its symbol is abandoned: POIS with origin 3 (R136). -/
def dropReg (i : Fin 32) (x : Reg) : Reg := if x.tag = .eph ∧ symOf x = i then Reg.poison 3 0 else x

/-- A symbol abandoned: its registers become POIS, its entry Free with its generation kept (R136). -/
def Core.abandon (c : Core) (i : Fin 32) : Core :=
  { c with
    g := c.g.map (dropReg i)
    f := c.f.map (dropReg i)
    sym := c.sym.set i.val { c.sym[i.val] with state := .free, count := 0 } }

/-- EDROP (R136). -/
def execEdrop (r : GFReg) (s : State) : Out :=
  let x := s.me.readTag r
  s.issue { reads := [gfName r], writes := if x.tag = .eph then s.me.holders (symOf x) else [] } fun t =>
    if x.tag = .eph then .ok (t.setMe (t.me.abandon (symOf x))) else .ok t

end Sys2Proof.Machine
end

