-- ==== Sys2Proof/Decode.lean ====
section
/-! DEFINITION. Decoding of 32-bit, 16-bit and near-unit instruction words, and the encoder. -/
namespace Sys2Proof

/-! ## Fields -/

/-- Bits [lo+n-1 : lo] of an instruction word. -/
def field (w lo n : Nat) : Nat := w / 2 ^ lo % 2 ^ n

/-- Field d of R107 as a g register. -/
def gD (w : Nat) : GReg := Fin.ofNat 32 (field w 7 5)
/-- Field a of R107 as a g register. -/
def gA (w : Nat) : GReg := Fin.ofNat 32 (field w 12 5)
/-- Field b of R107 as a g register. -/
def gB (w : Nat) : GReg := Fin.ofNat 32 (field w 17 5)
/-- Field d as an f or v register. -/
def fD (w : Nat) : FReg := Fin.ofNat 16 (field w 7 5)
/-- Field a as an f or v register. -/
def fA (w : Nat) : FReg := Fin.ofNat 16 (field w 12 5)
/-- Field b as an f or v register. -/
def fB (w : Nat) : FReg := Fin.ofNat 16 (field w 17 5)
/-- Field d as a tile. -/
def tD (w : Nat) : TReg := Fin.ofNat 8 (field w 7 5)
/-- Field a as a tile. -/
def tA (w : Nat) : TReg := Fin.ofNat 8 (field w 12 5)
/-- Field b as a tile. -/
def tB (w : Nat) : TReg := Fin.ofNat 8 (field w 17 5)
/-- Field d as an accumulator. -/
def zD (w : Nat) : ZReg := Fin.ofNat 4 (field w 7 5)
/-- Field a as an accumulator. -/
def zA (w : Nat) : ZReg := Fin.ofNat 4 (field w 12 5)
/-- The lookahead field [25:22]. -/
def lookOf (w : Nat) : Look := Fin.ofNat 16 (field w 22 4)
/-- The I-format immediate [31:17]. -/
def imm15 (w : Nat) : BitVec 15 := BitVec.ofNat 15 (field w 17 15)
/-- The B-format offset, {[28:22], [11:7]}. -/
def off12 (w : Nat) : BitVec 12 := BitVec.ofNat 12 (field w 22 7 * 32 + field w 7 5)
/-- The J-format offset [31:7]. -/
def off25 (w : Nat) : BitVec 25 := BitVec.ofNat 25 (field w 7 25)

/-- The type that a type code names (R110); code 1111 names none. -/
def Ty.ofCode : Nat → Option Ty
  | 0 => some .s64 | 1 => some .s32 | 2 => some .s16 | 3 => some .s8
  | 4 => some .z64 | 5 => some .z32 | 6 => some .z16 | 7 => some .z8
  | 8 => some .f32 | 9 => some .f16 | 10 => some .bf16 | 11 => some .f64
  | 12 => some .e4m3 | 13 => some .e5m2 | 14 => some .n4 | _ => none

/-- The type code of a type (R110). -/
def Ty.code : Ty → Nat
  | .s64 => 0 | .s32 => 1 | .s16 => 2 | .s8 => 3 | .z64 => 4 | .z32 => 5 | .z16 => 6 | .z8 => 7
  | .f32 => 8 | .f16 => 9 | .bf16 => 10 | .f64 => 11 | .e4m3 => 12 | .e5m2 => 13 | .n4 => 14

/-- The rounding code's name (R110); 101 to 111 are reserved. -/
def Rnd.ofCode : Nat → Option Rnd
  | 0 => some .rne | 1 => some .rtz | 2 => some .rup | 3 => some .rdn | 4 => some .rna | _ => none

/-- The code of a rounding (R110). -/
def Rnd.code : Rnd → Nat
  | .rne => 0 | .rtz => 1 | .rup => 2 | .rdn => 3 | .rna => 4

/-- FCVT's scalar type of a code (R110), of three bits. -/
def STy.ofCode : Nat → STy
  | 0 => .s64 | 1 => .s32 | 2 => .z64 | 3 => .z32 | 4 => .f32 | 5 => .f64 | 6 => .f16 | _ => .bf16

/-- The code of FCVT's scalar type (R110). -/
def STy.code : STy → Nat
  | .s64 => 0 | .s32 => 1 | .z64 => 2 | .z32 => 3 | .f32 => 4 | .f64 => 5 | .f16 => 6 | .bf16 => 7

/-- VCVT's source of a code (R169), of three bits. -/
def VSrc.ofCode : Nat → VSrc
  | 0 => .s32 | 1 => .z32 | 2 => .s16 | 3 => .s8 | 4 => .f32 | 5 => .f16 | 6 => .bf16 | _ => .f64

/-- The code of VCVT's source (R169). -/
def VSrc.code : VSrc → Nat
  | .s32 => 0 | .z32 => 1 | .s16 => 2 | .s8 => 3 | .f32 => 4 | .f16 => 5 | .bf16 => 6 | .f64 => 7

/-- The order of a code (R111), of two bits. -/
def Order.ofCode : Nat → Order
  | 0 => .plain | 1 => .acq | 2 => .rel | _ => .ar

/-- The code of an order (R111). -/
def Order.code : Order → Nat
  | .plain => 0 | .acq => 1 | .rel => 2 | .ar => 3

/-- The level of a code of CANCEL (R152), of two bits. -/
def Level.ofCode : Nat → Level
  | 0 => .launch | 1 => .graph | 2 => .phase | _ => .job

/-- The code of a level (R152). -/
def Level.code : Level → Nat
  | .launch => 0 | .graph => 1 | .phase => 2 | .job => 3

/-- The number of a system register (R101). -/
def SysReg.number : SysReg → Nat
  | .kid => 0x000 | .kself => 0x001 | .extset => 0x002 | .asid => 0x003 | .vfid => 0x004
  | .dtime => 0x010 | .rgnpc => 0x020 | .rgnrec => 0x021 | .fcause => 0x022 | .faddr => 0x023
  | .splo => 0x030 | .ovfptr => 0x031 | .mwgt => 0x040 | .dseed => 0x041 | .dkeep => 0x042
  | .inbstat => 0x050

/-- The system register of a number (R101); the other numbers are reserved. -/
def SysReg.ofNumber : Nat → Option SysReg
  | 0x000 => some .kid | 0x001 => some .kself | 0x002 => some .extset | 0x003 => some .asid
  | 0x004 => some .vfid | 0x010 => some .dtime | 0x020 => some .rgnpc | 0x021 => some .rgnrec
  | 0x022 => some .fcause | 0x023 => some .faddr | 0x030 => some .splo | 0x031 => some .ovfptr
  | 0x040 => some .mwgt | 0x041 => some .dseed | 0x042 => some .dkeep | 0x050 => some .inbstat
  | _ => none

/-! ## Decoding of 32-bit words -/

/-- The instruction, unless a condition holds: then the DETAIL of the first that does. Every list is in
ascending order of DETAIL, so the answer is the lowest that applies (R118). -/
def unlessBad : List (Bool × Nat) → Instr → Except Nat Instr
  | [], i => .ok i
  | (bad, detail) :: rest, i => if bad then .error detail else unlessBad rest i

/-- Unassigned minor, fn, cond, op, kind or subfield value (R118). -/
def unassigned : Except Nat Instr := .error 3

/-- A field that must be 0 is not (DETAIL 6). -/
def zero (w lo n : Nat) : Bool × Nat := (field w lo n != 0, 6)
/-- Field d must be 0. -/
def zeroD (w : Nat) : Bool × Nat := zero w 7 5
/-- Field a must be 0. -/
def zeroA (w : Nat) : Bool × Nat := zero w 12 5
/-- Field b must be 0. -/
def zeroB (w : Nat) : Bool × Nat := zero w 17 5
/-- The lookahead or n field must be 0 (DETAIL 7). -/
def zeroN (w : Nat) : Bool × Nat := (field w 22 4 != 0, 7)
/-- The register field at `lo` lies beyond a file of `size` registers (DETAIL 5). -/
def beyond (w lo size : Nat) : Bool × Nat := (decide (size ≤ field w lo 5), 5)
/-- A type code that the instruction does not accept (DETAIL 4). -/
def badTy (code : Nat) (accepted : List Ty) : Bool × Nat :=
  (match Ty.ofCode code with | some t => !accepted.contains t | none => true, 4)
/-- The type of a code, once accepted. -/
def tyOf (code : Nat) : Ty := (Ty.ofCode code).getD .s64
/-- A rounding code that is reserved (DETAIL 4). -/
def badRnd (code : Nat) : Bool × Nat := ((Rnd.ofCode code).isNone, 4)
/-- The rounding of a code, once accepted. -/
def rndOf (code : Nat) : Rnd := (Rnd.ofCode code).getD .rne
/-- The ty field of format R must be 0000 (R112). -/
def noTy (w : Nat) : Bool × Nat := (field w 22 4 != 0, 4)
/-- The ty field of format R must be 0000 or 0001. -/
def ty01 (w : Nat) : Bool × Nat := (decide (2 ≤ field w 22 4), 4)
/-- The ty field of format R is 0001, the .s32 form. -/
def is32 (w : Nat) : Bool := field w 22 4 == 1

/-- Major OP 0x01 (R124). -/
def decodeOp (w : Nat) : Except Nat Instr :=
  let s := is32 w
  let d := gD w
  let a := gA w
  let b := gB w
  match field w 26 6 with
  | 0 => unlessBad [ty01 w] (.add s d a b)
  | 1 => unlessBad [ty01 w] (.sub s d a b)
  | 2 => unlessBad [ty01 w] (.and s d a b)
  | 3 => unlessBad [ty01 w] (.or s d a b)
  | 4 => unlessBad [ty01 w] (.xor s d a b)
  | 5 => unlessBad [ty01 w] (.andn s d a b)
  | 6 => unlessBad [ty01 w] (.sll s d a b)
  | 7 => unlessBad [ty01 w] (.srl s d a b)
  | 8 => unlessBad [ty01 w] (.sra s d a b)
  | 9 => unlessBad [ty01 w] (.rot s d a b)
  | 10 => unlessBad [ty01 w] (.min s d a b)
  | 11 => unlessBad [ty01 w] (.max s d a b)
  | 12 => unlessBad [ty01 w] (.minz s d a b)
  | 13 => unlessBad [ty01 w] (.maxz s d a b)
  | 14 => unlessBad [ty01 w] (.slt s d a b)
  | 15 => unlessBad [ty01 w] (.sltz s d a b)
  | 16 => unlessBad [noTy w] (.sel d a b)
  | 17 => unlessBad [ty01 w, zeroB w] (.clz s d a)
  | 18 => unlessBad [ty01 w, zeroB w] (.ctz s d a)
  | 19 => unlessBad [ty01 w, zeroB w] (.popc s d a)
  | 20 => unlessBad [ty01 w, zeroB w] (.bswap s d a)
  | 21 => unlessBad [noTy w, zeroB w] (.mov d a)
  | 22 => unlessBad [noTy w, beyond w 12 6, zeroB w] (.movm d (Fin.ofNat 6 (field w 12 5)))
  | _ => unassigned

/-- Major MULDIV 0x02 (R126). -/
def decodeMulDiv (w : Nat) : Except Nat Instr :=
  let s := field w 26 1 == 1
  let l := lookOf w
  let d := gD w
  let a := gA w
  let b := gB w
  match field w 27 5 with
  | 0 => .ok (.mul s l d a b)
  | 1 => unlessBad [(s, 4)] (.mulh l d a b)
  | 2 => unlessBad [(s, 4)] (.mulhz l d a b)
  | 3 => .ok (.div s l d a b)
  | 4 => .ok (.divz s l d a b)
  | 5 => .ok (.rem s l d a b)
  | 6 => .ok (.remz s l d a b)
  | _ => unassigned

/-- Major SHI 0x09 (R127). DESIGN CHOICE (log 76), unsafe: nonzero bits [31:26] count as a field that has to be 0, DETAIL 6. -/
def decodeShi (w : Nat) : Except Nat Instr :=
  let s := field w 25 1 == 1
  let k : Fin 64 := Fin.ofNat 64 (field w 17 6)
  let bad := [zero w 26 6, (s && decide (32 ≤ field w 17 6), 8)]
  match field w 23 2 with
  | 0 => unlessBad bad (.slli s (gD w) (gA w) k)
  | 1 => unlessBad bad (.srli s (gD w) (gA w) k)
  | 2 => unlessBad bad (.srai s (gD w) (gA w) k)
  | _ => unassigned

/-- Major BF 0x0B (R127). -/
def decodeBf (w : Nat) : Except Nat Instr :=
  let p : Fin 64 := Fin.ofNat 64 (field w 20 6)
  let l : Fin 64 := Fin.ofNat 64 (field w 26 6)
  let bad := [(decide (64 < field w 20 6 + field w 26 6 + 1), 8)]
  match field w 17 3 with
  | 0 => unlessBad bad (.extS64 (gD w) (gA w) p l)
  | 1 => unlessBad bad (.extZ64 (gD w) (gA w) p l)
  | 2 => unlessBad bad (.ins (gD w) (gA w) p l)
  | _ => unassigned

/-- Major CAP 0x0C (R128). -/
def decodeCap (w : Nat) : Except Nat Instr :=
  match field w 26 6 with
  | 0 => unlessBad [noTy w] (.cbnd (gD w) (gA w) (gB w))
  | 1 => unlessBad [noTy w] (.cprm (gD w) (gA w) (gB w))
  | 2 => unlessBad [(decide (8 ≤ field w 17 5), 3), noTy w] (.cget (gD w) (gA w) (Fin.ofNat 8 (field w 17 5)))
  | 3 => unlessBad [noTy w, zeroB w] (.ctag (gD w) (gA w))
  | 4 => unlessBad [noTy w, zeroB w] (.cstrip (gD w) (gA w))
  | _ => unassigned

/-- The file selector of b (R133, R195) is neither 0 nor 1. -/
def badSel (w : Nat) : Bool × Nat := (decide (2 ≤ field w 17 5), 3)
/-- The register of field a in the file that b selects. -/
def gfA (w : Nat) : GFReg := if field w 17 5 == 1 then .f (fA w) else .g (gA w)
/-- Field a lies beyond the file that b selects. -/
def beyondSel (w : Nat) : Bool × Nat := (field w 17 5 == 1 && decide (16 ≤ field w 12 5), 5)

/-- Major EPH 0x0D (R133). -/
def decodeEph (w : Nat) : Except Nat Instr :=
  match field w 26 6 with
  | 0 => unlessBad [badSel w, noTy w, beyondSel w, zeroD w] (.ewait (gfA w))
  | 1 => unlessBad [noTy w, zeroA w, zeroB w] (.estat (gD w))
  | 2 => unlessBad [badSel w, noTy w, beyondSel w, zeroD w] (.edrop (gfA w))
  | _ => unassigned

/-- Major BR 0x10 (R137). DESIGN CHOICE (log 93), unsafe: a nonzero b[4] or b[2] of BTAG has DETAIL 6. -/
def decodeBr (w : Nat) : Except Nat Instr :=
  match field w 29 3 with
  | 0 => .ok (.beq (gA w) (gB w) (off12 w))
  | 1 => .ok (.bne (gA w) (gB w) (off12 w))
  | 2 => .ok (.blt (gA w) (gB w) (off12 w))
  | 3 => .ok (.bge (gA w) (gB w) (off12 w))
  | 4 => .ok (.blo (gA w) (gB w) (off12 w))
  | 5 => .ok (.bhs (gA w) (gB w) (off12 w))
  | 6 => unlessBad [zero w 21 1, zero w 19 1] (.btag (gA w) (BitVec.ofNat 4 (field w 17 4)) (off12 w))
  | _ => unassigned

/-- Major SYS 0x14 (R146). -/
def decodeSys (w : Nat) : Except Nat Instr :=
  match field w 26 6 with
  | 0 => unlessBad [noTy w, zeroD w, zeroA w, zeroB w] .nop
  | 1 => unlessBad [noTy w, zeroD w, zeroA w, zeroB w] .hend
  | 2 => unlessBad [zeroD w] (.trap (BitVec.ofNat 14 (field w 12 14)))
  | 3 => unlessBad [zeroD w] (.brk (BitVec.ofNat 14 (field w 12 14)))
  | 4 => unlessBad [noTy w, zeroD w, zeroB w] (.tlbi (gA w))
  | 5 => unlessBad [noTy w, zeroD w] (.icinv (gA w) (gB w))
  | 6 => unlessBad [noTy w, zeroD w] (.dcwb (gA w) (gB w))
  | 7 => unlessBad [noTy w, zeroD w] (.dcinv (gA w) (gB w))
  | _ => unassigned

/-- Major SREG 0x16 (R150). -/
def decodeSreg (w : Nat) : Except Nat Instr :=
  let num := SysReg.ofNumber (field w 17 12)
  let r := num.getD .kid
  let bad := (num.isNone, 9)
  match field w 29 3 with
  | 0 => unlessBad [zeroA w, bad] (.srr (gD w) r)
  | 1 => unlessBad [zeroD w, bad] (.srw r (gA w))
  | 2 => unlessBad [bad] (.srx (gD w) r (gA w))
  | _ => unassigned

/-- Major WORK 0x17 (R152). -/
def decodeWork (w : Nat) : Except Nat Instr :=
  match field w 26 6 with
  | 0 => unlessBad [(decide (7 ≤ field w 22 4), 3)] (.spawn (gD w) (gA w) (gB w) (Fin.ofNat 7 (field w 22 4)))
  | 1 => unlessBad [zeroB w, zeroN w] (.launch (gD w) (gA w))
  | 2 => unlessBad [(decide (4 ≤ field w 22 4), 3), zeroB w] (.cancel (gD w) (gA w) (Level.ofCode (field w 22 4)))
  | 3 => unlessBad [zeroN w] (.garm (gD w) (gA w) (gB w))
  | 4 => unlessBad [zeroB w, zeroN w] (.grel (gD w) (gA w))
  | _ => unassigned

/-- Majors FOPS 0x18 (`x` false) and FOPD 0x19 (`x` true) (R180). -/
def decodeFop (x : Bool) (w : Nat) : Except Nat Instr :=
  let r := rndOf (field w 26 3)
  let l := lookOf w
  let fff := [beyond w 7 16, beyond w 12 16, beyond w 17 16]
  match field w 29 3 with
  | 0 => unlessBad (badRnd (field w 26 3) :: fff)
      (if x then .faddF64 r l (fD w) (fA w) (fB w) else .fadd r l (fD w) (fA w) (fB w))
  | 1 => unlessBad (badRnd (field w 26 3) :: fff)
      (if x then .fsubF64 r l (fD w) (fA w) (fB w) else .fsub r l (fD w) (fA w) (fB w))
  | 2 => unlessBad (badRnd (field w 26 3) :: fff)
      (if x then .fmulF64 r l (fD w) (fA w) (fB w) else .fmul r l (fD w) (fA w) (fB w))
  | 3 => unlessBad (badRnd (field w 26 3) :: fff)
      (if x then .fdivF64 r l (fD w) (fA w) (fB w) else .fdiv r l (fD w) (fA w) (fB w))
  | 4 => unlessBad [badRnd (field w 26 3), beyond w 7 16, beyond w 12 16, zeroB w]
      (if x then .fsqrtF64 r l (fD w) (fA w) else .fsqrt r l (fD w) (fA w))
  | 5 => match field w 26 3 with
    | 0 => unlessBad fff (if x then .fminF64 l (fD w) (fA w) (fB w) else .fmin l (fD w) (fA w) (fB w))
    | 1 => unlessBad fff (if x then .fmaxF64 l (fD w) (fA w) (fB w) else .fmax l (fD w) (fA w) (fB w))
    | 2 => unlessBad [beyond w 12 16, beyond w 17 16]
        (if x then .fcmpF64 l (gD w) (fA w) (fB w) else .fcmp l (gD w) (fA w) (fB w))
    | 3 => unlessBad [beyond w 12 16, zeroB w] (if x then .fclsF64 l (gD w) (fA w) else .fcls l (gD w) (fA w))
    | 4 => unlessBad [beyond w 12 16, zeroB w] (if x then .fmvgF64 l (gD w) (fA w) else .fmvg l (gD w) (fA w))
    | 5 => unlessBad [beyond w 7 16, zeroB w] (if x then .fmvfF64 l (fD w) (gA w) else .fmvf l (fD w) (gA w))
    | _ => unassigned
  | _ => unassigned

/-- Majors FFMAS 0x1A and FFMAD 0x1B (R187). -/
def decodeFfma (x : Bool) (w : Nat) : Except Nat Instr :=
  let r := rndOf (field w 26 2)
  let c : FReg := Fin.ofNat 16 (field w 28 4)
  unlessBad [beyond w 7 16, beyond w 12 16, beyond w 17 16]
    (if x then .ffmaF64 r (lookOf w) (fD w) (fA w) (fB w) c else .ffma r (lookOf w) (fD w) (fA w) (fB w) c)

/-- Major FLI 0x1C (R188). -/
def decodeFli (w : Nat) : Except Nat Instr :=
  match field w 12 5 with
  | 0 => unlessBad [beyond w 7 16] (.fliF32 (fD w) (imm15 w))
  | 1 => unlessBad [beyond w 7 16] (.fliF64 (fD w) (imm15 w))
  | _ => unassigned

/-- Major FCVT 0x1D (R166). DESIGN CHOICE (log 93), unsafe: a nonzero b[1:0] has DETAIL 6. -/
def decodeFcvt (w : Nat) : Except Nat Instr :=
  let src := STy.ofCode (field w 29 3)
  let dst := STy.ofCode (field w 19 3)
  unlessBad [badRnd (field w 26 3), (!fcvtPair src dst, 4), (!sReg dst (gD w), 5), (!sReg src (gA w), 5),
      zero w 17 2]
    (.fcvt src dst (rndOf (field w 26 3)) (lookOf w) (gD w) (gA w))

/-- Major ANQ 0x22 (R76). -/
def decodeAnq (w : Nat) : Except Nat Instr :=
  match field w 26 6 with
  | 0 => unlessBad [zeroN w] (.anq (gD w) (gA w) (gB w))
  | 1 => .ok (.anqb (gD w) (gA w) (gB w) (Fin.ofNat 16 (field w 22 4)))
  | 2 => unlessBad [zeroN w] (.aqcf (gD w) (gA w) (gB w))
  | 3 => unlessBad [zeroN w] (.nlease (gD w) (gA w) (gB w))
  | 4 => unlessBad [zeroN w] (.nfree (gD w) (gA w) (gB w))
  | 5 => unlessBad [zeroD w, zeroA w, zeroB w, zeroN w] .tret
  | _ => unassigned

/-- The vector majors 0x24 to 0x2A: the number of the row of R190 and R168, major - 0x24 in [4:2], op in [1:0]. -/
def decodeVec (major w : Nat) : Except Nat Instr :=
  let code := field w 28 4
  let t := tyOf code
  let l := lookOf w
  let d := fD w
  let a := fA w
  let b := fB w
  let vvv := [beyond w 7 16, beyond w 12 16, beyond w 17 16]
  let vv := [beyond w 7 16, beyond w 12 16, zeroB w]
  match (major - 0x24) * 4 + field w 26 2 with
  | 0 => unlessBad (badTy code laneTypes :: vvv) (.vadd t l d a b)
  | 1 => unlessBad (badTy code laneTypes :: vvv) (.vsub t l d a b)
  | 2 => unlessBad (badTy code laneTypes :: vvv) (.vmul t l d a b)
  | 3 => unlessBad (badTy code laneTypes :: vvv) (.vfma t l d a b)
  | 4 => unlessBad (badTy code laneTypes :: vvv) (.vmin t l d a b)
  | 5 => unlessBad (badTy code laneTypes :: vvv) (.vmax t l d a b)
  | 6 => unlessBad (badTy code signedTypes :: vv) (.vabs t l d a)
  | 7 => unlessBad (badTy code signedTypes :: vv) (.vneg t l d a)
  | 8 => unlessBad (badTy code [.s64] :: vvv) (.vand l d a b)
  | 9 => unlessBad (badTy code [.s64] :: vvv) (.vor l d a b)
  | 10 => unlessBad (badTy code [.s64] :: vvv) (.vxor l d a b)
  | 11 => unlessBad (badTy code laneTypes :: vvv) (.vsel t l d a b)
  | 12 => unlessBad (badTy code intTypes :: vvv) (.vshl t l d a b)
  | 13 => unlessBad (badTy code intTypes :: vvv) (.vshr t l d a b)
  | 14 => unlessBad (badTy code laneTypes :: vvv) (.vcmp t l d a b)
  | 15 => unlessBad (badTy code floatTypes :: vvv) (.vdiv t l d a b)
  | 16 => unlessBad [(decide (3 ≤ field w 17 5), 3), badTy code laneTypes, beyond w 7 16, beyond w 12 16]
      (.vred t l d a (match field w 17 5 with | 0 => .sum | 1 => .min | _ => .max))
  | 17 => unlessBad [badSel w, badTy code laneTypes, beyond w 7 16, beyondSel w] (.vbc t l d (gfA w))
  | 18 => unlessBad (badTy code laneTypes :: vvv) (.vshf t l d a b)
  | 19 => unlessBad (badTy code [.s64] :: vv) (.vmov l d a)
  | 20 => unlessBad [badTy code laneTypes, beyond w 12 16] (.vget t l (gD w) a (gB w))
  | 21 => unlessBad [badTy code laneTypes, beyond w 7 16] (.vset t l d (gA w) (gB w))
  | 22 => unlessBad (badTy code packTypes :: vvv) (.vpack t l d a b)
  | 23 => unlessBad [badTy code [.s64], beyond w 7 16] (.ldv l d (gA w) (gB w))
  | 24 => unlessBad [badTy code vcvtTypes, (!vcvtPair (VSrc.ofCode (field w 17 3)) t, 4), beyond w 7 16,
        beyond w 12 16] (.vcvt t (VSrc.ofCode (field w 17 3)) (rndOf (field w 20 2)) l d a)
  | 25 => unlessBad (badTy code qntTypes :: vvv) (.vqnt t l d a b)
  | 26 => unlessBad (badTy code qntTypes :: vvv) (.vdqnt t l d a b)
  | _ => unassigned

/-- Major LDX 0x2C (R222). -/
def decodeLdx (w : Nat) : Except Nat Instr :=
  let code := field w 28 4
  let t := tyOf code
  match field w 26 2 with
  | 0 => unlessBad [badTy code ldTypes, (!tReg t (gD w), 5)] (.ld t (lookOf w) (gD w) (gA w) (gB w))
  | 1 => unlessBad [badTy code ldeTypes, (!tReg t (gD w), 5), zeroN w] (.lde t (gD w) (gA w) (gB w))
  | 2 => unlessBad [badTy code intTypes, zeroN w] (.ldacq t (gD w) (gA w) (gB w))
  | _ => unlessBad [badTy code [.s64]] (.ldc (lookOf w) (gD w) (gA w) (gB w))

/-- Major STS 0x2D (R228). -/
def decodeSts (w : Nat) : Except Nat Instr :=
  let code := field w 22 4
  let t := tyOf code
  match field w 26 6 with
  | 0 => unlessBad [badTy code ldTypes, (!tReg t (gD w), 5)] (.st t (gD w) (gA w) (gB w))
  | 1 => unlessBad [badTy code intTypes] (.strel t (gD w) (gA w) (gB w))
  | 2 => unlessBad [noTy w] (.stc (gD w) (gA w) (gB w))
  | 3 => unlessBad [noTy w, beyond w 7 16] (.stv (fD w) (gA w) (gB w))
  | _ => unassigned

/-- Major AMO 0x2E (R236). -/
def decodeAmo (w : Nat) : Except Nat Instr :=
  let o := Order.ofCode (field w 26 2)
  let s := is32 w
  let d := gD w
  let a := gA w
  let b := gB w
  match field w 28 4 with
  | 0 => unlessBad [ty01 w] (.amoSwap o s d a b)
  | 1 => unlessBad [ty01 w] (.amoAdd o s d a b)
  | 2 => unlessBad [ty01 w] (.amoSetb o s d a b)
  | 3 => unlessBad [ty01 w] (.amoClrb o s d a b)
  | 4 => unlessBad [ty01 w] (.amoFlipb o s d a b)
  | 5 => unlessBad [ty01 w] (.amoKeepb o s d a b)
  | 6 => unlessBad [ty01 w] (.amoMin o s d a b)
  | 7 => unlessBad [ty01 w] (.amoMax o s d a b)
  | 8 => unlessBad [ty01 w] (.amoMinz o s d a b)
  | 9 => unlessBad [ty01 w] (.amoMaxz o s d a b)
  | 10 => unlessBad [ty01 w] (.amoIncw o s d a b)
  | 11 => unlessBad [ty01 w] (.amoDecw o s d a b)
  | _ => unassigned

/-- Major RWR 0x2F (R238). -/
def decodeRwr (w : Nat) : Except Nat Instr :=
  let code := field w 22 4
  let t := tyOf code
  let rel := field w 27 1 == 1
  let bad := [badTy code rwrTypes, (field w 26 1 != 0, 4), (!tReg t (gB w), 5), zeroD w]
  match field w 28 4 with
  | 0 => unlessBad bad (.rwrSum rel t (gA w) (gB w))
  | 1 => unlessBad bad (.rwrMax rel t (gA w) (gB w))
  | 2 => unlessBad bad (.rwrMin rel t (gA w) (gB w))
  | _ => unassigned

/-- Major SYNC 0x30 (R234, R237, R240). DESIGN CHOICE (log 75), unsafe: fn[0] = 1 counts as a field that has to be 0, DETAIL 6. -/
def decodeSync (w : Nat) : Except Nat Instr :=
  match field w 29 3 with
  | 0 => unlessBad [ty01 w, zero w 26 1] (.cas (Order.ofCode (field w 27 2)) (is32 w) (gD w) (gA w) (gB w))
  | 1 => unlessBad [noTy w, (field w 27 2 != 0, 4), zero w 26 1, zeroD w, zeroB w] (.fence (gA w))
  | 2 => unlessBad [badTy (field w 22 4) waitaTypes, (field w 27 2 != 0, 4), zero w 26 1]
      (.waita (tyOf (field w 22 4)) (gD w) (gA w) (gB w))
  | _ => unassigned

/-- Major COPY 0x31 (R255). -/
def decodeCopy (w : Nat) : Except Nat Instr :=
  match field w 26 6 with
  | 0 => unlessBad [(decide (29 ≤ field w 12 5), 5), zeroD w, zeroB w] (.cpy (lookOf w) (gA w))
  | 1 => unlessBad [(decide (29 ≤ field w 12 5), 5), zeroB w] (.cpyt (lookOf w) (gD w) (gA w))
  | 2 => unlessBad [(decide (4 ≤ field w 17 5), 3), zeroA w, zeroN w] (.cwm (gD w) (Fin.ofNat 4 (field w 17 5)))
  | 3 => unlessBad [zeroB w, zeroN w] (.cres (gD w) (gA w))
  | 4 => unlessBad [zeroB w] (.red (lookOf w) (gD w) (gA w))
  | _ => unassigned

/-- Majors MMA0 to MMA2, 0x34 to 0x36 (R277). -/
def decodeMma (major w : Nat) : Except Nat Instr :=
  let c : FReg := Fin.ofNat 16 (field w 28 4)
  let l := lookOf w
  let d := zD w
  let a := tA w
  let b := tB w
  let bad := [beyond w 7 4, beyond w 12 8, beyond w 17 8]
  match (major - 0x34) * 4 + field w 26 2 with
  | 0 => unlessBad bad (.mmaBf c l d a b)
  | 1 => unlessBad bad (.mmaH c l d a b)
  | 2 => unlessBad bad (.mmaF32 c l d a b)
  | 3 => unlessBad bad (.mmaI8 c l d a b)
  | 4 => unlessBad bad (.mmaE44 c l d a b)
  | 5 => unlessBad bad (.mmaE55 c l d a b)
  | 6 => unlessBad bad (.mmaE45 c l d a b)
  | 7 => unlessBad bad (.mmaN4e c l d a b)
  | 8 => unlessBad bad (.mmaN4 c l d a b)
  | _ => unassigned

/-- Major MX 0x37 (R277). -/
def decodeMx (w : Nat) : Except Nat Instr :=
  let variant := field w 26 2
  let plain := (variant != 0, 4)
  match field w 28 4 with
  | 0 => unlessBad [plain, beyond w 7 8, zeroB w, zeroN w] (.tcfg (tD w) (gA w))
  | 1 => unlessBad [(decide (2 ≤ variant), 4), beyond w 7 8]
      (if variant == 1 then .tldN4 (lookOf w) (tD w) (gA w) (gB w) else .tld (lookOf w) (tD w) (gA w) (gB w))
  | 2 => unlessBad [plain, beyond w 7 8, zeroN w] (.tst (tD w) (gA w) (gB w))
  | 3 => unlessBad [plain, beyond w 7 4, zeroB w, zeroN w] (.zclr (zD w) (gA w))
  | 4 =>
    let drop := field w 27 1 == 1
    let res := field w 26 1 == 1
    unlessBad [beyond w 7 8, (drop && decide (16 ≤ field w 17 5), 5), (!drop && field w 17 5 != 0, 6),
        (!res && field w 14 3 != 0, 6), zeroN w]
      (.zdrn drop res (tD w) (Fin.ofNat 4 (field w 12 2)) (Fin.ofNat 8 (field w 14 3)) (fB w))
  | 5 => unlessBad [plain, beyond w 12 4, zeroB w, zeroN w] (.zexp (gD w) (zA w))
  | 6 => unlessBad [plain, beyond w 12 4, zeroN w] (.zget (gD w) (zA w) (gB w))
  | 7 => unlessBad [plain, zeroA w, zeroB w, zeroN w] (.mfin (gD w))
  | _ => unassigned

/-- Major ALM 0x38 (R298). -/
def decodeAlm (w : Nat) : Except Nat Instr :=
  match field w 26 6 with
  | 0 => unlessBad [zeroB w, zeroN w] (.acfg (gD w) (gA w))
  | 1 => unlessBad [zeroB w, zeroN w] (.aload (gD w) (gA w))
  | 2 => unlessBad [(decide (31 ≤ field w 12 5), 5), zeroN w] (.aeval (gD w) (gA w) (gB w))
  | 3 => unlessBad [(decide (29 ≤ field w 12 5), 5), zeroN w] (.agth (gD w) (gA w) (gB w))
  | _ => unassigned

/-- d + n goes beyond the g file (DETAIL 5), and d is nonzero with n = 0 (DETAIL 6) (R339). -/
def badPayload (w : Nat) : List (Bool × Nat) :=
  [(decide (32 < field w 7 5 + field w 22 4), 5), (field w 7 5 != 0 && field w 22 4 == 0, 6)]

/-- Major MSG 0x39 (R339). -/
def decodeMsg (w : Nat) : Except Nat Instr :=
  match field w 26 6 with
  | 0 => unlessBad ((decide (7 ≤ field w 22 4), 3) :: badPayload w)
      (.send (gD w) (gA w) (gB w) (Fin.ofNat 7 (field w 22 4)))
  | 1 => unlessBad ((decide (7 ≤ field w 22 4), 3) :: badPayload w)
      (.sendm (gD w) (gA w) (gB w) (Fin.ofNat 7 (field w 22 4)))
  | 2 => unlessBad ((decide (6 ≤ field w 22 4), 3) :: badPayload w ++ [zeroB w])
      (.sendr (gD w) (gA w) (Fin.ofNat 6 (field w 22 4)))
  | 3 => unlessBad [zeroD w, zeroA w, zeroB w, zeroN w] .mrel
  | 4 => unlessBad [zeroN w] (.clsw (gD w) (gA w) (gB w))
  | 5 => unlessBad [zeroB w, zeroN w] (.clsr (gD w) (gA w))
  | 6 => unlessBad [zeroN w] (.clsen (gD w) (gA w) (gB w))
  | 7 => unlessBad [(decide (3 ≤ field w 17 5), 3), zeroA w, zeroN w] (.cpnd (gD w) (Fin.ofNat 3 (field w 17 5)))
  | _ => unassigned

/-- Major MER 0x3A (R354). -/
def decodeMer (w : Nat) : Except Nat Instr :=
  match field w 26 6 with
  | 0 => unlessBad [zeroB w, zeroN w] (.mbar (gD w) (gA w))
  | 1 => unlessBad [zeroD w, zeroN w] (.mwait (gA w) (gB w))
  | 2 => unlessBad [zeroD w, zeroN w] (.mbc (gA w) (gB w))
  | 3 => unlessBad [zeroN w] (.mrcv (gD w) (gA w) (gB w))
  | _ => unassigned

/-- The instruction of a 32-bit word whose bit 0 is 1, or the DETAIL of its illegal-instruction fault (R111,
R118). Legality is decided as if every extension were present (R120). -/
def decode32 (w : Nat) : Except Nat Instr :=
  match field w 1 6 with
  | 0x01 => decodeOp w
  | 0x02 => decodeMulDiv w
  | 0x03 => .ok (.addi (gD w) (gA w) (imm15 w))
  | 0x04 => .ok (.addiw (gD w) (gA w) (imm15 w))
  | 0x05 => .ok (.andi (gD w) (gA w) (imm15 w))
  | 0x06 => .ok (.ori (gD w) (gA w) (imm15 w))
  | 0x07 => .ok (.xori (gD w) (gA w) (imm15 w))
  | 0x08 => .ok (.slti (gD w) (gA w) (imm15 w))
  | 0x09 => decodeShi w
  | 0x0A => .ok (.lih (gD w) (gA w) (imm15 w))
  | 0x0B => decodeBf w
  | 0x0C => decodeCap w
  | 0x0D => decodeEph w
  | 0x10 => decodeBr w
  | 0x11 => .ok (.j (off25 w))
  | 0x12 => .ok (.jal (off25 w))
  | 0x13 => .ok (.jalr (gD w) (gA w) (imm15 w))
  | 0x14 => decodeSys w
  | 0x15 => .ok (.rgn (off25 w))
  | 0x16 => decodeSreg w
  | 0x17 => decodeWork w
  | 0x18 => decodeFop false w
  | 0x19 => decodeFop true w
  | 0x1A => decodeFfma false w
  | 0x1B => decodeFfma true w
  | 0x1C => decodeFli w
  | 0x1D => decodeFcvt w
  | 0x22 => decodeAnq w
  | 0x24 => decodeVec 0x24 w
  | 0x25 => decodeVec 0x25 w
  | 0x26 => decodeVec 0x26 w
  | 0x27 => decodeVec 0x27 w
  | 0x28 => decodeVec 0x28 w
  | 0x29 => decodeVec 0x29 w
  | 0x2A => decodeVec 0x2A w
  | 0x2C => decodeLdx w
  | 0x2D => decodeSts w
  | 0x2E => decodeAmo w
  | 0x2F => decodeRwr w
  | 0x30 => decodeSync w
  | 0x31 => decodeCopy w
  | 0x34 => decodeMma 0x34 w
  | 0x35 => decodeMma 0x35 w
  | 0x36 => decodeMma 0x36 w
  | 0x37 => decodeMx w
  | 0x38 => decodeAlm w
  | 0x39 => decodeMsg w
  | 0x3A => decodeMer w
  | _ => .error 2

/-! ## Decoding of 16-bit words (R113) -/

/-- The instruction of a 16-bit word whose bit 0 is 0, or the DETAIL of its fault. -/
def decode16 (h : Nat) : Except Nat Instr :=
  let s := field h 15 1 == 1
  let a : GReg := Fin.ofNat 32 (field h 10 5)
  let d : GReg := Fin.ofNat 32 (field h 5 5)
  let i : BitVec 6 := BitVec.ofNat 6 (field h 10 6)
  let o : BitVec 11 := BitVec.ofNat 11 (field h 5 11)
  match field h 1 4 with
  | 1 => .ok (if s then .cSub d a else .cAdd d a)
  | 2 => .ok (if s then .cAnd d a else .cMov d a)
  | 3 => .ok (.cAddi d i)
  | 4 => .ok (.cAddiZero d i)
  | 5 => .ok (.cSlli d (Fin.ofNat 64 (field h 10 6)))
  | 6 => .ok (.cSrli d (Fin.ofNat 64 (field h 10 6)))
  | 7 => .ok (.cLd s d a)
  | 8 => .ok (.cSt s d a)
  | 9 => .ok (.cBeq d i)
  | 10 => .ok (.cBne d i)
  | 11 => .ok (.cJ o)
  | 12 => unlessBad [(field h 5 5 != 0, 1)] (if s then .cJalrLink a else .cJalrG0 a)
  | 13 => match field h 5 11 with
    | 0 => .ok .cNop
    | 1 => .ok .cHend
    | 2 => .ok .cTret
    | 3 => .ok .cBrk
    | _ => .error 1
  | 14 => .ok (.cRgn o)
  | _ => .error 1

/-! ## Decoding of near-unit words (R307) -/

/-- The near form of a 32-bit word, or the DETAIL of its near fault (R319). -/
def decodeNear (w : Nat) : Except Nat Instr :=
  match field w 30 2 with
  | 0 => unlessBad [(field w 28 2 != 0, 2)]
      (.nearTwoMoves (Fin.ofNat 4 (field w 26 2)) (Fin.ofNat 64 (field w 20 6)) (Fin.ofNat 64 (field w 14 6))
        (Fin.ofNat 4 (field w 12 2)) (Fin.ofNat 64 (field w 6 6)) (Fin.ofNat 64 (field w 0 6)))
  | 1 => unlessBad [(field w 28 2 == 3, 1), (field w 24 4 != 0, 2)]
      (.nearImmediateMove (Fin.ofNat 3 (field w 28 2)) (Fin.ofNat 4 (field w 22 2)) (Fin.ofNat 64 (field w 16 6))
        (BitVec.ofNat 16 (field w 0 16)))
  | _ => .error 1

/-- The instruction the decoder reads from `nbits` bits whose value is `w`, bit 0 the lowest of the first
halfword: a 16-bit word, a 32-bit word of a core (bit 0 is 1, R104), or else a near-unit word (R307).
DEDUCED (log 56), safe. -/
def decodeTableWord (nbits w : Nat) : Option Instr :=
  match (if w % 2 == 1 then decode32 (w % 2 ^ 32)
         else if nbits ≤ 16 then decode16 (w % 2 ^ 16) else decodeNear (w % 2 ^ 32)) with
  | .ok i => some i
  | .error _ => none

/-! ## The encoder -/

/-- A 32-bit word in the layout that the formats R, X, S, V, M and Q share (R107): [31:26], [25:22], b, a, d, major. -/
def word (hi mid b a d major : Nat) : Nat :=
  hi * 2 ^ 26 + mid * 2 ^ 22 + b * 2 ^ 17 + a * 2 ^ 12 + d * 2 ^ 7 + major * 2 + 1
/-- A 32-bit word of format I (R107). -/
def wordI (imm a d major : Nat) : Nat := imm * 2 ^ 17 + a * 2 ^ 12 + d * 2 ^ 7 + major * 2 + 1
/-- A 32-bit word of format B (R107). -/
def wordB (cond : Nat) (off : BitVec 12) (b a major : Nat) : Nat :=
  cond * 2 ^ 29 + off.toNat / 2 ^ 5 * 2 ^ 22 + b * 2 ^ 17 + a * 2 ^ 12 + off.toNat % 2 ^ 5 * 2 ^ 7 + major * 2 + 1
/-- A 32-bit word of format J (R107). -/
def wordJ (off : BitVec 25) (major : Nat) : Nat := off.toNat * 2 ^ 7 + major * 2 + 1
/-- A 16-bit word of format C.R (R113). -/
def half (s : Bool) (a d major : Nat) : Nat := s.toNat * 2 ^ 15 + a * 2 ^ 10 + d * 2 ^ 5 + major * 2
/-- A 16-bit word of formats C.I and C.B (R113). -/
def halfI (imm6 r major : Nat) : Nat := imm6 * 2 ^ 10 + r * 2 ^ 5 + major * 2
/-- A 16-bit word of format C.J (R113). -/
def halfJ (off major : Nat) : Nat := off * 2 ^ 5 + major * 2
/-- The file selector of b (R133, R195). -/
def GFReg.file : GFReg → Nat
  | .g _ => 0 | .f _ => 1
/-- The register number within the file. -/
def GFReg.index : GFReg → Nat
  | .g r => r.val | .f r => r.val
/-- The selector of VRED's operation (R194). -/
def RedOp.code : RedOp → Nat
  | .sum => 0 | .min => 1 | .max => 2

/-- The word of an instruction; a step that no word stands for has none, and answers 0. -/
def encode : Instr → Nat
  | .add w d a b => word 0 w.toNat b.val a.val d.val 0x01
  | .sub w d a b => word 1 w.toNat b.val a.val d.val 0x01
  | .and w d a b => word 2 w.toNat b.val a.val d.val 0x01
  | .or w d a b => word 3 w.toNat b.val a.val d.val 0x01
  | .xor w d a b => word 4 w.toNat b.val a.val d.val 0x01
  | .andn w d a b => word 5 w.toNat b.val a.val d.val 0x01
  | .sll w d a b => word 6 w.toNat b.val a.val d.val 0x01
  | .srl w d a b => word 7 w.toNat b.val a.val d.val 0x01
  | .sra w d a b => word 8 w.toNat b.val a.val d.val 0x01
  | .rot w d a b => word 9 w.toNat b.val a.val d.val 0x01
  | .min w d a b => word 10 w.toNat b.val a.val d.val 0x01
  | .max w d a b => word 11 w.toNat b.val a.val d.val 0x01
  | .minz w d a b => word 12 w.toNat b.val a.val d.val 0x01
  | .maxz w d a b => word 13 w.toNat b.val a.val d.val 0x01
  | .slt w d a b => word 14 w.toNat b.val a.val d.val 0x01
  | .sltz w d a b => word 15 w.toNat b.val a.val d.val 0x01
  | .sel d a b => word 16 0 b.val a.val d.val 0x01
  | .clz w d a => word 17 w.toNat 0 a.val d.val 0x01
  | .ctz w d a => word 18 w.toNat 0 a.val d.val 0x01
  | .popc w d a => word 19 w.toNat 0 a.val d.val 0x01
  | .bswap w d a => word 20 w.toNat 0 a.val d.val 0x01
  | .mov d a => word 21 0 0 a.val d.val 0x01
  | .movm d n => word 22 0 0 n.val d.val 0x01
  | .mul w l d a b => word (0 + w.toNat) l.val b.val a.val d.val 0x02
  | .mulh l d a b => word 2 l.val b.val a.val d.val 0x02
  | .mulhz l d a b => word 4 l.val b.val a.val d.val 0x02
  | .div w l d a b => word (6 + w.toNat) l.val b.val a.val d.val 0x02
  | .divz w l d a b => word (8 + w.toNat) l.val b.val a.val d.val 0x02
  | .rem w l d a b => word (10 + w.toNat) l.val b.val a.val d.val 0x02
  | .remz w l d a b => word (12 + w.toNat) l.val b.val a.val d.val 0x02
  | .addi d a imm => wordI imm.toNat a.val d.val 0x03
  | .addiw d a imm => wordI imm.toNat a.val d.val 0x04
  | .andi d a imm => wordI imm.toNat a.val d.val 0x05
  | .ori d a imm => wordI imm.toNat a.val d.val 0x06
  | .xori d a imm => wordI imm.toNat a.val d.val 0x07
  | .slti d a imm => wordI imm.toNat a.val d.val 0x08
  | .lih d a imm => wordI imm.toNat a.val d.val 0x0A
  | .slli w d a k => wordI (w.toNat * 2 ^ 8 + 0 * 2 ^ 6 + k.val) a.val d.val 0x09
  | .srli w d a k => wordI (w.toNat * 2 ^ 8 + 1 * 2 ^ 6 + k.val) a.val d.val 0x09
  | .srai w d a k => wordI (w.toNat * 2 ^ 8 + 2 * 2 ^ 6 + k.val) a.val d.val 0x09
  | .extS64 d a p l => wordI (l.val * 2 ^ 9 + p.val * 2 ^ 3 + 0) a.val d.val 0x0B
  | .extZ64 d a p l => wordI (l.val * 2 ^ 9 + p.val * 2 ^ 3 + 1) a.val d.val 0x0B
  | .ins d a p l => wordI (l.val * 2 ^ 9 + p.val * 2 ^ 3 + 2) a.val d.val 0x0B
  | .cbnd d a b => word 0 0 b.val a.val d.val 0x0C
  | .cprm d a b => word 1 0 b.val a.val d.val 0x0C
  | .cget d a s => word 2 0 s.val a.val d.val 0x0C
  | .ctag d a => word 3 0 0 a.val d.val 0x0C
  | .cstrip d a => word 4 0 0 a.val d.val 0x0C
  | .ewait r => word 0 0 r.file r.index 0 0x0D
  | .estat d => word 1 0 0 0 d.val 0x0D
  | .edrop r => word 2 0 r.file r.index 0 0x0D
  | .beq a b off => wordB 0 off b.val a.val 0x10
  | .bne a b off => wordB 1 off b.val a.val 0x10
  | .blt a b off => wordB 2 off b.val a.val 0x10
  | .bge a b off => wordB 3 off b.val a.val 0x10
  | .blo a b off => wordB 4 off b.val a.val 0x10
  | .bhs a b off => wordB 5 off b.val a.val 0x10
  | .btag a mask off => wordB 6 off mask.toNat a.val 0x10
  | .j off => wordJ off 0x11
  | .jal off => wordJ off 0x12
  | .jalr d a imm => wordI imm.toNat a.val d.val 0x13
  | .rgn off => wordJ off 0x15
  | .nop => word 0 0 0 0 0 0x14
  | .hend => word 1 0 0 0 0 0x14
  | .trap code => word 2 (code.toNat / 2 ^ 10) (code.toNat / 2 ^ 5 % 2 ^ 5) (code.toNat % 2 ^ 5) 0 0x14
  | .brk code => word 3 (code.toNat / 2 ^ 10) (code.toNat / 2 ^ 5 % 2 ^ 5) (code.toNat % 2 ^ 5) 0 0x14
  | .tlbi a => word 4 0 0 a.val 0 0x14
  | .icinv a b => word 5 0 b.val a.val 0 0x14
  | .dcwb a b => word 6 0 b.val a.val 0 0x14
  | .dcinv a b => word 7 0 b.val a.val 0 0x14
  | .srr d r => wordI (0 * 2 ^ 12 + r.number) 0 d.val 0x16
  | .srw r a => wordI (1 * 2 ^ 12 + r.number) a.val 0 0x16
  | .srx d r a => wordI (2 * 2 ^ 12 + r.number) a.val d.val 0x16
  | .spawn d a b n => word 0 n.val b.val a.val d.val 0x17
  | .launch d a => word 1 0 0 a.val d.val 0x17
  | .cancel d a lv => word 2 lv.code 0 a.val d.val 0x17
  | .garm d a b => word 3 0 b.val a.val d.val 0x17
  | .grel d a => word 4 0 0 a.val d.val 0x17
  | .fadd r l d a b => word (0 + r.code) l.val b.val a.val d.val 0x18
  | .fsub r l d a b => word (8 + r.code) l.val b.val a.val d.val 0x18
  | .fmul r l d a b => word (16 + r.code) l.val b.val a.val d.val 0x18
  | .fdiv r l d a b => word (24 + r.code) l.val b.val a.val d.val 0x18
  | .fsqrt r l d a => word (32 + r.code) l.val 0 a.val d.val 0x18
  | .fmin l d a b => word 40 l.val b.val a.val d.val 0x18
  | .fmax l d a b => word 41 l.val b.val a.val d.val 0x18
  | .fcmp l d a b => word 42 l.val b.val a.val d.val 0x18
  | .fcls l d a => word 43 l.val 0 a.val d.val 0x18
  | .fmvg l d a => word 44 l.val 0 a.val d.val 0x18
  | .fmvf l d a => word 45 l.val 0 a.val d.val 0x18
  | .faddF64 r l d a b => word (0 + r.code) l.val b.val a.val d.val 0x19
  | .fsubF64 r l d a b => word (8 + r.code) l.val b.val a.val d.val 0x19
  | .fmulF64 r l d a b => word (16 + r.code) l.val b.val a.val d.val 0x19
  | .fdivF64 r l d a b => word (24 + r.code) l.val b.val a.val d.val 0x19
  | .fsqrtF64 r l d a => word (32 + r.code) l.val 0 a.val d.val 0x19
  | .fminF64 l d a b => word 40 l.val b.val a.val d.val 0x19
  | .fmaxF64 l d a b => word 41 l.val b.val a.val d.val 0x19
  | .fcmpF64 l d a b => word 42 l.val b.val a.val d.val 0x19
  | .fclsF64 l d a => word 43 l.val 0 a.val d.val 0x19
  | .fmvgF64 l d a => word 44 l.val 0 a.val d.val 0x19
  | .fmvfF64 l d a => word 45 l.val 0 a.val d.val 0x19
  | .ffma r l d a b c => word (c.val * 4 + r.code) l.val b.val a.val d.val 0x1A
  | .ffmaF64 r l d a b c => word (c.val * 4 + r.code) l.val b.val a.val d.val 0x1B
  | .fliF32 d imm => wordI imm.toNat 0 d.val 0x1C
  | .fliF64 d imm => wordI imm.toNat 1 d.val 0x1C
  | .fcvt src dst r l d a => word (src.code * 8 + r.code) l.val (dst.code * 4) a.val d.val 0x1D
  | .anq d a b => word 0 0 b.val a.val d.val 0x22
  | .anqb d a b n => word 1 n.val b.val a.val d.val 0x22
  | .aqcf d a b => word 2 0 b.val a.val d.val 0x22
  | .nlease d a b => word 3 0 b.val a.val d.val 0x22
  | .nfree d a b => word 4 0 b.val a.val d.val 0x22
  | .tret => word 5 0 0 0 0 0x22
  | .vadd t l d a b => word (t.code * 4 + 0) l.val b.val a.val d.val 0x24
  | .vsub t l d a b => word (t.code * 4 + 1) l.val b.val a.val d.val 0x24
  | .vmul t l d a b => word (t.code * 4 + 2) l.val b.val a.val d.val 0x24
  | .vfma t l d a b => word (t.code * 4 + 3) l.val b.val a.val d.val 0x24
  | .vmin t l d a b => word (t.code * 4 + 0) l.val b.val a.val d.val 0x25
  | .vmax t l d a b => word (t.code * 4 + 1) l.val b.val a.val d.val 0x25
  | .vabs t l d a => word (t.code * 4 + 2) l.val 0 a.val d.val 0x25
  | .vneg t l d a => word (t.code * 4 + 3) l.val 0 a.val d.val 0x25
  | .vand l d a b => word 0 l.val b.val a.val d.val 0x26
  | .vor l d a b => word 1 l.val b.val a.val d.val 0x26
  | .vxor l d a b => word 2 l.val b.val a.val d.val 0x26
  | .vsel t l d a b => word (t.code * 4 + 3) l.val b.val a.val d.val 0x26
  | .vshl t l d a b => word (t.code * 4 + 0) l.val b.val a.val d.val 0x27
  | .vshr t l d a b => word (t.code * 4 + 1) l.val b.val a.val d.val 0x27
  | .vcmp t l d a b => word (t.code * 4 + 2) l.val b.val a.val d.val 0x27
  | .vdiv t l d a b => word (t.code * 4 + 3) l.val b.val a.val d.val 0x27
  | .vred t l d a op => word (t.code * 4 + 0) l.val op.code a.val d.val 0x28
  | .vbc t l d r => word (t.code * 4 + 1) l.val r.file r.index d.val 0x28
  | .vshf t l d a b => word (t.code * 4 + 2) l.val b.val a.val d.val 0x28
  | .vmov l d a => word 3 l.val 0 a.val d.val 0x28
  | .vget t l d a b => word (t.code * 4 + 0) l.val b.val a.val d.val 0x29
  | .vset t l d a b => word (t.code * 4 + 1) l.val b.val a.val d.val 0x29
  | .vpack t l d a b => word (t.code * 4 + 2) l.val b.val a.val d.val 0x29
  | .ldv l d a b => word 3 l.val b.val a.val d.val 0x29
  | .vcvt t src r l d a => word (t.code * 4 + 0) l.val (r.code * 8 + src.code) a.val d.val 0x2A
  | .vqnt t l d a b => word (t.code * 4 + 1) l.val b.val a.val d.val 0x2A
  | .vdqnt t l d a b => word (t.code * 4 + 2) l.val b.val a.val d.val 0x2A
  | .ld t l d a b => word (t.code * 4) l.val b.val a.val d.val 0x2C
  | .lde t d a b => word (t.code * 4 + 1) 0 b.val a.val d.val 0x2C
  | .ldacq t d a b => word (t.code * 4 + 2) 0 b.val a.val d.val 0x2C
  | .ldc l d a b => word 3 l.val b.val a.val d.val 0x2C
  | .st t c a b => word 0 t.code b.val a.val c.val 0x2D
  | .strel t c a b => word 1 t.code b.val a.val c.val 0x2D
  | .stc c a b => word 2 0 b.val a.val c.val 0x2D
  | .stv c a b => word 3 0 b.val a.val c.val 0x2D
  | .amoSwap o w d a b => word (0 + o.code) w.toNat b.val a.val d.val 0x2E
  | .amoAdd o w d a b => word (4 + o.code) w.toNat b.val a.val d.val 0x2E
  | .amoSetb o w d a b => word (8 + o.code) w.toNat b.val a.val d.val 0x2E
  | .amoClrb o w d a b => word (12 + o.code) w.toNat b.val a.val d.val 0x2E
  | .amoFlipb o w d a b => word (16 + o.code) w.toNat b.val a.val d.val 0x2E
  | .amoKeepb o w d a b => word (20 + o.code) w.toNat b.val a.val d.val 0x2E
  | .amoMin o w d a b => word (24 + o.code) w.toNat b.val a.val d.val 0x2E
  | .amoMax o w d a b => word (28 + o.code) w.toNat b.val a.val d.val 0x2E
  | .amoMinz o w d a b => word (32 + o.code) w.toNat b.val a.val d.val 0x2E
  | .amoMaxz o w d a b => word (36 + o.code) w.toNat b.val a.val d.val 0x2E
  | .amoIncw o w d a b => word (40 + o.code) w.toNat b.val a.val d.val 0x2E
  | .amoDecw o w d a b => word (44 + o.code) w.toNat b.val a.val d.val 0x2E
  | .rwrSum rel t a b => word (0 + 2 * rel.toNat) t.code b.val a.val 0 0x2F
  | .rwrMax rel t a b => word (4 + 2 * rel.toNat) t.code b.val a.val 0 0x2F
  | .rwrMin rel t a b => word (8 + 2 * rel.toNat) t.code b.val a.val 0 0x2F
  | .cas o w d a b => word (2 * o.code) w.toNat b.val a.val d.val 0x30
  | .fence a => word 8 0 0 a.val 0 0x30
  | .waita t d a b => word 16 t.code b.val a.val d.val 0x30
  | .cpy l a => word 0 l.val 0 a.val 0 0x31
  | .cpyt l d a => word 1 l.val 0 a.val d.val 0x31
  | .cwm d ch => word 2 0 ch.val 0 d.val 0x31
  | .cres d a => word 3 0 0 a.val d.val 0x31
  | .red l d a => word 4 l.val 0 a.val d.val 0x31
  | .mmaBf c l d a b => word (c.val * 4 + 0) l.val b.val a.val d.val 0x34
  | .mmaH c l d a b => word (c.val * 4 + 1) l.val b.val a.val d.val 0x34
  | .mmaF32 c l d a b => word (c.val * 4 + 2) l.val b.val a.val d.val 0x34
  | .mmaI8 c l d a b => word (c.val * 4 + 3) l.val b.val a.val d.val 0x34
  | .mmaE44 c l d a b => word (c.val * 4 + 0) l.val b.val a.val d.val 0x35
  | .mmaE55 c l d a b => word (c.val * 4 + 1) l.val b.val a.val d.val 0x35
  | .mmaE45 c l d a b => word (c.val * 4 + 2) l.val b.val a.val d.val 0x35
  | .mmaN4e c l d a b => word (c.val * 4 + 3) l.val b.val a.val d.val 0x35
  | .mmaN4 c l d a b => word (c.val * 4 + 0) l.val b.val a.val d.val 0x36
  | .tcfg d a => word 0 0 0 a.val d.val 0x37
  | .tld l d a b => word 4 l.val b.val a.val d.val 0x37
  | .tldN4 l d a b => word 5 l.val b.val a.val d.val 0x37
  | .tst d a b => word 8 0 b.val a.val d.val 0x37
  | .zclr d a => word 12 0 0 a.val d.val 0x37
  | .zdrn drop res d z r b => word (16 + 2 * drop.toNat + res.toNat) 0 b.val (r.val * 4 + z.val) d.val 0x37
  | .zexp d z => word 20 0 0 z.val d.val 0x37
  | .zget d z b => word 24 0 b.val z.val d.val 0x37
  | .mfin d => word 28 0 0 0 d.val 0x37
  | .acfg d a => word 0 0 0 a.val d.val 0x38
  | .aload d a => word 1 0 0 a.val d.val 0x38
  | .aeval d a b => word 2 0 b.val a.val d.val 0x38
  | .agth d a b => word 3 0 b.val a.val d.val 0x38
  | .send d a b n => word 0 n.val b.val a.val d.val 0x39
  | .sendm d a b n => word 1 n.val b.val a.val d.val 0x39
  | .sendr d a n => word 2 n.val 0 a.val d.val 0x39
  | .mrel => word 3 0 0 0 0 0x39
  | .clsw d a b => word 4 0 b.val a.val d.val 0x39
  | .clsr d a => word 5 0 0 a.val d.val 0x39
  | .clsen d a b => word 6 0 b.val a.val d.val 0x39
  | .cpnd d s => word 7 0 s.val 0 d.val 0x39
  | .mbar d a => word 0 0 0 a.val d.val 0x3A
  | .mwait a b => word 1 0 b.val a.val 0 0x3A
  | .mbc a b => word 2 0 b.val a.val 0 0x3A
  | .mrcv d a b => word 3 0 b.val a.val d.val 0x3A
  | .cAdd d a => half false a.val d.val 1
  | .cSub d a => half true a.val d.val 1
  | .cMov d a => half false a.val d.val 2
  | .cAnd d a => half true a.val d.val 2
  | .cAddi d i => halfI i.toNat d.val 3
  | .cAddiZero d i => halfI i.toNat d.val 4
  | .cSlli d k => halfI k.val d.val 5
  | .cSrli d k => halfI k.val d.val 6
  | .cLd w d a => half w a.val d.val 7
  | .cSt w d a => half w a.val d.val 8
  | .cBeq a i => halfI i.toNat a.val 9
  | .cBne a i => halfI i.toNat a.val 10
  | .cJ off => halfJ off.toNat 11
  | .cJalrG0 a => half false a.val 0 12
  | .cJalrLink a => half true a.val 0 12
  | .cNop => halfJ 0 13
  | .cHend => halfJ 1 13
  | .cTret => halfJ 2 13
  | .cBrk => halfJ 3 13
  | .cRgn off => halfJ off.toNat 14
  | .nearTwoMoves g1 s1 d1 g0 s0 d0 => g1.val * 2 ^ 26 + s1.val * 2 ^ 20 + d1.val * 2 ^ 14 + g0.val * 2 ^ 12 + s0.val * 2 ^ 6 + d0.val
  | .nearImmediateMove x g d imm => 2 ^ 30 + x.val * 2 ^ 28 + g.val * 2 ^ 22 + d.val * 2 ^ 16 + imm.toNat
  | .nearChunkArrival .. | .nearTaskRetirement .. | .nearInstructionLimit .. | .nearTake ..
  | .nearHeaderReadComplete .. | .homeEnqueue .. | .homeQueueConfigure .. | .homeLeaseRequest ..
  | .homeLeaseFree .. | .leaseExpiry .. | .leaseReturnToShared .. | .refreshBurst .. | .ephemerisResolution ..
  | .storeAcknowledge .. | .remoteAccessService .. | .atomicAtHome .. | .rwrAtHome .. | .pageTableWalk ..
  | .waitaWake .. | .waitaTimerExpiry .. | .messageArrival .. | .handlerStart .. | .parkingTimeout ..
  | .spawnResponse .. | .multicastForward .. | .reductionMerge .. | .barrierCompletion ..
  | .broadcastCompletion .. | .preemptionLineRaise .. | .orreryLaunchRequest | .orreryCancelRequest
  | .orreryGarmRequest | .orreryGrelRequest | .freeResourceReport .. | .orreryDispatchCycle
  | .dieAgentPlacement .. | .tcbHeadBodyRead .. | .tcbBodyStart .. | .domeLeavesRetiring .. | .meshRestitch ..
  | .copyRequestStart .. | .copyBeat .. | .copyCompletion .. | .copySuspend .. | .cresAtChannel ..
  | .redBlockStart .. | .redBlockCompletion .. | .redFault .. | .mmaExecute .. | .tldExecute ..
  | .tstExecute .. | .zclrExecute .. | .zdrnExecute .. | .zexpZgetReturn .. | .mfinResolution ..
  | .aloadExecute .. | .aevalExecute .. | .agthExecute .. | .preemptionRequestArrival .. | .preemptionTake ..
  | .contextResume .. | .extensionMigration .. | .thermalExchange .. | .regulatorUpdate .. | .droopPause ..
  | .thermalSample | .powerLeaseExpiry | .packagePowerCheck | .inletOvertemp | .patrolScrub .. | .kcpLaunch ..
  | .kcpCopy .. | .kcpRead .. | .kcpWrite .. | .kcpCancel .. | .kcpClose .. | .kcpGrant .. | .kcpListen ..
  | .kcpShoot .. | .kcpCount .. | .kcpAttest .. | .kcpOpen .. | .kcpPart .. | .kcpToken .. | .kcpFwupdImage ..
  | .kcpFwupdCommit .. | .kcpSvc .. | .kcpLog .. | .kcpKeysAdd .. | .kcpKeysRevoke .. | .kcpUnknownOp ..
  | .stationControllerRestart | .stackRecalibrationComplete .. | .bringUp .. | .illegalInstruction ..
  | .nearReservedForm .. | .uetRemoteMemoryAccess .. | .unsupportedUetPacket .. | .wordBecomesUncorrectable ..
  | .refreshDue .. | .nearWriteQueueDrain .. | .inletTemperatureRecovery | .domeSelfTestComplete ..
  | .powerLoss | .writePerformedAsSeen .. => 0

/-- How an instruction stands in memory. -/
inductive WordKind where
  | core32 | core16 | near | none
deriving DecidableEq, Repr

/-- The kind of word an instruction is encoded in; the steps of units have none. -/
def Instr.kind : Instr → WordKind
  | .cAdd .. | .cSub .. | .cMov .. | .cAnd .. | .cAddi .. | .cAddiZero .. | .cSlli .. | .cSrli ..
  | .cLd .. | .cSt .. | .cBeq .. | .cBne .. | .cJ .. | .cJalrG0 .. | .cJalrLink .. | .cNop | .cHend
  | .cTret | .cBrk | .cRgn .. => .core16
  | .nearTwoMoves .. | .nearImmediateMove .. => .near
  | .nearChunkArrival .. | .nearTaskRetirement .. | .nearInstructionLimit .. | .nearTake ..
  | .nearHeaderReadComplete .. | .homeEnqueue .. | .homeQueueConfigure .. | .homeLeaseRequest ..
  | .homeLeaseFree .. | .leaseExpiry .. | .leaseReturnToShared .. | .refreshBurst ..
  | .ephemerisResolution .. | .storeAcknowledge .. | .remoteAccessService .. | .atomicAtHome ..
  | .rwrAtHome .. | .pageTableWalk .. | .waitaWake .. | .waitaTimerExpiry .. | .messageArrival ..
  | .handlerStart .. | .parkingTimeout .. | .spawnResponse .. | .multicastForward .. | .reductionMerge ..
  | .barrierCompletion .. | .broadcastCompletion .. | .preemptionLineRaise .. | .orreryLaunchRequest
  | .orreryCancelRequest | .orreryGarmRequest | .orreryGrelRequest | .freeResourceReport ..
  | .orreryDispatchCycle | .dieAgentPlacement .. | .tcbHeadBodyRead .. | .tcbBodyStart ..
  | .domeLeavesRetiring .. | .meshRestitch .. | .copyRequestStart .. | .copyBeat .. | .copyCompletion ..
  | .copySuspend .. | .cresAtChannel .. | .redBlockStart .. | .redBlockCompletion .. | .redFault ..
  | .mmaExecute .. | .tldExecute .. | .tstExecute .. | .zclrExecute .. | .zdrnExecute ..
  | .zexpZgetReturn .. | .mfinResolution .. | .aloadExecute .. | .aevalExecute .. | .agthExecute ..
  | .preemptionRequestArrival .. | .preemptionTake .. | .contextResume .. | .extensionMigration ..
  | .thermalExchange .. | .regulatorUpdate .. | .droopPause .. | .thermalSample | .powerLeaseExpiry
  | .packagePowerCheck | .inletOvertemp | .patrolScrub .. | .kcpLaunch .. | .kcpCopy .. | .kcpRead ..
  | .kcpWrite .. | .kcpCancel .. | .kcpClose .. | .kcpGrant .. | .kcpListen .. | .kcpShoot ..
  | .kcpCount .. | .kcpAttest .. | .kcpOpen .. | .kcpPart .. | .kcpToken .. | .kcpFwupdImage ..
  | .kcpFwupdCommit .. | .kcpSvc .. | .kcpLog .. | .kcpKeysAdd .. | .kcpKeysRevoke .. | .kcpUnknownOp ..
  | .stationControllerRestart | .stackRecalibrationComplete .. | .bringUp .. | .illegalInstruction ..
  | .nearReservedForm .. | .uetRemoteMemoryAccess .. | .unsupportedUetPacket ..
  | .wordBecomesUncorrectable .. | .refreshDue .. | .nearWriteQueueDrain .. | .inletTemperatureRecovery
  | .domeSelfTestComplete .. | .powerLoss | .writePerformedAsSeen .. => .none
  | .add .. | .sub .. | .and .. | .or .. | .xor .. | .andn .. | .sll .. | .srl .. | .sra .. | .rot ..
  | .min .. | .max .. | .minz .. | .maxz .. | .slt .. | .sltz .. | .sel .. | .clz .. | .ctz .. | .popc ..
  | .bswap .. | .mov .. | .movm .. | .mul .. | .mulh .. | .mulhz .. | .div .. | .divz .. | .rem ..
  | .remz .. | .addi .. | .addiw .. | .andi .. | .ori .. | .xori .. | .slti .. | .lih .. | .slli ..
  | .srli .. | .srai .. | .extS64 .. | .extZ64 .. | .ins .. | .cbnd .. | .cprm .. | .cget .. | .ctag ..
  | .cstrip .. | .ewait .. | .estat .. | .edrop .. | .beq .. | .bne .. | .blt .. | .bge .. | .blo ..
  | .bhs .. | .btag .. | .j .. | .jal .. | .jalr .. | .rgn .. | .nop | .hend | .trap .. | .brk ..
  | .tlbi .. | .icinv .. | .dcwb .. | .dcinv .. | .srr .. | .srw .. | .srx .. | .spawn .. | .launch ..
  | .cancel .. | .garm .. | .grel .. | .fadd .. | .fsub .. | .fmul .. | .fdiv .. | .fsqrt .. | .fmin ..
  | .fmax .. | .fcmp .. | .fcls .. | .fmvg .. | .fmvf .. | .faddF64 .. | .fsubF64 .. | .fmulF64 ..
  | .fdivF64 .. | .fsqrtF64 .. | .fminF64 .. | .fmaxF64 .. | .fcmpF64 .. | .fclsF64 .. | .fmvgF64 ..
  | .fmvfF64 .. | .ffma .. | .ffmaF64 .. | .fliF32 .. | .fliF64 .. | .fcvt .. | .anq .. | .anqb ..
  | .aqcf .. | .nlease .. | .nfree .. | .tret | .vadd .. | .vsub .. | .vmul .. | .vfma .. | .vmin ..
  | .vmax .. | .vabs .. | .vneg .. | .vand .. | .vor .. | .vxor .. | .vsel .. | .vshl .. | .vshr ..
  | .vcmp .. | .vdiv .. | .vred .. | .vbc .. | .vshf .. | .vmov .. | .vget .. | .vset .. | .vpack ..
  | .ldv .. | .vcvt .. | .vqnt .. | .vdqnt .. | .ld .. | .lde .. | .ldacq .. | .ldc .. | .st ..
  | .strel .. | .stc .. | .stv .. | .amoSwap .. | .amoAdd .. | .amoSetb .. | .amoClrb .. | .amoFlipb ..
  | .amoKeepb .. | .amoMin .. | .amoMax .. | .amoMinz .. | .amoMaxz .. | .amoIncw .. | .amoDecw ..
  | .rwrSum .. | .rwrMax .. | .rwrMin .. | .cas .. | .fence .. | .waita .. | .cpy .. | .cpyt .. | .cwm ..
  | .cres .. | .red .. | .mmaBf .. | .mmaH .. | .mmaF32 .. | .mmaI8 .. | .mmaE44 .. | .mmaE55 ..
  | .mmaE45 .. | .mmaN4e .. | .mmaN4 .. | .tcfg .. | .tld .. | .tldN4 .. | .tst .. | .zclr .. | .zdrn ..
  | .zexp .. | .zget .. | .mfin .. | .acfg .. | .aload .. | .aeval .. | .agth .. | .send .. | .sendm ..
  | .sendr .. | .mrel | .clsw .. | .clsr .. | .clsen .. | .cpnd .. | .mbar .. | .mwait .. | .mbc ..
  | .mrcv .. => .core32

end Sys2Proof
end

