-- ==== Sys2Proof/Machine/Fetch.lean ====
section
/-! DEFINITION. Fetching instruction bytes: translation, the instruction cache, and the two halfwords of an
instruction (R104 to R106, R213). -/
namespace Sys2Proof.Machine

/-- Bytes and marks of a span within a line. -/
def Line.span (l : Line) (pa n : Nat) : List Byte × List (Option Mark) :=
  ((l.bytes.drop (pa - l.base)).take n, (wordsOf pa n).map fun w => l.marks.getD (w - l.base / 8) none)

/-- What the fetch of a span within one line reads: the memory's contents, or, where the cached line differs from them,
either of the two (R106). A full cache (R10) evicts a line of the hardware's choice (log 11). -/
def State.fetchAt (s0 : State) (k pa n : Nat) : (List Byte × List (Option Mark)) × State :=
  let s := s0.checked (pa / 64 * 64) 64
  let new := s.readLine (.core k) (pa / 64 * 64)
  let c := s.core k
  match c.icache.find? (·.base == pa / 64 * 64) with
  | none =>
    if c.icache.length < codeLines then (new.span pa n, s.setCore k { c with icache := new :: c.icache })
    else
      (new.span pa n, s.draw.setCore k { c with icache := new :: dropAt c.icache (Config.freeNat s.fresh % c.icache.length) })
  | some old =>
    if old.span pa n = new.span pa n then (old.span pa n, s)
    else if Config.freeBool s.fresh then (old.span pa n, s.draw)
    else (new.span pa n, s.draw.setCore k { c with icache := new :: c.icache.filter (·.base != pa / 64 * 64) })

/-- The bytes of a fetch at a virtual address, or its fault (R104, R207, R213). -/
def State.fetch (s : State) (k va n : Nat) : Except (Nat × Nat × Word) (List Byte) × State :=
  match s.translate k va [.execute] with
  | (.error d, t) => (.error (6, d, w64 va), t)
  | (.ok p, t) =>
    let r := t.fetchAt k p.pa n
    if r.1.2.any Option.isSome then (.error (7, 6, w64 va), r.2) else (.ok r.1.1, r.2)

/-- What stands at an address: an instruction, or the DETAIL of an illegal encoding (R104, R118); a halfword that
cannot be fetched gives its fault. -/
def State.fetchInstr (s : State) (k va : Nat) : Except (Nat × Nat × Word) (Except Nat Instr) × State :=
  match s.fetch k va 2 with
  | (.error e, t) => (.error e, t)
  | (.ok lo, t) =>
    if leNat lo % 2 = 0 then (.ok (decode16 (leNat lo)), t)
    else
      match t.fetch k (va + 2) 2 with
      | (.error e, u) => (.error e, u)
      | (.ok hi, u) => (.ok (decode32 (leNat lo + 65536 * leNat hi)), u)

end Sys2Proof.Machine
end

