-- ==== Sys2Proof/Machine/Control.lean ====
section
/-! DEFINITION. Branches, jumps and regions (R105, R137 to R145). -/
namespace Sys2Proof.Machine

/-- A branch on two values (R137): an EPH operand waits, a POIS one faults. -/
def State.branch (s : State) (cond : Cond2) (a b : GReg) (dest : Word) (len : Nat := 4) : Out :=
  s.issue { reads := [.g a, .g b], len := len } fun t =>
    let x := t.me.readG a
    let y := t.me.readG b
    t.clean [x, y] 2 (t.ready [x, y] (if cond.holds x.value y.value then .jump dest t else .ok t))

/-- BEQ (R137). -/
def execBeq (a b : GReg) (off : BitVec 12) (s : State) : Out := s.branch .eq a b (target s.me.pc off)
/-- BNE (R137). -/
def execBne (a b : GReg) (off : BitVec 12) (s : State) : Out := s.branch .ne a b (target s.me.pc off)
/-- BLT (R137). -/
def execBlt (a b : GReg) (off : BitVec 12) (s : State) : Out := s.branch .lt a b (target s.me.pc off)
/-- BGE (R137). -/
def execBge (a b : GReg) (off : BitVec 12) (s : State) : Out := s.branch .ge a b (target s.me.pc off)
/-- BLO (R137). -/
def execBlo (a b : GReg) (off : BitVec 12) (s : State) : Out := s.branch .lo a b (target s.me.pc off)
/-- BHS (R137). -/
def execBhs (a b : GReg) (off : BitVec 12) (s : State) : Out := s.branch .hs a b (target s.me.pc off)

/-- BTAG (R137): tests the tag, so POIS does not fault. -/
def execBtag (a : GReg) (mask : BitVec 4) (off : BitVec 12) (s : State) : Out :=
  s.issue { reads := [.g a] } fun t =>
    let x := t.me.readG a
    t.ready [x] (if mask.getLsbD x.tag.code then .jump (target t.me.pc off) t else .ok t)

/-- J (R138). -/
def execJ (off : BitVec 25) (s : State) : Out := s.issue {} fun t => .jump (target t.me.pc off) t

/-- JAL (R138): the link goes to g1. -/
def execJal (off : BitVec 25) (s : State) : Out :=
  s.issue { writes := [.g 1] } fun t =>
    .jump (target t.me.pc off) (t.setMe (t.me.setG 1 (Reg.data (t.me.pc + 4))))

/-- JALR of a length (R138): a capability must allow a jump to the target; a is read before d is written. -/
def State.jumpReg (s : State) (d a : GReg) (imm : Word) (len : Nat) : Out :=
  s.issue { rr d a with len := len } fun t =>
    let x := t.me.readG a
    let dest := x.value + imm
    t.ready [x] (t.clean [x] 1 (
      match (if x.tag = .cap then capFault x dest.toNat 2 [.x] else 0) with
      | 0 => .jump dest (t.setMe (t.me.setG d (Reg.data (t.me.pc + BitVec.ofNat 64 len))))
      | e => .fault 5 e dest 0 t))

/-- JALR (R138). -/
def execJalr (d a : GReg) (imm : BitVec 15) (s : State) : Out := s.jumpReg d a (simm imm) 4

/-! ## Regions (R139, R142) -/

/-- The masks of a region. -/
abbrev Masks := BitVec 32 × BitVec 16 × BitVec 16 × BitVec 8 × BitVec 4

/-- The masks of a region record, as a little-endian number of 16 bytes; none where it is invalid (R139, R142). -/
def recordMasks (r : Nat) : Option Masks :=
  if !bit r 80 || bits r 81 15 != 0 || bits r 76 4 != 0 || bits r 96 32 != 0 || bit r 0 || bit r 32 then none
  else some (BitVec.ofNat 32 r, BitVec.ofNat 16 (r / 2 ^ 32), BitVec.ofNat 16 (r / 2 ^ 48), BitVec.ofNat 8 (r / 2 ^ 64),
    BitVec.ofNat 4 (r / 2 ^ 72))

/-- A g or f register of the live-in set still holds an EPH (R142). -/
def Core.liveWait (c : Core) (gm : BitVec 32) (fm : BitVec 16) : Bool :=
  ((List.finRange 32).any fun r => gm.getLsbD r.val && c.g[r.val].tag == .eph) ||
    ((List.finRange 16).any fun r => fm.getLsbD r.val && c.f[r.val].tag == .eph)

/-- An activation in a new region: its live-in set, with no commit pending (R142, R145). -/
def Act.inRegion (a : Act) (m : Masks) : Act :=
  { a with
    entry := false
    gmask := m.1
    fmask := m.2.1
    vmask := m.2.2.1
    tmask := m.2.2.2.1
    zmask := m.2.2.2.2
    commit := false }

/-- A region begins (R142, R145): the snapshot marks of the region before lapse with its number. -/
def Core.enterRegion (c : Core) (record : Word) (m : Masks) : Core :=
  { c with
    rgnpc := c.pc
    rgnrec := record
    regionNo := c.regionNo + 1
    act := c.act.map fun a => a.inRegion m }

/-- The registers whose tags RGN reads (R142). -/
def liveRegs (gm : BitVec 32) (fm : BitVec 16) : List RegName :=
  ((List.finRange 32).filter fun r => gm.getLsbD r.val).map .g ++ ((List.finRange 16).filter fun r => fm.getLsbD r.val).map .f

/-- RGN with a record address (R142); in a window, a live-in register of it is a violation (R117). It waits for the late values of its
live-in set, and acquires what they bring (R363). -/
def State.region (s : State) (record : Word) (len : Nat) : Out :=
  s.issue { rgn := true, len := len } fun t =>
    match t.fetch t.cur record.toNat 16 with
    | (.error e, u) => .fault e.1 e.2.1 e.2.2 0 u
    | (.ok bs, u) =>
      match recordMasks (leNat bs) with
      | none => u.faultPc 8 3
      | some m =>
        match ({ reads := liveRegs m.1 m.2.1 } : Issue).violation u.me.windows with
        | some p => u.faultPc 2 p
        | none =>
          if u.me.liveWait m.1 m.2.1 then .wait .liveIn u
          else
            let v := u.acquireOwed (liveRegs m.1 m.2.1)
            .ok (v.setMe (v.me.enterRegion record m))

/-- RGN (R142). -/
def execRgn (off : BitVec 25) (s : State) : Out := s.region (recordAt s.me.pc off) 4

end Sys2Proof.Machine
end

