-- ==== Sys2Proof/Machine/System.lean ====
section
/-! DEFINITION. NOP, HEND, TRAP, BRK, the cache and TLB instructions, the system registers, and illegal encodings
(R101, R102, R118, R146 to R151). -/
namespace Sys2Proof.Machine

/-! ## NOP, HEND, TRAP, BRK -/

/-- No effect of a length (R147). -/
def State.nopOf (s : State) (len : Nat) : Out := s.issue { len := len } fun t => .ok t

/-- NOP (R147). -/
def execNop (s : State) : Out := s.nopOf 4

/-- HEND of a length (R148): in a far body it is the not-task fault (R82). -/
def State.hendOf (s : State) (len : Nat) : Out :=
  s.issue { commit := true, len := len } fun t =>
    match t.me.act with
    | none => .ended t
    | some a =>
      match a.kind with
      | .task _ => t.faultPc 10 2
      | _ =>
        let r := t.release t.cur
        .ended ((r.2.leave t.cur).endUnit a .done r.1)

/-- HEND (R148). -/
def execHend (s : State) : Out := s.hendOf 4

/-- TRAP (R149). -/
def execTrap (code : BitVec 14) (s : State) : Out :=
  s.issue {} fun t => .fault 11 (code.toNat % 256) t.me.pc code.toNat t

/-- BRK of a length (R149). -/
def State.brkOf (s : State) (code : BitVec 14) (len : Nat) : Out :=
  s.issue { len := len } fun t => .fault 12 (code.toNat % 256) t.me.pc code.toNat t

/-- BRK (R149). -/
def execBrk (code : BitVec 14) (s : State) : Out := s.brkOf code 4

/-- An illegal encoding (R118): the fault is raised before anything else. -/
def execIllegalInstruction (detail : Nat) (s : State) : Out :=
  match s.me.act with
  | none => .next s
  | some _ => .next (s.coreFault 1 detail s.me.pc)

/-! ## Caches and TLBs (R151) -/

/-- TLBI (R151): the entries of the activation's ASID that hold the page, or with g0 all of them. -/
def execTlbi (a : GReg) (s : State) : Out :=
  s.issue { reads := [.g a] } fun t =>
    let c := t.me
    let x := c.readG a
    let hit (e : TlbEntry) : Bool :=
      e.asid == c.asid && (a == 0 || (decide (e.va ≤ x.value.toNat) && decide (x.value.toNat < e.va + e.size)))
    t.ready [x] (t.clean [x] 1 (.ok (t.setMe { c with tlb := c.tlb.filter fun e => !hit e })))

/-- The physical spans of the part of a virtual range that lies in some pages of 64 KiB; unmapped ones are skipped (R151), and the codes
of what the walks read are checked (R212). -/
def State.spansIn (k a stop : Nat) : List Nat → State → List (Nat × Nat) × State
  | [], s => ([], s)
  | p :: rest, s =>
    let c := s.core k
    let lo := max a (p * 65536)
    let hi := min stop ((p + 1) * 65536)
    let t := s.checkedWalk (.core k) c.vfid c.asid lo
    let r := State.spansIn k a stop rest t
    match walk t.mem (.core k) (t.vf c.vfid).ctx c.asid lo with
    | .ok l => (((l.1.place lo).pa, hi - lo) :: r.1, r.2)
    | .error _ => r

/-- The physical spans of a virtual range, page by page (R151). DEDUCED (log 19), unsafe. -/
def State.spansOf (s : State) (k a n : Nat) : List (Nat × Nat) × State :=
  let stop := min (a + n) (2 ^ 48)
  if n = 0 ∨ stop ≤ a then ([], s)
  else State.spansIn k a stop (List.range' (a / 65536) ((stop - 1) / 65536 + 1 - a / 65536)) s

/-- A line overlaps one of the spans. -/
def Line.inSpans (l : Line) (spans : List (Nat × Nat)) : Bool :=
  spans.any fun x => decide (l.base < x.1 + x.2) && decide (x.1 < l.base + 64)

/-- A cache instruction over [a, a + b) (R151). -/
def State.cacheOp (s : State) (a b : GReg) (f : Word → Word → State → State) : Out :=
  s.issue { reads := [.g a, .g b] } fun t =>
    let x := t.me.readG a
    let y := t.me.readG b
    t.clean [x, y] 1 (t.ready [x, y] (.ok (f x.value y.value t)))

/-- ICINV (R151). -/
def execIcinv (a b : GReg) (s : State) : Out :=
  s.cacheOp a b fun x y t =>
    if (a = 0 ∧ b = 0) ∨ 2 ^ 32 ≤ y.toNat then t.setMe { t.me with icache := [] }
    else
      let r := t.spansOf t.cur x.toNat y.toNat
      r.2.setMe { r.2.me with icache := r.2.me.icache.filter fun l => !l.inSpans r.1 }

/-- DCWB (R151). -/
def execDcwb (a b : GReg) (s : State) : Out :=
  s.cacheOp a b fun x y t =>
    let u := t.drain t.cur
    let r := u.spansOf u.cur x.toNat y.toNat
    r.2.flush u.cur false fun l => l.inSpans r.1

/-- DCINV (R151). -/
def execDcinv (a b : GReg) (s : State) : Out :=
  s.cacheOp a b fun x y t =>
    let u := t.drain t.cur
    let r := u.spansOf u.cur x.toNat y.toNat
    r.2.flush u.cur true fun l => l.inSpans r.1

/-! ## System registers (R101, R102, R150) -/

/-- Free unreserved slots of an inbox: of slots 0 to 27 (R47, R102, R323). -/
def Core.freeU (c : Core) : Nat := ((c.slots.toList.take 28).filter (· == .free)).length
/-- Free reserved slots: of slots 28 to 31 (R102, R323). -/
def Core.freeR (c : Core) : Nat := ((c.slots.toList.drop 28).filter (· == .free)).length

/-- The slots of the messages that wait, in arrival order: every message but the pinned one. -/
def Core.waiting (c : Core) : List (Fin 32) := c.order.filter fun i => c.pinned != some i

/-- The class of the pinned message, or 0. -/
def Core.pinClass (c : Core) : Nat := (c.pinnedMsg.map (·.msg.cls)).getD 0

/-- INBSTAT once the device is up (R102). -/
def Core.inbstat (c : Core) : Word :=
  w64 (c.pinClass * 2 ^ 28 + (match c.pinned with | some i => 2 ^ 27 + i.val * 2 ^ 22 | none => 0) +
    c.waiting.length * 2 ^ 16 + c.freeU * 2 ^ 8 + c.freeR)

/-- A system register's value on core k (R101, R102). DEDUCED (log 12), unsafe: the fields of INBSTAT hold their reset values until
bring-up ends, and count from then on. -/
def State.sysValue (s : State) (k : Nat) : SysReg → Word
  | .kid => w64 k
  | .kself => w64 (s.core k).kself
  | .extset => boolWord (isExt k)
  | .asid => w64 (s.core k).asid
  | .vfid => w64 (s.core k).vfid
  | .dtime => w64 s.time
  | .rgnpc => (s.core k).rgnpc
  | .rgnrec => (s.core k).rgnrec
  | .fcause => (s.core k).fcause.zeroExtend 64
  | .faddr => (s.core k).faddr
  | .splo => (s.core k).splo
  | .ovfptr => (s.core k).ovfptr
  | .mwgt => (s.core k).mwgt.zeroExtend 64
  | .dseed => (s.core k).dseed
  | .dkeep => (s.core k).dkeep.zeroExtend 64
  | .inbstat => if s.sc.boot = .booting then 0 else (s.core k).inbstat

/-- A system register written (R7, R101, R102): a write to an RO register is ignored; 0 to MWGT sets 1. -/
def Core.setSys (c : Core) (x : Word) : SysReg → Core
  | .mwgt => { c with mwgt := if x.truncate 4 = (0 : BitVec 4) then 1 else x.truncate 4 }
  | .dseed => { c with dseed := x }
  | .dkeep => { c with dkeep := x.truncate 32 }
  | .kid | .kself | .extset | .asid | .vfid | .dtime | .rgnpc | .rgnrec | .fcause | .faddr | .splo | .ovfptr
  | .inbstat => c

/-- SRR (R150). -/
def execSrr (d : GReg) (r : SysReg) (s : State) : Out :=
  s.issue { writes := [.g d] } fun t => t.writeG d (Reg.data (t.sysValue t.cur r))

/-- SRW (R150). -/
def execSrw (r : SysReg) (a : GReg) (s : State) : Out :=
  s.issue { reads := [.g a] } fun t =>
    let x := t.me.readG a
    t.ready [x] (t.clean [x] 4 (.ok (t.setMe (t.me.setSys x.value r))))

/-- SRX (R150): the old value, then the write. -/
def execSrx (d : GReg) (r : SysReg) (a : GReg) (s : State) : Out :=
  s.issue (rr d a) fun t =>
    let x := t.me.readG a
    t.ready [x] (t.clean [x] 4 (.ok (t.setMe ((t.me.setSys x.value r).setG d (Reg.data (t.sysValue t.cur r))))))

end Sys2Proof.Machine
end

