-- ==== Sys2Proof/Machine/LoadStore.lean ====
section
/-! DEFINITION. Loads, stores, atomics, FENCE and WAITA (R218 to R241). -/
namespace Sys2Proof.Machine

/-- The line of a cached page that an acquire load reads is written back and invalidated, once the earlier stores to it have
reached it (R221). -/
def State.bypass (s : State) (p : Place) : State :=
  if cachedPlace p then
    (s.drainPast s.cur fun e => e.cached && e.pa / 64 == p.pa / 64).flush s.cur true fun l => l.base == p.pa / 64 * 64
  else s

/-! ## Loads -/

/-- LD of a length (R223). -/
def State.loadOf (s : State) (t : Ty) (l : Look) (d : Fin 32) (a b : GReg) (len : Nat) : Out :=
  s.issue { reads := [.g a, .g b], writes := [rawName (t.inF) d], look := l.val, len := len } fun s0 =>
    let x := s0.me.readG a
    let y := s0.me.readG b
    s0.ready [x, y] (s0.prepare x y (tyBytes t) [.r] [.read] fun va p s1 =>
      let r := s1.load s1.cur p.pa (tyBytes t) (cachedPlace p)
      let s2 := r.2.countPoison p.pa r.1
      .ok (s2.setMe (s2.me.setRaw (t.inF) d (r.1.reg s.cur va p.pa t))))

/-- LD (R223). -/
def execLd (t : Ty) (l : Look) (d : Fin 32) (a b : GReg) (s : State) : Out := s.loadOf t l d a b 4

/-- The kind of an LDE's ephemeris (R96). -/
def tyKind : Ty → EphKind
  | .s32 => .i32
  | .f32 => .f32
  | .s64 | .s16 | .s8 | .z64 | .z32 | .z16 | .z8 | .f16 | .bf16 | .f64 | .e4m3 | .e5m2 | .n4 => .i64

/-- An LDE's read once its destination is settled (R225): taken from the youngest buffered store that holds all its
bytes, or issued to be performed later, after the buffered stores that it overlaps in part. -/
def State.issueLde (s : State) (t : Ty) (va : Nat) (p : Place) (res : Option SymRef) : State :=
  let n := tyBytes t
  let s0 := s.drainPast s.cur (·.acquire)
  let later (behind : Nat) : State :=
    s0.setMe { s0.me with ldes := s0.me.ldes ++ [⟨va, p.pa, t, cachedPlace p, res, behind⟩] }
  match s0.me.youngest p.pa n with
  | none => later 0
  | some e =>
    if e.covers p.pa n then
      let x := e.forward p.pa n
      (s0.countPoison p.pa x).arrive s0.cur res (x.reg s0.cur va p.pa t) []
    else later (lastOf s0.me.buf (·.meets p.pa n))

/-- LDE (R225). -/
def execLde (t : Ty) (d : Fin 32) (a b : GReg) (s : State) : Out :=
  s.issue { reads := [.g a, .g b], writes := [rawName (t.inF) d] } fun s0 =>
    let x := s0.me.readG a
    let y := s0.me.readG b
    s0.ready [x, y] (s0.prepare x y (tyBytes t) [.r] [.read] fun va p s1 =>
      s1.lateTo (d != 0) (tyKind t) (fun c e => c.setRaw (t.inF) d e) fun res s2 => .ok (s2.issueLde t va p res))

/-- LDACQ (R226). -/
def execLdacq (t : Ty) (d a b : GReg) (s : State) : Out :=
  s.issue (rrr d a b) fun s0 =>
    let x := s0.me.readG a
    let y := s0.me.readG b
    s0.ready [x, y] (s0.prepare x y (tyBytes t) [.r] [.read] fun va p s1 =>
      let r := (s1.bypass p).load s1.cur p.pa (tyBytes t) false
      let s2 := if r.1.own then r.2 else r.2.acquireAt s1.cur p.pa (tyBytes t)
      (s2.countPoison p.pa r.1).writeG d (r.1.reg s.cur va p.pa t))

/-- LDC's register (R224). -/
def Loaded.capReg (x : Loaded) (k va pa : Nat) (lcap : Bool) : Reg :=
  let v := w64 (leNat (x.bytes.take 8))
  (x.poison k va pa).getD (if x.tag && lcap then Reg.mkCap v (w64 (leNat (x.bytes.drop 8))) else Reg.data v)

/-- LDC (R224). -/
def execLdc (l : Look) (d a b : GReg) (s : State) : Out :=
  s.issue (rrr d a b l) fun s0 =>
    let x := s0.me.readG a
    let y := s0.me.readG b
    s0.ready [x, y] (s0.prepare x y 16 [.r] [.read] fun va p s1 =>
      let r := s1.load s1.cur p.pa 16 (cachedPlace p)
      let s2 := r.2.countPoison p.pa r.1
      s2.writeG d (r.1.capReg s.cur va p.pa (hasPerm x.info .lcap)))

/-- The poison bits of the lanes of four words (R227). -/
def lanePois (marks : List (Option Mark)) : BitVec 8 :=
  BitVec.ofNat 8 ((marks.zipIdx.map fun m => if m.1.isSome then 3 * 4 ^ m.2 else 0).sum)

/-- LDV (R227). -/
def execLdv (l : Look) (d : VecReg) (a b : GReg) (s : State) : Out :=
  s.issue { reads := [.g a, .g b], writes := [.v d], look := l.val } fun s0 =>
    let x := s0.me.readG a
    let y := s0.me.readG b
    s0.ready [x, y] (s0.prepare x y 32 [.r] [.read] fun _ p s1 =>
      let r := s1.load s1.cur p.pa 32 (cachedPlace p)
      let s2 := r.2.countPoison p.pa r.1
      s2.writeLanes d (BitVec.ofNat 256 (leNat r.1.bytes)) (lanePois r.1.marks))

/-! ## Stores -/

/-- A store entry for a place (R229, R233). -/
def storeEntry (va : Nat) (p : Place) (size data : Nat) (pois : BitVec 4) (tag rel : Bool) : BufEntry where
  va := va
  pa := p.pa
  size := size
  scope := p.sc
  cached := cachedPlace p && !rel
  bypass := cachedPlace p && rel
  acquire := false
  release := rel
  op := .store data pois tag

/-- The low bytes of a datum (R229). -/
def lowBytes (x : Word) (n : Nat) : Nat := x.toNat % 256 ^ n

/-- ST of a length (R229). -/
def State.storeOf (s : State) (t : Ty) (c : Fin 32) (a b : GReg) (len : Nat) : Out :=
  s.issue { reads := [.g a, .g b, rawName (t.inF) c], len := len } fun s0 =>
    let x := s0.me.readG a
    let y := s0.me.readG b
    let z := s0.me.readRaw (t.inF) (t == .f64) c
    s0.ready [x, y, z] (s0.prepare x y (tyBytes t) [.w] [.write] fun va p s1 =>
      .ok (s1.enqueue s1.cur (storeEntry va p (tyBytes t) (lowBytes z.value (tyBytes t))
        (if z.tag = .pois then 1 else 0) false false)))

/-- ST (R229). -/
def execSt (t : Ty) (c : Fin 32) (a b : GReg) (s : State) : Out := s.storeOf t c a b 4

/-- STREL (R229): a release at its page's scope; every earlier LDE is performed first. -/
def execStrel (t : Ty) (c a b : GReg) (s : State) : Out :=
  s.issue { reads := [.g a, .g b, .g c] } fun s0 =>
    let x := s0.me.readG a
    let y := s0.me.readG b
    let z := s0.me.readG c
    s0.ready [x, y, z] (s0.prepare x y (tyBytes t) [.w] [.write] fun va p s1 =>
      let s2 := s1.settleLdes s1.cur
      .ok (s2.enqueue s2.cur (storeEntry va p (tyBytes t) (lowBytes z.value (tyBytes t))
        (if z.tag = .pois then 1 else 0) false true)))

/-- STC (R230). -/
def execStc (c a b : GReg) (s : State) : Out :=
  s.issue { reads := [.g a, .g b, .g c] } fun s0 =>
    let x := s0.me.readG a
    let y := s0.me.readG b
    let z := s0.me.readG c
    s0.ready [x, y, z] (s0.prepare x y 16 [.w] [.write] fun va p s1 =>
      if z.tag = .cap ∧ !hasPerm x.info .scap then .fault 5 4 (x.value + y.value) 0 s1
      else
        let data := if z.tag = .cap then z.value.toNat + 2 ^ 64 * z.info.toNat else z.value.toNat
        .ok (s1.enqueue s1.cur (storeEntry va p 16 data (if z.tag = .pois then 3 else 0) (z.tag == .cap) false)))

/-- The words of a vector register that hold a poisoned lane (R231). -/
def poisWords (p : BitVec 8) : BitVec 4 :=
  BitVec.ofNat 4 (((List.range 4).map fun i => if p.getLsbD (2 * i) || p.getLsbD (2 * i + 1) then 2 ^ i else 0).sum)

/-- STV (R231). -/
def execStv (c : VecReg) (a b : GReg) (s : State) : Out :=
  s.issue { reads := [.g a, .g b, .v c] } fun s0 =>
    let x := s0.me.readG a
    let y := s0.me.readG b
    let z := s0.me.readV c
    s0.ready [x, y] (s0.prepare x y 32 [.w] [.write] fun va p s1 =>
      .ok (s1.enqueue s1.cur (storeEntry va p 32 z.value.toNat (poisWords z.pois) false false)))

/-! ## Atomics (R235 to R238) -/

/-- Acquire and release of an order code (R111). -/
def acquires (o : Order) : Bool := o == .acq || o == .ar
/-- Release of an order code (R111). -/
def releases (o : Order) : Bool := o == .rel || o == .ar

/-- An atomic that returns the old value to d (R235): `op` gives the buffered operation from its symbol. -/
def State.atomicTo (s : State) (o : Order) (w : Bool) (d a : GReg) (extra : List Reg)
    (op : Option SymRef → BufOp) : Res :=
  let x := s.me.readG a
  let n := if w then 4 else 8
  s.ready (x :: extra) (s.prepareAt x x.value n [.r, .w, .atom] [.read, .write] fun va p s1 =>
    s1.clean extra 5 (s1.lateG d (if w then .i32 else .i64) fun res s2 =>
      .ok (s2.enqueue s2.cur ⟨va, p.pa, n, p.sc, false, cachedPlace p, acquires o, releases o, op res, []⟩)))

/-- An operand on w bits (R236). -/
def onBits (w : Bool) (x : Reg) : Nat := if w then x.value.toNat % 2 ^ 32 else x.value.toNat

/-- AMO (R236). -/
def State.amo (s : State) (op : AmoOp) (o : Order) (w : Bool) (d a b : GReg) : Out :=
  s.issue { rrr d a b with commit := true } fun t =>
    let y := t.me.readG b
    t.atomicTo o w d a [y] fun res => .amo op (onBits w y) res

/-- AMO.SWAP (R236). -/
def execAmoSwap (o : Order) (w : Bool) (d a b : GReg) (s : State) : Out := s.amo .swap o w d a b
/-- AMO.ADD (R236). -/
def execAmoAdd (o : Order) (w : Bool) (d a b : GReg) (s : State) : Out := s.amo .add o w d a b
/-- AMO.SETB (R236). -/
def execAmoSetb (o : Order) (w : Bool) (d a b : GReg) (s : State) : Out := s.amo .setb o w d a b
/-- AMO.CLRB (R236). -/
def execAmoClrb (o : Order) (w : Bool) (d a b : GReg) (s : State) : Out := s.amo .clrb o w d a b
/-- AMO.FLIPB (R236). -/
def execAmoFlipb (o : Order) (w : Bool) (d a b : GReg) (s : State) : Out := s.amo .flipb o w d a b
/-- AMO.KEEPB (R236). -/
def execAmoKeepb (o : Order) (w : Bool) (d a b : GReg) (s : State) : Out := s.amo .keepb o w d a b
/-- AMO.MIN (R236). -/
def execAmoMin (o : Order) (w : Bool) (d a b : GReg) (s : State) : Out := s.amo .min o w d a b
/-- AMO.MAX (R236). -/
def execAmoMax (o : Order) (w : Bool) (d a b : GReg) (s : State) : Out := s.amo .max o w d a b
/-- AMO.MINZ (R236). -/
def execAmoMinz (o : Order) (w : Bool) (d a b : GReg) (s : State) : Out := s.amo .minz o w d a b
/-- AMO.MAXZ (R236). -/
def execAmoMaxz (o : Order) (w : Bool) (d a b : GReg) (s : State) : Out := s.amo .maxz o w d a b
/-- AMO.INCW (R236). -/
def execAmoIncw (o : Order) (w : Bool) (d a b : GReg) (s : State) : Out := s.amo .incw o w d a b
/-- AMO.DECW (R236). -/
def execAmoDecw (o : Order) (w : Bool) (d a b : GReg) (s : State) : Out := s.amo .decw o w d a b

/-- CAS (R237): d supplies the expected value and receives the old one. -/
def execCas (o : Order) (w : Bool) (d a b : GReg) (s : State) : Out :=
  s.issue { reads := [.g a, .g b, .g d], writes := [.g d], commit := true } fun t =>
    let e := t.me.readG d
    let y := t.me.readG b
    t.atomicTo o w d a [e, y] fun res => .cas (onBits w e) (onBits w y) res

/-- RWR (R238): b is an f register for .f32. -/
def State.rwr (s : State) (op : RedOp) (rel : Bool) (t : Ty) (a : GReg) (b : Fin 32) : Out :=
  s.issue { reads := [.g a, rawName (t.inF) b], commit := true } fun s0 =>
    let x := s0.me.readG a
    let y := s0.me.readRaw (t.inF) false b
    s0.ready [x, y] (s0.prepareAt x x.value (tyBytes t) [.w, .atom] [.read, .write] fun va p s1 =>
      s1.clean [y] 5 (.ok (s1.enqueue s1.cur
        ⟨va, p.pa, tyBytes t, p.sc, false, cachedPlace p, false, rel, .rwr op t (lowBytes y.value (tyBytes t)), []⟩)))

/-- RWR.SUM (R238). -/
def execRwrSum (rel : Bool) (t : Ty) (a : GReg) (b : Fin 32) (s : State) : Out := s.rwr .sum rel t a b
/-- RWR.MAX (R238). -/
def execRwrMax (rel : Bool) (t : Ty) (a : GReg) (b : Fin 32) (s : State) : Out := s.rwr .max rel t a b
/-- RWR.MIN (R238). -/
def execRwrMin (rel : Bool) (t : Ty) (a : GReg) (b : Fin 32) (s : State) : Out := s.rwr .min rel t a b

/-! ## FENCE and WAITA (R234, R240, R241) -/

/-- The scope that FENCE names: that of the page at the address, translated without a check of its rights; SYSTEM for g0 or
where the translation fails (R234). -/
def State.fenceScope (s : State) (a : GReg) (x : Reg) : Nat × State :=
  if a = 0 then (4, s)
  else
    match s.translate s.cur x.value.toNat [] with
    | (.ok p, t) => (p.sc, t)
    | (.error _, t) => (4, t)

/-- FENCE (R234). -/
def execFence (a : GReg) (s : State) : Out :=
  s.issue { reads := [.g a] } fun t =>
    let x := t.me.readG a
    t.ready [x] (t.clean [x] 1 (
      let r := t.fenceScope a x
      .ok (r.2.fenceTo t.cur r.1)))

/-- The watch of core k on a word is registered, or its time of reading renewed (R241). -/
def Memory.watch (m : Memory) (k w now : Nat) : Memory :=
  { m with watches := m.watches.filter (fun x => x.core != k) ++ [⟨k, w, now, false⟩] }

/-- The watch of core k ends. -/
def Memory.unwatch (m : Memory) (k : Nat) : Memory := { m with watches := m.watches.filter fun x => x.core != k }

/-- Core k sleeps in WAITA on a word: its watch stands, no wake has come, and the 4,096 rc have not passed (R240). -/
def State.sleeping (s : State) (k w : Nat) : Bool :=
  s.mem.watches.any fun x => x.core == k && x.word == w && !x.woken && decide (s.rc < x.since + 4096)

/-- WAITA's read at memory (R221, R240), once the core's own buffered accesses to the bytes have left (R232): POIS or a match ends
the wait, and acquires; anything else leaves the core asleep. -/
def State.waitaRead (s : State) (t : Ty) (d : GReg) (y : Reg) (va : Nat) (p : Place) : Res :=
  let s0 := (s.bypass p).drainPast s.cur fun e => e.acquire || e.meets p.pa (tyBytes t)
  let r := s0.loadAt s0.cur p.pa (tyBytes t) false
  let ends (u : State) (x : Reg) : Res :=
    let w := u.acquireAt s.cur p.pa (tyBytes t)
    (w.setMem (w.mem.unwatch s.cur)).writeG d x
  match r.1.poison s.cur va p.pa with
  | some q => ends (r.2.countPoison p.pa r.1) q
  | none =>
    if leNat r.1.bytes = lowBytes y.value (tyBytes t) then ends r.2 (Reg.data (loadWord t (leNat r.1.bytes)))
    else .wait .waita (r.2.setMem (r.2.mem.watch s.cur (p.pa / 8) r.2.rc))

/-- WAITA (R240, R241). -/
def execWaita (t : Ty) (d a b : GReg) (s : State) : Out :=
  s.issue (rrr d a b) fun s0 =>
    let x := s0.me.readG a
    let y := s0.me.readG b
    s0.ready [x, y] (s0.prepareAt x x.value (tyBytes t) [.r] [.read] fun va p s1 =>
      s1.clean [y] 5 (if s1.sleeping s1.cur (p.pa / 8) then .wait .waita s1 else s1.waitaRead t d y va p))

end Sys2Proof.Machine
end

