-- ==== Sys2Proof/Machine/Message.lean ====
section
/-! DEFINITION. The message instructions: SEND, SENDM, SENDR, MREL and the class table (R321 to R327, R331, R334 to
R348). -/
namespace Sys2Proof.Machine

/-! ## The payload (R154, R341) -/

/-- The registers that give a payload of `n` words, from register `k` and word `w` on, with what each holds and whether
it is a capability that takes two words. -/
def Core.payloadRegs (c : Core) (n : Nat) : Nat → Nat → Nat → List (GReg × Reg × Bool)
  | 0, _, _ => []
  | fuel + 1, w, k =>
    if n ≤ w then []
    else
      let r := Fin.ofNat 32 k
      let x := c.readG r
      let two := x.tag == .cap && decide (w + 2 ≤ n)
      (r, x, two) :: c.payloadRegs n fuel (w + if two then 2 else 1) (k + 1)

/-- The payload of `n` words from register d up. -/
def Core.payloadFrom (c : Core) (d : GReg) (n : Nat) : List (GReg × Reg × Bool) := c.payloadRegs n n 0 d.val

/-- The words of a payload. -/
def payloadWords (l : List (GReg × Reg × Bool)) : List Word :=
  l.flatMap fun x => if x.2.2 then [x.2.1.value, x.2.1.info] else [x.2.1.value]

/-- The 2-bit tags of a payload, word 0 lowest (R321, R322). -/
def payloadTags (l : List (GReg × Reg × Bool)) : BitVec 12 :=
  BitVec.ofNat 12 ((l.flatMap fun x => if x.2.2 then [1, 0] else [0]).foldr (fun t acc => t + 4 * acc) 0)

/-- The registers that a payload reads. -/
def payloadNames (l : List (GReg × Reg × Bool)) : List RegName := l.map fun x => .g x.1

/-- What the registers of a payload hold. -/
def payloadVals (l : List (GReg × Reg × Bool)) : List Reg := l.map fun x => x.2.1

/-- The class of a class word (R341). -/
def clsOf (b : Word) : Nat := bits b.toNat 0 6
/-- The priority of a class word (R341). -/
def priOf (b : Word) : Nat := bits b.toNat 6 2

/-! ## Destinations (R154, R342) -/

/-- The logical core whose slice holds the translation of a capability with SEND. -/
def State.destOf (s : State) (x : Reg) (k : Nat → State → Res) : Res :=
  match capFault x x.value.toNat 1 [.send] with
  | 0 =>
    match s.translate s.cur x.value.toNat [] with
    | (.error d, t) => .fault 6 d x.value 0 t
    | (.ok p, t) =>
      match sliceOf p.pa with
      | some j => k j t
      | none => .fault 6 7 x.value 0 t
  | d => .fault 5 d x.value 0 s

/-- A message operand fault (R339). -/
def State.msgFault (s : State) : Res := s.faultPc 16 0

/-- The messages of a core that may still stand in its outbound queue (R331): of SEND, to a core or to another package, of
SENDM, which no router has taken yet (R335), and of SENDR. -/
def State.outbound (s : State) (k : Nat) : Nat :=
  (s.flights.filter fun f =>
    f.travel == .link && f.packet.kind == .send && f.packet.msg.src == k && !f.packet.msg.flags.getLsbD 3).length +
    (s.multis.filter fun m => m.packet.msg.src == k && m.copies.any (·.queued)).length + (s.sent.filter fun m => m.2.src == k).length +
    (s.rounds.map fun r => (r.parts.filter fun p => p.src == some k).length).sum

/-- SEND, SENDM and SENDR stall while the outbound queue of 4 messages is full (R331); whether messages sent before have
left it is the hardware's choice (log 5). -/
def State.outQueue (s : State) (k : State → Res) : Res :=
  if s.outbound s.cur < 4 then k s
  else if Config.freeBool s.fresh then .wait .outbound s.draw
  else k s.draw

/-- The launch of the activation whose turn it is. -/
def State.myLaunch (s : State) : Nat := (s.me.act.map (·.launch)).getD 0

/-- A live launch that takes a member from SPAWN, SEND or SENDM: it has not been cancelled (R24). -/
def State.takes (s : State) (l : Nat) : Bool :=
  match mget s.launches l with
  | some x => !x.cancelled && !x.counts.isFull
  | none => false

/-! ## SEND (R338, R342) -/

/-- A global word may be sent (R338, R427). -/
def State.globalOk (s : State) (x : Word) (pl : List (GReg × Reg × Bool)) : Bool :=
  let pkg := bits x.toNat 16 16
  bits x.toNat 32 31 == 0 && (s.vf s.me.vfid).remote && decide (pkg ≤ 32767) && pl.all (!·.2.2) &&
    match s.sc.package with
    | some own => own != pkg
    | none => false

/-- The message of SEND to a core. -/
def State.formed (s : State) (dest : Nat) (b : Word) (flags : BitVec 6) (pl : List (GReg × Reg × Bool)) : Msg :=
  { s.message dest s.cur (priOf b) (clsOf b) s.myLaunch flags (payloadWords pl) with ptag := payloadTags pl }

/-- A message of SEND dropped and counted (R24, R55). -/
def State.dropSend (s : State) (n : Nat) : State := s.count (.dropped s.cur) n

/-- SEND to a core of the package: it adds one member to the launch at issue (R327); a destination outside the partition
drops it (R55). -/
def State.sendTo (s : State) (dest : Nat) (b : Word) (pl : List (GReg × Reg × Bool)) : State :=
  let r := s.release s.cur
  let t := r.2
  if t.takes t.myLaunch then
    let u := t.join t.myLaunch
    if t.inPartition t.me.vfid dest then u.post ⟨t.formed dest b 0 pl, .send, true, r.1, t.me.vfid, none⟩
    else (u.dropSend 1).endMember t.myLaunch .cancelled
  else t.dropSend 1

/-- SEND to another package (R338): the message leaves over UET with the sending package in LAUNCH; it adds no member. That of a
cancelled launch is dropped and counted (R327). -/
def State.sendOut (s : State) (x b : Word) (pl : List (GReg × Reg × Bool)) : State :=
  let t := (s.release s.cur).2
  if (mget t.launches t.myLaunch).any (·.cancelled) then t.dropSend 1
  else
    let m := { t.formed (bits x.toNat 0 16) b 0 pl with xpkg := true, launch := (t.sc.package).getD 0 }
    { t with sent := t.sent ++ [(bits x.toNat 16 16, m)] }

/-- SEND (R342). -/
def execSend (d a b : GReg) (n : Fin 7) (s : State) : Out :=
  let pl := s.me.payloadFrom d n.val
  s.issue { reads := [.g a, .g b] ++ payloadNames pl, commit := true } fun t =>
    let x := t.me.readG a
    let y := t.me.readG b
    t.readyUnless (x :: y :: payloadVals pl) (t.clean (x :: y :: payloadVals pl) 3) (t.clean [x, y] 3 (
      if x.tag = .data ∧ x.value.getLsbD 63 then
        if t.globalOk x.value pl then
          t.clean (payloadVals pl) 3 (t.outQueue fun u => .ok (u.sendOut x.value y.value pl))
        else t.msgFault
      else
        t.destOf x fun j u => u.clean (payloadVals pl) 3 (u.outQueue fun v => .ok (v.sendTo j y.value pl))))

/-! ## Groups (R334, R343, R344) -/

/-- SENDM to a multicast group (R335, R343): one member of the launch for each destination. -/
def State.multicast (s : State) (route : Nat) (members : List Nat) (b : Word) (pl : List (GReg × Reg × Bool)) : State :=
  let r := s.release s.cur
  let t := r.2
  let l := t.myLaunch
  let u := members.foldl (fun (acc : List Nat × State) j => if acc.2.takes l then (acc.1 ++ [j], acc.2.join l) else acc) ([], t)
  let v := u.2.dropSend (members.length - u.1.length)
  let p : Packet := ⟨t.formed 0 b 0x08 pl, .send, true, r.1, t.me.vfid, none⟩
  if u.1.isEmpty then v else { v with multis := v.multis ++ [⟨p, route, [⟨domeOf t.cur, true, u.1⟩]⟩] }

/-- SENDM (R343). -/
def execSendm (d a b : GReg) (n : Fin 7) (s : State) : Out :=
  let pl := s.me.payloadFrom d n.val
  s.issue { reads := [.g a, .g b] ++ payloadNames pl, commit := true } fun t =>
    let x := t.me.readG a
    let y := t.me.readG b
    t.readyUnless (x :: y :: payloadVals pl) (t.clean (x :: y :: payloadVals pl) 3) (t.clean [x, y] 3 (
      if 2 ^ 10 ≤ x.value.toNat then t.msgFault
      else
        match mget t.groups x.value.toNat with
        | some (.multicast vf route members) =>
          if vf = t.me.vfid then
            t.clean (payloadVals pl) 3 (t.outQueue fun u => .ok (u.multicast route members y.value pl))
          else t.msgFault
        | some (.reduction ..) | none => t.msgFault))

/-- A contributor's round of a group: how many rounds it has contributed to or missed (R336, R337). -/
def State.roundOf (s : State) (k g : Nat) : Nat := (mget (s.core k).rounds g).getD 0

/-- A contributor's round count advances. -/
def State.nextRound (s : State) (k g : Nat) : State :=
  s.setCore k { s.core k with rounds := mput (s.core k).rounds g (s.roundOf k g + 1) }

/-- One more packet of a round; the first opens it, and holds the group's launch (R336). -/
def State.contribute (s : State) (g l n : Nat) (part : Part) (ids : List Nat) : State :=
  let same (r : Round) : Bool := r.group == g && r.round == n
  if s.rounds.any same then
    { s with rounds := s.rounds.map fun r =>
        if same r then { r with parts := r.parts ++ [part], carried := r.carried ++ ids } else r }
  else { s.pin l with rounds := s.rounds ++ [⟨g, n, [part], [], ids, false⟩] }

/-- The oldest open round of a group. -/
def State.oldestRound (s : State) (g : Nat) : Option Nat :=
  ((s.rounds.filter fun r => r.group == g && !r.abandoned).map (·.round)).min?

/-- A round of a group is abandoned (R337): the round counts of its missing contributors advance. -/
def State.abandonRound (s : State) (g n : Nat) (contrib : List Nat) : State :=
  let missing := contrib.filter fun k => s.roundOf k g ≤ n
  let t : State := { s with rounds := s.rounds.map fun r => if r.group = g ∧ r.round = n then { r with abandoned := true } else r }
  missing.foldl (fun u k => u.nextRound k g) t

/-- The job of a live launch. -/
def State.jobOf (s : State) (l : Nat) : Option Nat := (mget s.launches l).map (·.desc.job)

/-- SENDR with ABANDON (R337): the oldest open round of the group ends, at the word of an activation of its job. -/
def State.sendAbandon (s : State) (g l : Nat) (contrib : List Nat) : State :=
  let t := (s.release s.cur).2
  if t.jobOf l = t.jobOf t.myLaunch then
    match t.oldestRound g with
    | some n => t.abandonRound g n contrib
    | none => t
  else t

/-- SENDR with a contribution (R336, R344). The contributor is named by KSELF, which a resumed activation keeps. -/
def State.sendPart (s : State) (g l i : Nat) (pl : List (GReg × Reg × Bool)) : State :=
  let r := s.release s.cur
  let k := r.2.me.kself
  (r.2.contribute g l (r.2.roundOf k g) ⟨domeOf k, BitVec.ofNat 64 (2 ^ i), payloadWords pl, some s.cur⟩ r.1).nextRound k g

/-- SENDR (R344). -/
def execSendr (d a : GReg) (n : Fin 6) (s : State) : Out :=
  let pl := s.me.payloadFrom d n.val
  s.issue { reads := .g a :: payloadNames pl, commit := true } fun t =>
    let x := t.me.readG a
    t.readyUnless (x :: payloadVals pl) (t.clean (x :: payloadVals pl) 3) (t.clean [x] 3 (
      if 2 ^ 11 ≤ x.value.toNat then t.msgFault
      else
        match mget t.groups (bits x.value.toNat 0 10) with
        | some (.reduction vf _ contrib _ _ _ _ _ nw l) =>
          let g := bits x.value.toNat 0 10
          if vf ≠ t.me.vfid then t.msgFault
          else if bit x.value.toNat 10 then
            if n = 0 then t.outQueue fun u => .ok (u.sendAbandon g l contrib) else t.msgFault
          else if !contrib.contains t.me.kself || l != t.myLaunch || n.val != nw then t.msgFault
          else t.clean (payloadVals pl) 3 (t.outQueue fun u => .ok (u.sendPart g l (contrib.idxOf t.me.kself) pl))
        | some (.multicast ..) | none => t.msgFault))

/-! ## The pinned slot and the class table (R34, R345 to R347) -/

/-- MREL (R345). -/
def execMrel (s : State) : Out :=
  s.issue { commit := true } fun t => .ok (t.setMe t.me.freePinned)

/-- A message of a class waits in the inbox (R34). -/
def Core.pend (c : Core) (cls : Nat) : Bool :=
  c.waiting.any fun i => match (c.slots[i.val]).msg with | some p => p.msg.cls == cls | none => false

/-- The bits of a class entry that are written: V, EN, PRI and PC[47:1] (R34). -/
def entryMask : Word := 0xC300FFFFFFFFFFFE

/-- A class entry as read, with its current PEND (R34, R346). -/
def Core.classEntry (c : Core) (i : Fin 64) : Word := c.classes[i.val] ||| (if c.pend i.val then 0x2000000000000000 else 0)

/-- An instruction on the entry of the class in a, with its fault (R346). -/
def State.onClass (s : State) (x : Reg) (k : Fin 64 → Res) : Res :=
  if 64 ≤ x.value.toNat then s.msgFault else k (Fin.ofNat 64 x.value.toNat)

/-- CLSW (R346). -/
def execClsw (d a b : GReg) (s : State) : Out :=
  s.issue (rrr d a b) fun t =>
    let x := t.me.readG a
    let y := t.me.readG b
    t.clean [x, y] 5 (t.ready [x, y] (t.onClass x fun i =>
      let c := { t.me with classes := t.me.classes.set i.val (y.value &&& entryMask) }
      .ok (t.setMe (c.setG d (Reg.data (t.me.classEntry i))))))

/-- CLSR (R346). -/
def execClsr (d a : GReg) (s : State) : Out :=
  s.issue (rr d a) fun t =>
    let x := t.me.readG a
    t.ready [x] (t.clean [x] 5 (t.onClass x fun i => t.writeG d (Reg.data (t.me.classEntry i))))

/-- A class entry with EN set to a bit (R346). -/
def withEn (e : Word) (b : Bool) : Word := if b then e ||| 0x4000000000000000 else e &&& ~~~(0x4000000000000000 : Word)

/-- CLSEN (R346). -/
def execClsen (d a b : GReg) (s : State) : Out :=
  s.issue (rrr d a b) fun t =>
    let x := t.me.readG a
    let y := t.me.readG b
    t.clean [x, y] 5 (t.ready [x, y] (t.onClass x fun i =>
      let c := { t.me with classes := t.me.classes.set i.val (withEn t.me.classes[i.val] (y.value.getLsbD 0)) }
      .ok (t.setMe (c.setG d (Reg.data (t.me.classEntry i))))))

/-- Header bytes 0 to 7 (R321). -/
def Msg.headerLo (m : Msg) : Word :=
  w64 (m.dest + m.src * 2 ^ 16 + (m.pri * 64 + m.cls) * 2 ^ 32 +
    (m.flags.toNat + (if m.incomplete then 64 else 0) + (if m.xpkg then 128 else 0)) * 2 ^ 40 + m.launch * 2 ^ 48)

/-- Header bytes 8 to 15 (R321). -/
def Msg.headerHi (m : Msg) : Word := w64 (m.time.toNat + m.ptag.toNat * 2 ^ 48)

/-- What CPND reads (R347). -/
def Core.cpnd (c : Core) (sel : Fin 3) : Word :=
  match sel.val with
  | 0 => w64 ((List.range 64).map fun i => if c.pend i then 2 ^ i else 0).sum
  | 1 => (c.pinnedMsg.map (·.msg.headerLo)).getD 0
  | _ => (c.pinnedMsg.map (·.msg.headerHi)).getD 0

/-- CPND (R347). -/
def execCpnd (d : GReg) (sel : Fin 3) (s : State) : Out :=
  s.issue { writes := [.g d] } fun t => t.writeG d (Reg.data (t.me.cpnd sel))

end Sys2Proof.Machine
end

