-- ==== Sys2Proof/Machine/Meridian.lean ====
section
/-! DEFINITION. The Meridian instructions: barrier channels and broadcast slots (R349 to R355). -/
namespace Sys2Proof.Machine

/-- The number of a channel in the package: 64 die-wide ones for each die, then the 16 package-wide ones (R349). -/
def chanKey (die c : Nat) : Nat := if c < 64 then die * 64 + c else 192 + c
/-- The number of a broadcast slot in the package (R349). -/
def slotKey (die c : Nat) : Nat := if c < 16 then die * 16 + c else 48 + c
/-- From registration to effect, in reference cycles (R350). -/
def chanDelay (key : Nat) : Nat := if key < 256 then 24 else 48
/-- The same for a broadcast slot (R350). -/
def slotDelay (key : Nat) : Nat := if key < 64 then 24 else 48

/-- A barrier channel. -/
def State.barrier (s : State) (key : Nat) : Barrier := (mget s.barriers key).getD Barrier.reset
/-- A broadcast slot. -/
def State.bcast (s : State) (key : Nat) : Bcast := (mget s.bcasts key).getD Bcast.reset

/-- A Meridian resource fault (R349). -/
def State.merFault (s : State) : Res := s.faultPc 17 0

/-- The channel that a channel word names, if the activation's virtual function owns it (R349, R354). -/
def State.onChannel (s : State) (x : Word) (k : Nat → Res) : Res :=
  let key := chanKey (dieOf s.cur) x.toNat
  if x.toNat < 80 ∧ (s.barrier key).vf = some s.me.vfid then k key else s.merFault

/-- The slot that a slot word names, if the activation's virtual function owns it (R349, R354). -/
def State.onSlot (s : State) (x : Word) (k : Nat → Res) : Res :=
  let key := slotKey (dieOf s.cur) x.toNat
  if x.toNat < 20 ∧ (s.bcast key).vf = some s.me.vfid then k key else s.merFault

/-- The phase that P will show once the flips on their way have come about (R351). -/
def Barrier.phase (b : Barrier) : Bool := xor b.p (b.flips.length % 2 == 1)

/-- The tick that registers an arrival of core k made in reference cycle rc: this one, or the next where a core of a higher
KID has registered in it already (R350, R351). DEDUCED (log 73), unsafe. -/
def Barrier.tickOf (b : Barrier) (k rc : Nat) : Nat :=
  match b.last with
  | some (t, j) => if t < rc then rc else if j < k then t else t + 1
  | none => rc

/-- An arrival of core k registered (R351): those of one tick are taken in ascending KID. -/
def Barrier.arrive (b : Barrier) (k rc delay : Nat) : Barrier :=
  let t := b.tickOf k rc
  if b.count + 1 = b.parties then { b with count := 0, flips := b.flips ++ [t + delay], last := some (t, k) }
  else { b with count := b.count + 1, last := some (t, k) }

/-- MBAR (R355). -/
def execMbar (d a : GReg) (s : State) : Out :=
  s.issue { rr d a with commit := true } fun t =>
    let x := t.me.readG a
    t.ready [x] (t.clean [x] 5 (t.onChannel x.value fun key =>
      let b := t.barrier key
      let u : State := { t with barriers := mput t.barriers key (b.arrive t.cur t.rc (chanDelay key)) }
      u.writeG d (Reg.data (boolWord b.phase))))

/-- MWAIT (R355). -/
def execMwait (a b : GReg) (s : State) : Out :=
  s.issue { reads := [.g a, .g b] } fun t =>
    let x := t.me.readG a
    let y := t.me.readG b
    t.clean [x, y] 5 (t.ready [x, y] (t.onChannel x.value fun key =>
      if (t.barrier key).p = y.value.getLsbD 0 then .wait .mwait t else .ok t))

/-- A write put among those on their way, by tick and then by core (R352). -/
def mbcInsert (x : Nat × Nat × BitVec 32) : List (Nat × Nat × BitVec 32) → List (Nat × Nat × BitVec 32)
  | [] => [x]
  | y :: rest => if x.1 < y.1 ∨ (x.1 = y.1 ∧ x.2.1 < y.2.1) then x :: y :: rest else y :: mbcInsert x rest

/-- MBC (R355). -/
def execMbc (a b : GReg) (s : State) : Out :=
  s.issue { reads := [.g a, .g b], commit := true } fun t =>
    let x := t.me.readG a
    let y := t.me.readG b
    t.clean [x, y] 5 (t.ready [x, y] (t.onSlot x.value fun key =>
      let c := t.bcast key
      let c1 := { c with pending := mbcInsert (t.rc + slotDelay key, t.cur, y.value.truncate 32) c.pending }
      .ok { t with bcasts := mput t.bcasts key c1 }))

/-- MRCV (R355): the ephemeris resolves when a slot's state that meets the sequence is seen. -/
def execMrcv (d a b : GReg) (s : State) : Out :=
  s.issue (rrr d a b) fun t =>
    let x := t.me.readG a
    let y := t.me.readG b
    t.clean [x, y] 5 (t.ready [x, y] (t.onSlot x.value fun key =>
      t.lateG d .i64 fun res u =>
        match res with
        | some r => .ok (u.setMe { u.me with bc := u.me.bc ++ [(key, r, y.value)] })
        | none => .ok u))

/-- A slot's sequence meets what an MRCV waits for (R355). -/
def seqMeets (s : BitVec 32) (want : Word) : Bool := decide ((s - want.truncate 32).toNat < 2 ^ 31)

/-! ## Completion (R350 to R352) -/

/-- The flips of a channel whose tick has come show (R351). -/
def Barrier.complete (b : Barrier) (rc : Nat) : Barrier :=
  let due := b.flips.filter fun t => decide (t ≤ rc)
  { b with p := xor b.p (due.length % 2 == 1), flips := b.flips.filter fun t => !decide (t ≤ rc) }

/-- A channel with the flips whose tick has come (R351). -/
def State.barrierDue (s : State) (c : Nat) : State := { s with barriers := mmod s.barriers c fun b => b.complete s.rc }

/-- BARRIER_COMPLETION (R351): P flips at every core of the channel. -/
def execBarrierCompletion (c : Nat) (s : State) : Out := .next (s.barrierDue c)

/-- The writes of a slot whose tick has come show: the last value stands, and each adds 1 to the sequence (R352). -/
def Bcast.complete (b : Bcast) (rc : Nat) : Bcast :=
  let due := b.pending.filter fun t => decide (t.1 ≤ rc)
  { b with
    value := ((due.getLast?).map fun e => e.2.2).getD b.value
    seq := b.seq + BitVec.ofNat 32 due.length
    pending := b.pending.filter fun t => !decide (t.1 ≤ rc) }

/-- The ephemerides of a core that wait for a slot resolve where its sequence meets theirs (R355). -/
def Core.receive (key : Nat) (b : Bcast) (c : Core) : Core :=
  let met (e : Nat × SymRef × Word) : Bool := e.1 == key && seqMeets b.seq e.2.2
  let c1 := { c with bc := c.bc.filter fun e => !met e }
  (c.bc.filter met).foldl (fun acc e => acc.resolve e.2.1 (Reg.data (b.value.zeroExtend 64))) c1

/-- A slot with the writes whose tick has come; a core that takes part in an exchange sees them at its end (R352, R389). -/
def State.bcastDue (s : State) (c : Nat) : State :=
  let b := (s.bcast c).complete s.rc
  { s with
    bcasts := mmod s.bcasts c fun _ => b
    cores := s.cores.map fun x => (x.1, if s.held x.1 then x.2 else x.2.receive c b) }

/-- BROADCAST_COMPLETION (R352, R355). -/
def execBroadcastCompletion (c : Nat) (s : State) : Out := .next (s.bcastDue c)

end Sys2Proof.Machine
end

