-- ==== Sys2Proof/Machine/Work.lean ====
section
/-! DEFINITION. The instructions that create and govern work: SPAWN, LAUNCH, CANCEL, GARM and GREL (R53, R54, R152 to
R158). -/
namespace Sys2Proof.Machine

/-! ## SPAWN (R53, R154) -/

/-- The lowest-numbered free reserved slot (R323, R411). -/
def Core.freeReserved (c : Core) : Option (Fin 32) :=
  (List.finRange 32).find? fun i => decide (28 ≤ i.val) && c.slots[i.val] == .free

/-- SPAWN sends: it reserves the landing of a bounce; without a free reserved slot, or toward a core outside the
partition, its status is 1 (R53). The message names its launch by index and stamp (R54). -/
def State.spawn (s : State) (dest : Nat) (b : Word) (pl : List (GReg × Reg × Bool)) (res : Option SymRef) : State :=
  match s.me.freeReserved with
  | none => s.status s.cur res 1
  | some i =>
    if s.inPartition s.me.vfid dest then
      let r := s.release s.cur
      let t := r.2.setMe { r.2.me with slots := r.2.me.slots.set i.val .landing }
      t.post ⟨t.formed dest b 0x02 pl, .spawn res i.val ((mget t.launches t.myLaunch).map (·.born)), false, r.1, s.me.vfid, none⟩
    else (s.count (.spawnRefused s.cur)).status s.cur res 1

/-- SPAWN (R154): its payload stands in the registers from g3 up. -/
def execSpawn (d a b : GReg) (n : Fin 7) (s : State) : Out :=
  let pl := s.me.payloadFrom 3 n.val
  s.issue { reads := [.g a, .g b] ++ payloadNames pl, writes := [.g d], commit := true } fun t =>
    let x := t.me.readG a
    let y := t.me.readG b
    t.readyUnless (x :: y :: payloadVals pl) (t.clean (x :: y :: payloadVals pl) 3) (t.clean [x, y] 3 (t.destOf x fun j u =>
      u.clean (payloadVals pl) 3 (u.lateG d .i64 fun res v => .ok (v.spawn j y.value pl res))))

/-! ## Requests to the Orrery (R153) -/

/-- Who issues the requests of the activation whose turn it is. DEDUCED (log 25), unsafe: where its launch is no longer
live it has no job, and job 1024 stands, which no instance has. -/
def State.asker (s : State) : Asker :=
  let l := s.myLaunch
  match mget s.launches l with
  | some x => ⟨s.cur, s.rc, l, some x.born, x.desc.job, s.me.vfid, s.me.asid,
      if x.desc.gv then some x.desc.graph else none, some x.desc.phase⟩
  | none => ⟨s.cur, s.rc, l, none, 1024, s.me.vfid, s.me.asid, none, none⟩

/-- Who issued a request. -/
def OrreryReq.who : OrreryReq → Asker
  | .launch a _ _ _ | .cancel a _ _ _ | .garm a _ _ _ _ _ | .grel a _ _ => a

/-- A request put among those that wait: by reference cycle, within one in ascending KID, those of one core in issue order
(R153). -/
def askIn (r : OrreryReq) : List OrreryReq → List OrreryReq
  | [] => [r]
  | q :: rest =>
    if r.who.since < q.who.since ∨ (r.who.since = q.who.since ∧ r.who.core < q.who.core) then r :: q :: rest
    else q :: askIn r rest

/-- A request joins those that wait at the Orrery (R153). DEDUCED (log 59), unsafe. -/
def State.ask (s : State) (r : OrreryReq) : State := { s with oreqs := askIn r s.oreqs }

/-- The operand of LAUNCH or GARM (R155, R157): a capability with R over `n` bytes, aligned to 64. DESIGN CHOICE (log 82), unsafe: the
capability is checked before the alignment. -/
def State.imageAt (s : State) (x : Reg) (n : Nat) (perms : List Perm) (k : Res) : Res :=
  match capFault x x.value.toNat n perms with
  | 0 => if x.value.toNat % 64 ≠ 0 then .fault 4 0 x.value 0 s else k
  | e => .fault 5 e x.value 0 s

/-- LAUNCH (R155). -/
def execLaunch (d a : GReg) (s : State) : Out :=
  s.issue { rr d a with commit := true } fun t =>
    let x := t.me.readG a
    t.ready [x] (t.clean [x] 1 (t.imageAt x 128 [.r] (t.lateG d .i64 fun res u =>
      let r := u.release u.cur
      .ok (r.2.ask (.launch u.asker res x.value.toNat r.1)))))

/-- CANCEL (R156). -/
def execCancel (d a : GReg) (lv : Level) (s : State) : Out :=
  s.issue { rr d a with commit := true } fun t =>
    let x := t.me.readG a
    t.ready [x] (t.clean [x] 5 (t.lateG d .i64 fun res u => .ok (u.ask (.cancel u.asker res lv x.value))))

/-- GARM (R157). -/
def execGarm (d a b : GReg) (s : State) : Out :=
  s.issue { rrr d a b with commit := true } fun t =>
    let x := t.me.readG a
    let y := t.me.readG b
    t.clean [x] 1 (t.clean [y] 5 (t.ready [x, y] (t.imageAt x 64 [.r] (t.lateG d .i64 fun res u =>
      let r := u.release u.cur
      .ok (r.2.ask (.garm u.asker res x.value.toNat (hasPerm x.info .near) y.value r.1))))))

/-- GREL (R158). -/
def execGrel (d a : GReg) (s : State) : Out :=
  s.issue { rr d a with commit := true } fun t =>
    let x := t.me.readG a
    t.ready [x] (t.clean [x] 5 (t.lateG d .i64 fun res u => .ok (u.ask (.grel u.asker res x.value))))

end Sys2Proof.Machine
end

