-- ==== Sys2Proof/Machine/Anchor.lean ====
section
/-! DEFINITION. The instructions of anchored tasks: ANQ, ANQB, AQCF, NLEASE, NFREE and TRET (R76 to R82). -/
namespace Sys2Proof.Machine

/-! ## ANQ and ANQB (R77, R78) -/

/-- The places of `n` descriptors of 64 bytes from an address up, each translated with page right R (R77). -/
def State.descPlaces (s : State) : Nat → Nat → (List Place → State → Res) → Res
  | 0, _, k => k [] s
  | n + 1, va, k =>
    s.inWindow va fun w =>
      match s.translate s.cur w [.read] with
      | (.error d, t) => .fault 6 d (w64 w) 0 t
      | (.ok p, t) =>
        if s.me.wmBlocked w 64 then .wait .watermark s
        else if s.heldAt p.pa then .wait .exchange s
        else State.descPlaces (t.passWm w 64) n (va + 64) fun l u => k (p :: l) u

/-- The DETAIL of the capability fault of an anchor capability (R77); 0 where it may enqueue. -/
def anchorFault (y : Reg) : Nat :=
  if y.tag != .cap then 1 else if malformed y.info y.value then 2 else if hasPerm y.info .near then 0 else 4

/-- One descriptor as the issuing core loads it; none where it met poison (R78). -/
def State.loadDesc (s : State) (p : Place) : Option (BitVec 512) × State :=
  let r := s.load s.cur p.pa 64 (cachedPlace p)
  (if r.1.marks.any Option.isSome then none else some (BitVec.ofNat 512 (leNat r.1.bytes)), r.2)

/-- The descriptors, as one read (R78). -/
def State.loadDescs (s : State) : List Place → List (Option (BitVec 512)) × State
  | [] => ([], s)
  | p :: rest =>
    let r := s.loadDesc p
    let q := State.loadDescs r.2 rest
    (r.1 :: q.1, q.2)

/-- ANQ or ANQB of `n` tasks (R78). The tasks hold the launch from the issue on (R69). DEDUCED (log 62), unsafe. -/
def State.enqueueTasks (s : State) (d a b : GReg) (n : Nat) : Out :=
  s.issue { rrr d a b with commit := true } fun t =>
    let x := t.me.readG a
    let y := t.me.readG b
    t.clean [x, y] 1 (t.ready [x, y] (t.imageAt x (64 * n) [.r] (
      match anchorFault y with
      | 0 =>
        t.descPlaces n x.value.toNat fun ps u => u.lateG d .i64 fun res v =>
          let r := v.release v.cur
          let q := r.2.loadDescs ps
          let rq := HomeReq.enqueue q.2.asker res q.1
            (capBase y.info y.value).toNat (capTop y.info y.value).toNat (capPerms y.info) r.1
          .ok ({ q.2 with hreqs := q.2.hreqs ++ [rq] }.pin q.2.myLaunch)
      | e => .fault 5 e y.value 0 t)))

/-- ANQ (R78). -/
def execAnq (d a b : GReg) (s : State) : Out := s.enqueueTasks d a b 1
/-- ANQB (R78). -/
def execAnqb (d a b : GReg) (n1 : Fin 16) (s : State) : Out := s.enqueueTasks d a b (n1.val + 1)

/-! ## AQCF, NLEASE and NFREE (R77, R79 to R81) -/

/-- The home that a home capability names (R77). -/
def State.homeAt (s : State) (x : Reg) (k : Nat → State → Res) : Res :=
  match capFault x x.value.toNat 1 [.near] with
  | 0 =>
    match s.translate s.cur x.value.toNat [] with
    | (.error d, t) => .fault 6 d x.value 0 t
    | (.ok p, t) => if isDram p.pa then k (homeOfPa p.pa) t else .fault 6 7 x.value 0 t
  | e => .fault 5 e x.value 0 s

/-- A request to the home that a names, with the word in b. -/
def State.homeRequest (s : State) (d a b : GReg) (f : Nat → Word → Option SymRef → State → HomeReq × State) : Out :=
  s.issue { rrr d a b with commit := true } fun t =>
    let x := t.me.readG a
    let y := t.me.readG b
    t.clean [x] 1 (t.clean [y] 5 (t.ready [x, y] (t.homeAt x fun h u => u.lateG d .i64 fun res v =>
      let r := f h y.value res v
      .ok { r.2 with hreqs := r.2.hreqs ++ [r.1] })))

/-- AQCF (R79). -/
def execAqcf (d a b : GReg) (s : State) : Out :=
  s.homeRequest d a b fun h w res t => (.config t.cur res h w, t)

/-- NLEASE (R80): a count above 2^32 - 1 saturates. -/
def execNlease (d a b : GReg) (s : State) : Out :=
  s.homeRequest d a b fun h w res t => (.lease t.cur res h t.myLaunch t.asker.born (min w.toNat (2 ^ 32 - 1)), t)

/-- NFREE (R81): with a message requested it pins the launch from issue (R424). -/
def execNfree (d a b : GReg) (s : State) : Out :=
  s.homeRequest d a b fun h w res t =>
    (.free t.cur res h t.myLaunch t.asker.born w, if w.getLsbD 6 then t.pin t.myLaunch else t)

/-! ## TRET (R82) -/

/-- TRET of a length (R82). -/
def State.tretOf (s : State) (len : Nat) : Out :=
  s.issue { commit := true, len := len } fun t =>
    match t.me.act with
    | none => .ended t
    | some a =>
      match a.kind with
      | .task _ =>
        let r := t.release t.cur
        .ended ((r.2.leave t.cur).endUnit a .done r.1)
      | _ => t.faultPc 10 1

/-- TRET (R82). -/
def execTret (s : State) : Out := s.tretOf 4
/-- C.TRET (R113). -/
def execCTret (s : State) : Out := s.tretOf 2

end Sys2Proof.Machine
end

