-- ==== Sys2Proof/Machine/Home.lean ====
section
/-! DEFINITION. What the homes do: enqueueing, configuration, leases and refresh (R32, R33, R63 to R65, R69, R73 to R75,
R78 to R81, R405). -/
namespace Sys2Proof.Machine

/-! ## Task descriptors (R32, R33) -/

/-- A task descriptor's fields (R32). -/
def parseTask (d : Nat) : TaskDesc where
  anchor := bits d 0 48
  alen := bits d 48 12
  nearpc := bits d 64 48
  queue := bits d 187 3
  farOnly := bit d 186
  nearOnly := bit d 185
  ordered := bit d 184
  fclass := bits d 176 6
  farpc := w64 (bits d 128 48)
  tkind := bits d 254 2
  tidx := match bits d 254 2 with | 1 => bits d 192 12 | 2 => bits d 192 10 | _ => bits d 192 16
  args := Vector.ofFn fun i : Fin 4 => w64 (bits d (256 + 64 * i.val) 64)

/-- A reserved field of a task descriptor is nonzero (R32). -/
def taskReserved (d : Nat) : Bool :=
  bits d 60 4 != 0 || bits d 112 16 != 0 || bits d 190 2 != 0 || bits d 182 2 != 0 || bits d 208 46 != 0

/-- Who enqueues: the agent that translates, the core on whose behalf it does, the virtual function, ASID, job and launch, the
anchor capability's bounds and permissions, and the TCB whose body the task is (R31, R33, R78). -/
structure Enqueuer where
  viewer : Viewer
  core : Nat
  vf : Nat
  asid : Nat
  job : Nat
  launch : Nat
  bounds : Option (Nat × Nat)
  perms : Nat
  tcb : Option Nat
deriving DecidableEq, Repr

/-- An anchor is translated (R63): the walk sets A, and D where the near body may store to it. DESIGN CHOICE (log 17), unsafe: the
home's step walks afresh, by no TLB; the near body's stores set D no more. -/
def State.anchorWalk (q : Enqueuer) (s : State) (raw : Nat) : State :=
  let d := parseTask raw
  let r := s.walkTo q.viewer q.vf q.asid d.anchor []
  match r.1 with
  | .ok x =>
    if isDram x.1.pa && x.2.w && bit q.perms 6 && !d.farOnly then (r.2.walkTo q.viewer q.vf q.asid d.anchor [.write]).2 else r.2
  | .error _ => r.2

/-- The anchor's place and its page's rights, where it is DRAM (R63). -/
def State.anchorLeaf (s : State) (q : Enqueuer) (va : Nat) : Option (Place × Leaf) :=
  match (s.walkTo q.viewer q.vf q.asid va []).1 with
  | .ok r => if isDram r.1.pa then some r else none
  | .error _ => none

/-- The target may take the task (R33). -/
def State.targetOk (s : State) (q : Enqueuer) (d : TaskDesc) : Bool :=
  match d.tkind with
  | 0 => true
  | 1 =>
    match mget s.launches d.tidx with
    | some l => l.desc.job == q.job && !l.counts.isFull
    | none => false
  | 2 =>
    match mget s.graphs d.tidx with
    | some g => g.job == q.job && !g.counts.closed && !g.counts.isFull
    | none => false
  | _ =>
    let t := s.tcb d.tidx
    t.kind == 2 && t.state == .running && decide (0 < t.tasks) && t.owner.job == q.job

/-- The target of a task: for the body of a TCB, that TCB (R30). -/
def Enqueuer.target (q : Enqueuer) (d : TaskDesc) : TaskDesc :=
  match q.tcb with
  | some t => { d with tkind := 3, tidx := t }
  | none => d

/-- The checks of one descriptor (R78): the codes that apply, but for those of the batch. -/
def State.taskCodes (s : State) (q : Enqueuer) (raw : Nat) : List Nat :=
  let d := parseTask raw
  (if taskReserved raw || (d.farOnly && d.nearOnly) then [1] else []) ++
  (if 4096 < d.anchor % 4096 + d.alen + 1 then [2] else []) ++
  (match q.bounds with
    | some (lo, hi) => if d.anchor < lo ∨ hi < d.anchor + d.alen + 1 then [3] else []
    | none => []) ++
  (if (s.anchorLeaf q d.anchor).isNone then [4] else []) ++
  (if q.tcb.isNone && !s.targetOk q d then [5] else []) ++
  (if (!d.nearOnly && d.farpc.getLsbD 0) || (!d.farOnly && d.nearpc % 64 != 0) then [8] else [])

/-- The home and queue of a descriptor, where its anchor translates to DRAM. -/
def State.taskQueue (s : State) (q : Enqueuer) (raw : Nat) : Option (Nat × Nat) :=
  (s.anchorLeaf q (parseTask raw).anchor).map fun r => (homeOfPa r.1.pa, (parseTask raw).queue)

/-- The codes of a batch (R78): room in the queue, and one home and queue for all. -/
def State.batchCodes (s : State) (q : Enqueuer) (raws : List Nat) : List Nat :=
  match raws.map (s.taskQueue q) with
  | some (h, i) :: rest =>
    (if 4096 < ((s.home h).queue i).entries.length + raws.length then [6] else []) ++
    (if rest.any fun r => r != some (h, i) then [7] else [])
  | _ => []

/-- The context launch of a task (R69). -/
def Enqueuer.context (q : Enqueuer) (d : TaskDesc) : Nat :=
  if q.tcb.isNone ∧ d.tkind = 1 then d.tidx else q.launch

/-- One entry made (R64, R68, R69, R33). It holds its context launch. -/
def State.addEntry (q : Enqueuer) (h qi : Nat) (ids : List Nat) (s : State) (raw : Nat) : State :=
  let d := q.target (parseTask raw)
  match s.anchorLeaf q d.anchor with
  | none => s
  | some r =>
    let x := s.home h
    let e : Entry := {
      seq := (x.queue qi).counter
      cond := .waiting
      headerRead := false
      passed := false
      desc := d
      pa := r.1.pa
      perms := w64 (q.perms &&& 0xDB)
      pageR := r.2.r
      pageW := r.2.w
      sc := r.2.sc
      ctx := q.context d
      core := q.core
      carried := ids
      turn := 0 }
    let y := x.modQueue qi fun w => { w with entries := w.entries ++ [e], counter := (w.counter + 1) % 2 ^ 32 }
    let s1 := (s.setHome h y).pin e.ctx
    match d.tkind with
    | 1 => s1.join d.tidx
    | 2 => { s1 with graphs := mmod s1.graphs d.tidx fun g => { g with counts := g.counts.join } }
    | 3 => s1.setTcb d.tidx { s1.tcb d.tidx with tasks := (s1.tcb d.tidx).tasks + 1 }
    | _ => s1

/-- No batch may carry MEMBERS of a launch or graph past 2^32 - 1 (R24, R78): how many of its tasks the target of each one
counts, with that target's MEMBERS. DESIGN CHOICE (log 69), unsafe: such a batch draws code 5. -/
def State.overfills (s : State) (q : Enqueuer) (raws : List Nat) (raw : Nat) : Bool :=
  let d := parseTask raw
  let n := (raws.filter fun r => (parseTask r).tkind == d.tkind && (parseTask r).tidx == d.tidx).length
  let past (c : Counts) : Bool := decide (2 ^ 32 - 1 < c.members + n)
  q.tcb.isNone && (match d.tkind with
    | 1 => (mget s.launches d.tidx).any fun l => past l.counts
    | 2 => (mget s.graphs d.tidx).any fun g => past g.counts
    | _ => false)

/-- A batch at its home (R78): its anchors are translated, and it is refused whole, or every entry is made and the offer rule
applied. -/
def State.enqueueAt (s0 : State) (q : Enqueuer) (descs : List (Option (BitVec 512))) (ids : List Nat) : Word × State :=
  if descs.any Option.isNone then (refusal 9, s0)
  else
    let raws := descs.map fun d => (d.getD 0).toNat
    let s := raws.foldl (State.anchorWalk q) s0
    let full := if raws.any (s.overfills q raws) then [5] else []
    match (raws.flatMap (s.taskCodes q) ++ full ++ s.batchCodes q raws).min? with
    | some c => (refusal c, s)
    | none =>
      match raws.head?.bind (s.taskQueue q) with
      | none => (refusal 4, s)
      | some (h, qi) =>
        let seq := ((s.home h).queue qi).counter
        let t := raws.foldl (State.addEntry q h qi ids) s
        (w64 (qi * 2 ^ 41 + h * 2 ^ 32 + seq), t.offerQueue h qi)

/-- HOME_ENQUEUE (R78): the n-th request on its way to a home; from its issue until then it holds the issuer's launch (R69,
log 62). -/
def execHomeEnqueue (n : Nat) (s : State) : Out :=
  match s.hreqs[n]? with
  | some (.enqueue who res descs base top perms carried) =>
    let t : State := { s with hreqs := dropAt s.hreqs n }
    let q : Enqueuer := ⟨.core who.core, who.core, who.vf, who.asid, who.job, who.launch, some (base, top), perms, none⟩
    let r := t.enqueueAt q descs carried
    .next ((r.2.status who.core res r.1).unpin who.launch)
  | _ => .next s

/-! ## AQCF (R79) -/

/-- The refresh debt: the most commands postponed for a bank (R74). -/
def Home.debt (x : Home) : Nat := x.refresh.foldl (fun m e => max m e.2) 0

/-- Leased mode, which lasts until the return to shared mode is complete (R73, R75). DEDUCED (log 63), unsafe: AQCF's LEASED
reads 1 until then, while an NFREE after the lease's end finds the home not leased. -/
def Home.leased (x : Home) : Bool := x.lease.isSome || x.returning

/-- The status of AQCF: the queue as it stands (R79). -/
def Home.queueStatus (x : Home) (i : Nat) : Word :=
  let q := x.queue i
  w64 (x.debt * 2 ^ 56 + (if x.leased then 2 ^ 55 else 0) + q.dpri * 2 ^ 53 + q.depth * 2 ^ 32 +
    q.entries.length * 2 ^ 16 + q.thresh)

/-- HOME_QUEUE_CONFIGURE (R79). -/
def execHomeQueueConfigure (n : Nat) (s : State) : Out :=
  match s.hreqs[n]? with
  | some (.config core res h word) =>
    let t : State := { s with hreqs := dropAt s.hreqs n }
    let w := word.toNat
    if bits w 20 43 ≠ 0 ∨ bits w 12 3 ≠ 0 then .next (t.status core res (refusal 1))
    else
      let qi := bits w 15 3
      let st := (t.home h).queueStatus qi
      let u := if bit w 63 then
          (t.setHome h ((t.home h).modQueue qi fun q => { q with thresh := bits w 0 12, dpri := bits w 18 2 })).offerQueue h qi
        else t
      .next (u.status core res st)
  | _ => .next s

/-! ## Leases (R73, R75, R80, R81, R405) -/

/-- The launch of an index is still the one that a request names by its stamp. -/
def State.sameLaunch (s : State) (launch : Nat) (born : Option Nat) : Bool := (mget s.launches launch).map (·.born) == born

/-- HOME_LEASE_REQUEST (R80). A launch that has taken over the index of the requester's is another launch. During the recalibration of its stack it is refused (R405). DESIGN CHOICE (log 64), unsafe: it
waits while the home returns to shared mode; the lease of a launch that has completed since the issue ends as it is granted. -/
def execHomeLeaseRequest (n : Nat) (s : State) : Out :=
  match s.hreqs[n]? with
  | some (.lease core res h launch born count) =>
    let x := s.home h
    let t : State := { s with hreqs := dropAt s.hreqs n }
    let other := match x.lease with | some l => l.1 != launch || !s.sameLaunch launch born | none => false
    if (s.stack (stackOfHome h)).recal || other then .next (t.status core res (refusal 1))
    else if count = 0 then .next (t.status core res (refusal 2))
    else if x.returning then .next s
    else
      let y := { x with lease := some (launch, s.rc + count) }
      .next ((t.setHome h (if s.sameLaunch launch born then y else y.endLease)).status core res 0)
  | _ => .next s

/-- HOME_LEASE_FREE (R81). A refused NFREE sends no message, and its pin ends. -/
def execHomeLeaseFree (n : Nat) (s : State) : Out :=
  match s.hreqs[n]? with
  | some (.free core res h launch born word) =>
    let x := s.home h
    let t : State := { s with hreqs := dropAt s.hreqs n }
    let off (c : Nat) : State :=
      let u := t.status core res (refusal c)
      if word.getLsbD 6 then u.unpin launch else u
    match x.lease with
    | none => .next (off 3)
    | some l =>
      if l.1 ≠ launch ∨ s.sameLaunch launch born = false then .next (off 1)
      else if 128 ≤ word.toNat then .next (off 4)
      else
        let note : FreeNote := ⟨core, res, if word.getLsbD 6 then some (bits word.toNat 0 6) else none, launch⟩
        .next (t.setHome h { x.endLease with notes := x.notes ++ [note] })
  | _ => .next s

/-- A home whose lease's time has come (R73). -/
def Home.expire (x : Home) (now : Nat) : Home := if x.lease.any fun l => decide (l.2 ≤ now) then x.endLease else x

/-- LEASE_EXPIRY (R73): the lease's time has come. -/
def execLeaseExpiry (h : Nat) (s : State) : Out :=
  if (s.home h).lease.any fun l => decide (l.2 ≤ s.rc) then .next (s.setHome h (s.home h).endLease) else .next s

/-- The leases whose time has come end in the cycle in which it comes (R73). -/
def State.expireLeases (s : State) : State := { s with homes := s.homes.map fun h => (h.1, h.2.expire s.rc) }

/-- A completion message to a reserved slot of a core: it adds a member to the launch, whose pin it ends (R81, R250,
R424). DESIGN CHOICE (log 87), unsafe: the header of an NFREE's has PRI 0, as that of a copy has. -/
def State.completion (s : State) (engine : Engine) (core launch cls : Nat) (words : List Word) (ids : List Nat) : State :=
  let ok := s.canJoin launch
  let t := if ok then s.join launch else s
  (t.post ⟨t.message core core 0 cls launch 0 words, .completion, ok, ids, (t.core core).vfid, some engine⟩).unpin launch

/-- An NFREE answered at step 5 of R75 (R81). -/
def State.answerFree (h : Nat) (s : State) (f : FreeNote) : State :=
  let t := s.status f.core f.res 0
  match f.cls with
  | some c => t.completion (.home h) f.core f.launch c [w64 h, 0, 0, 0, 0, w64 t.time] []
  | none => t

/-- A postponed refresh of each bank is issued. -/
def Home.repay (x : Home) : Home :=
  let r := (x.refresh.map fun e => (e.1, e.2 - 1)).filter fun e => e.2 != 0
  { x with refresh := r, burst := x.burst && !r.isEmpty }

/-- No near unit of the home runs a task (R75). -/
def Home.quiet (x : Home) : Bool := x.units.toList.all fun u => u.mode == .idle

/-- LEASE_RETURN_TO_SHARED (R75): steps 2 to 5, once no task runs. -/
def execLeaseReturnToShared (h : Nat) (s : State) : Out :=
  let x := s.home h
  if x.returning && x.quiet then
    let t := s.setHome h { (if x.burst then { x with refresh := [], burst := false } else x.repay) with
      lease := none
      returning := false
      notes := [] }
    .next (x.notes.foldl (State.answerFree h) t)
  else .next s

/-! ## Refresh (R74) -/

/-- The entry of the task whose accesses a near unit makes. -/
def Home.taskOf (x : Home) (u : NearUnit) : Option Entry :=
  match u.mode with
  | .running q seq | .retiring q seq => (x.queue q).find seq
  | .idle | .header _ _ => none

/-- A bank of the home has a near access queued: a chunk on its way or a store in a write queue (R74, R313, R315). Which
bank a byte lies in, the implementation fixes (log 65). -/
def Home.nearBusy (x : Home) (bank : Nat) : Bool :=
  x.units.toList.any fun u =>
    match x.taskOf u with
    | some e =>
      let place (off : Nat) : Nat := Config.bankOf (e.pa / 32 * 32 + off)
      (u.fifo.any fun c => c.arrived.isNone && place c.off == bank) || u.writes.any fun w => place w.off == bank
    | none => false

/-- One postponed refresh of a bank is issued. -/
def Home.repayBank (x : Home) (bank : Nat) : Home :=
  let r := (x.refresh.map fun e => (e.1, if e.1 = bank then e.2 - 1 else e.2)).filter fun e => e.2 != 0
  { x with refresh := r, burst := x.burst && !r.isEmpty }

/-- REFRESH_DUE (R74): in leased mode the home may postpone one more refresh of a bank, up to 8, and below a debt of 8 it
issues a postponed one where the bank has no near access queued; in shared mode one that was postponed is repaid. -/
def execRefreshDue (h bank : Nat) (s : State) : Out :=
  let x := s.home h
  if x.leased then
    if Config.freeBool s.fresh then
      let y := { x with refresh := mput x.refresh bank (min 8 ((mget x.refresh bank).getD 0 + 1)) }
      .next (s.draw.setHome h { y with burst := y.burst || decide (8 ≤ y.debt) })
    else if x.debt < 8 ∧ x.nearBusy bank = false then .next (s.draw.setHome h (x.repayBank bank))
    else .next s.draw
  else .next (s.setHome h (x.repayBank bank))

/-- REFRESH_BURST (R74): once the debt has reached 8, one refresh of every bank with postponed ones; taking resumes when
the debt is 0. -/
def execRefreshBurst (h : Nat) (s : State) : Out :=
  if (s.home h).burst then .next (s.setHome h (s.home h).repay) else .next s

end Sys2Proof.Machine
end

