-- ==== Sys2Proof/Machine/Copy.lean ====
section
/-! DEFINITION. The copy channels and the stack reduction engines (R242 to R263, R424). -/
namespace Sys2Proof.Machine

/-! ## The request (R243 to R246) -/

/-- SHAPE.FLAG (R244). -/
def shFlag (sh : Word) : Bool := sh.getLsbD 39
/-- SHAPE.MSG (R244). -/
def shMsg (sh : Word) : Bool := sh.getLsbD 38
/-- SHAPE.TAGS (R244). -/
def shTags (sh : Word) : Bool := sh.getLsbD 37
/-- SHAPE.CH (R244). -/
def shCh (sh : Word) : Nat := bits sh.toNat 40 2
/-- SHAPE.MCLASS (R244). -/
def shClass (sh : Word) : Nat := bits sh.toNat 42 6
/-- SHAPE.FVAL (R244). -/
def shVal (sh : Word) : Nat := bits sh.toNat 48 16

/-- An operand is a remote word (R246). -/
def isRemote (x : Reg) : Bool := x.tag == .data && x.value.getLsbD 63
/-- The package of a remote word (R246). -/
def remotePkg (x : Word) : Nat := bits x.toNat 48 15
/-- The side that an operand names. -/
def sideOf (x : Reg) : CopySide :=
  if isRemote x then .remote (remotePkg x.value) (bits x.value.toNat 0 48) else .here x.value.toNat

/-- Cause, detail and address of the fault of a copy request, if any (R245): copy shape, capability, alignment, in this
order. -/
def State.copyCheck (s : State) (src dst flg : Reg) (sh : Word) : Option (Nat × Nat × Word) :=
  let own (x : Reg) : Bool := isRemote x && s.sc.package == some (remotePkg x.value)
  let cap (x : Reg) (n : Nat) (p : List Perm) : Option (Nat × Nat × Word) :=
    match capFault x x.value.toNat n p with
    | 0 => none
    | d => some (5, d, x.value)
  let far : Option Reg := if isRemote src then some src else if isRemote dst then some dst else none
  let check (b : Bool) (f : Nat × Nat × Word) : Option (Nat × Nat × Word) := if b then some f else none
  let lacks (x : Reg) (p : Perm) := !isRemote x && !hasPerm x.info p
  (check ((shTwod sh && decide (0 < shRows sh) && decide (shStride sh true < shRow sh)) || (isRemote src && isRemote dst) ||
      own src || own dst) (15, 0, s.me.pc)).or <|
  (if isRemote src then none else cap src (shExtent sh false) [.r]).or <|
  (if isRemote dst then none else cap dst (shExtent sh true) [.w]).or <|
  (if shFlag sh then cap flg 2 [.w] else none).or <|
  (check (shTags sh && lacks src .lcap) (5, 4, src.value)).or <|
  (check (shTags sh && lacks dst .scap) (5, 4, dst.value)).or <|
  (far.bind fun x => check (shTags sh || !(s.vf s.me.vfid).remote || s.sc.package.isNone) (5, 4, x.value)).or <|
  (check (shFlag sh && flg.value.getLsbD 0) (4, 0, flg.value)).or <|
  (check (shTags sh && src.value.toNat % 16 != 0) (4, 0, src.value)).or <|
  (check (shTags sh && dst.value.toNat % 16 != 0) (4, 0, dst.value)).or <|
  (check (shTags sh && shRow sh % 16 != 0) (4, 0, src.value))

/-- A request enters the FIFO: its issue releases the accesses before it, and it pins the launch (R251, R256, R424). -/
def State.enterCopy (s : State) (src dst flg : Reg) (sh : Word) : State :=
  let r := s.release s.cur
  let t := r.2
  let l := t.myLaunch
  let q : CopyReq := {
    src := sideOf src
    dst := sideOf dst
    shape := sh
    flag := flg.value.toNat
    asid := t.me.asid
    vf := t.me.vfid
    launch := l
    super := ((mget t.launches l).map (·.desc.super)).getD 0
    region := t.me.regionNo
    ordinal := t.me.ordinal
    carried := r.1 }
  (t.setMe { t.me with fifo := t.me.fifo ++ [q], ordinal := t.me.ordinal + 1 }).pin l

/-- CPY or CPYT (R256): `d` is CPYT's destination. The register of the flag address is read where FLAG is 1 (R243), which a shape
that is still to resolve does not say. -/
def State.copyOf (s : State) (l : Look) (d : Option GReg) (a : GReg) : Out :=
  let ra := a
  let rb := a + 1
  let rs := a + 2
  let rf := a + 3
  let shape := s.me.readG rs
  let sh := if shape.tag = .data ∨ shape.tag = .cap then shape.value else 0
  let done (t : State) (x : Word) : State := match d with | some r => t.setMe (t.me.setG r (Reg.data x)) | none => t
  s.issue { reads := [.g ra, .g rb, .g rs] ++ (if shFlag sh then [.g rf] else [])
            writes := (d.toList).map .g
            look := l.val
            commit := shFlag sh || shMsg sh } fun t =>
    let z := t.me.readG rs
    t.ready [z] (t.clean [z] 5 (
      let src := t.me.readG ra
      let dst := t.me.readG rb
      let flg := if shFlag sh then t.me.readG rf else Reg.data 0
      t.ready [src] (t.clean [src] 1 (t.ready [dst] (t.clean [dst] 1 (t.ready [flg] (t.clean [flg] 1 (
        match t.copyCheck src dst flg sh with
        | some f => .fault f.1 f.2.1 f.2.2 0 t
        | none =>
          if 16 ≤ t.me.fifo.length then
            match d with
            | some _ => .ok (done t 1)
            | none => .wait .copyFifo t
          else t.inOrder (.ok (done (t.enterCopy src dst flg sh) 0))))))))))

/-- CPY (R256). -/
def execCpy (l : Look) (a : GReg) (s : State) : Out := s.copyOf l none a
/-- CPYT (R256). -/
def execCpyt (l : Look) (d a : GReg) (s : State) : Out := s.copyOf l (some d) a

/-- The code of a channel's state (R257). -/
def ChanState.code : ChanState → Nat
  | .idle => 0 | .active => 1 | .suspended => 2 | .abandoned => 3

/-- What CWM reads of a channel (R257). -/
def Core.cwm (c : Core) (ch : Fin 4) : Word :=
  let x := c.chans[ch.val]
  w64 (x.state.code * 2 ^ 62 + (c.fifo.filter fun q => shCh q.shape == ch.val).length * 2 ^ 56 + x.wm % 2 ^ 48)

/-- CWM (R257): it acquires the destination bytes below the watermark. -/
def execCwm (d : GReg) (ch : Fin 4) (s : State) : Out :=
  s.issue { writes := [.g d] } fun t =>
    let u := t.acquire t.cur (t.mem.live t.me.chans[ch.val].ids)
    u.writeG d (Reg.data (t.me.cwm ch))

/-- CRES (R258). -/
def execCres (d a : GReg) (s : State) : Out :=
  s.issue { rr d a with commit := true } fun t =>
    let x := t.me.readG a
    t.ready [x] (t.clean [x] 5 (t.lateG d .i64 fun res u =>
      .ok { u with cres := u.cres ++ [(u.cur, u.me.vfid, res, x.value)] }))

/-! ## A running copy (R247, R248) -/

/-- The bytes of a request. -/
def CopyReq.total (r : CopyReq) : Nat := (if shTwod r.shape then shRows r.shape + 1 else 1) * shRow r.shape
/-- How far byte n of a request lies from the start of a side's extent (R244). -/
def CopyReq.offset (r : CopyReq) (dst : Bool) (n : Nat) : Nat :=
  n / shRow r.shape * shStride r.shape dst + n % shRow r.shape
/-- The address of a side. -/
def CopySide.va : CopySide → Nat
  | .here a | .remote _ a => a
/-- The address word of a side advanced by some bytes (R246, R252). -/
def CopySide.word (x : CopySide) (n : Nat) : Word :=
  match x with
  | .here a => w64 (a + n)
  | .remote p a => w64 (2 ^ 63 + p * 2 ^ 48 + (a + n))
/-- The watermark once n bytes have been written (R248). -/
def CopyReq.wmAt (r : CopyReq) (n : Nat) : Nat :=
  r.dst.va + if r.total ≤ n then shExtent r.shape true else r.offset true n

/-- A channel of core k. -/
def State.chan (s : State) (k : Nat) (ch : Fin 4) : Channel := (s.core k).chans[ch.val]
/-- The state with it replaced. -/
def State.setChan (s : State) (k : Nat) (ch : Fin 4) (x : Channel) : State :=
  s.setCore k { s.core k with chans := (s.core k).chans.set ch.val x }

/-- COPY_REQUEST_START (R242): an idle channel takes the earliest request that names it; its reads acquire what the issue
released (R251). -/
def execCopyRequestStart (k : Nat) (ch : Fin 4) (s : State) : Out :=
  let c := s.core k
  match (s.chan k ch).req, (if s.held k then none else c.fifo.find? fun q => shCh q.shape == ch.val) with
  | none, some q =>
    let t := s.setMem (s.mem.acquire (s.mem.live q.carried) (.channel k ch.val))
    let u := t.setCore k { c with fifo := c.fifo.filter fun x => x != q }
    .next (u.setChan k ch ⟨.active, some q, 0, q.wmAt 0, none, [], [], 0, none⟩)
  | _, _ => .next s

/-- What a beat reads of its source: bytes, the tag of its granule, and which of its words are poisoned. -/
structure CopyRead where
  bytes : List Byte
  tag : Bool
  marks : List Bool
deriving DecidableEq, Repr

/-- The bytes before the first poisoned word of a span. -/
def cleanPrefix (pa n : Nat) (marks : List Bool) : Nat :=
  match marks.findIdx? id with
  | some i => (pa / 8 + i) * 8 - pa
  | none => n

/-- A channel reads n bytes of its own package's memory (R247): on a cached page through the issuing core's data
cache. -/
def State.copyRead (s : State) (k : Nat) (ch : Fin 4) (r : CopyReq) (va n : Nat) : Except Nat CopyRead × State :=
  match s.engineTo (.channel k ch.val) r.vf r.asid va [.read] with
  | (.error d, t) => (.error d, t)
  | (.ok p, t) =>
    if cachedPlace p then
      let x := t.loadAt k p.pa n true
      (.ok ⟨x.1.bytes, x.1.tag, x.1.marks.map Option.isSome⟩, x.2)
    else
      let u := t.checked p.pa n
      let v := Viewer.channel k ch.val
      (.ok ⟨u.mem.viewBytes v p.pa n, u.mem.viewTag v (p.pa / 16),
        (wordsOf p.pa n).map fun w => (u.mem.viewMark v w).isSome⟩, u)

/-- The bytes of a beat, with those whose destination lies in the source extent unspecified (R247). -/
def CopyReq.settle (r : CopyReq) (fresh dva : Nat) (bs : List Byte) : List Byte :=
  match r.src with
  | .remote _ _ => bs
  | .here a =>
    let hit (x : Nat) : Bool := decide (a ≤ x) && decide (x < a + shExtent r.shape false)
    bs.zipIdx.map fun b => if hit (dva + b.2) then (Config.freeWord (fresh + b.2)).truncate 8 else b.1

/-- How a channel's write becomes visible (R247, R360). -/
def chanVis (k : Nat) (ch : Fin 4) : Visibility := { writer := .channel k ch.val }

/-- A channel writes bytes at a place; the issuing core's cached lines that they overlap are invalidated (R247). -/
def State.copyWrite (s : State) (k : Nat) (ch : Fin 4) (p : Place) (bs : List Byte) (pois : Nat → Bool) (tag : Bool) : State :=
  let t := if cachedPlace p then s.flush k true fun l => l.base == p.pa / 64 * 64 else s
  t.writeMem (chanVis k ch) p.pa bs pois tag

/-- What comes of the next beat: it waits, it fails, it moves some bytes, or it sends some to another package. -/
inductive Beat where
  | wait
  | fail (f : CopyFault) (s : State)
  | move (n : Nat) (s : State)
  | send (n : Nat) (s : State)
deriving DecidableEq, Repr

/-- A beat's destination write of bytes, those of some words as the stored mark (R247, R258). One of another package counts as
written once UET acknowledges it, and fails where that package refuses it (R246, R252). -/
def State.beatWrite (s : State) (k : Nat) (ch : Fin 4) (c : Channel) (r : CopyReq) (bs : List Byte) (pois : Nat → Bool)
    (tag : Bool) : Beat :=
  let off := r.offset true c.done
  match r.dst with
  | .here d =>
    match s.engineTo (.channel k ch.val) r.vf r.asid (d + off) [.write] with
    | (.error e, t) => .fail ⟨1, 6, e, w64 (d + off), 0⟩ t
    | (.ok p, t) =>
      if t.heldSpan p.pa bs.length then .wait
      else .move bs.length ((t.draw bs.length).copyWrite k ch p (r.settle t.fresh (d + off) bs) pois tag)
  | .remote pkg d =>
    match c.refused with
    | some reason => .fail ⟨1, 20, reason, r.dst.word off, 0⟩ s
    | none => .send bs.length { s with rma := s.rma ++ [⟨pkg, r.vf, r.asid, d + off, bs, (List.range bs.length).any pois⟩] }

/-- A source word or page that poison-and-continue has named holds an address (R258). -/
def Channel.skipsAt (c : Channel) (va : Nat) : Bool :=
  c.skips.any fun f => f.addr.toNat % 2 ^ 48 / f.size == va / f.size

/-- Which words of a source span poison-and-continue has named. -/
def Channel.named (c : Channel) (va n : Nat) : List Bool := (wordsOf va n).map fun w => c.skipsAt (8 * w)

/-- The next beat of a channel from a source of its own package, of at most `size` bytes from an address on: the bytes as they are
read, or the stored mark for the words that poison-and-continue names, which are not read (R247, R258). A granule whose tag is
copied is one access. -/
def State.beatHere (s : State) (k : Nat) (ch : Fin 4) (c : Channel) (r : CopyReq) (sva size : Nat) : Beat :=
  let named := c.named sva size
  let marked (m : Nat) : Beat := s.beatWrite k ch c r (List.replicate m 0) (fun _ => true) false
  let run := cleanPrefix sva size (named.map (!·))
  if shTags r.shape && named.all id then marked size
  else if !shTags r.shape && 0 < run then marked (min size run)
  else
    let n := if shTags r.shape then size else min size (cleanPrefix sva size named)
    if s.heldFor (.channel k ch.val) r.vf r.asid sva n [.read] then .wait
    else
      match s.copyRead k ch r sva n with
      | (.error d, t) => .fail ⟨0, 6, d, w64 sva, failSize t.mem (.channel k ch.val) (t.vf r.vf).ctx r.asid sva⟩ t
      | (.ok x, t) =>
        let poison (w : Nat) : CopyFault := ⟨0, 7, 5, w64 (sva / 8 * 8 + 8 * w), 8⟩
        if shTags r.shape then
          let marks := (x.marks.zip named).map fun m => m.1 || m.2
          match (x.marks.zip named).findIdx? fun m => m.1 && !m.2 with
          | some w => .fail (poison w) t
          | none => t.beatWrite k ch c r (x.bytes.take size) (fun w => marks.getD w false) (x.tag && !marks.any id)
        else if cleanPrefix sva n x.marks = 0 then .fail (poison 0) t
        else t.beatWrite k ch c r (x.bytes.take (min (cleanPrefix sva n x.marks) n)) (fun _ => false) false

/-- The next beat of a channel (R242, R247): at most 64 bytes, within one line of each side and one row. One that UET has not
acknowledged is waited for (R246).
DESIGN CHOICE (log 77), safe: the source page of a refusal by another package is taken as 64 KiB. -/
def State.nextBeat (s : State) (k : Nat) (ch : Fin 4) (c : Channel) (r : CopyReq) : Beat :=
  let n := c.done
  let so := r.offset false n
  let sva := r.src.va + so
  let dva := r.dst.va + r.offset true n
  let most := min (shRow r.shape - n % shRow r.shape) (min (64 - sva % 64) (64 - dva % 64))
  let size := if shTags r.shape then min most 16 else most
  if c.sent ≠ 0 ∧ c.refused = none then .wait
  else
    match r.src with
    | .here _ => s.beatHere k ch c r sva size
    | .remote pkg a =>
      if c.skipsAt (a + so) then s.beatWrite k ch c r (List.replicate size 0) (fun _ => true) false
      else
        match s.remote.find? fun x => x.package == pkg && x.vf == r.vf && x.asid == r.asid && x.va == a + so with
        | none => .wait
        | some x =>
          match x.refusal with
          | some reason => .fail ⟨0, 20, reason, r.src.word so, 65536⟩ s
          | none => if x.data.isEmpty then .wait else s.beatWrite k ch c r (x.data.take size) (fun _ => false) false

/-- The active request of a channel. -/
def Channel.running (c : Channel) : Option CopyReq := if c.state = .active then c.req else none

/-- The active request of a channel of core k that may go on: in an exchange the channels pause at a beat boundary (R381). -/
def State.runningAt (s : State) (k : Nat) (ch : Fin 4) : Option CopyReq := if s.held k then none else (s.chan k ch).running

/-- The channel after n more bytes of its request have been written (R248). -/
def Channel.wrote (c : Channel) (r : CopyReq) (n : Nat) (ids : List Nat) : Channel :=
  { c with
    done := c.done + n
    wm := r.wmAt (c.done + n)
    ids := ids
    sent := 0
    refused := none }

/-- COPY_BEAT (R242, R246, R248): the beat is written and the watermark advances; one for another package is sent. -/
def execCopyBeat (k : Nat) (ch : Fin 4) (s : State) : Out :=
  let c := s.chan k ch
  match s.runningAt k ch with
  | none => .next s
  | some r =>
    if r.total ≤ c.done then .next s
    else
      match s.nextBeat k ch c r with
      | .move n t => .next (t.setChan k ch (c.wrote r n (t.mem.live (c.ids ++ [t.mem.nextId - 1]))))
      | .send n t => .next (t.setChan k ch { c with sent := n })
      | .wait | .fail .. => .next s

/-- UET answers the beat that a channel has sent to another package (R246, R252): it counts as written, or it is refused. -/
def State.remoteAck (s : State) (k : Nat) (ch : Fin 4) (reason : Option Nat) : State :=
  let c := s.chan k ch
  match c.running with
  | none => s
  | some r =>
    if c.sent = 0 then s
    else match reason with
      | some x => s.setChan k ch { c with refused := some x }
      | none => s.setChan k ch (c.wrote r c.sent c.ids)

/-! ## Completion, suspension, abandonment (R249 to R253, R258) -/

/-- The flag write: a release at the flag page's scope, covering the request's destination bytes (R249); where its address is not
translated, why, and the state that the walk leaves. -/
def State.writeFlag (s : State) (k : Nat) (ch : Fin 4) (r : CopyReq) (val : Nat) (ids : List Nat) : Except (Nat × State) State :=
  match s.engineTo (.channel k ch.val) r.vf r.asid r.flag [.write] with
  | (.error d, t) => .error (d, t)
  | (.ok p, t) =>
    let u := if cachedPlace p then t.flush k true fun l => l.base == p.pa / 64 * 64 else t
    .ok (u.writeMem { writer := .channel k ch.val, inScope := seerOf k p.sc, after := ids } p.pa (leBytes 2 val) (fun _ => false)
      false)

/-- A request is over: the channel is free, its writes are kept for the accesses that pass its watermark (R248), the completion
message goes if MSG is 1, and the pin ends (R249, R250, R424). -/
def State.endCopy (s : State) (k : Nat) (ch : Fin 4) (c : Channel) (r : CopyReq) (abandoned : Bool) : State :=
  let u := s.setChan k ch { c with
    state := if abandoned then .abandoned else .idle
    req := none
    fault := none
    skips := []
    sent := 0
    refused := none }
  let t := if (u.mem.live c.ids).isEmpty then u
    else u.setCore k { u.core k with landed := (u.core k).landed.filter (fun x => !(u.mem.live x.2).isEmpty) ++ [(r, c.ids)] }
  if shMsg r.shape then
    t.completion (.channel k ch.val) k r.launch (shClass r.shape)
      [r.dst.word 0, boolWord abandoned, w64 c.done, w64 ch.val, w64 (shVal r.shape), w64 t.time] c.ids
  else t.unpin r.launch

/-- The flag of a request lies in a slice whose accesses are held (R389). -/
def State.flagHeld (s : State) (k : Nat) (ch : Fin 4) (r : CopyReq) : Bool :=
  s.heldFor (.channel k ch.val) r.vf r.asid r.flag 2 [.write]

/-- COPY_COMPLETION (R249). -/
def execCopyCompletion (k : Nat) (ch : Fin 4) (s : State) : Out :=
  let c := s.chan k ch
  match s.runningAt k ch with
  | none => .next s
  | some r =>
    if c.done < r.total then .next s
    else if shFlag r.shape && s.flagHeld k ch r then .next s
    else if shFlag r.shape then
      match s.writeFlag k ch r (shVal r.shape) c.ids with
      | .ok t => .next (t.endCopy k ch c r false)
      | .error _ => .next s
    else .next (s.endCopy k ch c r false)

/-- The destination bytes of a request from byte n on hold unspecified values (R258): line by line, each line of them is left as it
stands or takes free values. Pages that cannot be written stay. -/
def State.scramble (k : Nat) (ch : Fin 4) (r : CopyReq) (d : Nat) : Nat → Nat → State → State
  | 0, _, s => s
  | fuel + 1, n, s =>
    if r.total ≤ n then s
    else
      let va := d + r.offset true n
      let m := min (shRow r.shape - n % shRow r.shape) (64 - va % 64)
      let bs := (List.range m).map fun i => (Config.freeWord (s.fresh + i)).truncate 8
      let t := match s.engineTo (.channel k ch.val) r.vf r.asid va [.write] with
        | (.ok p, u) => if Config.freeBool s.fresh then u else u.copyWrite k ch p bs (fun _ => false) false
        | (.error _, u) => u
      State.scramble k ch r d fuel (n + m) (t.draw m)

/-- A request is abandoned (R258): what is not yet written holds unspecified values, and the flag takes FVAL XOR 0x8000 where it can
be written. -/
def State.abandonCopy (s0 : State) (k : Nat) (ch : Fin 4) (c : Channel) (r : CopyReq) : State :=
  let s := match r.dst with | .here d => State.scramble k ch r d r.total c.done s0 | .remote _ _ => s0
  let t := if shFlag r.shape then
      match s.writeFlag k ch r (shVal r.shape ^^^ 0x8000) c.ids with
      | .ok u | .error (_, u) => u
    else s
  t.endCopy k ch c r true

/-- The payload of a copy channel's fault message (R252). -/
def copyFaultWords (k : Nat) (ch : Fin 4) (r : CopyReq) (f : CopyFault) (wm time : Nat) (abandoned : Bool) : List Word :=
  [w64 ((if abandoned then 2 ^ 18 else 0) + f.side * 2 ^ 16 + f.detail % 256 * 256 + f.cause), f.addr,
    w64 (ch.val * 2 ^ 13 + k), r.shape, w64 wm, w64 time]

/-- A channel suspends (R252), or abandons where its issuer is its supervisor (R253). -/
def State.suspendCopy (s : State) (k : Nat) (ch : Fin 4) (c : Channel) (r : CopyReq) (f : CopyFault) : State :=
  let own := r.super == k
  let c1 := { c with state := .suspended, fault := some f }
  let t := (s.setChan k ch c1).faultMessage r.launch k (copyFaultWords k ch r f c.wm s.time own) [] (some (.channel k ch.val))
  if own then t.abandonCopy k ch c1 r else t

/-- COPY_SUSPEND (R252): the next beat, or the flag write, fails. -/
def execCopySuspend (k : Nat) (ch : Fin 4) (s : State) : Out :=
  let c := s.chan k ch
  match if s.exchanging then none else s.runningAt k ch with
  | none => .next s
  | some r =>
    if c.done < r.total then
      match s.nextBeat k ch c r with
      | .fail f t => .next (t.suspendCopy k ch c r f)
      | .wait | .move .. | .send .. => .next s
    else if shFlag r.shape then
      match s.writeFlag k ch r (shVal r.shape) c.ids with
      | .error (d, t) => .next (t.suspendCopy k ch c r ⟨2, 6, d, w64 r.flag, 0⟩)
      | .ok _ => .next s
    else .next s

/-- The refusal codes of a CRES that apply, lowest first (R258). -/
def State.cresCodes (s : State) (issuer vf : Nat) (w : Nat) : List Nat :=
  let core := bits w 0 13
  let ch : Fin 4 := Fin.ofNat 4 (bits w 13 2)
  let c := s.chan core ch
  let act := bits w 16 2
  (if bits w 18 46 != 0 || bit w 15 || act == 3 then [1] else []) ++
  (if c.state != .suspended then [2] else []) ++
  (match c.req with | some r => if r.super ≠ issuer ∧ c.state = .suspended then [3] else [] | none => []) ++
  (if s.inPartition vf core then [] else [4]) ++
  (match c.fault with | some f => if act = 1 ∧ f.side ≠ 0 then [5] else [] | none => [])

/-- CRES_AT_CHANNEL (R258): retry, poison and continue, or abandon. -/
def execCresAtChannel (n : Nat) (s : State) : Out :=
  match if s.exchanging then none else s.cres[n]? with
  | none => .next s
  | some (issuer, vf, res, word) =>
    let t : State := { s with cres := dropAt s.cres n }
    let w := word.toNat
    match (t.cresCodes issuer vf w).head? with
    | some code => .next (t.status issuer res (refusal code))
    | none =>
      let k := bits w 0 13
      let ch : Fin 4 := Fin.ofNat 4 (bits w 13 2)
      let c := t.chan k ch
      match c.req with
      | none => .next t
      | some r =>
        let u := match bits w 16 2 with
          | 0 => t.setChan k ch { c with state := .active, fault := none, sent := 0, refused := none }
          | 1 => t.setChan k ch { c with state := .active, fault := none, skips := c.skips ++ c.fault.toList }
          | _ => t.abandonCopy k ch c r
        .next (u.status issuer res 0)

/-! ## The stack reduction engine (R259 to R263) -/

/-- Source k of a block, 0 where it is absent (R259). -/
def redSrc (b k : Nat) : Nat := bits b (64 * k) 48
/-- DST (R259). -/
def redDst (b : Nat) : Nat := bits b 512 48
/-- COUNT (R259). -/
def redCount (b : Nat) : Nat := bits b 576 32
/-- FMT (R259). -/
def redFmt (b : Nat) : Nat := bits b 608 2
/-- OP (R259). -/
def redOp (b : Nat) : Nat := bits b 616 2
/-- FVAL (R259). -/
def redVal (b : Nat) : Nat := bits b 624 16
/-- FADR (R259). -/
def redFlag (b : Nat) : Nat := bits b 640 48
/-- The bytes of an element (R259). -/
def redSize (b : Nat) : Nat := if redFmt b = 1 then 2 else 4

/-- A reserved field of a block is nonzero (R259). -/
def redReserved (b : Nat) : Bool :=
  (List.range 9).any (fun k => bits b (64 * k + 48) 16 != 0) || bits b 610 6 != 0 || bits b 618 6 != 0 ||
    bits b 688 16 != 0 || bits b 704 320 != 0

/-- The stack of DST's first element, where its page is DRAM that may be written (R260, R263). -/
def State.redStack (s : State) (v : Viewer) (vf asid b : Nat) : Option Nat :=
  match (s.walkTo v vf asid (redDst b) []).1 with
  | .ok r => if isDram r.1.pa && r.2.w then some (stackOfHome (homeOfPa r.1.pa)) else none
  | .error _ => none

/-- The refusal codes of a block that has been read (R263). -/
def State.redCodes (s : State) (v : Viewer) (vf asid b : Nat) : List Nat :=
  let n := redSize b
  (if redReserved b || redFmt b == 3 || redOp b == 3 then [1] else []) ++
  (if redCount b == 0 || (List.range 8).all (fun k => redSrc b k == 0) then [2] else []) ++
  (if (List.range 8).any (fun k => redSrc b k % n != 0) || redDst b % n != 0 || redFlag b % 2 != 0 then [3] else []) ++
  (match s.redStack v vf asid b with
    | none => [4]
    | some i => if 64 ≤ (s.stack i).queue.length then [6] else [])

/-- The block as the issuing core reads it once, from the addresses of its halves: none on a translation failure or poison (R263). -/
def State.readBlock (s : State) (va vb : Nat) : Option Nat × State :=
  match s.translate s.cur va [.read] with
  | (.error _, t) => (none, t)
  | (.ok p, t) =>
    match t.translate t.cur vb [.read] with
    | (.error _, u) => (none, u)
    | (.ok q, u) =>
      let x := u.load u.cur p.pa 64 (cachedPlace p)
      let y := x.2.load x.2.cur q.pa 64 (cachedPlace q)
      if (x.1.marks ++ y.1.marks).any Option.isSome then (none, y.2) else (some (leNat (x.1.bytes ++ y.1.bytes)), y.2)

/-- RED submits a block, whose halves stand at two addresses (R263). -/
def State.submitRed (s : State) (va vb : Nat) (addr : Nat) : Word × State :=
  let r := s.release s.cur
  match r.2.readBlock va vb with
  | (none, t) => (refusal 5, t)
  | (some b, t) =>
    match (t.redCodes (.core t.cur) t.me.vfid t.me.asid b).head?, t.redStack (.core t.cur) t.me.vfid t.me.asid b with
    | none, some i =>
      let q : RedBlock := ⟨BitVec.ofNat 1024 b, addr, t.me.asid, t.me.vfid, t.myLaunch, t.cur, r.1⟩
      (0, (t.setStack i { t.stack i with queue := (t.stack i).queue ++ [q] }).pin t.myLaunch)
    | some c, _ => (refusal c, t)
    | none, none => (refusal 4, t)

/-- RED (R263). Each half of the block that lies in the stack window is redirected on its own (R36): the ends of the window are
multiples of 64. -/
def execRed (l : Look) (d a : GReg) (s : State) : Out :=
  s.issue { rr d a with look := l.val, commit := true } fun t =>
    let x := t.me.readG a
    t.ready [x] (t.clean [x] 1 (t.imageAt x 128 [.r, .near] (t.inWindow x.value.toNat fun va =>
      t.inWindow (x.value.toNat + 64) fun vb =>
        let held (w : Nat) : Bool := t.heldFor (.core t.cur) t.me.vfid t.me.asid w 64 [.read]
        if t.me.wmBlocked va 64 || t.me.wmBlocked vb 64 then .wait .watermark t
        else if held va || held vb then .wait .exchange t
        else
          let r := ((t.passWm va 64).passWm vb 64).submitRed va vb x.value.toNat
          r.2.writeG d (Reg.data r.1))))

/-- op of R261 on two elements, either of which may be absent. -/
def redPair (b : Nat) (x y : Option Nat) : Option Nat :=
  match x, y with
  | none, y => y
  | x, none => x
  | some x, some y =>
    let t : Ty := if redFmt b = 0 then .f32 else if redFmt b = 1 then .bf16 else .s32
    some (rwrNew (match redOp b with | 0 => .sum | 1 => .max | _ => .min) t x y)

/-- The result of an element from its eight operands (R261). -/
def redTree (b : Nat) (f : Nat → Option Nat) : Option Nat :=
  let p (i : Nat) := redPair b (f i) (f (i + 1))
  redPair b (redPair b (p 0) (p 2)) (redPair b (p 4) (p 6))

/-- One source element read by the engine of a stack: the fault, or the value and whether its word is poisoned. -/
def State.redRead (s : State) (i : Nat) (q : RedBlock) (va n : Nat) : Except (Nat × Nat) (Nat × Bool) × State :=
  match s.engineTo (.stack i) q.vf q.asid va [.read] with
  | (.error d, t) => (.error (d, va), t)
  | (.ok p, t) =>
    let u := t.checked p.pa n
    (.ok (u.mem.viewNat (.stack i) p.pa n, (u.mem.poisonIn (.stack i) p.pa n).isSome), u)

/-- The operands of element e, source by source: absent ones are skipped. -/
def State.redReads (i : Nat) (q : RedBlock) (e : Nat) :
    List Nat → State → Except (Nat × Nat) (List (Option Nat) × Bool) × State
  | [], s => (.ok ([], false), s)
  | k :: rest, s =>
    let b := q.block.toNat
    if redSrc b k = 0 then
      match State.redReads i q e rest s with
      | (.ok (l, p), t) => (.ok (none :: l, p), t)
      | r => r
    else
      match s.redRead i q (redSrc b k + e * redSize b) (redSize b) with
      | (.error f, t) => (.error f, t)
      | (.ok (x, p), t) =>
        match State.redReads i q e rest t with
        | (.ok (l, p1), u) => (.ok (some x :: l, p || p1), u)
        | r => r

/-- DST's extent overlaps that of a source that does not coincide with it, and element e lies in the overlap (R261). -/
def redUnspecified (b e : Nat) : Bool :=
  let n := redSize b
  let len := redCount b * n
  let da := redDst b + e * n
  (List.range 8).any fun k =>
    let a := redSrc b k
    a != 0 && a != redDst b && decide (a < da + n) && decide (da < a + len)

/-- The results of elements e to e + n - 1 that share a destination word, with whether one of their words is
poisoned. -/
def State.redResults (i : Nat) (q : RedBlock) :
    Nat → Nat → State → Except (Nat × Nat) (List Nat × Bool) × State
  | 0, _, s => (.ok ([], false), s)
  | n + 1, e, s =>
    let b := q.block.toNat
    match State.redReads i q e (List.range 8) s with
    | (.error f, t) => (.error f, t)
    | (.ok (l, p), t) =>
      let v := if redUnspecified b e then (Config.freeWord t.fresh).toNat else (redTree b fun k => (l[k]?).join).getD 0
      match State.redResults i q n (e + 1) t.draw with
      | (.ok (vs, p1), u) => (.ok (v :: vs, p || p1), u)
      | r => r

/-- How many elements from `done` on share a destination word of 8 bytes. -/
def redGroup (b done : Nat) : Nat :=
  let n := redSize b
  min (redCount b - done) ((8 - (redDst b + done * n) % 8) / n)

/-- n elements of the active block of stack i from its first unwritten one on: the state once they are written, or the
fault's detail and address with the state that the walks leave (R212, R261, R262). -/
def State.redWrite (s : State) (i : Nat) (q : RedBlock) (n : Nat) : Except ((Nat × Nat) × State) State :=
  let x := s.stack i
  let b := q.block.toNat
  let da := redDst b + x.done * redSize b
  match State.redResults i q n x.done s with
  | (.error f, t) => .error (f, t)
  | (.ok (vs, p), t) =>
    match t.engineTo (.stack i) q.vf q.asid da [.write] with
    | (.error d, u) => .error ((d, da), u)
    | (.ok w, u) =>
      let id := u.mem.nextId
      let v := (u.writeMem { writer := .stack i } w.pa (vs.flatMap (leBytes (redSize b))) (fun _ => p) false).count
        (.redPoison i) (if p then 1 else 0)
      .ok (v.setStack i { v.stack i with done := x.done + n, ids := v.mem.live (x.ids ++ [id]) })

/-- The most elements, up to n, that can be written: those below a fault are (R262). -/
def State.redUpTo (i : Nat) (q : RedBlock) : Nat → State → Except ((Nat × Nat) × State) State
  | 0, s => .error ((0, 0), s)
  | n + 1, s =>
    match s.redWrite i q (n + 1) with
    | .ok t => .ok t
    | .error (f, t) => if n = 0 then .error (f, t) else State.redUpTo i q n t

/-- What the next elements of the active block of stack i read and write, or the flag once all are written, lies in part in a slice
whose accesses are held (R389). -/
def State.redHeld (s : State) (i : Nat) (q : RedBlock) : Bool :=
  let b := q.block.toNat
  let e := (s.stack i).done
  let n := redGroup b e * redSize b
  let at_ (va n : Nat) (right : Access) : Bool := s.heldFor (.stack i) q.vf q.asid va n [right]
  if e < redCount b then
    at_ (redDst b + e * redSize b) n .write ||
      (List.range 8).any fun k => redSrc b k != 0 && at_ (redSrc b k + e * redSize b) n .read
  else redFlag b != 0 && at_ (redFlag b) 2 .write

/-- The next step of the active block of stack i. -/
def State.redStep (s : State) (i : Nat) (q : RedBlock) : Except ((Nat × Nat) × State) State :=
  State.redUpTo i q (redGroup q.block.toNat (s.stack i).done) s

/-- RED_BLOCK_START (R260): the engine takes its next block; its reads acquire what RED released (R263). With a block
active, the engine computes the elements of its next destination word. -/
def execRedBlockStart (stack : Nat) (s : State) : Out :=
  let x := s.stack stack
  match x.active, x.queue with
  | none, q :: rest =>
    let t := s.setMem (s.mem.acquire (s.mem.live q.carried) (.stack stack))
    .next (t.setStack stack { x with queue := rest, active := some q, done := 0, ids := [] })
  | some q, _ =>
    if x.done < redCount q.block.toNat ∧ s.redHeld stack q = false then
      match s.redStep stack q with
      | .ok t => .next t
      | .error _ => .next s
    else .next s
  | none, [] => .next s

/-- The flag write of a block: whoever acquires it in the flag page's scope acquires the block's bytes (R262, R363), and a plain read
of it acquires nothing (R408). DEDUCED (log 81), safe. -/
def State.redFlagWrite (s : State) (i : Nat) (q : RedBlock) (val : Nat) : Except (Nat × State) State :=
  match s.engineTo (.stack i) q.vf q.asid (redFlag q.block.toNat) [.write] with
  | (.error d, t) => .error (d, t)
  | (.ok p, t) =>
    .ok (t.writeMem { writer := .stack i, inScope := seerOf q.core p.sc, carry := (t.stack i).ids.map fun n => (n, seerOf q.core p.sc) }
      p.pa (leBytes 2 val) (fun _ => false) false)

/-- A block is over: the engine is free and the pin ends (R424). -/
def State.endRed (s : State) (i : Nat) (q : RedBlock) : State :=
  (s.setStack i { s.stack i with active := none, done := 0, ids := [] }).unpin q.launch

/-- RED_BLOCK_COMPLETION (R262). -/
def execRedBlockCompletion (stack : Nat) (s : State) : Out :=
  let x := s.stack stack
  match x.active with
  | none => .next s
  | some q =>
    let b := q.block.toNat
    if x.done < redCount b ∨ s.redHeld stack q = true then .next s
    else if redFlag b = 0 then .next (s.endRed stack q)
    else
      match s.redFlagWrite stack q (redVal b) with
      | .ok t => .next (t.endRed stack q)
      | .error _ => .next s

/-- The payload of a reduction's fault message (R252, R262). -/
def redFaultWords (q : RedBlock) (detail addr done time : Nat) : List Word :=
  [w64 (3 * 2 ^ 16 + detail % 256 * 256 + 6), w64 addr, w64 q.core, w64 q.addr, w64 done, w64 time]

/-- RED_FAULT (R262): the next elements, or the final flag write, cannot be translated. In an exchange it waits (log 42). -/
def execRedFault (stack : Nat) (s : State) : Out :=
  let x := s.stack stack
  match if s.exchanging then none else x.active with
  | none => .next s
  | some q =>
    let b := q.block.toNat
    if x.done < redCount b then
      match s.redStep stack q with
      | .ok _ => .next s
      | .error ((d, addr), w) =>
        let t := w.faultMessage q.launch q.core (redFaultWords q d addr x.done s.time) [] (some (.stack stack))
        let u := if redFlag b = 0 then t
          else match t.redFlagWrite stack q (redVal b ^^^ 0x8000) with | .ok v | .error (_, v) => v
        .next (u.endRed stack q)
    else if redFlag b = 0 then .next s
    else
      match s.redFlagWrite stack q (redVal b) with
      | .ok _ => .next s
      | .error (d, t) =>
        .next ((t.faultMessage q.launch q.core (redFaultWords q d (redFlag b) (redCount b) s.time) [] (some (.stack stack))).endRed stack q)

end Sys2Proof.Machine
end

