-- ==== Sys2Proof/Machine/Matrix.lean ====
section
/-! DEFINITION. The matrix units: shapes, tiles, accumulators, command queues and the instructions that drive them (R173,
R174, R264 to R290). -/
namespace Sys2Proof.Machine

/-! ## Elements (R266 to R268, R284) -/

/-- The shape in use as R267 lays it out. -/
def shapeOf (x : Word) : Option Shape :=
  let n := x.toNat
  match Ty.ofCode (bits n 12 4) with
  | some t =>
    let sh : Shape := ⟨bits n 16 5, t, bits n 0 9⟩
    if bits n 21 43 ≠ 0 ∨ bits n 9 3 ≠ 0 ∨ sh.rows = 0 ∨ 16 < sh.rows ∨ sh.cols = 0 ∨ 256 < sh.cols then none
    else if 1024 < sh.cols * tyWidth t then none
    else some sh
  | none => none

/-- The bytes of a row in use (R267, R281). -/
def Shape.rowBytes (sh : Shape) : Nat := (sh.cols * tyWidth sh.fmt + 7) / 8

/-- Element (i, j) of width w of a tile (R266). -/
def Tile.elem (t : Tile) (w i j : Nat) : Nat := bits t.data.toNat (1024 * i + w * j) w

/-- Scale byte q of row i (R268). -/
def Tile.scaleByte (t : Tile) (i q : Nat) : Nat := bits t.sidecar.toNat (64 * i + 8 * q) 8

/-- The formats of an MMA's operands and its K (R284): the type of A, that of B, K. -/
def MmaOp.formats : MmaOp → Ty × Ty × Nat
  | .bf => (.bf16, .bf16, 64)
  | .h => (.f16, .f16, 64)
  | .e44 => (.e4m3, .e4m3, 128)
  | .e55 => (.e5m2, .e5m2, 128)
  | .e45 => (.e4m3, .e5m2, 128)
  | .i8 => (.s8, .s8, 128)
  | .n4 => (.n4, .n4, 256)
  | .n4e => (.n4, .e4m3, 128)
  | .f32 => (.f32, .f32, 32)

/-- The value of element (i, k) of an MMA's operand in a format: zero outside the recorded shape (R267, R284). -/
def Tile.operand (t : Tile) (sh : Shape) (ty : Ty) (i k : Nat) : FVal :=
  if sh.rows ≤ i ∨ sh.cols ≤ k then .fin false 0 1
  else
    let x := t.elem (tyWidth ty) i k
    if ty = .n4 then n4Value (t.scaleByte i (k / 32)) x else tyValue ty x

/-! ## Accumulators (R173, R270, R284) -/

/-- The exact sum of products: NaN, +∞ and -∞ among them, and the finite ones in units of 2^-300. -/
structure ChunkSum where
  nan : Bool
  pos : Bool
  neg : Bool
  sum : Int
deriving DecidableEq, Repr

/-- The sum of no product. -/
def ChunkSum.zero : ChunkSum := ⟨false, false, false, 0⟩

/-- An infinity among the products. -/
def ChunkSum.addInf (c : ChunkSum) (neg : Bool) : ChunkSum := if neg then { c with neg := true } else { c with pos := true }

/-- One product added (R270, R284). A finite value's denominator is at most 2^149, so that the product is a multiple
of 2^-300. -/
def ChunkSum.add (c : ChunkSum) (x y : FVal) : ChunkSum :=
  match x, y with
  | .nan _ _, _ | _, .nan _ _ => { c with nan := true }
  | .inf a, .inf b => c.addInf (a != b)
  | .inf a, .fin b n _ | .fin b n _, .inf a => if n = 0 then { c with nan := true } else c.addInf (a != b)
  | .fin a n d, .fin b m e => { c with sum := c.sum + signed (a != b) (n * m * (2 ^ 300 / (d * e))) }

/-- The products of element (i, j) summed (R284). -/
def chunkOf (op : MmaOp) (a b : Tile) (sa sb : Shape) (i j : Nat) : ChunkSum :=
  let f := op.formats
  (List.range f.2.2).foldl (fun c k => c.add (a.operand sa f.1 i k) (b.operand sb f.2.1 j k)) ChunkSum.zero

/-- The special code of an element after a chunk (R270). -/
def ChunkSum.code (c : ChunkSum) (old : BitVec 2) : BitVec 2 :=
  if c.nan || (c.pos && c.neg) || old == 3 then 3
  else if (c.pos && old == 2) || (c.neg && old == 1) then 3
  else if c.pos || old == 1 then 1
  else if c.neg || old == 2 then 2
  else 0

/-- An integer times 2^e, rounded to nearest even. -/
def rneScale (x e : Int) : Int :=
  let r := scale x.natAbs e
  signed (decide (x < 0)) (roundNat .rne (decide (x < 0)) r.1 r.2)

/-- The bound of a mantissa: |m| < 2^47 (R173). -/
def mantFits (x : Int) : Bool := decide (x.natAbs < 2 ^ 47)

/-- The mantissa bounded as at E = 32767 (R173). -/
def mantClamp (x : Int) : Int := max (-(2 ^ 47 - 1)) (min (2 ^ 47 - 1) x)

/-- The update of an accumulator's mantissas and exponent by aligned chunks (R173), with at most `fuel`
renormalisations; `live j` holds for the elements whose code is 00 (R270), `c j` is the chunk times 2^300 / 2^s. The last
component says that E has saturated. -/
def accUpdate (live : Fin 256 → Bool) (c : Fin 256 → Int) (sh : Int) :
    Nat → Vector Int 256 → Int → Vector Int 256 × Int × Bool
  | 0, m, e => (m, e, false)
  | fuel + 1, m, e =>
    let next : Vector Int 256 :=
      Vector.ofFn fun j => if live j then m[j.val] + rneScale (c j) (sh - 300 - e) else m[j.val]
    if (List.finRange 256).all fun j => !live j || mantFits next[j.val] then (next, e, false)
    else if 32767 ≤ e then (Vector.ofFn fun j => if live j then mantClamp next[j.val] else m[j.val], e, true)
    else accUpdate live c sh fuel (m.map fun x => rneScale x (-1)) (e + 1)

/-- An accumulator after an MMA's chunks (R270, R173), and whether E has saturated. -/
def AccBody.addChunks (z : AccBody) (cs : Vector ChunkSum 256) (s : Int) : AccBody × Bool :=
  let code := Vector.ofFn fun j : Fin 256 => cs[j.val].code z.code[j.val]
  let r := accUpdate (fun j => code[j.val] == 0) (fun j => cs[j.val].sum) s 65537 z.m z.e
  ({ z with m := r.1, e := r.2.1, code := code }, r.2.2)

/-- A poison record set, unless one is already (R269). -/
def keepRecord (old new : PoisonRecord) : PoisonRecord := if old ≠ 0 then old else new

/-- The first of two records that is set. -/
def firstRecord (a b : PoisonRecord) : PoisonRecord := if a ≠ 0 then a else b

/-- The snapshot that the first writing command of a region takes (R272). -/
def Acc.snapshot (z : Acc) (region : Nat) : Acc :=
  if z.mark = some region then z else { z with image := z.body, mark := some region }

/-- Element n of an accumulator as a value (R270, R286). -/
def AccBody.value (z : AccBody) (n : Fin 256) : FVal :=
  match z.code[n.val].toNat with
  | 0 =>
    let r := scale z.m[n.val].natAbs z.e
    .fin (decide (z.m[n.val] < 0)) r.1 r.2
  | 1 => .inf false
  | 2 => .inf true
  | _ => .nan false 0

/-! ## Draining (R174, R286, R287) -/

/-- The exact sum of two values; a NaN or an infinity carries through (R174). DEDUCED (log 31), unsafe. DESIGN CHOICE (log 88),
unsafe: of two NaNs the accumulator's. -/
def FVal.add : FVal → FVal → FVal
  | .nan s f, _ => .nan s f
  | _, .nan s f => .nan s f
  | .inf a, .inf b => if a == b then .inf a else .nan false 0
  | .inf a, _ => .inf a
  | _, .inf b => .inf b
  | .fin a n d, .fin b m e =>
    let x := signed a n * e + signed b m * d
    .fin (if x = 0 then a && b else decide (x < 0)) x.natAbs (d * e)

/-- The exact product of two values. -/
def FVal.mul : FVal → FVal → FVal
  | .nan s f, _ => .nan s f
  | _, .nan s f => .nan s f
  | .inf a, .inf b => .inf (a != b)
  | .inf a, .fin b n _ => if n = 0 then .nan false 0 else .inf (a != b)
  | .fin b n _, .inf a => if n = 0 then .nan false 0 else .inf (a != b)
  | .fin a n d, .fin b m e => .fin (a != b) (n * m) (d * e)

/-- A value with its NaN fraction moved to the top of 52 bits, as a conversion from any format places it (R165). -/
def FVal.wide (mw : Nat) : FVal → FVal
  | .nan s f => .nan s (f * 2 ^ (52 - mw))
  | v => v

/-- One round of the dropout generator (R287). -/
def dropRound (x : Word × Word) : Word × Word :=
  let h1 := (x.1 ^^^ x.2) * 0xA5C36F1D2B479E8B
  (h1 ^^^ (h1 >>> (29 : Nat)), x.2 + 0x7F4A7C159D3B1E27)

/-- The dropout generator keeps an element (R287). -/
def dropKeeps (row col seed : Word) (keep : BitVec 32) : Bool :=
  let h := (dropRound (dropRound (dropRound (dropRound ((col <<< (32 : Nat)) ||| row, seed))))).1
  decide (keep.toNat ≤ h.toNat / 2 ^ 32)

/-- What ZDRN recorded at its issue (R286). -/
structure Drain where
  drop : Bool
  res : Bool
  shape : Shape
  rshape : Shape
  p : BitVec 32
  seed : Word
  keep : BitVec 32
deriving DecidableEq, Repr

/-- The residual element (i, j): zero outside its shape (R286). -/
def Drain.residual (q : Drain) (r : Tile) (i j : Nat) : FVal :=
  if q.rshape.rows ≤ i ∨ q.rshape.cols ≤ j then .fin false 0 1
  else (tyValue q.rshape.fmt (r.elem (tyWidth q.rshape.fmt) i j)).wide (tyFrac q.rshape.fmt)

/-- The exact value that ZDRN rounds (R174). -/
def Drain.value (q : Drain) (z : AccBody) (r : Tile) (n : Fin 256) : FVal :=
  let i := n.val / 16
  let j := n.val % 16
  let v := if q.res then (z.value n).add (q.residual r i j) else z.value n
  if q.drop then
    if dropKeeps (z.orgRow.zeroExtend 64 + w64 i) (z.orgCol.zeroExtend 64 + w64 j) q.seed q.keep then
      v.mul ((fp32.value q.p.toNat).wide 23)
    else .fin false 0 1
  else v

/-- The bits that ZDRN writes for an element (R286). -/
def Drain.out (q : Drain) (z : AccBody) (r : Tile) (n : Fin 256) : Nat :=
  tyConvert q.shape.fmt .rne 52 (q.value z r n)

/-- How many NaNs a drain turns into 0 (R165). -/
def Drain.lost (q : Drain) (z : AccBody) (r : Tile) : Nat :=
  if (tyFmt q.shape.fmt).isSome then 0 else ((List.finRange 256).filter fun n => (q.value z r n).isNan).length

/-- Numbers of w bits packed from bit 0 up. -/
def packNat (w : Nat) (l : List Nat) : Nat := l.foldr (fun x acc => x % 2 ^ w + 2 ^ w * acc) 0

/-- A tile's bits from its rows. -/
def packRows (rows : List Nat) : BitVec 16384 := BitVec.ofNat 16384 (packNat 1024 rows)

/-- Sidecar bytes of 0x20 everywhere (R268). -/
def plainSidecar : BitVec 1024 := BitVec.ofNat 1024 (packNat 8 (List.replicate 128 0x20))

/-- The destination tile after a drain (R286, R269). -/
def Drain.tile (q : Drain) (z : AccBody) (d r : Tile) : Tile :=
  let w := tyWidth q.shape.fmt
  let new := firstRecord z.pois (if q.res then r.pois else 0)
  { d with
    data := packRows ((List.range 16).map fun i =>
      packNat w ((List.range 16).map fun j => q.out z r (Fin.ofNat 256 (16 * i + j))))
    sidecar := plainSidecar
    pois := if new = 0 then 0 else keepRecord d.pois new }

/-! ## The state of a core in its unit -/

/-- The registers that a command names (R274). -/
def MatCmd.names : MatCmd → List RegName
  | .mma _ z a b .. => [.z z, .t a, .t b]
  | .tld _ t .. => [.t t]
  | .tst t .. => [.t t]
  | .zclr z _ => [.z z]
  | .zdrn _ res t z r .. => [.t t, .z z] ++ (if res then [.t r] else [])
  | .zexp _ z => [.z z]
  | .zget _ z _ => [.z z]
  | .mfin _ => []
  | .renew .. => (List.finRange 8).map RegName.t ++ (List.finRange 4).map RegName.z

/-- The resources of a unit (R274). -/
inductive Resource where
  | array | path | port
deriving DecidableEq, Repr

/-- The resource that a command uses (R274). -/
def MatCmd.resource : MatCmd → Option Resource
  | .mma .. => some .array
  | .tld .. | .tst .. => some .path
  | .zclr .. | .zdrn .. | .zexp .. | .zget .. => some .port
  | .mfin _ | .renew .. => none

/-- The entry is no command (R265). -/
def MatCmd.isRenew : MatCmd → Bool
  | .renew .. => true
  | .mma .. | .tld .. | .tst .. | .zclr .. | .zdrn .. | .zexp .. | .zget .. | .mfin _ => false

/-- The extents that a command reads or writes in memory. -/
def MatCmd.extents : MatCmd → List Extent
  | .tld _ _ _ rows sides => (rows ++ sides).flatten
  | .tst _ _ rows => rows.flatten
  | .mma .. | .zclr .. | .zdrn .. | .zexp .. | .zget .. | .mfin _ | .renew .. => []

/-- The commands in a core's queue, of which there is room for 8 (R274). -/
def MatCore.load (m : MatCore) : Nat := (m.queue.filter fun e => !e.cmd.isRenew).length

/-- The place in the queue of the command that waits for a resource: the first that uses it, if it names no register that
an earlier one names (R274). -/
def MatCore.waiting (m : MatCore) (r : Resource) : Option Nat :=
  match m.queue.findIdx? fun e => e.cmd.resource == some r with
  | none => none
  | some n =>
    let mine := ((m.queue[n]?).map fun e => e.cmd.names).getD []
    if (m.queue.take n).any fun e => e.cmd.names.any mine.contains then none else some n

/-- The accumulator changed (R270). -/
def MatCore.setAcc (m : MatCore) (z : ZReg) (x : Acc) : MatCore := { m with accs := m.accs.set z.val x }
/-- The tile changed. -/
def MatCore.setTile (m : MatCore) (t : TReg) (x : Tile) : MatCore := { m with tiles := m.tiles.set t.val x }

/-- The contents of tiles and accumulators replaced (R265, R378): those listed, and with `all` every other one by that of reset;
the shape registers stand. -/
def MatCore.renew (m : MatCore) (all : Bool) (tiles : Map Tile) (accs : Map Acc) : MatCore :=
  { m with
    tiles := Vector.ofFn fun i =>
      { (mget tiles i.val).getD (if all then Tile.reset else m.tiles[i.val]) with shape := m.tiles[i.val].shape }
    accs := Vector.ofFn fun i => (mget accs i.val).getD (if all then Acc.reset else m.accs[i.val]) }

/-- The replacements that stand at the head of a queue take place: every command before them has been performed. -/
def MatCore.renewHead : List MatEntry → MatCore → MatCore
  | [], m => m
  | e :: rest, m =>
    match e.cmd with
    | .renew all tiles accs => MatCore.renewHead rest (MatCore.renew { m with queue := rest } all tiles accs)
    | _ => m

/-- The same for the core's own queue. -/
def MatCore.renewed (m : MatCore) : MatCore := MatCore.renewHead m.queue m

/-- MMA on a core's registers (R284), and whether E has saturated. -/
def MatCore.mma (m : MatCore) (op : MmaOp) (z : ZReg) (a b : TReg) (sa sb : Shape) (p : Nat) (pois : PoisonRecord)
    (region : Nat) : MatCore × Bool :=
  let acc := m.accs[z.val].snapshot region
  let ta := m.tiles[a.val]
  let tb := m.tiles[b.val]
  let r := acc.body.addChunks (Vector.ofFn fun n : Fin 256 => chunkOf op ta tb sa sb (n.val / 16) (n.val % 16)) (p - 127)
  let body := { r.1 with pois := keepRecord acc.body.pois (firstRecord ta.pois (firstRecord tb.pois pois)) }
  (m.setAcc z { acc with body := body }, r.2)

/-- ZCLR on a core's registers (R285). -/
def MatCore.zclr (m : MatCore) (z : ZReg) (word : Word) (region : Nat) : MatCore :=
  let w := word.toNat
  m.setAcc z { m.accs[z.val].snapshot region with
    body := ⟨Vector.replicate 256 0, sextNat 16 w, Vector.replicate 256 0, BitVec.ofNat 24 (w / 2 ^ 16),
      BitVec.ofNat 24 (w / 2 ^ 40), 0⟩ }

/-- What ZEXP returns (R288). -/
def AccBody.exponent (z : AccBody) : Reg :=
  if z.pois ≠ 0 then ⟨.pois, 0, z.pois⟩ else Reg.data (BitVec.ofInt 64 z.e)

/-- What ZGET returns of element n (R288). -/
def AccBody.get (z : AccBody) (n : Fin 256) : Reg :=
  if z.pois ≠ 0 then ⟨.pois, 0, z.pois⟩
  else Reg.data (w64 (z.code[n.val].toNat * 2 ^ 48 + bitsOf 48 z.m[n.val]))

/-! ## Tile transfers (R281 to R283) -/

/-- The matrix unit of a core (R11). -/
def unitOf (k : Nat) : Nat := k / 128 * 12 + k % 128 / 8

/-- The bytes of an extent as the unit reads them for core k, with the record of its first poisoned word (R213, R282). -/
def Memory.tileRead (m : Memory) (k : Nat) (e : Extent) : List Byte × PoisonRecord :=
  (m.viewBytes (.matrix (unitOf k)) e.pa e.size,
    match m.poisonIn (.matrix (unitOf k)) e.pa e.size with
    | some (w, mark) => (Reg.poison (originOf k (8 * w) mark) (e.va / 8 * 8 + 8 * (w - e.pa / 8))).info
    | none => 0)

/-- The bytes of a row's extents. -/
def Memory.rowRead (m : Memory) (k : Nat) (l : List Extent) : List Byte × PoisonRecord :=
  l.foldl (fun acc e =>
    let r := m.tileRead k e
    (acc.1 ++ r.1, firstRecord acc.2 r.2)) ([], 0)

/-- The tile that a TLD writes (R282, R268, R269). -/
def Memory.tileLoad (m : Memory) (k : Nat) (old : Tile) (n4 : Bool) (sh : Shape) (rows sides : List (List Extent)) : Tile :=
  let rs := rows.map (m.rowRead k)
  let ss := sides.map (m.rowRead k)
  let new := (rs ++ ss).foldl (fun p r => firstRecord p r.2) 0
  { old with
    data := packRows (rs.map fun r => leNat r.1 % 2 ^ (sh.cols * tyWidth sh.fmt))
    sidecar := if n4 then
        BitVec.ofNat 1024 (packNat 64 ((List.range 16).map fun i =>
          match ss[i]? with
          | some r => leNat r.1
          | none => 0x2020202020202020))
      else plainSidecar
    pois := if new = 0 then 0 else keepRecord old.pois new }

/-- A row's first bytes written to its extents (R283). -/
def State.rowWrite (k : Nat) (pois : Bool) : List Extent → List Byte → State → State
  | [], _, s => s
  | e :: rest, bs, s =>
    let t := s.writeMem { writer := .matrix (unitOf k), inScope := seerOf k e.sc } e.pa (bs.take e.size) (fun _ => pois) false
    State.rowWrite k pois rest (bs.drop e.size) t

/-- The bytes of a tile's row. -/
def Tile.rowBytes (t : Tile) (i : Nat) : List Byte := leBytes 128 (bits t.data.toNat (1024 * i) 1024)

/-- The rows of a tile written, the lower-numbered first (R283). -/
def State.tileWrite (s : State) (k : Nat) (t : Tile) (rows : List (List Extent)) : State :=
  rows.zipIdx.foldl (fun u r => State.rowWrite k (t.pois != 0) r.1 (t.rowBytes r.2) u) s

/-! ## Performing commands -/

/-- A queued command performed for core k (R274). DEDUCED (log 10), unsafe. DEDUCED (log 33), safe. -/
def State.matPerform (s : State) (k : Nat) (e : MatEntry) : State :=
  let m := s.mat k
  match e.cmd with
  | .mma op z a b sa sb p pois =>
    let r := m.mma op z a b sa sb p pois e.region
    (s.setMat k r.1).count (.renormSaturated k) (if r.2 then 1 else 0)
  | .tld n4 t sh rows sides =>
    let u := (rows ++ sides).foldl (fun v l => l.foldl (fun w e => w.checked e.pa e.size) v)
      (s.setMem (s.mem.acquire (s.mem.live e.carried) (.matrix (unitOf k))))
    u.setMat k (m.setTile t (u.mem.tileLoad k m.tiles[t.val] n4 sh rows sides))
  | .tst t _ rows =>
    let u := (s.setMem (s.mem.acquire (s.mem.live e.carried) (.matrix (unitOf k)))).tileWrite k m.tiles[t.val] rows
    u.setMat k { u.mat k with ids := u.mem.live (m.ids ++ List.range' s.mem.nextId (u.mem.nextId - s.mem.nextId)) }
  | .zclr z word => s.setMat k (m.zclr z word e.region)
  | .zdrn drop res t z r sh rsh p seed keep =>
    let q : Drain := ⟨drop, res, sh, rsh, p, seed, keep⟩
    let body := m.accs[z.val].body
    (s.setMat k (m.setTile t (q.tile body m.tiles[t.val] m.tiles[r.val]))).count (.nanToZeroUnit (unitOf k))
      (q.lost body m.tiles[r.val])
  | .zexp _ z => s.setMat k { m with value := some m.accs[z.val].body.exponent }
  | .zget _ z n => s.setMat k { m with value := some (m.accs[z.val].body.get (Fin.ofNat 256 n)) }
  | .mfin res =>
    let ids := s.mem.live m.ids
    let mem := (s.mem.unseen.filter fun x => ids.contains x.id).foldl (fun n x => n.show [x.id] x.inScope) s.mem
    (s.setMem mem).arrive k (some res) (Reg.data 0) ids
  | .renew all tiles accs => s.setMat k (m.renew all tiles accs)

/-- What stands at the head of core k's queue and is no command takes place. -/
def State.matRenewed (s : State) (k : Nat) : State := s.setMat k (s.mat k).renewed

/-- The n-th command of core k's queue leaves it and is performed (R274). -/
def State.matRun (s : State) (k n : Nat) : State :=
  match (s.mat k).queue[n]? with
  | some e => ((s.setMat k { s.mat k with queue := dropAt (s.mat k).queue n }).matPerform k e).matRenewed k
  | none => s

/-! ## Turns (R44, R275) -/

/-- A member of a ring that is granted: the holder while it has grants left and waits, else the next that waits.
DEDUCED (log 30), safe. -/
def Turn.grant (t : Turn) (ring : List Nat) (waits : Nat → Bool) : Option Nat :=
  let next := match t.holder with
    | some h => ((ring.filter fun k => decide (h < k)) ++ ring.filter fun k => decide (k ≤ h)).find? waits
    | none => ring.find? waits
  match t.holder with
  | some h => if 0 < t.left ∧ waits h then some h else next
  | none => next

/-- The turn after a grant, with the weight read at a grant that passes it (R275). -/
def Turn.after (t : Turn) (k weight : Nat) (waits : Nat → Bool) : Turn :=
  if t.holder = some k ∧ 0 < t.left ∧ waits k then ⟨some k, t.left - 1⟩ else ⟨some k, weight - 1⟩

/-- A holder that has nothing left to be served passes the turn at once: it forfeits its unused count (R44, R275). -/
def Turn.forfeit (t : Turn) (waits : Nat → Bool) : Turn :=
  match t.holder with
  | some h => if waits h then t else { t with left := 0 }
  | none => t

/-- The logical cores that matrix unit u serves (R11). -/
def unitCores (u : Nat) : List Nat := (List.range 8).map fun i => u / 12 * 128 + u % 12 * 8 + i

/-- A resource's turn in a unit. -/
def MatUnit.turn (x : MatUnit) : Resource → Turn
  | .array => x.array | .path => x.path | .port => x.port

/-- The unit with a resource's turn set. -/
def MatUnit.setTurn (x : MatUnit) (t : Turn) : Resource → MatUnit
  | .array => { x with array := t } | .path => { x with path := t } | .port => { x with port := t }

/-- Matrix unit u. -/
def State.matUnit (s : State) (u : Nat) : MatUnit := (mget s.matUnits u).getD MatUnit.reset

/-- A core has a command waiting for a resource. -/
def State.matWaits (s : State) (r : Resource) (k : Nat) : Bool := ((s.mat k).waiting r).isSome

/-- Unit u once the holders of its turns that have no command waiting have passed them (R275). -/
def State.matForfeit (s : State) (u : Nat) : State :=
  let x := s.matUnit u
  { s with matUnits := mput s.matUnits u { x with
      array := x.array.forfeit (s.matWaits .array)
      path := x.path.forfeit (s.matWaits .path)
      port := x.port.forfeit (s.matWaits .port) } }

/-- Tiles and accumulators of core k replaced once the commands in its queue have been performed (R265, R378); the shape registers,
which TCFG writes and commands read at issue, at once. -/
def State.matRenew (s : State) (k : Nat) (all : Bool) (tiles : Map Tile) (accs : Map Acc) : State :=
  let m := s.mat k
  let shape (i : Fin 8) : Shape := ((mget tiles i.val).map (·.shape)).getD (if all then Tile.reset.shape else m.tiles[i.val].shape)
  ((s.setMat k { m with
    tiles := Vector.ofFn fun i => { m.tiles[i.val] with shape := shape i }
    value := none
    queue := m.queue ++ [⟨.renew all tiles accs, 0, []⟩] }).matRenewed k).matForfeit (unitOf k)

/-- The unit's state of core k is reset before the commands of an activation under another ASID or VFID, after those that its queue
still holds (R265). -/
def State.matOwner (s : State) (k asid vf : Nat) : State :=
  if (s.mat k).owner = (asid, vf) then s else (s.setMat k { s.mat k with owner := (asid, vf) }).matRenew k true [] []

/-- What a pre-emption of core k does in its unit (R273): commands of the current region are dropped, and the accumulators
marked for it are restored. Those of earlier regions are left to complete. -/
def State.matPreempt (s : State) (k : Nat) : State :=
  let region := (s.core k).regionNo
  let m := s.mat k
  ((s.setMat k { m with
    queue := m.queue.filter fun e => e.region != region || e.cmd.isRenew
    value := none
    accs := m.accs.map fun z => if z.mark = some region then { z with body := z.image } else z }).matRenewed k).matForfeit (unitOf k)

/-! ## Arbitration (R275) -/

/-- The core that the arbitration of a resource grants next, and the place of its command. -/
def State.matGrant (s : State) (u : Nat) (r : Resource) : Option (Nat × Nat) :=
  ((s.matUnit u).turn r).grant (unitCores u) (s.matWaits r) |>.bind fun k => ((s.mat k).waiting r).map fun n => (k, n)

/-- The next command of a resource of unit u is granted and performed, if it is of the kind that the step names; one that accesses
a slice of an exchange is held (R389). -/
def State.matStep (s : State) (u : Nat) (r : Resource) (kind : MatCmd → Bool) : State :=
  match s.matGrant u r with
  | none => s
  | some (k, n) =>
    if ((s.mat k).queue[n]?).any fun e => kind e.cmd && !e.cmd.extents.any fun x => s.heldSpan x.pa x.size then
      let x := s.matUnit u
      let turn := (x.turn r).after k (s.core k).mwgt.toNat (s.matWaits r)
      (({ s with matUnits := mput s.matUnits u (x.setTurn turn r) } : State).matRun k n).matForfeit u
    else s

/-- MMA_EXECUTE (R284). -/
def execMmaExecute (u : Nat) (s : State) : Out :=
  .next (s.matStep u .array fun c => match c with | .mma .. => true | _ => false)

/-- TLD_EXECUTE (R282). -/
def execTldExecute (u : Nat) (s : State) : Out :=
  .next (s.matStep u .path fun c => match c with | .tld .. => true | _ => false)

/-- TST_EXECUTE (R283). -/
def execTstExecute (u : Nat) (s : State) : Out :=
  .next (s.matStep u .path fun c => match c with | .tst .. => true | _ => false)

/-- ZCLR_EXECUTE (R285). -/
def execZclrExecute (u : Nat) (s : State) : Out :=
  .next (s.matStep u .port fun c => match c with | .zclr .. => true | _ => false)

/-- ZDRN_EXECUTE (R286). -/
def execZdrnExecute (u : Nat) (s : State) : Out :=
  .next (s.matStep u .port fun c => match c with | .zdrn .. => true | _ => false)

/-- ZEXP_ZGET_RETURN (R288). -/
def execZexpZgetReturn (u : Nat) (s : State) : Out :=
  .next (s.matStep u .port fun c => match c with | .zexp .. | .zget .. => true | _ => false)

/-- MFIN_RESOLUTION (R289): every command before the MFIN of core k has finished. -/
def execMfinResolution (k : Nat) (s : State) : Out :=
  match (s.mat k).queue with
  | e :: _ =>
    match e.cmd with
    | .mfin _ => .next (s.matRun k 0)
    | _ => .next s
  | [] => .next s

/-! ## Issue -/

/-- What the unit holds for the core whose turn it is. -/
def State.myMat (s : State) : MatCore := s.mat s.cur

/-- A command enters the queue of 8; a full queue stalls the instruction (R274). DEDUCED (log 32), safe. -/
def State.enterMat (s : State) (cmd : MatCmd) (carried : List Nat) (k : State → Res) : Res :=
  if 8 ≤ s.myMat.load then .wait .matrixQueue s
  else k (s.setMat s.cur { s.myMat with queue := s.myMat.queue ++ [⟨cmd, s.me.regionNo, carried⟩] })

/-- A matrix operand fault (R279, R281, R286). -/
def State.matFault (s : State) : Res := s.faultPc 13 0

/-- An MMA of an opcode (R284). Its D is empty, so that its lookahead count opens no window (R278). -/
def State.mmaOf (s : State) (op : MmaOp) (c : FReg) (d : ZReg) (a b : TReg) : Out :=
  s.issue { reads := [.f c, .t a, .t b] } fun t =>
    let x := t.me.readF false c
    let sa := t.myMat.tiles[a.val].shape
    let sb := t.myMat.tiles[b.val].shape
    t.ready [x] (t.enterMat (.mma op d a b sa sb (bits x.value.toNat 23 8) (if x.tag = .pois then x.info else 0)) [] .ok)

/-- MMA.BF. -/
def execMmaBf (c : FReg) (_ : Look) (d : ZReg) (a b : TReg) (s : State) : Out := s.mmaOf .bf c d a b
/-- MMA.H. -/
def execMmaH (c : FReg) (_ : Look) (d : ZReg) (a b : TReg) (s : State) : Out := s.mmaOf .h c d a b
/-- MMA.F32. -/
def execMmaF32 (c : FReg) (_ : Look) (d : ZReg) (a b : TReg) (s : State) : Out := s.mmaOf .f32 c d a b
/-- MMA.I8. -/
def execMmaI8 (c : FReg) (_ : Look) (d : ZReg) (a b : TReg) (s : State) : Out := s.mmaOf .i8 c d a b
/-- MMA.E44. -/
def execMmaE44 (c : FReg) (_ : Look) (d : ZReg) (a b : TReg) (s : State) : Out := s.mmaOf .e44 c d a b
/-- MMA.E55. -/
def execMmaE55 (c : FReg) (_ : Look) (d : ZReg) (a b : TReg) (s : State) : Out := s.mmaOf .e55 c d a b
/-- MMA.E45. -/
def execMmaE45 (c : FReg) (_ : Look) (d : ZReg) (a b : TReg) (s : State) : Out := s.mmaOf .e45 c d a b
/-- MMA.N4E. -/
def execMmaN4e (c : FReg) (_ : Look) (d : ZReg) (a b : TReg) (s : State) : Out := s.mmaOf .n4e c d a b
/-- MMA.N4. -/
def execMmaN4 (c : FReg) (_ : Look) (d : ZReg) (a b : TReg) (s : State) : Out := s.mmaOf .n4 c d a b

/-- TCFG (R279). -/
def execTcfg (d : TReg) (a : GReg) (s : State) : Out :=
  s.issue { reads := [.g a], writes := [.t d] } fun t =>
    let x := t.me.readG a
    t.ready [x] (t.clean [x] 5 (
      match shapeOf x.value with
      | none => t.matFault
      | some sh => .ok (t.setMat t.cur (t.myMat.setTile d { t.myMat.tiles[d.val] with shape := sh }))))

/-- The extents of [va, va + n), page by page of 64 KiB, translated with a right (R281). -/
def State.extents (k : Nat) (rights : List Access) : Nat → Nat → Nat → State → Except (Nat × Nat) (List Extent) × State
  | 0, _, _, s => (.ok [], s)
  | fuel + 1, va, n, s =>
    if n = 0 then (.ok [], s)
    else
      match s.translate k va rights with
      | (.error d, t) => (.error (d, va), t)
      | (.ok p, t) =>
        let m := min n (65536 - va % 65536)
        match State.extents k rights fuel (va + m) (n - m) t with
        | (.ok l, u) => (.ok (⟨va, p.pa, m, p.sc⟩ :: l), u)
        | r => r

/-- A span of a row of a tile transfer: its address, its bytes, its alignment. -/
structure TileSpan where
  va : Nat
  n : Nat
  align : Nat
deriving DecidableEq, Repr

/-- The spans of a row of a transfer: the row, and for TLD.N4 its sidecar (R281). -/
def rowSpans (nb align : Nat) (side : Option Nat) (row : Nat) : List TileSpan :=
  ⟨row, nb, align⟩ :: (side.map fun off => ⟨row + off, 8, 8⟩).toList

/-- The translations of the spans of a row, one after the other (R281). -/
def State.spanExtents (right : Access) : List TileSpan → State → Except (Nat × Nat) (List (List Extent)) × State
  | [], s => (.ok [], s)
  | x :: rest, s =>
    match State.extents s.cur [right] 3 x.va x.n s with
    | (.error e, t) => (.error e, t)
    | (.ok l, t) =>
      match State.spanExtents right rest t with
      | (.ok ls, u) => (.ok (l :: ls), u)
      | r => r

/-- The checks of one row (R281): the capability over every span, then the alignments, then the translations. -/
def State.tileRow (s : State) (x : Reg) (perm : Perm) (right : Access) (spans : List TileSpan)
    (k : List (List Extent) → State → Res) : Res :=
  match spans.find? fun y => capFault x y.va y.n [perm] != 0 with
  | some y => .fault 5 (capFault x y.va y.n [perm]) (w64 y.va) 0 s
  | none =>
    match spans.find? fun y => y.va % y.align != 0 with
    | some y => .fault 4 0 (w64 y.va) 0 s
    | none =>
      match State.spanExtents right spans s with
      | (.error (d, at_), t) => .fault 6 d (w64 at_) 0 t
      | (.ok ls, t) => k ls t

/-- The rows of a transfer from one on, checked in order (R281). `side` is the offset of the sidecar for TLD.N4. -/
def State.tileRows (x : Reg) (stride nb align : Nat) (side : Option Nat) (perm : Perm) (right : Access) :
    Nat → Nat → State → (List (List Extent) → List (List Extent) → State → Res) → Res
  | 0, _, s, k => k [] [] s
  | n + 1, row, s, k =>
    s.tileRow x perm right (rowSpans nb align side row) fun l t =>
      State.tileRows x stride nb align side perm right n (row + stride) t fun ls ss u =>
        k (l.take 1 ++ ls) (l.drop 1 ++ ss) u

/-- TLD, TLD.N4 or TST (R281). -/
def State.tileTransfer (s : State) (i : Issue) (n4 : Bool) (d : TReg) (a b : GReg) (perm : Perm) (right : Access)
    (cmd : Shape → List (List Extent) → List (List Extent) → MatCmd) : Out :=
  s.issue i fun t =>
    let x := t.me.readG a
    let y := t.me.readG b
    let w := y.value.toNat
    let sh := t.myMat.tiles[d.val].shape
    t.ready [x, y] (t.clean [x, y] 1 (
      if bits w 56 8 ≠ 0 ∨ (n4 = false ∧ bits w 32 24 ≠ 0) then t.matFault
      else
        State.tileRows x (bits w 0 32) sh.rowBytes (max (tyWidth sh.fmt / 8) 1) (if n4 then some (bits w 32 24) else none)
          perm right sh.rows x.value.toNat t fun rows sides u =>
            if 8 ≤ u.myMat.load then .wait .matrixQueue u
            else
              let r := u.release u.cur
              r.2.enterMat (cmd sh rows sides) r.1 .ok))

/-- TLD (R281, R282). -/
def execTld (l : Look) (d : TReg) (a b : GReg) (s : State) : Out :=
  s.tileTransfer { reads := [.g a, .g b], writes := [.t d], look := l.val, tile := true } false d a b .r .read fun sh rows sides =>
    .tld false d sh rows sides
/-- TLD.N4 (R281, R282). -/
def execTldN4 (l : Look) (d : TReg) (a b : GReg) (s : State) : Out :=
  s.tileTransfer { reads := [.g a, .g b], writes := [.t d], look := l.val, tile := true } true d a b .r .read fun sh rows sides =>
    .tld true d sh rows sides
/-- TST (R281, R283). -/
def execTst (d : TReg) (a b : GReg) (s : State) : Out :=
  s.tileTransfer { reads := [.g a, .g b, .t d] } false d a b .w .write fun sh rows _ => .tst d sh rows

/-- ZCLR (R285). -/
def execZclr (d : ZReg) (a : GReg) (s : State) : Out :=
  s.issue { reads := [.g a] } fun t =>
    let x := t.me.readG a
    t.ready [x] (t.clean [x] 5 (t.enterMat (.zclr d x.value) [] .ok))

/-- The formats that ZDRN writes (R286). -/
def drainTo : Ty → Bool
  | .f32 | .f16 | .bf16 | .e4m3 | .e5m2 | .s32 | .s16 | .s8 => true
  | .s64 | .z64 | .z32 | .z16 | .z8 | .f64 | .n4 => false

/-- The formats of ZDRN's residual (R286). -/
def residualFrom : Ty → Bool
  | .f32 | .f16 | .bf16 | .s32 => true
  | .s64 | .s16 | .s8 | .z64 | .z32 | .z16 | .z8 | .f64 | .e4m3 | .e5m2 | .n4 => false

/-- ZDRN (R286). -/
def execZdrn (drop res : Bool) (d : TReg) (z : ZReg) (r : TReg) (b : FReg) (s : State) : Out :=
  s.issue { reads := (if drop then [.f b] else []) ++ (if res then [.t r] else []), writes := [.t d] } fun t =>
    let x := if drop then t.me.readF false b else Reg.data 0
    let sh := t.myMat.tiles[d.val].shape
    let rsh := t.myMat.tiles[r.val].shape
    t.ready [x] (t.clean [x] 5 (
      if !drainTo sh.fmt || (res && !residualFrom rsh.fmt) then t.matFault
      else
        t.enterMat (.zdrn drop res d z r sh rsh (x.value.truncate 32) t.me.dseed t.me.dkeep) [] .ok))

/-- A command whose value blocks the activation (R288): once it has issued, the instruction waits for the value. -/
def State.blockFor (s : State) (d : GReg) (cmd : MatCmd) : Res :=
  if s.me.wait = some .unitValue then
    match s.myMat.value with
    | some x => (s.setMat s.cur { s.myMat with value := none }).writeG d x
    | none => .wait .unitValue s
  else s.enterMat cmd [] fun t => .wait .unitValue t

/-- ZEXP (R288). -/
def execZexp (d : GReg) (z : ZReg) (s : State) : Out :=
  s.issue { writes := [.g d] } fun t => t.blockFor d (.zexp d z)

/-- ZGET (R288). -/
def execZget (d : GReg) (z : ZReg) (b : GReg) (s : State) : Out :=
  s.issue (rr d b) fun t =>
    let x := t.me.readG b
    t.ready [x] (t.clean [x] 5 (t.blockFor d (.zget d z (x.value.toNat % 256))))

/-- MFIN (R289). -/
def execMfin (d : GReg) (s : State) : Out :=
  s.issue { writes := [.g d] } fun t =>
    if d = 0 then .ok t
    else if 8 ≤ t.myMat.load then .wait .matrixQueue t
    else t.lateG d .i64 fun res u =>
      match res with
      | some r => u.enterMat (.mfin r) [] .ok
      | none => .ok u

end Sys2Proof.Machine
end

