-- ==== Sys2Proof/Machine/Array.lean ====
section
/-! DEFINITION. The Almucantar array: configuration, queues, tree evaluation and gathering (R291 to R305). -/
namespace Sys2Proof.Machine

/-! ## Tree evaluation (R291 to R294) -/

/-- A cell from its image (R292). -/
def cellOf (x : Nat) : ArrCell :=
  ⟨BitVec.ofNat 16 x, BitVec.ofNat 8 (x / 2 ^ 16), bit x 24, bit x 25, BitVec.ofNat 64 (x / 2 ^ 32)⟩

/-- A feature is missing (R293): `bf` is FMT. -/
def missing (bf : Bool) (x : Nat) : Bool := if bf then bf16.isNan x else x == 0x8000

/-- A present feature exceeds a threshold (R293). -/
def exceeds (bf : Bool) (x t : Nat) : Bool :=
  if bf then bf16.relation x t == 4 else decide (sextNat 16 t < sextNat 16 x)

/-- The cell sends the vector right (R294). -/
def ArrCell.right (c : ArrCell) (bf : Bool) (x : Nat) : Bool :=
  if missing bf x then c.mr else exceeds bf x c.thr.toNat

/-- The leaf that a mask gives (R294). -/
def leafOf64 (m : Word) : Nat := ((List.range 64).find? fun i => m.getLsbD i).getD 64

/-- The leaf of a column for a vector (R294). -/
def AlmArray.leaf (a : AlmArray) (feature : Nat → Nat) (col : Nat) : Nat :=
  leafOf64 ((a.cells.filter fun c => c.1 / 64 == col && c.2.v).foldl
    (fun m c => if c.2.right a.fmt (feature c.2.fidx.toNat) then m &&& c.2.mask else m) (BitVec.allOnes 64))

/-! ## Gathering (R303) -/

/-- The exact sum of finite FP32 codes in units of 2^-149. -/
def sumFp32 (l : List Nat) : Int :=
  l.foldl (fun acc x => match fp32.value x with | .fin neg n d => acc + signed neg (n * (2 ^ 149 / d)) | _ => acc) 0

/-- The score of terms (R303). -/
def gather (terms : List Nat) : Nat :=
  match fp32.firstNan terms with
  | some x => x
  | none =>
    let pos := terms.any (· == 0x7F800000)
    let neg := terms.any (· == 0xFF800000)
    if pos && neg then fp32.canonical
    else if pos then 0x7F800000
    else if neg then 0xFF800000
    else
      let s := sumFp32 terms
      if s = 0 then (if terms.all (· == 0x80000000) then 0x80000000 else 0)
      else fp32.roundArith .rne (decide (s < 0)) s.natAbs (2 ^ 149)

/-! ## Memory accesses of a command -/

/-- The part of extents from an offset on, n bytes long. -/
def subExtents : List Extent → Nat → Nat → List Extent
  | [], _, _ => []
  | e :: rest, off, n =>
    if n = 0 then []
    else if e.size ≤ off then subExtents rest (off - e.size) n
    else
      let m := min n (e.size - off)
      ⟨e.va + off, e.pa + off, m, e.sc⟩ :: subExtents rest 0 (n - m)

/-- Bytes that the array of a dome reads, and whether one of their words is poisoned. -/
def Memory.arrayRead (m : Memory) (d : Nat) (l : List Extent) : List Byte × Bool :=
  l.foldl (fun acc e =>
    (acc.1 ++ m.viewBytes (.array d) e.pa e.size, acc.2 || (m.poisonIn (.array d) e.pa e.size).isSome)) ([], false)

/-- The codes of the words of extents are checked as they are read (R212). -/
def State.checkedAll (s : State) (l : List Extent) : State := l.foldl (fun t e => t.checked e.pa e.size) s

/-- The extents of a command. -/
def ArrCmd.extents : ArrCmd → List Extent
  | .aload image => image
  | .aeval _ features out => features ++ out
  | .agth _ leaves table partials out => leaves ++ table ++ partials ++ out

/-- Bytes that the array writes for core k, or the stored mark. -/
def State.arrayWrite (d k : Nat) (pois : Bool) : List Extent → List Byte → State → State
  | [], _, s => s
  | e :: rest, bs, s =>
    State.arrayWrite d k pois rest (bs.drop e.size)
      (s.writeMem { writer := .array d, inScope := seerOf k e.sc } e.pa (bs.take e.size) (fun _ => pois) false)

/-- A 16-bit or 32-bit number at an index of bytes. -/
def numAt (bs : List Byte) (size i : Nat) : Nat := leNat ((bs.drop (size * i)).take size)

/-! ## Performing commands -/

/-- The array of a dome. -/
def State.alm (s : State) (d : Nat) : AlmArray := (s.dome d).alm
/-- The state with it replaced. -/
def State.setAlm (s : State) (d : Nat) (a : AlmArray) : State := s.setDome d { s.dome d with alm := a }

/-- The loaded image is that of an entry's KEY, ASID and VFID (R302). -/
def AlmArray.serves (a : AlmArray) (e : ArrEntry) : Bool :=
  a.ivalid && a.key == e.key && a.asid == e.asid && a.vf == e.vf

/-- ALOAD (R301): its status code, 0 for success. -/
def State.aloadRun (s : State) (d : Nat) (e : ArrEntry) (image : List Extent) : Nat × State :=
  let a := s.alm d
  if a.serves e && a.fmt == e.fmt then (0, s)
  else
    let s := s.checkedAll image
    let r := s.mem.arrayRead d image
    if r.2 then (1, (s.setAlm d { a with ivalid := false }).count (.arrayPoison d))
    else
      let cells := (List.range 8192).filterMap fun i =>
        let c := cellOf (numAt r.1 16 i)
        if c.v then some (i, c) else none
      (0, s.setAlm d { a with
        cells := cells
        ivalid := true
        key := e.key
        fmt := e.fmt
        asid := e.asid
        vf := e.vf })

/-- One vector of AEVAL (R302). -/
def State.aevalOne (d k : Nat) (features out : List Extent) (s0 : State) (v : Nat) : State :=
  let s := s0.checkedAll (subExtents features (512 * v) 512)
  let r := s.mem.arrayRead d (subExtents features (512 * v) 512)
  let dest := subExtents out (128 * v) 128
  if r.2 then (State.arrayWrite d k true dest (List.replicate 128 0) s).count (.arrayPoison d)
  else
    let leaves := (List.range 128).map ((s.alm d).leaf (numAt r.1 2))
    (State.arrayWrite d k false dest (leaves.map (BitVec.ofNat 8)) s).count (.invalidLeaf d)
      (leaves.filter (· == 64)).length

/-- AEVAL (R302). -/
def State.aevalRun (s : State) (d k : Nat) (e : ArrEntry) (n : Nat) (features out : List Extent) : Nat × State :=
  if (s.alm d).serves e then (0, (List.range n).foldl (State.aevalOne d k features out) s) else (2, s)

/-- The entries of the table of AGTH that the leaves of a vector select (R303): none for an invalid leaf. -/
def tableEntries (table : List Extent) (leaves : List Byte) : List (List Extent) :=
  (List.range 128).map fun t =>
    let l := numAt leaves 1 t
    if 64 ≤ l then [] else subExtents table (4 * (64 * t + l)) 4

/-- One vector of AGTH (R303). -/
def State.agthOne (d k : Nat) (leaves table partials out : List Extent) (s0 : State) (v : Nat) : State :=
  let s1 := s0.checkedAll (subExtents leaves (128 * v) 128 ++ subExtents partials (4 * v) 4)
  let bs := s1.mem.arrayRead d (subExtents leaves (128 * v) 128)
  let entries := if bs.2 then [] else tableEntries table bs.1
  let s := s1.checkedAll entries.flatten
  let part := s.mem.arrayRead d (subExtents partials (4 * v) 4)
  let dest := subExtents out (4 * v) 4
  let cells := entries.map (s.mem.arrayRead d)
  if bs.2 || part.2 || cells.any Prod.snd then
    (State.arrayWrite d k true dest (List.replicate 4 0) s).count (.arrayPoison d)
  else if cells.any fun c => c.1.isEmpty then
    (State.arrayWrite d k false dest (leBytes 4 0x7FC00000) s).count (.invalidLeaf d)
  else
    let terms := (if part.1.isEmpty then [] else [leNat part.1]) ++ cells.map fun c => leNat c.1
    State.arrayWrite d k false dest (leBytes 4 (gather terms)) s

/-- A command of core k performed by its dome's array, whole (R296): it acquires what its issue released, and its
status resolves with its writes (R304). -/
def State.arrPerform (s : State) (k : Nat) (e : ArrEntry) : State :=
  let d := domeOf k
  let t := s.setMem (s.mem.acquire (s.mem.live e.carried) (.array d))
  let r := match e.cmd with
    | .aload image => t.aloadRun d e image
    | .aeval n features out => t.aevalRun d k e n features out
    | .agth n leaves table partials out => (0, (List.range n).foldl (State.agthOne d k leaves table partials out) t)
  let ids := List.range' t.mem.nextId (r.2.mem.nextId - t.mem.nextId)
  r.2.arrive k e.res (Reg.data (if r.1 = 0 then 0 else refusal r.1)) ids

/-- The head of core k's array queue is performed. -/
def State.arrRun (s : State) (k : Nat) : State :=
  match (s.core k).arrQueue with
  | e :: rest => (s.setCore k { s.core k with arrQueue := rest }).arrPerform k e
  | [] => s

/-- The logical cores of a dome. -/
def domeCores (d : Nat) : List Nat := (List.range 96).map fun i => d * 128 + i

/-- The core that the array of a dome grants next (R296). -/
def State.arrGrant (s : State) (d : Nat) : Option Nat :=
  (⟨(s.alm d).turn, 0⟩ : Turn).grant (domeCores d) fun k => !(s.core k).arrQueue.isEmpty

/-- A command of core k that the array has begun is abandoned (R305): ALOAD leaves no image; AEVAL and AGTH have written the
outputs of the first p vectors and some bytes of the next, p and their number being free values (log 5). -/
def State.arrAbandon (s : State) (k : Nat) (e : ArrEntry) : State :=
  let d := domeOf k
  let t := (s.draw 2).setMem (s.mem.acquire (s.mem.live e.carried) (.array d))
  let p (n : Nat) : Nat := Config.freeNat s.fresh % n
  let q (size : Nat) : Nat := Config.freeNat (s.fresh + 1) % (size + 1)
  match e.cmd with
  | .aload _ => t.setAlm d { t.alm d with ivalid := false }
  | .aeval n features out => (t.aevalRun d k e (p n + 1) features (subExtents out 0 (128 * p n + q 128))).2
  | .agth n leaves table partials out =>
    (List.range (p n + 1)).foldl (State.agthOne d k leaves table partials (subExtents out 0 (4 * p n + q 4))) t

/-- What a pre-emption of core k does in the array (R305): queued commands of the current region are dropped; whether the
array had begun the first of them, where its turn allows that, is the hardware's choice (log 5). -/
def State.arrPreempt (s : State) (k : Nat) : State :=
  let c := s.core k
  let old := c.arrQueue.filter (·.region != c.regionNo)
  let t := s.setCore k { c with arrQueue := old }
  match c.arrQueue.find? (·.region == c.regionNo) with
  | some e =>
    if old.isEmpty && s.arrGrant (domeOf k) == some k && Config.freeBool s.fresh then
      (t.draw.setAlm (domeOf k) { t.alm (domeOf k) with turn := some k }).arrAbandon k e
    else t.draw
  | none => s

/-- The next command of the array of a dome is performed, if it is of the kind that the step names (R296); one that accesses a slice
of an exchange is held (R389). -/
def State.arrStep (s : State) (d : Nat) (kind : ArrCmd → Bool) : State :=
  match s.arrGrant d with
  | none => s
  | some k =>
    if (s.core k).arrQueue.head?.any fun e => kind e.cmd && !e.cmd.extents.any fun x => s.heldSpan x.pa x.size then
      (s.setAlm d { s.alm d with turn := some k }).arrRun k
    else s

/-- ALOAD_EXECUTE (R301). -/
def execAloadExecute (d : Nat) (s : State) : Out :=
  .next (s.arrStep d fun c => match c with | .aload _ => true | _ => false)
/-- AEVAL_EXECUTE (R302). -/
def execAevalExecute (d : Nat) (s : State) : Out :=
  .next (s.arrStep d fun c => match c with | .aeval .. => true | _ => false)
/-- AGTH_EXECUTE (R303). -/
def execAgthExecute (d : Nat) (s : State) : Out :=
  .next (s.arrStep d fun c => match c with | .agth .. => true | _ => false)

/-! ## Issue (R299) -/

/-- An array-operand fault. -/
def State.arrFault (s : State) : Res := s.faultPc 14 0

/-- The bits of the array configuration: KEY and FMT (R295). -/
def arrCfgMask : Word := 0x0000FFFF00000001

/-- ACFG (R300). -/
def execAcfg (d a : GReg) (s : State) : Out :=
  s.issue (rr d a) fun t =>
    let x := t.me.readG a
    t.ready [x] (t.clean [x] 5 (
      if x.value &&& ~~~arrCfgMask ≠ 0 then t.arrFault
      else .ok (t.setMe ({ t.me with arrCfg := x.value }.setG d (Reg.data t.me.arrCfg)))))

/-- An extent of an array command: its register, bytes, alignment, permission and access. -/
structure Side where
  x : Reg
  n : Nat
  align : Nat
  perm : Perm
  right : Access
deriving DecidableEq, Repr

/-- Two extents share a byte. -/
def Side.overlaps (a b : Side) : Bool :=
  decide (a.x.value.toNat < b.x.value.toNat + b.n) && decide (b.x.value.toNat < a.x.value.toNat + a.n)

/-- The checks of extents in the order of R299: capabilities, alignments, overlaps, translations. -/
def State.sides (s : State) (l : List Side) (overlap : Bool) (k : List (List Extent) → State → Res) : Res :=
  match l.find? fun e => capFault e.x e.x.value.toNat e.n [e.perm] != 0 with
  | some e => .fault 5 (capFault e.x e.x.value.toNat e.n [e.perm]) e.x.value 0 s
  | none =>
    match l.find? fun e => e.x.value.toNat % e.align != 0 with
    | some e => .fault 4 0 e.x.value 0 s
    | none => if overlap then s.arrFault else go l [] s
where
  /-- The extents translated one after the other. -/
  go : List Side → List (List Extent) → State → Res
    | [], acc, t => k acc t
    | e :: rest, acc, t =>
      match State.extents t.cur [e.right] (e.n / 65536 + 2) e.x.value.toNat e.n t with
      | (.error (d, va), u) => .fault 6 d (w64 va) 0 u
      | (.ok x, u) => go rest (acc ++ [x]) u

/-- A command enters the queue of 4 with what it records, and d receives its status (R296, R299). -/
def State.enterArr (s : State) (d : GReg) (cmd : ArrCmd) : Res :=
  if 4 ≤ s.me.arrQueue.length then .wait .arrayQueue s
  else
    s.inOrder <| s.lateG d .i64 fun res t =>
      let r := t.release t.cur
      let c := r.2.me
      let cfg := c.arrCfg.toNat
      let e : ArrEntry := ⟨cmd, bits cfg 32 16, bit cfg 0, c.asid, c.vfid, res, c.regionNo, r.1⟩
      .ok (r.2.setMe { c with arrQueue := c.arrQueue ++ [e] })

/-- A count word (R302); a CAP counts as its address (R88). DEDUCED (log 29), unsafe. -/
def countWord (x : Reg) : Option Nat :=
  let n := x.value.toNat
  if 0 < n ∧ n ≤ 65536 then some n else none

/-- ALOAD (R301). -/
def execAload (d a : GReg) (s : State) : Out :=
  s.issue (rr d a) fun t =>
    let x := t.me.readG a
    t.ready [x] (t.clean [x] 1 (t.sides [⟨x, 131072, 64, .r, .read⟩] false fun l u =>
      u.enterArr d (.aload (l.getD 0 []))))

/-- AEVAL (R302). -/
def execAeval (d a b : GReg) (s : State) : Out :=
  s.issue { reads := [.g a, .g (a + 1), .g b], writes := [.g d] } fun t =>
    let x := t.me.readG a
    let c := t.me.readG (a + 1)
    let y := t.me.readG b
    t.clean [x] 1 (t.clean [c] 5 (t.clean [y] 1 (t.ready [x, c, y] (
      match countWord c with
      | none => t.arrFault
      | some n =>
        let i : Side := ⟨x, n * 512, 64, .r, .read⟩
        let o : Side := ⟨y, n * 128, 64, .w, .write⟩
        t.sides [i, o] (o.overlaps i) fun l u => u.enterArr d (.aeval n (l.getD 0 []) (l.getD 1 []))))))

/-- AGTH (R303). -/
def execAgth (d a b : GReg) (s : State) : Out :=
  s.issue { reads := [.g a, .g (a + 1), .g (a + 2), .g (a + 3), .g b], writes := [.g d] } fun t =>
    let x := t.me.readG a
    let tb := t.me.readG (a + 1)
    let c := t.me.readG (a + 2)
    let pt := t.me.readG (a + 3)
    let y := t.me.readG b
    t.clean [x, tb] 1 (t.clean [c] 5 (t.clean [pt, y] 1 (t.ready [x, tb, c, pt, y] (
      match countWord c with
      | none => t.arrFault
      | some n =>
        let i : Side := ⟨x, n * 128, 64, .r, .read⟩
        let w : Side := ⟨tb, 32768, 64, .r, .read⟩
        let p : List Side := if pt.tag = .data ∧ pt.value = 0 then [] else [⟨pt, n * 4, 4, .r, .read⟩]
        let o : Side := ⟨y, n * 4, 4, .w, .write⟩
        t.sides ([i, w] ++ p ++ [o]) (([i, w] ++ p).any o.overlaps) fun l u =>
          u.enterArr d (.agth n (l.getD 0 []) (l.getD 1 []) (if p.isEmpty then [] else l.getD 2 [])
            (l.getD (2 + p.length) []))))))

end Sys2Proof.Machine
end

