-- ==== Sys2Proof/Machine/Near.lean ====
section
/-! DEFINITION. The near units: ports, moves, loads and stores of the anchor, taking and retiring tasks, near faults (R66,
R306 to R319). -/
namespace Sys2Proof.Machine

/-! ## Values and ports (R306, R308) -/

/-- A 32-bit value in every lane. -/
def NearVal.all (x : BitVec 32) : NearVal := ⟨Vector.replicate 8 x, 0⟩
/-- Lane 0. -/
def NearVal.lane0 (v : NearVal) : BitVec 32 := v.lanes[0]
/-- Lane 0 is poisoned. -/
def NearVal.bad0 (v : NearVal) : Bool := v.pois.getLsbD 0

/-- Lane i of a number of 32-bit lanes. -/
def laneOf (x i : Nat) : BitVec 32 := BitVec.ofNat 32 (x / 2 ^ (32 * i))

/-- A readable port's value, but for ldd (R308). -/
def NearUnit.port (u : NearUnit) (e : Entry) (p : Nat) : Option NearVal :=
  if p < 8 then some u.n[Fin.ofNat 8 p]
  else
    match p with
    | 0x08 => some ⟨Vector.ofFn fun i => laneOf e.desc.anchor i.val, 0⟩
    | 0x09 => some (NearVal.all (BitVec.ofNat 32 (e.desc.alen + 1)))
    | 0x0A => some ⟨Vector.ofFn fun i => laneOf (e.desc.args[i.val / 2]).toNat (i.val % 2), 0⟩
    | 0x0B => some (NearVal.all (BitVec.ofNat 32 e.seq))
    | 0x0C => some (NearVal.all (u.k.zeroExtend 32))
    | 0x0D => some ⟨Vector.ofFn fun i => BitVec.ofNat 32 i.val, 0⟩
    | 0x0E => some NearVal.zero
    | 0x11 => some u.res
    | _ => none

/-- A port serves as a destination (R308). -/
def portWrites (p : Nat) : Bool :=
  decide (p < 8) || p == 0x0C || p == 0x0F || p == 0x10 || (decide (0x12 ≤ p) && decide (p ≤ 0x3B) && p != 0x1D && p != 0x23)

/-- The units behind the trigger ports (R309). -/
inductive NearFn where
  | alu | load | store | compare
deriving DecidableEq, Repr

/-- The unit that a port triggers. -/
def portFn (p : Nat) : Option NearFn :=
  if 0x12 ≤ p ∧ p ≤ 0x1B then some .alu
  else if p = 0x1C then some .load
  else if p = 0x1F then some .store
  else if 0x24 ≤ p ∧ p ≤ 0x3B then some .compare
  else none

/-- What a move reads: a port, or the immediate's value. -/
inductive NearSrc where
  | port (p : Nat)
  | imm (v : BitVec 32)
deriving DecidableEq, Repr

/-- A move of an instruction: slot, guard, source, destination. -/
structure NearMove where
  slot : Nat
  guard : Fin 4
  src : NearSrc
  dst : Nat
deriving DecidableEq, Repr

/-- A live move with the value it has read. -/
structure LiveMove where
  slot : Nat
  dst : Nat
  value : NearVal
deriving DecidableEq, Repr

/-- The move pops the load FIFO. -/
def NearMove.pops (m : NearMove) : Bool := m.src == .port 0x1D

/-! ## The anchor (R313) -/

/-- The physical base of the task's chunks. -/
def Entry.base (e : Entry) : Nat := e.pa / 32 * 32
/-- A physical byte lies in the anchor. -/
def Entry.inside (e : Entry) (pa : Nat) : Bool := decide (e.pa ≤ pa) && decide (pa ≤ e.pa + e.desc.alen)
/-- The enqueuing capability and the page let the task load (R313). -/
def Entry.mayLoad (e : Entry) : Bool := e.perms.getLsbD 7 && e.pageR
/-- The chunk at an offset may be loaded or stored (R313). -/
def Entry.chunkOk (e : Entry) (off : Nat) (store : Bool) : Bool :=
  off % 32 == 0 && decide (e.pa < e.base + off + 32) && decide (e.base + off ≤ e.pa + e.desc.alen) &&
    e.perms.getLsbD (if store then 6 else 7) && (if store then e.pageW else e.pageR)

/-- A chunk as the near unit reads it (R313). -/
def Memory.chunkRead (m : Memory) (v : Viewer) (e : Entry) (off : Nat) : NearVal :=
  let at_ := e.base + off
  let bs := (span at_ 32).map fun a => if e.inside a then m.view v a else 0
  ⟨Vector.ofFn fun i => laneOf (leNat bs) i.val,
    BitVec.ofNat 8 (((List.range 8).map fun i => if (m.viewMark v ((at_ + 4 * i) / 8)).isSome then 2 ^ i else 0).sum)⟩

/-- The byte of a store at a place, if the store writes it. -/
def NearWrite.byteAt (w : NearWrite) (e : Entry) (pa : Nat) : Option Byte :=
  let i := pa - (e.base + w.off)
  if w.mask.getLsbD (i / 4) && e.inside pa then some (BitVec.ofNat 8 ((w.value.lanes[Fin.ofNat 8 (i / 4)]).toNat / 2 ^ (8 * (i % 4))))
  else none

/-- One 8-byte word of a store performed at the home (R313, R318). -/
def State.nearWord (h u : Nat) (e : Entry) (w : NearWrite) (s : State) (j : Nat) : State :=
  let at_ := e.base + w.off + 8 * j
  let places := (span at_ 8).filter fun a => (w.byteAt e a).isSome
  match places with
  | [] => s
  | a :: _ =>
    let lane (i : Nat) : Bool :=
      w.value.pois.getLsbD i && (span (e.base + w.off + 4 * i) 4).any fun x => (w.byteAt e x).isSome
    s.writeMem { writer := .nearUnit h u, seenBy := [[.home h]] } a (places.filterMap (w.byteAt e))
      (fun _ => lane (2 * j) || lane (2 * j + 1)) false

/-- A store performed at the home. -/
def State.nearStore (s : State) (h u : Nat) (e : Entry) (w : NearWrite) : State :=
  (List.range 4).foldl (State.nearWord h u e w) s

/-! ## Units and their tasks -/

/-- Near unit u of home h. -/
def State.near (s : State) (h u : Nat) : NearUnit := (s.home h).units[Fin.ofNat 4 u]
/-- The state with it replaced. -/
def State.setNear (s : State) (h u : Nat) (x : NearUnit) : State :=
  s.setHome h { s.home h with units := (s.home h).units.set (Fin.ofNat 4 u).val x }

/-- The entry of a queue of a home. -/
def State.entryAt (s : State) (h qi seq : Nat) : Option Entry := ((s.home h).queue qi).find seq

/-- The task that a near unit runs. -/
def State.nearTask (s : State) (h u : Nat) : Option (Nat × Entry) :=
  match (s.near h u).mode with
  | .running qi seq => (s.entryAt h qi seq).map fun e => (qi, e)
  | .idle | .header _ _ | .retiring _ _ => none

/-- Every store in the write queue is performed at the home, in order. -/
def State.nearDrain (s : State) (h u : Nat) (e : Entry) : State :=
  let x := s.near h u
  x.writes.foldl (fun t w => t.nearStore h u e w) (s.setNear h u { x with writes := [] })

/-- The loads outstanding read their chunks: those of a task are performed in program order with its stores (R313). -/
def State.nearLoads (s : State) (h u : Nat) (e : Entry) : State :=
  let d := s.nearDrain h u e
  let t := (d.near h u).fifo.foldl (fun w c => w.checked (e.base + c.off) 32) d
  let x := t.near h u
  t.setNear h u { x with fifo := x.fifo.map fun c =>
    { c with arrived := c.arrived.orElse fun _ => some (t.mem.chunkRead (.nearUnit h u) e c.off) } }

/-- The unit is free again. -/
def NearUnit.free (x : NearUnit) : NearUnit := { NearUnit.reset with cache := x.cache }

/-- The rules order a near task's accesses: its anchor stands on a page whose scope holds the near units (R211, R318). -/
def Entry.inScope (e : Entry) : Bool := decide (3 ≤ e.sc)

/-- The writes that a task's retirement releases: its own to its anchor and those it acquired (R71). -/
def State.nearIds (s : State) (h u : Nat) (e : Entry) : List Nat :=
  (if e.inScope then s.mem.within (s.mem.writesOf (.nearUnit h u)) e.pa (e.desc.alen + 1) else []) ++ s.mem.live e.carried

/-- The task of a unit leaves its queue (R72, R314). -/
def State.nearEnd (s : State) (h u qi : Nat) (e : Entry) (end_ : End) : State :=
  let t := s.nearDrain h u e
  (t.setNear h u (t.near h u).free).retireTask ⟨h, qi, e.seq⟩ end_ (t.nearIds h u e)

/-- The payload of a near fault's message (R319). DEDUCED (log 23), unsafe. -/
def nearFaultWords (h qi : Nat) (e : Entry) (detail slot index time : Nat) : List Word :=
  [w64 (detail * 256 + 18), w64 e.desc.anchor, w64 (qi * 2 ^ 41 + h * 2 ^ 32 + e.seq), w64 e.desc.nearpc,
    w64 (slot * 256 + index), w64 time]

/-- A near fault of the task of a unit (R319). -/
def State.nearFaultOf (s : State) (h u qi : Nat) (e : Entry) (detail slot index : Nat) : State :=
  let t := s.nearDrain h u e
  (t.faultMessage e.ctx e.core (nearFaultWords h qi e detail slot index t.time) (t.nearIds h u e)
    (some (.nearUnit h u))).nearEnd h u qi e .faulted

/-! ## One instruction (R309 to R314) -/

/-- The result lane of an ALU trigger (R311). -/
def aluLane (op : Nat) (a x : BitVec 32) : BitVec 32 :=
  match op with
  | 0 => a + x
  | 1 => a - x
  | 2 => a &&& x
  | 3 => a ||| x
  | 4 => a ^^^ x
  | 5 => if a.sle x then a else x
  | 6 => if x.sle a then a else x
  | 7 => a <<< (x.toNat % 32)
  | 8 => a >>> (x.toNat % 32)
  | _ => a * x

/-- A comparison of lane 0 (R312). -/
def nearRel (rel : Nat) (a x : BitVec 32) : Bool :=
  match rel with
  | 0 => a == x
  | 1 => a != x
  | 2 => a.slt x
  | 3 => !a.slt x
  | 4 => a.ult x
  | _ => !a.ult x

/-- k with one guard set. -/
def setGuard (k : BitVec 4) (g : Nat) (b : Bool) : BitVec 4 :=
  if b then k ||| BitVec.ofNat 4 (2 ^ g) else k &&& ~~~(BitVec.ofNat 4 (2 ^ g))

/-- Step 3 of R309: a write to a data register, a latch or k takes effect. -/
def NearUnit.latch (x : NearUnit) (m : LiveMove) : NearUnit :=
  if m.dst < 8 then { x with n := x.n.set (Fin.ofNat 8 m.dst).val m.value }
  else
    match m.dst with
    | 0x0C => { x with k := m.value.lane0.truncate 4 }
    | 0x10 => { x with o := m.value }
    | 0x1E => { x with sta := m.value.lane0 }
    | 0x20 => { x with stm := m.value.lane0.truncate 8 }
    | _ => x

/-- Step 4 of R309: a trigger fires, with the latches as step 3 left them. -/
def NearUnit.trigger (x : NearUnit) (m : LiveMove) : NearUnit :=
  match portFn m.dst with
  | some .alu =>
    { x with res := ⟨Vector.ofFn fun i => aluLane (m.dst - 0x12) x.o.lanes[i.val] m.value.lanes[i.val], x.o.pois ||| m.value.pois⟩ }
  | some .compare =>
    { x with k := setGuard x.k ((m.dst - 0x24) % 4) (nearRel ((m.dst - 0x24) / 4) x.o.lane0 m.value.lane0) }
  | some .load => { x with fifo := x.fifo ++ [⟨m.value.lane0.toNat, none⟩] }
  | some .store => { x with writes := x.writes ++ [⟨x.sta.toNat, m.value, x.stm⟩] }
  | none => x

/-- The DETAILs that a live move raises on its own, with the unit as step 3 left it (R308, R310, R313).
DEDUCED (log 34), unsafe. -/
def NearUnit.moveFaults (x : NearUnit) (e : Entry) (m : LiveMove) : List Nat :=
  let bad := m.value.bad0
  match portFn m.dst with
  | some .load =>
    (if bad then [7] else []) ++
      (if (if bad then e.mayLoad else e.chunkOk m.value.lane0.toNat false) then [] else [4]) ++
      (if 4 ≤ x.fifo.length then [6] else [])
  | some .store => if e.chunkOk x.sta.toNat true then [] else [4]
  | some .compare => if bad || x.o.bad0 then [7] else []
  | some .alu => []
  | none => if bad && (m.dst == 0x0C || m.dst == 0x1E || m.dst == 0x20 || m.dst == 0x21) then [7] else []

/-- The least DETAIL of those raised, with its slot: 0 where both moves raise it. -/
def lowestFault : List (Nat × Nat) → Option (Nat × Nat)
  | [] => none
  | x :: rest =>
    match lowestFault rest with
    | none => some x
    | some y => if x.1 < y.1 ∨ (x.1 = y.1 ∧ x.2 ≤ y.2) then some x else some y

/-- What an instruction's moves read and pop, without the stalls. -/
structure NearRead where
  unit : NearUnit
  live : List LiveMove
  faults : List (Nat × Nat)

/-- Steps 1 and 2 of R309. -/
def NearUnit.reads (x : NearUnit) (e : Entry) (moves : List NearMove) : NearRead :=
  let ms := moves.filter fun m => x.k.getLsbD m.guard.val
  let popped := x.fifo.head?.bind Chunk.arrived
  let value (m : NearMove) : Option NearVal :=
    match m.src with
    | .imm v => some (NearVal.all v)
    | .port p => if p = 0x1D then some (popped.getD NearVal.zero) else x.port e p
  { unit := if ms.any NearMove.pops then { x with fifo := x.fifo.drop 1 } else x
    live := ms.map fun m => ⟨m.slot, m.dst, (value m).getD NearVal.zero⟩
    faults := ms.flatMap fun m =>
      (if (value m).isNone || !portWrites m.dst then [(3, m.slot)] else []) ++
        (if m.pops && x.fifo.isEmpty then [(6, m.slot)] else []) }

/-- The two live moves trigger one unit (R309). -/
def sameUnit (l : List LiveMove) : Bool :=
  match l.map fun m => portFn m.dst with
  | [some a, some b] => a == b
  | _ => false

/-- The unit after step 3 (R309). -/
def NearRead.latched (r : NearRead) : NearUnit := r.live.foldl NearUnit.latch r.unit

/-- The fault that an instruction raises before it takes effect. -/
def NearRead.fault (r : NearRead) (e : Entry) : Option (Nat × Nat) :=
  let x := r.latched
  lowestFault (r.faults ++ (if sameUnit r.live then [(5, 1)] else []) ++
    r.live.flatMap fun m => (x.moveFaults e m).map fun d => (d, m.slot))

/-- Step 4 of R309 for one move: before a store enters the write queue, the loads that precede it and are still on their way read
their chunks (R313). -/
def State.nearFire (h u : Nat) (e : Entry) (s : State) (m : LiveMove) : State :=
  let due := (s.near h u).fifo.any fun c => c.arrived.isNone
  let t := if portFn m.dst = some .store ∧ due = true then s.nearLoads h u e else s
  t.setNear h u ((t.near h u).trigger m)

/-- The index that a live move writes to jmp; move 1's stands. -/
def jmpOf (l : List LiveMove) : Option Nat :=
  (l.filter fun m => m.dst == 0x21).getLast?.map fun m => m.value.lane0.toNat % 256

/-- The task of unit u of home h reaches 1,048,576 instructions without retiring (R319). -/
def State.nearLimit (s : State) (h u : Nat) : State :=
  match s.nearTask h u with
  | some (qi, e) => s.nearFaultOf h u qi e 9 0 (s.near h u).index
  | none => s

/-- The most instructions that a task executes (R319). -/
def nearMost : Nat := 1048576

/-- A near instruction executes on unit u of home h (R309): it stalls for a chunk that has not arrived or a full write
queue (R313, R315); else it faults, or takes effect and the index moves on (R314). -/
def State.nearExec (s : State) (h u : Nat) (moves : List NearMove) : State :=
  match s.nearTask h u with
  | none => s
  | some (qi, e) =>
    let x := s.near h u
    let pops := moves.any fun m => x.k.getLsbD m.guard.val && m.pops
    if nearMost ≤ x.count then s.nearLimit h u
    else if pops && (x.fifo.head?.any fun c => c.arrived.isNone) then s
    else
      let r := x.reads e moves
      match r.fault e with
      | some (d, slot) => s.nearFaultOf h u qi e d slot x.index
      | none =>
        let stores := r.live.any fun m => m.dst == 0x1F
        if stores && decide (4 ≤ x.writes.length) then s
        else
          let s1 := r.live.foldl (State.nearFire h u e) (s.setNear h u r.latched)
          let y := s1.near h u
          let next := (jmpOf r.live).getD (x.index + 1)
          if r.live.any fun m => m.dst == 0x22 then
            s1.setNear h u { y with
              mode := .retiring qi e.seq
              fifo := []
              count := x.count + 1 }
          else if x.image.code.length ≤ next then s1.nearFaultOf h u qi e 8 0 x.index
          else s1.setNear h u { y with
            index := next
            count := x.count + 1 }

/-- A near instruction runs on the near unit whose turn it is. -/
def State.nearMoves (s : State) (moves : List NearMove) : Out :=
  match s.nearCur with
  | some (h, u) => .next (s.nearExec h u moves)
  | none => .next s

/-- Two moves (R307, R309). -/
def execNearTwoMoves (g1 : Fin 4) (s1 d1 : Port) (g0 : Fin 4) (s0 d0 : Port) (s : State) : Out :=
  s.nearMoves [⟨0, g0, .port s0.val, d0.val⟩, ⟨1, g1, .port s1.val, d1.val⟩]

/-- The value of an immediate move (R307). -/
def nearImm (x : Fin 3) (imm : BitVec 16) : BitVec 32 :=
  match x.val with
  | 0 => imm.zeroExtend 32
  | 1 => imm.signExtend 32
  | _ => imm.zeroExtend 32 <<< (16 : Nat)

/-- An immediate move (R307, R309). -/
def execNearImmediateMove (x : Fin 3) (g : Fin 4) (d : Port) (imm : BitVec 16) (s : State) : Out :=
  s.nearMoves [⟨0, g, .imm (nearImm x imm), d.val⟩]

/-- A word of a reserved form or with a nonzero reserved field at the unit's index (R307, R319). -/
def State.nearReserved (s : State) (detail : Nat) : State :=
  match s.nearCur with
  | none => s
  | some (h, u) =>
    match s.nearTask h u with
    | some (qi, e) =>
      if nearMost ≤ (s.near h u).count then s.nearLimit h u else s.nearFaultOf h u qi e detail 0 (s.near h u).index
    | none => s

/-- NEAR_RESERVED_FORM (R319). -/
def execNearReservedForm (detail : Nat) (s : State) : Out := .next (s.nearReserved detail)

/-- NEAR_INSTRUCTION_LIMIT (R319). -/
def execNearInstructionLimit (h u : Nat) (s : State) : Out :=
  if nearMost ≤ (s.near h u).count then .next (s.nearLimit h u) else .next s

/-- NEAR_CHUNK_ARRIVAL (R313): the oldest chunk on its way is read. -/
def execNearChunkArrival (h u : Nat) (s : State) : Out :=
  match s.nearTask h u with
  | none => .next s
  | some (_, e) =>
    let t := s.nearDrain h u e
    let x := t.near h u
    match x.fifo.findIdx? fun c => c.arrived.isNone with
    | none => .next s
    | some i =>
      let v := t.checked (e.base + ((x.fifo[i]?).map (·.off)).getD 0) 32
      .next (v.setNear h u { x with fifo := x.fifo.zipIdx.map fun c =>
        if c.2 = i then { c.1 with arrived := some (v.mem.chunkRead (.nearUnit h u) e c.1.off) } else c.1 })

/-- The entry whose stores stand in a unit's write queue. -/
def State.nearOwner (s : State) (h u : Nat) : Option (Nat × Entry) :=
  match (s.near h u).mode with
  | .running qi seq | .retiring qi seq => (s.entryAt h qi seq).map fun e => (qi, e)
  | .idle | .header _ _ => none

/-- NEAR_WRITE_QUEUE_DRAIN (R315): the oldest store is performed at the home. -/
def execNearWriteQueueDrain (h u : Nat) (s : State) : Out :=
  match s.nearOwner h u, (s.near h u).writes with
  | some (_, e), w :: rest => .next ((s.setNear h u { s.near h u with writes := rest }).nearStore h u e w)
  | _, _ => .next s

/-- NEAR_TASK_RETIREMENT (R314): once the write queue has drained. -/
def execNearTaskRetirement (h u : Nat) (s : State) : Out :=
  match (s.near h u).mode with
  | .retiring qi seq =>
    if (s.near h u).writes.isEmpty then
      match s.entryAt h qi seq with
      | some e => .next (s.nearEnd h u qi e .done)
      | none => .next (s.setNear h u (s.near h u).free)
    else .next s
  | .idle | .header _ _ | .running _ _ => .next s

/-! ## Taking (R66, R317) -/

/-- The head of a queue: its Waiting entry with the lowest sequence number (R66). -/
def Queue.head (q : Queue) : Option Entry := q.entries.find? (·.cond == .waiting)

/-- The head of queue i is takeable, its image aside (R66, R73 to R75). -/
def Home.takeable (x : Home) (i : Nat) : Option Entry :=
  let q := x.queue i
  q.head.filter fun e =>
    !e.headerRead && !q.withheld e && !x.returning && !x.burst && decide (x.debt < 8) &&
      match x.lease with | some l => l.1 == e.ctx | none => true

/-- The queues in the order in which a free unit examines them (R66). -/
def Home.ring (x : Home) : List Nat := (List.range 8).map fun i => (x.ptr + 1 + i) % 8

/-- The stack of a home lets it take near tasks: it is neither too hot nor being recalibrated (R387, R405). -/
def State.takesNear (s : State) (h : Nat) : Bool :=
  let k := s.stack (stackOfHome h)
  !k.blocked && !k.recal

/-- NEAR_TAKE (R66, R317): a free near unit selects the first takeable head and reads its header. DESIGN CHOICE (log 71),
unsafe: the pointer to the last queue taken from moves at this selection, even where the header read then fails. -/
def execNearTake (h u : Nat) (s : State) : Out :=
  let x := s.home h
  if (s.near h u).mode = .idle ∧ s.takesNear h = true then
    match x.ring.findSome? fun i => (x.takeable i).map fun e => (i, e) with
    | some (i, e) =>
      let y := { x.modQueue i (fun q => q.modEntry e.seq fun w => { w with headerRead := true }) with ptr := i }
      .next ((s.setHome h y).setNear h u { s.near h u with mode := .header i e.seq })
    | none => .next s
  else .next s

/-- Bytes at a virtual address under a launch's ASID with page right R; none where a translation fails or a word is
poisoned (R317). -/
def State.imageBytes (v : Viewer) (vf asid : Nat) : Nat → Nat → Nat → State → Option (List Byte) × State
  | 0, _, _, s => (some [], s)
  | fuel + 1, va, n, s =>
    if n = 0 then (some [], s)
    else
      match s.engineTo v vf asid va [.read] with
      | (.error _, t) => (none, t)
      | (.ok p, t0) =>
        let m := min n (65536 - va % 65536)
        let t := t0.checked p.pa m
        if (t.mem.poisonIn v p.pa m).isSome then (none, t)
        else
          match State.imageBytes v vf asid fuel (va + m) (n - m) t with
          | (some l, w) => (some (t.mem.viewBytes v p.pa m ++ l), w)
          | r => r

/-- The instructions of an image from its bytes. -/
def imageCode : List Byte → List (BitVec 32)
  | a :: b :: c :: d :: rest => BitVec.ofNat 32 (leNat [a, b, c, d]) :: imageCode rest
  | _ => []

/-- A header's reserved fields are 0 (R316). -/
def headerOk (x : Nat) : Bool := bits x 8 24 == 0 && bits x 64 64 == 0

/-- The image of a task: the cached one whose key the header gives, or the one in memory; none where it cannot be read or
its header is malformed (R317). -/
def State.nearImage (s : State) (h u : Nat) (e : Entry) : Option Image × State :=
  match mget s.launches e.ctx with
  | none => (none, s)
  | some l =>
    let v := Viewer.nearUnit h u
    match s.engineTo v l.vf l.asid e.desc.nearpc [.read], State.imageBytes v l.vf l.asid 2 e.desc.nearpc 16 s with
    | (.ok p, _), (some hd, t) =>
      let x := leNat hd
      if headerOk x then
        let stamp := BitVec.ofNat 32 (x / 2 ^ 32)
        match (t.near h u).cache.find? fun i => i.asid == l.asid && i.pa == p.pa && i.stamp == stamp with
        | some i => (some i, t)
        | none =>
          match State.imageBytes v l.vf l.asid 2 (e.desc.nearpc + 16) (4 * (bits x 0 8 + 1)) t with
          | (some bs, w) => (some ⟨l.asid, p.pa, stamp, imageCode bs⟩, w)
          | (none, w) => (none, w)
      else (none, t)
    | _, (_, t) => (none, t)

/-- The four images of a unit, the one started last first (R317). -/
def cacheImage (l : List Image) (i : Image) : List Image :=
  (i :: l.filter fun x => !(x.asid == i.asid && x.pa == i.pa && x.stamp == i.stamp)).take 4

/-- A unit at the start of a task (R306). -/
def NearUnit.begin (x : NearUnit) (qi seq : Nat) (i : Image) : NearUnit :=
  { NearUnit.reset with
    mode := .running qi seq
    image := i
    cache := cacheImage x.cache i }

/-- NEAR_HEADER_READ_COMPLETE (R317): the entry becomes Taken, or retires faulted with DETAIL 10. The body acquires what
its enqueue released and the writes of the tasks that have retired before to their anchors (R71). DESIGN CHOICE (log 71), unsafe:
whether the head is still takeable is not asked again. -/
def execNearHeaderReadComplete (h u : Nat) (s : State) : Out :=
  match (s.near h u).mode with
  | .header qi seq =>
    match s.entryAt h qi seq with
    | none => .next (s.setNear h u (s.near h u).free)
    | some e =>
      match s.nearImage h u e with
      | (none, t) => .next (t.nearFaultOf h u qi e 10 0 0)
      | (some i, t) =>
        let x := t.home h
        let got := t.mem.live (t.homes.flatMap fun r => r.2.released)
        let y := x.modQueue qi fun q => q.modEntry seq fun w => { w with
          cond := .taken
          headerRead := false
          carried := w.carried ++ got }
        let m := if e.inScope then t.mem.acquire (t.mem.live (e.carried ++ got)) (.nearUnit h u) else t.mem
        .next (((t.setMem m).setHome h y).setNear h u ((t.near h u).begin qi seq i))
  | .idle | .running _ _ | .retiring _ _ => .next s

end Sys2Proof.Machine
end

