-- ==== Sys2Proof/Machine/Deliver.lean ====
section
/-! DEFINITION. How messages travel, arrive and start handlers: inboxes, parking, SPAWN's answer, multicasts and reductions
(R22, R35 to R37, R53, R54, R322 to R337). -/
namespace Sys2Proof.Machine

/-! ## The inbox (R323 to R325) -/

/-- The entry that governs a class: its own, or class 0's; none where both are empty (R324). -/
def Core.governs (c : Core) (cls : Nat) : Option Word :=
  let e := c.classes[Fin.ofNat 64 cls]
  if e.getLsbD 63 then some e else if c.classes[0].getLsbD 63 then some c.classes[0] else none

/-- PRI of a class entry. -/
def entryPri (e : Word) : Nat := bits e.toNat 56 2

/-- A message of a kind takes a reserved slot (R323). -/
def MsgKind.special : MsgKind → Bool
  | .completion => true
  | .start _ | .task _ | .send | .spawn _ _ _ | .root _ | .fault | .notify | .cross => false

/-- The lowest-numbered free slot of the kind that a message needs (R323, R411). -/
def Core.freeFor (c : Core) (special : Bool) : Option (Fin 32) :=
  (List.finRange 32).find? fun i => decide (28 ≤ i.val) == special && c.slots[i.val] == .free

/-- The payload tags with 10 read as 11, and how many there were (R322). -/
def Msg.fixTags (m : Msg) : BitVec 12 × Nat :=
  let bad := (List.range 6).filter fun n => m.tagOf n == 2
  (bad.foldl (fun t n => t ||| BitVec.ofNat 12 (4 ^ n)) m.ptag, bad.length)

/-- A message written into a slot of core k (R323). -/
def State.accept (s : State) (k : Nat) (i : Fin 32) (p : Packet) : State :=
  let f := p.msg.fixTags
  let q := { p with msg := { p.msg with ptag := f.1 } }
  let c := s.core k
  (s.setCore k { c with
    slots := c.slots.set i.val (.holds q)
    order := c.order ++ [i] }).count .badTag f.2

/-- A message discarded at core k and counted: the member that it added counts CANCELLED (R42, R324, R327). -/
def State.discard (s : State) (k : Nat) (p : Packet) : State :=
  let t := s.count (match p.kind with | .notify => .notifyDiscarded | _ => .discarded k)
  if p.member then t.endMember p.msg.launch .cancelled else t

/-- The payload of a class-empty fault message (R324, R371). DEDUCED (log 28), unsafe. -/
def State.classEmptyWords (s : State) (k : Nat) (tcb : Option Nat) (cls : Nat) : List Word :=
  [faultWord 0 tcb k cls 19, 0, 0, 0, s.userWord tcb, w64 s.time]

/-- A message that meets empty classes (R324): a start message or delivery counts FAULTED and is reported, any other is
discarded. -/
def State.classEmpty (s : State) (k : Nat) (p : Packet) : State :=
  match p.kind with
  | .start _ =>
    let tcb := (mget s.launches p.msg.launch).bind (·.tcb)
    (s.faultMessage p.msg.launch k (s.classEmptyWords k tcb p.msg.cls) []).endMember p.msg.launch .faulted
  | .task t =>
    (s.faultMessage p.msg.launch k (s.classEmptyWords k (s.taskTcb t) p.msg.cls) []).retireTask t .faulted []
  | .send | .spawn _ _ _ | .root _ | .completion | .fault | .notify | .cross => s.discard k p

/-- A far body's delivery is written: its entry becomes Delivered (R67). -/
def State.delivered (s : State) (p : Packet) : State :=
  match p.kind with
  | .task t => s.setHome t.home ((s.home t.home).modQueue t.queue fun q =>
      q.modEntry t.seq fun e => { e with cond := .delivered })
  | _ => s

/-- A message that has found its slot: accepted, or turned away by R324. -/
def State.deliver (s : State) (k : Nat) (i : Fin 32) (p : Packet) : State :=
  match (s.core k).governs p.msg.cls with
  | some _ => (s.accept k i p).delivered p
  | none => s.classEmpty k p

/-! ## Arrival (R330, R331) -/

/-- A flight taken out. -/
def State.dropFlight (s : State) (n : Nat) : State := { s with flights := dropAt s.flights n }

/-- Two messages keep their order of sending (R330, R338): sent by SEND, or generated by one engine. -/
def Packet.ordered (p q : Packet) : Bool :=
  let sent (x : Packet) : Bool := (x.kind == .send && !x.msg.flags.getLsbD 3) || x.kind == .cross
  p.msg.src == q.msg.src && p.msg.dest == q.msg.dest && p.msg.cls == q.msg.cls && p.msg.pri == q.msg.pri &&
    ((sent p && p.kind == q.kind && (p.kind == .send || p.msg.launch == q.msg.launch)) || (p.engine.isSome && p.engine == q.engine))

/-- A flight waits behind an earlier one: on its way behind one that keeps its order (R330), parked ones for the other kind of slot
included, once parked behind the parked ones for its core (R331). -/
def State.behind (s : State) (n : Nat) (f : Flight) : Bool :=
  (s.flights.take n).any (fun e =>
    match f.travel, e.travel with
    | .link, .link => e.packet.ordered f.packet
    | .parked _, .parked _ => e.packet.msg.dest == f.packet.msg.dest
    | .link, .parked _ | .link, .placed _ | .parked _, .link | .parked _, .placed _ | .placed _, _ => false) ||
  s.flights.any fun e =>
    match f.travel, e.travel with
    | .link, .parked _ => e.packet.ordered f.packet && e.packet.kind.special != f.packet.kind.special
    | _, _ => false

/-- A message for the core and kind of slot is parked. -/
def State.parkedFor (s : State) (k : Nat) (special : Bool) : Bool :=
  s.flights.any fun e => match e.travel with
    | .parked _ => e.packet.msg.dest == k && e.packet.kind.special == special
    | .link | .placed _ => false

/-- The messages in the parking buffer of a dome (R331). -/
def State.parkedIn (s : State) (d : Nat) : Nat :=
  (s.flights.filter fun e => match e.travel with
    | .parked _ => domeOf e.packet.msg.dest == d
    | .link | .placed _ => false).length

/-- A message comes to its dome over links: from a core or a copy channel of another dome, or from the base die, the network or
another package. -/
def Packet.linked (p : Packet) : Bool :=
  match p.engine, p.kind with
  | some (.channel k _), _ => domeOf k != domeOf p.msg.dest
  | some (.home _), _ | some (.nearUnit ..), _ | some (.stack _), _ | some .orrery, _ => true
  | none, .root _ | none, .notify | none, .cross => true
  | none, .start _ | none, .task _ | none, .send | none, .spawn _ _ _ | none, .completion | none, .fault =>
    domeOf p.msg.src != domeOf p.msg.dest

/-- The links that bring a message stand still (R331): its dome's parking buffer is full, and it comes over them.
DEDUCED (log 35), unsafe. -/
def State.stalled (s : State) (p : Packet) : Bool := decide (32 ≤ s.parkedIn (domeOf p.msg.dest)) && p.linked

/-- The n-th flight is parked, where the buffer of 32 has room; it then stands last (R331). -/
def State.park (s : State) (n : Nat) (f : Flight) : State :=
  if s.parkedIn (domeOf f.packet.msg.dest) < 32 then
    { s with flights := dropAt s.flights n ++ [⟨f.packet, .parked s.rc⟩] }
  else s

/-- The dome still serves a virtual function: it is of its partition, or leaves it (R55, R57). DEDUCED (log 66), unsafe. -/
def State.serves (s : State) (vf d : Nat) : Bool :=
  (s.vf vf).domes.contains d || (match (s.dome d).mode with
    | .retiring v _ _ => v == vf
    | .unassigned | .owned _ | .testing | .disabled => false)

/-- A message whose destination has left its sender's partition is dropped and counted (R55); its member counts
CANCELLED. -/
def State.undelivered (s : State) (p : Packet) : State :=
  let t := s.count (.dropped p.msg.src)
  if p.member then t.endMember p.msg.launch .cancelled else t

/-- A SPAWN arrives (R53, R54): it takes a slot and adds its member, or it bounces, as it does where its launch is over and another has
its index; the answer goes back to the sender's landing slot. DEDUCED (log 57), unsafe. DESIGN CHOICE (log 67), unsafe: a bounce is counted where a SPAWN toward a core
outside the partition is. -/
def State.spawnArrives (s : State) (p : Packet) (landing : Nat) (born : Option Nat) : State :=
  let k := p.msg.dest
  let c := s.core k
  let answer (bounce : Bool) : Flight :=
    ⟨{ p with
      msg := { p.msg with
        dest := p.msg.src
        src := k
        flags := if bounce then 3 else 2 } }, .placed landing⟩
  let back (t : State) (bounce : Bool) : State := { t with flights := t.flights ++ [answer bounce] }
  match c.freeFor false, c.governs p.msg.cls with
  | some i, some _ =>
    if s.takes p.msg.launch && s.sameLaunch p.msg.launch born && s.serves p.vf (domeOf k) then back ((s.join p.msg.launch).accept k i { p with member := true }) false
    else back (s.count (.spawnRefused p.msg.src)) true
  | _, _ => back (s.count (.spawnRefused p.msg.src)) true

/-- The n-th message on its way, at a core of its partition: it takes a free slot, or parks (R324, R331). -/
def State.arriveAt (s : State) (n : Nat) (f : Flight) : Out :=
  let p := f.packet
  let k := p.msg.dest
  match (s.core k).freeFor p.kind.special, f.travel with
  | some i, .parked _ => .next ((s.dropFlight n).deliver k i p)
  | none, .parked _ => .next s
  | some i, _ =>
    if s.stalled p then .next s
    else if s.parkedFor k p.kind.special then .next (s.park n f)
    else .next ((s.dropFlight n).deliver k i p)
  | none, _ => .next (s.park n f)

/-- MESSAGE_ARRIVAL (R49, R55, R324, R331): the n-th message on its way reaches its inbox, or parks; one for a core that takes part
in an exchange is held (R389). -/
def execMessageArrival (n : Nat) (s : State) : Out :=
  match s.flights[n]? with
  | none => .next s
  | some f =>
    let p := f.packet
    let k := p.msg.dest
    if s.behind n f || s.held k then .next s
    else
      match p.kind, f.travel with
      | .spawn _ landing born, .link =>
        if s.stalled p then .next s else .next ((s.dropFlight n).spawnArrives p landing born)
      | .spawn _ _ _, _ => .next s
      | _, .parked _ | _, .link =>
        if !s.serves p.vf (domeOf k) then .next ((s.dropFlight n).undelivered p)
        else s.arriveAt n f
      | _, .placed i =>
        let c := s.core k
        let t := (s.dropFlight n).setCore k { c with slots := c.slots.set (Fin.ofNat 32 i).val .free }
        .next (t.deliver k (Fin.ofNat 32 i) p)

/-- SPAWN_RESPONSE (R53): the answer reaches the sender: the status resolves, and the landing ends. Links that stand still hold it
back (R331). -/
def execSpawnResponse (n : Nat) (s : State) : Out :=
  match s.flights[n]? with
  | some ⟨p, .placed landing⟩ =>
    match p.kind with
    | .spawn st _ _ =>
      let k := p.msg.dest
      let c := s.core k
      let t := (s.dropFlight n).setCore k { c with slots := c.slots.set (Fin.ofNat 32 landing).val .free }
      if s.held k || s.stalled p then .next s else .next (t.status k st (boolWord (p.msg.flags.getLsbD 0)))
    | _ => .next s
  | _ => .next s

/-- PARKING_TIMEOUT (R332): a message of a dome has stayed parked for 2^20 rc: it is logged, and the activation on its
destination is to be pre-empted. Its time of waiting is taken from here on. DEDUCED (log 27), safe. -/
def execParkingTimeout (dome : Nat) (s : State) : Out :=
  let late (f : Flight) : Bool := match f.travel with
    | .parked t => domeOf f.packet.msg.dest == dome && decide (t + 2 ^ 20 ≤ s.rc)
    | .link | .placed _ => false
  match s.flights.find? late with
  | none => .next s
  | some f =>
    let k := f.packet.msg.dest
    let t : State := { s with flights := s.flights.map fun e => if e == f then { e with travel := .parked s.rc } else e }
    let u := (t.count (.parkTimeout k)).note k .park [f.packet.msg.src, f.packet.msg.cls]
    .next (u.setCore k { u.core k with preempt := true })

/-! ## The start of a handler (R22, R35 to R37, R141, R325) -/

/-- The saved contexts: those that wait, and those that are being resumed. -/
def State.contexts (s : State) : List Saved :=
  s.saved ++ s.placements.filterMap fun y => match y.item with | .ctx c => some c | .unit _ _ | .task _ | .tcb _ => none

/-- A context of launch l whose KSELF is `area` is saved, or runs on another core than `self` (R376). -/
def State.areaTaken (s : State) (l area self : Nat) : Bool :=
  (s.contexts.any fun c => c.launch == l && c.kself == area) ||
    s.cores.any fun c => c.1 != self && c.2.kself == area && (match c.2.act with | some a => a.launch == l | none => false)

/-- A context of launch l with KSELF k is saved or runs on another core (R376). -/
def State.areaBusy (s : State) (l k : Nat) : Bool := s.areaTaken l k k

/-- A message may start its handler on core k: no unit that the Orrery has placed there shares an area with a context of its launch
(R376). DEDUCED (log 38), unsafe: it waits in its slot. -/
def State.mayStart (s : State) (k : Nat) (p : Packet) : Bool :=
  match p.kind with
  | .start _ | .task _ => !s.areaBusy p.msg.launch k
  | .send | .spawn _ _ _ | .root _ | .completion | .fault | .notify | .cross => true

/-- The runnable message that the inbox selects, of those that may start: the highest PRI of its governing entry, then the earliest
(R325). -/
def Core.select (c : Core) (may : Packet → Bool) : Option (Fin 32 × Packet × Word) :=
  let runnable := c.waiting.filterMap fun i =>
    match (c.slots[i.val]).msg.filter may with
    | some p => (c.governs p.msg.cls).bind fun e => if e.getLsbD 62 then some (i, p, e) else none
    | none => none
  runnable.foldl (fun best x => match best with
    | none => some x
    | some b => if entryPri b.2.2 < entryPri x.2.2 then some x else some b) none

/-- A waiting message whose classes have become empty since it was accepted (R324). -/
def Core.orphan (c : Core) : Option (Fin 32 × Packet) :=
  c.waiting.findSome? fun i => match (c.slots[i.val]).msg with
    | some p => if (c.governs p.msg.cls).isNone then some (i, p) else none
    | none => none

/-- The listener launch of a message (R42, R327): that named by the message's virtual function for the message's package, the
device's own for NOTIFY. DEDUCED (log 54), unsafe. -/
def State.listener (s : State) (p : Packet) : Option Nat :=
  let pkg := match p.kind with | .cross => some p.msg.launch | _ => s.sc.package
  pkg.bind (mget (s.vf p.vf).listen)

/-- The launch whose unit a message's handler is, with the state once it has joined it (R327). -/
def State.launchFor (s : State) (p : Packet) : Option (Nat × Bool × State) :=
  match p.kind with
  | .notify | .cross =>
    match s.listener p with
    | some l => if s.canJoin l then some (l, true, s.join l) else none
    | none => none
  | .task _ => if (mget s.launches p.msg.launch).isSome then some (p.msg.launch, false, s) else none
  | .start _ => if (mget s.launches p.msg.launch).isSome then some (p.msg.launch, true, s) else none
  | .send | .spawn _ _ _ | .root _ | .completion | .fault =>
    if (mget s.launches p.msg.launch).isSome then some (p.msg.launch, p.member, s) else none

/-- The PC that a message's handler starts at (R35). -/
def State.startPc (s : State) (l : Launch) (p : Packet) (entry : Word) : Word :=
  match p.kind with
  | .start _ => l.desc.pc
  | .task t => ((s.entryAt t.home t.queue t.seq).map fun e => e.desc.farpc).getD 0
  | .send | .spawn _ _ _ | .root _ | .completion | .fault | .notify | .cross => entry &&& 0xFFFFFFFFFFFE

/-- The overflow pointer of an activation (R37). -/
def ovfPtr (ovf : Word) (kself : Nat) : Word := addr48 (ovf + w64 (kself * 2 ^ 18))

/-- A core at the first instruction of an activation of launch l (R22, R36, R37, R141). -/
def State.begun (s : State) (k : Nat) (l : Launch) (a : Act) (slot : Option (Fin 32)) : Core :=
  let c := s.core k
  let top := s.sliceVa l.vf k + 0x40000
  { c with
    g := (Vector.replicate 32 (Reg.data 0)).set 2 (s.stackCap l.vf k a.slim)
    f := Vector.replicate 16 (Reg.data 0)
    v := Vector.replicate 16 ⟨0, 0⟩
    pc := a.startPc
    act := some a
    regionNo := c.regionNo + 1
    windows := []
    wait := none
    kself := k
    asid := l.asid
    vfid := l.vf
    rgnpc := a.startPc
    rgnrec := 0
    splo := w64 (top - a.carve * 1024)
    ovfptr := ovfPtr a.ovf k
    pinned := slot }

/-- An activation at the start of its entry region (R141). -/
def entryAct (l : Nat) (x : Launch) (kind : MsgKind) (counted : Bool) (pc : Word) (base : Nat) : Act where
  launch := l
  kind := kind
  counted := counted
  startPc := pc
  entry := true
  gmask := 0
  fmask := 0
  vmask := 0
  tmask := 0
  zmask := 0
  commit := false
  carve := x.desc.carve
  slim := x.desc.slim
  ovf := x.desc.ovf
  base := base
  left := none

/-- The selected message starts its handler on core k: it acquires what the message carries (R348), and the matrix unit
takes the new owner (R265). An odd start address faults at the start (R105). -/
def State.startHandler (s : State) (k : Nat) (i : Fin 32) (p : Packet) (entry : Word) : State :=
  match s.launchFor p with
  | none => (s.setCore k ((s.core k).freeSlot i)).discard k p
  | some (l, counted, t) =>
    match mget t.launches l with
    | none => t
    | some x =>
      let u := (t.acquire k (t.mem.live p.carried)).matOwner k x.asid x.vf
      let pc := u.startPc x p entry
      let v := u.setCore k (u.begun k x (entryAct l x p.kind counted pc ((u.core k).regionNo + 1)) (some i))
      if pc.getLsbD 0 then v.faultAt k 3 0 pc else v

/-- A core may start a handler: none runs, and it is not kept for an activation that has moved away (R380). -/
def Core.open (c : Core) : Bool := c.act.isNone && c.busyFor.isNone

/-- HANDLER_START (R325): the inbox of core k selects. A message whose classes have become empty leaves its slot first
(R324). A core that is asked to be pre-empted is saved first (R374, R425), one that takes part in an exchange stays as it is
(R389). -/
def execHandlerStart (k : Nat) (s : State) : Out :=
  let c := s.core k
  if c.open && !c.preempt && !s.held k then
    match c.orphan with
    | some (i, p) => .next ((s.setCore k (c.freeSlot i)).classEmpty k p)
    | none =>
      match c.select (s.mayStart k) with
      | some (i, p, e) => .next (s.startHandler k i p e)
      | none => .next s
  else .next s

/-! ## Multicasts and reductions (R335 to R337) -/

/-- A route entry; after reset every one is dimension order (R328). -/
def State.route (s : State) (dome cls : Nat) : Route := (mget s.routes (64 * dome + cls)).getD .dimension

/-- The members that a multicast has still to reach. -/
def Multicast.left (x : Multicast) : List Nat := x.copies.flatMap (·.left)

/-- How many of its whole-packet buffers the router of a dome has in use (R335). -/
def State.mcBuffers (s : State) (d : Nat) : Nat :=
  (s.multis.map fun m => (m.copies.filter fun c => !c.queued && c.node == d).length).sum

/-- A router has a free whole-packet buffer: it holds 8 (R335). -/
def State.mcRoom (s : State) (d : Nat) : Bool := decide (s.mcBuffers d < 8)

/-- The branches of a class beneath a router lead to a dome (R328). -/
def State.treeCovers (s : State) (cls dest : Nat) : Nat → Nat → Bool
  | 0, d => d == dest
  | n + 1, d => d == dest || (match s.route d cls with
      | .treeDown branches => branches.any (State.treeCovers s cls dest n)
      | .dimension | .ring _ | .treeUp .. => false)

/-- The next router of a multicast from a dome toward another (R328, R335): the first of its entry's branches that leads there, else
that dome's, to which the mesh carries the packet. DEDUCED (log 74), unsafe. -/
def State.mcNext (s : State) (cls d dest : Nat) : Nat :=
  match s.route d cls with
  | .treeDown branches => (branches.find? (State.treeCovers s cls dest 64)).getD dest
  | .dimension | .ring _ | .treeUp .. => dest

/-- The final router's replica for a member (R335): it takes a slot of the inbox, or parks, or is dropped where the member is outside the
partition; none while neither slot nor parking buffer has room, or an exchange holds what is for the core. -/
def State.replica (s : State) (p : Packet) (k : Nat) : Option State :=
  let q : Packet := { p with msg := { p.msg with dest := k } }
  if !s.inPartition p.vf k then some (s.undelivered q)
  else if s.held k then none
  else
    match (s.core k).freeFor false, s.parkedFor k false with
    | some i, false => some (s.deliver k i q)
    | _, _ =>
      if s.parkedIn (domeOf k) < 32 then some { s with flights := s.flights ++ [⟨q, .parked s.rc⟩] } else none

/-- The replicas for some members of a router's own dome: the members that are still to be served, and the state. -/
def State.replicas (p : Packet) : List Nat → State → List Nat × State
  | [], s => ([], s)
  | k :: rest, s =>
    match s.replica p k with
    | some t => State.replicas p rest t
    | none => let r := State.replicas p rest s; (k :: r.1, r.2)

/-- The copies that an accepted copy at a dome becomes, from the members that it has yet to reach (R335): one on each branch whose next
router has a free buffer, and itself while some branch has not taken its own. -/
def State.mcCopies (s : State) (cls d : Nat) (left : List Nat) : List McCopy :=
  let next (k : Nat) : Nat := if domeOf k = d then d else s.mcNext cls d (domeOf k)
  let stays (k : Nat) : Bool := next k == d || !s.mcRoom (next k)
  let kept := left.filter stays
  (if kept.isEmpty then [] else [⟨d, false, kept⟩]) ++
    ((left.filter (!stays ·)).map next).eraseDups.map fun h => ⟨h, false, left.filter fun k => !stays k && next k == h⟩

/-- The n-th multicast with its copies replaced; with none left it is over. -/
def State.setCopies (s : State) (n : Nat) (x : Multicast) (l : List McCopy) : State :=
  { s with multis :=
      if l.isEmpty then dropAt s.multis n
      else s.multis.zipIdx.map fun y => if y.2 = n then { x with copies := l } else y.1 }

/-- MULTICAST_FORWARD (R335): the router of a dome takes the n-th multicast from the outbound queue of a core of its dome into a free
buffer, or, from its buffer, serves the members of its dome and forwards a copy on each branch. -/
def execMulticastForward (n dome : Nat) (s : State) : Out :=
  match s.multis[n]? with
  | none => .next s
  | some x =>
    match x.copies.findIdx? fun c => c.node == dome && !c.queued, x.copies.findIdx? fun c => c.node == dome with
    | some i, _ =>
      let c := x.copies.getD i ⟨dome, false, []⟩
      let r := State.replicas x.packet (c.left.filter fun k => domeOf k == dome) s
      let left := r.1 ++ c.left.filter fun k => domeOf k != dome
      .next (r.2.setCopies n x (x.copies.take i ++ r.2.mcCopies x.route dome left ++ x.copies.drop (i + 1)))
    | none, some i =>
      let c := x.copies.getD i ⟨dome, true, []⟩
      if s.mcRoom dome then .next (s.setCopies n x (x.copies.set i { c with queued := false })) else .next s
    | none, none => .next s

/-- One element merged (R336). -/
def mergeElem (op fmt x y : Nat) : Nat :=
  match op with
  | 3 => x &&& y
  | 4 => x ||| y
  | 5 => x ^^^ y
  | _ =>
    rwrNew (match op with | 0 => .sum | 1 => .min | _ => .max)
      (match fmt with | 0 => .s64 | 1 => .s32 | _ => .f32) x y

/-- One word merged: one element of 64 bits or two of 32 (R334). -/
def mergeWord (op fmt : Nat) (x y : Word) : Word :=
  if fmt = 0 then w64 (mergeElem op fmt x.toNat y.toNat)
  else
    w64 (mergeElem op fmt (x.toNat % 2 ^ 32) (y.toNat % 2 ^ 32) +
      2 ^ 32 * mergeElem op fmt (x.toNat / 2 ^ 32) (y.toNat / 2 ^ 32))

/-- Two packets of a round merged (R336). -/
def Part.merge (op fmt : Nat) (x y : Part) : Part :=
  { x with mask := x.mask ||| y.mask, words := List.zipWith (mergeWord op fmt) x.words y.words }

/-- The next node toward the root of a group's tree (R328, R336): what the entry of its class says, else the root's router,
to which the mesh carries the packet. DEDUCED (log 74), unsafe. -/
def State.treeNext (s : State) (cls root d : Nat) : Nat :=
  match s.route d cls with
  | .treeUp _ next => next
  | .dimension | .ring _ | .treeDown _ => root

/-- The nodes that a contribution passes from a dome to the root (R336). -/
def State.treePath (s : State) (cls root : Nat) : Nat → Nat → List Nat
  | 0, d => [d]
  | n + 1, d => if d = root then [d] else d :: State.treePath s cls root n (s.treeNext cls root d)

/-- A node's packet includes every contributor beneath it (R336). -/
def State.nodeFull (s : State) (cls root : Nat) (contrib : List Nat) (p : Part) : Bool :=
  contrib.zipIdx.all fun c => p.mask.getLsbD c.2 || !(s.treePath cls root 64 (domeOf c.1)).contains p.node

/-- The result message of a round (R336, R337): its handler acquires every included contributor's accesses. The message
adds a member to the group's launch, whose completion the round no longer holds. Toward a core outside the partition it
is not delivered (R55). -/
def State.rootResult (s : State) (r : Round) (p : Part) (vf root cls pri nw l : Nat) (full : Bool) : State :=
  let words := (List.range 5).map fun i => if i < nw then p.words.getD i 0 else 0
  let m := { s.message root (0x1000 + r.group) pri cls l 0x10 (words ++ [p.mask]) with incomplete := !full }
  let ok := s.canJoin l
  let t := if ok then s.join l else s
  let q : Packet := ⟨m, .root r.group, ok, r.carried, vf, none⟩
  let u : State := { t with rounds := t.rounds.filter fun x => !(x.group == r.group && x.round == r.round) }
  (if u.inPartition vf root then u.post q else u.undelivered q).unpin l

/-- What the root holds of an abandoned round of which nothing has arrived: no contributor, and words that the spec does not state
(R337). DESIGN CHOICE (log 80), unsafe. -/
def Part.lost (fresh top nw : Nat) : Part := ⟨top, 0, (List.range nw).map fun i => Config.freeWord (fresh + i), none⟩

/-- A round is one of the two lowest that its group holds open (R336). -/
def State.roundOpen (s : State) (r : Round) : Bool :=
  decide ((s.rounds.filter fun x => x.group == r.group && decide (x.round < r.round)).length < 2)

/-- The state with the n-th round replaced. -/
def State.setRound (s : State) (n : Nat) (r : Round) : State :=
  { s with rounds := s.rounds.zipIdx.map fun x => if x.2 = n then r else x.1 }

/-- REDUCTION_MERGE (R336, R337): a packet of the n-th round, in an order that the mesh decides, reaches its node and merges
with what that holds. A node that has every contributor beneath it, or whose round is abandoned, forwards; the root forms
the result. -/
def execReductionMerge (n : Nat) (s : State) : Out :=
  match s.rounds[n]? with
  | none => .next s
  | some r =>
    match mget s.groups r.group with
    | some (.reduction vf route contrib root cls pri op fmt nw l) =>
      if s.roundOpen r then
        let top := domeOf root
        let up (p : Part) : Part := { p with node := s.treeNext route top p.node }
        match r.parts[Config.freeNat s.fresh % r.parts.length]? with
        | some p =>
          let q : Part := match mget r.held p.node with
            | some x => x.merge op fmt p
            | none => { p with src := none }
          let rest := dropAt r.parts (Config.freeNat s.fresh % r.parts.length)
          let full := s.nodeFull route top contrib q
          let t := s.draw
          if q.node = top then
            if full then .next (t.rootResult r q vf root cls pri nw l true)
            else .next (t.setRound n { r with parts := rest, held := mput r.held top q })
          else if full || r.abandoned then
            .next (t.setRound n { r with parts := rest ++ [up q], held := mdel r.held q.node })
          else .next (t.setRound n { r with parts := rest, held := mput r.held q.node q })
        | none =>
          if r.abandoned then
            match r.held.filter fun x => x.1 != top, mget r.held top with
            | [], some q => .next (s.rootResult r q vf root cls pri nw l false)
            | [], none => .next ((s.draw nw).rootResult r (Part.lost s.fresh top nw) vf root cls pri nw l false)
            | below, _ =>
              .next (s.setRound n { r with
                parts := below.map fun x => up x.2
                held := r.held.filter fun x => x.1 == top })
          else .next s
      else .next s
    | some (.multicast ..) | none => .next s

/-- The mask of pre-emption lines that the Orrery gives core k at a dispatch of a virtual function (R353): a choice of its own
among the lines of the die that the virtual function holds (R349, log 5). -/
def State.linesFor (s : State) (k vf : Nat) : BitVec 8 :=
  let held := ((List.range 8).map fun j => if mget s.lines (8 * dieOf k + j) = some vf then 2 ^ j else 0).sum
  BitVec.ofNat 8 (Config.freeNat s.fresh) &&& BitVec.ofNat 8 held

/-- PREEMPTION_LINE_RAISE (R353): every core of the die whose mask has the line is to be pre-empted. -/
def execPreemptionLineRaise (die line : Nat) (s : State) : Out :=
  .next { s with cores := s.cores.map fun x =>
    (x.1, if dieOf x.1 = die ∧ x.2.lineMask.getLsbD line then { x.2 with preempt := true } else x.2) }

end Sys2Proof.Machine
end

