-- ==== Sys2Proof/Machine/Arrive.lean ====
section
/-! DEFINITION. What reaches a core between its instructions: late values, acknowledgements of the store buffer, atomics at
their homes, walks, wakes, and writes performed as seen by an agent (R96, R99, R201, R204, R232, R235, R238, R240, R241,
R356 to R361). -/
namespace Sys2Proof.Machine

/-- The registers of a core that hold a symbol owe what its value brings (R363). -/
def Core.owe (c : Core) (sym : Fin 32) (ids : List Nat) : Core :=
  if ids.isEmpty then c else { c with owed := c.owed ++ (c.holders sym).map fun r => (r, ids) }

/-- EPHEMERIS_RESOLUTION (R99): the n-th late value reaches its core; the first instruction that waits for it acquires what comes with
it (R363); one for a core that takes part in an exchange is held (R381). -/
def execEphemerisResolution (n : Nat) (s : State) : Out :=
  match s.arrivals[n]? with
  | none => .next s
  | some x =>
    if s.held x.core then .next s
    else
    let t : State := { s with arrivals := dropAt s.arrivals n }
    let e := (t.core x.core).sym[x.res.sym.val]
    if e.state = .free ∨ e.gen ≠ x.res.gen then .next t
    else
      .next (t.setCore x.core (((t.core x.core).owe x.res.sym (t.mem.live x.carried)).resolve x.res x.value))

/-- A buffered access goes to a slice outside the dome of core k: a service context performs it (R201). -/
def BufEntry.isRemote (e : BufEntry) (k : Nat) : Bool :=
  match sliceOf e.pa with
  | some j => domeOf j != domeOf k
  | none => false

/-- The head of core k's store buffer meets a condition and is not held for a slice in an exchange (R389). -/
def State.headIs (s : State) (k : Nat) (p : BufEntry → Bool) : Bool := (s.core k).buf.head?.any fun e => p e && !s.heldAt e.pa

/-- STORE_ACKNOWLEDGE (R359): the head store of core k is performed at its performance point and leaves the buffer. -/
def execStoreAcknowledge (k : Nat) (s : State) : Out :=
  if s.headIs k fun e => e.isStore && !e.isRemote k then .next (s.performHead k) else .next s

/-- REMOTE_ACCESS_SERVICE (R201): the service context of another dome's core performs the head store of core k. -/
def execRemoteAccessService (k : Nat) (s : State) : Out :=
  if s.headIs k fun e => e.isStore && e.isRemote k then .next (s.performHead k) else .next s

/-- ATOMIC_AT_HOME (R235): the head AMO or CAS of core k is performed whole at its word's home or slice. -/
def execAtomicAtHome (k : Nat) (s : State) : Out :=
  if s.headIs k fun e => match e.op with | .amo _ _ _ | .cas _ _ _ => true | .store _ _ _ | .rwr _ _ _ => false then
    .next (s.performHead k)
  else .next s

/-- RWR_AT_HOME (R238): the head RWR of core k is performed whole at its word's home or slice. -/
def execRwrAtHome (k : Nat) (s : State) : Out :=
  if s.headIs k fun e => match e.op with | .rwr _ _ _ => true | .store _ _ _ | .amo _ _ _ | .cas _ _ _ => false then
    .next (s.performHead k)
  else .next s

/-- PAGE_TABLE_WALK (R204 to R208): the table walker of core k translates an address, sets A, and D for a write, and fills
the TLB. -/
def execPageTableWalk (k : Nat) (va : BitVec 64) (acc : Access) (s : State) : Out :=
  .next (s.translate k va.toNat [acc]).2

/-- The watches with that of core k woken. -/
def Memory.wakeCore (m : Memory) (k : Nat) : Memory :=
  { m with watches := m.watches.map fun x => if x.core = k then { x with woken := true } else x }

/-- The core that waits in WAITA reads again at its next step (R240). -/
def State.readAgain (s : State) (k : Nat) : State :=
  if (s.core k).wait = some .waita then
    (s.setMem (s.mem.wakeCore k)).setCore k { s.core k with wait := none }
  else s

/-- WAITA_WAKE (R241): a write has woken core k. -/
def execWaitaWake (k : Nat) (s : State) : Out :=
  if s.mem.watches.any fun x => x.core == k && x.woken && !s.held k then .next (s.readAgain k) else .next s

/-- WAITA_TIMER_EXPIRY (R240): 4,096 rc have passed since core k's last read. -/
def execWaitaTimerExpiry (k : Nat) (s : State) : Out :=
  if s.mem.watches.any fun x => x.core == k && decide (x.since + 4096 ≤ s.rc) && !s.held k then .next (s.readAgain k) else .next s

/-- WRITE_PERFORMED_AS_SEEN (R356, R360): write n is performed as seen by an agent. -/
def execWritePerformedAsSeen (n : Nat) (v : Viewer) (s : State) : Out := .next (s.setMem (s.mem.perform n v))

end Sys2Proof.Machine
end

