-- ==== Sys2Proof/Machine/Fp.lean ====
section
/-! DEFINITION. Scalar floating point and FCVT (R164 to R167, R177 to R188). -/
namespace Sys2Proof.Machine

/-- The format of a scalar form: FP64 or FP32. -/
def fmtOf (wide : Bool) : Fmt := if wide then fp64 else fp32

/-- An f operand's bits as a form reads them (R84, R181). -/
def fbits (wide : Bool) (x : Reg) : Nat := if wide then x.value.toNat else x.value.toNat % 2 ^ 32

/-! ## Transforms of F32 ephemerides (R97) -/

/-- An F32 ephemeris from its FP32 scale and offset. -/
def fephOf (sym : Fin 32) (sc off : Nat) : Reg := Reg.eph .f32 sym sc (w64 off)

/-- The FP32 scale of an ephemeris. -/
def fscale (x : Reg) : Nat := scaleOf x % 2 ^ 32

/-- The register holds an F32 ephemeris. -/
def isF32 (x : Reg) : Bool := x.tag == .eph && kindOf x == .f32

/-- FADD, FSUB and FMUL on an F32 ephemeris, where R97 lists the operands; every operation rounds RNE. -/
def ftransform (xf : Xform) (x y : Reg) : Option Reg :=
  let add (sub : Bool) (u v : Nat) : Nat := fp32.add .rne sub u v
  let mul (u v : Nat) : Nat := fp32.mul .rne u v
  let xo := fbits false x
  let yo := fbits false y
  if isF32 x && isF32 y then
    if symOf x = symOf y then
      match xf with
      | .add => some (fephOf (symOf x) (add false (fscale x) (fscale y)) (add false xo yo))
      | .sub => some (fephOf (symOf x) (add true (fscale x) (fscale y)) (add true xo yo))
      | .mul | .sll => none
    else none
  else if isF32 x && y.tag == .data then
    match xf with
    | .add => some (fephOf (symOf x) (fscale x) (add false xo yo))
    | .sub => some (fephOf (symOf x) (fscale x) (add true xo yo))
    | .mul => some (fephOf (symOf x) (mul (fscale x) yo) (mul xo yo))
    | .sll => none
  else if x.tag == .data && isF32 y then
    match xf with
    | .add => none
    | .sub => some (fephOf (symOf y) (fscale y ^^^ 2 ^ 31) (add true xo yo))
    | .mul => some (fephOf (symOf y) (mul (fscale y) xo) (mul yo xo))
    | .sll => none
  else none

/-- FFMA on an F32 ephemeris, in the two cases of R97 and R187. -/
def fmaTransform (x y z : Reg) : Option Reg :=
  let fma (u v w : Nat) : Nat := fp32.fma .rne u v w
  let o := fbits false
  if isF32 x && y.tag == .data && z.tag == .data then
    some (fephOf (symOf x) (fp32.mul .rne (fscale x) (o y)) (fma (o x) (o y) (o z)))
  else if x.tag == .data && isF32 y && z.tag == .data then
    some (fephOf (symOf y) (fp32.mul .rne (fscale y) (o x)) (fma (o y) (o x) (o z)))
  else if x.tag == .data && y.tag == .data && isF32 z then
    some (fephOf (symOf z) (fscale z) (fma (o x) (o y) (o z)))
  else none

/-! ## The forms (R180 to R187) -/

/-- The effect of a floating-point instruction on its operands (R88, R181): POIS first, then the transform or the wait,
then the value. -/
def State.float (s : State) (l : List Reg) (xf : Option Reg) (write : Reg → Res) (v : Word) : Res :=
  match firstPois l with
  | some p => write p.poisonOf
  | none =>
    if l.any fun x => x.tag == .eph then
      match xf with
      | some r => write r
      | none => .wait .operand s
    else write (Reg.data v)

/-- A form with f operands a and b and an f destination. -/
def State.fff (s : State) (wide : Bool) (l : Look) (d a b : FReg) (xf : Option Xform) (f : Nat → Nat → Nat) : Out :=
  s.issue { reads := [.f a, .f b], writes := [.f d], look := l.val, x64 := wide } fun t =>
    let x := t.me.readF wide a
    let y := t.me.readF wide b
    t.float [x, y] (xf.bind fun k => ftransform k x y) (t.writeF d) (w64 (f (fbits wide x) (fbits wide y)))

/-- The transform that a form with a rounding code makes: only FOPS with RNE does (R181). -/
def xfOf (wide : Bool) (r : Rnd) (k : Xform) : Option Xform := if !wide && r == .rne then some k else none

/-- A form with one f operand and an f destination. -/
def State.ff (s : State) (wide : Bool) (l : Look) (d a : FReg) (f : Nat → Nat) : Out :=
  s.issue { reads := [.f a], writes := [.f d], look := l.val, x64 := wide } fun t =>
    let x := t.me.readF wide a
    t.float [x] none (t.writeF d) (w64 (f (fbits wide x)))

/-- A form with f operands and a g destination. -/
def State.gf (s : State) (wide : Bool) (l : Look) (d : GReg) (ops : List FReg) (f : List Nat → Nat) : Out :=
  s.issue { reads := ops.map RegName.f, writes := [.g d], look := l.val, x64 := wide } fun t =>
    let xs := ops.map (t.me.readF wide)
    t.float xs none (t.writeG d) (w64 (f (xs.map (fbits wide))))

/-- FADD or FSUB (R182). -/
def State.faddOf (s : State) (wide sub : Bool) (r : Rnd) (l : Look) (d a b : FReg) : Out :=
  s.fff wide l d a b (xfOf wide r (if sub then .sub else .add)) ((fmtOf wide).add r sub)
/-- FMUL (R182). -/
def State.fmulOf (s : State) (wide : Bool) (r : Rnd) (l : Look) (d a b : FReg) : Out :=
  s.fff wide l d a b (xfOf wide r .mul) ((fmtOf wide).mul r)
/-- FDIV (R182). -/
def State.fdivOf (s : State) (wide : Bool) (r : Rnd) (l : Look) (d a b : FReg) : Out :=
  s.fff wide l d a b none ((fmtOf wide).div r)
/-- FCMP (R184). -/
def State.fcmpOf (s : State) (wide : Bool) (l : Look) (d : GReg) (a b : FReg) : Out :=
  s.gf wide l d [a, b] fun xs => (fmtOf wide).relation (xs.getD 0 0) (xs.getD 1 0)
/-- FMVF (R186): a CAP counts as its address. -/
def State.fmvfOf (s : State) (wide : Bool) (l : Look) (d : FReg) (a : GReg) : Out :=
  s.issue { reads := [.g a], writes := [.f d], look := l.val, x64 := wide } fun t =>
    let x := t.me.readG a
    t.float [x] none (t.writeF d) (w64 (fbits wide x))
/-- FFMA (R187). -/
def State.ffmaOf (s : State) (wide : Bool) (r : Rnd) (l : Look) (d a b c : FReg) : Out :=
  s.issue { reads := [.f a, .f b, .f c], writes := [.f d], look := l.val, x64 := wide } fun t =>
    let x := t.me.readF wide a
    let y := t.me.readF wide b
    let z := t.me.readF wide c
    t.float [x, y, z] (if !wide && r == .rne then fmaTransform x y z else none) (t.writeF d)
      (w64 ((fmtOf wide).fma r (fbits wide x) (fbits wide y) (fbits wide z)))

/-- FADD.f32 (R182). -/
def execFadd (r : Rnd) (l : Look) (d a b : FReg) (s : State) : Out := s.faddOf false false r l d a b
/-- FSUB.f32 (R182). -/
def execFsub (r : Rnd) (l : Look) (d a b : FReg) (s : State) : Out := s.faddOf false true r l d a b
/-- FMUL.f32 (R182). -/
def execFmul (r : Rnd) (l : Look) (d a b : FReg) (s : State) : Out := s.fmulOf false r l d a b
/-- FDIV.f32 (R182). -/
def execFdiv (r : Rnd) (l : Look) (d a b : FReg) (s : State) : Out := s.fdivOf false r l d a b
/-- FSQRT.f32 (R182). -/
def execFsqrt (r : Rnd) (l : Look) (d a : FReg) (s : State) : Out := s.ff false l d a (fp32.sqrt r)
/-- FMIN.f32 (R183). -/
def execFmin (l : Look) (d a b : FReg) (s : State) : Out := s.fff false l d a b none fp32.fmin
/-- FMAX.f32 (R183). -/
def execFmax (l : Look) (d a b : FReg) (s : State) : Out := s.fff false l d a b none fp32.fmax
/-- FCMP.f32 (R184). -/
def execFcmp (l : Look) (d : GReg) (a b : FReg) (s : State) : Out := s.fcmpOf false l d a b
/-- FCLS.f32 (R185). -/
def execFcls (l : Look) (d : GReg) (a : FReg) (s : State) : Out := s.gf false l d [a] fun xs => fp32.classWord (xs.getD 0 0)
/-- FMVG.f32 (R186). -/
def execFmvg (l : Look) (d : GReg) (a : FReg) (s : State) : Out := s.gf false l d [a] fun xs => xs.getD 0 0
/-- FMVF.f32 (R186). -/
def execFmvf (l : Look) (d : FReg) (a : GReg) (s : State) : Out := s.fmvfOf false l d a
/-- FADD.f64 (R182). -/
def execFaddF64 (r : Rnd) (l : Look) (d a b : FReg) (s : State) : Out := s.faddOf true false r l d a b
/-- FSUB.f64 (R182). -/
def execFsubF64 (r : Rnd) (l : Look) (d a b : FReg) (s : State) : Out := s.faddOf true true r l d a b
/-- FMUL.f64 (R182). -/
def execFmulF64 (r : Rnd) (l : Look) (d a b : FReg) (s : State) : Out := s.fmulOf true r l d a b
/-- FDIV.f64 (R182). -/
def execFdivF64 (r : Rnd) (l : Look) (d a b : FReg) (s : State) : Out := s.fdivOf true r l d a b
/-- FSQRT.f64 (R182). -/
def execFsqrtF64 (r : Rnd) (l : Look) (d a : FReg) (s : State) : Out := s.ff true l d a (fp64.sqrt r)
/-- FMIN.f64 (R183). -/
def execFminF64 (l : Look) (d a b : FReg) (s : State) : Out := s.fff true l d a b none fp64.fmin
/-- FMAX.f64 (R183). -/
def execFmaxF64 (l : Look) (d a b : FReg) (s : State) : Out := s.fff true l d a b none fp64.fmax
/-- FCMP.f64 (R184). -/
def execFcmpF64 (l : Look) (d : GReg) (a b : FReg) (s : State) : Out := s.fcmpOf true l d a b
/-- FCLS.f64 (R185). -/
def execFclsF64 (l : Look) (d : GReg) (a : FReg) (s : State) : Out := s.gf true l d [a] fun xs => fp64.classWord (xs.getD 0 0)
/-- FMVG.f64 (R186). -/
def execFmvgF64 (l : Look) (d : GReg) (a : FReg) (s : State) : Out := s.gf true l d [a] fun xs => xs.getD 0 0
/-- FMVF.f64 (R186). -/
def execFmvfF64 (l : Look) (d : FReg) (a : GReg) (s : State) : Out := s.fmvfOf true l d a
/-- FFMA.f32 (R187). -/
def execFfma (r : Rnd) (l : Look) (d a b c : FReg) (s : State) : Out := s.ffmaOf false r l d a b c
/-- FFMA.f64 (R187). -/
def execFfmaF64 (r : Rnd) (l : Look) (d a b c : FReg) (s : State) : Out := s.ffmaOf true r l d a b c

/-- FLI.f32 (R188): imm << 17. -/
def execFliF32 (d : FReg) (imm : BitVec 15) (s : State) : Out :=
  s.issue { writes := [.f d] } fun t => t.writeF d (Reg.data (zimm imm <<< 17))
/-- FLI.f64 (R188): imm << 49; not of X64. -/
def execFliF64 (d : FReg) (imm : BitVec 15) (s : State) : Out :=
  s.issue { writes := [.f d] } fun t => t.writeF d (Reg.data (zimm imm <<< 49))

/-! ## FCVT (R166, R167) -/

/-- The type of a scalar type code (R110). -/
def styTy : STy → Ty
  | .s64 => .s64 | .s32 => .s32 | .z64 => .z64 | .z32 => .z32 | .f32 => .f32 | .f64 => .f64 | .f16 => .f16 | .bf16 => .bf16

/-- A converted value as its register holds it (R167): s32 sign-extended, every other type zero-extended. -/
def cvtWord (t : STy) (x : Nat) : Word := if t = .s32 then BitVec.ofInt 64 (sextNat 32 x) else w64 x

/-- A NaN converted to a format without NaNs (R165). -/
def nanLost (t : Ty) (v : FVal) : Bool := (tyFmt t).isNone && v.isNan

/-- FCVT (R166, R167). -/
def execFcvt (src dst : STy) (r : Rnd) (l : Look) (d a : Fin 32) (s : State) : Out :=
  let sf := src.inF
  let df := dst.inF
  s.issue { reads := [rawName sf a], writes := [rawName df d], look := l.val, x64 := src == .f64 || dst == .f64 } fun t =>
    let x := t.me.readRaw sf (src == .f64) a
    let v := tyValue (styTy src) x.value.toNat
    let w := tyConvert (styTy dst) r (tyFrac (styTy src)) v
    t.ready [x] (match firstPois [x] with
      | some p => .ok (t.setMe (t.me.setRaw df d p.poisonOf))
      | none =>
        let u := t.setMe (t.me.setRaw df d (Reg.data (cvtWord dst w)))
        .ok (if nanLost (styTy dst) v then u.count (.nanToZero t.cur) else u))

end Sys2Proof.Machine
end

