-- ==== Sys2Proof/Machine/Vector.lean ====
section
/-! DEFINITION. The vector unit and the vector conversions (R168 to R172, R189 to R197). -/
namespace Sys2Proof.Machine

/-! ## Elements and lanes (R168, R189) -/

/-- The number of elements of width w. -/
def elems (w : Nat) : Nat := 256 / w

/-- The 32-bit lanes that hold element i of width w. -/
def lanesOf (w i : Nat) : List Nat := if w = 64 then [2 * i, 2 * i + 1] else [i * w / 32]

/-- A lane that holds the element is poisoned. -/
def elemPois (p : BitVec 8) (w i : Nat) : Bool := (lanesOf w i).any fun j => p.getLsbD j

/-- Poison bits from a predicate on lanes. -/
def lanesWhere (f : Nat → Bool) : BitVec 8 :=
  BitVec.ofNat 8 (((List.range 8).map fun j => if f j then 2 ^ j else 0).sum)

/-- The poison of a result of n elements of width w, from the elements that are poisoned (R168, R189). -/
def poisFrom (w n : Nat) (bad : Nat → Bool) : BitVec 8 :=
  lanesWhere fun j => (List.range n).any fun i => (lanesOf w i).contains j && bad i

/-! ## Element functions (R177, R183, R191, R192) -/

/-- A two-operand function of elements, by type: a float format's or the integers of a width. -/
def byType (t : Ty) (f : Fmt → Nat → Nat → Nat) (g : Nat → Nat → Nat) (x y : Nat) : Nat :=
  match tyFmt t with
  | some m => f m x y
  | none => g x y

/-- x < y as integers of a type. -/
def intLess (t : Ty) (x y : Nat) : Bool :=
  if tySigned t then decide (sextNat (tyWidth t) x < sextNat (tyWidth t) y) else decide (x < y)

/-- The lesser element (R191). -/
def vminOf (t : Ty) : Nat → Nat → Nat := byType t Fmt.fmin fun x y => if intLess t y x then y else x
/-- The greater element (R191). -/
def vmaxOf (t : Ty) : Nat → Nat → Nat := byType t Fmt.fmax fun x y => if intLess t x y then y else x
/-- The sum (R191). -/
def vaddOf (t : Ty) : Nat → Nat → Nat := byType t (fun m => m.add .rne false) fun x y => (x + y) % 2 ^ tyWidth t
/-- The difference (R191). -/
def vsubOf (t : Ty) : Nat → Nat → Nat :=
  byType t (fun m => m.add .rne true) fun x y => (x + 2 ^ tyWidth t - y) % 2 ^ tyWidth t
/-- The product (R191). -/
def vmulOf (t : Ty) : Nat → Nat → Nat := byType t (fun m => m.mul .rne) fun x y => x * y % 2 ^ tyWidth t
/-- The quotient of a float type (R191). -/
def vdivOf (t : Ty) : Nat → Nat → Nat := byType t (fun m => m.div .rne) fun x _ => x
/-- The relation code (R192). -/
def vcmpOf (t : Ty) : Nat → Nat → Nat :=
  byType t Fmt.relation fun x y => if intLess t x y then 1 else if x = y then 2 else 4
/-- VSHL of an integer type (R191). -/
def vshlOf (t : Ty) (x y : Nat) : Nat := x * 2 ^ (y % tyWidth t) % 2 ^ tyWidth t
/-- VSHR of an integer type: arithmetic for signed types, logical for unsigned ones (R191). -/
def vshrOf (t : Ty) (x y : Nat) : Nat :=
  if tySigned t then bitsOf (tyWidth t) (sextNat (tyWidth t) x / 2 ^ (y % tyWidth t)) else x / 2 ^ (y % tyWidth t)
/-- VABS (R191): a float's sign bit is cleared. -/
def vabsOf (t : Ty) (x : Nat) : Nat :=
  match tyFmt t with
  | some m => x % 2 ^ (m.w - 1)
  | none => bitsOf (tyWidth t) ((sextNat (tyWidth t) x).natAbs : Nat)
/-- VNEG (R191): a float's sign bit is flipped. -/
def vnegOf (t : Ty) (x : Nat) : Nat :=
  match tyFmt t with
  | some m => x ^^^ 2 ^ (m.w - 1)
  | none => (2 ^ tyWidth t - x) % 2 ^ tyWidth t
/-- VFMA's element (R191): one rounding for a float. -/
def vfmaOf (t : Ty) (x y z : Nat) : Nat :=
  match tyFmt t with
  | some m => m.fma .rne x y z
  | none => (x * y + z) % 2 ^ tyWidth t

/-! ## Element-wise instructions -/

/-- The issue of a vector instruction. -/
def vIssue (t : Ty) (l : Look) (d : VecReg) (srcs : List VecReg) : Issue :=
  { reads := srcs.map RegName.v, writes := [.v d], look := l.val, x64 := t == .f64 }

/-- d[i] := f of the elements i of the sources; a lane is poisoned if a source's lane that feeds it is. -/
def State.vmap (s : State) (t : Ty) (l : Look) (d : VecReg) (srcs : List VecReg) (f : List Nat → Nat) : Out :=
  s.issue (vIssue t l d srcs) fun u =>
    let w := tyWidth t
    let xs := srcs.map u.me.readV
    u.writeLanes d (packElems w ((List.range (elems w)).map fun i => f (xs.map fun x => elem x.value w i)))
      (poisFrom w (elems w) fun i => xs.any fun x => elemPois x.pois w i)

/-- A vector instruction of two sources. -/
def State.vmap2 (s : State) (t : Ty) (l : Look) (d a b : VecReg) (f : Nat → Nat → Nat) : Out :=
  s.vmap t l d [a, b] fun xs => f (xs.getD 0 0) (xs.getD 1 0)
/-- A vector instruction of one source. -/
def State.vmap1 (s : State) (t : Ty) (l : Look) (d a : VecReg) (f : Nat → Nat) : Out :=
  s.vmap t l d [a] fun xs => f (xs.getD 0 0)
/-- A vector instruction of two sources that also reads d. -/
def State.vmap3 (s : State) (t : Ty) (l : Look) (d a b : VecReg) (f : Nat → Nat → Nat → Nat) : Out :=
  s.vmap t l d [a, b, d] fun xs => f (xs.getD 0 0) (xs.getD 1 0) (xs.getD 2 0)

/-- VADD (R191). -/
def execVadd (t : Ty) (l : Look) (d a b : VecReg) (s : State) : Out := s.vmap2 t l d a b (vaddOf t)
/-- VSUB (R191). -/
def execVsub (t : Ty) (l : Look) (d a b : VecReg) (s : State) : Out := s.vmap2 t l d a b (vsubOf t)
/-- VMUL (R191). -/
def execVmul (t : Ty) (l : Look) (d a b : VecReg) (s : State) : Out := s.vmap2 t l d a b (vmulOf t)
/-- VFMA (R191): d is read before any write. -/
def execVfma (t : Ty) (l : Look) (d a b : VecReg) (s : State) : Out := s.vmap3 t l d a b (vfmaOf t)
/-- VMIN (R191). -/
def execVmin (t : Ty) (l : Look) (d a b : VecReg) (s : State) : Out := s.vmap2 t l d a b (vminOf t)
/-- VMAX (R191). -/
def execVmax (t : Ty) (l : Look) (d a b : VecReg) (s : State) : Out := s.vmap2 t l d a b (vmaxOf t)
/-- VABS (R191). -/
def execVabs (t : Ty) (l : Look) (d a : VecReg) (s : State) : Out := s.vmap1 t l d a (vabsOf t)
/-- VNEG (R191). -/
def execVneg (t : Ty) (l : Look) (d a : VecReg) (s : State) : Out := s.vmap1 t l d a (vnegOf t)
/-- VAND (R193): all 256 bits, poison lane by lane. -/
def execVand (l : Look) (d a b : VecReg) (s : State) : Out := s.vmap2 .z32 l d a b (· &&& ·)
/-- VOR (R193). -/
def execVor (l : Look) (d a b : VecReg) (s : State) : Out := s.vmap2 .z32 l d a b (· ||| ·)
/-- VXOR (R193). -/
def execVxor (l : Look) (d a b : VecReg) (s : State) : Out := s.vmap2 .z32 l d a b (· ^^^ ·)
/-- VSEL (R193). -/
def execVsel (t : Ty) (l : Look) (d a b : VecReg) (s : State) : Out :=
  s.vmap3 t l d a b fun x y z => if z ≠ 0 then x else y
/-- VSHL (R191). -/
def execVshl (t : Ty) (l : Look) (d a b : VecReg) (s : State) : Out := s.vmap2 t l d a b (vshlOf t)
/-- VSHR (R191). -/
def execVshr (t : Ty) (l : Look) (d a b : VecReg) (s : State) : Out := s.vmap2 t l d a b (vshrOf t)
/-- VCMP (R192). -/
def execVcmp (t : Ty) (l : Look) (d a b : VecReg) (s : State) : Out := s.vmap2 t l d a b (vcmpOf t)
/-- VDIV (R191). -/
def execVdiv (t : Ty) (l : Look) (d a b : VecReg) (s : State) : Out := s.vmap2 t l d a b (vdivOf t)

/-! ## Reduction (R194) -/

/-- One level of the pairwise tree. -/
def pairUp (f : Nat → Nat → Nat) : List Nat → List Nat
  | x :: y :: rest => f x y :: pairUp f rest
  | l => l

/-- The tree of a number of levels. -/
def treeOf (f : Nat → Nat → Nat) : Nat → List Nat → List Nat
  | 0, l => l
  | n + 1, l => treeOf f n (pairUp f l)

/-- The operation of a reduction on a type (R194). -/
def redOf (t : Ty) : RedOp → Nat → Nat → Nat
  | .sum => vaddOf t
  | .min => vminOf t
  | .max => vmaxOf t

/-- VRED (R194). -/
def execVred (t : Ty) (l : Look) (d a : VecReg) (op : RedOp) (s : State) : Out :=
  s.issue (vIssue t l d [a]) fun u =>
    let w := tyWidth t
    let x := u.me.readV a
    let r := treeOf (redOf t op) 5 ((List.range (elems w)).map (elem x.value w))
    u.writeLanes d (packElems w [r.headD 0]) (if x.pois = 0 then 0 else if w = 64 then 3 else 1)

/-! ## Broadcast, shuffle and element access (R195 to R197) -/

/-- VBC (R195): an f0 source reads as the form's own type does. -/
def execVbc (t : Ty) (l : Look) (d : VecReg) (a : GFReg) (s : State) : Out :=
  s.issue { reads := [gfName a], writes := [.v d], look := l.val, x64 := t == .f64 } fun u =>
    let w := tyWidth t
    let x := u.me.readGF (w == 64) a
    u.ready [x] (u.writeLanes d (packElems w (List.replicate (elems w) x.value.toNat))
      (if x.tag = .pois then 0xFF else 0))

/-- VSHF (R196). -/
def execVshf (t : Ty) (l : Look) (d a b : VecReg) (s : State) : Out :=
  s.issue (vIssue t l d [a, b]) fun u =>
    let w := tyWidth t
    let n := elems w
    let x := u.me.readV a
    let y := u.me.readV b
    let j (i : Nat) : Nat := elem y.value w i % n
    u.writeLanes d (packElems w ((List.range n).map fun i => elem x.value w (j i)))
      (poisFrom w n fun i => elemPois y.pois w i || elemPois x.pois w (j i))

/-- VMOV (R193): the bits and the poison bits. -/
def execVmov (l : Look) (d a : VecReg) (s : State) : Out :=
  s.issue (vIssue .s64 l d [a]) fun u => u.writeV d (u.me.readV a)

/-- VGET (R197). -/
def execVget (t : Ty) (l : Look) (d : GReg) (a : VecReg) (b : GReg) (s : State) : Out :=
  s.issue { reads := [.v a, .g b], writes := [.g d], look := l.val, x64 := t == .f64 } fun u =>
    let w := tyWidth t
    let x := u.me.readV a
    let y := u.me.readG b
    let i := y.value.toNat % elems w
    u.ready [y] (u.clean [y] 5 (u.writeG d
      (if elemPois x.pois w i then Reg.poison 5 0 else Reg.data (loadWord t (elem x.value w i)))))

/-- VSET (R197). -/
def execVset (t : Ty) (l : Look) (d : VecReg) (a b : GReg) (s : State) : Out :=
  s.issue { reads := [.g a, .g b, .v d], writes := [.v d], look := l.val, x64 := t == .f64 } fun u =>
    let w := tyWidth t
    let x := u.me.readG a
    let y := u.me.readG b
    let z := u.me.readV d
    let i := y.value.toNat % elems w
    let mine := lanesWhere fun j => (lanesOf w i).contains j
    let v := packElems w ((List.range (elems w)).map fun k => if k = i then x.value.toNat else elem z.value w k)
    u.clean [y] 5 (u.ready [x, y] (
      if x.tag = .pois then u.writeLanes d v (z.pois ||| mine)
      else u.writeV d ⟨v, if 32 ≤ w then z.pois &&& ~~~mine else z.pois⟩))

/-! ## Conversions (R169 to R172) -/

/-- The NaN-to-zero events of a conversion counted (R165). -/
def State.countNan (s : State) (t : Ty) (vs : List FVal) : State :=
  s.count (.nanToZero s.cur) (vs.filter (nanLost t)).length

/-- VCVT (R169). -/
def execVcvt (t : Ty) (src : VSrc) (r : Rnd) (l : Look) (d a : VecReg) (s : State) : Out :=
  s.issue { vIssue t l d [a] with x64 := t == .f64 || src == .f64 } fun u =>
    let ws := tyWidth src.ty
    let wt := tyWidth t
    let n := 256 / max ws wt
    let x := u.me.readV a
    let vs := (List.range n).map fun i => tyValue src.ty (elem x.value ws i)
    (u.countNan t vs).writeLanes d (packElems wt (vs.map (tyConvert t r (tyFrac src.ty))))
      (poisFrom wt n fun i => elemPois x.pois ws i)

/-- VQNT (R170): one rounding of the exact quotient; the .n4 form keeps the rest of d. -/
def execVqnt (t : Ty) (l : Look) (d a b : VecReg) (s : State) : Out :=
  s.issue (vIssue t l d (if t = .n4 then [a, b, d] else [a, b])) fun u =>
    let x := u.me.readV a
    let y := u.me.readV b
    let z := u.me.readV d
    let qs := (List.range 8).map fun i => (fp32.value (elem x.value 32 i)).div (fp32.value (elem y.value 32 i))
    let u1 := u.countNan t qs
    if t = .n4 then
      let sb := elem z.value 8 28
      let codes := qs.foldr (fun q acc => n4Quantise sb q + 16 * acc) 0
      let bad := x.pois ||| y.pois != 0 || z.pois.getLsbD 7
      let v := packElems 32 ((List.range 8).map fun i => if i = 0 then codes else elem z.value 32 i)
      if bad then u1.draw 8 |>.writeV d ⟨scrub v 1 u1.fresh, z.pois ||| 1⟩ else u1.writeV d ⟨v, z.pois &&& 0xFE⟩
    else
      u1.writeLanes d (packElems (tyWidth t) (qs.map (tyConvert t .rne 23)))
        (poisFrom (tyWidth t) 8 fun i => x.pois.getLsbD i || y.pois.getLsbD i)

/-- The source elements of VDQNT as FP32 values, each with whether it is poisoned (R171). -/
def dequant (t : Ty) (x : VReg) (i : Nat) : FVal × Bool :=
  if t = .n4 then (n4Value (elem x.value 8 28) (elem x.value 4 i), x.pois.getLsbD 0 || x.pois.getLsbD 7)
  else (tyValue t (elem x.value (tyWidth t) i), elemPois x.pois (tyWidth t) i)

/-- The product of two exact values rounded once, RNE, to FP32 (R171, R177); `smw` is the first one's fraction
width. -/
def mulTo32 (smw : Nat) (u : FVal) (y : Nat) : Nat :=
  match u with
  | .nan neg fr => fp32.nanFrom neg fr smw
  | .inf neg => fp32.mul .rne (fp32.code neg fp32.infMag) y
  | .fin neg n d =>
    match fp32.value y with
    | .nan _ _ => fp32.quieted y
    | .inf s => if n = 0 then fp32.canonical else fp32.code (neg != s) fp32.infMag
    | .fin s m e => fp32.roundArith .rne (neg != s) (n * m) (d * e)

/-- VDQNT (R171). -/
def execVdqnt (t : Ty) (l : Look) (d a b : VecReg) (s : State) : Out :=
  s.issue (vIssue t l d [a, b]) fun u =>
    let x := u.me.readV a
    let y := u.me.readV b
    u.writeLanes d (packElems 32 ((List.range 8).map fun i => mulTo32 (tyFrac t) (dequant t x i).1 (elem y.value 32 i)))
      (lanesWhere fun i => (dequant t x i).2 || y.pois.getLsbD i)

/-- VPACK (R172). -/
def execVpack (t : Ty) (l : Look) (d a b : VecReg) (s : State) : Out :=
  s.issue (vIssue t l d [a, b]) fun u =>
    let x := u.me.readV a
    let y := u.me.readV b
    let src : Ty := if (tyFmt t).isSome then .f32 else .s32
    let lane (i : Nat) : Nat × Bool :=
      if i < 8 then (elem x.value 32 i, x.pois.getLsbD i) else (elem y.value 32 (i - 8), y.pois.getLsbD (i - 8))
    let vs := (List.range 16).map fun i => tyValue src (lane i).1
    (u.countNan t vs).writeLanes d (packElems (tyWidth t) (vs.map (tyConvert t .rne (tyFrac src))))
      (poisFrom (tyWidth t) 16 fun i => (lane i).2)

end Sys2Proof.Machine
end

