-- ==== Sys2Proof/Machine/Compact.lean ====
section
/-! DEFINITION. The 16-bit compact instructions: each has the effect of its expansion, and the PC advances by 2
(R113). -/
namespace Sys2Proof.Machine

/-- A 6-bit immediate, sign-extended (R113). -/
def simm6 (i : BitVec 6) : Word := i.signExtend 64

/-- C.ADD: ADD d, d, a (R113). -/
def execCAdd (d a : GReg) (s : State) : Out := s.int3 false 0 d d a (some .add) true (· + ·) 2
/-- C.SUB: SUB d, d, a (R113). -/
def execCSub (d a : GReg) (s : State) : Out := s.int3 false 0 d d a (some .sub) true (· - ·) 2
/-- C.MOV: MOV d, a (R113). -/
def execCMov (d a : GReg) (s : State) : Out := s.movOf d a 2
/-- C.AND: AND d, d, a (R113). -/
def execCAnd (d a : GReg) (s : State) : Out := s.int3 false 0 d d a none false (· &&& ·) 2
/-- C.ADDI: ADDI d, d, imm (R113). -/
def execCAddi (d : GReg) (i : BitVec 6) (s : State) : Out := s.intI false d d (simm6 i) (some .add) true (· + ·) 2
/-- C.ADDI with g0: ADDI d, g0, imm (R113). -/
def execCAddiZero (d : GReg) (i : BitVec 6) (s : State) : Out := s.intI false d 0 (simm6 i) (some .add) true (· + ·) 2
/-- C.SLLI: SLLI d, d, k (R113). -/
def execCSlli (d : GReg) (k : Fin 64) (s : State) : Out :=
  s.intI false d d (w64 k.val) (some .sll) false (fun x y => x <<< y.toNat) 2
/-- C.SRLI: SRLI d, d, k (R113). -/
def execCSrli (d : GReg) (k : Fin 64) (s : State) : Out :=
  s.intI false d d (w64 k.val) none false (fun x y => srlOf false x y.toNat) 2
/-- C.LD: LD d, [a] (R113). -/
def execCLd (w : Bool) (d a : GReg) (s : State) : Out := s.loadOf (if w then .s32 else .s64) 0 d a 0 2
/-- C.ST: ST d, [a], d the datum (R113). -/
def execCSt (w : Bool) (d a : GReg) (s : State) : Out := s.storeOf (if w then .s32 else .s64) d a 0 2
/-- C.BEQ: BEQ a, g0 (R113). -/
def execCBeq (a : GReg) (off : BitVec 6) (s : State) : Out := s.branch .eq a 0 (target s.me.pc off) 2
/-- C.BNE: BNE a, g0 (R113). -/
def execCBne (a : GReg) (off : BitVec 6) (s : State) : Out := s.branch .ne a 0 (target s.me.pc off) 2
/-- C.J (R113). -/
def execCJ (off : BitVec 11) (s : State) : Out := s.issue { len := 2 } fun t => .jump (target t.me.pc off) t
/-- C.JALR g0, a, 0 (R113). -/
def execCJalrG0 (a : GReg) (s : State) : Out := s.jumpReg 0 a 0 2
/-- C.JALR g1, a, 0 (R113). -/
def execCJalrLink (a : GReg) (s : State) : Out := s.jumpReg 1 a 0 2
/-- C.NOP (R113). -/
def execCNop (s : State) : Out := s.nopOf 2
/-- C.HEND (R113). -/
def execCHend (s : State) : Out := s.hendOf 2
/-- C.BRK: BRK with code 0 (R113). -/
def execCBrk (s : State) : Out := s.brkOf 0 2
/-- C.RGN (R113). -/
def execCRgn (off : BitVec 11) (s : State) : Out := s.region (recordAt s.me.pc off) 2

end Sys2Proof.Machine
end

