-- ==== Sys2Proof/Machine/Orrery.lean ====
section
/-! DEFINITION. The Orrery: descriptors, launches, CANCEL, TCBs, dispatch and the die agents (R26 to R31, R40 to R61, R152 to
R158, R372, R373, R378, R413, R426). -/
namespace Sys2Proof.Machine

/-! ## Reading descriptors (R40) -/

/-- Blocks of 64 bytes read under an ASID by the base die: bytes and granule tags; none where a translation fails or a
word is poisoned. -/
def State.readBlocks (vf asid : Nat) : Nat → Nat → State → Option (List Byte × List Bool) × State
  | 0, _, s => (some ([], []), s)
  | n + 1, va, s =>
    match s.engineTo .orrery vf asid va [.read] with
    | (.error _, t) => (none, t)
    | (.ok p, t0) =>
      let t := t0.checked p.pa 64
      if (t.mem.poisonIn .orrery p.pa 64).isSome then (none, t)
      else
        match State.readBlocks vf asid n (va + 64) t with
        | (some r, u) =>
          (some (t.mem.viewBytes .orrery p.pa 64 ++ r.1, (granulesOf p.pa 64).map (t.mem.viewTag .orrery) ++ r.2), u)
        | r => r

/-- A launch descriptor as read: its bits, and the payload tags that its template keeps (R28). -/
def State.readDesc (s : State) (vf asid va : Nat) : Option (Nat × BitVec 6) × State :=
  match State.readBlocks vf asid 2 va s with
  | (some (bs, tags), t) =>
    (some (leNat bs, (if tags.getD 4 false then 4 else 0) ||| (if tags.getD 5 false then 16 else 0)), t)
  | (none, t) => (none, t)

/-! ## Launch descriptors (R26, R27) -/

/-- A launch descriptor's fields (R26). -/
def parseLaunch (d : Nat) (tags : BitVec 6) : LaunchDesc where
  pc := w64 (bits d 0 48)
  pri := bits d 70 2
  cls := bits d 64 6
  notify := bit d 72
  carve := bits d 80 8
  slim := bits d 88 8
  units := bits d 96 32
  domes := BitVec.ofNat 64 (d / 2 ^ 128)
  super := bits d 192 13
  fclass := bits d 208 6
  job := bits d 243 10
  phase := bits d 235 8
  gv := bit d 234
  graph := bits d 224 10
  ovf := w64 (d / 2 ^ 256)
  ncore := bits d 320 13
  ncls := bits d 336 6
  template := Vector.ofFn fun i => w64 (d / 2 ^ (384 + 64 * i.val))
  ttags := tags

/-- A reserved field of a launch descriptor is nonzero, or NV differs from NOTIFY (R26, R27). -/
def launchReserved (d : Nat) : Bool :=
  bits d 48 16 != 0 || bits d 73 7 != 0 || bits d 205 3 != 0 || bits d 214 2 != 0 || bits d 216 8 != 0 ||
    bits d 253 3 != 0 || bits d 333 2 != 0 || bit d 335 != bit d 72 || bits d 342 2 != 0 || bits d 344 40 != 0 ||
    bits d 768 256 != 0

/-- Who issues a launch: the job it must name, if one is fixed; virtual function and ASID; for an activation the graph and
the phase of its launch; the TCB whose body it is; the core on whose behalf it is issued. -/
structure Issuer where
  job : Option Nat
  vf : Nat
  asid : Nat
  graph : Option Nat
  phase : Option Nat
  tcb : Option Nat
  core : Nat
deriving DecidableEq, Repr

/-- The fields that a launch takes for the body of a TCB (R30). -/
def State.bodyDesc (s : State) (q : Issuer) (d : LaunchDesc) : LaunchDesc :=
  match q.tcb with
  | some t => { d with gv := true, graph := (s.tcb t).graph }
  | none => d

/-- The graph may not take the launch (R24, code 8). DESIGN CHOICE (log 69), unsafe: nor one that would carry its MEMBERS past its
32 bits. -/
def State.graphRefuses (s : State) (q : Issuer) (d : LaunchDesc) : Bool :=
  match mget s.graphs d.graph with
  | none => true
  | some g =>
    q.tcb.isNone && (g.counts.isFull || (g.counts.closed && q.graph != some d.graph))

/-- The phase may not take the launch (R24, code 11). DESIGN CHOICE (log 69), unsafe: nor one that would carry its MEMBERS past its
32 bits. -/
def State.phaseRefuses (s : State) (q : Issuer) (d : LaunchDesc) : Bool :=
  match mget s.phases d.phase with
  | none => true
  | some p =>
    p.job != d.job || p.counts.isFull || (p.counts.closed && q.phase != some d.phase)

/-- The job of a descriptor is not the issuer's (R27, code 7). -/
def State.jobRefuses (s : State) (q : Issuer) (d : LaunchDesc) : Bool :=
  (match q.job with | some j => d.job != j | none => false) ||
    (match mget s.jobs d.job with | some j => j.vf != q.vf | none => true)

/-- The codes that apply to a descriptor (R40). DESIGN CHOICE (log 68), unsafe: PC lies outside the job's address space
(R27, code 6) where its page has no valid translation under the job's ASID, whatever its rights; where JOB is not live,
under the issuer's. -/
def State.launchCodes (s : State) (q : Issuer) (raw : Nat) (d : LaunchDesc) : List Nat :=
  let asid := ((mget s.jobs d.job).map (·.asid)).getD q.asid
  (if launchReserved raw then [1] else []) ++
  (if d.carve = 0 ∨ 64 < d.carve then [2] else []) ++
  (if d.slim = 0 ∨ 64 < d.slim ∨ d.slim * 4 < d.carve then [3] else []) ++
  (if d.units = 0 then [4] else []) ++
  (if (s.vf q.vf).domes.all fun x => !d.domes.getLsbD x then [5] else []) ++
  (if d.pc.getLsbD 0 then [6] else
    match (s.walkTo .orrery q.vf asid d.pc.toNat []).1 with | .ok _ => [] | .error _ => [6]) ++
  (if s.jobRefuses q d then [7] else []) ++
  (if d.gv && s.graphRefuses q d then [8] else []) ++
  (if 4096 ≤ s.launches.length then [9] else []) ++
  (if !d.gv && s.phaseRefuses q d then [11] else [])

/-- A launch accepted under an index (R23, R40): sealed, a member of its parent unless it is the body of a TCB (R31). -/
def State.openLaunch (s : State) (q : Issuer) (d : LaunchDesc) (ids : List Nat) (i : Nat) : State :=
  let phase := if d.gv then ((mget s.graphs d.graph).map (·.phase)).getD 0 else d.phase
  let x : Launch := {
    desc := { d with phase := phase }
    counts := Counts.new true d.units
    next := 0
    vf := q.vf
    asid := ((mget s.jobs d.job).map (·.asid)).getD q.asid
    pins := 0
    cancelled := false
    tcb := q.tcb
    carried := ids
    finished := []
    core := q.core
    born := s.fresh }
  let t : State := { s.setLaunch i x with accepted := s.accepted.filter (· != i) ++ [i] }
  if q.tcb.isSome then t
  else if d.gv then { t with graphs := mmod t.graphs d.graph fun g => { g with counts := g.counts.join } }
  else { t with phases := mmod t.phases d.phase fun p => { p with counts := p.counts.join } }

/-- The codes of the tables that the Orrery reads for the PC of a descriptor (R27) are checked (R212). -/
def State.pcChecked (s : State) (q : Issuer) : Option (Nat × BitVec 6) → State
  | none => s
  | some x =>
    let d := parseLaunch x.1 x.2
    s.checkedWalk .orrery q.vf (((mget s.jobs d.job).map (·.asid)).getD q.asid) d.pc.toNat

/-- A launch issued (R40): the refusal code, or the index that the Orrery gives it, which the spec does not fix. -/
def State.issueLaunch (s : State) (q : Issuer) (raw : Option (Nat × BitVec 6)) (ids : List Nat) : Except Nat (Nat × State) :=
  match raw with
  | none => .error 10
  | some (bits_, tags) =>
    let d := s.bodyDesc q (parseLaunch bits_ tags)
    match (s.launchCodes q bits_ d).min? with
    | some c => .error c
    | none =>
      match s.anyBelow (fun i => (mget s.launches i).isNone) 4096 with
      | some i => .ok (i, s.draw.openLaunch q d ids i)
      | none => .error 9

/-- The result of a launch as R40 lays it out, with the state after it. -/
def State.launchResult (s : State) : Except Nat (Nat × State) → Word × State
  | .ok (i, t) => (w64 i, t)
  | .error c => (refusal c, s)

/-- The issuer that a request names. -/
def Asker.issuer (a : Asker) : Issuer := ⟨some a.job, a.vf, a.asid, a.graph, a.phase, none, a.core⟩

/-- The Orrery processes a request in a cycle after that of its issue, and one in a cycle (R153, R426). DEDUCED (log 59), unsafe. -/
def State.serving (s : State) (who : Asker) : Bool := decide (who.since < s.rc) && s.served != some s.rc

/-- The state without the request at the head, which the present cycle has served. -/
def State.take (s : State) (rest : List OrreryReq) : State :=
  { s with
    oreqs := rest
    served := some s.rc }

/-- ORRERY_LAUNCH_REQUEST (R155): the request at the head of those that wait, in a cycle after that of its issue. -/
def execOrreryLaunchRequest (s : State) : Out :=
  match s.oreqs with
  | .launch who res addr ids :: rest =>
    if s.serving who && !s.heldFor .orrery who.vf who.asid addr 128 [.read] then
      let t := s.take rest
      let r := t.readDesc who.vf who.asid addr
      let u := r.2.pcChecked who.issuer r.1
      let w := u.launchResult (u.issueLaunch who.issuer r.1 ids)
      .next (w.2.status who.core res w.1)
    else .next s
  | _ => .next s

/-! ## CANCEL (R59, R60) -/

/-- Slots of a core's inbox freed where their message meets a condition and is not pinned. -/
def Core.withdraw (c : Core) (p : Packet → Bool) : Core :=
  (c.waiting.filter fun i => match (c.slots[i.val]).msg with | some x => p x | none => false).foldl
    (fun acc i => acc.freeSlot i) c

/-- How many waiting messages of a core meet a condition. -/
def Core.countWaiting (c : Core) (p : Packet → Bool) : Nat :=
  (c.waiting.filter fun i => match (c.slots[i.val]).msg with | some x => p x | none => false).length

/-- The reserved slots of the flights that are withdrawn are free again. -/
def State.freeFlights (s : State) (p : Packet → Bool) : State :=
  let hit := s.flights.filter fun f => p f.packet
  let t : State := { s with flights := s.flights.filter fun f => !p f.packet }
  hit.foldl (fun u f =>
    match f.travel with
    | .placed i =>
      let k := f.packet.msg.dest
      u.setCore k { u.core k with slots := (u.core k).slots.set (Fin.ofNat 32 i).val .free }
    | .link | .parked _ => u) t

/-- Messages that no core has selected are withdrawn from their way and from the inboxes. -/
def State.pull (s : State) (p : Packet → Bool) : State :=
  let t := s.freeFlights p
  { t with cores := t.cores.map fun c => (c.1, c.2.withdraw p) }

/-- A message of a saved inbox image that no core has selected meets a condition. A context with no running region is a started member
of its launch, which keeps that launch's messages (R379). -/
def Saved.hits (x : Saved) (p : Packet → Bool) (y : Fin 32 × Packet) : Bool :=
  x.pinned != some y.1 && !(x.act.isNone && y.2.msg.launch == x.launch) && p y.2

/-- A saved inbox image without such messages. -/
def Saved.withdraw (x : Saved) (p : Packet → Bool) : Saved := { x with inbox := x.inbox.filter fun y => !x.hits p y }

/-- An item whose saved inbox image loses such messages. -/
def Item.withdraw (i : Item) (p : Packet → Bool) : Item :=
  match i with
  | .ctx c => .ctx (c.withdraw p)
  | .unit _ _ | .task _ | .tcb _ => i

/-- The messages that no core has selected are withdrawn (R59, R60), from saved inbox images too; how many there were. -/
def State.withdraw (s : State) (p : Packet → Bool) : Nat × State :=
  let n := (s.flights.filter fun f => p f.packet).length + (s.cores.map fun c => c.2.countWaiting p).sum +
    (s.contexts.map fun c => (c.inbox.filter (c.hits p)).length).sum
  let t := s.pull p
  (n, { t with
    saved := t.saved.map fun c => c.withdraw p
    placements := t.placements.map fun y => { y with item := y.item.withdraw p } })

/-- The start message of a unit of launch l. -/
def Packet.startsUnit (p : Packet) (l : Nat) : Bool :=
  match p.kind with
  | .start _ => p.msg.launch == l
  | .task _ | .send | .spawn _ _ _ | .root _ | .completion | .fault | .notify | .cross => false

/-- A message whose handler is a member of launch l (R54, R327, R370, R424). -/
def Packet.memberOf (p : Packet) (l : Nat) : Bool := p.member && p.msg.launch == l

/-- The multicasts of launch l that are on their way withdrawn; how many members they stand for (R327). -/
def State.withdrawMultis (s : State) (l : Nat) : Nat × State :=
  (((s.multis.filter fun m => m.packet.memberOf l).map (·.left.length)).sum,
    { s with multis := s.multis.filter fun m => !m.packet.memberOf l })

/-- The delivery of a task. -/
def Packet.delivers (p : Packet) (t : TaskRef) : Bool :=
  match p.kind with
  | .task u => u == t
  | .start _ | .send | .spawn _ _ _ | .root _ | .completion | .fault | .notify | .cross => false

/-- An item is a unit of launch l. -/
def Item.ofLaunch (i : Item) (l : Nat) : Bool :=
  match i with
  | .unit m _ => m == l
  | .task _ | .ctx _ | .tcb _ => false

/-- An item is a task. -/
def Item.ofTask (i : Item) (t : TaskRef) : Bool :=
  match i with
  | .task o => o.t == t
  | .unit _ _ | .ctx _ | .tcb _ => false

/-- A task removed, if neither a near unit has taken it nor a core selected its delivery (R59, R72). -/
def State.removeTask (s : State) (t : TaskRef) : State :=
  match s.entryAt t.home t.queue t.seq with
  | none => s
  | some e =>
    let w := s.withdraw fun p => p.delivers t
    let gone : State := { w.2 with
      offers := w.2.offers.filter (·.t != t)
      front := w.2.front.filter fun i => !i.ofTask t
      placements := w.2.placements.filter fun x => !x.item.ofTask t }
    match e.cond with
    | .waiting | .offered => gone.retireTask t .cancelled []
    | .delivered => if 0 < w.1 then gone.retireTask t .cancelled [] else s
    | .taken => s

/-- The tasks whose target meets a condition. -/
def State.tasksOf (s : State) (p : TaskDesc → Bool) : List TaskRef :=
  s.homes.flatMap fun h => (List.range 8).flatMap fun i =>
    ((h.2.queue i).entries.filter fun e => p e.desc).map fun e => ⟨h.1, i, e.seq⟩

/-- CANCEL of tasks by their target. -/
def State.cancelTasks (s : State) (p : TaskDesc → Bool) : State := (s.tasksOf p).foldl State.removeTask s

/-- The open rounds of the groups of a launch are abandoned (R337). -/
def State.abandonRounds (s : State) (l : Nat) : State :=
  s.groups.foldl (fun t g => match g.2 with
    | .reduction _ _ contrib _ _ _ _ _ _ m =>
      if m = l then
        (t.rounds.filter fun r => r.group == g.1 && !r.abandoned).foldl (fun u r => u.abandonRound g.1 r.round contrib) t
      else t
    | .multicast .. => t) s

/-- A launch cancelled (R59): its units that have not started, and the messages whose handlers are its members and that no core has
selected, wherever they wait. DEDUCED (log 24), unsafe. -/
def State.cancelLaunch (s : State) (l : Nat) : State :=
  match mget s.launches l with
  | none => s
  | some x =>
    let w := s.withdraw fun p => p.startsUnit l || p.memberOf l
    let v := w.2.withdrawMultis l
    let placed := (v.2.placements.filter fun y => y.item.ofLaunch l).length
    let back := (v.2.front.filter fun i => i.ofLaunch l).length
    let n := (x.desc.units - x.next) + back + placed + w.1 + v.1
    let t : State := { v.2 with
      placements := v.2.placements.filter fun y => !y.item.ofLaunch l
      front := v.2.front.filter fun i => !i.ofLaunch l
      launches := mmod v.2.launches l fun y => { y with
        next := y.desc.units
        cancelled := true
        counts := y.counts.finish .cancelled n } }
    ((t.cancelTasks fun d => d.tkind == 1 && d.tidx == l).abandonRounds l).settle

/-- A TCB that has not started is cancelled (R59). -/
def State.cancelTcb (s : State) (t : Nat) : State :=
  match (s.tcb t).state with
  | .armed | .ready | .faulted => s.tcbEnd t .cancelled []
  | .running =>
    let launches := (s.launches.filter fun l => l.2.tcb == some t).map Prod.fst
    (launches.foldl State.cancelLaunch s).cancelTasks fun d => d.tkind == 3 && d.tidx == t
  | .free | .done | .cancelled => s

/-- A graph cancelled (R59). DEDUCED (log 24), unsafe. DESIGN CHOICE (log 92), unsafe: a launch that is the graph's member without being
the body of a TCB runs on, its undispatched units too. -/
def State.cancelGraph (s : State) (g : Nat) : State :=
  let tcbs := (s.tcbs.filter fun t => t.2.graph == g && t.2.state != .free).map Prod.fst
  let t : State := { s with
    graphs := mmod s.graphs g fun x => { x with counts := { x.counts with closed := true } }
    placements := s.placements.filter fun x => x.item != .tcb g }
  let u := tcbs.foldl State.cancelTcb t
  let v : State := { u with graphs := mmod u.graphs g fun x => { x with
    ready := x.ready.filter fun r => (u.tcb r.1).state == .ready
    headPri := none } }
  (v.cancelTasks fun d => d.tkind == 2 && d.tidx == g).settle

/-- A phase cancelled (R59). -/
def State.cancelPhase (s : State) (n : Nat) : State :=
  let t : State := { s with phases := mmod s.phases n fun x => { x with counts := { x.counts with closed := true } } }
  let gs := (t.graphs.filter fun g => g.2.phase == n).map Prod.fst
  let ls := (t.launches.filter fun l => l.2.desc.phase == n && !l.2.desc.gv).map Prod.fst
  (ls.foldl State.cancelLaunch (gs.foldl State.cancelGraph t)).settle

/-- A job cancelled (R59). -/
def State.cancelJob (s : State) (n : Nat) : State :=
  let t : State := { s with jobs := mmod s.jobs n fun x => { x with counts := { x.counts with closed := true } } }
  let ps := (t.phases.filter fun p => p.2.job == n).map Prod.fst
  (ps.foldl State.cancelPhase t).settle

/-- The job of an instance of a level, if it is live (R156). -/
def State.instanceJob (s : State) (lv : Level) (i : Nat) : Option Nat :=
  match lv with
  | .launch => (mget s.launches i).map (·.desc.job)
  | .graph => (mget s.graphs i).map (·.job)
  | .phase => (mget s.phases i).map (·.job)
  | .job => (mget s.jobs i).map fun _ => i

/-- An instance of a level cancelled. -/
def State.cancelLevel (s : State) (lv : Level) (i : Nat) : State :=
  match lv with
  | .launch => s.cancelLaunch i
  | .graph => s.cancelGraph i
  | .phase => s.cancelPhase i
  | .job => s.cancelJob i

/-- ORRERY_CANCEL_REQUEST (R59, R156). -/
def execOrreryCancelRequest (s : State) : Out :=
  match s.oreqs with
  | .cancel who res lv index :: rest =>
    if s.serving who then
      let t := s.take rest
      match t.instanceJob lv index.toNat with
      | none => .next (t.status who.core res (refusal 2))
      | some j =>
        if j = who.job then .next ((t.cancelLevel lv index.toNat).status who.core res 0)
        else .next (t.status who.core res (refusal 1))
    else .next s
  | _ => .next s

/-! ## GARM and GREL (R29, R157, R158, R373) -/

/-- A TCB image breaks R29 (code 1). -/
def imageBad (x : Nat) : Bool :=
  let kind := bits x 4 4
  let n := bits x 8 8
  decide (2 < kind) || bits x 0 4 != 0 || decide (12 < n) || bits x 42 6 != 0 || bits x 48 16 != 0 ||
    bits x 64 64 % 64 != 0 || (kind == 0 && bits x 64 64 != 0) || bits x 384 128 != 0 ||
    (List.range 12).any fun i => decide (n ≤ i) && bits x (128 + 16 * i) 16 != 0xFFFF

/-- The successors that an image names. -/
def imageSucc (x : Nat) : List Nat := (List.range (bits x 8 8)).map fun i => bits x (128 + 16 * i) 16

/-- A TCB from its image and its owner (R29, R31). -/
def imageTcb (x : Nat) (o : Owner) (ids : List Nat) : Tcb where
  kind := bits x 4 4
  state := .armed
  counter := bits x 16 16
  graph := bits x 32 10
  body := bits x 64 64
  succ := imageSucc x
  user := w64 (bits x 320 64)
  owner := o
  tasks := 0
  anyFault := false
  anyCancel := false
  carried := ids

/-- The owner record of a launch (R31). -/
def ownerOf (l : Nat) (x : Launch) (core : Nat) : Owner :=
  ⟨l, x.desc.job, x.asid, x.vf, x.desc.super, x.desc.fclass, x.desc.pri, core⟩

/-- The codes of a GARM on a TCB that is not FAULTED (R157). DESIGN CHOICE (log 69), unsafe: a GARM that would carry MEMBERS of
the graph, or of the phase that a new graph joins, past its 32 bits is refused with code 4. -/
def State.garmCodes (s : State) (x : Nat) (index : Word) (near : Bool) (job phase : Nat) : List Nat :=
  let g := bits x 32 10
  let i := index.toNat
  (if imageBad x then [1] else []) ++
  (if 65535 < i ∨ (s.tcb i).state ≠ .free then [2] else []) ++
  (if (imageSucc x).any fun t => t == i || (s.tcb t).state != .armed || (s.tcb t).graph != g then [3] else []) ++
  (match mget s.graphs g with
    | some y => if y.counts.closed || y.job != job || y.counts.isFull then [4] else []
    | none => if (mget s.phases phase).any fun p => p.counts.isFull then [4] else []) ++
  (if bits x 4 4 = 2 ∧ near = false then [7] else [])

/-- The codes of a re-arm (R373). -/
def State.rearmCodes (s : State) (x : Nat) (i : Nat) (near : Bool) : List Nat :=
  let t := s.tcb i
  (if imageBad x then [1] else []) ++
  (if bits x 4 4 ≠ t.kind ∨ bits x 32 10 ≠ t.graph ∨ imageSucc x ≠ t.succ then [6] else []) ++
  (if bits x 4 4 = 2 ∧ near = false then [7] else [])

/-- A TCB takes its image and its counter decides its state (R51, R157). -/
def State.arm (s : State) (i : Nat) (t : Tcb) : State :=
  let u := s.setTcb i t
  if t.counter = 0 then u.tcbReady i else u

/-- GARM of a FREE TCB (R157): its graph becomes live if it is not, in the phase of the issuer's launch. -/
def State.garmNew (s : State) (x : Nat) (i : Nat) (l : Nat) (y : Launch) (core : Nat) (ids : List Nat) : State :=
  let g := bits x 32 10
  let t : State := match mget s.graphs g with
    | some _ => s
    | none => { s with
      graphs := mput s.graphs g ⟨Counts.new false 0, y.desc.job, y.desc.phase, [], none, none⟩
      phases := mmod s.phases y.desc.phase fun p => { p with counts := p.counts.join } }
  let u : State := { t with graphs := mmod t.graphs g fun z => { z with counts := z.counts.join } }
  (u.pin l).arm i (imageTcb x (ownerOf l y core) ids)

/-- A re-arm (R373): the owner changes, and with it the pin. The body acquires what was released to it before, too (R363). -/
def State.rearm (s : State) (x : Nat) (i : Nat) (l : Nat) (y : Launch) (core : Nat) (ids : List Nat) : State :=
  let old := s.tcb i
  ((s.pin l).arm i (imageTcb x (ownerOf l y core) (old.carried ++ ids))).unpin old.owner.launch

/-- GARM at the Orrery: its status and the state (R157, R373). -/
def State.garm (s : State) (l core : Nat) (y : Launch) (img : Option Nat) (index : Word) (near : Bool) (ids : List Nat) :
    Word × State :=
  match img with
  | none => (refusal 5, s)
  | some x =>
    let i := index.toNat
    let again := (s.tcb i).state == .faulted && (s.tcb i).owner.job == y.desc.job && decide (i ≤ 65535)
    match (if again then s.rearmCodes x i near else s.garmCodes x index near y.desc.job y.desc.phase).min? with
    | some c => (refusal c, s)
    | none => (0, if again then s.rearm x i l y core ids else s.garmNew x i l y core ids)

/-- ORRERY_GARM_REQUEST (R157, R373). DEDUCED (log 25), unsafe: where the issuing launch has completed, code 4. -/
def execOrreryGarmRequest (s : State) : Out :=
  match s.oreqs with
  | .garm who res addr near index ids :: rest =>
    if s.serving who && !s.heldFor .orrery who.vf who.asid addr 64 [.read] then
      let t := s.take rest
      match (mget t.launches who.launch).filter fun y => some y.born == who.born with
      | none => .next (t.status who.core res (refusal 4))
      | some y =>
        let r := State.readBlocks y.vf y.asid 1 addr t
        let w := r.2.garm who.launch who.core y (r.1.map fun b => leNat b.1) index near ids
        .next (w.2.status who.core res w.1)
    else .next s
  | _ => .next s

/-- ORRERY_GREL_REQUEST (R158). -/
def execOrreryGrelRequest (s : State) : Out :=
  match s.oreqs with
  | .grel who res index :: rest =>
    if s.serving who then
      let t := s.take rest
      let g := index.toNat
      match mget t.graphs g with
      | none => .next (t.status who.core res (refusal 1))
      | some x =>
        if who.job ≠ x.job then .next (t.status who.core res (refusal 2))
        else if x.counts.closed then .next (t.status who.core res (refusal 3))
        else
          let u : State := { t with graphs := mput t.graphs g { x with counts := { x.counts with closed := true } } }
          .next (u.settle.status who.core res 0)
    else .next s
  | _ => .next s

/-! ## TCB bodies (R30, R31, R52) -/

/-- The priority at which the body of a TCB is offered once it has been read (R46, R52), none where it cannot be read, and the state after
the reads. -/
def State.bodyPri (s : State) (t : Tcb) : Option Nat × State :=
  match t.kind with
  | 0 => (some 3, s)
  | 1 =>
    let r := s.readDesc t.owner.vf t.owner.asid t.body
    (r.1.map fun d => (parseLaunch d.1 d.2).pri, r.2)
  | _ =>
    match State.readBlocks t.owner.vf t.owner.asid 1 t.body s with
    | (some b, u) =>
      let d := parseTask (leNat b.1)
      match u.walkTo .orrery t.owner.vf t.owner.asid d.anchor [] with
      | (.ok r, v) => (some ((v.home (homeOfPa r.1.pa)).queue d.queue).dpri, v)
      | (.error _, v) => (none, v)
    | (none, u) => (none, u)

/-- TCB_HEAD_BODY_READ (R52): the body of the head of a graph's ready queue has been read, once. -/
def execTcbHeadBodyRead (g : Nat) (s : State) : Out :=
  match mget s.graphs g with
  | none => .next s
  | some x =>
    match x.ready with
    | [] => .next s
    | (t, _) :: _ =>
      if x.headPri.isSome then .next s
      else
        let r := s.bodyPri (s.tcb t)
        .next { r.2 with graphs := mput s.graphs g { x with headPri := some (r.1.getD (s.tcb t).owner.pri) } }

/-- The head of a graph's ready queue leaves it. -/
def State.popReady (s : State) (g : Nat) : State :=
  { s with graphs := mmod s.graphs g fun x => { x with ready := x.ready.drop 1, headPri := none } }

/-- A body that cannot start makes its TCB FAULTED, and its owner's supervisor hears of it (R31). -/
def State.bodyRefused (s : State) (t code : Nat) : State :=
  let x := s.tcb t
  let o := x.owner
  (s.setTcb t { x with state := .faulted }).faultTo o.vf o.super o.fclass o.pri o.launch o.core
    [faultWord 0 (some t) o.core code 22, w64 x.body, 0, 0, x.user, w64 s.time] [] (some .orrery)

/-- The code of R78 for the descriptor of a TASK-kind body that the Orrery could not take: 9 where it met poison, 10 where it
could not be read. -/
def State.unreadCode (s : State) (o : Owner) (va : Nat) : Nat :=
  match (s.walkTo .orrery o.vf o.asid va [.read]).1 with
  | .ok _ => 9
  | .error _ => 10

/-- The body of TCB t of graph g starts (R30, R31). -/
def State.startBody (s : State) (g t : Nat) : State :=
  let x := s.tcb t
  let o := x.owner
  let run (u : State) : State := (u.popReady g).setTcb t { u.tcb t with state := .running }
  match x.kind with
  | 0 => ((run s).tcbEnd t .done x.carried).settle
  | 1 =>
    let r := s.readDesc o.vf o.asid x.body
    let q : Issuer := ⟨some o.job, o.vf, o.asid, none, none, some t, o.core⟩
    let w := r.2.pcChecked q r.1
    match w.issueLaunch q r.1 x.carried with
    | .ok (_, u) => run u
    | .error 9 => w
    | .error c => (w.popReady g).bodyRefused t c
  | _ =>
    let r := State.readBlocks o.vf o.asid 1 x.body s
    let u := r.2.setTcb t { x with
      tasks := 0
      anyFault := false
      anyCancel := false }
    match r.1 with
    | none => (r.2.popReady g).bodyRefused t (0x80 + r.2.unreadCode o x.body)
    | some b =>
      let w := u.enqueueAt ⟨.orrery, o.core, o.vf, o.asid, o.job, o.launch, none, 0xC0, some t⟩
        [some (BitVec.ofNat 512 (leNat b.1))] x.carried
      if w.1.getLsbD 63 then
        if w.1.toNat % 256 = 6 then w.2 else (w.2.popReady g).bodyRefused t (0x80 + w.1.toNat % 256)
      else run w.2

/-- The start of the head i of graph g: where its body starts, the graph has started its TCB of this reference cycle (R52). -/
def State.startHead (s : State) (g i : Nat) : State :=
  if (s.tcb i).state = .ready then
    let t := s.startBody g i
    if (t.tcb i).state = .ready ∨ (t.tcb i).state = .faulted then t else { t with graphs := mmod t.graphs g fun x => { x with started := some s.rc } }
  else s.popReady g

/-- TCB_BODY_START (R30, R52): the head of graph g, dispatched by the Orrery, starts; one in a reference cycle from each graph. -/
def execTcbBodyStart (g : Nat) (s : State) : Out :=
  if (s.placements.any fun x => x.item == .tcb g) && !(mget s.graphs g).any fun x => x.started == some s.rc then
    let t : State := { s with placements := s.placements.filter fun x => x.item != .tcb g }
    match (mget t.graphs g).bind fun x => x.ready.head? with
    | some (i, _) => .next (t.startHead g i)
    | none => .next t
  else .next s

/-! ## Dispatch (R43 to R48) -/

/-- A core is idle (R47): no handler, no pending message or slot kept for one, not kept for an activation that moved away. -/
def Core.isIdle (c : Core) : Bool :=
  c.open && c.order.isEmpty && c.slots.toList.all fun x => x == .free || x == .landing

/-- A dome whose counts a report of an earlier reference cycle replaces (R47). -/
def Dome.arrived (x : Dome) (rc : Nat) : Dome :=
  match x.report with
  | some r =>
    if r.sent < rc then { x with idle := r.idle, free := r.free, noExt := false, noBase := false, report := none } else x
  | none => x

/-- The Orrery's counts at a reference cycle: the reports of earlier ones have replaced them (R47). -/
def State.counted (s : State) : State := { s with domes := s.domes.map fun d => (d.1, d.2.arrived s.rc) }

/-- The report of a dome (R47); a core that takes part in an exchange counts as busy (R389). -/
def State.reportDome (s : State) (d : Nat) : State :=
  let idle := (domeCores d).filter fun k => (s.core k).isIdle && !s.held k
  s.setDome d { (s.dome d).arrived s.rc with
    report := some ⟨s.rc, idle.length, ((domeCores d).map fun k => (s.core k).freeU).sum⟩ }

/-- The reports of the domes of a die, at a multiple of 64 reference cycles (R47). -/
def State.reportDie (s : State) (die : Nat) : State :=
  if s.rc % 64 = 0 then (List.range 16).foldl (fun t i => t.reportDome (16 * die + i)) s else s

/-- FREE_RESOURCE_REPORT (R47). -/
def execFreeResourceReport (die : Nat) (s : State) : Out := .next (s.reportDie die)

/-- A dome ranks above another (R48): higher IDLE, then higher FREE; the first met of equals stays. -/
def Dome.above (x y : Dome) : Bool := decide (y.idle < x.idle) || (x.idle == y.idle && decide (y.free < x.free))

/-- The dome that the Orrery takes among eligible ones (R48). -/
def State.bestDome (s : State) (l : List Nat) : Option Nat :=
  l.foldl (fun best d => match best with
    | none => some d
    | some b => if (s.dome d).above (s.dome b) then some d else some b) none

/-- The domes of a partition in ascending index. -/
def State.partition (s : State) (vf : Nat) : List Nat := (List.range 64).filter fun d => (s.vf vf).domes.contains d

/-- The dome for an item of a virtual function, if it can be placed (R48, R413). DESIGN CHOICE (log 91), unsafe: for a unit the Orrery
ranks the eligible domes whose FREE is above 0. -/
def State.domeFor (s : State) (vf : Nat) (i : Item) : Option Nat :=
  let ds := s.partition vf
  match i with
  | .unit l _ =>
    match mget s.launches l with
    | some x => s.bestDome (ds.filter fun d => x.desc.domes.getLsbD d && decide (0 < (s.dome d).free))
    | none => none
  | .task _ => s.bestDome (ds.filter fun d => decide (0 < (s.dome d).idle))
  | .ctx c => s.bestDome (ds.filter fun d =>
      decide (0 < (s.dome d).idle) && !(if c.ext then (s.dome d).noExt else (s.dome d).noBase))
  | .tcb _ => some 0

/-- The priority at which a graph's head is offered (R52): 3 for a NULL TCB. -/
def State.graphPri (s : State) (g : Graph) : Option Nat :=
  g.ready.head?.map fun t => if (s.tcb t.1).kind = 0 then 3 else g.headPri.getD (s.tcb t.1).owner.pri

/-- The virtual function of a graph. -/
def State.graphVf (s : State) (g : Graph) : Nat := ((mget s.jobs g.job).map (·.vf)).getD 0

/-- The next undispatched unit of a launch. -/
def Launch.nextUnit (x : Launch) : Option Nat := if x.next < x.desc.units then some x.next else none

/-- The stream of a unit or a task: its virtual function and priority. -/
def State.streamOf (s : State) : Item → Option (Nat × Nat)
  | .unit l _ => (mget s.launches l).map fun x => (x.vf, x.desc.pri)
  | .task o => some (o.vf, o.pri)
  | .ctx c => some (c.vf, c.pri)
  | .tcb _ => none

/-- Two items of a stream are of one kind, of which only the first may be taken; each graph offers its head (R45). -/
def Item.sameKind : Item → Item → Bool
  | .unit _ _, .unit _ _ | .task _, .task _ | .ctx _, .ctx _ => true
  | _, _ => false

/-- The first item of each kind. -/
def firstOfKinds : List Item → List Item
  | [] => []
  | i :: rest => i :: (firstOfKinds rest).filter fun j => !i.sameKind j

/-- The task that a stream takes next: of the home whose offer came first, that with the lowest sequence number (R45).
DEDUCED (log 26), unsafe: tasks of different queues of a home compare by their sequence numbers alone. -/
def State.nextOffer (s : State) (vf pri : Nat) : Option Offer :=
  let l := s.offers.filter fun o => o.vf == vf && o.pri == pri
  l.head?.map fun o => (l.filter fun x => x.t.home == o.t.home).foldl
    (fun best x => if seqBefore x.t.seq best.t.seq then x else best) o

/-- The items that a stream offers, in the order in which the Orrery takes them (R45, R50, R378): saved contexts, what came
back to its head, then tasks, TCBs and units; of each kind the first. DEDUCED (log 26), unsafe. -/
def State.stream (s : State) (vf pri : Nat) : List Item :=
  firstOfKinds (
    ((s.saved.find? fun c => c.vf == vf && c.pri == pri).map Item.ctx).toList ++
    (s.front.filter fun i => s.streamOf i == some (vf, pri)) ++
    ((s.nextOffer vf pri).map Item.task).toList ++
    ((s.graphs.filter fun g => s.graphVf g.2 == vf && s.graphPri g.2 == some pri &&
      !s.placements.any fun x => x.item == .tcb g.1).map fun g => Item.tcb g.1) ++
    (s.accepted.findSome? fun l =>
      match mget s.launches l with
      | some x => if x.vf = vf ∧ x.desc.pri = pri then x.nextUnit.map fun u => Item.unit l u else none
      | none => none).toList)

/-- The first item of a stream that can be placed, and its dome; none while the partition's streams are held (R58). -/
def State.placeable (s : State) (vf pri : Nat) : Option (Item × Nat) :=
  if s.stitch.any fun r => r.vf == vf then none
  else (s.stream vf pri).findSome? fun i => (s.domeFor vf i).map fun d => (i, d)

/-- A stream has an item that can be placed. -/
def State.waits (s : State) (pri vf : Nat) : Bool := (s.placeable vf pri).isSome

/-- An item taken from its stream: from what came back, or from its place. A task keeps the time at which it was first taken. -/
def State.takeItem (s : State) (i : Item) : State :=
  if s.front.contains i then { s with front := s.front.erase i }
  else
    match i with
    | .unit l _ => { s with launches := mmod s.launches l fun x => { x with next := x.next + 1 } }
    | .task o =>
      let x := (s.home o.t.home).modQueue o.t.queue fun q => q.modEntry o.t.seq fun e => { e with turn := s.fresh }
      { s.draw.setHome o.t.home x with offers := s.offers.erase o }
    | .ctx c => { s with saved := s.saved.erase c }
    | .tcb _ => s

/-- The counts of a dome after a dispatch to it (R47). -/
def Dome.lower (x : Dome) : Dome := { x with free := x.free - 1, idle := x.idle - 1 }

/-- The turn of a level passes where its holder has nothing left to place (R44). -/
def State.passTurn (s : State) (pri : Nat) : State :=
  { s with turns := s.turns.set (Fin.ofNat 4 pri).val ((s.turns[Fin.ofNat 4 pri]).forfeit (s.waits pri)) }

/-- An item dispatched (R44, R47): the turn of its level moves on. DESIGN CHOICE (log 83), unsafe: a saved context that is to be resumed
lowers its dome's counts as a unit or a task does. -/
def State.dispatch (s : State) (pri vf : Nat) (i : Item) (d : Nat) : State :=
  let turn := s.turns[Fin.ofNat 4 pri]
  let t := s.takeItem i
  let u := match i with
    | .tcb _ => t
    | .unit _ _ | .task _ | .ctx _ => t.setDome d (t.dome d).lower
  State.passTurn { u with
    placements := u.placements ++ [⟨i, d⟩]
    turns := u.turns.set (Fin.ofNat 4 pri).val (turn.after vf (s.vf vf).weight (s.waits pri)) } pri

/-- One placement at a level, if one is possible. -/
def State.placeAt (s : State) (pri : Nat) : Option State :=
  match (s.turns[Fin.ofNat 4 pri]).grant (s.vfs.map Prod.fst) (s.waits pri) with
  | none => none
  | some vf => (s.placeable vf pri).map fun x => s.dispatch pri vf x.1 x.2

/-- The level that a reference cycle serves: the highest that has an item it can place (R43). -/
def State.servedLevel (s : State) : Option Nat :=
  [3, 2, 1, 0].find? fun p => s.vfs.any fun v => s.waits p v.1

/-- At most n placements at a level. -/
def State.placeN (pri : Nat) : Nat → State → State
  | 0, s => s
  | n + 1, s =>
    match s.placeAt pri with
    | some t => State.placeN pri n t
    | none => s

/-- ORRERY_DISPATCH_CYCLE (R43, R48): up to four placements at the level that the cycle serves, each seeing the counts that those
before it have lowered; one level in a reference cycle. -/
def execOrreryDispatchCycle (s : State) : Out :=
  if s.dispatched = some s.rc then .next s
  else
    let t := [3, 2, 1, 0].foldl State.passTurn s.counted
    match t.servedLevel with
    | some p => .next { State.placeN p 4 t with dispatched := some s.rc }
    | none => .next t

/-! ## Die agents (R49, R50) -/

/-- The core of a dome for a start message: the most free unreserved slots, the lowest number of equals (R49). -/
def State.coreForUnit (s : State) (l d : Nat) : Option Nat :=
  ((domeCores d).filter fun k =>
    decide (0 < (s.core k).freeU) && !s.areaBusy l k).foldl
    (fun best k => match best with
      | none => some k
      | some b => if (s.core b).freeU < (s.core k).freeU then some k else some b) none

/-- The core of a dome for a delivery: the lowest idle one (R49). -/
def State.coreForTask (s : State) (l d : Nat) : Option Nat :=
  (domeCores d).find? fun k => (s.core k).isIdle && !s.held k && !s.areaBusy l k

/-- A message sent into a slot that the die agent reserves; the core's mask of pre-emption lines is set at the dispatch
(R49, R353). -/
def State.sendPlaced (s : State) (k : Nat) (p : Packet) : State :=
  match (s.core k).freeFor false with
  | none => s
  | some i =>
    let c := s.core k
    let t := s.draw.setCore k { c with
      slots := c.slots.set i.val .reserved
      lineMask := s.linesFor k p.vf }
    { t with flights := t.flights ++ [⟨p, .placed i.val⟩] }

/-- The start message of unit u (R28). -/
def State.startMessage (s : State) (l u k : Nat) (x : Launch) : Packet :=
  let w (i : Fin 6) : Word := x.desc.template[i.val]
  let tags := (if x.desc.ttags.getLsbD 2 then 0x010 else 0) + (if x.desc.ttags.getLsbD 4 then 0x100 else 0)
  ⟨{ s.message k x.core x.desc.pri x.desc.cls l 0 [w 0 + w64 u, w 1, w 2, w 3, w 4, w 5] with ptag := tags },
    .start u, false, x.carried, x.vf, none⟩

/-- The message that starts a far body (R68). -/
def State.taskMessage (s : State) (t : TaskRef) (k : Nat) (e : Entry) (pri : Nat) : Packet :=
  let d := e.desc
  let words := [w64 d.anchor, capInfo0 d.anchor (d.alen + 1) e.perms.toNat, d.args[0], d.args[1], d.args[2], d.args[3]]
  ⟨{ s.message k e.core pri d.fclass e.ctx 0x04 words with ptag := 1 }, .task t, false, e.carried, s.launchVf e.ctx, none⟩

/-- The n-th placement taken out. -/
def State.dropPlacement (s : State) (n : Nat) : State := { s with placements := dropAt s.placements n }

/-- When the Orrery first took a task from its stream. -/
def State.turnOf (s : State) (t : TaskRef) : Nat := ((s.entryAt t.home t.queue t.seq).map (·.turn)).getD 0

/-- One item comes before another in the order in which the Orrery takes a stream's (R45): units by the acceptance of their launches and
then ascending, tasks of a home ascending, tasks of two homes as they were first taken. DEDUCED (log 26), unsafe. -/
def State.comesBefore (s : State) : Item → Item → Bool
  | .unit l u, .unit m v => if l = m then decide (u < v) else decide (s.accepted.idxOf l < s.accepted.idxOf m)
  | .task o, .task p => if o.t.home = p.t.home then seqBefore o.t.seq p.t.seq else decide (s.turnOf o.t < s.turnOf p.t)
  | .unit .., _ | .task _, _ | .ctx _, _ | .tcb _, _ => false

/-- An item put at the head of those that came back, but after what comes before it. -/
def frontIn (before : Item → Bool) (i : Item) : List Item → List Item
  | [] => [i]
  | j :: rest => if (j :: rest).any before then j :: frontIn before i rest else i :: j :: rest

/-- A unit or a task goes back to the head of its stream (R45, R50, R56). -/
def State.putBack (s : State) (i : Item) : State := { s with front := frontIn (fun j => s.comesBefore j i) i s.front }

/-- DIE_AGENT_PLACEMENT (R49, R50): the die agent chooses a core for the n-th placement, or returns its item. -/
def execDieAgentPlacement (n : Nat) (s : State) : Out :=
  match s.placements[n]? with
  | none => .next s
  | some x =>
    let t := s.dropPlacement n
    let y := (t.dome x.dome).arrived t.rc
    match x.item with
    | .unit l u =>
      match mget t.launches l with
      | none => .next t
      | some z =>
        match t.coreForUnit l x.dome with
        | some k => .next (t.sendPlaced k (t.startMessage l u k z))
        | none =>
          .next ((t.putBack (.unit l u)).setDome x.dome { y with free := 0 })
    | .task o =>
      match t.entryAt o.t.home o.t.queue o.t.seq with
      | none => .next t
      | some e =>
        match t.coreForTask e.ctx x.dome with
        | some k => .next (t.sendPlaced k (t.taskMessage o.t k e o.pri))
        | none => .next ((t.putBack (.task o)).setDome x.dome { y with idle := 0 })
    | .ctx _ | .tcb _ => .next s

/-! ## Partitions (R56 to R58) -/

/-- A saved context put among the others in the order in which they were saved (R378). -/
def savedIn (x : Saved) : List Saved → List Saved
  | [] => [x]
  | y :: rest => if x.stamp < y.stamp then x :: y :: rest else y :: savedIn x rest

/-- The units and tasks of a dome that no core has selected go back to the heads of their streams (R56). -/
def State.recall (s : State) (d : Nat) : State :=
  let mine (p : Packet) : Bool := domeOf p.msg.dest == d && (match p.kind with | .start _ | .task _ => true | _ => false)
  let waiting := s.cores.flatMap fun c =>
    c.2.waiting.filterMap fun i => (c.2.slots[i.val]).msg.filter mine
  let flying := (s.flights.map (·.packet)).filter mine
  let placed := (s.placements.filter fun x => x.dome == d && (match x.item with | .tcb _ => false | _ => true)).map (·.item)
  let t := s.pull mine
  let u : State := { t with placements := t.placements.filter fun x => x.dome != d || (match x.item with | .tcb _ => true | _ => false) }
  let back (v : State) (p : Packet) : State :=
    match p.kind with
    | .start n => v.putBack (.unit p.msg.launch n)
    | .task r =>
      let w := v.setHome r.home ((v.home r.home).modQueue r.queue fun q => q.modEntry r.seq fun e => { e with cond := .offered })
      w.putBack (.task ⟨r, v.launchVf p.msg.launch, p.msg.pri⟩)
    | _ => v
  let again (v : State) (i : Item) : State :=
    match i with
    | .unit _ _ | .task _ => v.putBack i
    | .ctx c => { v with saved := savedIn c v.saved }
    | .tcb _ => v
  placed.foldr (fun i v => again v i) ((waiting ++ flying).foldr (fun p v => back v p) u)

/-- A dome still holds a context of the virtual function that it is leaving (R57): an activation that runs in it or with
KSELF in it, a saved one, or a core with waiting messages. DEDUCED (log 70), unsafe: such a core holds a context with no
region (R56, R425). -/
def State.domeInUse (s : State) (d vf : Nat) : Bool :=
  (s.cores.any fun c => (c.2.vfid == vf && domeOf c.2.kself == d && c.2.act.isSome) ||
    (domeOf c.1 == d && (c.2.act.isSome || !c.2.order.isEmpty))) ||
    s.contexts.any fun c => c.vf == vf && domeOf c.kself == d

/-- A physical address lies in a slice of the dome. -/
def inDome (d pa : Nat) : Bool := match sliceOf pa with | some k => domeOf k == d | none => false

/-- The slices of a dome zeroed (R57). -/
def Memory.zeroDome (m : Memory) (d : Nat) : Memory :=
  { m with
    cells := m.cells.filter fun c => !inDome d c.1
    tags := m.tags.filter fun gr => !inDome d (16 * gr)
    marks := m.marks.filter fun w => !inDome d (8 * w.1)
    upsets := m.upsets.filter fun w => !inDome d (8 * w.1)
    unseen := m.unseen.filter fun e => !e.bytes.any fun b => inDome d b.1 }

/-- A dome given to a virtual function: it joins its partition (R55, R57). -/
def State.give (s : State) (vf d : Nat) : State :=
  let v := s.vf vf
  (s.setDome d { s.dome d with mode := .owned vf }).setVf vf { v with domes := v.domes ++ [d] }

/-- DOME_LEAVES_RETIRING (R57): the slices are zeroed, the class tables cleared, and the dome handed to its new owner; after
SVC the self-test follows (R405). -/
def execDomeLeavesRetiring (d : Nat) (s : State) : Out :=
  match (s.dome d).mode with
  | .retiring vf service next =>
    if s.domeInUse d vf then .next s
    else
      let t := s.setMem (s.mem.zeroDome d)
      let clear (c : Core) : Core := { c with classes := Vector.replicate 64 0 }
      let u : State := { t with cores := t.cores.map fun c => (c.1, if domeOf c.1 = d then clear c.2 else c.2) }
      let x := u.dome d
      let free := u.setDome d { x with
        mode := if service then .testing else .unassigned
        alm := { x.alm with ivalid := false } }
      .next (match next with
        | some v => free.give v d
        | none => free)
  | .unassigned | .owned _ | .testing | .disabled => .next s

/-- A partition is quiet (R58): no running activation, no message on its links, and no open round of its groups. -/
def State.quiet (s : State) (vf : Nat) : Bool :=
  !((s.cores.any fun c => s.inPartition vf c.1 && c.2.act.isSome) ||
    (s.flights.any fun f => s.inPartition vf f.packet.msg.dest) ||
    (s.multis.any fun m => m.left.any (s.inPartition vf)) ||
    s.rounds.any fun r => match mget s.groups r.group with
      | some (.reduction v ..) => v == vf
      | some (.multicast ..) | none => false)

/-- Route entries loaded into routers (R58, R328). -/
def State.loadRoutes (s : State) (l : List (Nat × Nat × Route)) : State :=
  { s with routes := l.foldl (fun m x => mput m (64 * x.1 + x.2.1) x.2.2) s.routes }

/-- MESH_RESTITCH (R58): the new stitching and the new routes take effect once the partition is quiet; its streams are
released. -/
def execMeshRestitch (vf : Nat) (s : State) : Out :=
  match s.stitch with
  | some r =>
    if r.vf = vf ∧ s.quiet vf then
      let t := s.loadRoutes r.loads
      .next { t with
        stitch := none
        topologies := match r.topology with | some x => mput t.topologies vf x | none => t.topologies }
    else .next s
  | none => .next s

end Sys2Proof.Machine
end

