-- ==== Sys2Proof/Machine/Interrupt.lean ====
section
/-! DEFINITION. Pre-emption, the context record, resumption and extension migration (R119, R254, R273, R305, R374 to R380,
R411 to R413, R425). -/
namespace Sys2Proof.Machine

/-! ## Stopping an activation (R374, R375) -/

/-- Unstarted copies of the current region are cancelled, with no flag and no message (R254). -/
def State.cancelCopies (s : State) (k : Nat) : State :=
  let c := s.core k
  let gone := c.fifo.filter fun q => q.region == c.regionNo
  let t := s.setCore k { c with fifo := c.fifo.filter fun q => q.region != c.regionNo }
  gone.foldl (fun u q => u.unpin q.launch) t

/-- Steps 1 to 4 of R375: the region's register results are discarded, accesses performed, symbols dropped, and the engines
stopped for the region. Done again, it changes nothing more. -/
def State.stopRegion (s : State) (k : Nat) : State :=
  let t := s.settleAccesses k
  let u := t.setCore k { (t.core k).dropAllSyms with windows := [] }
  ((u.cancelCopies k).matPreempt k).arrPreempt k

/-- A request to an NFREE that asked for a message (R81). -/
def HomeReq.owes (k l : Nat) : HomeReq → Bool
  | .free core _ _ launch _ word => core == k && launch == l && word.getLsbD 6
  | .enqueue .. | .config .. | .lease .. => false

/-- Step 5 of R375: a message to a reserved slot is still owed to the activation of core k. -/
def State.owesMessage (s : State) (k : Nat) (a : Act) : Bool :=
  let c := s.core k
  let owed (q : CopyReq) : Bool := shMsg q.shape && decide (a.base ≤ q.region)
  c.fifo.any owed || (c.chans.toList.any fun x => match x.req with | some q => owed q | none => false) ||
    (s.hreqs.any (HomeReq.owes k a.launch)) ||
    (s.homes.any fun h => h.2.notes.any fun n => n.core == k && n.launch == a.launch && n.cls.isSome) ||
    s.flights.any fun f => f.packet.kind == .completion && f.packet.msg.dest == k && f.packet.msg.launch == a.launch

/-! ## Writing the context area (R376, R377, R425) -/

/-- The tags and marks that bytes of whole granules are saved with. -/
structure Guise where
  tags : List Bool
  marks : List (Option Mark)
deriving DecidableEq, Repr

/-- A write of a context area by core k becomes visible as a store of its page does (R358, R360). -/
def areaSeen (k : Nat) (p : Place) : Visibility where
  writer := .core k
  seenBy := storeSeen k p.pa p.sc

/-- Bytes written at a place for core k: with the tags and marks of whole granules, whose newly marked words are counted
(R217), or plainly (R93). -/
def State.saveAt (s : State) (k : Nat) (p : Place) (bs : List Byte) : Option Guise → State
  | none => s.writeMem (areaSeen k p) p.pa bs (fun _ => false) false
  | some g =>
    let tags := g.tags.take (bs.length / 16)
    let marks := g.marks.take (bs.length / 8)
    (s.setMem (s.mem.writeWhole (areaSeen k p) p.pa bs tags marks)).countMarks p.pa
      (0, 0, (marks.filter Option.isSome).length)

/-- Bytes written through the issuing domain's translation, page by page: the state so far, and where the write met a page
that is not mapped with R and W (detail 1) or poison (detail 2). -/
def State.saveBytes (k vf asid : Nat) : Nat → Nat → List Byte → Option Guise → State → Option (Nat × Nat) × State
  | 0, _, _, _, s => (none, s)
  | fuel + 1, va, bs, guise, s =>
    if bs.isEmpty then (none, s)
    else
      let n := min bs.length (65536 - va % 65536)
      match s.engineTo (.core k) vf asid va [.read, .write] with
      | (.error _, t) => (some (1, va), t)
      | (.ok p, t) =>
        match (wordsOf p.pa n).find? fun w => (t.mem.mark w).isSome with
        | some w => (some (2, va + (8 * w - p.pa)), t)
        | none =>
          State.saveBytes k vf asid fuel (va + n) (bs.drop n) (guise.map fun g => ⟨g.tags.drop (n / 16), g.marks.drop (n / 8)⟩)
            (t.saveAt k p (bs.take n) guise)

/-- Parts of a record written one after another, until one fails. -/
def State.saveParts (k vf asid base : Nat) : List (Nat × List Byte) → State → Option (Nat × Nat) × State
  | [], s => (none, s)
  | (off, bs) :: rest, s =>
    match State.saveBytes k vf asid 6 (base + off) bs none s with
    | (some f, t) => (some f, t)
    | (none, t) => State.saveParts k vf asid base rest t

/-- The numbers of the registers that a mask names. -/
def namedIn {n : Nat} (mask : BitVec n) : List (Fin n) := (List.finRange n).filter fun i => mask.getLsbD i.val

/-- A message as its 64 bytes (R321). -/
def Msg.beat (m : Msg) : List Byte := (m.headerLo :: m.headerHi :: m.m.toList).flatMap fun w => leBytes 8 w.toNat

/-- The header of an accumulator in a record (R377). -/
def AccBody.header (z : AccBody) : List Byte :=
  leBytes 8 (bitsOf 16 z.e + z.orgRow.toNat * 2 ^ 16 + z.orgCol.toNat * 2 ^ 40) ++ leBytes 8 z.pois.toNat ++ leBytes 48 0

/-- The elements of an accumulator in a record, as ZGET lays them out (R288, R377). -/
def AccBody.elements (z : AccBody) : List Byte :=
  (List.finRange 256).flatMap fun n => leBytes 8 (z.code[n.val].toNat * 2 ^ 48 + bitsOf 48 z.m[n.val])

/-- A shape register as R267 lays it out. -/
def Shape.word (x : Shape) : Nat := x.rows * 2 ^ 16 + x.fmt.code * 2 ^ 12 + x.cols

/-- The header of a tile in a record (R377). -/
def Tile.header (t : Tile) : List Byte := leBytes 8 t.shape.word ++ leBytes 8 t.pois.toNat ++ leBytes 16 0

/-- The live-in sets of an activation as its region record lays them out (R139); 0 in the entry region or with none. -/
def Act.recordNat (a : Act) : Nat :=
  if a.entry then 0
  else a.gmask.toNat + a.fmask.toNat * 2 ^ 32 + a.vmask.toNat * 2 ^ 48 + a.tmask.toNat * 2 ^ 64 + a.zmask.toNat * 2 ^ 72 + 2 ^ 80

/-- An activation with no live-in: what a context with no region saves (R425). -/
def Act.none : Act := ⟨0, .notify, false, 0, true, 0, 0, 0, 0, 0, false, 0, 0, 0, 0, Option.none⟩

/-- The first word of a record (R377). -/
def recordFlags (act : Option Act) : Nat := 1 + (if act.isNone then 2 else 0) + (if (act.map (·.entry)).getD false then 4 else 0)

/-- The slots of a core that hold messages, in the order of their numbers. -/
def Core.held (c : Core) : List (Fin 32 × Packet) :=
  (List.finRange 32).filterMap fun i => (c.slots[i.val]).msg.map fun p => (i, p)

/-- The parts of a context record by offset, VALID last (R377). Tags and poison bits outside the masks are written 0.
DEDUCED (log 36), unsafe. -/
def Core.record (c : Core) (m : MatCore) (k vf asid launch kself : Nat) : List (Nat × List Byte) :=
  let a := c.act.getD Act.none
  let gs := namedIn a.gmask
  let fs := namedIn a.fmask
  let vs := namedIn a.vmask
  let zs := namedIn a.zmask
  let ts := namedIn a.tmask
  let occupied := (c.held.map fun x => 2 ^ (x.1.val + 5)).sum + (match c.pinned with | some i => i.val + 2 ^ 37 | none => 0)
  [(0x08, leBytes 8 c.rgnpc.toNat), (0x10, leBytes 8 c.rgnrec.toNat),
    (0x18, leBytes 8 (vf % 2 ^ 10 * 2 ^ 48 + asid % 2 ^ 16 * 2 ^ 32 + (if isExt k then 2 ^ 16 else 0) + kself % 2 ^ 13)),
    (0x20, leBytes 8 launch),
    (0x28, leBytes 8 (gs.map fun r => c.g[r.val].tag.code * 4 ^ r.val).sum),
    (0x30, leBytes 8 (fs.map fun r => c.f[r.val].tag.code * 4 ^ r.val).sum),
    (0x38, leBytes 16 (vs.map fun r => c.v[r.val].pois.toNat * 2 ^ (8 * r.val)).sum),
    (0x48, leBytes 8 occupied), (0x50, leBytes 16 a.recordNat), (0x60, leBytes 8 c.mwgt.toNat),
    (0x68, leBytes 8 c.dseed.toNat), (0x70, leBytes 8 c.dkeep.toNat), (0x78, leBytes 8 c.arrCfg.toNat), (0x80, leBytes 128 0)] ++
  (gs.map fun r => (0x100 + 16 * r.val, leBytes 8 c.g[r.val].value.toNat ++ leBytes 8 c.g[r.val].info.toNat)) ++
  (fs.map fun r => (0x300 + 16 * r.val, leBytes 8 c.f[r.val].value.toNat ++ leBytes 8 c.f[r.val].info.toNat)) ++
  (vs.map fun r => (0x400 + 32 * r.val, leBytes 32 c.v[r.val].value.toNat)) ++
  (c.held.map fun x => (0x600 + 64 * x.1.val, x.2.msg.beat)) ++
  (zs.map fun r => (0xE00 + 64 * r.val, m.accs[r.val].body.header)) ++
  (ts.map fun r => (0xF00 + 32 * r.val, m.tiles[r.val].header)) ++
  (zs.map fun r => (0x1000 + 2048 * r.val, m.accs[r.val].body.elements)) ++
  (ts.map fun r => (0x3000 + 2048 * r.val, leBytes 2048 m.tiles[r.val].data.toNat)) ++
  (ts.map fun r => (0x7000 + 128 * r.val, leBytes 128 m.tiles[r.val].sidecar.toNat)) ++
  [(0x7400, c.classes.toList.flatMap fun e => leBytes 8 (e &&& entryMask).toNat), (0, leBytes 8 (recordFlags c.act))]

/-- The address of the context record (R376). DEDUCED (log 39), unsafe. -/
def recordAddr (ovf : Word) (kself : Nat) : Nat := ovf.toNat + 2 ^ 31 + kself * 2 ^ 15

/-- The carve-out image written where R36 redirects its addresses (R376); poison travels with it as the stored mark. -/
def State.saveCarve (s : State) (k : Nat) : Option (Nat × Nat) × State :=
  let c := s.core k
  let base := s.sliceVa c.vfid c.kself
  let off := c.splo.toNat - base
  let n := base + 0x40000 - c.splo.toNat
  let pa := slicePa c.kself + off
  let v := Viewer.core k
  let t := s.checked pa n
  let marks := (wordsOf pa n).map fun w => (t.mem.viewMark v w).map fun _ => Mark.stored
  State.saveBytes k c.vfid c.asid 6 (c.ovfptr.toNat + off) (t.mem.viewBytes v pa n)
    (some ⟨(granulesOf pa n).map (t.mem.viewTag v), marks⟩) t

/-- The core is empty and its context saved (step 8 of R375): the writes that it has seen go with it. -/
def State.saved8 (s : State) (k : Nat) (x : Saved) : State :=
  let r := s.draw.release k
  let c := r.2.core k
  let t := r.2.setCore k { c with
    act := none
    windows := []
    wait := none
    preempt := false
    pinned := none
    order := []
    slots := c.slots.map fun y => match y with | .holds _ => .free | z => z }
  { t with
    mem := { t.mem with watches := t.mem.watches.filter fun w => w.core != k }
    saved := t.saved ++ [{ x with stamp := s.fresh, carried := r.1 }] }

/-- The messages of an inbox, with their slots, in arrival order. -/
def Core.inboxImage (c : Core) : List (Fin 32 × Packet) :=
  c.order.filterMap fun i => (c.slots[i.val]).msg.map fun p => (i, p)

/-- The launch whose area a context with no region uses: that of the earliest waiting message (R425). -/
def State.waitingLaunch (s : State) (k : Nat) : Option (Nat × Launch) :=
  ((s.core k).waiting.findSome? fun i => ((s.core k).slots[i.val]).msg).bind fun p =>
    let l := match p.kind with
      | .notify | .cross => s.listener p
      | .start _ | .task _ | .send | .spawn _ _ _ | .root _ | .completion | .fault => some p.msg.launch
    l.bind fun i => (mget s.launches i).map fun x => (i, x)

/-- A context-save fault where no unit counts FAULTED (R425): FCAUSE, FADDR, and the message to the supervisor of launch l. -/
def State.contextFault (s : State) (l k d at_ : Nat) : State :=
  (s.setCore k ((s.core k).caused 21 d (w64 at_))).faultMessage l k [faultWord 0 .none k d 21, addr48 (w64 at_), 0, 0, 0, w64 s.time] []

/-- A pre-emption request is over for core k. -/
def State.lapse (s : State) (k : Nat) : State := s.setCore k { s.core k with preempt := false }

/-- The save of a core with waiting messages and no handler (R425); the context holds its launch as a started member does (R379).
DEDUCED (log 38), unsafe: while another context has the area (R376), the pre-emption lapses as where there is none. -/
def State.saveNoRegion (s : State) (k : Nat) : State :=
  match s.waitingLaunch k with
  | none => (s.lapse k).count .lapsedPreempt
  | some (l, x) =>
    if x.desc.ovf = 0 || s.areaTaken l k k then (s.lapse k).count .lapsedPreempt
    else
      let t := s.flushAll k
      let addr := recordAddr x.desc.ovf k
      let c := t.core k
      match State.saveParts k x.vf x.asid addr (c.record (t.mat k) k x.vf x.asid l k) t with
      | (some (d, at_), u) => (u.lapse k).contextFault l k d at_
      | (none, u) => (u.pin l).saved8 k ⟨0, l, k, addr, isExt k, x.vf, x.asid, x.desc.pri, none, c.inboxImage, none, []⟩

/-- Steps 6 to 8 of R375 for the activation of core k. -/
def State.saveActivation (s : State) (k : Nat) (a : Act) : State :=
  let t := s.flushAll k
  let c := t.core k
  let addr := recordAddr a.ovf c.kself
  match t.saveCarve k with
  | (some (d, at_), u) => u.faultAt k 21 d (w64 at_)
  | (none, u) =>
    match State.saveParts k c.vfid c.asid addr (c.record (u.mat k) k c.vfid c.asid a.launch c.kself) u with
    | (some (d, at_), v) => v.faultAt k 21 d (w64 at_)
    | (none, v) =>
      let pri := ((mget v.launches a.launch).map (·.desc.pri)).getD 0
      v.saved8 k ⟨0, a.launch, c.kself, addr, isExt k, c.vfid, c.asid, pri, some a, c.inboxImage, c.pinned, []⟩

/-- Commands of earlier regions of core k have still to finish (R273, R305). -/
def State.enginesBusy (s : State) (k : Nat) : Bool := !(s.mat k).queue.isEmpty || !(s.core k).arrQueue.isEmpty

/-- A commit holds a pre-emption off until its RGN has completed, OVF = 0 until the activation ends (R374). -/
def Act.preemptible (a : Act) : Bool := !a.commit && a.ovf != 0

/-- Some access that core k has on its way lies in a slice of an exchange, which holds it (R389). -/
def State.accessesHeld (s : State) (k : Nat) : Bool :=
  (s.core k).buf.any (fun e => s.heldAt e.pa) || (s.core k).ldes.any (fun e => s.heldAt e.pa)

/-- The activation of core k may be saved now (R374): no other context has its area (R376). DEDUCED (log 38), unsafe. -/
def State.savable (s : State) (k : Nat) (a : Act) : Bool := a.preemptible && !s.areaTaken a.launch (s.core k).kself k

/-- Core k issues nothing while it waits to be saved. -/
def State.awaitSave (s : State) (k : Nat) : State := s.setCore k { s.core k with wait := some .saving }

/-- PREEMPTION_TAKE (R374, R375): core k, at an instruction boundary, takes the pre-emption that has reached it; it waits for the
messages owed to its activation and for its earlier commands, and for the end of an exchange (R389, log 42). -/
def execPreemptionTake (k : Nat) (s : State) : Out :=
  let c := s.core k
  if c.preempt && !s.held k then
    match c.act with
    | none =>
      if c.waiting.isEmpty then .next (s.lapse k)
      else if s.exchanging then .next s
      else .next (s.saveNoRegion k)
    | some a =>
      if s.savable k a then
        if s.accessesHeld k then .next (s.awaitSave k)
        else
          let t := s.stopRegion k
          if t.owesMessage k a || t.enginesBusy k || t.exchanging then .next (t.awaitSave k)
          else .next (t.saveActivation k a)
      else .next s
  else .next s

/-- Core k takes a pre-emption before it issues anything more (R374). -/
def State.preempts (s : State) (k : Nat) : Bool :=
  (s.core k).preempt && (match (s.core k).act with | some a => s.savable k a | none => false)

/-- PREEMPTION_REQUEST_ARRIVAL (R374): the Orrery's request reaches core k. -/
def execPreemptionRequestArrival (k : Nat) (s : State) : Out := .next (s.setCore k { s.core k with preempt := true })

/-! ## Resumption (R378) -/

/-- A registers file with those of a mask, every other one a default. -/
def keepMasked {α : Type} {n m : Nat} (mask : BitVec m) (x : α) (file : Vector α n) : Vector α n :=
  Vector.ofFn fun i => if mask.getLsbD i.val then file[i.val] else x

/-- What a resuming core reads of a record: bytes that stand on unreadable pages or poisoned words are free values (log 5).
DEDUCED (log 37), safe. -/
def State.recordBytes (s : State) (k : Nat) (x : Saved) (off n : Nat) : List Byte :=
  (List.range n).map fun i =>
    match (s.engineTo (.core k) x.vf x.asid (x.record + off + i) [.read]).1 with
    | .ok p =>
      if (s.mem.viewMark (.core k) (p.pa / 8)).isSome then (Config.freeWord (s.fresh + off + i)).truncate 8
      else s.mem.view (.core k) p.pa
    | .error _ => (Config.freeWord (s.fresh + off + i)).truncate 8

/-- A word of a record. -/
def State.recordNat (s : State) (k : Nat) (x : Saved) (off n : Nat) : Nat := leNat (s.recordBytes k x off n)

/-- A tag code read back; 10 is read as poison, as R322 reads it. -/
def tagFrom (n : Nat) : Tag := match n with | 0 => .data | 1 => .cap | _ => .pois

/-- A register read back from a record. -/
def State.recordReg (s : State) (k : Nat) (x : Saved) (tags base r : Nat) : Reg :=
  ⟨tagFrom (bits tags (2 * r) 2), w64 (s.recordNat k x (base + 16 * r) 8), w64 (s.recordNat k x (base + 16 * r + 8) 8)⟩

/-- A message read back from its 64 bytes (R321). -/
def msgOf (n : Nat) : Msg where
  dest := bits n 0 13
  src := bits n 16 13
  pri := bits n 38 2
  cls := bits n 32 6
  xpkg := bit n 47
  incomplete := bit n 46
  flags := BitVec.ofNat 6 (n / 2 ^ 40)
  launch := bits n 48 16
  time := BitVec.ofNat 48 (n / 2 ^ 64)
  ptag := BitVec.ofNat 12 (n / 2 ^ 112)
  m := Vector.ofFn fun i => w64 (n / 2 ^ (128 + 64 * i.val))

/-- An accumulator read back from a record. -/
def State.recordAcc (s : State) (k : Nat) (x : Saved) (r : Nat) : Acc :=
  let h := s.recordNat k x (0xE00 + 64 * r) 16
  let e := s.recordNat k x (0x1000 + 2048 * r) 2048
  let body : AccBody := {
    m := Vector.ofFn fun i => sextNat 48 (bits e (64 * i.val) 48)
    e := sextNat 16 h
    code := Vector.ofFn fun i => BitVec.ofNat 2 (e / 2 ^ (64 * i.val + 48))
    orgRow := BitVec.ofNat 24 (h / 2 ^ 16)
    orgCol := BitVec.ofNat 24 (h / 2 ^ 40)
    pois := w64 (h / 2 ^ 64) }
  ⟨body, body, none⟩

/-- A tile read back from a record. -/
def State.recordTile (s : State) (k : Nat) (x : Saved) (r : Nat) : Tile :=
  let h := s.recordNat k x (0xF00 + 32 * r) 16
  ⟨BitVec.ofNat 16384 (s.recordNat k x (0x3000 + 2048 * r) 2048), (shapeOf (w64 h)).getD Tile.reset.shape,
    BitVec.ofNat 1024 (s.recordNat k x (0x7000 + 128 * r) 128), w64 (h / 2 ^ 64)⟩

/-- The tiles and accumulators that a region keeps come to the unit of core k; the others stand (R378, R412). -/
def State.matRegion (s : State) (k : Nat) (a : Act) (tile : TReg → Tile) (acc : ZReg → Acc) : State :=
  if a.tmask = 0 ∧ a.zmask = 0 then s
  else s.matRenew k false ((namedIn a.tmask).map fun i => (i.val, tile i)) ((namedIn a.zmask).map fun i => (i.val, acc i))

/-- The parts of a record that the restore of a context reads (R377, R378). -/
def Saved.parts (x : Saved) : List (Nat × Nat) :=
  let a := x.act.getD Act.none
  [(0x08, 0x78)] ++ ((namedIn a.gmask).map fun r => (0x100 + 16 * r.val, 16)) ++
  ((namedIn a.fmask).map fun r => (0x300 + 16 * r.val, 16)) ++ ((namedIn a.vmask).map fun r => (0x400 + 32 * r.val, 32)) ++
  (x.inbox.map fun y => (0x600 + 64 * y.1.val, 64)) ++ ((namedIn a.zmask).map fun r => (0xE00 + 64 * r.val, 16)) ++
  ((namedIn a.tmask).map fun r => (0xF00 + 32 * r.val, 16)) ++ ((namedIn a.zmask).map fun r => (0x1000 + 2048 * r.val, 2048)) ++
  ((namedIn a.tmask).map fun r => (0x3000 + 2048 * r.val, 2048)) ++ ((namedIn a.tmask).map fun r => (0x7000 + 128 * r.val, 128)) ++
  [(0x7400, 512)]

/-- A word of a record is translated, and its code checked (R212). -/
def State.recordRead (s : State) (k : Nat) (x : Saved) (off : Nat) : State :=
  match s.engineTo (.core k) x.vf x.asid (x.record + off) [.read] with
  | (.ok p, t) => t.checked p.pa 8
  | (.error _, t) => t

/-- The words of a record as they are read: the pages translated, the codes checked (R212). -/
def State.checkedRecord (s : State) (k : Nat) (x : Saved) : State :=
  let t := (s.recordRead k x 0x08).recordRead k x 0x75F8
  if t.mem.upsets.isEmpty then t
  else x.parts.foldl (fun u y => (List.range (y.2 / 8)).foldl (fun v i => v.recordRead k x (y.1 + 8 * i)) u) t

/-- The class table read back. -/
def State.recordClasses (s : State) (k : Nat) (x : Saved) : Vector Word 64 :=
  Vector.ofFn fun i => w64 (s.recordNat k x (0x7400 + 8 * i.val) 8) &&& entryMask

/-- The inbox of a core with an image put in (R378): its messages come before any later one. -/
def Core.takeInbox (c : Core) (image : List (Fin 32 × Packet)) (pinned : Option (Fin 32)) : Core :=
  { c with
    slots := image.foldl (fun l x => l.set x.1.val (.holds x.2)) c.slots
    order := image.map Prod.fst
    pinned := pinned }

/-- A core can take an inbox image: it is idle and the slots of the image are free. -/
def Core.fits (c : Core) (image : List (Fin 32 × Packet)) : Bool :=
  c.isIdle && image.all fun x => c.slots[x.1.val] == .free

/-- The PC and the activation that a restart begins with; g2 as R141 gives it in an entry region. -/
def Core.restart (c : Core) (a : Act) (stack : Reg) : Core :=
  { c with
    g := if a.entry then c.g.set 2 stack else c.g
    pc := c.rgnpc
    act := some { a with base := c.regionNo } }

/-- The core after the restore of a context (R378). -/
def State.restored (s : State) (k : Nat) (x : Saved) : Core :=
  let c := s.core k
  let w (off n : Nat) : Nat := s.recordNat k x off n
  let a := x.act.getD Act.none
  let gt := w 0x28 8
  let ft := w 0x30 8
  let vp := w 0x38 16
  let occ := w 0x48 8
  let image := x.inbox.map fun y => (y.1, { y.2 with msg := msgOf (w (0x600 + 64 * y.1.val) 64) })
  let d : Core := { c with
    g := keepMasked a.gmask (Reg.data 0) (Vector.ofFn fun i => s.recordReg k x gt 0x100 i.val)
    f := keepMasked a.fmask (Reg.data 0) (Vector.ofFn fun i => s.recordReg k x ft 0x300 i.val)
    v := keepMasked a.vmask ⟨0, 0⟩ (Vector.ofFn fun i =>
      ⟨BitVec.ofNat 256 (w (0x400 + 32 * i.val) 32), BitVec.ofNat 8 (bits vp (8 * i.val) 8)⟩)
    regionNo := c.regionNo + 1
    kself := x.kself
    asid := x.asid
    vfid := x.vf
    rgnpc := addr48 (w64 (w 0x08 8))
    rgnrec := addr48 (w64 (w 0x10 8))
    splo := w64 (s.sliceVa x.vf x.kself + 0x40000)
    ovfptr := ovfPtr (((mget s.launches x.launch).map (·.desc.ovf)).getD 0) x.kself
    mwgt := BitVec.ofNat 4 (w 0x60 8)
    dseed := w64 (w 0x68 8)
    dkeep := BitVec.ofNat 32 (w 0x70 8)
    arrCfg := w64 (w 0x78 8) &&& arrCfgMask
    classes := s.recordClasses k x }
  let e := d.takeInbox image (if x.act.isSome ∧ bit occ 37 then some (Fin.ofNat 32 (bits occ 0 5)) else none)
  match x.act with
  | some b => e.restart b (s.stackCap x.vf x.kself b.slim)
  | none => e

/-- VALID of a record cleared (R378): the detail and the address of a context-save fault, where the page cannot be written or the
word is poisoned (R376). -/
def State.clearValid (s : State) (k : Nat) (x : Saved) : Option (Nat × Nat) × State :=
  match s.engineTo (.core k) x.vf x.asid x.record [.read, .write] with
  | (.ok p, t) =>
    if (t.mem.mark (p.pa / 8)).isSome then (some (2, x.record), t)
    else
      (none, t.writeMem (areaSeen k p) p.pa (leBytes 8 (recordFlags x.act - 1)) (fun _ => false) false)
  | (.error _, t) => (some (1, x.record), t)

/-- What follows a resumption (R105, R376): the context-save fault, or that of an odd PC, is taken. DESIGN CHOICE (log 84), unsafe: a
record that gives an odd RGNPC raises the alignment fault on the core that resumes it. -/
def State.resumed (s : State) (k : Nat) (x : Saved) (bad : Option (Nat × Nat)) : State :=
  match bad, x.act with
  | some (d, at_), some _ => s.faultAt k 21 d (w64 at_)
  | some (d, at_), none => s.contextFault x.launch k d at_
  | none, some _ => if (s.core k).pc.getLsbD 0 then s.faultAt k 3 0 (s.core k).pc else s
  | none, none => s

/-- Core k and its matrix unit with a context restored (R378); the unit is reset for the activation (R265), and left as it is where the
context has none. -/
def State.restore (s : State) (k : Nat) (x : Saved) : State :=
  let t := (s.acquire k (s.mem.live x.carried)).checkedRecord k x
  let u := t.setCore k { t.restored k x with lineMask := t.linesFor k x.vf }
  match x.act with
  | some a => (u.matOwner k x.asid x.vf).matRegion k a (fun r => t.recordTile k x r.val) fun r => t.recordAcc k x r.val
  | none => u

/-- A context resumed on core k (R378). A context with no running region holds its launch no longer. -/
def State.resume (s : State) (k : Nat) (x : Saved) : State :=
  let r := (s.restore k x).clearValid k x
  let t := (r.2.draw 0x8000).resumed k x r.1
  if x.act.isNone then t.unpin x.launch else t

/-- CONTEXT_RESUME (R378, R413): the die agent resumes the context of the n-th placement on the lowest idle core of the dome
whose extensions match, or returns it. -/
def execContextResume (n : Nat) (s : State) : Out :=
  match s.placements[n]? with
  | some ⟨.ctx x, d⟩ =>
    let t := s.dropPlacement n
    match (domeCores d).find? fun k => isExt k == x.ext && !t.held k && (t.core k).fits x.inbox with
    | some k => if s.exchanging then .next s else .next (t.resume k x)
    | none =>
      let y := (t.dome d).arrived t.rc
      .next (({ t with saved := savedIn x t.saved } : State).setDome d
        { y with noExt := y.noExt || x.ext, noBase := y.noBase || !x.ext })
  | _ => .next s

/-! ## Extension migration (R119, R380) -/

/-- The core j after it takes the context of core k over (R380). -/
def State.migrated (s : State) (k j : Nat) (a : Act) : Core :=
  let c := s.core k
  let x := s.core j
  let d : Core := { x with
    g := keepMasked a.gmask (Reg.data 0) c.g
    f := keepMasked a.fmask (Reg.data 0) c.f
    v := keepMasked a.vmask ⟨0, 0⟩ c.v
    regionNo := x.regionNo + 1
    kself := c.kself
    asid := c.asid
    vfid := c.vfid
    rgnpc := c.rgnpc
    rgnrec := c.rgnrec
    splo := c.splo
    ovfptr := c.ovfptr
    mwgt := c.mwgt
    dseed := c.dseed
    dkeep := c.dkeep
    arrCfg := c.arrCfg
    classes := c.classes
    preempt := c.preempt }
  (d.takeInbox c.inboxImage c.pinned).restart a (s.stackCap c.vfid c.kself a.slim)

/-- The context of core k moves to core j of its dome (R380): core k is busy until the activation ends. -/
def State.migrate (s : State) (k j : Nat) (a : Act) : State :=
  let r := (s.flushAll k).release k
  let t := (r.2.acquire j (r.2.mem.live r.1)).matOwner j (r.2.core k).asid (r.2.core k).vfid
  let c := t.core k
  let m := t.mat k
  let u := t.setCore j (t.migrated k j { a with left := some k })
  let v := u.matRegion j a (fun i => m.tiles[i.val]) fun i => { m.accs[i.val] with mark := none }
  let w := v.setCore k { c with
    act := none
    windows := []
    wait := none
    preempt := false
    pinned := none
    order := []
    slots := c.slots.map fun y => match y with | .holds _ => .free | z => z
    busyFor := some (a.launch, c.kself) }
  { w with mem := { w.mem with watches := w.mem.watches.filter fun x => x.core != k } }

/-- EXTENSION_MIGRATION (R119, R380): core k, which has met an instruction of X64, discards its region and moves its context
to the lowest idle extended core of its dome, or waits for one. -/
def execExtensionMigration (k : Nat) (s : State) : Out :=
  let c := s.core k
  match c.act, c.wait with
  | some a, some .migration =>
    if s.held k || s.accessesHeld k then .next s
    else
      let t := s.stopRegion k
      if t.owesMessage k a || t.enginesBusy k then .next t
      else match (domeCores (domeOf k)).find? fun j => isExt j && !t.held j && (t.core j).fits c.inboxImage with
        | some j => .next (t.migrate k j a)
        | none => .next t
  | _, _ => .next s

end Sys2Proof.Machine
end

