-- ==== Sys2Proof/Machine/Power.lean ====
section
/-! DEFINITION. Clocks, supply, heat and the power budget (R381, R383 to R392, R402). Numbers of reference cycles stand for
times: 1 ms is 1,200,000 of them (R16). -/
namespace Sys2Proof.Machine

/-- Reference cycles in a millisecond (R16, R386). -/
def msRc : Nat := 1200000

/-! ## Regulators (R383 to R385) -/

/-- One pass of a core's regulator loop on slack (R384): supply in steps of 5 mV from 120 to 190, and the slack cap. -/
def Core.trim (c : Core) (slack goal : Int) : Core :=
  if slack < goal then
    if c.supply < 190 then { c with supply := c.supply + 1 } else { c with slackCap := c.slackCap - 1 }
  else if goal < slack ∧ 120 < c.supply then { c with supply := c.supply - 1 }
  else if goal + Config.stepMargin < slack then { c with slackCap := min 24 (c.slackCap + 1) }
  else c

/-- Reference cycles in 10 µs (R16, R383). -/
def loopRc : Nat := 12000

/-- The loop of physical core k (R383, R384): the supply or the slack cap moves one step on the measured slack, and the core's step becomes
the lowest of the three caps; the time at the step before is counted (R393). DEDUCED (log 40), unsafe. -/
def State.regulateCore (s : State) (k : Nat) : State :=
  let c := s.core k
  let d := match mget s.sc.slacks k with
    | some x => c.trim x s.sc.slackTarget
    | none => c
  let step := min d.thermalCap (min s.sc.packageCap d.slackCap)
  (s.setCore k { d with
    step := step
    stepSince := s.rc
    trimmed := some s.rc }).count (.stepTime k c.step) (s.rc - c.stepSince)

/-- The loop of physical core k, once in a reference cycle whose count is a multiple of 12,000 (R383). DEDUCED (log 40), unsafe. -/
def State.regulate1 (s : State) (k : Nat) : State :=
  if s.rc % loopRc = 0 ∧ (s.core k).trimmed ≠ some s.rc then s.regulateCore k else s

/-- The physical cores whose loops have something to do: those that have left reset, that have been measured, or, while the package cap is
lowered, all. -/
def State.regulated (s : State) : List Nat :=
  if s.sc.packageCap < 24 then (List.range 64).flatMap domeCores
  else (s.cores.map Prod.fst ++ s.sc.slacks.map Prod.fst).eraseDups

/-- The loops of the cores (R383). -/
def State.regulate (s : State) : State := if s.rc % loopRc = 0 then s.regulated.foldl State.regulate1 s else s

/-- REGULATOR_UPDATE (R383, R384). -/
def execRegulatorUpdate (k : Nat) (s : State) : Out := .next (s.regulate1 k)

/-- DROOP_PAUSE (R385): the core's next edge is withheld; only time passes, and the pause is counted. -/
def execDroopPause (k : Nat) (s : State) : Out := .next (s.count (.droop k))

/-! ## Balances (R386, R387) -/

/-- The largest number whose 32nd power is at most x, among those of n bits. -/
def root32 (x : Nat) : Nat → Nat → Nat
  | 0, r => r
  | n + 1, r => root32 x n (if (r + 2 ^ n) ^ 32 ≤ x then r + 2 ^ n else r)

/-- The Arrhenius weight 2^((T - 90)/8) of a temperature in quarters of a degree, in units of 1/256, rounded down (R386).
DEDUCED (log 41), safe. -/
def weightFloor (quarters : Int) : Nat :=
  let e := quarters - 360 + 256
  if e < 0 then 0 else root32 (2 ^ e.toNat) (e.toNat / 32 + 1) 0

/-- The weight, rounded in a direction that the spec does not give (R386). -/
def weightOf (quarters : Int) (n : Nat) : Nat :=
  let w := weightFloor quarters
  if 0 ≤ quarters - 104 ∧ w ^ 32 = 2 ^ (quarters - 104).toNat then w else if Config.freeBool n then w else w + 1

/-- The balance of a region, in units of 1/256 ms; 64 after reset (R386). -/
def State.balance (s : State) (r : Nat) : Int := (mget s.sc.balances r).getD 16384

/-- The region is spending: its weight exceeds 1 (R387). -/
def State.spending (s : State) (r : Nat) : Bool := match mget s.sc.sampled r with | some q => decide (360 < q) | none => false

/-- The kinds of thermal region by number (R386): physical cores as KID[12:0], then matrix units, arrays and stacks. -/
inductive Region where
  | core (k : Nat) | matrix (u : Nat) | array (d : Nat) | stack (i : Nat)
deriving DecidableEq, Repr

/-- The region that a number names. -/
def regionOf (n : Nat) : Region :=
  if n < 8192 then .core n else if n < 9216 then .matrix (n - 8192) else if n < 9472 then .array (n - 9216)
  else .stack (n - 9472)

/-- A region's rate falls where its balance is below 8 and it is spending, and recovers at 16 (R387). -/
def slower (now spending : Bool) (b : Int) : Bool := if b < 2048 ∧ spending then true else if 4096 ≤ b then false else now

/-- What a region's balance governs (R387). DEDUCED (log 43), safe. -/
def State.govern (s : State) (n : Nat) : State :=
  let b := s.balance n
  let hot := s.spending n
  match regionOf n with
  | .core k =>
    let c := s.core k
    s.setCore k { c with
      asking := decide (b < 8192) && hot
      thermalCap := if b < 2048 ∧ hot then c.thermalCap - 1 else if 4096 ≤ b then min 24 (c.thermalCap + 1) else c.thermalCap }
  | .matrix u => { s with matUnits := mput s.matUnits u { s.matUnit u with throttled := slower (s.matUnit u).throttled hot b } }
  | .array d => s.setDome d { s.dome d with throttled := slower (s.dome d).throttled hot b }
  | .stack i => s.setStack i { s.stack i with blocked := slower (s.stack i).blocked hot b }

/-- One region sampled (R386). -/
def State.sample (s : State) (x : Nat × Int) : State :=
  let b := min 16384 (s.balance x.1 + 256 - weightOf x.2 s.fresh)
  let low := match mget s.sc.minima x.1 with | some m => min m b | none => b
  let t := s.draw
  State.govern { t with sc := { t.sc with
    sampled := mput t.sc.sampled x.1 x.2
    balances := mput t.sc.balances x.1 b
    minima := mput t.sc.minima x.1 low } } x.1

/-- The temperature of the hottest core region of a dome at the latest sample, if any is known. -/
def State.hottest (s : State) (d : Nat) : Option Int := ((domeCores d).filterMap (mget s.sc.sampled)).max?

/-- Thermal migration is suspended once every dome is hot, and resumes when some dome is below 97 degrees (R390). -/
def State.suspendMigration (s : State) : State :=
  let hot (d : Nat) : Bool := match s.hottest d with | some q => decide (400 ≤ q) | none => false
  let cool (d : Nat) : Bool := match s.hottest d with | some q => decide (q < 388) | none => true
  let ds := List.range 64
  let v := if ds.all hot then true else if ds.any cool then false else s.sc.suspended
  { s with sc := { s.sc with suspended := v } }

/-- Every sensor is read, once in a reference cycle whose count is a multiple of 1,200,000 (R386, R387, R390). -/
def State.sampleAll (s : State) : State :=
  if s.rc % msRc = 0 ∧ s.sc.sampledAt ≠ some s.rc then
    (s.sc.temps.foldl State.sample { s with sc := { s.sc with sampledAt := some s.rc } }).suspendMigration
  else s

/-- THERMAL_SAMPLE (R386, R387, R390). -/
def execThermalSample (s : State) : Out := .next s.sampleAll

/-! ## Thermal migration (R381, R388 to R390) -/

/-- The physical core of a logical core (R381). -/
def State.physOf (s : State) (k : Nat) : Nat := (mget (s.dome (domeOf k)).phys k).getD k

/-- A time lies at least n milliseconds back, or is not set. -/
def State.since (s : State) (t : Option Nat) (n : Nat) : Bool :=
  match t with | some x => decide (x + n * msRc ≤ s.rc) | none => true

/-- A core is not being saved or moved (R388); one whose pre-emption has yet to be taken is not. -/
def Core.settled (c : Core) : Bool := c.wait != some .saving && c.wait != some .migration

/-- Logical core b may become the partner of a (R388). -/
def State.partner (s : State) (a : Nat) (ta : Int) (b : Nat) : Bool :=
  b != a && isExt b == isExt a && (s.core b).isIdle && (s.core b).settled &&
    (match mget s.sc.sampled (s.physOf b) with | some tb => decide (tb + 24 ≤ ta) | none => false) &&
    s.since (s.core (s.physOf b)).vacated 5 && s.since (s.core b).exchanged 2

/-- The coolest of the partners, the lowest number of equals (R388). -/
def State.choosePartner (s : State) (a : Nat) (ta : Int) : Option Nat :=
  let t (k : Nat) : Int := (mget s.sc.sampled (s.physOf k)).getD 0
  ((domeCores (domeOf a)).filter (s.partner a ta)).foldl (fun best k => match best with
    | none => some k
    | some b => if t k < t b then some k else some b) none

/-- Steps 1 and 2 of an exchange of logical cores a and b (R381): what reaches them is held, a stops, and its buffer and data cache
are written back. DEDUCED (log 42), unsafe. -/
def State.beginExchange (s : State) (a b : Nat) : State :=
  let t := (s.drain a).flushAll a
  t.setDome (domeOf a) { t.dome (domeOf a) with exchange := some (a, b) }

/-- The ephemerides of core k that wait for broadcast slots resolve where these have met them in the meantime (R389). -/
def State.catchUp (s : State) (k : Nat) : State := s.setCore k (s.bcasts.foldl (fun c b => c.receive b.1 b.2) (s.core k))

/-- Steps 3 and 4 (R381): the table entries change places, and what was held goes on; what the cores hold is named by their logical
numbers, and stays. DEDUCED (log 42), unsafe. -/
def State.endExchange (s : State) (a b : Nat) : State :=
  let pa := s.physOf a
  let d := s.dome (domeOf a)
  let u := s.setDome (domeOf a) { d with phys := mput (mput d.phys a (s.physOf b)) b pa, exchange := none }
  let v := u.setCore pa { u.core pa with vacated := some u.rc }
  let w := v.setCore a { v.core a with exchanged := some v.rc }
  let x := w.setCore b { w.core b with exchanged := some w.rc }
  (((x.count (.exchanges a)).count (.exchanges b)).catchUp a).catchUp b

/-- THERMAL_EXCHANGE (R381, R388 to R390): an exchange of the dome that runs comes to its end; else the dome's controller serves
the next request, in ascending logical core number, and one without a partner lapses until the next sample. A core whose accesses another
exchange holds cannot drain yet, and its own waits (log 42). -/
def execThermalExchange (d : Nat) (s : State) : Out :=
  match (s.dome d).exchange with
  | some (a, b) => .next (s.endExchange a b)
  | none =>
    if s.sc.suspended then .next s
    else
      match (domeCores d).find? fun k => (s.core (s.physOf k)).asking with
      | none => .next s
      | some a =>
        let p := s.physOf a
        let t := s.setCore p { s.core p with asking := false }
        let ta := (mget t.sc.sampled p).getD 0
        let able := (t.core a).settled && t.since (t.core a).exchanged 2
        match (if able then t.choosePartner a ta else none) with
        | some b => if s.accessesHeld a then .next s else .next (t.beginExchange a b)
        | none => .next (t.count (.lapsed a))

/-! ## The rack budget (R391, R392, R402) -/

/-- The budget in force (R391, R402). -/
def Station.inForce (x : Station) : Nat := if x.inletOver then min x.budget 1800 else x.budget

/-- A power token that has arrived at a reference cycle (R391): one that is newer, or the first, is accepted.
DEDUCED (log 50), unsafe. -/
def State.token (s : State) (body arrived : Nat) : State :=
  let seq := BitVec.ofNat 32 (bits body 0 32)
  let watts := bits body 32 16
  let age := (seq - s.sc.lastSeq).toNat
  if bits body 48 80 ≠ 0 then s.count .tokensIgnored
  else if !s.sc.anyToken || (decide (0 < age) && decide (age < 2 ^ 31)) then
    let t : State := { s with sc := { s.sc with
      anyToken := true
      lastSeq := seq
      budget := max 900 (min 3000 watts)
      expiry := arrived + 500 * msRc } }
    (t.count .tokens).count .tokensClamped (if watts < 900 ∨ 3000 < watts then 1 else 0)
  else s.count .tokensIgnored

/-- No token has been accepted by the expiry of the last one: the budget is 1,800 W again (R391). -/
def State.expireToken (s : State) : State :=
  if s.sc.expiry ≠ 0 ∧ s.sc.expiry ≤ s.rc then
    State.count { s with sc := { s.sc with
      budget := 1800
      expiry := 0 } } .tokensExpired
  else s

/-- POWER_LEASE_EXPIRY (R391). -/
def execPowerLeaseExpiry (s : State) : Out := .next s.expireToken

/-- Reference cycles in 100 µs (R16, R392). -/
def checkRc : Nat := 120000

/-- The estimate against the budget in force moves the package cap, once in every 100 µs (R392). DEDUCED (log 43), safe: the
comparisons fall on the multiples of 100 µs. -/
def State.checkPower (s : State) : State :=
  if s.rc % checkRc = 0 ∧ s.sc.checkedAt ≠ some s.rc then
    let x := s.sc
    let above := decide (x.inForce < x.power)
    let cap := if above then x.packageCap - 1 else if x.power * 100 < x.inForce * 95 then min 24 (x.packageCap + 1) else x.packageCap
    { s with sc := { x with
      packageCap := cap
      halfArrays := above && x.packageCap == 0
      checkedAt := some s.rc } }
  else s

/-- PACKAGE_POWER_CHECK (R392). -/
def execPackagePowerCheck (s : State) : Out := .next s.checkPower

/-- INLET_OVERTEMP (R402): the inlet has exceeded 45 degrees. -/
def execInletOvertemp (s : State) : Out :=
  if 180 < s.sc.inlet ∧ !s.sc.inletOver then
    .next (State.note { s with sc := { s.sc with inletOver := true } } 0xF000 .inlet [])
  else .next s

/-- INLET_TEMPERATURE_RECOVERY (R402): the inlet has stayed below 42 degrees for 1 s. -/
def execInletTemperatureRecovery (s : State) : Out :=
  if s.sc.inletOver ∧ s.sc.inlet < 168 ∧ s.sc.inletSince + 1000 * msRc ≤ s.rc then
    .next { s with sc := { s.sc with inletOver := false } }
  else .next s

end Sys2Proof.Machine
end

