-- ==== Sys2Proof/Machine/Station.lean ====
section
/-! DEFINITION. The Station Controller: KCP, bring-up, firmware, attestation, service, UET and memory errors (R212, R216, R333,
R394 to R405, R427, R428). -/
namespace Sys2Proof.Machine

/-! ## KCP requests (R395 to R398) -/

/-- What a request comes to: status, body, the offsets of poisoned words, log entries. -/
structure Answer where
  status : Nat
  body : List Byte := []
  poisoned : List Nat := []
  entries : List LogEntry := []
deriving DecidableEq, Repr

/-- The 32 bytes of a log entry (R401): TIME, SRC, CODE, reserved, DATA. The numbers of the events are free values (log 51). -/
def LogEntry.bytes (e : LogEntry) : List Byte :=
  leBytes 8 e.time ++ leBytes 2 e.src ++ leBytes 2 (Config.eventCode e.code.ctorIdx).toNat ++ leBytes 4 0 ++
    leBytes 16 e.data.toNat

/-- The OP of a body (R397). -/
def KcpBody.op : KcpBody → Nat
  | .launchAt .. | .launchBody _ => 0x01
  | .copy .. => 0x02
  | .read .. => 0x03
  | .write .. => 0x04
  | .cancel .. => 0x05
  | .close .. => 0x06
  | .grant .. => 0x07
  | .listen .. => 0x08
  | .shoot .. => 0x09
  | .count _ => 0x0A
  | .attest _ => 0x0B
  | .open _ => 0x0C
  | .part _ => 0x40
  | .token _ => 0x41
  | .fwupd .. => 0x42
  | .svc .. => 0x43
  | .log .. => 0x44
  | .keys _ => 0x45
  | .other n => n

/-- The operations of R397. -/
def kcpOps : List Nat := List.range' 1 12 ++ List.range' 0x40 6

/-- The LEN that the spec gives a body, where it gives one (R391, R396, R397, R399, R403, R404). -/
def KcpBody.len : KcpBody → Option Nat
  | .launchAt .. | .open _ | .token _ => some 16
  | .launchBody _ => some 128
  | .attest _ => some 32
  | .fwupd _ _ image => some (8 + image.length)
  | .keys _ => some 40
  | .copy .. | .read .. | .write .. | .cancel .. | .close .. | .grant .. | .listen .. | .shoot .. | .count _ | .part _ | .svc ..
  | .log .. | .other _ => none

/-- The form of a request is good (R397): RPLY, STAT and the reserved bytes are 0, LEN is in its range and matches the OP, and the
body is of the OP. DESIGN CHOICE (log 46), unsafe. -/
def KcpReq.wellFormed (q : KcpReq) : Bool :=
  let h := q.header
  !h.rply && h.stat == 0 && h.reserved == 0 && decide (h.len.toNat ≤ 1048640) && h.op.toNat == q.body.op &&
    (match q.body.len with | some n => h.len.toNat == n | none => true)

/-- A KEYS request's ACTION (R396). -/
def keyAction (body : BitVec 320) : Nat := bits body.toNat 0 8

/-- The management endpoint accepts the request's signature (R395, R396): that of an enrolled key, or, while no key is
enrolled, none on a request that adds a key. -/
def State.signatureOk (s : State) (q : KcpReq) : Bool :=
  match q.signer with
  | some k => s.sc.keys.contains k
  | none => s.sc.keys.isEmpty && (match q.body with | .keys b => keyAction b == 0 | _ => false)

/-- The status that the endpoint gives a request before its operation, 0 for none (R397, R400, R403): busy where the controller was so
at its arrival or is in SAFE, then the endpoint and the signature, then the form. -/
def State.refuses (s : State) (ep : Nat) (q : KcpReq) (vf mgmt inSafe : Bool) : Nat :=
  if q.busy || (s.sc.boot == .safe && !(inSafe && ep == 1024)) then 3
  else if ep < 1024 then (if vf then (if q.wellFormed then 0 else 4) else 2)
  else if !mgmt || !s.signatureOk q then 2
  else if q.wellFormed then 0 else 4

/-- The header of a reply (R397): RPLY is 1, OP and TAG are the request's, LEN is the length of the reply's body. -/
def KcpHeader.reply (h : KcpHeader) (stat n : Nat) : KcpHeader where
  rply := true
  op := h.op
  stat := BitVec.ofNat 16 stat
  tag := h.tag
  len := BitVec.ofNat 32 n
  reserved := 0

/-- A reply formed (R397). -/
def State.reply (s : State) (ep : Nat) (q : KcpReq) (a : Answer) : State :=
  { s with replies := s.replies ++ [⟨ep, q.header.reply a.status a.body.length, a.body, a.poisoned, a.entries⟩] }

/-- A request that arrived before a restart waits for its end (R403). DEDUCED (log 86), safe. -/
def State.paused (s : State) (q : KcpReq) : Bool :=
  !q.busy && (s.sc.boot == .booting || s.sc.boot == .restarting || s.sc.boot == .restartingSafe)

/-- The oldest request of an endpoint is taken up if it is of the operation that the step names (R398): where it is refused it has
no effect but its reply; without an answer yet it stays the oldest, and its performance goes on. DEDUCED (log 45), unsafe. -/
def State.begin {α : Type} (s : State) (ep : Nat) (pick : KcpBody → Option α) (vf mgmt inSafe : Bool)
    (run : α → KcpReq → State → Option Answer × State) : Out :=
  match mget s.kcp ep with
  | some (q :: rest) =>
    match pick q.body with
    | none => .next s
    | some x =>
      let t : State := { s with kcp := mput s.kcp ep rest }
      if s.paused q then .next s
      else
        match t.refuses ep q vf mgmt inSafe with
        | 0 =>
          match run x q t with
          | (some a, u) => .next (u.reply ep q a)
          | (none, u) => .next { u with kcp := s.kcp }
        | code => .next (t.reply ep q ⟨code, [], [], []⟩)
  | some [] | none => .next s

/-- The oldest request of an endpoint is performed in one step (R398). -/
def State.serve {α : Type} (s : State) (ep : Nat) (pick : KcpBody → Option α) (vf mgmt inSafe : Bool)
    (run : α → KcpReq → State → Answer × State) : Out :=
  s.begin ep pick vf mgmt inSafe fun x q t => ((run x q t).1, (run x q t).2)

/-- A live job of a virtual function (R395). -/
def State.jobIn (s : State) (vf j : Nat) : Option Job := (mget s.jobs j).filter fun x => x.vf == vf

/-- The answer of an operation with a 64-bit result (R397). -/
def wordAnswer (w : Word) : Answer := ⟨0, leBytes 8 w.toNat, [], []⟩

/-- An answer with a status alone. -/
def statusOnly (n : Nat) : Answer := ⟨n, [], [], []⟩

/-! ## Launch, cancel, close, open, listen (R23, R26, R40, R59, R156, R327, R399) -/

/-- KCP_LAUNCH (R397): a descriptor in job memory, or in the body. DESIGN CHOICE (log 98), unsafe: an address that is not 64-byte
aligned is malformed. DEDUCED (log 59), unsafe: KCP does not take the Orrery's one request of a reference cycle. -/
def execKcpLaunch (ep : Nat) (s : State) : Out :=
  let pick : KcpBody → Option (KcpBody) := fun b => match b with | .launchAt .. | .launchBody _ => some b | _ => none
  s.begin ep pick true false false fun b _ t =>
    match b with
    | .launchBody d =>
      let q : Issuer := ⟨none, ep, 0, none, none, none, 0⟩
      let u := t.pcChecked q (some (d.toNat, 0))
      let r := u.launchResult (u.issueLaunch q (some (d.toNat, 0)) [])
      (some (wordAnswer r.1), r.2)
    | .launchAt addr job reserved =>
      if reserved ∨ 2 ^ 48 ≤ addr ∨ addr % 64 ≠ 0 ∨ 1024 ≤ job then (some (statusOnly 4), t)
      else
        match t.jobIn ep job with
        | none => (some (wordAnswer (refusal 7)), t)
        | some j =>
          if t.heldFor .orrery ep j.asid addr 128 [.read] then (none, t)
          else
            let d := t.readDesc ep j.asid addr
            let q : Issuer := ⟨some job, ep, j.asid, none, none, none, 0⟩
            let u := d.2.pcChecked q d.1
            let r := u.launchResult (u.issueLaunch q d.1 [])
            (some (wordAnswer r.1), r.2)
    | _ => (some (statusOnly 1), t)

/-- The virtual function of an instance's job, if it is live. -/
def State.instanceVf (s : State) (lv : Level) (i : Nat) : Option Nat :=
  ((s.instanceJob lv i).bind (mget s.jobs)).map (·.vf)

/-- KCP_CANCEL (R59, R156, R397). DEDUCED (log 59), unsafe. -/
def execKcpCancel (ep : Nat) (s : State) : Out :=
  s.serve ep (fun b => match b with | .cancel lv i => some (lv, i) | _ => none) true false false fun x _ t =>
    match t.instanceVf x.1 x.2.toNat with
    | none => (wordAnswer (refusal 2), t)
    | some v => if v = ep then (wordAnswer 0, t.cancelLevel x.1 x.2.toNat) else (wordAnswer (refusal 1), t)

/-- KCP_CLOSE (R23): a phase or a job is sealed. -/
def execKcpClose (ep : Nat) (s : State) : Out :=
  s.serve ep (fun b => match b with | .close p i => some (p, i) | _ => none) true false false fun x _ t =>
    if t.instanceVf (if x.1 then .phase else .job) x.2 = some ep then
      let u : State := if x.1 then
          { t with phases := mmod t.phases x.2 fun p => { p with counts := { p.counts with closed := true } } }
        else { t with jobs := mmod t.jobs x.2 fun j => { j with counts := { j.counts with closed := true } } }
      (statusOnly 0, u.settle)
    else (statusOnly 6, t)

/-- An OPEN body breaks R399's layout. -/
def openBad (b : Nat) : Bool :=
  bits b 1 15 != 0 || bits b 26 6 != 0 || bits b 40 8 != 0 || bits b 64 64 != 0 ||
    (if bit b 0 then bits b 48 16 != 0 else bits b 32 8 != 0)

/-- The address of an ASID's entry in a virtual function's context table (R204). -/
def State.asidAt (s : State) (vf asid : Nat) : Nat := (s.vf vf).ctx + 16 * asid

/-- An ASID has a valid entry in a virtual function's context table (R204). -/
def State.asidValid (s : State) (vf asid : Nat) : Bool :=
  bit (s.mem.viewNat .station (s.asidAt vf asid) 8) 0 && (s.mem.viewMark .station (s.asidAt vf asid / 8)).isNone

/-- KCP_OPEN (R399): a job or a phase becomes live. -/
def execKcpOpen (ep : Nat) (s : State) : Out :=
  s.serve ep (fun b => match b with | .open x => some x.toNat | _ => none) true false false fun b _ t =>
    let job := bits b 16 10
    let phase := bits b 32 8
    let asid := bits b 48 16
    if openBad b then (statusOnly 4, t)
    else if bit b 0 then
      match t.jobIn ep job with
      | some j =>
        if (mget t.phases phase).isSome || j.counts.closed || j.counts.isFull then (statusOnly 6, t)
        else
          (statusOnly 0, { t with
            phases := mput t.phases phase ⟨Counts.new false 0, job⟩
            jobs := mmod t.jobs job fun x => { x with counts := x.counts.join } })
      | none => (statusOnly 6, t)
    else
      let u := t.checked (t.asidAt ep asid) 8
      if (mget u.jobs job).isSome || !u.asidValid ep asid then (statusOnly 6, u)
      else (statusOnly 0, { u with jobs := mput u.jobs job ⟨Counts.new false 0, ep, asid, none⟩ })

/-- KCP_LISTEN (R24, R327): the listener launch for a package is named, or the naming withdrawn. -/
def execKcpListen (ep : Nat) (s : State) : Out :=
  s.serve ep (fun b => match b with | .listen c p l => some (c, p, l) | _ => none) true false false fun x _ t =>
    let v := t.vf ep
    if x.1 then (statusOnly 0, (t.setVf ep { v with listen := mdel v.listen x.2.1 }).settle)
    else
      match mget t.launches x.2.2 with
      | some l =>
        if l.vf = ep then (statusOnly 0, (t.setVf ep { v with listen := mput v.listen x.2.1 x.2.2 }).settle)
        else (statusOnly 5, t)
      | none => (statusOnly 6, t)

/-! ## Memory over KCP (R93, R94, R210, R247, R249, R397) -/

/-- A span translated page by page for an agent, or none. -/
def State.pages (v : Viewer) (vf asid : Nat) (rights : List Access) : Nat → Nat → Nat → State → Option (List Extent) × State
  | 0, _, n, s => (if n = 0 then some [] else none, s)
  | fuel + 1, va, n, s =>
    if n = 0 then (some [], s)
    else
      match s.engineTo v vf asid va rights with
      | (.error _, t) => (none, t)
      | (.ok p, t) =>
        let m := min n (65536 - va % 65536)
        match State.pages v vf asid rights fuel (va + m) (n - m) t with
        | (some l, u) => (some (⟨va, p.pa, m, p.sc⟩ :: l), u)
        | r => r

/-- The pages of a span of n bytes. -/
def State.spanPages (s : State) (v : Viewer) (vf asid : Nat) (rights : List Access) (va n : Nat) : Option (List Extent) × State :=
  State.pages v vf asid rights (n / 65536 + 2) va n s

/-- Some of the pages lie in a slice whose accesses are held (R389). -/
def State.pagesHeld (s : State) (l : List Extent) : Bool := l.any fun e => s.heldSpan e.pa e.size

/-- Where an address of a span stands in its pages: its physical address and its page's scope. -/
def placeIn (l : List Extent) (va : Nat) : Option (Nat × Nat) :=
  (l.find? fun e => decide (e.va ≤ va) && decide (va < e.va + e.size)).map fun e => (e.pa + (va - e.va), e.sc)

/-- Bytes written plainly over pages, as poison or not. -/
def State.pagesWrite (v : Viewer) (pois : Bool) : List Extent → List Byte → State → State
  | [], _, s => s
  | e :: rest, bs, s =>
    State.pagesWrite v pois rest (bs.drop e.size) (s.writeMem { writer := v } e.pa (bs.take e.size) (fun _ => pois) false)

/-- The codes of the words of pages are checked (R212). -/
def State.pagesChecked (s : State) (l : List Extent) : State := l.foldl (fun t e => t.checked e.pa e.size) s

/-- The bytes of pages. -/
def State.pagesRead (s : State) (v : Viewer) (l : List Extent) : List Byte := l.flatMap fun e => s.mem.viewBytes v e.pa e.size

/-- The bytes of pages with those of poisoned words zero, and the offsets of these words from the start of the span. -/
def State.pagesClean (s : State) (v : Viewer) (l : List Extent) : List Byte × List Nat :=
  l.foldl (fun acc e =>
    let bad (w : Nat) : Bool := (s.mem.viewMark v w).isSome
    let bs := (span e.pa e.size).map fun a => if bad (a / 8) then 0 else s.mem.view v a
    (acc.1 ++ bs, acc.2 ++ ((wordsOf e.pa e.size).filter bad).map fun w => acc.1.length + (8 * w - e.pa))) ([], [])

/-- A word of the pages is poisoned. -/
def State.pagesPoisoned (s : State) (v : Viewer) (l : List Extent) : Bool := l.any fun e => (s.mem.poisonIn v e.pa e.size).isSome

/-- KCP_READ (R397). -/
def execKcpRead (ep : Nat) (s : State) : Out :=
  s.begin ep (fun b => match b with | .read j a n => some (j, a, n) | _ => none) true false false fun x _ t =>
    if x.2.2 = 0 ∨ 2 ^ 20 < x.2.2 then (some (statusOnly 4), t)
    else
      match t.jobIn ep x.1 with
      | none => (some (statusOnly 5), t)
      | some j =>
        match t.spanPages .station ep j.asid [.read] x.2.1 x.2.2 with
        | (some l, u) =>
          if u.pagesHeld l then (none, t)
          else
            let w := u.pagesChecked l
            let r := w.pagesClean .station l
            (some ⟨0, r.1, r.2, []⟩, w)
        | (none, u) => (some (statusOnly 5), u)

/-- The agents of the scope of a page that KCP writes (R398). DESIGN CHOICE (log 79), unsafe: KCP belongs to no core, dome or die,
so that every agent of the package counts for a page of a narrower scope. -/
def kcpScope (sc : Nat) : Audience := if sc = 4 then [] else [.package]

/-- The writes of a request are performed as seen by every agent of the scopes of their pages (R398). -/
def KcpRun.shown (x : KcpRun) (m : Memory) : Memory := x.ids.foldl (fun n i => n.showAfter [i.1] i.2) m

/-- The request that an endpoint performs is over: its reply is formed (R398). -/
def State.endRun (s : State) (ep status : Nat) : State :=
  match mget s.kcp ep with
  | some (q :: rest) => State.reply { s with kcp := mput s.kcp ep rest, kcpRuns := mdel s.kcpRuns ep } ep q (statusOnly status)
  | some [] | none => { s with kcpRuns := mdel s.kcpRuns ep }

/-- KCP_WRITE (R93, R397, R398): the bytes are written; then, once they are performed as seen by every agent of their pages' scopes,
the reply is formed. DESIGN CHOICE (log 98), unsafe: a WRITE of no bytes is malformed. -/
def execKcpWrite (ep : Nat) (s : State) : Out :=
  match mget s.kcpRuns ep with
  | some x => if x.channel.isNone then .next (State.endRun { s with mem := x.shown s.mem } ep 0) else .next s
  | none =>
    s.begin ep (fun b => match b with | .write j a d => some (j, a, d) | _ => none) true false false fun x _ t =>
      if x.2.2.isEmpty ∨ 2 ^ 20 < x.2.2.length then (statusOnly 4, t)
      else
        match t.jobIn ep x.1 with
        | none => (statusOnly 5, t)
        | some j =>
          match t.spanPages .station ep j.asid [.write] x.2.1 x.2.2.length with
          | (some l, u) =>
            if u.pagesHeld l then (none, t)
            else
              let n := x.2.2.length
              let run : KcpRun := ⟨none, 0, x.2.1, n, [], l, ⟨0, 0, 0, 0⟩, 0, n, true,
                l.zipIdx.map fun e => (u.mem.nextId + e.2, kcpScope e.1.sc)⟩
              let w := State.pagesWrite .station false l x.2.2 u
              (none, { w with kcpRuns := mput w.kcpRuns ep run })
          | (none, u) => (statusOnly 5, u)

/-- The bytes of a linear copy from `src` on of n bytes: those whose destination lies in the source are unspecified (R247). -/
def copiedBytes (fresh src n dst : Nat) (bs : List Byte) : List Byte :=
  bs.zipIdx.map fun b =>
    if src ≤ dst + b.2 ∧ dst + b.2 < src + n then (Config.freeWord (fresh + b.2)).truncate 8 else b.1

/-- The next beat of a KCP copy channel (R247): at most 64 bytes, within one line of each side; how many bytes it has written, their
page's scope and the state after, or none where a slice holds it up (R389). DESIGN CHOICE (log 78), unsafe: poisoned words are copied
as the stored mark. -/
def State.kcpBeat (s : State) (c : Nat) (x : KcpRun) : Option (Nat × Nat × State) :=
  let v := Viewer.kcpChannel c
  let sva := x.src + x.done
  let dva := x.dst + x.done
  let n := min (x.len - x.done) (min (64 - sva % 64) (64 - dva % 64))
  match placeIn x.sources sva, placeIn x.dests dva with
  | some p, some d =>
    if s.heldSpan p.1 n || s.heldSpan d.1 n then none
    else
      let t := s.checked p.1 n
      let marks := (wordsOf p.1 n).map fun w => (t.mem.viewMark v w).isSome
      let run := cleanPrefix p.1 n marks
      let m := min n (if run = 0 then cleanPrefix p.1 n (marks.map (!·)) else run)
      let bs := copiedBytes t.fresh x.src x.len dva (t.mem.viewBytes v p.1 m)
      some (m, d.2, (t.draw m).writeMem { writer := v } d.1 bs (fun _ => run == 0) false)
  | _, _ => none

/-- The flag write of a KCP copy channel (R249): a release, covering what the request has written. -/
def State.kcpFlag (s : State) (c : Nat) (x : KcpRun) : State :=
  s.writeMem { writer := .kcpChannel c, inScope := kcpScope x.flag.sc, after := x.ids.map Prod.fst } x.flag.pa (leBytes 2 x.val)
    (fun _ => false) false

/-- The next step of a COPY (R247, R249, R398): a beat, then the flag, then, once all is performed as seen by every agent of the
pages' scopes, the reply. Where a slice is held it waits (R389). -/
def State.kcpCopyStep (s : State) (ep c : Nat) (x : KcpRun) : State :=
  let note (t : State) (y : KcpRun) (sc : Nat) : State :=
    { t with kcpRuns := mput t.kcpRuns ep { y with ids := y.ids ++ [(t.mem.nextId - 1, kcpScope sc)] } }
  if x.done < x.len then
    match s.kcpBeat c x with
    | some (n, sc, t) => note t { x with done := x.done + n } sc
    | none => s
  else if !x.flagged then
    if s.heldSpan x.flag.pa 2 then s else note (s.kcpFlag c x) { x with flagged := true } x.flag.sc
  else State.endRun { s with mem := x.shown s.mem } ep 0

/-- The KCP copy channel that takes a COPY (R10): there are twelve. DESIGN CHOICE (log 90), unsafe: the free one of the lowest
number. -/
def State.freeKcpChannel (s : State) : Option Nat :=
  lowest (fun c => !s.kcpRuns.any fun r => r.2.channel == some c) 12

/-- A COPY taken up by a channel (R397): pages that fail refuse it with status 5, before it has any effect. DESIGN CHOICE (log 90),
unsafe: while all twelve are busy it waits as its endpoint's oldest request. -/
def State.startKcpCopy (s : State) (ep : Nat) (j : Job) (src dst n flag val : Nat) : Option Answer × State :=
  match s.freeKcpChannel with
  | none => (none, s)
  | some c =>
    let v := Viewer.kcpChannel c
    match s.spanPages v ep j.asid [.read] src n with
    | (none, t) => (statusOnly 5, t)
    | (some a, t) =>
      match t.spanPages v ep j.asid [.write] dst n with
      | (none, u) => (statusOnly 5, u)
      | (some b, u) =>
        match u.engineTo v ep j.asid flag [.write] with
        | (.error _, w) => (statusOnly 5, w)
        | (.ok p, w) =>
          (none, { w with kcpRuns := mput w.kcpRuns ep ⟨some c, src, dst, n, a, b, ⟨flag, p.pa, 2, p.sc⟩, val, 0, false, []⟩ })

/-- KCP_COPY (R10, R247, R249, R397, R398): a KCP copy channel takes the request up, and performs it step by step. DESIGN CHOICE
(log 46), unsafe: a copy of no bytes or of more than 2^36, and one with an odd flag address, is malformed. -/
def execKcpCopy (ep : Nat) (s : State) : Out :=
  match mget s.kcpRuns ep with
  | some x => match x.channel with | some c => .next (s.kcpCopyStep ep c x) | none => .next s
  | none =>
    s.begin ep (fun b => match b with | .copy j a d n f v => some (j, a, d, n, f, v) | _ => none) true false false
      fun (job, src, dst, n, flag, val) _ t =>
      if n = 0 ∨ 2 ^ 36 < n ∨ flag % 2 ≠ 0 then (statusOnly 4, t)
      else
        match t.jobIn ep job with
        | none => (statusOnly 5, t)
        | some j => t.startKcpCopy ep j src dst n flag val

/-- An address is mapped in an address space; the codes of the tables that say so are checked (R212). -/
def State.mapped (s : State) (vf asid : Nat) (a : Int) : Bool × State :=
  if a < 0 then (false, s)
  else
    let t := s.checkedWalk .station vf asid a.toNat
    (match (t.walkTo .station vf asid a.toNat []).1 with | .ok _ => true | .error _ => false, t)

/-- n pages of 64 KiB from one on are mapped. -/
def State.allMapped (vf asid : Nat) : Nat → Int → State → Bool × State
  | 0, _, s => (true, s)
  | n + 1, a, s =>
    match s.mapped vf asid a with
    | (true, t) => State.allMapped vf asid n (a + 65536) t
    | (false, t) => (false, t)

/-- The bounds of a capability lie inside an address space (R94): every page that they touch is mapped in it.
DEDUCED (log 47), unsafe. -/
def State.boundsInside (s : State) (vf asid : Nat) (info value : Word) : Bool × State :=
  let lo := capBase info value
  let hi := capTop info value
  if hi ≤ lo then s.mapped vf asid lo
  else State.allMapped vf asid ((hi - 1) / 65536 - lo / 65536 + 1).toNat (lo / 65536 * 65536) s

/-- KCP_GRANT (R94): a tagged capability is written into the job's memory. -/
def execKcpGrant (ep : Nat) (s : State) : Out :=
  s.begin ep (fun b => match b with | .grant j a v i => some (j, a, v, i) | _ => none) true false false
    fun (job, addr, value, info) _ t =>
    if addr % 16 ≠ 0 then (some (statusOnly 4), t)
    else if malformed info value then (some (statusOnly 5), t)
    else
      match t.jobIn ep job with
      | none => (some (statusOnly 5), t)
      | some j =>
        match t.boundsInside ep j.asid info value with
        | (false, u) => (some (statusOnly 5), u)
        | (true, u) =>
          match u.engineTo .station ep j.asid addr [.write] with
          | (.error _, v) => (some (statusOnly 5), v)
          | (.ok p, v) =>
            if v.heldAt p.pa then (none, t)
            else
              (some (statusOnly 0), v.writeMem { writer := .station } p.pa (leBytes 8 value.toNat ++ leBytes 8 info.toNat)
                (fun _ => false) true)

/-- A TLB entry translates an address under an ASID. -/
def TlbEntry.hits (e : TlbEntry) (asid va : Nat) : Bool := e.asid == asid && decide (e.va ≤ va) && decide (va < e.va + e.size)

/-- A TLB without the entries of an ASID that translate an address. -/
def Core.shoot (c : Core) (asid va : Nat) : Core := { c with tlb := c.tlb.filter fun e => !e.hits asid va }

/-- KCP_SHOOT (R210): every TLB drops the page under the ASID. -/
def execKcpShoot (ep : Nat) (s : State) : Out :=
  s.serve ep (fun b => match b with | .shoot a v => some (a, v) | _ => none) true false false fun x _ t =>
    (statusOnly 0, { t with
      cores := t.cores.map fun c => (c.1, c.2.shoot x.1 x.2)
      tlbs := t.tlbs.filter fun y => !y.2.hits x.1 x.2 })

/-! ## Counters, log, attestation (R401, R404) -/

/-- What COUNT reads (R393, R401): the lowest balance of a region, the time that a core has spent at a step, its present one
included, or a count of events. -/
def State.reading (s : State) (c : Counter) : Word :=
  match c with
  | .minimum r => BitVec.ofInt 64 ((mget s.sc.minima r).getD 16384)
  | .stepTime k n => w64 (min (2 ^ 64 - 1) (s.counter c + if (s.core k).step = n then s.rc - (s.core k).stepSince else 0))
  | _ => w64 (s.counter c)

/-- KCP_COUNT (R393, R401). -/
def execKcpCount (ep : Nat) (s : State) : Out :=
  s.serve ep (fun b => match b with | .count c => some c | _ => none) true true true fun c _ t => (wordAnswer (t.reading c), t)

/-- How many log entries the body of a reply holds: 1,048,640 bytes of 32 each (R397, R401). -/
def logMost : Nat := 32770

/-- KCP_LOG (R401): entries of the ring, oldest first. DESIGN CHOICE (log 97), unsafe: no more of them than a reply holds. -/
def execKcpLog (ep : Nat) (s : State) : Out :=
  s.serve ep (fun b => match b with | .log i n => some (i, n) | _ => none) false true true fun x _ t =>
    let l := (t.sc.log.drop x.1).take (min x.2 logMost)
    (⟨0, l.flatMap LogEntry.bytes, [], l⟩, t)

/-- The active firmware slot (R403). -/
def Station.active (x : Station) : FwSlot := if x.activeB then x.slotB else x.slotA

/-- The report of R404 before its signature. -/
def State.attestation (s : State) (nonce : List Byte) : List Byte :=
  leBytes 32 Config.identityKey.toNat ++ nonce ++ leBytes 8 s.time ++ leBytes 4 s.sc.slotA.version.toNat ++
    leBytes 4 s.sc.slotB.version.toNat ++ leBytes 4 (if s.sc.activeB then 1 else 0) ++ leBytes 4 s.sc.fused.toNat ++
    leBytes 64 (Config.sha512 s.sc.active.image).toNat ++
    leBytes 64 (Config.sha512 (Config.partitionImage
      (s.vfs.map fun v => (v.1, v.2.domes, [v.2.weight, v.2.ctx, v.2.swb])))).toNat

/-- KCP_ATTEST (R404). -/
def execKcpAttest (ep : Nat) (s : State) : Out :=
  s.serve ep (fun b => match b with | .attest n => some n | _ => none) true true true fun nonce _ t =>
    if nonce.length = 32 then
      let r := t.attestation nonce
      (⟨0, r ++ leBytes 64 (Config.identitySignature r).toNat, [], []⟩, t)
    else (statusOnly 4, t)

/-! ## Partitions (R44, R55 to R58, R204, R334, R349, R397, R427, R428) -/

/-- A core asked to be pre-empted where it runs or holds messages (R56). -/
def Core.ask (c : Core) : Core := if c.act.isSome || !c.waiting.isEmpty then { c with preempt := true } else c

/-- A dome leaves its partition (R56): it is retiring, what no core has selected goes back, and its cores are asked to be
pre-empted if the resize says so. -/
def State.retire (s : State) (d vf : Nat) (service preempt : Bool) : State :=
  let v := s.vf vf
  let t := (s.setVf vf { v with domes := v.domes.filter (· != d) }).recall d
  let u := t.setDome d { t.dome d with mode := .retiring vf service none }
  if preempt then { u with cores := u.cores.map fun c => (c.1, if domeOf c.1 = d then c.2.ask else c.2) } else u

/-- A group names something out of its fields' widths, or has a member twice or one that no core mask names (R334). -/
def Group.bad : Group → Bool
  | .multicast vf route members =>
    decide (1024 ≤ vf) || decide (64 ≤ route) || members.any (!isCore ·) || decide (members.eraseDups.length < members.length)
  | .reduction vf route cs root rclass rpri op fmt nw l =>
    decide (1024 ≤ vf) || decide (64 ≤ route) || decide (64 < cs.length) || cs.any (fun k => decide (8192 ≤ k)) ||
      decide (8192 ≤ root) || decide (64 ≤ rclass) || decide (4 ≤ rpri) || decide (5 < op) || decide (2 < fmt) || nw == 0 ||
      decide (5 < nw) || decide (4096 ≤ l)

/-- A PART names something out of its range (R397). DEDUCED (log 49), unsafe. -/
def PartOp.bad : PartOp → Bool
  | .assign vf d => decide (1024 ≤ vf) || decide (64 ≤ d)
  | .remove d _ => decide (64 ≤ d)
  | .weight vf w => decide (1024 ≤ vf) || w == 0 || decide (255 < w)
  | .context vf b => decide (1024 ≤ vf) || b % 2 ^ 14 != 0
  | .swb vf b => decide (1024 ≤ vf) || b % 2 ^ 31 != 0 || decide (2 ^ 48 ≤ b)
  | .remote vf _ => decide (1024 ≤ vf)
  | .channel c vf n => decide (1024 ≤ vf) || decide (272 ≤ c) || n == 0 || decide ((if c < 256 then 1536 else 6144) < n)
  | .slot c vf => decide (1024 ≤ vf) || decide (68 ≤ c)
  | .line die n vf => decide (1024 ≤ vf) || decide (4 ≤ die) || decide (8 ≤ n)
  | .group n g => decide (1024 ≤ n) || g.bad
  | .route d c _ => decide (64 ≤ d) || decide (64 ≤ c)
  | .stitch vf _ => decide (1024 ≤ vf)
  | .package n => decide (32767 < n)

/-- The virtual function that a dome serves. -/
def DomeMode.vf : DomeMode → Option Nat
  | .owned v | .retiring v _ _ => some v
  | .unassigned | .testing | .disabled => none

/-- What PART sets (R397); none where the device's state does not allow it. DESIGN CHOICE (log 72), unsafe: one re-stitching
(R58) waits at a time for the whole package, and one of another partition is refused until it has taken effect. -/
def State.part (s : State) : PartOp → Option State
  | .assign vf d =>
    match (s.dome d).mode with
    | .unassigned => some (s.give vf d)
    | .retiring old false none => some (s.setDome d { s.dome d with mode := .retiring old false (some vf) })
    | .owned _ | .retiring _ _ _ | .testing | .disabled => none
  | .remove d p =>
    match (s.dome d).mode with
    | .owned vf => some (s.retire d vf false p)
    | .unassigned | .retiring _ _ _ | .testing | .disabled => none
  | .weight vf w => some (s.setVf vf { s.vf vf with weight := w })
  | .context vf b => some (s.setVf vf { s.vf vf with ctx := b })
  | .swb vf b => some (s.setVf vf { s.vf vf with swb := b })
  | .remote vf on => some (s.setVf vf { s.vf vf with remote := on })
  | .channel c vf n => some { s with barriers := mput s.barriers c { s.barrier c with vf := some vf, parties := n } }
  | .slot c vf => some { s with bcasts := mput s.bcasts c { s.bcast c with vf := some vf } }
  | .line die n vf => some { s with lines := mput s.lines (8 * die + n) vf }
  | .group n g => some { s with groups := mput s.groups n g }
  | .route d c r =>
    match (s.dome d).mode.vf with
    | none => some (s.loadRoutes [(d, c, r)])
    | some v =>
      match s.stitch with
      | none => if s.quiet v then some (s.loadRoutes [(d, c, r)]) else some { s with stitch := some ⟨v, none, [(d, c, r)]⟩ }
      | some x => if x.vf = v then some { s with stitch := some { x with loads := x.loads ++ [(d, c, r)] } } else none
  | .stitch vf t =>
    match s.stitch with
    | none => some { s with stitch := some ⟨vf, some t, []⟩ }
    | some x => if x.vf = vf then some { s with stitch := some { x with topology := some t } } else none
  | .package n => some { s with sc := { s.sc with package := some n } }

/-- KCP_PART (R397). -/
def execKcpPart (ep : Nat) (s : State) : Out :=
  s.serve ep (fun b => match b with | .part op => some op | _ => none) false true false fun op _ t =>
    if op.bad then (statusOnly 4, t)
    else
      match t.part op with
      | some u => (statusOnly 0, u)
      | none => (statusOnly 6, t)

/-- KCP_TOKEN (R391): a token with a nonzero reserved byte is ignored and counted. -/
def execKcpToken (ep : Nat) (s : State) : Out :=
  s.serve ep (fun b => match b with | .token x => some x.toNat | _ => none) false true false fun b q t =>
    (statusOnly (if bits b 48 80 ≠ 0 then 4 else 0), t.token b q.arrived)

/-! ## Firmware (R400, R403) -/

/-- A slot passes step 1 of R400. -/
def FwSlot.boots (x : FwSlot) (fused : BitVec 32) : Bool :=
  x.valid && decide (fused.toNat ≤ x.version.toNat) && Config.imageBoots x.image

/-- An image written to the inactive slot, which becomes active if its signature and version are good (R403). -/
def State.install (s : State) (image : List Byte) : Answer × State :=
  let v := Config.imageVersion image
  let good := Config.imageSigned image && decide (s.sc.fused.toNat ≤ v.toNat)
  let slot : FwSlot := if good then ⟨v, image, true, false⟩ else ⟨0, [], false, false⟩
  let x := if s.sc.activeB then { s.sc with slotA := slot } else { s.sc with slotB := slot }
  if good then
    (statusOnly 0, { s with sc := { x with
      activeB := !x.activeB
      boot := if x.boot = .safe then .restartingSafe else .restarting } })
  else (statusOnly 4, { s with sc := x })

/-- KCP_FWUPD_IMAGE (R403). -/
def execKcpFwupdImage (ep : Nat) (s : State) : Out :=
  let pick : KcpBody → Option (Bool × List Byte) := fun b => match b with | .fwupd false r i => some (r, i) | _ => none
  s.serve ep pick false true true fun x _ t => if x.1 then (statusOnly 4, t) else t.install x.2

/-- KCP_FWUPD_COMMIT (R403): the version counter rises to that of the active slot. -/
def execKcpFwupdCommit (ep : Nat) (s : State) : Out :=
  let pick : KcpBody → Option (Bool × List Byte) := fun b => match b with | .fwupd true r i => some (r, i) | _ => none
  s.serve ep pick false true true fun x _ t =>
    if x.1 || !x.2.isEmpty then (statusOnly 4, t)
    else if !t.sc.active.ready || decide (255 ≤ t.sc.rows) then (statusOnly 6, t)
    else if t.sc.fused.toNat < t.sc.active.version.toNat then
      (statusOnly 0, { t with sc := { t.sc with
        fused := t.sc.active.version
        rows := t.sc.rows + 1 } })
    else (statusOnly 0, t)

/-- The active slot has brought the device to READY (R403). -/
def Station.markReady (x : Station) : Station :=
  if x.activeB then { x with slotB := { x.slotB with ready := true } } else { x with slotA := { x.slotA with ready := true } }

/-- The time that the cores have spent at their present steps, counted (R393). -/
def State.countSteps (s : State) : State :=
  s.cores.foldl (fun t c => t.count (.stepTime c.1 c.2.step) (s.rc - c.2.stepSince)) s

/-- The device in SAFE (R400): cores, engines and near units are in reset, and the step that failed is logged.
DEDUCED (log 53), unsafe. -/
def State.enterSafe (s : State) (step : Nat) : State :=
  State.note { State.reset with
    cores := s.cores.map fun c => (c.1, { Core.reset c.1 with stepSince := s.rc })
    mem := s.mem
    kcp := s.kcp
    replies := s.replies
    sc := { s.countSteps.sc with boot := .safe }
    rc := s.rc
    cur := s.cur
    agenda := s.agenda
    fresh := s.fresh } 0xF000 .safe [step]

/-- The other slot becomes active: it has not brought the device to READY since (R403). -/
def Station.swapSlots (x : Station) : Station :=
  if x.activeB then { x with activeB := false, slotA := { x.slotA with ready := false } }
  else { x with activeB := true, slotB := { x.slotB with ready := false } }

/-- Step 1 of R400: whether the Station Controller boots, from its active slot or else from the other one. The failure of a slot is
logged (R403). -/
def State.bootSlot (s : State) : Bool × State :=
  if s.sc.active.boots s.sc.fused then (true, s)
  else
    let t : State := State.note { s with sc := s.sc.swapSlots } 0xF000 .firmware [if s.sc.activeB then 1 else 0]
    (t.sc.active.boots t.sc.fused, t)

/-- STATION_CONTROLLER_RESTART (R403): the restart after a firmware update ends; SAFE is left by no restart (R400). -/
def execStationControllerRestart (s : State) : Out :=
  match s.sc.boot with
  | .restarting =>
    match s.bootSlot with
    | (true, t) => .next (State.note { t with sc := { t.sc.markReady with boot := .ready } } 0xF000 .restart [])
    | (false, t) => .next (t.enterSafe 1)
  | .restartingSafe =>
    match s.bootSlot with
    | (true, t) => .next (State.note { t with sc := { t.sc with boot := .safe } } 0xF000 .restart [])
    | (false, t) => .next (t.enterSafe 1)
  | .booting | .ready | .safe => .next s

/-- A dome that fails its test is disabled and logged (R400). -/
def State.disable (s : State) (d : Nat) : State :=
  (s.setDome d { s.dome d with mode := .disabled }).note (0x3000 + d) .domeFailed [d]

/-- BRING_UP (R400): the tests after power-on. `failed` is the first of steps 2 to 4 that fails, less 2, if one does. -/
def execBringUp (failed : Option (Fin 3)) (badDomes : List Nat) (s : State) : Out :=
  if s.sc.boot = .booting then
    match s.bootSlot with
    | (true, t) =>
      match failed with
      | none =>
        let u := (badDomes.filter fun d => decide (d < 64)).foldl State.disable t
        .next { u with sc := { u.sc.markReady with boot := .ready } }
      | some n => .next (t.enterSafe (n.val + 2))
    | (false, t) => .next (t.enterSafe 1)
  else .next s

/-- POWER_LOSS: everything returns to reset but what survives it: keys, firmware slots, fuses and the package number (R396,
R403, R427). DEDUCED (log 44), unsafe. -/
def execPowerLoss (s : State) : Out :=
  let x := s.sc
  .next { State.reset with
    cur := s.cur
    agenda := s.agenda
    fresh := s.fresh
    sc := { Station.reset with
      keys := x.keys
      slotA := x.slotA
      slotB := x.slotB
      activeB := x.activeB
      fused := x.fused
      rows := x.rows
      package := x.package } }

/-! ## Operator keys (R396) -/

/-- The key of a KEYS body. -/
def keyOf (b : BitVec 320) : BitVec 256 := BitVec.ofNat 256 (b.toNat / 2 ^ 64)

/-- A key change logged with the first 16 bytes of the key (R396). -/
def State.noteKey (s : State) (k : BitVec 256) : State := s.note 0xF000 .keyChange [k.toNat % 2 ^ 128]

/-- KCP_KEYS_ADD (R396); a KEYS request of unknown ACTION is malformed. -/
def execKcpKeysAdd (ep : Nat) (s : State) : Out :=
  let pick : KcpBody → Option (BitVec 320) := fun b =>
    match b with | .keys x => if keyAction x = 1 then none else some x | _ => none
  s.serve ep pick false true false fun b _ t =>
    if keyAction b ≠ 0 ∨ bits b.toNat 8 56 ≠ 0 then (statusOnly 4, t)
    else if t.sc.keys.contains (keyOf b) || decide (8 ≤ t.sc.keys.length) then (statusOnly 6, t)
    else (statusOnly 0, State.noteKey { t with sc := { t.sc with keys := t.sc.keys ++ [keyOf b] } } (keyOf b))

/-- KCP_KEYS_REVOKE (R396). DEDUCED (log 48), unsafe. -/
def execKcpKeysRevoke (ep : Nat) (s : State) : Out :=
  let pick : KcpBody → Option (BitVec 320) := fun b =>
    match b with | .keys x => if keyAction x = 1 then some x else none | _ => none
  s.serve ep pick false true false fun b q t =>
    if bits b.toNat 8 56 ≠ 0 then (statusOnly 4, t)
    else if !t.sc.keys.contains (keyOf b) || decide (t.sc.keys.length ≤ 1) then (statusOnly 6, t)
    else if q.signer = some (keyOf b) then (statusOnly 2, t)
    else (statusOnly 0, State.noteKey { t with sc := { t.sc with keys := t.sc.keys.filter (· != keyOf b) } } (keyOf b))

/-- The OP of the oldest request of an endpoint, 0 for none. -/
def State.oldestOp (s : State) (ep : Nat) : Nat := (((mget s.kcp ep).bind List.head?).map fun q => q.body.op).getD 0

/-- KCP_UNKNOWN_OP (R397); a body that is not of the form of its OP is malformed, unless the endpoint is not that of the OP (R395):
COUNT and ATTEST are of both. -/
def execKcpUnknownOp (ep : Nat) (s : State) : Out :=
  let op := s.oldestOp ep
  s.serve ep (fun b => match b with | .other n => some n | _ => none) (!(List.range' 0x40 6).contains op)
    (!(0x0C :: List.range' 1 9).contains op) false fun n _ t => (statusOnly (if kcpOps.contains n then 4 else 1), t)

/-! ## Service (R405) -/

/-- A stack's recalibration begins: its homes take no near task and end their leases (R75, R405). -/
def State.recalibrate (s : State) (i : Nat) : State :=
  let t := s.setStack i { s.stack i with recal := true }
  { t.note (0x2000 + i) .recal [] with
    homes := t.homes.map fun h => (h.1, if stackOfHome h.1 = i then h.2.endLease else h.2) }

/-- KCP_SVC (R405): a stack is recalibrated; a dome leaves its partition with pre-emption, and is tested, or is given back.
DEDUCED (log 52), unsafe. -/
def execKcpSvc (ep : Nat) (s : State) : Out :=
  s.serve ep (fun b => match b with | .svc k i back => some (k, i, back) | _ => none) false true false
    fun (stack, i, back) _ t =>
    if stack then
      if 16 ≤ i then (statusOnly 4, t) else if back then (statusOnly 0, t) else (statusOnly 0, t.recalibrate i)
    else if 64 ≤ i then (statusOnly 4, t)
    else
      match (t.dome i).mode, back with
      | .unassigned, true => (statusOnly 0, t)
      | .unassigned, false => (statusOnly 0, t.setDome i { t.dome i with mode := .testing })
      | .owned vf, false => (statusOnly 0, t.retire i vf true true)
      | .owned _, true | .retiring _ _ _, _ | .testing, _ | .disabled, _ => (statusOnly 6, t)

/-- STACK_RECALIBRATION_COMPLETE (R405): the stack's homes take near tasks again. -/
def execStackRecalibrationComplete (i : Nat) (s : State) : Out :=
  if (s.stack i).recal then .next (s.setStack i { s.stack i with recal := false }) else .next s

/-- DOME_SELF_TEST_COMPLETE (R405): a dome that passes may be added to a partition; one that fails stays disabled. -/
def execDomeSelfTestComplete (d : Nat) (pass : Bool) (s : State) : Out :=
  if (s.dome d).mode = .testing then
    if pass then .next (s.setDome d { s.dome d with mode := .unassigned }) else .next (s.disable d)
  else .next s

/-! ## UET (R246, R338, R394, R427) -/

/-- A message from another package (R338): it joins the traffic if the package has a number and the destination belongs to a
virtual function enabled for remote access; else it is dropped and counted. -/
def State.crossMessage (s : State) (pkg vf : Nat) (m : Msg) : State :=
  if s.sc.package.isSome && (s.vf vf).remote && s.inPartition vf m.dest then
    s.post ⟨{ m with xpkg := true, launch := pkg }, .cross, false, [], vf, none⟩
  else s.count .crossDropped

/-- A remote access of another package (R246): pages of scope SYSTEM that grant it. -/
def State.remotePages (s : State) (source vf asid : Nat) (rights : List Access) (va n : Nat) : Option (List Extent) × State :=
  if s.sc.package.isNone || !(s.vf vf).remote then (none, s)
  else
    match s.spanPages (.uet source) vf asid rights va n with
    | (some l, t) => (if l.all (·.sc == 4) then some l else none, t)
    | (none, t) => (none, t)

/-- A message of a package from one core to one destination, of one CLASS and PRI: it arrives in order (R338). -/
def UetPacket.sameFlow (pkg : Nat) (m : Msg) : UetPacket → Bool
  | .message q _ x => q == pkg && x.src == m.src && x.dest == m.dest && x.cls == m.cls && x.pri == m.pri
  | .read .. | .write .. | .unsupported => false

/-- UET_REMOTE_MEMORY_ACCESS (R246): the n-th packet reads or writes this package's memory, and is answered: its bytes, or a
refusal. -/
def execUetRemoteMemoryAccess (n : Nat) (s : State) : Out :=
  match s.uet[n]? with
  | some p =>
    let t : State := { s with uet := dropAt s.uet n }
    let answer (u : State) (r : Option (List Byte)) : Out := .next { u with uetOut := u.uetOut ++ [r] }
    match p with
    | .read source vf asid va len =>
      match t.remotePages source vf asid [.read] va len with
      | (some l, u0) =>
        let u := u0.pagesChecked l
        if u0.pagesHeld l then .next s
        else if u.pagesPoisoned (.uet source) l then answer u none
        else answer u (some (u.pagesRead (.uet source) l))
      | (none, u) => answer u none
    | .write source vf asid va data pois =>
      match t.remotePages source vf asid [.write] va data.length with
      | (some l, u) => if u.pagesHeld l then .next s else answer (State.pagesWrite (.uet source) pois l data u) (some [])
      | (none, u) => answer u none
    | .message pkg vf m =>
      if (s.uet.take n).any (UetPacket.sameFlow pkg m) then .next s else .next (t.crossMessage pkg vf m)
    | .unsupported => .next s
  | none => .next s

/-- UNSUPPORTED_UET_PACKET (R394): the n-th packet is dropped and counted. -/
def execUnsupportedUetPacket (n : Nat) (s : State) : Out :=
  match s.uet[n]? with
  | some .unsupported => .next (State.count { s with uet := dropAt s.uet n } .badPacket)
  | some (.read ..) | some (.write ..) | some (.message ..) | none => .next s

/-! ## Errors of memory (R212, R216, R217, R333) -/

/-- The address lies in DRAM or in a scratchpad slice (R199). -/
def isMemory (pa : Nat) : Bool := isDram pa || isReserved pa || (sliceOf pa).isSome

/-- The tag of payload word n becomes 11. -/
def Msg.poisonWord (m : Msg) (n : Nat) : Msg := { m with ptag := m.ptag ||| BitVec.ofNat 12 (3 * 4 ^ n) }

/-- What a dropped message added to its launch, or was to start, counts CANCELLED. DESIGN CHOICE (log 80), unsafe. -/
def State.lost (s : State) (p : Packet) : State :=
  match p.kind with
  | .start _ => s.endMember p.msg.launch .cancelled
  | .task x => s.retireTask x .cancelled []
  | .spawn _ _ _ | .send | .root _ | .completion | .fault | .notify | .cross =>
    if p.member then s.endMember p.msg.launch .cancelled else s

/-- A message on its way with an uncorrectable word is dropped and counted (R333). DESIGN CHOICE (log 80), unsafe: its inbox slot is
free, and the status of a SPAWN resolves, as every one does (R61), to a value that the spec does not state. -/
def State.linkError (s : State) (n : Nat) : State :=
  match s.flights[n]? with
  | none => s
  | some f =>
    let p := f.packet
    let t := (s.dropFlight n).count .linkDropped
    let free (k i : Nat) (u : State) : State := u.setCore k { u.core k with slots := (u.core k).slots.set (Fin.ofNat 32 i).val .free }
    let resolve (k i : Nat) (st : Option SymRef) : State := (free k i t.draw).status k st (boolWord (Config.freeBool s.fresh))
    let u := match p.kind, f.travel with
      | .spawn st _ _, .placed i => resolve p.msg.dest i st
      | .spawn st i _, .link | .spawn st i _, .parked _ => resolve p.msg.src i st
      | _, .placed i => free p.msg.dest i t
      | _, .link | _, .parked _ => t
    u.lost p

/-- A message that SEND has sent to another package, with an uncorrectable word, is dropped and counted (R333). -/
def State.sentError (s : State) (n : Nat) : State :=
  if n < s.sent.length then State.count { s with sent := dropAt s.sent n } .linkDropped else s

/-- A word of a message that waits in a slot of core k becomes uncorrectable (R333): a payload word takes tag 11; with a word of its
header the message is dropped and counted. -/
def State.slotError (s : State) (k : Nat) (i : Fin 32) (x : Packet) (w : Nat) : State :=
  let c := s.core k
  if w < 6 then s.setCore k { c with slots := c.slots.set i.val (.holds { x with msg := x.msg.poisonWord w }) }
  else if w < 8 ∧ c.pinned ≠ some i then ((s.setCore k (c.freeSlot i)).count .linkDropped).lost x
  else s

/-- The n-th multicast with an uncorrectable word on a link to some domes is dropped there and counted (R333): the members that it has
not reached count CANCELLED. DESIGN CHOICE (log 80), unsafe. -/
def State.branchError (s : State) (n : Nat) (domes : List Nat) : State :=
  match s.multis[n]? with
  | none => s
  | some x =>
    let gone := x.left.filter fun k => domes.contains (domeOf k)
    let rest := (x.copies.map fun c => { c with left := c.left.filter fun k => !domes.contains (domeOf k) }).filter (!·.left.isEmpty)
    if gone.isEmpty then s
    else
      gone.foldl (fun u _ => u.endMember x.packet.msg.launch .cancelled) ((s.setCopies n x rest).count .linkDropped)

/-- The m-th packet on its way of the n-th round is dropped and counted (R333): its contributors stay missing. -/
def State.partError (s : State) (n m : Nat) : State :=
  match s.rounds[n]? with
  | some r => if m < r.parts.length then (s.setRound n { r with parts := dropAt r.parts m }).count .linkDropped else s
  | none => s

/-- What a node holds of the n-th round is dropped and counted (R333). -/
def State.heldError (s : State) (n node : Nat) : State :=
  match s.rounds[n]? with
  | some r => if (mget r.held node).isSome then (s.setRound n { r with held := mdel r.held node }).count .linkDropped else s
  | none => s

/-- WORD_BECOMES_UNCORRECTABLE (R212, R217, R333): a word of memory takes the hardware mark, a payload word that waits in
an inbox takes tag 11, and a message with such a word on a link or in a buffer, or in its header, is dropped. -/
def execWordBecomesUncorrectable (p : WordPlace) (s : State) : Out :=
  match p with
  | .memory pa =>
    if isMemory pa then .next (s.markWord (pa / 8)) else .next s
  | .flight n => .next (s.linkError n)
  | .sent n => .next (s.sentError n)
  | .branch n domes => .next (s.branchError n domes)
  | .part n m => .next (s.partError n m)
  | .held n node => .next (s.heldError n node)
  | .inbox k i w =>
    match (s.core k).slots[Fin.ofNat 32 i] with
    | .holds x => .next (s.slotError k (Fin.ofNat 32 i) x w)
    | .free | .reserved | .landing => .next s

/-- PATROL_SCRUB (R216): word w is read and its code checked: one flipped bit is corrected and counted, more leave the word with the
hardware mark. -/
def execPatrolScrub (w : Nat) (s : State) : Out := if isMemory (8 * w) then .next (s.checkWord w) else .next s

end Sys2Proof.Machine
end

