-- ==== Sys2Proof/Machine/Dispatch.lean ====
section
/-! DEFINITION. The meaning of every instruction: one arm for each constructor of Instr, each one direct call. -/
namespace Sys2Proof.Machine

/-- The effect of one instruction, or of one step of a unit, on the machine. -/
def exec (i : Instr) (s : State) : Host.Outcome State Fault Refusal :=
  match i with
  -- Register-register integer instructions (R124, R125); w = true is the .s32 form.
  | .add w d a b => Sys2Proof.Machine.execAdd w d a b s
  | .sub w d a b => Sys2Proof.Machine.execSub w d a b s
  | .and w d a b => Sys2Proof.Machine.execAnd w d a b s
  | .or w d a b => Sys2Proof.Machine.execOr w d a b s
  | .xor w d a b => Sys2Proof.Machine.execXor w d a b s
  | .andn w d a b => Sys2Proof.Machine.execAndn w d a b s
  | .sll w d a b => Sys2Proof.Machine.execSll w d a b s
  | .srl w d a b => Sys2Proof.Machine.execSrl w d a b s
  | .sra w d a b => Sys2Proof.Machine.execSra w d a b s
  | .rot w d a b => Sys2Proof.Machine.execRot w d a b s
  | .min w d a b => Sys2Proof.Machine.execMin w d a b s
  | .max w d a b => Sys2Proof.Machine.execMax w d a b s
  | .minz w d a b => Sys2Proof.Machine.execMinz w d a b s
  | .maxz w d a b => Sys2Proof.Machine.execMaxz w d a b s
  | .slt w d a b => Sys2Proof.Machine.execSlt w d a b s
  | .sltz w d a b => Sys2Proof.Machine.execSltz w d a b s
  | .sel d a b => Sys2Proof.Machine.execSel d a b s
  | .clz w d a => Sys2Proof.Machine.execClz w d a s
  | .ctz w d a => Sys2Proof.Machine.execCtz w d a s
  | .popc w d a => Sys2Proof.Machine.execPopc w d a s
  | .bswap w d a => Sys2Proof.Machine.execBswap w d a s
  | .mov d a => Sys2Proof.Machine.execMov d a s
  | .movm d n => Sys2Proof.Machine.execMovm d n s
  -- Multiply and divide (R126); l is the lookahead count.
  | .mul w l d a b => Sys2Proof.Machine.execMul w l d a b s
  | .mulh l d a b => Sys2Proof.Machine.execMulh l d a b s
  | .mulhz l d a b => Sys2Proof.Machine.execMulhz l d a b s
  | .div w l d a b => Sys2Proof.Machine.execDiv w l d a b s
  | .divz w l d a b => Sys2Proof.Machine.execDivz w l d a b s
  | .rem w l d a b => Sys2Proof.Machine.execRem w l d a b s
  | .remz w l d a b => Sys2Proof.Machine.execRemz w l d a b s
  -- Immediates, shifts and bit fields (R127); len1 is the length minus 1.
  | .addi d a imm => Sys2Proof.Machine.execAddi d a imm s
  | .addiw d a imm => Sys2Proof.Machine.execAddiw d a imm s
  | .andi d a imm => Sys2Proof.Machine.execAndi d a imm s
  | .ori d a imm => Sys2Proof.Machine.execOri d a imm s
  | .xori d a imm => Sys2Proof.Machine.execXori d a imm s
  | .slti d a imm => Sys2Proof.Machine.execSlti d a imm s
  | .lih d a imm => Sys2Proof.Machine.execLih d a imm s
  | .slli w d a k => Sys2Proof.Machine.execSlli w d a k s
  | .srli w d a k => Sys2Proof.Machine.execSrli w d a k s
  | .srai w d a k => Sys2Proof.Machine.execSrai w d a k s
  | .extS64 d a pos len1 => Sys2Proof.Machine.execExtS64 d a pos len1 s
  | .extZ64 d a pos len1 => Sys2Proof.Machine.execExtZ64 d a pos len1 s
  | .ins d a pos len1 => Sys2Proof.Machine.execIns d a pos len1 s
  -- Capability instructions (R128 to R132).
  | .cbnd d a b => Sys2Proof.Machine.execCbnd d a b s
  | .cprm d a b => Sys2Proof.Machine.execCprm d a b s
  | .cget d a sel => Sys2Proof.Machine.execCget d a sel s
  | .ctag d a => Sys2Proof.Machine.execCtag d a s
  | .cstrip d a => Sys2Proof.Machine.execCstrip d a s
  -- Ephemeris instructions (R133 to R136).
  | .ewait r => Sys2Proof.Machine.execEwait r s
  | .estat d => Sys2Proof.Machine.execEstat d s
  | .edrop r => Sys2Proof.Machine.execEdrop r s
  -- Branches, jumps and regions (R137, R138, R142).
  | .beq a b off => Sys2Proof.Machine.execBeq a b off s
  | .bne a b off => Sys2Proof.Machine.execBne a b off s
  | .blt a b off => Sys2Proof.Machine.execBlt a b off s
  | .bge a b off => Sys2Proof.Machine.execBge a b off s
  | .blo a b off => Sys2Proof.Machine.execBlo a b off s
  | .bhs a b off => Sys2Proof.Machine.execBhs a b off s
  | .btag a mask off => Sys2Proof.Machine.execBtag a mask off s
  | .j off => Sys2Proof.Machine.execJ off s
  | .jal off => Sys2Proof.Machine.execJal off s
  | .jalr d a imm => Sys2Proof.Machine.execJalr d a imm s
  | .rgn off => Sys2Proof.Machine.execRgn off s
  -- System instructions (R146 to R151) and system registers (R150).
  | .nop => Sys2Proof.Machine.execNop s
  | .hend => Sys2Proof.Machine.execHend s
  | .trap code => Sys2Proof.Machine.execTrap code s
  | .brk code => Sys2Proof.Machine.execBrk code s
  | .tlbi a => Sys2Proof.Machine.execTlbi a s
  | .icinv a b => Sys2Proof.Machine.execIcinv a b s
  | .dcwb a b => Sys2Proof.Machine.execDcwb a b s
  | .dcinv a b => Sys2Proof.Machine.execDcinv a b s
  | .srr d r => Sys2Proof.Machine.execSrr d r s
  | .srw r a => Sys2Proof.Machine.execSrw r a s
  | .srx d r a => Sys2Proof.Machine.execSrx d r a s
  -- Creating and governing work (R152 to R158).
  | .spawn d a b n => Sys2Proof.Machine.execSpawn d a b n s
  | .launch d a => Sys2Proof.Machine.execLaunch d a s
  | .cancel d a lv => Sys2Proof.Machine.execCancel d a lv s
  | .garm d a b => Sys2Proof.Machine.execGarm d a b s
  | .grel d a => Sys2Proof.Machine.execGrel d a s
  -- Scalar floating point, .f32 (R180 to R188).
  | .fadd r l d a b => Sys2Proof.Machine.execFadd r l d a b s
  | .fsub r l d a b => Sys2Proof.Machine.execFsub r l d a b s
  | .fmul r l d a b => Sys2Proof.Machine.execFmul r l d a b s
  | .fdiv r l d a b => Sys2Proof.Machine.execFdiv r l d a b s
  | .fsqrt r l d a => Sys2Proof.Machine.execFsqrt r l d a s
  | .fmin l d a b => Sys2Proof.Machine.execFmin l d a b s
  | .fmax l d a b => Sys2Proof.Machine.execFmax l d a b s
  | .fcmp l d a b => Sys2Proof.Machine.execFcmp l d a b s
  | .fcls l d a => Sys2Proof.Machine.execFcls l d a s
  | .fmvg l d a => Sys2Proof.Machine.execFmvg l d a s
  | .fmvf l d a => Sys2Proof.Machine.execFmvf l d a s
  -- Scalar floating point, .f64 (X64).
  | .faddF64 r l d a b => Sys2Proof.Machine.execFaddF64 r l d a b s
  | .fsubF64 r l d a b => Sys2Proof.Machine.execFsubF64 r l d a b s
  | .fmulF64 r l d a b => Sys2Proof.Machine.execFmulF64 r l d a b s
  | .fdivF64 r l d a b => Sys2Proof.Machine.execFdivF64 r l d a b s
  | .fsqrtF64 r l d a => Sys2Proof.Machine.execFsqrtF64 r l d a s
  | .fminF64 l d a b => Sys2Proof.Machine.execFminF64 l d a b s
  | .fmaxF64 l d a b => Sys2Proof.Machine.execFmaxF64 l d a b s
  | .fcmpF64 l d a b => Sys2Proof.Machine.execFcmpF64 l d a b s
  | .fclsF64 l d a => Sys2Proof.Machine.execFclsF64 l d a s
  | .fmvgF64 l d a => Sys2Proof.Machine.execFmvgF64 l d a s
  | .fmvfF64 l d a => Sys2Proof.Machine.execFmvfF64 l d a s
  -- Fused multiply-add (R187), constants (R188) and conversion (R166, R167; register fields raw).
  | .ffma r l d a b c => Sys2Proof.Machine.execFfma r l d a b c s
  | .ffmaF64 r l d a b c => Sys2Proof.Machine.execFfmaF64 r l d a b c s
  | .fliF32 d imm => Sys2Proof.Machine.execFliF32 d imm s
  | .fliF64 d imm => Sys2Proof.Machine.execFliF64 d imm s
  | .fcvt src dst r l d a => Sys2Proof.Machine.execFcvt src dst r l d a s
  -- Anchored tasks (R76 to R82); n1 is the count minus 1.
  | .anq d a b => Sys2Proof.Machine.execAnq d a b s
  | .anqb d a b n1 => Sys2Proof.Machine.execAnqb d a b n1 s
  | .aqcf d a b => Sys2Proof.Machine.execAqcf d a b s
  | .nlease d a b => Sys2Proof.Machine.execNlease d a b s
  | .nfree d a b => Sys2Proof.Machine.execNfree d a b s
  | .tret => Sys2Proof.Machine.execTret s
  -- The vector unit (R189 to R197) and vector conversions (R168 to R172).
  | .vadd t l d a b => Sys2Proof.Machine.execVadd t l d a b s
  | .vsub t l d a b => Sys2Proof.Machine.execVsub t l d a b s
  | .vmul t l d a b => Sys2Proof.Machine.execVmul t l d a b s
  | .vfma t l d a b => Sys2Proof.Machine.execVfma t l d a b s
  | .vmin t l d a b => Sys2Proof.Machine.execVmin t l d a b s
  | .vmax t l d a b => Sys2Proof.Machine.execVmax t l d a b s
  | .vabs t l d a => Sys2Proof.Machine.execVabs t l d a s
  | .vneg t l d a => Sys2Proof.Machine.execVneg t l d a s
  | .vand l d a b => Sys2Proof.Machine.execVand l d a b s
  | .vor l d a b => Sys2Proof.Machine.execVor l d a b s
  | .vxor l d a b => Sys2Proof.Machine.execVxor l d a b s
  | .vsel t l d a b => Sys2Proof.Machine.execVsel t l d a b s
  | .vshl t l d a b => Sys2Proof.Machine.execVshl t l d a b s
  | .vshr t l d a b => Sys2Proof.Machine.execVshr t l d a b s
  | .vcmp t l d a b => Sys2Proof.Machine.execVcmp t l d a b s
  | .vdiv t l d a b => Sys2Proof.Machine.execVdiv t l d a b s
  | .vred t l d a op => Sys2Proof.Machine.execVred t l d a op s
  | .vbc t l d a => Sys2Proof.Machine.execVbc t l d a s
  | .vshf t l d a b => Sys2Proof.Machine.execVshf t l d a b s
  | .vmov l d a => Sys2Proof.Machine.execVmov l d a s
  | .vget t l d a b => Sys2Proof.Machine.execVget t l d a b s
  | .vset t l d a b => Sys2Proof.Machine.execVset t l d a b s
  | .vpack t l d a b => Sys2Proof.Machine.execVpack t l d a b s
  | .ldv l d a b => Sys2Proof.Machine.execLdv l d a b s
  | .vcvt t src r l d a => Sys2Proof.Machine.execVcvt t src r l d a s
  | .vqnt t l d a b => Sys2Proof.Machine.execVqnt t l d a b s
  | .vdqnt t l d a b => Sys2Proof.Machine.execVdqnt t l d a b s
  -- Loads and stores (R222 to R231); a raw register field is f for .f32 and .f64, g otherwise.
  | .ld t l d a b => Sys2Proof.Machine.execLd t l d a b s
  | .lde t d a b => Sys2Proof.Machine.execLde t d a b s
  | .ldacq t d a b => Sys2Proof.Machine.execLdacq t d a b s
  | .ldc l d a b => Sys2Proof.Machine.execLdc l d a b s
  | .st t c a b => Sys2Proof.Machine.execSt t c a b s
  | .strel t c a b => Sys2Proof.Machine.execStrel t c a b s
  | .stc c a b => Sys2Proof.Machine.execStc c a b s
  | .stv c a b => Sys2Proof.Machine.execStv c a b s
  -- Atomics, FENCE and WAITA (R234 to R241).
  | .amoSwap o w d a b => Sys2Proof.Machine.execAmoSwap o w d a b s
  | .amoAdd o w d a b => Sys2Proof.Machine.execAmoAdd o w d a b s
  | .amoSetb o w d a b => Sys2Proof.Machine.execAmoSetb o w d a b s
  | .amoClrb o w d a b => Sys2Proof.Machine.execAmoClrb o w d a b s
  | .amoFlipb o w d a b => Sys2Proof.Machine.execAmoFlipb o w d a b s
  | .amoKeepb o w d a b => Sys2Proof.Machine.execAmoKeepb o w d a b s
  | .amoMin o w d a b => Sys2Proof.Machine.execAmoMin o w d a b s
  | .amoMax o w d a b => Sys2Proof.Machine.execAmoMax o w d a b s
  | .amoMinz o w d a b => Sys2Proof.Machine.execAmoMinz o w d a b s
  | .amoMaxz o w d a b => Sys2Proof.Machine.execAmoMaxz o w d a b s
  | .amoIncw o w d a b => Sys2Proof.Machine.execAmoIncw o w d a b s
  | .amoDecw o w d a b => Sys2Proof.Machine.execAmoDecw o w d a b s
  | .rwrSum rel t a b => Sys2Proof.Machine.execRwrSum rel t a b s
  | .rwrMax rel t a b => Sys2Proof.Machine.execRwrMax rel t a b s
  | .rwrMin rel t a b => Sys2Proof.Machine.execRwrMin rel t a b s
  | .cas o w d a b => Sys2Proof.Machine.execCas o w d a b s
  | .fence a => Sys2Proof.Machine.execFence a s
  | .waita t d a b => Sys2Proof.Machine.execWaita t d a b s
  -- Copy engines and the stack reduction engine (R255 to R263).
  | .cpy l a => Sys2Proof.Machine.execCpy l a s
  | .cpyt l d a => Sys2Proof.Machine.execCpyt l d a s
  | .cwm d ch => Sys2Proof.Machine.execCwm d ch s
  | .cres d a => Sys2Proof.Machine.execCres d a s
  | .red l d a => Sys2Proof.Machine.execRed l d a s
  -- Matrix units (R277 to R289).
  | .mmaBf c l d a b => Sys2Proof.Machine.execMmaBf c l d a b s
  | .mmaH c l d a b => Sys2Proof.Machine.execMmaH c l d a b s
  | .mmaF32 c l d a b => Sys2Proof.Machine.execMmaF32 c l d a b s
  | .mmaI8 c l d a b => Sys2Proof.Machine.execMmaI8 c l d a b s
  | .mmaE44 c l d a b => Sys2Proof.Machine.execMmaE44 c l d a b s
  | .mmaE55 c l d a b => Sys2Proof.Machine.execMmaE55 c l d a b s
  | .mmaE45 c l d a b => Sys2Proof.Machine.execMmaE45 c l d a b s
  | .mmaN4e c l d a b => Sys2Proof.Machine.execMmaN4e c l d a b s
  | .mmaN4 c l d a b => Sys2Proof.Machine.execMmaN4 c l d a b s
  | .tcfg d a => Sys2Proof.Machine.execTcfg d a s
  | .tld l d a b => Sys2Proof.Machine.execTld l d a b s
  | .tldN4 l d a b => Sys2Proof.Machine.execTldN4 l d a b s
  | .tst d a b => Sys2Proof.Machine.execTst d a b s
  | .zclr d a => Sys2Proof.Machine.execZclr d a s
  | .zdrn drop res d z r b => Sys2Proof.Machine.execZdrn drop res d z r b s
  | .zexp d z => Sys2Proof.Machine.execZexp d z s
  | .zget d z b => Sys2Proof.Machine.execZget d z b s
  | .mfin d => Sys2Proof.Machine.execMfin d s
  -- The Almucantar array (R298 to R303).
  | .acfg d a => Sys2Proof.Machine.execAcfg d a s
  | .aload d a => Sys2Proof.Machine.execAload d a s
  | .aeval d a b => Sys2Proof.Machine.execAeval d a b s
  | .agth d a b => Sys2Proof.Machine.execAgth d a b s
  -- Messages (R339 to R347) and Meridian (R354, R355).
  | .send d a b n => Sys2Proof.Machine.execSend d a b n s
  | .sendm d a b n => Sys2Proof.Machine.execSendm d a b n s
  | .sendr d a n => Sys2Proof.Machine.execSendr d a n s
  | .mrel => Sys2Proof.Machine.execMrel s
  | .clsw d a b => Sys2Proof.Machine.execClsw d a b s
  | .clsr d a => Sys2Proof.Machine.execClsr d a s
  | .clsen d a b => Sys2Proof.Machine.execClsen d a b s
  | .cpnd d sel => Sys2Proof.Machine.execCpnd d sel s
  | .mbar d a => Sys2Proof.Machine.execMbar d a s
  | .mwait a b => Sys2Proof.Machine.execMwait a b s
  | .mbc a b => Sys2Proof.Machine.execMbc a b s
  | .mrcv d a b => Sys2Proof.Machine.execMrcv d a b s
  -- Compact instructions (R113); w = true is the .s32 form.
  | .cAdd d a => Sys2Proof.Machine.execCAdd d a s
  | .cSub d a => Sys2Proof.Machine.execCSub d a s
  | .cMov d a => Sys2Proof.Machine.execCMov d a s
  | .cAnd d a => Sys2Proof.Machine.execCAnd d a s
  | .cAddi d imm => Sys2Proof.Machine.execCAddi d imm s
  | .cAddiZero d imm => Sys2Proof.Machine.execCAddiZero d imm s
  | .cSlli d k => Sys2Proof.Machine.execCSlli d k s
  | .cSrli d k => Sys2Proof.Machine.execCSrli d k s
  | .cLd w d a => Sys2Proof.Machine.execCLd w d a s
  | .cSt w d a => Sys2Proof.Machine.execCSt w d a s
  | .cBeq a off => Sys2Proof.Machine.execCBeq a off s
  | .cBne a off => Sys2Proof.Machine.execCBne a off s
  | .cJ off => Sys2Proof.Machine.execCJ off s
  | .cJalrG0 a => Sys2Proof.Machine.execCJalrG0 a s
  | .cJalrLink a => Sys2Proof.Machine.execCJalrLink a s
  | .cNop => Sys2Proof.Machine.execCNop s
  | .cHend => Sys2Proof.Machine.execCHend s
  | .cTret => Sys2Proof.Machine.execCTret s
  | .cBrk => Sys2Proof.Machine.execCBrk s
  | .cRgn off => Sys2Proof.Machine.execCRgn off s
  -- Near-unit forms (R307): guards g, sources s, destinations d of move 0 and move 1.
  | .nearTwoMoves g1 s1 d1 g0 s0 d0 => Sys2Proof.Machine.execNearTwoMoves g1 s1 d1 g0 s0 d0 s
  | .nearImmediateMove x g d imm => Sys2Proof.Machine.execNearImmediateMove x g d imm s
  -- Near-unit and home steps; h is a home, u a near unit, n an index into a list of State.
  | .nearChunkArrival h u => Sys2Proof.Machine.execNearChunkArrival h u s
  | .nearTaskRetirement h u => Sys2Proof.Machine.execNearTaskRetirement h u s
  | .nearInstructionLimit h u => Sys2Proof.Machine.execNearInstructionLimit h u s
  | .nearTake h u => Sys2Proof.Machine.execNearTake h u s
  | .nearHeaderReadComplete h u => Sys2Proof.Machine.execNearHeaderReadComplete h u s
  | .homeEnqueue n => Sys2Proof.Machine.execHomeEnqueue n s
  | .homeQueueConfigure n => Sys2Proof.Machine.execHomeQueueConfigure n s
  | .homeLeaseRequest n => Sys2Proof.Machine.execHomeLeaseRequest n s
  | .homeLeaseFree n => Sys2Proof.Machine.execHomeLeaseFree n s
  | .leaseExpiry h => Sys2Proof.Machine.execLeaseExpiry h s
  | .leaseReturnToShared h => Sys2Proof.Machine.execLeaseReturnToShared h s
  | .refreshBurst h => Sys2Proof.Machine.execRefreshBurst h s
  -- Core-side steps; k is a core.
  | .ephemerisResolution n => Sys2Proof.Machine.execEphemerisResolution n s
  | .storeAcknowledge k => Sys2Proof.Machine.execStoreAcknowledge k s
  | .remoteAccessService k => Sys2Proof.Machine.execRemoteAccessService k s
  | .atomicAtHome k => Sys2Proof.Machine.execAtomicAtHome k s
  | .rwrAtHome k => Sys2Proof.Machine.execRwrAtHome k s
  | .pageTableWalk k va acc => Sys2Proof.Machine.execPageTableWalk k va acc s
  | .waitaWake k => Sys2Proof.Machine.execWaitaWake k s
  | .waitaTimerExpiry k => Sys2Proof.Machine.execWaitaTimerExpiry k s
  -- Message and Meridian steps.
  | .messageArrival n => Sys2Proof.Machine.execMessageArrival n s
  | .handlerStart k => Sys2Proof.Machine.execHandlerStart k s
  | .parkingTimeout dome => Sys2Proof.Machine.execParkingTimeout dome s
  | .spawnResponse n => Sys2Proof.Machine.execSpawnResponse n s
  | .multicastForward n dome => Sys2Proof.Machine.execMulticastForward n dome s
  | .reductionMerge n => Sys2Proof.Machine.execReductionMerge n s
  | .barrierCompletion c => Sys2Proof.Machine.execBarrierCompletion c s
  | .broadcastCompletion c => Sys2Proof.Machine.execBroadcastCompletion c s
  | .preemptionLineRaise die line => Sys2Proof.Machine.execPreemptionLineRaise die line s
  -- Orrery steps.
  | .orreryLaunchRequest => Sys2Proof.Machine.execOrreryLaunchRequest s
  | .orreryCancelRequest => Sys2Proof.Machine.execOrreryCancelRequest s
  | .orreryGarmRequest => Sys2Proof.Machine.execOrreryGarmRequest s
  | .orreryGrelRequest => Sys2Proof.Machine.execOrreryGrelRequest s
  | .freeResourceReport die => Sys2Proof.Machine.execFreeResourceReport die s
  | .orreryDispatchCycle => Sys2Proof.Machine.execOrreryDispatchCycle s
  | .dieAgentPlacement n => Sys2Proof.Machine.execDieAgentPlacement n s
  | .tcbHeadBodyRead g => Sys2Proof.Machine.execTcbHeadBodyRead g s
  | .tcbBodyStart g => Sys2Proof.Machine.execTcbBodyStart g s
  | .domeLeavesRetiring dome => Sys2Proof.Machine.execDomeLeavesRetiring dome s
  | .meshRestitch vf => Sys2Proof.Machine.execMeshRestitch vf s
  -- Engine steps.
  | .copyRequestStart k ch => Sys2Proof.Machine.execCopyRequestStart k ch s
  | .copyBeat k ch => Sys2Proof.Machine.execCopyBeat k ch s
  | .copyCompletion k ch => Sys2Proof.Machine.execCopyCompletion k ch s
  | .copySuspend k ch => Sys2Proof.Machine.execCopySuspend k ch s
  | .cresAtChannel n => Sys2Proof.Machine.execCresAtChannel n s
  | .redBlockStart stack => Sys2Proof.Machine.execRedBlockStart stack s
  | .redBlockCompletion stack => Sys2Proof.Machine.execRedBlockCompletion stack s
  | .redFault stack => Sys2Proof.Machine.execRedFault stack s
  | .mmaExecute unit => Sys2Proof.Machine.execMmaExecute unit s
  | .tldExecute unit => Sys2Proof.Machine.execTldExecute unit s
  | .tstExecute unit => Sys2Proof.Machine.execTstExecute unit s
  | .zclrExecute unit => Sys2Proof.Machine.execZclrExecute unit s
  | .zdrnExecute unit => Sys2Proof.Machine.execZdrnExecute unit s
  | .zexpZgetReturn unit => Sys2Proof.Machine.execZexpZgetReturn unit s
  | .mfinResolution k => Sys2Proof.Machine.execMfinResolution k s
  | .aloadExecute dome => Sys2Proof.Machine.execAloadExecute dome s
  | .aevalExecute dome => Sys2Proof.Machine.execAevalExecute dome s
  | .agthExecute dome => Sys2Proof.Machine.execAgthExecute dome s
  -- Pre-emption, migration, power and heat.
  | .preemptionRequestArrival k => Sys2Proof.Machine.execPreemptionRequestArrival k s
  | .preemptionTake k => Sys2Proof.Machine.execPreemptionTake k s
  | .contextResume n => Sys2Proof.Machine.execContextResume n s
  | .extensionMigration k => Sys2Proof.Machine.execExtensionMigration k s
  | .thermalExchange dome => Sys2Proof.Machine.execThermalExchange dome s
  | .regulatorUpdate k => Sys2Proof.Machine.execRegulatorUpdate k s
  | .droopPause k => Sys2Proof.Machine.execDroopPause k s
  | .thermalSample => Sys2Proof.Machine.execThermalSample s
  | .powerLeaseExpiry => Sys2Proof.Machine.execPowerLeaseExpiry s
  | .packagePowerCheck => Sys2Proof.Machine.execPackagePowerCheck s
  | .inletOvertemp => Sys2Proof.Machine.execInletOvertemp s
  | .patrolScrub w => Sys2Proof.Machine.execPatrolScrub w s
  -- KCP requests; ep is the endpoint whose oldest request is performed.
  | .kcpLaunch ep => Sys2Proof.Machine.execKcpLaunch ep s
  | .kcpCopy ep => Sys2Proof.Machine.execKcpCopy ep s
  | .kcpRead ep => Sys2Proof.Machine.execKcpRead ep s
  | .kcpWrite ep => Sys2Proof.Machine.execKcpWrite ep s
  | .kcpCancel ep => Sys2Proof.Machine.execKcpCancel ep s
  | .kcpClose ep => Sys2Proof.Machine.execKcpClose ep s
  | .kcpGrant ep => Sys2Proof.Machine.execKcpGrant ep s
  | .kcpListen ep => Sys2Proof.Machine.execKcpListen ep s
  | .kcpShoot ep => Sys2Proof.Machine.execKcpShoot ep s
  | .kcpCount ep => Sys2Proof.Machine.execKcpCount ep s
  | .kcpAttest ep => Sys2Proof.Machine.execKcpAttest ep s
  | .kcpOpen ep => Sys2Proof.Machine.execKcpOpen ep s
  | .kcpPart ep => Sys2Proof.Machine.execKcpPart ep s
  | .kcpToken ep => Sys2Proof.Machine.execKcpToken ep s
  | .kcpFwupdImage ep => Sys2Proof.Machine.execKcpFwupdImage ep s
  | .kcpFwupdCommit ep => Sys2Proof.Machine.execKcpFwupdCommit ep s
  | .kcpSvc ep => Sys2Proof.Machine.execKcpSvc ep s
  | .kcpLog ep => Sys2Proof.Machine.execKcpLog ep s
  | .kcpKeysAdd ep => Sys2Proof.Machine.execKcpKeysAdd ep s
  | .kcpKeysRevoke ep => Sys2Proof.Machine.execKcpKeysRevoke ep s
  | .kcpUnknownOp ep => Sys2Proof.Machine.execKcpUnknownOp ep s
  | .stationControllerRestart => Sys2Proof.Machine.execStationControllerRestart s
  | .stackRecalibrationComplete stack => Sys2Proof.Machine.execStackRecalibrationComplete stack s
  | .bringUp failed badDomes => Sys2Proof.Machine.execBringUp failed badDomes s
  -- Illegal encodings and events from outside.
  | .illegalInstruction detail => Sys2Proof.Machine.execIllegalInstruction detail s
  | .nearReservedForm detail => Sys2Proof.Machine.execNearReservedForm detail s
  | .uetRemoteMemoryAccess n => Sys2Proof.Machine.execUetRemoteMemoryAccess n s
  | .unsupportedUetPacket n => Sys2Proof.Machine.execUnsupportedUetPacket n s
  | .wordBecomesUncorrectable p => Sys2Proof.Machine.execWordBecomesUncorrectable p s
  | .refreshDue h bank => Sys2Proof.Machine.execRefreshDue h bank s
  | .nearWriteQueueDrain h u => Sys2Proof.Machine.execNearWriteQueueDrain h u s
  | .inletTemperatureRecovery => Sys2Proof.Machine.execInletTemperatureRecovery s
  | .domeSelfTestComplete dome pass => Sys2Proof.Machine.execDomeSelfTestComplete dome pass s
  | .powerLoss => Sys2Proof.Machine.execPowerLoss s
  | .writePerformedAsSeen n v => Sys2Proof.Machine.execWritePerformedAsSeen n v s

end Sys2Proof.Machine
end

