-- ==== Sys2Proof/Machine/Schedule.lean ====
section
/-! DEFINITION. Whose turn it is: the turn of a core or a near unit, what comes from outside, the moves of the agenda, and the
order in which the machine moves where the agenda is empty (log 4). -/
namespace Sys2Proof.Machine

/-! ## Turns -/

/-- What core k has on its way, or its next instruction's bytes, lie in a slice whose accesses are held (R389).
DEDUCED (log 42), unsafe: such a core issues nothing until the exchange is over. -/
def State.slicesHeld (s : State) (k : Nat) : Bool :=
  let c := s.core k
  let code (va : Nat) : Bool := match (s.translate k va [.execute]).1 with | .ok p => s.heldAt p.pa | .error _ => false
  c.buf.any (fun e => s.heldAt e.pa) || c.ldes.any (fun e => s.heldAt e.pa) || code c.pc.toNat || code (c.pc.toNat + 2)

/-- Core k issues nothing: it runs no activation, is being saved, has asked for extension migration once its region is discarded
(R119), takes part in an exchange, or waits for a slice of one (R381, R389). -/
def State.idles (s : State) (k : Nat) : Bool :=
  (s.core k).act.isNone || (s.core k).wait == some .saving || (s.core k).wait == some .migration || s.held k ||
    (s.exchanging && s.slicesHeld k)

/-- A turn of the core whose turn it is (R104, R118): it fetches, decodes and executes one instruction; at an instruction boundary
a pre-emption comes first (R374). -/
def State.coreTurn (s : State) : Out :=
  let c := s.me
  if s.idles s.cur then .next s
  else if s.preempts s.cur then execPreemptionTake s.cur s
  else
    match s.fetchInstr s.cur c.pc.toNat with
    | (.error e, t) => .next (t.coreFault e.1 e.2.1 e.2.2)
    | (.ok (.error d), t) => execIllegalInstruction d t
    | (.ok (.ok i), t) => exec i t

/-- A turn of near unit u of home h (R306, R307): it executes the word at its index. -/
def State.nearTurn (s : State) (h u : Nat) : Out :=
  let x := s.near h u
  match s.nearTask h u, x.image.code[x.index]? with
  | some _, some w =>
    match decodeNear w.toNat with
    | .ok i => exec i { s with nearCur := some (h, u) }
    | .error d => .next (State.nearReserved { s with nearCur := some (h, u) } d)
  | _, _ => .next s

/-- What the clock brings about in the present reference cycle: the Meridian events that are due (R350), the reports of the die
agents (R47), the loops of the cores (R383), the reading of the sensors (R386), the comparison with the budget (R392), and what
expires: leases and the power token (R73, R391). -/
def State.clocked (s0 : State) : State :=
  let s := s0.expireLeases.expireToken
  let t := s.barriers.foldl (fun t b => t.barrierDue b.1) s
  let u := t.bcasts.foldl (fun u b => u.bcastDue b.1) t
  (((List.range 4).foldl State.reportDie u).regulate.sampleAll).checkPower

/-- A reference cycle passes. -/
def State.tick (s : State) : State := State.clocked { s with rc := s.rc + 1, nearCur := none }

/-- What follows a turn by default: a reference cycle passes. -/
def tickOut : Out → Out
  | .next t => .next t.tick
  | .fault f => .fault f
  | .refused r => .refused r

/-! ## What comes from outside -/

/-- A request that arrives while the Station Controller starts or restarts, or is in SAFE, is of an operation that it does not answer
then (R400, R403). -/
def State.busyFor (s : State) (ep : Nat) (b : KcpBody) : Bool :=
  match s.sc.boot with
  | .ready => false
  | .safe =>
    !(ep == 1024 && (match b with
      | .count _ | .attest _ | .log .. | .fwupd .. => true
      | _ => false))
  | .booting | .restarting | .restartingSafe => true

/-- What the outside world sends reaches the package. -/
def State.input (s : State) : Input → State
  | .kcp ep r =>
    if ep ≤ 1024 then
      { s with kcp := mput s.kcp ep (((mget s.kcp ep).getD []) ++ [{ r with busy := s.busyFor ep r.body, arrived := s.rc }]) }
    else s
  | .uet (.message pkg vf m) => s.crossMessage pkg vf m
  | .uet p => { s with uet := s.uet ++ [p] }
  | .temperature r q => { s with sc := { s.sc with temps := mput s.sc.temps r q } }
  | .power w => { s with sc := { s.sc with power := w } }
  | .inlet q => { s with sc := { s.sc with
      inlet := q
      inletSince := if s.sc.inlet < 168 then s.sc.inletSince else s.rc } }
  | .slack k x => { s with sc := { s.sc with slacks := mput s.sc.slacks k x } }
  | .slackTarget x => { s with sc := { s.sc with slackTarget := x } }
  | .remoteData p vf asid va d r =>
    let other (x : RemoteData) : Bool := x.package != p || x.vf != vf || x.asid != asid || x.va != va
    { s with remote := s.remote.filter other ++ [⟨p, vf, asid, va, d, r⟩] }
  | .remoteAck k ch r => if ch < 4 then s.remoteAck k (Fin.ofNat 4 ch) r else s
  | .upset pa =>
    if isMemory pa then s.setMem { s.mem with upsets := mput s.mem.upsets (pa / 8) ((mget s.mem.upsets (pa / 8)).getD 0 + 1) } else s
  | .linkUpset => s.count .linkCorrected

/-! ## The agenda -/

/-- A step of a unit that the agenda may name: one that no word of a program stands for. -/
def Instr.isTurn (i : Instr) : Bool :=
  i.kind == .none && (match i with | .illegalInstruction _ | .nearReservedForm _ => false | _ => true)

/-- A move of the agenda. -/
def State.move (s : State) : Move → Out
  | .core k => if isCore k then State.coreTurn { s with cur := k, nearCur := none } else .next s
  | .near h u => s.nearTurn h u
  | .event i => if Instr.isTurn i then exec i s else .next s
  | .tick => .next s.tick
  | .performLde k n => .next (s.performNth k n)
  | .recordLeaves w => .next { s with lastRwr := mdel s.lastRwr w }
  | .input i => .next (s.input i)

/-! ## The order by default -/

/-- The steps that a core's own engines may take. -/
def coreSteps (k : Nat) (c : Core) : List (State → Out) :=
  (if c.buf.isEmpty then []
    else [execStoreAcknowledge k, execRemoteAccessService k, execAtomicAtHome k, execRwrAtHome k]) ++
  (if c.ldes.isEmpty then [] else [fun s => .next (s.performNth k 0)]) ++
  (if c.preempt then [execPreemptionTake k] else []) ++
  (if c.wait = some .migration then [execExtensionMigration k] else []) ++
  (if c.wait = some .waita then [execWaitaWake k, execWaitaTimerExpiry k] else []) ++
  ((List.finRange 4).flatMap fun ch =>
    [execCopyRequestStart k ch, execCopyBeat k ch, execCopyCompletion k ch, execCopySuspend k ch]) ++
  (if c.arrQueue.isEmpty then []
    else [execAloadExecute (domeOf k), execAevalExecute (domeOf k), execAgthExecute (domeOf k)]) ++
  [execHandlerStart k]

/-- The steps that a matrix unit may take for a core. -/
def matSteps (k : Nat) (m : MatCore) : List (State → Out) :=
  if m.queue.isEmpty then []
  else
    let u := unitOf k
    [execMmaExecute u, execTldExecute u, execTstExecute u, execZclrExecute u, execZdrnExecute u, execZexpZgetReturn u,
      execMfinResolution k]

/-- The steps of a home and its near units. -/
def homeSteps (h : Nat) : List (State → Out) :=
  ((List.range 4).flatMap fun u =>
    [execNearHeaderReadComplete h u, execNearChunkArrival h u, execNearWriteQueueDrain h u, execNearTaskRetirement h u,
      fun s => s.nearTurn h u, execNearTake h u]) ++
  [execLeaseExpiry h, execLeaseReturnToShared h]

/-- The steps of the Orrery and of the die agents. -/
def orrerySteps (s : State) : List (State → Out) :=
  (if s.oreqs.isEmpty then []
    else [execOrreryLaunchRequest, execOrreryCancelRequest, execOrreryGarmRequest, execOrreryGrelRequest]) ++
  (s.graphs.flatMap fun g => [execTcbHeadBodyRead g.1, execTcbBodyStart g.1]) ++
  ((List.range s.placements.length).flatMap fun n => [execDieAgentPlacement n, execContextResume n]) ++
  [execOrreryDispatchCycle] ++ ((List.range 4).map fun d => execFreeResourceReport d) ++
  (s.domes.flatMap fun d => if d.2.exchange.isSome then [execThermalExchange d.1] else []) ++
  (s.domes.map fun d => execDomeLeavesRetiring d.1) ++ (s.stitch.toList.map fun r => execMeshRestitch r.vf)

/-- The steps of messages on their way. -/
def netSteps (s : State) : List (State → Out) :=
  ((List.range s.flights.length).flatMap fun n => [execMessageArrival n, execSpawnResponse n]) ++
  (if s.flights.isEmpty then [] else s.domes.map fun d => execParkingTimeout d.1) ++
  (s.multis.zipIdx.flatMap fun m => m.1.copies.map fun c => execMulticastForward m.2 c.node) ++
  ((List.range s.rounds.length).map fun n => execReductionMerge n) ++
  (s.barriers.map fun b => execBarrierCompletion b.1) ++ (s.bcasts.map fun b => execBroadcastCompletion b.1)

/-- The operations of KCP at an endpoint. -/
def kcpSteps (ep : Nat) : List (State → Out) :=
  [execKcpLaunch ep, execKcpCopy ep, execKcpRead ep, execKcpWrite ep, execKcpCancel ep, execKcpClose ep, execKcpGrant ep,
    execKcpListen ep, execKcpShoot ep, execKcpCount ep, execKcpAttest ep, execKcpOpen ep, execKcpPart ep, execKcpToken ep,
    execKcpFwupdImage ep, execKcpFwupdCommit ep, execKcpSvc ep, execKcpLog ep, execKcpKeysAdd ep, execKcpKeysRevoke ep,
    execKcpUnknownOp ep]

/-- The steps that units may take, in the order in which they are tried where the agenda is empty. -/
def State.steps (s : State) : List (State → Out) :=
  (if s.arrivals.isEmpty then [] else [execEphemerisResolution 0]) ++
  (s.cores.flatMap fun c => coreSteps c.1 c.2) ++ (s.mats.flatMap fun m => matSteps m.1 m.2) ++
  netSteps s ++
  (if s.hreqs.isEmpty then [] else [execHomeEnqueue 0, execHomeQueueConfigure 0, execHomeLeaseRequest 0, execHomeLeaseFree 0]) ++
  (s.homes.flatMap fun h => homeSteps h.1) ++
  (s.stackTable.flatMap fun x => [execRedBlockStart x.1, execRedBlockCompletion x.1, execRedFault x.1]) ++
  (if s.cres.isEmpty then [] else [execCresAtChannel 0]) ++ orrerySteps s ++
  (s.kcp.flatMap fun e => if e.2.isEmpty then [] else kcpSteps e.1) ++
  (if s.uet.isEmpty then [] else [execUetRemoteMemoryAccess 0, execUnsupportedUetPacket 0]) ++
  (s.mem.unseen.map fun e => execWritePerformedAsSeen e.id (.core s.cur))

/-- The first of the steps that changes the state. -/
def firstStep (s : State) : List (State → Out) → Option State
  | [] => none
  | f :: rest =>
    match f s with
    | .next t => if t = s then firstStep s rest else some t
    | .fault _ | .refused _ => firstStep s rest

/-- The next core after a number, in a ring, that can take a turn. -/
def State.nextCore (s : State) : Option Nat :=
  let able := (s.cores.filter fun c => !s.idles c.1).map Prod.fst
  (able.find? fun k => decide (s.cur < k)).or able.head?

/-- What happens while the core whose turn it is cannot go on: a step of a unit, else the turn of the next core. -/
def State.others (s : State) : Out :=
  match firstStep s s.steps with
  | some t => .next t
  | none =>
    match s.nextCore with
    | some k => State.coreTurn { s with cur := k }
    | none => .next s

/-- The core can go on: it runs an activation that waits for nothing. -/
def Core.runs (c : Core) : Bool := c.act.isSome && c.wait.isNone

/-- The move by default: the near unit or the core whose turn it is; where the core cannot go on, the others. -/
def State.turn (s : State) : Out :=
  match s.nearCur with
  | some (h, u) => s.nearTurn h u
  | none => if s.me.runs && !s.held s.cur then s.coreTurn else s.others

end Sys2Proof.Machine
end

