-- ==== Sys2Proof/Machine/Step.lean ====
section
/-! DEFINITION. One step of the machine, and how an instruction is placed where the next step fetches. -/
namespace Sys2Proof.Machine

/-- One step: the first move of the agenda, or, where it is empty, the move by default, after which a reference cycle has
passed. DESIGN CHOICE (log 4), unsafe. -/
def step (s : State) : Host.Outcome State Fault Refusal :=
  match s.agenda with
  | m :: rest => State.move { s with agenda := rest } m
  | [] => tickOut s.turn

/-- Where placed instructions stand: the virtual and the physical address. -/
def placedAt : Nat := 0x10000

/-- Memory with a context entry, a root table that maps all to itself, and the bytes of a word. -/
def Memory.place (m : Memory) (n w : Nat) : Memory :=
  { m with
    cells := putBytes (putBytes (putBytes m.cells 0 (leBytes 16 0x4001)) 0x4000 (leBytes 8 0xDF)) placedAt (leBytes n w)
    marks := []
    unseen := [] }

/-- The activation that runs a placed instruction. -/
def placedAct : Act where
  launch := 0
  kind := .send
  counted := false
  startPc := w64 placedAt
  entry := true
  gmask := 0
  fmask := 0
  vmask := 0
  tmask := 0
  zmask := 0
  commit := false
  carve := 1
  slim := 1
  ovf := 0
  base := 0
  left := none

/-- A core that is about to execute the instruction at the placed address. -/
def Core.placed (c : Core) : Core :=
  { c with
    pc := w64 placedAt
    act := some placedAct
    windows := []
    wait := none
    asid := 0
    vfid := 0
    icache := []
    tlb := [] }

/-- The entry whose near body a placed near instruction belongs to. -/
def placedEntry : Entry where
  seq := 0
  cond := .taken
  headerRead := false
  passed := false
  desc := {
    anchor := 0x20000
    alen := 255
    nearpc := placedAt
    queue := 0
    farOnly := false
    nearOnly := false
    ordered := false
    fclass := 0
    farpc := 0
    tkind := 0
    tidx := 0
    args := Vector.replicate 4 0 }
  pa := 0x20000
  perms := 0xC0
  pageR := true
  pageW := true
  sc := 3
  ctx := 0
  core := 0
  carried := []
  turn := 0

/-- A near unit that runs an image of a placed instruction and a word after it. -/
def NearUnit.placed (x : NearUnit) (w : Nat) : NearUnit :=
  { x with
    mode := .running 0 0
    index := 0
    count := 0
    image := ⟨0, placedAt, 0, [BitVec.ofNat 32 w, 0]⟩ }

/-- A home whose near unit 0 is about to execute a placed instruction. -/
def Home.placed (x : Home) (w : Nat) : Home :=
  { x with
    queues := x.queues.set 0 { x.queues[0] with entries := [placedEntry] }
    units := x.units.set 0 (x.units[0].placed w) }

/-- The state with an instruction stored where the next step fetches it (log 4): for a word of a core, in memory at the PC of
the core whose turn it is, which runs an activation there; for a word of a near unit, in the image that unit 0 of home 0 runs.
Programs are loaded from outside the machine; this stands for such a load. -/
def State.withFetchWord (s : State) (nbits w : Nat) : State :=
  let t := { s with agenda := [], nearCur := none }
  if nbits ≤ 16 ∨ w % 2 = 1 then
    { t.setMe t.me.placed with
      mem := t.mem.place 8 (w % 2 ^ nbits)
      vfs := mput t.vfs 0 { t.vf 0 with ctx := 0 } }
  else { t.setHome 0 ((t.home 0).placed (w % 2 ^ 32)) with nearCur := some (0, 0) }

end Sys2Proof.Machine
end

