-- ==== Sys2Proof/Safety.lean ====
section
/-! DEFINITION. The terms that claims use: when an instruction can issue, what it leaves alone, and the invariants that steps
keep. -/
namespace Sys2Proof.Machine

/-! ## When an instruction issues -/

/-- Nothing keeps an instruction of these registers from issuing on the core whose turn it is: an activation runs there, the
instruction neither waits for a window nor violates one (R116, R117), no commit instruction precedes it (R145), it writes no
live-in register (R143), X64 is present where it is needed (R119), and no late value in a register that it reads brings anything still
to be acquired (R363). -/
def State.issues (s : State) (i : Issue) : Prop :=
  ∃ a, s.me.act = some a ∧ s.lookBlocked i = false ∧ i.check s.me a = none ∧ (i.x64 = true → isExt s.cur = true) ∧
    ∀ x ∈ s.me.owed, x.1 ∉ i.reads

/-! ## What an instruction leaves alone -/

/-- Nothing outside core k differs: no field of the state but the cores, no other core, no byte, tag or mark that any agent
reads. -/
def OnlyCore (s t : State) (k : Nat) : Prop :=
  { t with cores := s.cores } = s ∧ (∀ j, j ≠ k → t.core j = s.core j) ∧
    (∀ v a, t.mem.view v a = s.mem.view v a) ∧ (∀ v a, t.mem.viewTag v a = s.mem.viewTag v a) ∧
    ∀ v a, t.mem.viewMark v a = s.mem.viewMark v a

/-- The registers outside a list keep what they hold, and so does all else that a core holds but the PC, the lookahead
windows, the stall, the reference counts of its symbols, and what the late values in its registers bring. -/
def Core.KeepsBut (c d : Core) (l : List RegName) : Prop :=
  (∀ r, RegName.g r ∉ l → d.readG r = c.readG r) ∧
  (∀ r wide, RegName.f r ∉ l → d.readF wide r = c.readF wide r) ∧
  (∀ r, RegName.v r ∉ l → d.readV r = c.readV r) ∧
  (d.sym.map fun e => { e with count := 0 }) = (c.sym.map fun e => { e with count := 0 }) ∧
  { d with
    g := c.g
    f := c.f
    v := c.v
    sym := c.sym
    pc := c.pc
    windows := c.windows
    wait := c.wait
    owed := c.owed } = c

/-- The frame of an instruction of the core whose turn it is that writes registers alone. -/
def Framed (s t : State) (l : List RegName) : Prop := OnlyCore s t s.cur ∧ s.me.KeepsBut t.me l

/-- What a g register reads after a write: g0 discards it (R83). -/
def written (d : GReg) (x : Reg) : Reg := if d = 0 then Reg.data 0 else x

/-- What an f register reads after a write: f0 discards it (R84). -/
def writtenF (wide : Bool) (d : FReg) (x : Reg) : Reg := if d = 0 then Reg.data (fOne wide) else x

/-- Instruction i, of `len` bytes, runs to its end and writes a g register: the next state holds x there, goes on at the next
instruction with the stall over, and keeps all else. -/
def WritesG (i : Instr) (s : State) (d : GReg) (x : Reg) (len : Word := 4) : Prop :=
  ∃ t, exec i s = .next t ∧ t.me.readG d = written d x ∧ t.me.pc = s.me.pc + len ∧ t.me.wait = none ∧ Framed s t [.g d]

/-- The same for an f register. -/
def WritesF (i : Instr) (s : State) (d : FReg) (x : Reg) : Prop :=
  ∃ t, exec i s = .next t ∧ (∀ wide, t.me.readF wide d = writtenF wide d x) ∧ t.me.pc = s.me.pc + 4 ∧ t.me.wait = none ∧
    Framed s t [.f d]

/-- The same for a vector register, whose lanes hold poison where the bits say. -/
def WritesV (i : Instr) (s : State) (d : VecReg) (x : VReg) : Prop :=
  ∃ t, exec i s = .next t ∧ t.me.readV d = x ∧ t.me.pc = s.me.pc + 4 ∧ t.me.wait = none ∧ Framed s t [.v d]

/-- The instruction stalls: the state differs in the stall of the core alone (R98). -/
def Stalls (i : Instr) (s : State) (w : Wait) : Prop :=
  ∃ t, exec i s = .next t ∧ t.me.wait = some w ∧ t.me.pc = s.me.pc ∧ Framed s t []

/-- The instruction raises a fault of a cause and a detail, which the core takes (R370). -/
def Faults (i : Instr) (s : State) (cause detail : Nat) (addr : Word) (code : Nat := 0) : Prop :=
  exec i s = .next (s.coreFault cause detail addr code)

/-- The instruction passes without another effect: the core goes on at the next instruction. -/
def Passes (i : Instr) (s : State) (len : Word := 4) : Prop :=
  ∃ t, exec i s = .next t ∧ t.me.pc = s.me.pc + len ∧ t.me.wait = none ∧ Framed s t []

/-- The instruction jumps to an even address and writes the listed registers at most; a jump to an odd one faults at the
transferring instruction (R105). -/
def Jumps (i : Instr) (s : State) (dest : Word) (l : List RegName := []) : Prop :=
  if dest.getLsbD 0 then Faults i s 3 0 dest
  else ∃ t, exec i s = .next t ∧ t.me.pc = dest ∧ t.me.wait = none ∧ Framed s t l

/-! ## Instructions that do more than write a register -/

/-- The system registers and the class table of a core, its launch context among them. -/
def Core.special (c : Core) : List Word × Vector Word 64 :=
  ([w64 c.kself, w64 c.asid, w64 c.vfid, c.rgnpc, c.rgnrec, c.fcause.zeroExtend 64, c.faddr, c.splo, c.ovfptr,
    c.mwgt.zeroExtend 64, c.dseed, c.dkeep.zeroExtend 64, c.arrCfg], c.classes)

/-- The registers outside a list keep what they hold, and so do the system registers and the class table. -/
def Core.KeepsRegs (c d : Core) (l : List RegName) : Prop :=
  (∀ r, RegName.g r ∉ l → d.readG r = c.readG r) ∧
  (∀ r wide, RegName.f r ∉ l → d.readF wide r = c.readF wide r) ∧
  (∀ r, RegName.v r ∉ l → d.readV r = c.readV r) ∧ d.special = c.special

/-- Instruction i runs to its end: it answers a next state in which the core goes on at the next instruction with the stall
over, keeps the registers outside a list, and more holds. -/
def Runs (i : Instr) (s : State) (l : List RegName) (more : State → Prop) (len : Word := 4) : Prop :=
  ∃ t, exec i s = .next t ∧ t.me.pc = s.me.pc + len ∧ t.me.wait = none ∧ s.me.KeepsRegs t.me l ∧ more t

/-- A register receives a late value (R84, R96): the lowest free symbol becomes Pending and the register a new ephemeris of
it; for g0 nothing is allocated. -/
def LateG (s t : State) (d : GReg) (kind : EphKind) (res : Option SymRef) : Prop :=
  (d = 0 ∧ res = none) ∨
    ∃ i, d ≠ 0 ∧ s.me.freeSym = some i ∧ t.me.readG d = Reg.newEph kind i ∧ t.me.sym[i.val].state = .pending ∧
      t.me.sym[i.val].gen = s.me.sym[i.val].gen + 1 ∧ res = some ⟨i, s.me.sym[i.val].gen + 1⟩

/-- A free symbol stands ready for register d, if it needs one. -/
def State.symReady (s : State) (d : GReg) : Prop := d = 0 ∨ s.me.freeSym ≠ none

/-- An access of `size` bytes at an address through capability register x is permitted, aligned and translated (R219): its
virtual address after the stack window, its place, and the state after the translation and the acquire of R248. No TLD of a
window is still to read its tile (R116), and no slice holds the access (R389). -/
def State.Reaches (s : State) (x : Reg) (addr : Word) (size : Nat) (perms : List Perm) (rights : List Access)
    (va : Nat) (p : Place) (u : State) : Prop :=
  capFault x addr.toNat size perms = 0 ∧ addr.toNat % size = 0 ∧ s.heldAt p.pa = false ∧
    ((s.redirect s.cur addr.toNat = .same ∧ va = addr.toNat) ∨ s.redirect s.cur addr.toNat = .dest va) ∧
    (∃ t, s.translate s.cur va rights = (.ok p, t) ∧ u = t.passWm va size) ∧ s.me.wmBlocked va size = false ∧ s.tileDue = false

/-- A full store buffer lets its head leave before an access enters (R232). -/
def State.makeRoom (s : State) : State := if 16 ≤ s.me.buf.length then s.performHead s.cur else s

end Sys2Proof.Machine
end

