-- ==== Sys2Proof/Certificates/Slice0/Obligations.lean ====
section
/-! DEFINITION. The statements for the provers. -/
namespace Sys2Proof.Machine

/-! ## Integer results, as R125 to R127 give them for a width -/

/-- The two-operand instructions of R125 with their results on operands of n bits. -/
def regRegRows : List ((Bool → GReg → GReg → GReg → Instr) × (∀ n : Nat, BitVec n → BitVec n → BitVec n)) := [
  (.add, fun _ x y => x + y),
  (.sub, fun _ x y => x - y),
  (.and, fun _ x y => x &&& y),
  (.or, fun _ x y => x ||| y),
  (.xor, fun _ x y => x ^^^ y),
  (.andn, fun _ x y => x &&& ~~~y),
  (.sll, fun n x y => x <<< (y.toNat % n)),
  (.srl, fun n x y => x >>> (y.toNat % n)),
  (.sra, fun n x y => x.sshiftRight (y.toNat % n)),
  (.rot, fun n x y => x.rotateRight (y.toNat % n)),
  (.min, fun _ x y => if y.toInt < x.toInt then y else x),
  (.max, fun _ x y => if x.toInt < y.toInt then y else x),
  (.minz, fun _ x y => if y.toNat < x.toNat then y else x),
  (.maxz, fun _ x y => if x.toNat < y.toNat then y else x),
  (.slt, fun n x y => if x.toInt < y.toInt then BitVec.ofNat n 1 else BitVec.ofNat n 0),
  (.sltz, fun n x y => if x.toNat < y.toNat then BitVec.ofNat n 1 else BitVec.ofNat n 0)]

/-- The one-operand instructions of R125 with their results on an operand of n bits. -/
def unaryRows : List ((Bool → GReg → GReg → Instr) × (∀ n : Nat, BitVec n → BitVec n)) := [
  (.clz, fun n x => BitVec.ofNat n ((List.range n).takeWhile fun i => !x.getMsbD i).length),
  (.ctz, fun n x => BitVec.ofNat n ((List.range n).takeWhile fun i => !x.getLsbD i).length),
  (.popc, fun n x => BitVec.ofNat n ((List.range n).filter fun i => x.getLsbD i).length),
  (.bswap, fun n x => BitVec.ofNat n
    (((List.range (n / 8)).map fun j => x.toNat / 256 ^ j % 256 * 256 ^ (n / 8 - 1 - j)).sum))]

/-- The instructions of R126 that exist in both widths, with their results. -/
def mulDivRows : List ((Bool → Look → GReg → GReg → GReg → Instr) × (∀ n : Nat, BitVec n → BitVec n → BitVec n)) := [
  (.mul, fun _ x y => x * y),
  (.div, fun n x y => if y = 0 then BitVec.allOnes n else x.sdiv y),
  (.divz, fun n x y => if y = 0 then BitVec.allOnes n else x.udiv y),
  (.rem, fun _ x y => if y = 0 then x else x.srem y),
  (.remz, fun _ x y => if y = 0 then x else x.umod y)]

/-- The instructions of R127 with a 15-bit immediate: the result from the operand and the immediate. -/
def immediateRows : List ((GReg → GReg → BitVec 15 → Instr) × (Word → BitVec 15 → Word)) := [
  (.addi, fun x i => x + i.signExtend 64),
  (.addiw, fun x i => ((x + i.signExtend 64).truncate 32).signExtend 64),
  (.andi, fun x i => x &&& i.signExtend 64),
  (.ori, fun x i => x ||| i.zeroExtend 64),
  (.xori, fun x i => x ^^^ i.zeroExtend 64),
  (.slti, fun x i => if x.toInt < i.toInt then 1 else 0),
  (.lih, fun x i => BitVec.ofNat 64 (x.toNat * 2 ^ 15 + i.toNat))]

/-- The shifts of R127 by a constant. -/
def shiftRows : List ((Bool → GReg → GReg → Fin 64 → Instr) × (∀ n : Nat, BitVec n → Nat → BitVec n)) := [
  (.slli, fun _ x k => x <<< k),
  (.srli, fun _ x k => x >>> k),
  (.srai, fun _ x k => x.sshiftRight k)]

/-- A width-w result of two 64-bit operands: all bits for .s64; for .s32 the low 32 bits of each, the result sign-extended
(R122, R123). -/
def wide2 (w : Bool) (f : ∀ n : Nat, BitVec n → BitVec n → BitVec n) (x y : Word) : Word :=
  if w then (f 32 (x.truncate 32) (y.truncate 32)).signExtend 64 else f 64 x y

/-- The same for one operand. -/
def wide1 (w : Bool) (f : ∀ n : Nat, BitVec n → BitVec n) (x : Word) : Word :=
  if w then (f 32 (x.truncate 32)).signExtend 64 else f 64 x

/-- The branches of R137 on two values, with their conditions. -/
def branchRows : List ((GReg → GReg → BitVec 12 → Instr) × (Word → Word → Prop)) := [
  (.beq, fun x y => x = y),
  (.bne, fun x y => x ≠ y),
  (.blt, fun x y => x.toInt < y.toInt),
  (.bge, fun x y => y.toInt ≤ x.toInt),
  (.blo, fun x y => x.toNat < y.toNat),
  (.bhs, fun x y => y.toNat ≤ x.toNat)]

/-- A field of CGET (R131) of the metadata and the value of a capability. -/
def cgetValue (info v : Word) : Fin 8 → Word
  | 0 => BitVec.ofInt 64 (capBase info v)
  | 1 => BitVec.ofInt 64 (capTop info v)
  | 2 => info >>> 56
  | 3 => (info >>> 50) &&& 0x3F
  | 4 => (info >>> 25) &&& 0x1FFFFFF
  | 5 => info &&& 0x1FFFFFF
  | 6 => info
  | 7 => if malformed info v then 1 else 0

/-- The atomics of R236 with what they leave in memory: from the old value x and the operand y, on n bits. -/
def amoRows : List ((Order → Bool → GReg → GReg → GReg → Instr) × AmoOp × (∀ n : Nat, BitVec n → BitVec n → BitVec n)) := [
  (.amoSwap, .swap, fun _ _ y => y),
  (.amoAdd, .add, fun _ x y => x + y),
  (.amoSetb, .setb, fun _ x y => x ||| y),
  (.amoClrb, .clrb, fun _ x y => x &&& ~~~y),
  (.amoFlipb, .flipb, fun _ x y => x ^^^ y),
  (.amoKeepb, .keepb, fun _ x y => x &&& y),
  (.amoMin, .min, fun _ x y => if y.toInt < x.toInt then y else x),
  (.amoMax, .max, fun _ x y => if x.toInt < y.toInt then y else x),
  (.amoMinz, .minz, fun _ x y => if y.toNat < x.toNat then y else x),
  (.amoMaxz, .maxz, fun _ x y => if x.toNat < y.toNat then y else x),
  (.amoIncw, .incw, fun n x y => if y.toNat ≤ x.toNat then BitVec.ofNat n 0 else x + 1),
  (.amoDecw, .decw, fun _ x y => if x = 0 ∨ y.toNat < x.toNat then y else x - 1)]

/-- The remote reductions of R238. -/
def rwrRows : List ((Bool → Ty → GReg → Fin 32 → Instr) × RedOp) := [(.rwrSum, .sum), (.rwrMax, .max), (.rwrMin, .min)]

/-- The value that R101 and R102 give a system register. -/
def sysRow (s : State) : SysReg → Word
  | .kid => BitVec.ofNat 64 s.cur
  | .kself => BitVec.ofNat 64 s.me.kself
  | .extset => if 88 ≤ s.cur % 128 then 1 else 0
  | .asid => BitVec.ofNat 64 s.me.asid
  | .vfid => BitVec.ofNat 64 s.me.vfid
  | .dtime => BitVec.ofNat 64 (s.rc * 5 / 6)
  | .rgnpc => s.me.rgnpc
  | .rgnrec => s.me.rgnrec
  | .fcause => s.me.fcause.zeroExtend 64
  | .faddr => s.me.faddr
  | .splo => s.me.splo
  | .ovfptr => s.me.ovfptr
  | .mwgt => s.me.mwgt.zeroExtend 64
  | .dseed => s.me.dseed
  | .dkeep => s.me.dkeep.zeroExtend 64
  | .inbstat => if s.sc.boot = .booting then 0 else BitVec.ofNat 64 (
      (match s.me.pinned with
        | some i => (match s.me.slots[i.val] with | .holds p => p.msg.cls | _ => 0) * 2 ^ 28 + 2 ^ 27 + i.val * 2 ^ 22
        | none => 0) +
      (s.me.order.filter fun i => s.me.pinned != some i).length * 2 ^ 16 +
      ((List.finRange 32).filter fun i => decide (i.val < 28) && s.me.slots[i.val] == .free).length * 2 ^ 8 +
      ((List.finRange 32).filter fun i => decide (28 ≤ i.val) && s.me.slots[i.val] == .free).length)

/-! ## Floating point -/

/-- The two-operand scalar forms (R182, R183): .f32, .f64, and the result in a format. -/
def floatRows : List ((Rnd → Look → FReg → FReg → FReg → Instr) × (Rnd → Look → FReg → FReg → FReg → Instr) ×
    (Fmt → Rnd → Nat → Nat → Nat)) := [
  (.fadd, .faddF64, fun m r x y => m.add r false x y),
  (.fsub, .fsubF64, fun m r x y => m.add r true x y),
  (.fmul, .fmulF64, fun m r x y => m.mul r x y),
  (.fdiv, .fdivF64, fun m r x y => m.div r x y),
  (fun _ => .fmin, fun _ => .fminF64, fun m _ x y => m.fmin x y),
  (fun _ => .fmax, fun _ => .fmaxF64, fun m _ x y => m.fmax x y)]

/-- The class word of R185 from what a code is. -/
def classOf (m : Fmt) (x : Nat) : Nat :=
  (if m.sign x then 0x80 else 0) +
    match m.value x with
    | .nan _ fr => if fr / 2 ^ (m.mw - 1) % 2 = 1 then 0x10 else 0x20
    | .inf _ => 0x08
    | .fin _ n _ => if n = 0 then 0x01 else if m.exp x = 0 then 0x02 else 0x04

/-! ## Vectors -/

/-- An element result from a function on float formats and one on integers of n bits, signed or not. -/
def elemOf (t : Ty) (fl : Fmt → Nat → Nat → Nat) (int : ∀ n : Nat, Bool → BitVec n → BitVec n → BitVec n) (x y : Nat) : Nat :=
  match tyFmt t with
  | some m => fl m x y
  | none => (int (tyWidth t) (tySigned t) (BitVec.ofNat _ x) (BitVec.ofNat _ y)).toNat

/-- x < y as integers of n bits, signed or not. -/
def intLt (n : Nat) (sg : Bool) (x y : BitVec n) : Bool := if sg then decide (x.toInt < y.toInt) else decide (x.toNat < y.toNat)

/-- The two-operand vector instructions of R191 and R192 with their element functions. -/
def vecRows : List ((Ty → Look → VecReg → VecReg → VecReg → Instr) × (Fmt → Nat → Nat → Nat) ×
    (∀ n : Nat, Bool → BitVec n → BitVec n → BitVec n)) := [
  (.vadd, fun m x y => m.add .rne false x y, fun _ _ x y => x + y),
  (.vsub, fun m x y => m.add .rne true x y, fun _ _ x y => x - y),
  (.vmul, fun m x y => m.mul .rne x y, fun _ _ x y => x * y),
  (.vmin, fun m x y => m.fmin x y, fun n sg x y => if intLt n sg y x then y else x),
  (.vmax, fun m x y => m.fmax x y, fun n sg x y => if intLt n sg x y then y else x),
  (.vshl, fun _ x _ => x, fun n _ x y => x <<< (y.toNat % n)),
  (.vshr, fun _ x _ => x, fun n sg x y => if sg then x.sshiftRight (y.toNat % n) else x >>> (y.toNat % n)),
  (.vcmp, fun m x y => m.relation x y,
    fun n sg x y => if intLt n sg x y then BitVec.ofNat n 1 else if x = y then BitVec.ofNat n 2 else BitVec.ofNat n 4),
  (.vdiv, fun m x y => m.div .rne x y, fun _ _ x _ => x)]

/-- A poison bit is set among the lanes that share an element of width w with lane j. -/
def nearPoison (w : Nat) (p : BitVec 8) (j : Nat) : Bool :=
  (List.range 8).any fun i => i / max 1 (w / 32) == j / max 1 (w / 32) && p.getLsbD i

end Sys2Proof.Machine
open Sys2Proof Sys2Proof.Machine

/-! ## Integer instructions -/

/-- R124, R125, R122, R123: the register-register instructions complete with their results on DATA operands. -/
def Obligations.RegisterResults : Prop :=
  ∀ p ∈ regRegRows, ∀ (s : State) (w : Bool) (d a b : GReg) (x y : Word),
    s.issues { reads := [.g a, .g b], writes := [.g d] } →
    s.me.readG a = Reg.data x → s.me.readG b = Reg.data y →
    WritesG (p.1 w d a b) s d (Reg.data (wide2 w p.2 x y))

/-- R125: the other instructions of the major: one-operand results, SEL, MOV, and MOVM from the pinned message. -/
def Obligations.UnaryAndMoveResults : Prop :=
  (∀ p ∈ unaryRows, ∀ (s : State) (w : Bool) (d a : GReg) (x : Word),
    s.issues { reads := [.g a], writes := [.g d] } → s.me.readG a = Reg.data x →
    WritesG (p.1 w d a) s d (Reg.data (wide1 w p.2 x))) ∧
  (∀ (s : State) (d a b : GReg) (x y z : Word), s.issues { reads := [.g a, .g b, .g d], writes := [.g d] } →
    s.me.readG a = Reg.data x → s.me.readG b = Reg.data y → s.me.readG d = Reg.data z →
    WritesG (.sel d a b) s d (Reg.data (if z ≠ 0 then x else y))) ∧
  (∀ (s : State) (d a : GReg), s.issues { reads := [.g a], writes := [.g d] } →
    WritesG (.mov d a) s d (s.me.readG a)) ∧
  (∀ (s : State) (d : GReg) (n : MReg), s.issues { writes := [.g d] } →
    (s.me.pinned = none → WritesG (.movm d n) s d (Reg.data 0)) ∧
    ∀ slot p, s.me.pinned = some slot → s.me.slots[slot.val] = .holds p →
      (p.msg.tagOf n.val = 0 → WritesG (.movm d n) s d (Reg.data p.msg.m[n.val])) ∧
      (p.msg.tagOf n.val = 1 → ∀ h : n.val + 1 < 6,
        WritesG (.movm d n) s d (Reg.mkCap p.msg.m[n.val] p.msg.m[n.val + 1])))

/-- R126: multiply and divide, the zero divisor and the wrapping quotient among them. R127: immediates, constant shifts and
bit fields. -/
def Obligations.MultiplyAndImmediateResults : Prop :=
  ((∀ p ∈ mulDivRows, ∀ (s : State) (w : Bool) (l : Look) (d a b : GReg) (x y : Word),
    s.issues { reads := [.g a, .g b], writes := [.g d], look := l.val } →
    s.me.readG a = Reg.data x → s.me.readG b = Reg.data y →
    WritesG (p.1 w l d a b) s d (Reg.data (wide2 w p.2 x y))) ∧
  (∀ (s : State) (l : Look) (d a b : GReg) (x y : Word),
    s.issues { reads := [.g a, .g b], writes := [.g d], look := l.val } →
    s.me.readG a = Reg.data x → s.me.readG b = Reg.data y →
    WritesG (.mulh l d a b) s d (Reg.data (((x.signExtend 128 * y.signExtend 128) >>> 64).truncate 64)) ∧
    WritesG (.mulhz l d a b) s d (Reg.data (((x.zeroExtend 128 * y.zeroExtend 128) >>> 64).truncate 64)))) ∧
  ((∀ p ∈ immediateRows, ∀ (s : State) (d a : GReg) (imm : BitVec 15) (x : Word),
    s.issues { reads := [.g a], writes := [.g d] } → s.me.readG a = Reg.data x →
    WritesG (p.1 d a imm) s d (Reg.data (p.2 x imm))) ∧
  (∀ p ∈ shiftRows, ∀ (s : State) (w : Bool) (d a : GReg) (k : Fin 64) (x : Word), (p.1 w d a k).wf →
    s.issues { reads := [.g a], writes := [.g d] } → s.me.readG a = Reg.data x →
    WritesG (p.1 w d a k) s d (Reg.data (wide1 w (fun n y => p.2 n y k.val) x))) ∧
  (∀ (s : State) (d a : GReg) (pos len1 : Fin 64) (x : Word), pos.val + len1.val + 1 ≤ 64 →
    s.issues { reads := [.g a], writes := [.g d] } → s.me.readG a = Reg.data x →
    WritesG (.extS64 d a pos len1) s d (Reg.data (((x >>> pos.val).truncate (len1.val + 1)).signExtend 64)) ∧
    WritesG (.extZ64 d a pos len1) s d (Reg.data (((x >>> pos.val).truncate (len1.val + 1)).zeroExtend 64))) ∧
  (∀ (s : State) (d a : GReg) (pos len1 : Fin 64) (x y : Word), pos.val + len1.val + 1 ≤ 64 →
    s.issues { reads := [.g a, .g d], writes := [.g d] } → s.me.readG a = Reg.data x → s.me.readG d = Reg.data y →
    ∃ v : Word, WritesG (.ins d a pos len1) s d (Reg.data v) ∧
      ∀ i < 64, v.getLsbD i = if pos.val ≤ i ∧ i ≤ pos.val + len1.val then x.getLsbD (i - pos.val) else y.getLsbD i))

/-- R88, R98: in a register-register instruction a POIS operand gives POIS with the first one's record, and an EPH operand
that is not transformed stalls the core. -/
def Obligations.PoisonAndWaiting : Prop :=
  ∀ p ∈ regRegRows, ∀ (s : State) (w : Bool) (d a b : GReg),
    s.issues { reads := [.g a, .g b], writes := [.g d] } →
    ((s.me.readG a).tag = .pois → WritesG (p.1 w d a b) s d ⟨.pois, 0, (s.me.readG a).info⟩) ∧
    ((s.me.readG a).tag ≠ .pois → (s.me.readG b).tag = .pois →
      WritesG (p.1 w d a b) s d ⟨.pois, 0, (s.me.readG b).info⟩) ∧
    ((s.me.readG a).tag ≠ .pois → (s.me.readG b).tag ≠ .pois →
      ((s.me.readG a).tag = .eph ∨ (s.me.readG b).tag = .eph) → p.1 w d a b ≠ .add w d a b → p.1 w d a b ≠ .sub w d a b →
      Stalls (p.1 w d a b) s .operand)

/-- R97: ADD, SUB and MUL of a 64-bit ephemeris and a number go on without waiting; ADD of two over one symbol too. -/
def Obligations.EphemerisTransforms : Prop :=
  ∀ (s : State) (d a b : GReg) (sym : Fin 32) (sc : BitVec 48) (off y : Word),
    s.issues { reads := [.g a, .g b], writes := [.g d] } →
    s.me.readG a = Reg.eph .i64 sym sc.toNat off → sc ≠ 0 →
    (s.me.readG b = Reg.data y →
      WritesG (.add false d a b) s d (Reg.eph .i64 sym sc.toNat (off + y)) ∧
      WritesG (.sub false d a b) s d (Reg.eph .i64 sym sc.toNat (off - y)) ∧
      (sc.toInt * y.toInt ≠ 0 → -(2 ^ 47) ≤ sc.toInt * y.toInt → sc.toInt * y.toInt < 2 ^ 47 →
        WritesG (.mul false 0 d a b) s d
          (Reg.eph .i64 sym (BitVec.ofInt 48 (sc.toInt * y.toInt)).toNat (off * y)))) ∧
    ∀ (sc2 : BitVec 48), s.me.readG b = Reg.eph .i64 sym sc2.toNat y → sc.toInt + sc2.toInt ≠ 0 →
      -(2 ^ 47) ≤ sc.toInt + sc2.toInt → sc.toInt + sc2.toInt < 2 ^ 47 →
      WritesG (.add false d a b) s d (Reg.eph .i64 sym (BitVec.ofInt 48 (sc.toInt + sc2.toInt)).toNat (off + y))

/-! ## Capabilities and ephemerides -/

/-- R91: ADD, SUB and ADDI carry a capability to a value within its bounds, both ends included, and drop it elsewhere. R128
to R132: the capability instructions. CBND's exponent g is the smallest that R129 allows. -/
def Obligations.CapabilityResults : Prop :=
  (∀ (s : State) (d a b : GReg) (imm : BitVec 15) (v info y : Word),
    s.me.readG a = ⟨.cap, v, info⟩ → s.me.readG b = Reg.data y →
    let carried (u : Word) : Reg :=
      if capBase info v ≤ (u.toNat : Int) ∧ (u.toNat : Int) ≤ capTop info v then ⟨.cap, u, info⟩ else Reg.data u
    (s.issues { reads := [.g a, .g b], writes := [.g d] } →
      WritesG (.add false d a b) s d (carried (v + y)) ∧ WritesG (.sub false d a b) s d (carried (v - y)) ∧
      WritesG (.add true d a b) s d (Reg.data (((v + y).truncate 32).signExtend 64))) ∧
    (s.issues { reads := [.g a], writes := [.g d] } → WritesG (.addi d a imm) s d (carried (v + imm.signExtend 64)))) ∧
  ((∀ (s : State) (d a : GReg), s.issues { reads := [.g a], writes := [.g d] } →
    (∀ (v info : Word) (sel : Fin 8), s.me.readG a = ⟨.cap, v, info⟩ →
      WritesG (.cget d a sel) s d (Reg.data (cgetValue info v sel)) ∧ WritesG (.ctag d a) s d (Reg.data 1) ∧
      WritesG (.cstrip d a) s d (Reg.data v)) ∧
    (∀ (v : Word) (sel : Fin 8), s.me.readG a = Reg.data v →
      WritesG (.cget d a sel) s d (Reg.data 0) ∧ WritesG (.ctag d a) s d (Reg.data 0) ∧
      WritesG (.cstrip d a) s d (Reg.data v)) ∧
    ((s.me.readG a).tag = .pois → WritesG (.ctag d a) s d (Reg.data 3) ∧
      WritesG (.cstrip d a) s d ⟨.pois, 0, (s.me.readG a).info⟩) ∧
    ((s.me.readG a).tag = .eph → Stalls (.ctag d a) s .operand ∧ Stalls (.cstrip d a) s .operand)) ∧
  (∀ (s : State) (d a b : GReg) (v : Word), s.issues { reads := [.g a, .g b], writes := [.g d] } →
    s.me.readG a = Reg.data v → (s.me.readG b).tag = .data ∨ (s.me.readG b).tag = .cap →
    WritesG (.cprm d a b) s d (Reg.data v)) ∧
  (∀ (s : State) (d a b : GReg) (v info y : Word), s.issues { reads := [.g a, .g b], writes := [.g d] } →
    s.me.readG a = ⟨.cap, v, info⟩ → (s.me.readG b).tag = .data ∨ (s.me.readG b).tag = .cap → (s.me.readG b).value = y →
    WritesG (.cprm d a b) s d ⟨.cap, v, info &&& (y <<< 56 ||| 0x00FFFFFFFFFFFFFF)⟩ ∧
    ((malformed info v ∨ y = 0) → WritesG (.cbnd d a b) s d (Reg.data v)) ∧
    ∀ g ≤ 40, malformed info v = false → y ≠ 0 →
      (v.toNat + y.toNat + 2 ^ g - 1) / 2 ^ g - v.toNat / 2 ^ g ≤ 2 ^ 25 - 1 →
      (∀ h < g, 2 ^ 25 - 1 < (v.toNat + y.toNat + 2 ^ h - 1) / 2 ^ h - v.toNat / 2 ^ h) →
      capBase info v ≤ (v.toNat / 2 ^ g * 2 ^ g : Nat) →
      (((v.toNat + y.toNat + 2 ^ g - 1) / 2 ^ g * 2 ^ g : Nat) : Int) ≤ capTop info v →
      ∃ m : Word, WritesG (.cbnd d a b) s d ⟨.cap, v, m⟩ ∧ m >>> 56 = info >>> 56 ∧ capG m = g ∧
        capB m = v.toNat / 2 ^ g % 2 ^ 25 ∧
        capL m = (v.toNat + y.toNat + 2 ^ g - 1) / 2 ^ g - v.toNat / 2 ^ g))

/-- R128, R91: no instruction that makes a capability from one widens its bounds or adds a permission. -/
def Obligations.CapabilitiesNeverWiden : Prop :=
  ∀ (s t : State) (d a b : GReg) (imm : BitVec 15) (i : Instr),
    i ∈ [Instr.cbnd d a b, .cprm d a b, .add false d a b, .sub false d a b, .addi d a imm, .mov d a] →
    s.issues { reads := [.g a, .g b], writes := [.g d] } → (s.me.readG b).tag = .data → (s.me.readG a).tag = .cap →
    exec i s = .next t → (t.me.readG d).tag = .cap →
    capBase (s.me.readG a).info (s.me.readG a).value ≤ capBase (t.me.readG d).info (t.me.readG d).value ∧
    capTop (t.me.readG d).info (t.me.readG d).value ≤ capTop (s.me.readG a).info (s.me.readG a).value ∧
    ∀ p : Perm, hasPerm (t.me.readG d).info p → hasPerm (s.me.readG a).info p

/-- R134 to R136: EWAIT ends when no EPH is left, ESTAT writes the snapshot of the symbol table, EDROP makes every register
of the symbol POIS and frees it. -/
def Obligations.EphemerisInstructions : Prop :=
  (∀ (s : State) (r : GFReg), r ≠ .g 0 → s.issues { reads := [gfName r] } →
    ((s.me.readGF false r).tag ≠ .eph → Passes (.ewait r) s) ∧
    ((s.me.readGF false r).tag = .eph → Stalls (.ewait r) s .ewait)) ∧
  (∀ (s : State), s.issues { reads := allNames } →
    ((∀ r : GReg, s.me.g[r.val].tag ≠ .eph) ∧ (∀ r : FReg, s.me.f[r.val].tag ≠ .eph) → Passes (.ewait (.g 0)) s) ∧
    ((∃ r : GReg, s.me.g[r.val].tag = .eph) ∨ (∃ r : FReg, s.me.f[r.val].tag = .eph) → Stalls (.ewait (.g 0)) s .ewait)) ∧
  (∀ (s : State) (d : GReg), s.issues { writes := [.g d] } →
    ∃ v : Word, WritesG (.estat d) s d (Reg.data v) ∧
      (v >>> 32).toNat = (s.me.sym.toList.filter fun e => e.state == .free).length ∧
      ∀ k : Fin 32, v.getLsbD k.val = (s.me.sym[k.val].state == .pending)) ∧
  (∀ (s : State) (r : GFReg) (x : Reg), s.me.readGF false r = x →
    (x.tag ≠ .eph → s.issues { reads := [gfName r] } → Passes (.edrop r) s) ∧
    (x.tag = .eph → s.issues { reads := [gfName r], writes := s.me.holders (symOf x) } →
      ∃ t : State, exec (.edrop r) s = .next t ∧ t.me.pc = s.me.pc + 4 ∧ OnlyCore s t s.cur ∧
        t.me.sym[(symOf x).val].state = .free ∧ t.me.sym[(symOf x).val].gen = s.me.sym[(symOf x).val].gen ∧
        (∀ q : GReg, t.me.g[q.val] = if s.me.g[q.val].tag = .eph ∧ symOf s.me.g[q.val] = symOf x
          then ⟨.pois, 0, 3 <<< 56⟩ else s.me.g[q.val]) ∧
        ∀ q : FReg, t.me.f[q.val] = if s.me.f[q.val].tag = .eph ∧ symOf s.me.f[q.val] = symOf x
          then ⟨.pois, 0, 3 <<< 56⟩ else s.me.f[q.val]))

/-! ## Control -/

/-- R137, R105: the branches; on a POIS operand those on values fault with poison, DETAIL 2. R138: J, JAL and JALR, the link
among them; JALR reads a before it writes d. -/
def Obligations.BranchAndJumpResults : Prop :=
  ((∀ p ∈ branchRows, ∀ (s : State) (a b : GReg) (off : BitVec 12) (x y : Word), s.issues { reads := [.g a, .g b] } →
    ((s.me.readG a).tag = .pois ∨ (s.me.readG b).tag = .pois → Faults (p.1 a b off) s 7 2 s.me.pc) ∧
    ((s.me.readG a).value = x → (s.me.readG b).value = y → (s.me.readG a).tag ∈ [Tag.data, .cap] →
      (s.me.readG b).tag ∈ [Tag.data, .cap] →
      (p.2 x y → Jumps (p.1 a b off) s (s.me.pc + off.signExtend 64 * 2)) ∧
      (¬ p.2 x y → Passes (p.1 a b off) s))) ∧
  (∀ (s : State) (a : GReg) (mask : BitVec 4) (off : BitVec 12), s.issues { reads := [.g a] } →
    (s.me.readG a).tag ≠ .eph →
    let code : Nat := match (s.me.readG a).tag with | .data => 0 | .cap => 1 | .eph => 2 | .pois => 3
    (mask.getLsbD code = true → Jumps (.btag a mask off) s (s.me.pc + off.signExtend 64 * 2)) ∧
    (mask.getLsbD code = false → Passes (.btag a mask off) s))) ∧
  ((∀ (s : State) (off : BitVec 25), s.issues {} → Jumps (.j off) s (s.me.pc + off.signExtend 64 * 2)) ∧
  (∀ (s : State) (off : BitVec 25) (t : State), s.issues { writes := [.g 1] } →
    Jumps (.jal off) s (s.me.pc + off.signExtend 64 * 2) [.g 1] ∧
    ((s.me.pc + off.signExtend 64 * 2).getLsbD 0 = false → exec (.jal off) s = .next t →
      t.me.readG 1 = Reg.data (s.me.pc + 4))) ∧
  (∀ (s : State) (d a : GReg) (imm : BitVec 15) (t : State), s.issues { reads := [.g a], writes := [.g d] } →
    (s.me.readG a).tag ≠ .eph → (s.me.readG a).tag ≠ .pois →
    ((s.me.readG a).tag = .cap → capFault (s.me.readG a) ((s.me.readG a).value + imm.signExtend 64).toNat 2 [.x] = 0) →
    Jumps (.jalr d a imm) s ((s.me.readG a).value + imm.signExtend 64) [.g d] ∧
    (((s.me.readG a).value + imm.signExtend 64).getLsbD 0 = false → exec (.jalr d a imm) s = .next t →
      t.me.readG d = written d (Reg.data (s.me.pc + 4)))))

/-- R113, R139, R142, R145: RGN and C.RGN with a valid record and no EPH left in its live-in set begin the region. What the late
values in that set bring is acquired (R363); that every reader of such a register counts as waiting for it is log 89. -/
def Obligations.RegionBegins : Prop :=
  ∀ (s u : State) (off : BitVec 25) (off2 : BitVec 11) (i : Instr) (dist : Word) (len : Nat) (bs : List Byte) (gm : BitVec 32)
    (fm vm : BitVec 16) (tm : BitVec 8) (zm : BitVec 4) (a : Act),
    (i, dist, len) ∈ [(Instr.rgn off, off.signExtend 64, 4), (.cRgn off2, off2.signExtend 64, 2)] →
    s.issues { rgn := true, len := len } → s.me.act = some a →
    let record := (s.me.pc &&& ~~~(15 : Word)) + dist * 16
    s.fetch s.cur record.toNat 16 = (.ok bs, u) →
    leNat bs = gm.toNat + fm.toNat * 2 ^ 32 + vm.toNat * 2 ^ 48 + tm.toNat * 2 ^ 64 + zm.toNat * 2 ^ 72 + 2 ^ 80 →
    gm.getLsbD 0 = false → fm.getLsbD 0 = false →
    (∀ w ∈ s.me.windows, w.len ≤ w.pos ∨ ((∀ r : GReg, gm.getLsbD r.val = true → RegName.g r ∉ w.regs) ∧
      ∀ r : FReg, fm.getLsbD r.val = true → RegName.f r ∉ w.regs)) →
    (∀ r : GReg, gm.getLsbD r.val = true → s.me.g[r.val].tag ≠ .eph) →
    (∀ r : FReg, fm.getLsbD r.val = true → s.me.f[r.val].tag ≠ .eph) →
    ∃ t : State, exec i s = .next t ∧ t.me.pc = s.me.pc + BitVec.ofNat 64 len ∧ t.me.wait = none ∧ t.me.rgnpc = s.me.pc ∧
      t.me.rgnrec = record ∧ t.me.regionNo = s.me.regionNo + 1 ∧
      t.me.act = some { a with
        entry := false
        gmask := gm
        fmask := fm
        vmask := vm
        tmask := tm
        zmask := zm
        commit := false } ∧
      (∀ x ∈ t.me.owed, x ∈ s.me.owed ∧ (∀ r, x.1 = .g r → gm.getLsbD r.val = false) ∧ ∀ r, x.1 = .f r → fm.getLsbD r.val = false) ∧
      s.me.KeepsBut { t.me with
        rgnpc := s.me.rgnpc
        rgnrec := s.me.rgnrec
        regionNo := s.me.regionNo
        act := s.me.act
        icache := s.me.icache
        tlb := s.me.tlb
        obs := s.me.obs } [] ∧
      (s.me.owed = [] → t.me.obs = s.me.obs) ∧
      ∀ j, j ≠ s.cur → t.core j = s.core j

/-! ## System instructions -/

/-- R147, R149: NOP has no effect; TRAP and BRK raise their faults with the low byte of the code in DETAIL and the whole
code in the message. R148, R82: HEND ends an activation that is no far body, TRET ends a far body: the core has no
activation, window or pinned slot left, every symbol is free, and its other registers stay. In the other kind each raises
the not-task fault. -/
def Obligations.TrapsAndActivationEnds : Prop :=
  (∀ (s : State), s.issues {} → Passes .nop s ∧
    ∀ code : BitVec 14, Faults (.trap code) s 11 (code.toNat % 256) s.me.pc code.toNat ∧
      Faults (.brk code) s 12 (code.toNat % 256) s.me.pc code.toNat) ∧
  (∀ (s : State) (a : Act), s.issues { commit := true } → s.me.act = some a →
    let ends (i : Instr) : Prop := ∃ t : State, exec i s = .next t ∧ t.me.act = none ∧ t.me.windows = [] ∧ t.me.wait = none ∧
      t.me.buf = [] ∧ t.me.ldes = [] ∧ t.me.pinned = none ∧
      (∀ slot, s.me.pinned = some slot → t.me.slots[slot.val] = .free) ∧
      (∀ e ∈ t.me.sym.toList, e.state = .free) ∧
      (∀ r : GReg, (s.me.readG r).tag ≠ .eph → t.me.readG r = s.me.readG r) ∧ t.me.special = s.me.special
    ((∀ r, a.kind ≠ .task r) → ends .hend ∧ ends .cHend ∧
      exec .tret s = .next ((s.settleLdes s.cur).coreFault 10 1 s.me.pc)) ∧
    ((∃ r, a.kind = .task r) → ends .tret ∧ ends .cTret ∧
      exec .hend s = .next ((s.settleLdes s.cur).coreFault 10 2 s.me.pc)))

/-- R151: TLBI drops the entries of the page, or of the address space; the cache instructions drop or clean the lines that lie
in the mapped part of the range, and a dirty line is written back before it is dropped. -/
def Obligations.CacheInstructions : Prop :=
  (∀ (s : State) (a : GReg), s.issues { reads := [.g a] } →
    (s.me.readG a).tag ≠ .eph → (s.me.readG a).tag ≠ .pois →
    ∃ t : State, exec (.tlbi a) s = .next t ∧ t.me.pc = s.me.pc + 4 ∧ OnlyCore s t s.cur ∧
      s.me.KeepsBut { t.me with tlb := s.me.tlb } [] ∧
      t.me.tlb = s.me.tlb.filter fun e => e.asid != s.me.asid ||
        (a != 0 && (decide ((s.me.readG a).value.toNat < e.va) || decide (e.va + e.size ≤ (s.me.readG a).value.toNat)))) ∧
  (∀ (s : State) (a b : GReg), s.issues { reads := [.g a, .g b] } →
    (s.me.readG a).tag ≠ .eph → (s.me.readG a).tag ≠ .pois → (s.me.readG b).tag ≠ .eph → (s.me.readG b).tag ≠ .pois →
    let n := (s.me.readG b).value.toNat
    let spans := (s.spansOf s.cur (s.me.readG a).value.toNat n).1
    let drained := ((s.drain s.cur).spansOf s.cur (s.me.readG a).value.toNat n).1
    (∃ t : State, exec (.icinv a b) s = .next t ∧ t.me.pc = s.me.pc + 4 ∧ (s.mem.upsets = [] → OnlyCore s t s.cur) ∧
      s.me.KeepsBut { t.me with icache := s.me.icache } [] ∧
      t.me.icache = if (a = 0 ∧ b = 0) ∨ 2 ^ 32 ≤ n then [] else s.me.icache.filter fun l => !l.inSpans spans) ∧
    Runs (.dcwb a b) s [] (fun t => ∀ l ∈ t.me.dcache, l.inSpans drained → l.dirty = false) ∧
    Runs (.dcinv a b) s [] (fun t => ∀ l ∈ t.me.dcache, l.inSpans drained = false) ∧
    ∀ l, s.mem.wf → s.me.buf = [] → s.me.dcache = [l] → l.dirty → l.inSpans spans → l.bytes.length = 64 →
      ∀ i ∈ [Instr.dcwb a b, Instr.dcinv a b], ∀ t, exec i s = .next t →
        (∀ j (h : j < l.bytes.length), t.mem.byte (l.base + j) = l.bytes[j]) ∧
        ∀ x, (x < l.base ∨ l.base + 64 ≤ x) → t.mem.byte x = s.mem.byte x)

/-- R101, R102, R150: SRR reads every system register; SRW and SRX leave a read-only register alone and write MWGT, DSEED and
DKEEP, 0 to MWGT as 1; SRX returns the old value. -/
def Obligations.SystemRegisters : Prop :=
  (∀ (s : State) (d : GReg) (r : SysReg), s.issues { writes := [.g d] } → WritesG (.srr d r) s d (Reg.data (sysRow s r))) ∧
  (∀ (s : State) (d a : GReg) (r : SysReg), s.issues { reads := [.g a], writes := [.g d] } →
    (s.me.readG a).tag ≠ .eph → (s.me.readG a).tag ≠ .pois →
    let x := (s.me.readG a).value
    (r ∉ [SysReg.mwgt, .dseed, .dkeep] → Passes (.srw r a) s ∧ WritesG (.srx d r a) s d (Reg.data (sysRow s r))) ∧
    (r ∈ [SysReg.mwgt, .dseed, .dkeep] →
      ∀ p ∈ [(Instr.srw r a, (none : Option GReg)), (Instr.srx d r a, some d)], ∃ t : State, exec p.1 s = .next t ∧
        t.me.pc = s.me.pc + 4 ∧ OnlyCore s t s.cur ∧
        s.me.KeepsBut { t.me with
          mwgt := s.me.mwgt
          dseed := s.me.dseed
          dkeep := s.me.dkeep } (p.2.toList.map RegName.g) ∧
        (∀ e, p.2 = some e → t.me.readG e = written e (Reg.data (sysRow s r))) ∧
        t.me.mwgt = (if r = .mwgt then (if x.truncate 4 = (0 : BitVec 4) then 1 else x.truncate 4) else s.me.mwgt) ∧
        t.me.dseed = (if r = .dseed then x else s.me.dseed) ∧
        t.me.dkeep = (if r = .dkeep then x.truncate 32 else s.me.dkeep)))

/-! ## Faults and issue rules -/

/-- R370, R371: taking a fault: the cause and the 48 bits of the address (R102), the end of the activation with its symbols, windows and pinned slot,
and the fault message to the supervisor in the partition. -/
def Obligations.FaultIsTaken : Prop :=
  ∀ (s : State) (k cause detail code : Nat) (addr : Word) (a : Act), (s.core k).act = some a →
    let t := s.faultAt k cause detail addr code
    (t.core k).fcause = BitVec.ofNat 16 (detail * 256 + cause) ∧ (t.core k).faddr = (addr.truncate 48).zeroExtend 64 ∧
    (t.core k).act = none ∧
    (t.core k).windows = [] ∧ (t.core k).pinned = none ∧
    (∀ slot, (s.core k).pinned = some slot → (t.core k).slots[slot.val] = .free) ∧
    (∀ e ∈ (t.core k).sym.toList, e.state = .free) ∧
    (∀ r : GReg, ((s.core k).readG r).tag ≠ .eph → (t.core k).readG r = (s.core k).readG r) ∧
    ∀ x, mget s.launches a.launch = some x → x.counts.members < 2 ^ 32 - 1 → s.inPartition x.vf x.desc.super →
      ∃ f ∈ t.flights, f.packet.kind = .fault ∧ f.packet.member = true ∧ f.packet.msg.dest = x.desc.super ∧
        f.packet.msg.cls = x.desc.fclass ∧ f.packet.msg.pri = x.desc.pri ∧ f.packet.msg.launch = a.launch ∧
        f.packet.msg.flags = 0x20 ∧ f.packet.msg.ptag = 0 ∧
        f.packet.msg.m[0] = BitVec.ofNat 64 (code * 2 ^ 48 +
          (match s.actTcb a with | some n => n * 2 ^ 30 + 2 ^ 29 | none => 0) + k % 2 ^ 13 * 2 ^ 16 + detail % 256 * 256 +
          cause) ∧
        f.packet.msg.m[1] = (addr.truncate 48).zeroExtend 64 ∧ f.packet.msg.m[2] = (s.core k).pc ∧ f.packet.msg.m[3] = (s.core k).rgnpc ∧
        f.packet.msg.m[4] = (match s.actTcb a with | some n => (s.tcb n).user | none => 0) ∧
        f.packet.msg.m[5] = BitVec.ofNat 64 (s.rc * 5 / 6)

/-- R116, R117, R119, R143, R145: what keeps an instruction from having its effect: a window whose tile is still to be written,
a violated window, an instruction after a commit, a write to a live-in register or tile, and X64 on a base core, in this order. That order is
log 21; that DETAIL is the position in the oldest of several violated windows is the model's choice (log 60). -/
def Obligations.IssueRules : Prop :=
  ∀ (s : State) (i : Issue) (body : State → Res) (a : Act), s.me.act = some a →
    (s.lookBlocked i = true → s.issue i body = .next (s.setMe { s.me with wait := some .lookahead })) ∧
    (s.lookBlocked i = false →
      (∀ before w after, s.me.windows = before ++ w :: after →
        (∀ v ∈ before, v.len ≤ v.pos ∨ ∀ r ∈ v.regs, r ∉ i.reads ∧ r ∉ i.writes) →
        w.pos < w.len → (∃ r ∈ w.regs, r ∈ i.reads ∨ r ∈ i.writes) →
        s.issue i body = .next (s.coreFault 2 (w.pos + 1) s.me.pc)) ∧
      ((∀ w ∈ s.me.windows, w.len ≤ w.pos ∨ ∀ r ∈ w.regs, r ∉ i.reads ∧ r ∉ i.writes) →
        (a.commit = true → i.rgn = false → s.issue i body = .next (s.coreFault 8 2 s.me.pc)) ∧
        (a.commit = false →
          ((∃ r, RegName.g r ∈ i.writes ∧ a.gmask.getLsbD r.val = true) ∨
            (∃ r, RegName.f r ∈ i.writes ∧ a.fmask.getLsbD r.val = true) ∨
            (∃ r, RegName.v r ∈ i.writes ∧ a.vmask.getLsbD r.val = true) ∨
            (∃ r, RegName.t r ∈ i.writes ∧ a.tmask.getLsbD r.val = true) →
            s.issue i body = .next (s.coreFault 8 1 s.me.pc)) ∧
          ((∀ r ∈ i.writes, a.liveIn r = false) → i.x64 = true → s.cur % 128 < 88 →
            s.issue i body = .next (s.setMe { s.me with wait := some .migration })))))

/-- R118, R104: an illegal encoding raises its fault before any effect, and a step whose fetch meets one takes that fault. That it
comes before the wait for lookahead instructions and the checks of windows, commit and live-ins is log 21; that the step takes one
reference cycle is the model's choice (logs 4 and 6). -/
def Obligations.IllegalEncodings : Prop :=
  (∀ (s : State) (detail : Nat), s.me.act.isSome → Faults (.illegalInstruction detail) s 1 detail s.me.pc) ∧
  (∀ (s u : State) (detail : Nat), s.me.act.isSome → s.me.wait = none → s.agenda = [] → s.nearCur = none →
    s.idles s.cur = false → s.preempts s.cur = false → s.fetchInstr s.cur s.me.pc.toNat = (.ok (.error detail), u) → u.me.act.isSome →
    step s = .next (u.coreFault 1 detail u.me.pc).tick)

/-! ## Memory instructions -/

/-- R219, R223, R224, R226, R227: the loads complete where their access is permitted, aligned and translated, with the
register that what the core reads gives them; they store nothing. R225: LDE gives its register an ephemeris and leaves the
read to be performed later. -/
def Obligations.LoadResults : Prop :=
  (∀ (s u : State) (a b : GReg) (va : Nat) (p : Place), (s.me.readG a).tag ≠ .eph → (s.me.readG b).tag ≠ .eph →
    (s.me.readG b).tag ≠ .pois →
    let x := s.me.readG a
    let addr := x.value + (s.me.readG b).value
    (∀ (t : Ty) (l : Look) (d : Fin 32), (Instr.ld t l d a b).wf →
      s.issues { reads := [.g a, .g b], writes := [rawName t.inF d], look := l.val } →
      s.Reaches x addr (tyBytes t) [.r] [.read] va p u →
      let r := u.load s.cur p.pa (tyBytes t) (cachedPlace p)
      Runs (.ld t l d a b) s [rawName t.inF d] fun v => v.mem = r.2.mem ∧
        v.me.readRaw t.inF (t == .f64) d =
          if d.val = 0 then s.me.readRaw t.inF (t == .f64) d else r.1.reg s.cur va p.pa t) ∧
    (∀ (t : Ty) (d : GReg), (Instr.ldacq t d a b).wf → s.issues { reads := [.g a, .g b], writes := [.g d] } →
      s.Reaches x addr (tyBytes t) [.r] [.read] va p u →
      let r := (u.bypass p).load s.cur p.pa (tyBytes t) false
      Runs (.ldacq t d a b) s [.g d] fun v =>
        v.mem = (if r.1.own then r.2 else r.2.acquireAt s.cur p.pa (tyBytes t)).mem ∧ v.me.readG d = written d (r.1.reg s.cur va p.pa t)) ∧
    (∀ (l : Look) (d : GReg), s.issues { reads := [.g a, .g b], writes := [.g d], look := l.val } →
      s.Reaches x addr 16 [.r] [.read] va p u →
      let r := u.load s.cur p.pa 16 (cachedPlace p)
      Runs (.ldc l d a b) s [.g d] fun v => v.mem = r.2.mem ∧
        v.me.readG d = written d (r.1.capReg s.cur va p.pa (hasPerm x.info .lcap))) ∧
    ∀ (l : Look) (d : VecReg), s.issues { reads := [.g a, .g b], writes := [.v d], look := l.val } →
      s.Reaches x addr 32 [.r] [.read] va p u →
      let r := u.load s.cur p.pa 32 (cachedPlace p)
      Runs (.ldv l d a b) s [.v d] fun v => v.mem = r.2.mem ∧
        (v.me.readV d).pois = lanePois r.1.marks ∧
        ∀ j < 8, (lanePois r.1.marks).getLsbD j = false →
          elem (v.me.readV d).value 32 j = elem (BitVec.ofNat 256 (leNat r.1.bytes)) 32 j) ∧
  (∀ (s u : State) (t : Ty) (d : Fin 32) (a b : GReg) (va : Nat) (p : Place) (i : Fin 32),
    (Instr.lde t d a b).wf → (s.me.readG a).tag ≠ .eph → (s.me.readG b).tag ≠ .eph →
    (s.me.readG b).tag ≠ .pois → s.issues { reads := [.g a, .g b], writes := [rawName t.inF d] } →
    s.Reaches (s.me.readG a) ((s.me.readG a).value + (s.me.readG b).value) (tyBytes t) [.r] [.read] va p u →
    (∀ e ∈ s.me.buf, e.acquire = false ∧ e.meets p.pa (tyBytes t) = false) →
    (d.val = 0 → Runs (.lde t d a b) s [] fun v => v.mem = u.mem ∧ v.me.sym = s.me.sym ∧
      v.me.ldes = s.me.ldes ++ [⟨va, p.pa, t, cachedPlace p, none, 0⟩]) ∧
    (d.val ≠ 0 → s.me.freeSym = some i → Runs (.lde t d a b) s [rawName t.inF d] fun v => v.mem = u.mem ∧
      v.me.readRaw t.inF false d = Reg.newEph (if t = .f32 then .f32 else if t = .s32 then .i32 else .i64) i ∧
      v.me.sym[i.val].state = .pending ∧
      v.me.ldes = s.me.ldes ++ [⟨va, p.pa, t, cachedPlace p, some ⟨i, s.me.sym[i.val].gen + 1⟩, 0⟩]))

/-- R213, R223, R224, R232: what a load reads and what register it gives: memory's bytes as the core sees them where no buffered
store meets the access, the bytes of the youngest buffered store where it holds them all; a buffered atomic of its bytes, or store of
some of them, leaves the buffer first, and nothing after it does; sign or zero extension by the type;
POIS with the origin of the mark, 7 where the core's own buffered store gave it. -/
def Obligations.LoadedValues : Prop :=
  (∀ (s : State) (k pa n : Nat), s.mem.upsets = [] → (∀ e ∈ (s.core k).buf, e.acquire = false ∧ e.meets pa n = false) →
    (s.load k pa n false).1.bytes = (List.range' pa n).map (fun a => s.mem.view (.core k) a) ∧
    (s.load k pa n false).1.tag = s.mem.viewTag (.core k) (pa / 16) ∧
    (s.load k pa n false).2.mem = s.mem) ∧
  (∀ (s : State) (k pa n data : Nat) (e : BufEntry) (pois : BitVec 4) (tag : Bool) (before after : List BufEntry) (c : Bool),
    (s.core k).buf = before ++ e :: after → e.op = .store data pois tag → e.pa ≤ pa → pa + n ≤ e.pa + e.size → 0 < n →
    (∀ f ∈ after, f.meets pa n = false) → (∀ f ∈ (s.core k).buf, f.acquire = false) →
    leNat (s.load k pa n c).1.bytes = data / 256 ^ (pa - e.pa) % 256 ^ n ∧
    ((∀ f ∈ before, f.meets pa n = true → ∃ d q g, f.op = .store d q g ∧ f.pa ≤ pa ∧ pa + n ≤ f.pa + f.size) →
      (s.load k pa n c).2 = s)) ∧
  (∀ (s : State) (k pa n : Nat) (e : BufEntry) (before after : List BufEntry),
    (s.core k).buf = before ++ e :: after → e.meets pa n = true →
    ((∀ d q g, e.op ≠ .store d q g) ∨ pa < e.pa ∨ e.pa + e.size < pa + n) →
    (∀ f ∈ after, f.acquire = false ∧ (f.meets pa n = true → ∃ d q g, f.op = .store d q g ∧ f.pa ≤ pa ∧ pa + n ≤ f.pa + f.size)) →
    ((s.load k pa n false).2.core k).buf = after ∧
    (s.mem.upsets = [] → (s.load k pa n false).2.mem = (State.performN k (before.length + 1) s).mem)) ∧
  (∀ (x : Loaded) (k va pa : Nat) (t : Ty), (Instr.ld t 0 0 0 0).wf → (∀ m ∈ x.marks, m = none) →
    x.reg k va pa t = Reg.data (if t ∈ [Ty.s64, .s32, .s16, .s8]
      then (BitVec.ofNat (8 * tyBytes t) (leNat x.bytes)).signExtend 64 else BitVec.ofNat 64 (leNat x.bytes))) ∧
  ∀ (bytes : List Byte) (tag own : Bool) (m : Mark) (k va pa : Nat) (t : Ty),
    (Loaded.reg ⟨bytes, [some m], tag, own⟩ k va pa t).tag = .pois ∧
    (Loaded.reg ⟨bytes, [some m], tag, own⟩ k va pa t).info = BitVec.ofNat 64 ((if own then 7 else match sliceOf (pa / 8 * 8) with
      | some j => if domeOf j ≠ domeOf k then 6 else if m = .hardware then 1 else 7
      | none => if m = .hardware then 2 else 7) * 2 ^ 56 + va / 8 * 8 % 2 ^ 48)

/-- R229 to R232: the stores complete: their entry joins the store buffer with its place, bytes and poison, that of STREL with the
writes that the core had read or acquired (R361); memory changes only when an entry leaves the buffer. -/
def Obligations.StoreResults : Prop :=
  ∀ (s u : State) (a b : GReg) (va : Nat) (p : Place), (s.me.readG a).tag ≠ .eph → (s.me.readG b).tag ≠ .eph →
    (s.me.readG b).tag ≠ .pois →
    let x := s.me.readG a
    let addr := x.value + (s.me.readG b).value
    let entry (size data : Nat) (pois : BitVec 4) (tag rel : Bool) (prior : List Nat) : BufEntry := {
      va := va
      pa := p.pa
      size := size
      scope := p.sc
      cached := cachedPlace p && !rel
      bypass := cachedPlace p && rel
      acquire := false
      release := rel
      op := .store data pois tag
      prior := prior }
    (∀ (t : Ty) (c : Fin 32), (Instr.st t c a b).wf → s.issues { reads := [.g a, .g b, rawName t.inF c] } →
      s.Reaches x addr (tyBytes t) [.w] [.write] va p u →
      let z := s.me.readRaw t.inF (t == .f64) c
      z.tag ≠ .eph →
      Runs (.st t c a b) s [] fun v => v.mem = u.makeRoom.mem ∧
        v.me.buf = u.makeRoom.me.buf ++
          [entry (tyBytes t) (z.value.toNat % 256 ^ tyBytes t) (if z.tag = .pois then 1 else 0) false false []]) ∧
    (∀ (t : Ty) (c : GReg), (Instr.strel t c a b).wf → s.issues { reads := [.g a, .g b, .g c] } →
      s.Reaches x addr (tyBytes t) [.w] [.write] va p u →
      let z := s.me.readG c
      let w := (u.settleLdes s.cur).makeRoom
      z.tag ≠ .eph →
      Runs (.strel t c a b) s [] fun v => v.mem = w.mem ∧ v.me.buf = w.me.buf ++
        [entry (tyBytes t) (z.value.toNat % 256 ^ tyBytes t) (if z.tag = .pois then 1 else 0) false true w.me.obs]) ∧
    (∀ (c : GReg), s.issues { reads := [.g a, .g b, .g c] } → s.Reaches x addr 16 [.w] [.write] va p u →
      let z := s.me.readG c
      z.tag ≠ .eph →
      (z.tag = .cap → hasPerm x.info .scap = false → exec (.stc c a b) s = .next (u.coreFault 5 4 addr)) ∧
      ((z.tag = .cap → hasPerm x.info .scap = true) →
        Runs (.stc c a b) s [] fun v => v.mem = u.makeRoom.mem ∧ v.me.buf = u.makeRoom.me.buf ++
          [entry 16 (if z.tag = .cap then z.value.toNat + 2 ^ 64 * z.info.toNat else z.value.toNat)
            (if z.tag = .pois then 3 else 0) (z.tag == .cap) false []])) ∧
    ∀ (c : VecReg), s.issues { reads := [.g a, .g b, .v c] } → s.Reaches x addr 32 [.w] [.write] va p u →
      let z := s.me.readV c
      ∃ pois : BitVec 4, Runs (.stv c a b) s [] (fun v => v.mem = u.makeRoom.mem ∧
        v.me.buf = u.makeRoom.me.buf ++ [entry 32 z.value.toNat pois false false []]) ∧
        ∀ j : Fin 4, pois.getLsbD j.val = (z.pois.getLsbD (2 * j.val) || z.pois.getLsbD (2 * j.val + 1))

/-- R219, R223: the checks of an access in their order, for LD of every type: the wait for an EPH, a poisoned operand, the capability,
the alignment, the stack window's overflow, the translation. -/
def Obligations.AccessFaults : Prop :=
  ∀ (s : State) (t : Ty) (l : Look) (d : Fin 32) (a b : GReg), (Instr.ld t l d a b).wf →
    s.issues { reads := [.g a, .g b], writes := [rawName t.inF d], look := l.val } →
    let x := s.me.readG a
    let addr := x.value + (s.me.readG b).value
    let i := Instr.ld t l d a b
    (x.tag = .eph ∨ (s.me.readG b).tag = .eph → Stalls i s .operand) ∧
    (x.tag = .pois ∨ (s.me.readG b).tag = .pois → x.tag ≠ .eph → (s.me.readG b).tag ≠ .eph → Faults i s 7 1 s.me.pc) ∧
    (x.tag ≠ .pois → (s.me.readG b).tag ≠ .pois → x.tag ≠ .eph → (s.me.readG b).tag ≠ .eph →
      (x.tag ≠ .cap → Faults i s 5 1 addr) ∧
      (x.tag = .cap →
        (malformed x.info x.value → Faults i s 5 2 addr) ∧
        (malformed x.info x.value = false →
          ((addr.toNat : Int) < capBase x.info x.value ∨ capTop x.info x.value < (addr.toNat + tyBytes t : Nat) →
            Faults i s 5 3 addr) ∧
          (capBase x.info x.value ≤ (addr.toNat : Int) → (addr.toNat + tyBytes t : Nat) ≤ capTop x.info x.value →
            (hasPerm x.info .r = false → Faults i s 5 4 addr) ∧
            (hasPerm x.info .r = true → addr.toNat % tyBytes t ≠ 0 → Faults i s 4 0 addr) ∧
            (hasPerm x.info .r = true → addr.toNat % tyBytes t = 0 →
              (s.redirect s.cur addr.toNat = .overflow → Faults i s 9 0 addr) ∧
              ∀ u detail, s.redirect s.cur addr.toNat = .same → s.translate s.cur addr.toNat [.read] = (.error detail, u) →
                exec i s = .next (u.coreFault 6 detail addr))))))

/-- R203, R229, R359: the head store leaves the buffer: its bytes stand in memory little-endian, and no other byte changes.
R235 to R239: an atomic is performed whole at the home of its word: the old value goes to its symbol, sign-extended, the new
one to memory, and no other byte changes. -/
def Obligations.StoresAndAtomicsPerformed : Prop :=
  (∀ (s : State) (k data : Nat) (e : BufEntry) (rest : List BufEntry) (pois : BitVec 4) (tag : Bool), s.mem.wf →
    (s.core k).buf = e :: rest → (s.core k).ldes = [] → e.op = .store data pois tag → e.cached = false → s.heldAt e.pa = false →
    (e.bypass = true → ∀ l ∈ (s.core k).dcache, l.base = e.pa / 64 * 64 → l.dirty = false) →
    ∀ i, i = (if e.isRemote k then Instr.remoteAccessService k else .storeAcknowledge k) →
    ∃ t : State, exec i s = .next t ∧ (t.core k).buf = rest ∧ t.mem.wf ∧
      (∀ j < e.size, t.mem.byte (e.pa + j) = BitVec.ofNat 8 (data / 256 ^ j)) ∧
      (∀ x, x < e.pa ∨ e.pa + e.size ≤ x → t.mem.byte x = s.mem.byte x) ∧ (s.core k).KeepsRegs (t.core k) []) ∧
  (∀ (s : State) (k : Nat) (e : BufEntry) (rest : List BufEntry), s.mem.wf → (s.core k).buf = e :: rest → (s.core k).ldes = [] → s.heldAt e.pa = false →
    (e.bypass = true → ∀ l ∈ (s.core k).dcache, l.base = e.pa / 64 * 64 → l.dirty = false) →
    (e.size = 4 ∨ e.size = 8) → s.mem.upsets = [] → s.mem.mark (e.pa / 8) = none →
    let old := leNat ((List.range' e.pa e.size).map s.mem.byte)
    let stands (i : Instr) (new : Nat) (res : Option SymRef) : Prop := ∃ t : State, exec i s = .next t ∧ (t.core k).buf = rest ∧
      t.mem.wf ∧ (∀ j < e.size, t.mem.byte (e.pa + j) = BitVec.ofNat 8 (new / 256 ^ j)) ∧
      (∀ x, x < e.pa ∨ e.pa + e.size ≤ x → t.mem.byte x = s.mem.byte x) ∧
      ∀ r, res = some r → t.arrivals = s.arrivals ++
        [⟨k, r, Reg.data (if e.size = 4 then (BitVec.ofNat 32 old).signExtend 64 else BitVec.ofNat 64 old), []⟩]
    (∀ q ∈ amoRows, ∀ (y : Nat) (res : Option SymRef), e.op = .amo q.2.1 y res → y < 256 ^ e.size →
      stands (.atomicAtHome k)
        (if e.size = 4 then (q.2.2 32 (BitVec.ofNat 32 old) (BitVec.ofNat 32 y)).toNat
          else (q.2.2 64 (BitVec.ofNat 64 old) (BitVec.ofNat 64 y)).toNat) res) ∧
    (∀ (x y : Nat) (res : Option SymRef), e.op = .cas x y res →
      stands (.atomicAtHome k) (if old = x then y else old) res) ∧
    ∀ (y : Nat), (e.op = .rwr .sum .s64 y → e.size = 8 → stands (.rwrAtHome k) ((old + y) % 2 ^ 64) none) ∧
      (e.op = .rwr .max .s64 y → e.size = 8 → y < 2 ^ 64 →
        stands (.rwrAtHome k) (if (BitVec.ofNat 64 old).toInt < (BitVec.ofNat 64 y).toInt then y else old) none))

/-- R111, R235 to R238: an atomic, a CAS and an RWR complete: they join the store buffer with their operands and order, and
register d receives an ephemeris. -/
def Obligations.AtomicInstructions : Prop :=
  ∀ (s u : State) (a b d : GReg) (o : Order) (w rel : Bool) (va : Nat) (p : Place),
    let s0 := s.settleLdes s.cur
    let x := s.me.readG a
    let y := s.me.readG b
    let n := if w then 4 else 8
    let entry (op : BufOp) (acq rel : Bool) (size : Nat) (obs : List Nat) : BufEntry := {
      va := va
      pa := p.pa
      size := size
      scope := p.sc
      cached := false
      bypass := cachedPlace p
      acquire := acq
      release := rel
      op := op
      prior := if rel then obs else [] }
    let acq := o = .acq ∨ o = .ar
    let rls := o = .rel ∨ o = .ar
    x.tag ≠ .eph → y.tag ≠ .eph → y.tag ≠ .pois →
    (∀ q ∈ amoRows, s.issues { reads := [.g a, .g b], writes := [.g d], commit := true } →
      s0.Reaches x x.value n [.r, .w, .atom] [.read, .write] va p u → s.symReady d →
      Runs (q.1 o w d a b) s [.g d] fun v => ∃ res, LateG s v d (if w then .i32 else .i64) res ∧
        v.me.buf.getLast? = some (entry (.amo q.2.1 (y.value.toNat % 256 ^ n) res) (decide acq) (decide rls) n v.me.obs) ∧
        (s0.me.buf.length < 16 → v.me.buf.length = s0.me.buf.length + 1 ∧ v.mem = u.mem)) ∧
    (∀ z, s.me.readG d = z → z.tag ≠ .eph → z.tag ≠ .pois →
      s.issues { reads := [.g a, .g b, .g d], writes := [.g d], commit := true } →
      s0.Reaches x x.value n [.r, .w, .atom] [.read, .write] va p u → s.symReady d →
      Runs (.cas o w d a b) s [.g d] fun v => ∃ res, LateG s v d (if w then .i32 else .i64) res ∧
        v.me.buf.getLast? = some (entry (.cas (z.value.toNat % 256 ^ n) (y.value.toNat % 256 ^ n) res) (decide acq) (decide rls) n v.me.obs)) ∧
    ∀ q ∈ rwrRows, ∀ (t : Ty) (c : Fin 32), (q.1 rel t a c).wf → s.issues { reads := [.g a, rawName t.inF c], commit := true } →
      s0.Reaches x x.value (tyBytes t) [.w, .atom] [.read, .write] va p u →
      let z := s.me.readRaw t.inF false c
      z.tag ≠ .eph → z.tag ≠ .pois →
      Runs (q.1 rel t a c) s [] fun v =>
        v.me.buf.getLast? = some (entry (.rwr q.2 t (z.value.toNat % 256 ^ tyBytes t)) false rel (tyBytes t) v.me.obs)

/-- R234, R361: FENCE leaves nothing pending, and every agent of its scope has seen every write of the core and every write that
it had read or acquired. R240, R241: WAITA completes with the value where it reads the expected one, and with POIS where it meets
poison; otherwise the core waits, watching the word. What its read must wait for leaves the buffer, with the entries before it, and nothing
after it does (R232, R357). -/
def Obligations.FenceAndWaitaResults : Prop :=
  (∀ (s : State) (a : GReg), s.issues { reads := [.g a] } → (s.me.readG a).tag ≠ .eph → (s.me.readG a).tag ≠ .pois →
    Runs (.fence a) s [] fun t => t.me.buf = [] ∧ t.me.ldes = [] ∧
      ∀ e ∈ t.mem.unseen, e.writer = .core s.cur ∨ e.id ∈ s.me.obs →
        ∀ v, (seerOf s.cur (s.fenceScope a (s.me.readG a)).1).covers v = true → e.seen v = true) ∧
  (∀ (s u : State) (t : Ty) (d a b : GReg) (va : Nat) (p : Place), (Instr.waita t d a b).wf →
    s.issues { reads := [.g a, .g b], writes := [.g d] } → (s.me.readG a).tag ≠ .eph → (s.me.readG b).tag ≠ .eph →
    (s.me.readG b).tag ≠ .pois →
    s.Reaches (s.me.readG a) (s.me.readG a).value (tyBytes t) [.r] [.read] va p u →
    u.sleeping s.cur (p.pa / 8) = false → s.mem.upsets = [] →
    let w := (u.bypass p).drainPast s.cur fun e => e.acquire || e.meets p.pa (tyBytes t)
    let x := leNat ((List.range' p.pa (tyBytes t)).map fun q => w.mem.view (.core s.cur) q)
    ((∃ q ∈ wordsOf p.pa (tyBytes t), w.mem.viewMark (.core s.cur) q ≠ none) → d ≠ 0 →
      Runs (.waita t d a b) s [.g d] fun v => (v.me.readG d).tag = .pois ∧ v.me.buf = w.me.buf) ∧
    ((∀ q ∈ wordsOf p.pa (tyBytes t), w.mem.viewMark (.core s.cur) q = none) →
      (x = (s.me.readG b).value.toNat % 256 ^ tyBytes t →
        Runs (.waita t d a b) s [.g d] fun v => v.me.readG d = written d (Reg.data (loadWord t x)) ∧ v.me.buf = w.me.buf) ∧
      (x ≠ (s.me.readG b).value.toNat % 256 ^ tyBytes t →
        ∃ v, exec (.waita t d a b) s = .next v ∧ v.me.wait = some .waita ∧ v.me.pc = s.me.pc ∧ s.me.KeepsRegs v.me [] ∧
          v.me.buf = w.me.buf ∧ ⟨s.cur, p.pa / 8, s.rc, false⟩ ∈ v.mem.watches)))

/-! ## Floating point -/

/-- R177, R180 to R185, R188: scalar floating point on DATA operands, .f32 on any core and .f64 with X64. -/
def Obligations.FloatResults : Prop :=
  ∀ (s : State) (wide : Bool) (r : Rnd) (l : Look) (a b : FReg) (x y : Word),
    s.me.readF wide a = Reg.data x → s.me.readF wide b = Reg.data y →
    let m := if wide then fp64 else fp32
    let u := if wide then x.toNat else x.toNat % 2 ^ 32
    let v := if wide then y.toNat else y.toNat % 2 ^ 32
    (∀ d : FReg, s.issues { reads := [.f a, .f b], writes := [.f d], look := l.val, x64 := wide } →
      ∀ p ∈ floatRows, WritesF ((if wide then p.2.1 else p.1) r l d a b) s d (Reg.data (BitVec.ofNat 64 (p.2.2 m r u v)))) ∧
    (∀ d : FReg, s.issues { reads := [.f a], writes := [.f d], look := l.val, x64 := wide } →
      WritesF (if wide then .fsqrtF64 r l d a else .fsqrt r l d a) s d (Reg.data (BitVec.ofNat 64 (m.sqrt r u)))) ∧
    (∀ d : GReg, s.issues { reads := [.f a, .f b], writes := [.g d], look := l.val, x64 := wide } →
      WritesG (if wide then .fcmpF64 l d a b else .fcmp l d a b) s d (Reg.data (
        if m.isNan u || m.isNan v then 8 else if m.isZero u && m.isZero v then 2
        else if m.rank u < m.rank v then 1 else if m.rank u = m.rank v then 2 else 4))) ∧
    (∀ d : GReg, s.issues { reads := [.f a], writes := [.g d], look := l.val, x64 := wide } →
      WritesG (if wide then .fclsF64 l d a else .fcls l d a) s d (Reg.data (BitVec.ofNat 64 (classOf m u))) ∧
      WritesG (if wide then .fmvgF64 l d a else .fmvg l d a) s d (Reg.data (BitVec.ofNat 64 u)))

/-- R186, R187, R188, R166, R167: moves into the f file, fused multiply-add, constants and scalar conversion. R110, R164:
the roundings of an exact n / d to an integer: nearest with ties to even or away, toward zero, up, down. -/
def Obligations.FloatMovesConversionsAndRounding : Prop :=
  ((∀ (s : State) (wide : Bool) (l : Look) (d : FReg) (a : GReg) (x : Word),
    s.issues { reads := [.g a], writes := [.f d], look := l.val, x64 := wide } → s.me.readG a = Reg.data x →
    WritesF (if wide then .fmvfF64 l d a else .fmvf l d a) s d
      (Reg.data (if wide then x else (x.truncate 32).zeroExtend 64))) ∧
  (∀ (s : State) (wide : Bool) (r : Rnd) (l : Look) (d a b c : FReg) (x y z : Word),
    s.issues { reads := [.f a, .f b, .f c], writes := [.f d], look := l.val, x64 := wide } →
    s.me.readF wide a = Reg.data x → s.me.readF wide b = Reg.data y → s.me.readF wide c = Reg.data z →
    let n := if wide then 64 else 32
    WritesF (if wide then .ffmaF64 r l d a b c else .ffma r l d a b c) s d (Reg.data (BitVec.ofNat 64
      ((if wide then fp64 else fp32).fma r (x.toNat % 2 ^ n) (y.toNat % 2 ^ n) (z.toNat % 2 ^ n))))) ∧
  (∀ (s : State) (d : FReg) (imm : BitVec 15), s.issues { writes := [.f d] } →
    WritesF (.fliF32 d imm) s d (Reg.data (BitVec.ofNat 64 (imm.toNat * 2 ^ 17))) ∧
    WritesF (.fliF64 d imm) s d (Reg.data (BitVec.ofNat 64 (imm.toNat * 2 ^ 49)))) ∧
  ∀ (s : State) (src dst : STy) (r : Rnd) (l : Look) (d a : Fin 32) (x : Word), (Instr.fcvt src dst r l d a).wf →
    s.issues { reads := [rawName src.inF a], writes := [rawName dst.inF d], look := l.val
               x64 := src == .f64 || dst == .f64 } →
    s.me.readRaw src.inF (src == .f64) a = Reg.data x →
    let bits := tyConvert (styTy dst) r (tyFrac (styTy src)) (tyValue (styTy src) x.toNat)
    Runs (.fcvt src dst r l d a) s [rawName dst.inF d] fun t => d.val ≠ 0 → t.me.readRaw dst.inF (dst == .f64) d =
      Reg.data (if dst = .s32 then (BitVec.ofNat 32 bits).signExtend 64 else BitVec.ofNat 64 bits)) ∧
  (∀ (neg : Bool) (n d : Nat), 0 < d →
    (∀ r ∈ [Rnd.rne, Rnd.rna], 2 * roundNat r neg n d * d ≤ 2 * n + d ∧ 2 * n ≤ 2 * roundNat r neg n d * d + d) ∧
    (2 * (n % d) = d → roundNat .rne neg n d % 2 = 0 ∧ roundNat .rna neg n d = n / d + 1) ∧
    (roundNat .rtz neg n d * d ≤ n ∧ n < roundNat .rtz neg n d * d + d) ∧
    (n ≤ roundNat .rup false n d * d ∧ roundNat .rup false n d * d < n + d) ∧
    (n ≤ roundNat .rdn true n d * d ∧ roundNat .rdn true n d * d < n + d) ∧
    roundNat .rup true n d = n / d ∧ roundNat .rdn false n d = n / d)

/-! ## Vectors -/

/-- R189 to R192: the two-operand vector instructions, element by element; an element that no poisoned lane feeds has its
result, and the lanes of the others are poisoned. -/
def Obligations.VectorElementResults : Prop :=
  ∀ p ∈ vecRows, ∀ (s : State) (t : Ty) (l : Look) (d a b : VecReg), (p.1 t l d a b).wf →
    s.issues { reads := [.v a, .v b], writes := [.v d], look := l.val, x64 := t == .f64 } →
    let w := tyWidth t
    let x := s.me.readV a
    let y := s.me.readV b
    let bad := x.pois ||| y.pois
    Runs (p.1 t l d a b) s [.v d] (fun u =>
      (∀ j < 8, (u.me.readV d).pois.getLsbD j = nearPoison w bad j) ∧
      (∀ i < 256 / w, nearPoison w bad (i * w / 32) = false →
        elem (u.me.readV d).value w i = elemOf t p.2.1 p.2.2 (elem x.value w i) (elem y.value w i) % 2 ^ w)) ∧
    (bad = 0 → ∃ v, WritesV (p.1 t l d a b) s d v)

/-- R191, R193: the one-operand and three-operand vector instructions and the bitwise ones. -/
def Obligations.VectorUnaryAndSelect : Prop :=
  ∀ (s : State) (t : Ty) (l : Look) (d a b : VecReg),
    let w := tyWidth t
    let x := s.me.readV a
    let y := s.me.readV b
    let z := s.me.readV d
    ((Instr.vabs t l d a).wf → s.issues { reads := [.v a], writes := [.v d], look := l.val, x64 := t == .f64 } → x.pois = 0 →
      (∃ v, WritesV (.vabs t l d a) s d ⟨v, 0⟩ ∧ ∀ i < 256 / w, elem v w i =
        if t.isInt then (if (BitVec.ofNat w (elem x.value w i)).toInt < 0 then (2 ^ w - elem x.value w i) else elem x.value w i)
        else elem x.value w i % 2 ^ (w - 1)) ∧
      ∃ v, WritesV (.vneg t l d a) s d ⟨v, 0⟩ ∧ ∀ i < 256 / w, elem v w i =
        if t.isInt then (2 ^ w - elem x.value w i) % 2 ^ w else elem x.value w i ^^^ 2 ^ (w - 1)) ∧
    (s.issues { reads := [.v a], writes := [.v d], look := l.val } → WritesV (.vmov l d a) s d x) ∧
    (s.issues { reads := [.v a, .v b], writes := [.v d], look := l.val } → x.pois = 0 → y.pois = 0 →
      WritesV (.vand l d a b) s d ⟨x.value &&& y.value, 0⟩ ∧ WritesV (.vor l d a b) s d ⟨x.value ||| y.value, 0⟩ ∧
      WritesV (.vxor l d a b) s d ⟨x.value ^^^ y.value, 0⟩) ∧
    ((Instr.vsel t l d a b).wf →
      s.issues { reads := [.v a, .v b, .v d], writes := [.v d], look := l.val, x64 := t == .f64 } →
      x.pois = 0 → y.pois = 0 → z.pois = 0 →
      (∃ v, WritesV (.vsel t l d a b) s d ⟨v, 0⟩ ∧ ∀ i < 256 / w, elem v w i =
        if elem z.value w i ≠ 0 then elem x.value w i else elem y.value w i) ∧
      ∃ v, WritesV (.vfma t l d a b) s d ⟨v, 0⟩ ∧ ∀ i < 256 / w, elem v w i =
        (match tyFmt t with
          | some m => m.fma .rne (elem x.value w i) (elem y.value w i) (elem z.value w i)
          | none => elem x.value w i * elem y.value w i + elem z.value w i) % 2 ^ w)

/-- R194 to R197: reduction, broadcast, shuffle and element access on clean registers. VRED of the 32-bit types runs its tree
pairwise. -/
def Obligations.VectorLaneMoves : Prop :=
  ∀ (s : State) (t : Ty) (l : Look) (d a b : VecReg) (gd ga gb : GReg) (op : RedOp) (i n : Word), laneTypes.contains t →
    let w := tyWidth t
    let x := s.me.readV a
    let y := s.me.readV b
    let z := s.me.readV d
    let f : Nat → Nat → Nat := match op with
      | .sum => elemOf t (fun m x y => m.add .rne false x y) (fun _ _ x y => x + y)
      | .min => elemOf t (fun m x y => m.fmin x y) (fun k sg x y => if intLt k sg y x then y else x)
      | .max => elemOf t (fun m x y => m.fmax x y) (fun k sg x y => if intLt k sg x y then y else x)
    (s.issues { reads := [.v a], writes := [.v d], look := l.val, x64 := t == .f64 } → x.pois = 0 →
      ∃ v, WritesV (.vred t l d a op) s d ⟨v, 0⟩ ∧ (∀ k < 256 / w, 0 < k → elem v w k = 0) ∧
        (w = 64 → elem v w 0 = f (f (elem x.value w 0) (elem x.value w 1)) (f (elem x.value w 2) (elem x.value w 3)) % 2 ^ w) ∧
        (w = 32 → elem v w 0 =
          f (f (f (elem x.value w 0) (elem x.value w 1)) (f (elem x.value w 2) (elem x.value w 3)))
            (f (f (elem x.value w 4) (elem x.value w 5)) (f (elem x.value w 6) (elem x.value w 7))) % 2 ^ w)) ∧
    (s.issues { reads := [.g ga], writes := [.v d], look := l.val, x64 := t == .f64 } → s.me.readG ga = Reg.data i →
      ∃ v, WritesV (.vbc t l d (.g ga)) s d ⟨v, 0⟩ ∧ ∀ k < 256 / w, elem v w k = i.toNat % 2 ^ w) ∧
    (∀ fa : FReg, s.issues { reads := [.f fa], writes := [.v d], look := l.val, x64 := t == .f64 } →
      s.me.readF (w == 64) fa = Reg.data i →
      ∃ v, WritesV (.vbc t l d (.f fa)) s d ⟨v, 0⟩ ∧ ∀ k < 256 / w, elem v w k = i.toNat % 2 ^ w) ∧
    (s.issues { reads := [.v a, .v b], writes := [.v d], look := l.val, x64 := t == .f64 } → x.pois = 0 → y.pois = 0 →
      ∃ v, WritesV (.vshf t l d a b) s d ⟨v, 0⟩ ∧
        ∀ k < 256 / w, elem v w k = elem x.value w (elem y.value w k % (256 / w))) ∧
    (s.issues { reads := [.v a, .g gb], writes := [.g gd], look := l.val, x64 := t == .f64 } → s.me.readG gb = Reg.data i →
      (nearPoison w x.pois (i.toNat % (256 / w) * w / 32) = false →
        WritesG (.vget t l gd a gb) s gd (Reg.data (loadWord t (elem x.value w (i.toNat % (256 / w)))))) ∧
      (nearPoison w x.pois (i.toNat % (256 / w) * w / 32) = true →
        WritesG (.vget t l gd a gb) s gd ⟨.pois, 0, 5 <<< 56⟩)) ∧
    (s.issues { reads := [.g ga, .g gb, .v d], writes := [.v d], look := l.val, x64 := t == .f64 } →
      s.me.readG ga = Reg.data n → s.me.readG gb = Reg.data i → z.pois = 0 →
      ∃ v, WritesV (.vset t l d ga gb) s d ⟨v, 0⟩ ∧ ∀ k < 256 / w, elem v w k =
        if k = i.toNat % (256 / w) then n.toNat % 2 ^ w else elem z.value w k)

/-- R168 to R172: the vector conversions on clean registers. -/
def Obligations.VectorConversions : Prop :=
  ∀ (s : State) (t : Ty) (l : Look) (r : Rnd) (src : VSrc) (d a b : VecReg),
    let w := tyWidth t
    let x := s.me.readV a
    let y := s.me.readV b
    x.pois = 0 → y.pois = 0 → (s.me.readV d).pois = 0 →
    ((Instr.vcvt t src r l d a).wf →
      s.issues { reads := [.v a], writes := [.v d], look := l.val, x64 := t == .f64 || src == .f64 } →
      Runs (.vcvt t src r l d a) s [.v d] fun u => (u.me.readV d).pois = 0 ∧
        ∀ i < 256 / max (tyWidth src.ty) w, elem (u.me.readV d).value w i =
          tyConvert t r (tyFrac src.ty) (tyValue src.ty (elem x.value (tyWidth src.ty) i)) % 2 ^ w) ∧
    ((Instr.vqnt t l d a b).wf →
      s.issues { reads := if t = .n4 then [.v a, .v b, .v d] else [.v a, .v b], writes := [.v d], look := l.val } →
      Runs (.vqnt t l d a b) s [.v d] fun u => (u.me.readV d).pois = 0 ∧
        ∀ i < 8, let q := (fp32.value (elem x.value 32 i)).div (fp32.value (elem y.value 32 i))
          (t ≠ .n4 → elem (u.me.readV d).value w i = tyConvert t .rne 23 q % 2 ^ w) ∧
          (t = .n4 → elem (u.me.readV d).value 4 i = n4Quantise (elem (s.me.readV d).value 8 28) q % 16)) ∧
    ((Instr.vdqnt t l d a b).wf → s.issues { reads := [.v a, .v b], writes := [.v d], look := l.val } →
      ∃ v, WritesV (.vdqnt t l d a b) s d ⟨v, 0⟩ ∧ ∀ i < 8, elem v 32 i = mulTo32 (tyFrac t)
        (if t = .n4 then n4Value (elem x.value 8 28) (elem x.value 4 i) else tyValue t (elem x.value w i))
        (elem y.value 32 i) % 2 ^ 32) ∧
    ((Instr.vpack t l d a b).wf → s.issues { reads := [.v a, .v b], writes := [.v d], look := l.val } →
      Runs (.vpack t l d a b) s [.v d] fun u => (u.me.readV d).pois = 0 ∧
        ∀ i < 16, elem (u.me.readV d).value w i = tyConvert t .rne (if t.isInt then 0 else 23)
          (tyValue (if t.isInt then .s32 else .f32) (if i < 8 then elem x.value 32 i else elem y.value 32 (i - 8))) % 2 ^ w)

/-! ## Compact instructions -/

/-- R113: the compact forms have the effect of their expansions, and the core goes on 2 bytes further. R113, R223, R229:
C.LD and C.ST of both widths at the address in a. -/
def Obligations.CompactResults : Prop :=
  ((∀ (s : State) (d a : GReg) (x y : Word), s.me.readG d = Reg.data x → s.me.readG a = Reg.data y →
    s.issues { reads := [.g d, .g a], writes := [.g d], len := 2 } →
    WritesG (.cAdd d a) s d (Reg.data (x + y)) 2 ∧ WritesG (.cSub d a) s d (Reg.data (x - y)) 2 ∧
    WritesG (.cAnd d a) s d (Reg.data (x &&& y)) 2) ∧
  (∀ (s : State) (d a : GReg), s.issues { reads := [.g a], writes := [.g d], len := 2 } →
    WritesG (.cMov d a) s d (s.me.readG a) 2) ∧
  (∀ (s : State) (d : GReg) (i : BitVec 6) (k : Fin 64) (x : Word), s.me.readG d = Reg.data x →
    s.issues { reads := [.g d], writes := [.g d], len := 2 } →
    WritesG (.cAddi d i) s d (Reg.data (x + i.signExtend 64)) 2 ∧
    WritesG (.cSlli d k) s d (Reg.data (x <<< k.val)) 2 ∧ WritesG (.cSrli d k) s d (Reg.data (x >>> k.val)) 2) ∧
  (∀ (s : State) (d : GReg) (i : BitVec 6), s.issues { reads := [.g 0], writes := [.g d], len := 2 } →
    WritesG (.cAddiZero d i) s d (Reg.data (i.signExtend 64)) 2) ∧
  (∀ (s : State), s.issues { len := 2 } → Passes .cNop s 2 ∧ Faults .cBrk s 12 0 s.me.pc ∧
    ∀ off : BitVec 11, Jumps (.cJ off) s (s.me.pc + off.signExtend 64 * 2)) ∧
  (∀ (s : State) (a : GReg) (off : BitVec 6) (x : Word), s.issues { reads := [.g a, .g 0], len := 2 } →
    s.me.readG a = Reg.data x →
    (x = 0 → Jumps (.cBeq a off) s (s.me.pc + off.signExtend 64 * 2) ∧ Passes (.cBne a off) s 2) ∧
    (x ≠ 0 → Jumps (.cBne a off) s (s.me.pc + off.signExtend 64 * 2) ∧ Passes (.cBeq a off) s 2)) ∧
  (∀ (s : State) (a : GReg) (x : Word), s.me.readG a = Reg.data x →
    (s.issues { reads := [.g a], writes := [.g 0], len := 2 } → Jumps (.cJalrG0 a) s x) ∧
    (s.issues { reads := [.g a], writes := [.g 1], len := 2 } → Jumps (.cJalrLink a) s x [.g 1] ∧
      ∀ t, x.getLsbD 0 = false → exec (.cJalrLink a) s = .next t → t.me.readG 1 = Reg.data (s.me.pc + 2)))) ∧
  (∀ (s u : State) (w : Bool) (d a : GReg) (va : Nat) (p : Place),
    let n := if w then 4 else 8
    let x := s.me.readG a
    x.tag ≠ .eph →
    (s.issues { reads := [.g a, .g 0], writes := [.g d], len := 2 } → s.Reaches x x.value n [.r] [.read] va p u →
      let r := u.load s.cur p.pa n (cachedPlace p)
      Runs (.cLd w d a) s [.g d] (fun v => v.mem = r.2.mem ∧
        v.me.readG d = written d (r.1.reg s.cur va p.pa (if w then .s32 else .s64))) 2) ∧
    (s.issues { reads := [.g a, .g 0, .g d], len := 2 } → s.Reaches x x.value n [.w] [.write] va p u →
      (s.me.readG d).tag ≠ .eph →
      Runs (.cSt w d a) s [] (fun v => v.mem = u.makeRoom.mem ∧ v.me.buf = u.makeRoom.me.buf ++ [{
        va := va
        pa := p.pa
        size := n
        scope := p.sc
        cached := cachedPlace p
        bypass := false
        acquire := false
        release := false
        op := .store ((s.me.readG d).value.toNat % 256 ^ n) (if (s.me.readG d).tag = .pois then 1 else 0) false }]) 2))

/-! ## Messages -/

/-- R321, R322, R341: the words and tags of a payload: a DATA register gives its value with tag 0; a CAP with room for two
words gives address and metadata, with tag 1 on the first. R24, R327, R338, R342: SEND to a core of the partition releases
the core's accesses, adds a member to the launch and posts the message; to a core outside it nothing is posted; a global
word sends it to another package. -/
def Obligations.SendResults : Prop :=
  (∀ (c : Core) (d : GReg) (n : Nat), d.val + n ≤ 32 → n ≤ 6 →
    ((∀ i < n, (c.readG (Fin.ofNat 32 (d.val + i))).tag = .data) →
      payloadWords (c.payloadFrom d n) = (List.range n).map (fun i => (c.readG (Fin.ofNat 32 (d.val + i))).value) ∧
      payloadTags (c.payloadFrom d n) = 0) ∧
    ((c.readG d).tag = .cap → n = 2 → payloadWords (c.payloadFrom d n) = [(c.readG d).value, (c.readG d).info] ∧
      payloadTags (c.payloadFrom d n) = 1) ∧
    ((c.readG d).tag = .cap → n = 1 → payloadWords (c.payloadFrom d n) = [(c.readG d).value] ∧
      payloadTags (c.payloadFrom d n) = 0)) ∧
  (∀ (s u : State) (d a b : GReg) (n : Fin 7) (p : Place) (j : Nat) (l : Launch) (act : Act),
    let pl := s.me.payloadFrom d n.val
    let s0 := s.settleLdes s.cur
    let x := s.me.readG a
    let y := s.me.readG b
    s.issues { reads := [.g a, .g b] ++ payloadNames pl, commit := true } → s.me.act = some act → y.tag = .data →
    (∀ z ∈ payloadVals pl, z.tag = .data ∨ z.tag = .cap) → s.outbound s.cur < 4 →
    mget s.launches act.launch = some l → l.cancelled = false → l.counts.members < 2 ^ 32 - 1 →
    (x.tag = .cap → capFault x x.value.toNat 1 [.send] = 0 → s0.translate s.cur x.value.toNat [] = (.ok p, u) →
      sliceOf p.pa = some j →
      (s.inPartition s.me.vfid j = true → Runs (.send d a b n) s [] fun t => ∃ f : Flight, t.flights = s.flights ++ [f] ∧
        f.travel = .link ∧ f.packet.kind = .send ∧ f.packet.member = true ∧ f.packet.msg.dest = j ∧ f.packet.msg.src = s.cur ∧
        f.packet.msg.cls = y.value.toNat % 64 ∧ f.packet.msg.pri = y.value.toNat / 64 % 4 ∧
        f.packet.msg.launch = act.launch ∧ f.packet.msg.flags = 0 ∧
        (∀ i : Fin 6, f.packet.msg.m[i.val] = (payloadWords pl).getD i.val 0) ∧ f.packet.msg.ptag = payloadTags pl ∧
        (∃ l2, mget t.launches act.launch = some l2 ∧ l2.counts.members = l.counts.members + 1) ∧
        t.me.buf = [] ∧ t.me.ldes = []) ∧
      (s.inPartition s.me.vfid j = false → ∃ t : State, exec (.send d a b n) s = .next t ∧ ∀ f ∈ t.flights, f.packet.kind = .send →
        f ∈ s.flights)) ∧
    ((∃ pkg core own : Nat, pkg ≤ 32767 ∧ core < 65536 ∧ s.sc.package = some own ∧ own ≠ pkg ∧
        x = Reg.data (BitVec.ofNat 64 (2 ^ 63 + pkg * 2 ^ 16 + core))) → (s.vf s.me.vfid).remote = true →
      (∀ z ∈ payloadVals pl, z.tag = .data) →
      Runs (.send d a b n) s [] fun t => ∃ m : Msg, t.sent = s.sent ++ [(x.value.toNat / 2 ^ 16 % 2 ^ 16, m)] ∧ m.xpkg = true ∧
        m.dest = x.value.toNat % 2 ^ 16 ∧ s.sc.package = some m.launch ∧ t.flights = s.flights))

/-- R334 to R336, R343 to R345: SENDM to a multicast group of the virtual function, a contribution of SENDR, and MREL. -/
def Obligations.GroupMessages : Prop :=
  (∀ (s : State) (d a b : GReg) (n : Fin 7) (vf route g : Nat) (members : List Nat) (l : Launch) (act : Act),
    let pl := s.me.payloadFrom d n.val
    s.issues { reads := [.g a, .g b] ++ payloadNames pl, commit := true } → s.me.act = some act →
    s.me.readG a = Reg.data (BitVec.ofNat 64 g) → g < 1024 → (s.me.readG b).tag = .data →
    (∀ z ∈ payloadVals pl, z.tag = .data ∨ z.tag = .cap) → s.outbound s.cur < 4 →
    mget s.groups g = some (.multicast vf route members) → vf = s.me.vfid →
    mget s.launches act.launch = some l → l.cancelled = false → l.counts.members + members.length ≤ 2 ^ 32 - 1 →
    Runs (.sendm d a b n) s [] fun t => (members = [] → t.multis = s.multis) ∧
      (members ≠ [] → ∃ m : Multicast, t.multis = s.multis ++ [m] ∧ m.route = route ∧ m.copies = [⟨s.cur / 128, true, members⟩] ∧
        m.packet.member = true ∧ m.packet.msg.flags = 0x08 ∧ m.packet.msg.src = s.cur ∧
        ∀ i : Fin 6, m.packet.msg.m[i.val] = (payloadWords pl).getD i.val 0) ∧
      ∃ l2, mget t.launches act.launch = some l2 ∧ l2.counts.members = l.counts.members + members.length) ∧
  (∀ (s : State) (d a : GReg) (n : Fin 6) (vf route g root rclass rpri op fmt l : Nat) (contrib : List Nat) (act : Act),
    let pl := s.me.payloadFrom d n.val
    s.issues { reads := .g a :: payloadNames pl, commit := true } → s.me.act = some act →
    s.me.readG a = Reg.data (BitVec.ofNat 64 g) → g < 1024 → (∀ z ∈ payloadVals pl, z.tag = .data ∨ z.tag = .cap) →
    s.outbound s.cur < 4 → s.me.kself ∈ contrib →
    mget s.groups g = some (.reduction vf route contrib root rclass rpri op fmt n.val l) → vf = s.me.vfid →
    l = act.launch →
    Runs (.sendr d a n) s [] fun t =>
      (∃ r ∈ t.rounds, r.group = g ∧ r.round = (mget (s.core s.me.kself).rounds g).getD 0 ∧
        ∃ p ∈ r.parts, p.node = s.me.kself / 128 ∧ p.mask = BitVec.ofNat 64 (2 ^ contrib.idxOf s.me.kself) ∧
          p.words = payloadWords pl) ∧
      mget (t.core s.me.kself).rounds g = some ((mget (s.core s.me.kself).rounds g).getD 0 + 1)) ∧
  (∀ (s : State), s.issues { commit := true } → Runs .mrel s [] fun t => t.me.pinned = none ∧
    ∀ i, s.me.pinned = some i → t.me.slots[i.val] = .free ∧ i ∉ t.me.order)

/-- R34, R346, R347: the class table: CLSW and CLSEN write the entry and return the old one with its PEND bit, CLSR returns it,
a class above 63 faults; CPND reads what waits and the pinned header. -/
def Obligations.ClassTable : Prop :=
  (∀ (s : State) (d a b : GReg) (i : Fin 64) (y : Word), s.me.readG a = Reg.data (BitVec.ofNat 64 i.val) →
    s.me.readG b = Reg.data y →
    let waits := s.me.order.any fun k => s.me.pinned != some k &&
      match s.me.slots[k.val] with | .holds p => p.msg.cls == i.val | _ => false
    let old := s.me.classes[i.val] ||| (if waits then 0x2000000000000000 else 0)
    let sets (j : Instr) (e : Word) : Prop := ∃ t : State, exec j s = .next t ∧ t.me.pc = s.me.pc + 4 ∧ OnlyCore s t s.cur ∧
      t.me.readG d = written d (Reg.data old) ∧ t.me.classes = s.me.classes.set i.val e ∧
      s.me.KeepsBut { t.me with classes := s.me.classes } [.g d]
    (s.issues { reads := [.g a, .g b], writes := [.g d] } →
      sets (.clsw d a b) (y &&& 0xC300FFFFFFFFFFFE) ∧
      sets (.clsen d a b) (if y.getLsbD 0 then s.me.classes[i.val] ||| 0x4000000000000000
        else s.me.classes[i.val] &&& 0xBFFFFFFFFFFFFFFF)) ∧
    (s.issues { reads := [.g a], writes := [.g d] } → WritesG (.clsr d a) s d (Reg.data old))) ∧
  (∀ (s : State) (d a b : GReg), (s.me.readG a).tag = .data → 64 ≤ (s.me.readG a).value.toNat →
    (s.issues { reads := [.g a], writes := [.g d] } → Faults (.clsr d a) s 16 0 s.me.pc) ∧
    ((s.me.readG b).tag = .data → s.issues { reads := [.g a, .g b], writes := [.g d] } →
      Faults (.clsw d a b) s 16 0 s.me.pc ∧ Faults (.clsen d a b) s 16 0 s.me.pc)) ∧
  ∀ (s : State) (d : GReg), s.issues { writes := [.g d] } →
    (∃ v : Word, WritesG (.cpnd d 0) s d (Reg.data v) ∧ ∀ i < 64, v.getLsbD i = s.me.order.any fun k =>
      s.me.pinned != some k && match s.me.slots[k.val] with | .holds p => p.msg.cls == i | _ => false) ∧
    (s.me.pinned = none → WritesG (.cpnd d 1) s d (Reg.data 0) ∧ WritesG (.cpnd d 2) s d (Reg.data 0)) ∧
    ∀ i p, s.me.pinned = some i → s.me.slots[i.val] = .holds p →
      WritesG (.cpnd d 1) s d (Reg.data (BitVec.ofNat 64 (p.msg.dest + p.msg.src * 2 ^ 16 + p.msg.cls * 2 ^ 32 +
        p.msg.pri * 2 ^ 38 + p.msg.flags.toNat * 2 ^ 40 + (if p.msg.incomplete then 2 ^ 46 else 0) +
        (if p.msg.xpkg then 2 ^ 47 else 0) + p.msg.launch * 2 ^ 48))) ∧
      WritesG (.cpnd d 2) s d (Reg.data (BitVec.ofNat 64 (p.msg.time.toNat + p.msg.ptag.toNat * 2 ^ 48)))

/-- R349 to R352, R355: MBAR registers an arrival, in this tick or, behind a core of a higher KID, in the next (the model's choice,
log 73), and returns the phase, MWAIT passes once the phase differs, MBC sends a value
to its slot, MRCV waits for a sequence; each faults with cause 17 where the channel or slot is not the function's. -/
def Obligations.MeridianInstructions : Prop :=
  ∀ (s : State) (d a b : GReg) (x y : Word), s.me.readG a = Reg.data x → s.me.readG b = Reg.data y →
    let die := s.cur / 2048
    let chan := if x.toNat < 64 then die * 64 + x.toNat else 192 + x.toNat
    let slot := if x.toNat < 16 then die * 16 + x.toNat else 48 + x.toNat
    let c := s.barrier chan
    let tick := match c.last with
      | none => s.rc
      | some (n, k) => if n < s.rc then s.rc else if k < s.cur then n else n + 1
    let mine := x.toNat < 80 ∧ c.vf = some s.me.vfid
    let own := x.toNat < 20 ∧ (s.bcast slot).vf = some s.me.vfid
    (s.issues { reads := [.g a], writes := [.g d], commit := true } →
      (mine → Runs (.mbar d a) s [.g d] fun t =>
        t.me.readG d = written d (Reg.data (if xor c.p (c.flips.length % 2 == 1) then 1 else 0)) ∧
        (t.barrier chan).last = some (tick, s.cur) ∧
        (c.count + 1 = c.parties → (t.barrier chan).count = 0 ∧
          (t.barrier chan).flips = c.flips ++ [tick + if chan < 256 then 24 else 48]) ∧
        (c.count + 1 ≠ c.parties → (t.barrier chan).count = c.count + 1 ∧ (t.barrier chan).flips = c.flips)) ∧
      (¬ mine → exec (.mbar d a) s = .next ((s.settleLdes s.cur).coreFault 17 0 s.me.pc))) ∧
    (s.issues { reads := [.g a, .g b] } →
      (mine → c.p = y.getLsbD 0 → Stalls (.mwait a b) s .mwait) ∧ (mine → c.p ≠ y.getLsbD 0 → Passes (.mwait a b) s) ∧
      (¬ mine → Faults (.mwait a b) s 17 0 s.me.pc)) ∧
    (s.issues { reads := [.g a, .g b], commit := true } →
      (own → Runs (.mbc a b) s [] fun t =>
        (s.rc + (if slot < 64 then 24 else 48), s.cur, y.truncate 32) ∈ (t.bcast slot).pending ∧
        ∀ e ∈ (s.bcast slot).pending, e ∈ (t.bcast slot).pending) ∧
      (¬ own → exec (.mbc a b) s = .next ((s.settleLdes s.cur).coreFault 17 0 s.me.pc))) ∧
    (s.issues { reads := [.g a, .g b], writes := [.g d] } →
      (own → s.symReady d → Runs (.mrcv d a b) s [.g d] fun t =>
        ∃ res : Option SymRef, LateG s t d .i64 res ∧ ∀ r, res = some r → t.me.bc = s.me.bc ++ [(slot, r, y)]) ∧
      (¬ own → Faults (.mrcv d a b) s 17 0 s.me.pc))

/-! ## Work and anchored tasks -/

/-- A request has joined those at the Orrery (R153): before those of a later reference cycle and, of its own cycle, those of a
higher KID; behind the others. -/
def Asked (s t : State) (r : OrreryReq) : Prop :=
  ∃ l m, s.oreqs = l ++ m ∧ t.oreqs = l ++ r :: m ∧
    (∀ q ∈ l, q.who.since < r.who.since ∨ q.who.since = r.who.since ∧ q.who.core ≤ r.who.core) ∧
    ∀ q ∈ m.head?, r.who.since < q.who.since ∨ r.who.since = q.who.since ∧ r.who.core < q.who.core

/-- R53, R152 to R158: SPAWN posts its message, which names its launch by index and stamp, and keeps a landing slot; LAUNCH, CANCEL, GARM and GREL put their requests before
the Orrery, by reference cycle, then in ascending KID, those of one core in issue order; register d receives an ephemeris for the
status. A request names its issuer as at its issue: core, cycle, and what the launch of its activation says (log 25). -/
def Obligations.WorkInstructions : Prop :=
  ∀ (s : State) (d a b : GReg) (act : Act), s.me.act = some act →
    let x := s.me.readG a
    let y := s.me.readG b
    (∀ l, mget s.launches act.launch = some l →
      s.asker = ⟨s.cur, s.rc, act.launch, some l.born, l.desc.job, s.me.vfid, s.me.asid,
        if l.desc.gv then some l.desc.graph else none, some l.desc.phase⟩) ∧
    (s.symReady d →
    (∀ (u : State) (n : Fin 7) (p : Place) (j : Nat) (slot : Fin 32),
      let pl := s.me.payloadFrom 3 n.val
      s.issues { reads := [.g a, .g b] ++ payloadNames pl, writes := [.g d], commit := true } → x.tag = .cap → y.tag = .data →
      (∀ z ∈ payloadVals pl, z.tag = .data ∨ z.tag = .cap) → capFault x x.value.toNat 1 [.send] = 0 →
      (s.settleLdes s.cur).translate s.cur x.value.toNat [] = (.ok p, u) → sliceOf p.pa = some j →
      s.inPartition s.me.vfid j = true → 28 ≤ slot.val → s.me.slots[slot.val] = .free →
      (∀ k : Fin 32, 28 ≤ k.val → k.val < slot.val → s.me.slots[k.val] ≠ .free) →
      Runs (.spawn d a b n) s [.g d] fun t => ∃ (res : Option SymRef) (f : Flight), LateG s t d .i64 res ∧ t.flights = s.flights ++ [f] ∧
        f.packet.kind = .spawn res slot.val s.asker.born ∧ f.packet.msg.dest = j ∧ f.packet.msg.flags = 0x02 ∧
        f.packet.msg.cls = y.value.toNat % 64 ∧ t.me.slots[slot.val] = .landing) ∧
    (s.issues { reads := [.g a], writes := [.g d], commit := true } →
      (capFault x x.value.toNat 128 [.r] = 0 → x.value.toNat % 64 = 0 → Runs (.launch d a) s [.g d] fun t =>
        ∃ (res : Option SymRef) (ids : List Nat), LateG s t d .i64 res ∧ Asked s t (.launch s.asker res x.value.toNat ids) ∧
          t.me.buf = [] ∧ t.me.ldes = []) ∧
      (x.tag = .data ∨ x.tag = .cap → (∀ lv, Runs (.cancel d a lv) s [.g d] fun t =>
          ∃ res : Option SymRef, LateG s t d .i64 res ∧ Asked s t (.cancel s.asker res lv x.value)) ∧
        Runs (.grel d a) s [.g d] fun t =>
          ∃ res : Option SymRef, LateG s t d .i64 res ∧ Asked s t (.grel s.asker res x.value))) ∧
    (s.issues { reads := [.g a, .g b], writes := [.g d], commit := true } → y.tag = .data →
      capFault x x.value.toNat 64 [.r] = 0 → x.value.toNat % 64 = 0 → Runs (.garm d a b) s [.g d] fun t =>
        ∃ (res : Option SymRef) (ids : List Nat), LateG s t d .i64 res ∧
          Asked s t (.garm s.asker res x.value.toNat (hasPerm x.info .near) y.value ids)))

/-- R76 to R81: AQCF, NLEASE and NFREE send their requests to the home that a names, ANQ and ANQB their descriptors, each the 64
bytes that the core reads at its address, none where a word of them is poisoned; register d receives an ephemeris for the status. -/
def Obligations.AnchorInstructions : Prop :=
  ∀ (s u : State) (d a b : GReg) (p : Place) (act : Act), s.me.act = some act →
    let s0 := s.settleLdes s.cur
    let x := s.me.readG a
    let y := s.me.readG b
    s.issues { reads := [.g a, .g b], writes := [.g d], commit := true } → s.symReady d →
    (y.tag = .data → capFault x x.value.toNat 1 [.near] = 0 → s0.translate s.cur x.value.toNat [] = (.ok p, u) →
      isDram p.pa = true →
      let h := (p.pa / 2 ^ 12 % 512) ^^^ (p.pa / 2 ^ 21 % 512)
      (Runs (.aqcf d a b) s [.g d] fun t =>
        ∃ res : Option SymRef, LateG s t d .i64 res ∧ t.hreqs = s.hreqs ++ [.config s.cur res h y.value]) ∧
      (Runs (.nlease d a b) s [.g d] fun t =>
        ∃ res : Option SymRef, LateG s t d .i64 res ∧
          t.hreqs = s.hreqs ++ [.lease s.cur res h act.launch s.asker.born (min y.value.toNat (2 ^ 32 - 1))]) ∧
      Runs (.nfree d a b) s [.g d] fun t =>
        ∃ res : Option SymRef, LateG s t d .i64 res ∧ t.hreqs = s.hreqs ++ [.free s.cur res h act.launch s.asker.born y.value]) ∧
    ∀ (n1 : Fin 16) (n : Nat) (i : Instr) (e : Nat → TlbEntry),
      let at_ (k : Nat) : Nat := (e k).pa + (x.value.toNat + 64 * k - (e k).va)
      let cached (k : Nat) : Bool := cachedPlace ⟨at_ k, (e k).sc, (e k).mt⟩
      (i, n) ∈ [(Instr.anq d a b, 1), (.anqb d a b n1, n1.val + 1)] → (x.tag = .cap) →
      capFault x x.value.toNat (64 * n) [.r] = 0 → x.value.toNat % 64 = 0 → y.tag = .cap →
      malformed y.info y.value = false → hasPerm y.info .near = true →
      (∀ k < n, s.redirect s.cur (x.value.toNat + 64 * k) = .same ∧
        s.me.wmBlocked (x.value.toNat + 64 * k) 64 = false ∧
        tlbFind s.me.tlb s.me.asid (x.value.toNat + 64 * k) = some (e k) ∧ (e k).r = true ∧ mappable (at_ k) = true ∧
        s.heldAt (at_ k) = false) → x.value.toNat + 64 * n ≤ 2 ^ 48 →
      Runs i s [.g d] fun t => ∃ (res : Option SymRef) (descs : List (Option (BitVec 512))) (ids : List Nat), LateG s t d .i64 res ∧ descs.length = n ∧
        t.hreqs = s.hreqs ++ [.enqueue s.asker res descs
          (capBase y.info y.value).toNat (capTop y.info y.value).toNat (capPerms y.info) ids] ∧
        (s.mem.upsets = [] → ∀ k < n, cached k = false → descs[k]? = some (
          if (wordsOf (at_ k) 64).any fun w => (t.mem.viewMark (.core s.cur) w).isSome then none
          else some (BitVec.ofNat 512 (leNat ((List.range' (at_ k) 64).map fun z => t.mem.view (.core s.cur) z))))) ∧
        (n = 1 → cached 0 = true → ∃ l : Line, t.me.lineAt (at_ 0) = some l ∧ descs = [
          if (wordsOf (at_ 0) 64).any fun w => (l.marks.getD (w - l.base / 8) none).isSome then none
          else some (BitVec.ofNat 512 (leNat ((l.bytes.drop (at_ 0 - l.base)).take 64)))])

/-! ## Copies and reductions -/

/-- R243 to R246, R251, R256 to R258, R263: CPY and CPYT enter a request in the FIFO of 16 and release before it, the full FIFO
stalls CPY and answers CPYT with 1, CPY stalls too while a TLD of a window is still to read its tile (log 61), a detail fault names
what a shape breaks; CWM reads a channel, CRES sends its word, RED submits
its block, each half of which is redirected on its own (R36), or returns a refusal. -/
def Obligations.CopyInstructions : Prop :=
  (∀ (s : State) (l : Look) (d a : GReg) (act : Act), s.me.act = some act →
    let x := s.me.readG a
    let y := s.me.readG (a + 1)
    let z := s.me.readG (a + 2)
    let f := s.me.readG (a + 3)
    let sh := z.value
    let far (r : Reg) : Prop := (s.vf s.me.vfid).remote = true ∧ shTags sh = false ∧
      ∃ own pkg off : Nat, s.sc.package = some own ∧ pkg < 32768 ∧ pkg ≠ own ∧ off < 2 ^ 48 ∧
        r = Reg.data (BitVec.ofNat 64 (2 ^ 63 + pkg * 2 ^ 48 + off))
    let near (r : Reg) (n : Nat) (p q : Perm) : Prop := r.tag = .cap ∧ capFault r r.value.toNat n [p] = 0 ∧
      (shTags sh = true → hasPerm r.info q = true ∧ r.value.toNat % 16 = 0)
    let ends : Prop := (near x (shExtent sh false) .r .lcap ∧ (near y (shExtent sh true) .w .scap ∨ far y)) ∨
      (far x ∧ near y (shExtent sh true) .w .scap)
    let flag : Prop := shFlag sh = true → f.tag = .cap ∧ capFault f f.value.toNat 2 [.w] = 0 ∧ f.value.toNat % 2 = 0
    let iss (w : List RegName) : Issue := {
      reads := [.g a, .g (a + 1), .g (a + 2)] ++ (if shFlag sh then [.g (a + 3)] else [])
      writes := w
      look := l.val
      commit := shFlag sh || shMsg sh }
    let entered (t : State) : Prop := t.me.buf = [] ∧ t.me.ldes = [] ∧ ∃ r : CopyReq, t.me.fifo = s.me.fifo ++ [r] ∧
      r.src = sideOf x ∧ r.dst = sideOf y ∧ r.shape = sh ∧ r.launch = act.launch ∧ r.vf = s.me.vfid ∧ r.asid = s.me.asid
    z.tag = .data ∨ z.tag = .cap → (shTwod sh = true → 0 < shRows sh → shRow sh ≤ shStride sh true) →
    (shTags sh = true → shRow sh % 16 = 0) →
    (s.issues (iss []) → ends → flag →
      (s.me.fifo.length < 16 → s.tileDue = false → Runs (.cpy l a) s [] entered) ∧
      (s.me.fifo.length < 16 → s.tileDue = true → Stalls (.cpy l a) s .lookahead) ∧
      (16 ≤ s.me.fifo.length → ∃ t : State, exec (.cpy l a) s = .next t ∧ t.me.wait = some .copyFifo ∧ t.me.pc = s.me.pc ∧
        t.me.fifo = s.me.fifo)) ∧
    (s.issues (iss [.g d]) → ends → flag →
      (s.me.fifo.length < 16 → s.tileDue = false → Runs (.cpyt l d a) s [.g d] fun t => entered t ∧ t.me.readG d = written d (Reg.data 0)) ∧
      (16 ≤ s.me.fifo.length → Runs (.cpyt l d a) s [.g d] fun t =>
        t.me.fifo = s.me.fifo ∧ t.me.readG d = written d (Reg.data 1))) ∧
    (s.issues (iss []) → shFlag sh = false → shMsg sh = false → x.tag ≠ .eph → x.tag ≠ .pois → y.tag ≠ .eph →
      y.tag ≠ .pois → isRemote x = false → capFault x x.value.toNat (shExtent sh false) [.r] ≠ 0 →
      isRemote y = false → Faults (.cpy l a) s 5 (capFault x x.value.toNat (shExtent sh false) [.r]) x.value)) ∧
  (∀ (s : State) (l : Look) (a : GReg), s.issues { reads := [.g a, .g (a + 1), .g (a + 2)], look := l.val } →
    (s.me.readG (a + 2)).tag = .data → (s.me.readG a).tag = .cap → (s.me.readG (a + 1)).tag = .cap →
    let sh := (s.me.readG (a + 2)).value
    shFlag sh = false → shMsg sh = false → shTwod sh = true → 0 < shRows sh → shStride sh true < shRow sh →
    Faults (.cpy l a) s 15 0 s.me.pc) ∧
  (∀ (s : State) (d : GReg) (ch : Fin 4), s.issues { writes := [.g d] } →
    let c := s.me.chans[ch.val]
    Runs (.cwm d ch) s [.g d] fun t => t.me.readG d = written d (Reg.data (BitVec.ofNat 64
      ((match c.state with | .idle => 0 | .active => 1 | .suspended => 2 | .abandoned => 3) * 2 ^ 62 +
        (s.me.fifo.filter fun q => shCh q.shape == ch.val).length * 2 ^ 56 + c.wm % 2 ^ 48)))) ∧
  (∀ (s : State) (d a : GReg), s.issues { reads := [.g a], writes := [.g d], commit := true } →
    (s.me.readG a).tag = .data → s.symReady d → Runs (.cres d a) s [.g d] fun t =>
      ∃ res : Option SymRef, LateG s t d .i64 res ∧ t.cres = s.cres ++ [(s.cur, s.me.vfid, res, (s.me.readG a).value)]) ∧
  ∀ (s t : State) (l : Look) (d a : GReg) (act : Act) (va vb : Nat) (block : Option Nat), s.me.act = some act →
    s.issues { reads := [.g a], writes := [.g d], look := l.val, commit := true } →
    let x := s.me.readG a
    capFault x x.value.toNat 128 [.r, .near] = 0 → x.value.toNat % 64 = 0 →
    (s.redirect s.cur x.value.toNat = .same ∧ va = x.value.toNat) ∨ s.redirect s.cur x.value.toNat = .dest va →
    (s.redirect s.cur (x.value.toNat + 64) = .same ∧ vb = x.value.toNat + 64) ∨ s.redirect s.cur (x.value.toNat + 64) = .dest vb →
    s.me.wmBlocked va 64 = false → s.me.wmBlocked vb 64 = false →
    (∀ w ∈ [va, vb], (s.settleLdes s.cur).heldFor (.core s.cur) s.me.vfid s.me.asid w 64 [.read] = false) →
    ((((s.settleLdes s.cur).passWm va 64).passWm vb 64).release s.cur).2.readBlock va vb = (block, t) →
    let answers (v : Word) (more : State → Prop) : Prop := Runs (.red l d a) s [.g d] fun w =>
      w.me.buf = [] ∧ w.me.readG d = written d (Reg.data v) ∧ more w
    let refused (c : Nat) : Prop := answers (BitVec.ofNat 64 (2 ^ 63 + c)) fun w => ∀ i : Nat, (w.stack i).queue = (s.stack i).queue
    (block = none → refused 5) ∧
    ∀ b : Nat, block = some b →
      let where_ := t.redStack (.core s.cur) s.me.vfid s.me.asid b
      let shape := redReserved b = true ∨ redFmt b = 3 ∨ redOp b = 3
      let empty := redCount b = 0 ∨ ∀ k < 8, redSrc b k = 0
      let skew := (∃ k < 8, redSrc b k % redSize b ≠ 0) ∨ redDst b % redSize b ≠ 0 ∨ redFlag b % 2 ≠ 0
      (shape → refused 1) ∧ (¬ shape → empty → refused 2) ∧ (¬ shape → ¬ empty → skew → refused 3) ∧
      (¬ shape → ¬ empty → ¬ skew → where_ = none → refused 4) ∧
      ∀ i : Nat, ¬ shape → ¬ empty → ¬ skew → where_ = some i →
        (64 ≤ (s.stack i).queue.length → refused 6) ∧
        ((s.stack i).queue.length < 64 → answers 0 fun w => ∃ ids : List Nat,
          (w.stack i).queue = (s.stack i).queue ++
            [⟨BitVec.ofNat 1024 b, x.value.toNat, s.me.asid, s.me.vfid, act.launch, s.cur, ids⟩])

/-- R242, R247 to R253, R258, R260 to R262: a channel takes the earliest request that names it, moves at most 64 bytes a beat, each
the source byte as the channel reads it unless its destination lies in the source extent, raises its watermark, has the bytes of a remote destination counted once UET acknowledges them, completes with its flag, suspends at a fault and is resumed, continued or abandoned; a stack engine takes its
blocks in order and ends them with their flag. -/
def Obligations.CopyEngineSteps : Prop :=
  (∀ (s : State) (k : Nat) (ch : Fin 4) (q : CopyReq) (before after : List CopyReq), s.held k = false → (s.chan k ch).req = none →
    (s.core k).fifo = before ++ q :: after → (∀ r ∈ before, shCh r.shape ≠ ch.val) → shCh q.shape = ch.val →
    (∀ r ∈ before ++ after, r ≠ q) → ∃ t : State, exec (.copyRequestStart k ch) s = .next t ∧ (t.core k).fifo = before ++ after ∧
      (t.chan k ch).state = .active ∧ (t.chan k ch).req = some q ∧ (t.chan k ch).done = 0 ∧
      (t.chan k ch).wm = q.wmAt 0 ∧ t.mem.cells = s.mem.cells) ∧
  (∀ (s u : State) (k : Nat) (ch : Fin 4) (r : CopyReq) (n : Nat), s.held k = false → (s.chan k ch).state = .active →
    (s.chan k ch).req = some r → (s.chan k ch).done < r.total →
    (s.nextBeat k ch (s.chan k ch) r = .move n u →
      n ≤ 64 ∧ ∃ t : State, exec (.copyBeat k ch) s = .next t ∧ (t.chan k ch).done = (s.chan k ch).done + n ∧
        (t.chan k ch).wm = r.wmAt ((s.chan k ch).done + n) ∧ (t.chan k ch).req = some r ∧ t.mem.cells = u.mem.cells) ∧
    (∀ (a d : Nat) (p q : Place) (u0 u1 : State), r.src = .here a → r.dst = .here d → (s.chan k ch).skips = [] →
      let from_ := a + r.offset false (s.chan k ch).done
      let to_ := d + r.offset true (s.chan k ch).done
      s.mem.upsets = [] → s.mem.wf = true → cachedPlace p = false → cachedPlace q = false →
      s.engineTo (.channel k ch.val) r.vf r.asid from_ [.read] = (.ok p, u0) →
      u0.engineTo (.channel k ch.val) r.vf r.asid to_ [.write] = (.ok q, u1) → s.nextBeat k ch (s.chan k ch) r = .move n u →
      ∀ j < n, (a ≤ to_ + j ∧ to_ + j < a + shExtent r.shape false) ∨
        u.mem.byte (q.pa + j) = u0.mem.view (.channel k ch.val) (p.pa + j)) ∧
    (s.nextBeat k ch (s.chan k ch) r = .send n u →
      n ≤ 64 ∧ ∃ t : State, exec (.copyBeat k ch) s = .next t ∧ t.rma = u.rma ∧ (t.chan k ch).sent = n ∧
        (t.chan k ch).done = (s.chan k ch).done ∧ (t.chan k ch).wm = (s.chan k ch).wm)) ∧
  (∀ (s : State) (k : Nat) (ch : Fin 4) (r : CopyReq), (s.chan k ch).state = .active → (s.chan k ch).req = some r →
    0 < (s.chan k ch).sent →
    let t := s.input (.remoteAck k ch.val none)
    (t.chan k ch).done = (s.chan k ch).done + (s.chan k ch).sent ∧ (t.chan k ch).sent = 0 ∧
      (t.chan k ch).wm = r.wmAt ((s.chan k ch).done + (s.chan k ch).sent)) ∧
  (∀ (s : State) (k : Nat) (ch : Fin 4) (r : CopyReq) (dst : Place) (u : State), s.held k = false →
    (s.chan k ch).state = .active → (s.chan k ch).req = some r → r.total ≤ (s.chan k ch).done →
    (shFlag r.shape = true → s.engineTo (.channel k ch.val) r.vf r.asid r.flag [.write] = (.ok dst, u) ∧
      s.heldSpan dst.pa 2 = false) →
    s.mem.wf = true →
    ∃ t : State, exec (.copyCompletion k ch) s = .next t ∧ (t.chan k ch).state = .idle ∧ (t.chan k ch).req = none ∧
      (shFlag r.shape = true → ∀ j < 2, t.mem.byte (dst.pa + j) = BitVec.ofNat 8 (shVal r.shape / 256 ^ j))) ∧
  (∀ (s u : State) (k : Nat) (ch : Fin 4) (r : CopyReq) (f : CopyFault), s.exchanging = false → (s.chan k ch).state = .active →
    (s.chan k ch).req = some r → (s.chan k ch).done < r.total → s.nextBeat k ch (s.chan k ch) r = .fail f u →
    ∃ t : State, exec (.copySuspend k ch) s = .next t ∧
      (r.super ≠ k → (t.chan k ch).state = .suspended ∧ (t.chan k ch).fault = some f ∧ (t.chan k ch).req = some r ∧
        (t.chan k ch).done = (s.chan k ch).done) ∧
      (r.super = k → (t.chan k ch).state = .abandoned ∧ (t.chan k ch).req = none)) ∧
  (∀ (s : State) (n : Nat) (r : SymRef) (issuer vf : Nat) (word : Word), s.exchanging = false →
    s.cres[n]? = some (issuer, vf, some r, word) →
    let k := word.toNat % 8192
    let ch : Fin 4 := Fin.ofNat 4 (word.toNat / 2 ^ 13 % 4)
    let op := word.toNat / 2 ^ 16 % 4
    let bad := word.toNat / 2 ^ 18 ≠ 0 ∨ word.getLsbD 15 ∨ op = 3
    ∃ t : State, exec (.cresAtChannel n) s = .next t ∧ t.cres = dropAt s.cres n ∧
      (bad → t.arrivals = s.arrivals ++ [⟨issuer, r, Reg.data (BitVec.ofNat 64 (2 ^ 63 + 1)), []⟩] ∧ t.cores = s.cores) ∧
      (¬ bad → (s.chan k ch).state ≠ .suspended →
        t.arrivals = s.arrivals ++ [⟨issuer, r, Reg.data (BitVec.ofNat 64 (2 ^ 63 + 2)), []⟩] ∧ t.cores = s.cores) ∧
      ∀ (q : CopyReq) (f : CopyFault), ¬ bad → (s.chan k ch).state = .suspended → (s.chan k ch).req = some q → (s.chan k ch).fault = some f →
        q.super = issuer → s.inPartition vf k = true → (op = 1 → f.side = 0) →
        t.arrivals = s.arrivals ++ [⟨issuer, r, Reg.data 0, []⟩] ∧
          (op < 2 → (t.chan k ch).state = .active ∧ (t.chan k ch).req = some q ∧
            (t.chan k ch).skips = (s.chan k ch).skips ++ if op = 1 then [f] else []) ∧
          (op = 2 → (t.chan k ch).state = .abandoned ∧ (t.chan k ch).req = none)) ∧
  (∀ (s : State) (i : Nat) (q : RedBlock) (rest : List RedBlock), (s.stack i).active = none →
    (s.stack i).queue = q :: rest → ∃ t : State, exec (.redBlockStart i) s = .next t ∧ (t.stack i).active = some q ∧
      (t.stack i).queue = rest ∧ (t.stack i).done = 0 ∧ t.mem.cells = s.mem.cells) ∧
  ∀ (s : State) (i : Nat) (q : RedBlock), (s.stack i).active = some q →
    let b := q.block.toNat
    s.exchanging = false →
    (redCount b ≤ (s.stack i).done → redFlag b = 0 → ∃ t : State, exec (.redBlockCompletion i) s = .next t ∧
      (t.stack i).active = none ∧ t.mem = s.mem) ∧
    (∀ (dst : Place) (u : State), redCount b ≤ (s.stack i).done → redFlag b ≠ 0 → s.mem.wf = true →
      s.engineTo (.stack i) q.vf q.asid (redFlag b) [.write] = (.ok dst, u) →
      ∃ t : State, exec (.redBlockCompletion i) s = .next t ∧ (t.stack i).active = none ∧
        ∀ j < 2, t.mem.byte (dst.pa + j) = BitVec.ofNat 8 (redVal b / 256 ^ j)) ∧
    ∀ (detail addr : Nat) (u : State), (s.stack i).done < redCount b → s.redStep i q = .error ((detail, addr), u) → redFlag b = 0 →
      ∃ t : State, exec (.redFault i) s = .next t ∧ (t.stack i).active = none ∧ (t.stack i).done = 0 ∧ t.mem.cells = u.mem.cells

/-! ## Matrix units and the array -/

/-- R116, R264, R267, R274, R278 to R281, R284 to R289: a matrix instruction enters its command, with what it records at its issue,
in its core's queue of 8 and stalls at a full one; a TLD opens a window of its L instructions on its tile, whatever L is; TCFG sets a shape, an operand that R279, R281 or R286 rules out faults; ZEXP and
ZGET block until their value returns; MFIN gives register d an ephemeris. -/
def Obligations.MatrixInstructions : Prop :=
  ∀ (s : State),
    let m := s.mat s.cur
    let enters (t : State) (cmd : MatCmd) : Prop := ∃ carried,
      t.mat s.cur = { m with queue := m.queue ++ [⟨cmd, s.me.regionNo, carried⟩] }
    let queues (i : Instr) (cmd : MatCmd) : Prop :=
      (m.load < 8 → Runs i s [] fun t => enters t cmd ∧ t.mem = s.mem) ∧
        (8 ≤ m.load → Stalls i s .matrixQueue)
    let tile (d : TReg) := m.tiles[d.val]
    (∀ (i : Instr) (op : MmaOp) (c : FReg) (l : Look) (d : ZReg) (a b : TReg),
      (i, op) ∈ [(Instr.mmaBf c l d a b, MmaOp.bf), (.mmaH c l d a b, .h), (.mmaF32 c l d a b, .f32), (.mmaI8 c l d a b, .i8),
        (.mmaE44 c l d a b, .e44), (.mmaE55 c l d a b, .e55), (.mmaE45 c l d a b, .e45), (.mmaN4e c l d a b, .n4e),
        (.mmaN4 c l d a b, .n4)] → s.issues { reads := [.f c, .t a, .t b] } →
      (∀ x, s.me.readF false c = Reg.data x →
        queues i (.mma op d a b (tile a).shape (tile b).shape (x.toNat / 2 ^ 23 % 256) 0)) ∧
      ((s.me.readF false c).tag = .pois → queues i (.mma op d a b (tile a).shape (tile b).shape
        ((s.me.readF false c).value.toNat / 2 ^ 23 % 256) (s.me.readF false c).info))) ∧
    (∀ (d : TReg) (a : GReg) (x : Word), s.issues { reads := [.g a], writes := [.t d] } → s.me.readG a = Reg.data x →
      let cols := x.toNat % 512
      let rows := x.toNat / 2 ^ 16 % 32
      match Ty.ofCode (x.toNat / 2 ^ 12 % 16) with
      | some t =>
        if 1 ≤ rows ∧ rows ≤ 16 ∧ 1 ≤ cols ∧ cols ≤ 256 ∧ cols * tyWidth t ≤ 1024 ∧ x.toNat / 2 ^ 9 % 8 = 0 ∧
            x.toNat / 2 ^ 21 = 0 then
          Runs (.tcfg d a) s [] fun u => u.mem = s.mem ∧
            u.mat s.cur = { m with tiles := m.tiles.set d.val { tile d with shape := ⟨rows, t, cols⟩ } }
        else Faults (.tcfg d a) s 13 0 s.me.pc
      | none => Faults (.tcfg d a) s 13 0 s.me.pc) ∧
    (∀ (d : TReg) (a b : GReg) (x : Reg) (w : Word) (i : Instr) (iss : Issue) (perm : Perm) (right : Access)
        (cmd : Shape → List (List Extent) → List (List Extent) → MatCmd) (l : Look) (n4 : Bool) (pl sl : Nat → Place),
      (i, iss, perm, right, n4) ∈ [
        (Instr.tld l d a b, ({ reads := [.g a, .g b], writes := [.t d], look := l.val, tile := true } : Issue), Perm.r,
          Access.read, false),
        (.tldN4 l d a b, { reads := [.g a, .g b], writes := [.t d], look := l.val, tile := true }, .r, .read, true),
        (.tst d a b, { reads := [.g a, .g b, .t d] }, .w, .write, false)] →
      cmd = (if perm = .w then fun sh rows _ => .tst d sh rows else .tld n4 d) →
      s.issues iss → s.me.readG a = x → x.tag = .cap → s.me.readG b = Reg.data w →
      let sh := (tile d).shape
      let n := sh.rowBytes
      let row (r : Nat) := x.value.toNat + r * (w.toNat % 2 ^ 32)
      let side (r : Nat) := row r + w.toNat / 2 ^ 32 % 2 ^ 24
      let ok (va n align : Nat) (p : Place) : Prop := capFault x va n [perm] = 0 ∧ va % align = 0 ∧ 0 < n ∧
        va % 65536 + n ≤ 65536 ∧ s.translate s.cur va [right] = (.ok p, s)
      (w.toNat / 2 ^ 56 ≠ 0 ∨ (n4 = false ∧ w.toNat / 2 ^ 32 ≠ 0) → Faults i s 13 0 s.me.pc) ∧
      (w.toNat / 2 ^ 56 = 0 → (n4 = false → w.toNat / 2 ^ 32 = 0) →
        (∀ r < sh.rows, ok (row r) n (max (tyWidth sh.fmt / 8) 1) (pl r) ∧ (n4 = true → ok (side r) 8 8 (sl r))) →
        (m.load < 8 → Runs i s [] fun t => t.me.buf = [] ∧
          (perm = .r → ∃ w, t.me.windows.getLast? = some w ∧ w.regs = [.t d] ∧ w.pos = 0 ∧ w.len = l.val) ∧
          (perm = .w → ∀ w ∈ t.me.windows, ∃ v ∈ s.me.windows, w = { v with pos := v.pos + 1 }) ∧ enters t (cmd sh
          ((List.range sh.rows).map fun r => [⟨row r, (pl r).pa, n, (pl r).sc⟩])
          (if n4 then (List.range sh.rows).map fun r => [⟨side r, (sl r).pa, 8, (sl r).sc⟩] else []))) ∧
        (8 ≤ m.load → Stalls i s .matrixQueue))) ∧
    (∀ (d : ZReg) (a : GReg) (x : Word), s.issues { reads := [.g a] } → s.me.readG a = Reg.data x →
      queues (.zclr d a) (.zclr d x)) ∧
    (∀ (drop res : Bool) (d r : TReg) (z : ZReg) (b : FReg) (x : Word),
      s.issues { reads := (if drop then [.f b] else []) ++ (if res then [.t r] else []), writes := [.t d] } →
      (drop = true → s.me.readF false b = Reg.data x) → (drop = false → x = 0) →
      let good := (tile d).shape.fmt ∈ [Ty.f32, .f16, .bf16, .e4m3, .e5m2, .s32, .s16, .s8] ∧
        (res = true → (tile r).shape.fmt ∈ [Ty.f32, .f16, .bf16, .s32])
      (good → queues (.zdrn drop res d z r b)
        (.zdrn drop res d z r (tile d).shape (tile r).shape (x.truncate 32) s.me.dseed s.me.dkeep)) ∧
      (¬ good → Faults (.zdrn drop res d z r b) s 13 0 s.me.pc)) ∧
    (∀ (d b : GReg) (z : ZReg) (i : Instr) (cmd : MatCmd) (x : Word), s.me.readG b = Reg.data x →
      (i = .zexp d z ∧ cmd = .zexp d z ∧ s.issues { writes := [.g d] }) ∨
        (i = .zget d z b ∧ cmd = .zget d z (x.toNat % 256) ∧ s.issues { reads := [.g b], writes := [.g d] }) →
      (s.me.wait ≠ some .unitValue → m.load < 8 → ∃ t : State, exec i s = .next t ∧ t.me.wait = some .unitValue ∧
        t.me.pc = s.me.pc ∧ enters t cmd) ∧
      (s.me.wait ≠ some .unitValue → 8 ≤ m.load → Stalls i s .matrixQueue) ∧
      (s.me.wait = some .unitValue → m.value = none → Stalls i s .unitValue) ∧
      ∀ v, s.me.wait = some .unitValue → m.value = some v → Runs i s [.g d] fun t => t.me.readG d = written d v ∧
        t.mat s.cur = { m with value := none }) ∧
    ∀ (d : GReg), s.issues { writes := [.g d] } →
      (d = 0 → Passes (.mfin d) s) ∧ (d ≠ 0 → 8 ≤ m.load → Stalls (.mfin d) s .matrixQueue) ∧
      (d ≠ 0 → m.load < 8 → s.symReady d → Runs (.mfin d) s [.g d] fun t => ∃ r, LateG s t d .i64 (some r) ∧
        enters t (.mfin r))

/-- R173, R174, R264 to R275, R282 to R289: the unit performs the command that its arbitration grants, where an exchange holds none
of its extents. MMA aligns its chunk sums to the exponent, halves the tile until every finite element fits below 2^47, and adds; it
leaves every other register. ZCLR writes zero at its exponent, ZDRN writes one tile, TLD a row's elements from the row's bytes, TST
a row's bytes to its extents alone, ZEXP and ZGET return a value, MFIN resolves; an empty queue's tiles and accumulators are those of
reset under another function or ASID. -/
def Obligations.MatrixSteps : Prop :=
  (∀ (s : State) (u k n : Nat) (r : Resource) (e : MatEntry), s.matGrant u r = some (k, n) →
    (s.mat k).queue[n]? = some e → (∀ x ∈ e.cmd.extents, s.heldSpan x.pa x.size = false) →
    let m := s.mat k
    let gone := dropAt m.queue n
    (∀ x ∈ gone.head?, x.cmd.isRenew = false) →
    let keeps (t : State) (zs : List ZReg) (ts : List TReg) : Prop := (t.mat k).queue = gone ∧
      (∀ z : ZReg, z ∉ zs → (t.mat k).accs[z.val] = m.accs[z.val]) ∧
      (∀ d : TReg, d ∉ ts → (t.mat k).tiles[d.val] = m.tiles[d.val]) ∧
      (∀ d : TReg, (t.mat k).tiles[d.val].shape = m.tiles[d.val].shape) ∧ t.cores = s.cores ∧ ∀ j ≠ k, t.mat j = s.mat j
    (∀ op z a b sa sb p pois, r = .array → e.cmd = .mma op z a b sa sb p pois →
      ∃ t : State, exec (.mmaExecute u) s = .next t ∧ keeps t [z] [] ∧ t.mem = s.mem ∧
        let old := m.accs[z.val].body
        let new := (t.mat k).accs[z.val].body
        old.e ≤ new.e ∧ new.orgRow = old.orgRow ∧ new.orgCol = old.orgCol ∧ (old.pois ≠ 0 → new.pois = old.pois) ∧
        (old.pois = 0 → new.pois = firstRecord m.tiles[a.val].pois (firstRecord m.tiles[b.val].pois pois)) ∧
        (∀ j : Fin 256, old.code[j.val] = 3 → new.code[j.val] = 3) ∧
        ((∀ j : Fin 256, old.m[j.val].natAbs < 2 ^ 47) → ∀ j : Fin 256, new.m[j.val].natAbs < 2 ^ 47) ∧
        (let c (j : Fin 256) : ChunkSum := chunkOf op m.tiles[a.val] m.tiles[b.val] sa sb (j.val / 16) (j.val % 16)
          let half (i : Nat) (j : Fin 256) : Int := (fun x => rneScale x (-1))^[i] old.m[j.val]
          let next (i : Nat) (j : Fin 256) : Int := half i j + rneScale (c j).sum (p - 427 - (old.e + i))
          let fits (i : Nat) : Prop := ∀ j : Fin 256, new.code[j.val] = 0 → (next i j).natAbs < 2 ^ 47
          (∀ j : Fin 256, new.code[j.val] = (c j).code old.code[j.val]) ∧
          (-32768 ≤ old.e → ∃ i : Nat, new.e = old.e + i ∧ (∀ q < i, old.e + q < 32767 ∧ ¬ fits q) ∧
            (¬ fits i → 32767 ≤ new.e) ∧ ∀ j : Fin 256, (new.code[j.val] ≠ 0 → new.m[j.val] = half i j) ∧
              (new.code[j.val] = 0 → fits i → new.m[j.val] = next i j) ∧
              (new.code[j.val] = 0 → ¬ fits i → new.m[j.val] = max (-(2 ^ 47 - 1)) (min (2 ^ 47 - 1) (next i j))))) ∧
        ((t.mat k).accs[z.val].mark = some e.region) ∧ (m.accs[z.val].mark ≠ some e.region →
          (t.mat k).accs[z.val].image = old)) ∧
    (∀ z w, r = .port → e.cmd = .zclr z w → ∃ t : State, exec (.zclrExecute u) s = .next t ∧ keeps t [z] [] ∧ t.mem = s.mem ∧
      let new := (t.mat k).accs[z.val].body
      (∀ j : Fin 256, new.m[j.val] = 0 ∧ new.code[j.val] = 0) ∧ new.pois = 0 ∧ new.e = (w.truncate 16).toInt ∧
      new.orgRow = BitVec.ofNat 24 (w.toNat / 2 ^ 16) ∧ new.orgCol = BitVec.ofNat 24 (w.toNat / 2 ^ 40)) ∧
    (∀ drop res d z rt sh rsh p seed keep, r = .port → e.cmd = .zdrn drop res d z rt sh rsh p seed keep →
      ∃ t : State, exec (.zdrnExecute u) s = .next t ∧ keeps t [] [d] ∧ t.mem = s.mem ∧
        (∀ i : Fin 16, ∀ j : Fin 16, drop = false → res = false →
          (t.mat k).tiles[d.val].elem (tyWidth sh.fmt) i.val j.val = tyConvert sh.fmt .rne 52
            (m.accs[z.val].body.value (Fin.ofNat 256 (16 * i.val + j.val))) % 2 ^ tyWidth sh.fmt) ∧
        ∀ i : Fin 16, ∀ q : Fin 8, (t.mat k).tiles[d.val].scaleByte i.val q.val = 0x20) ∧
    (∀ d z, r = .port → e.cmd = .zexp d z → ∃ t : State, exec (.zexpZgetReturn u) s = .next t ∧ keeps t [] [] ∧ t.mem = s.mem ∧
      let body := m.accs[z.val].body
      (body.pois = 0 → (t.mat k).value = some (Reg.data (BitVec.ofInt 64 body.e))) ∧
      (body.pois ≠ 0 → (t.mat k).value = some ⟨.pois, 0, body.pois⟩)) ∧
    (∀ d z j, r = .port → e.cmd = .zget d z j → j < 256 → ∃ t : State, exec (.zexpZgetReturn u) s = .next t ∧ keeps t [] [] ∧
      t.mem = s.mem ∧
      let body := m.accs[z.val].body
      let x := Fin.ofNat 256 j
      (body.pois = 0 → (t.mat k).value = some (Reg.data
        (BitVec.ofNat 64 (body.code[x.val].toNat * 2 ^ 48 + (BitVec.ofInt 48 body.m[x.val]).toNat)))) ∧
      (body.pois ≠ 0 → (t.mat k).value = some ⟨.pois, 0, body.pois⟩)) ∧
    (∀ n4 d sh rows sides, r = .path → e.cmd = .tld n4 d sh rows sides →
      ∃ t : State, exec (.tldExecute u) s = .next t ∧ keeps t [] [d] ∧ t.mem.cells = s.mem.cells ∧
        (n4 = false → ∀ i : Fin 16, ∀ q : Fin 8, (t.mat k).tiles[d.val].scaleByte i.val q.val = 0x20) ∧
        (sh.cols * tyWidth sh.fmt ≤ 1024 → ∀ i : Fin 16, ∀ j < sh.cols,
          let x := (t.mat k).tiles[d.val].elem (tyWidth sh.fmt) i.val j
          (rows.length ≤ i.val → x = 0) ∧ ∀ l, rows[i.val]? = some l →
            x = leNat (l.flatMap fun q => (List.range q.size).map fun y => t.mem.view (.matrix (unitOf k)) (q.pa + y)) /
              2 ^ (tyWidth sh.fmt * j) % 2 ^ tyWidth sh.fmt)) ∧
    ∀ d sh rows, r = .path → e.cmd = .tst d sh rows → s.mem.wf = true →
      ∃ t : State, exec (.tstExecute u) s = .next t ∧ keeps t [] [] ∧ t.mem.wf = true ∧
        (∀ x, (∀ l ∈ rows, ∀ q ∈ l, x < q.pa ∨ q.pa + q.size ≤ x) → t.mem.byte x = s.mem.byte x) ∧
        ∀ (above below : List (List Extent)) (left right : List Extent) (q : Extent) (j : Nat),
          rows = above ++ (left ++ q :: right) :: below → j < q.size → m.tiles[d.val].pois = 0 →
          let at_ := (left.map (·.size)).sum + j
          at_ < 128 → (∀ x ∈ right ++ below.flatten, q.pa + j < x.pa ∨ x.pa + x.size ≤ q.pa + j) →
          t.mem.byte (q.pa + j) = BitVec.ofNat 8 (m.tiles[d.val].data.toNat / 2 ^ (1024 * above.length + 8 * at_))) ∧
  (∀ (s : State) (k asid vf : Nat), (s.mat k).queue = [] → (s.mat k).owner ≠ (asid, vf) →
    let t := s.matOwner k asid vf
    (t.mat k).owner = (asid, vf) ∧ (∀ d : TReg, (t.mat k).tiles[d.val] = Tile.reset) ∧
      ∀ z : ZReg, (t.mat k).accs[z.val] = Acc.reset) ∧
  ∀ (s : State) (k : Nat) (res : SymRef) (e : MatEntry) (rest : List MatEntry), (s.mat k).queue = e :: rest →
    (∀ x ∈ rest.head?, x.cmd.isRenew = false) → e.cmd = .mfin res → ∃ t ids, exec (.mfinResolution k) s = .next t ∧ (t.mat k).queue = rest ∧
      t.arrivals = s.arrivals ++ [⟨k, res, Reg.data 0, ids⟩] ∧ t.mem.cells = s.mem.cells

/-- R296, R299 to R303: ACFG exchanges the configuration, ALOAD, AEVAL and AGTH enter their command in the queue of 4 with its
extents, KEY and format, and register d receives an ephemeris; a count outside 1 to 65536 or an overlapping output faults. That a CAP
serves as a count word is the choice of log 29, that the operands are checked before the stall at a full queue that of log 32, and
the stall while a TLD has its tile to read that of log 61. -/
def Obligations.ArrayInstructions : Prop :=
  ∀ (s : State) (d a b : GReg),
    let r (n : GReg) := s.me.readG n
    let ext (x : Reg) (n align : Nat) (perm : Perm) (right : Access) (l : List Extent) : Prop := x.tag = .cap ∧
      capFault x x.value.toNat n [perm] = 0 ∧ x.value.toNat % align = 0 ∧
      State.extents s.cur [right] (n / 65536 + 2) x.value.toNat n s = (.ok l, s)
    let apart (x : Reg) (n : Nat) (y : Reg) (k : Nat) : Prop :=
      x.value.toNat + n ≤ y.value.toNat ∨ y.value.toNat + k ≤ x.value.toNat
    let enters (i : Instr) (cmd : ArrCmd) : Prop :=
      (4 ≤ s.me.arrQueue.length → Stalls i s .arrayQueue) ∧
      (s.me.arrQueue.length < 4 → s.tileDue = true → Stalls i s .lookahead) ∧
      (s.me.arrQueue.length < 4 → s.tileDue = false → s.symReady d → Runs i s [.g d] fun t => t.me.buf = [] ∧ ∃ (res : Option SymRef) (e : ArrEntry), LateG s t d .i64 res ∧
        t.me.arrQueue = s.me.arrQueue ++ [e] ∧ e.cmd = cmd ∧ e.res = res ∧ e.key = s.me.arrCfg.toNat / 2 ^ 32 % 2 ^ 16 ∧
        e.fmt = s.me.arrCfg.getLsbD 0 ∧ e.asid = s.me.asid ∧ e.vf = s.me.vfid ∧ e.region = s.me.regionNo)
    (s.issues { reads := [.g a], writes := [.g d] } →
      (∀ x : Word, r a = Reg.data x → x &&& 0xFFFF0000FFFFFFFE = 0 → ∃ t : State, exec (.acfg d a) s = .next t ∧
        t.me.pc = s.me.pc + 4 ∧ OnlyCore s t s.cur ∧ t.me.arrCfg = x ∧ t.me.readG d = written d (Reg.data s.me.arrCfg) ∧
        s.me.KeepsBut { t.me with arrCfg := s.me.arrCfg } [.g d]) ∧
      (∀ x : Word, r a = Reg.data x → x &&& 0xFFFF0000FFFFFFFE ≠ 0 → Faults (.acfg d a) s 14 0 s.me.pc) ∧
      ∀ l, ext (r a) 131072 64 .r .read l → enters (.aload d a) (.aload l)) ∧
    (∀ (c : Word), (r (a + 1)).value = c → (r (a + 1)).tag = .data ∨ (r (a + 1)).tag = .cap → s.issues { reads := [.g a, .g (a + 1), .g b], writes := [.g d] } →
      let n := c.toNat
      (n = 0 ∨ 65536 < n → (r a).tag = .cap → (r b).tag = .cap → Faults (.aeval d a b) s 14 0 s.me.pc) ∧
      ∀ f o, 0 < n → n ≤ 65536 → ext (r a) (n * 512) 64 .r .read f → ext (r b) (n * 128) 64 .w .write o →
        (apart (r a) (n * 512) (r b) (n * 128) → enters (.aeval d a b) (.aeval n f o)) ∧
        (¬ apart (r a) (n * 512) (r b) (n * 128) → Faults (.aeval d a b) s 14 0 s.me.pc)) ∧
    ∀ (c : Word), (r (a + 2)).value = c → (r (a + 2)).tag = .data ∨ (r (a + 2)).tag = .cap →
      s.issues { reads := [.g a, .g (a + 1), .g (a + 2), .g (a + 3), .g b], writes := [.g d] } →
      let n := c.toNat
      ∀ f w o, 0 < n → n ≤ 65536 → ext (r a) (n * 128) 64 .r .read f → ext (r (a + 1)) 32768 64 .r .read w →
        ext (r b) (n * 4) 4 .w .write o → apart (r a) (n * 128) (r b) (n * 4) → apart (r (a + 1)) 32768 (r b) (n * 4) →
        (r (a + 3) = Reg.data 0 → enters (.agth d a b) (.agth n f w [] o)) ∧
        ∀ p, ext (r (a + 3)) (n * 4) 4 .r .read p → apart (r (a + 3)) (n * 4) (r b) (n * 4) →
          enters (.agth d a b) (.agth n f w p o)

/-- R292 to R294, R296, R301 to R304: the array performs the command that it grants, where an exchange holds none of its extents,
and its status arrives. ALOAD of the image it holds reads nothing, of another one it loads the valid cells of the bytes it reads, of
a poisoned one none; a command of another image is refused; memory stays canonical; a leaf is the lowest one that every cell leaves,
and the order of terms does not change a score. -/
def Obligations.ArraySteps : Prop :=
  (∀ (s : State) (d k : Nat) (e : ArrEntry) (rest : List ArrEntry) (r : SymRef), d < 64 → s.arrGrant d = some k →
    domeOf k = d → (s.core k).arrQueue = e :: rest → e.res = some r →
    (∀ x ∈ e.cmd.extents, s.heldSpan x.pa x.size = false) → s.mem.wf = true →
    let a := s.alm d
    let same := a.ivalid = true ∧ a.key = e.key ∧ a.asid = e.asid ∧ a.vf = e.vf
    let arrives (t : State) (v : Word) : Prop := (t.core k).arrQueue = rest ∧ (t.alm d).turn = some k ∧
      ∃ ids, t.arrivals = s.arrivals ++ [⟨k, r, Reg.data v, ids⟩]
    let ready := s.setMem (s.mem.acquire (s.mem.live e.carried) (.array d))
    (∀ image, e.cmd = .aload image → ∃ t : State, exec (.aloadExecute d) s = .next t ∧ t.mem.cells = s.mem.cells ∧
      t.mem.wf = true ∧
      let read := (ready.checkedAll image).mem.arrayRead d image
      let word (i : Nat) : Nat := leNat ((read.1.drop (16 * i)).take 16)
      (same → a.fmt = e.fmt → arrives t 0 ∧ (t.alm d).cells = a.cells ∧ t.mem = ready.mem) ∧
      (¬ (same ∧ a.fmt = e.fmt) → read.2 = true → arrives t 0x8000000000000001 ∧ (t.alm d).ivalid = false) ∧
      (¬ (same ∧ a.fmt = e.fmt) → read.2 = false → arrives t 0 ∧ (t.alm d).ivalid = true ∧
        (t.alm d).key = e.key ∧ (t.alm d).fmt = e.fmt ∧ (t.alm d).asid = e.asid ∧ (t.alm d).vf = e.vf ∧
        ∀ (i : Nat) (c : ArrCell), (i, c) ∈ (t.alm d).cells ↔ i < 8192 ∧ word i / 2 ^ 25 % 2 = 1 ∧
          c = ⟨BitVec.ofNat 16 (word i), BitVec.ofNat 8 (word i / 2 ^ 16), decide (word i / 2 ^ 24 % 2 = 1), true,
            BitVec.ofNat 64 (word i / 2 ^ 32)⟩)) ∧
    (∀ n f o, e.cmd = .aeval n f o → ∃ t : State, exec (.aevalExecute d) s = .next t ∧ t.mem.wf = true ∧
      (¬ same → arrives t 0x8000000000000002 ∧ t.mem = ready.mem) ∧
      (same → arrives t 0 ∧ ∀ x, (∀ q ∈ o, x < q.pa ∨ q.pa + q.size ≤ x) → t.mem.byte x = s.mem.byte x)) ∧
    ∀ n f w p o, e.cmd = .agth n f w p o → ∃ t : State, exec (.agthExecute d) s = .next t ∧ arrives t 0 ∧ t.mem.wf = true ∧
      ∀ x, (∀ q ∈ o, x < q.pa ∨ q.pa + q.size ≤ x) → t.mem.byte x = s.mem.byte x) ∧
  (∀ (a : AlmArray) (feature : Nat → Nat) (col i : Nat), i < 64 →
    let left (j : Nat) : Prop := ∀ c ∈ a.cells, c.1 / 64 = col → c.2.v = true →
      c.2.right a.fmt (feature c.2.fidx.toNat) = true → c.2.mask.getLsbD j = true
    (a.leaf feature col = i ↔ left i ∧ ∀ j < i, ¬ left j)) ∧
  ∀ (x y : List Nat), x.Perm y → (∀ c ∈ x, fp32.isNan c = false) → gather x = gather y

/-! ## Near units and homes -/

/-- R306 to R314, R319: near moves read before they write; guards, ports, latches, the ALU, comparisons, loads, stores, jmp and end
do what the port table says; a source that cannot be read, or a destination that cannot be written, faults; the index and the count
move on. -/
def Obligations.NearInstructions : Prop :=
  ∀ (s : State) (h u qi seq : Nat) (e : Entry), s.nearCur = some (h, u) → qi < 8 → (s.near h u).mode = .running qi seq →
    s.entryAt h qi seq = some e → (s.near h u).count < 1048576 →
    let x := s.near h u
    let next (i : Instr) (y : NearUnit) : Prop := ∃ t : State, exec i s = .next t ∧ t.near h u = { y with
        index := x.index + 1
        count := x.count + 1 } ∧ t.cores = s.cores ∧ t.mem = s.mem
    let faults (i : Instr) (detail slot : Nat) : Prop := exec i s = .next (s.nearFaultOf h u qi e detail slot x.index)
    let imm (w : BitVec 32) (f : Fin 3) (v : BitVec 16) : Prop := w = (match f.val with
      | 0 => v.zeroExtend 32 | 1 => v.signExtend 32 | _ => v.zeroExtend 32 <<< (16 : Nat))
    x.index + 1 < x.image.code.length →
    (∀ (g : Fin 4) (f : Fin 3) (d : Port) (v : BitVec 16) (w : BitVec 32), imm w f v → x.k.getLsbD g.val = false →
      next (.nearImmediateMove f g d v) x) ∧
    (∀ (g : Fin 4) (f : Fin 3) (d : Port) (v : BitVec 16) (w : BitVec 32), imm w f v → x.k.getLsbD g.val = true →
      let i := Instr.nearImmediateMove f g d v
      let val : NearVal := ⟨Vector.replicate 8 w, 0⟩
      let alu (f : BitVec 32 → BitVec 32 → BitVec 32) : Prop := next i { x with
        res := ⟨Vector.ofFn fun j => f x.o.lanes[j.val] w, x.o.pois⟩ }
      let cmp (g : Nat) (b : Bool) : Prop := x.o.pois.getLsbD 0 = false → ∃ k : BitVec 4, next i { x with k := k } ∧
        ∀ j < 4, k.getLsbD j = if j = g then b else x.k.getLsbD j
      (∀ r : Fin 8, d.val = r.val → next i { x with n := x.n.set r.val val }) ∧
      (d.val = 0x0C → next i { x with k := w.truncate 4 }) ∧ (d.val = 0x0F → next i x) ∧
      (d.val = 0x10 → next i { x with o := val }) ∧ (d.val = 0x1E → next i { x with sta := w }) ∧
      (d.val = 0x20 → next i { x with stm := w.truncate 8 }) ∧
      (d.val = 0x12 → alu (· + ·)) ∧ (d.val = 0x13 → alu (· - ·)) ∧ (d.val = 0x14 → alu (· &&& ·)) ∧
      (d.val = 0x15 → alu (· ||| ·)) ∧ (d.val = 0x16 → alu (· ^^^ ·)) ∧
      (d.val = 0x17 → alu fun a b => if a.toInt ≤ b.toInt then a else b) ∧
      (d.val = 0x18 → alu fun a b => if a.toInt ≤ b.toInt then b else a) ∧
      (d.val = 0x19 → alu fun a b => a <<< (b.toNat % 32)) ∧ (d.val = 0x1A → alu fun a b => a >>> (b.toNat % 32)) ∧
      (d.val = 0x1B → alu (· * ·)) ∧
      (∀ g < 4, let a := x.o.lanes[0]
        (d.val = 0x24 + g → cmp g (decide (a = w))) ∧ (d.val = 0x28 + g → cmp g (decide (a ≠ w))) ∧
        (d.val = 0x2C + g → cmp g (decide (a.toInt < w.toInt))) ∧ (d.val = 0x30 + g → cmp g (decide (w.toInt ≤ a.toInt))) ∧
        (d.val = 0x34 + g → cmp g (decide (a.toNat < w.toNat))) ∧ (d.val = 0x38 + g → cmp g (decide (w.toNat ≤ a.toNat)))) ∧
      (d.val = 0x1C → x.fifo.length < 4 → e.chunkOk w.toNat false = true →
        next i { x with fifo := x.fifo ++ [⟨w.toNat, none⟩] }) ∧
      (d.val = 0x1C → x.fifo.length < 4 → e.chunkOk w.toNat false = false → faults i 4 0) ∧
      (d.val = 0x1C → 4 ≤ x.fifo.length → e.chunkOk w.toNat false = true → faults i 6 0) ∧
      (d.val = 0x1F → 4 ≤ x.writes.length → e.chunkOk x.sta.toNat true = true → exec i s = .next s) ∧
      (d.val = 0x1F → x.writes.length < 4 → e.chunkOk x.sta.toNat true = true →
        ((∀ c ∈ x.fifo, c.arrived ≠ none) → next i { x with writes := x.writes ++ [⟨x.sta.toNat, val, x.stm⟩] }) ∧
        ((∃ c ∈ x.fifo, c.arrived = none) → ∃ t : State, exec i s = .next t ∧
          (t.near h u).writes = [⟨x.sta.toNat, val, x.stm⟩] ∧ (t.near h u).fifo.map (·.off) = x.fifo.map (·.off) ∧
          ∀ c ∈ (t.near h u).fifo, c.arrived ≠ none)) ∧
      (d.val = 0x21 → w.toNat % 256 < x.image.code.length → ∃ t : State, exec i s = .next t ∧ t.near h u = { x with
        index := w.toNat % 256
        count := x.count + 1 }) ∧
      (d.val = 0x22 → ∃ t : State, exec i s = .next t ∧ (t.near h u).mode = .retiring qi e.seq ∧ (t.near h u).fifo = []) ∧
      (d.val ∈ [0x08, 0x09, 0x0A, 0x0B, 0x0D, 0x0E, 0x11, 0x1D, 0x23, 0x3C, 0x3D, 0x3E, 0x3F] → faults i 3 0)) ∧
    (∀ (g0 g1 : Fin 4) (s0 s1 d0 d1 : Port), x.k.getLsbD g0.val = true → d0.val < 8 → s0.val ≠ 0x1D →
      let i := Instr.nearTwoMoves g1 s1 d1 g0 s0 d0
      let lanes (w : Nat) : Vector (BitVec 32) 8 := Vector.ofFn fun j => BitVec.ofNat 32 (w / 2 ^ (32 * j.val))
      let all (w : Nat) : NearVal := ⟨Vector.replicate 8 (BitVec.ofNat 32 w), 0⟩
      let gets (v : NearVal) : Prop := x.k.getLsbD g1.val = false → next i { x with n := x.n.set (Fin.ofNat 8 d0.val).val v }
      (s0.val < 8 → gets x.n[Fin.ofNat 8 s0.val]) ∧ (s0.val = 0x08 → gets ⟨lanes e.desc.anchor, 0⟩) ∧
      (s0.val = 0x09 → gets (all (e.desc.alen + 1))) ∧ (s0.val = 0x0B → gets (all e.seq)) ∧
      (s0.val = 0x0A → gets ⟨Vector.ofFn fun j => BitVec.ofNat 32 ((e.desc.args[j.val / 2]).toNat / 2 ^ (32 * (j.val % 2))), 0⟩) ∧
      (s0.val = 0x0C → gets (all x.k.toNat)) ∧ (s0.val = 0x0D → gets ⟨Vector.ofFn fun j => BitVec.ofNat 32 j.val, 0⟩) ∧
      (s0.val = 0x0E → gets (all 0)) ∧ (s0.val = 0x11 → gets x.res) ∧
      let unreadable (p : Port) : Prop := p.val = 0x0F ∨ p.val = 0x10 ∨ 0x12 ≤ p.val ∧ p.val ≠ 0x1D
      (x.k.getLsbD g1.val = false → unreadable s0 → faults i 3 0) ∧
      (x.k.getLsbD g1.val = true → s0.val < 8 → d1.val < 8 → unreadable s1 → faults i 3 1) ∧
      (x.k.getLsbD g1.val = true → s0.val < 8 → s1.val < 8 → d1.val < 8 → next i { x with
        n := (x.n.set (Fin.ofNat 8 d0.val).val x.n[Fin.ofNat 8 s0.val]).set (Fin.ofNat 8 d1.val).val x.n[Fin.ofNat 8 s1.val] })) ∧
    ∀ (g0 g1 : Fin 4) (s1 s0 d1 d0 : Port) (c : Chunk) (rest : List Chunk) (v : NearVal), x.k.getLsbD g0.val = true →
      x.k.getLsbD g1.val = false → d0.val < 8 → s0.val = 0x1D → x.fifo = c :: rest →
      (c.arrived = some v → next (.nearTwoMoves g1 s1 d1 g0 s0 d0) { x with
        n := x.n.set (Fin.ofNat 8 d0.val).val v
        fifo := rest }) ∧
      (c.arrived = none → exec (.nearTwoMoves g1 s1 d1 g0 s0 d0) s = .next s)

/-- R66, R71, R72, R313 to R317, R319: a near unit takes the first takeable head, starts its body, reads its chunks, performs its
stores in order, and retires its task; a fault, the instruction limit and a reserved form end it faulted. That the pointer of R66 moves
when the head is selected is the model's choice (log 71). -/
def Obligations.NearSteps : Prop :=
  ∀ (s : State) (h u qi seq : Nat) (e : Entry), qi < 8 → s.entryAt h qi seq = some e →
    let x := s.near h u
    let done (t : State) : Prop := (t.near h u).mode = .idle ∧ (t.near h u).writes = [] ∧ (t.near h u).fifo = [] ∧
      (t.near h u).cache = x.cache ∧ ∀ y ∈ ((t.home h).queue qi).entries, y.seq ≠ e.seq
    (∀ detail slot index, done (s.nearFaultOf h u qi e detail slot index)) ∧
    (x.mode = .running qi seq →
      (∀ detail, s.nearCur = some (h, u) → x.count < 1048576 →
        exec (.nearReservedForm detail) s = .next (s.nearFaultOf h u qi e detail 0 x.index)) ∧
      (1048576 ≤ x.count → exec (.nearInstructionLimit h u) s = .next (s.nearFaultOf h u qi e 9 0 x.index)) ∧
      (∀ before c after, x.writes = [] → x.fifo = before ++ c :: after → (∀ b ∈ before, b.arrived ≠ none) →
        c.arrived = none → ∃ t v, exec (.nearChunkArrival h u) s = .next t ∧ t.mem.cells = s.mem.cells ∧
          t.near h u = { x with fifo := before ++ { c with arrived := some v } :: after } ∧
          ∀ j : Fin 8, (∀ b < 4, e.inside (e.base + c.off + 4 * j.val + b) = true) →
            v.lanes[j.val] = BitVec.ofNat 32 (s.mem.viewNat (.nearUnit h u) (e.base + c.off + 4 * j.val) 4)) ∧
      ∀ w rest, x.writes = w :: rest → s.mem.wf = true → ∃ t : State, exec (.nearWriteQueueDrain h u) s = .next t ∧
        t.near h u = { x with writes := rest } ∧ t.mem.wf = true ∧
        (∀ a, a < e.base + w.off ∨ e.base + w.off + 32 ≤ a ∨ e.inside a = false → t.mem.byte a = s.mem.byte a) ∧
        ∀ j : Fin 8, ∀ b < 4, e.inside (e.base + w.off + 4 * j.val + b) = true →
          t.mem.byte (e.base + w.off + 4 * j.val + b) = if w.mask.getLsbD j.val
            then BitVec.ofNat 8 ((w.value.lanes[j.val]).toNat / 256 ^ b) else s.mem.byte (e.base + w.off + 4 * j.val + b)) ∧
    (x.mode = .retiring qi seq → x.writes = [] → ∃ t : State, exec (.nearTaskRetirement h u) s = .next t ∧ done t) ∧
    (x.mode = .header qi seq → (∃ t : State, exec (.nearHeaderReadComplete h u) s = .next t ∧
      ((s.nearImage h u e).1 = none → done t) ∧
      ∀ i, (s.nearImage h u e).1 = some i → (t.near h u).mode = .running qi seq ∧ (t.near h u).index = 0 ∧
        (t.near h u).count = 0 ∧ (t.near h u).k = NearUnit.reset.k ∧ (t.near h u).image = i ∧
        i ∈ (t.near h u).cache ∧ (t.near h u).cache.length ≤ 4)) ∧
    (x.mode = .idle → s.takesNear h = true → (s.home h).takeable qi = some e →
      (∀ j < 8, j < (qi + 7 - (s.home h).ptr % 8) % 8 → (s.home h).takeable (((s.home h).ptr + 1 + j) % 8) = none) →
      ∃ t : State, exec (.nearTake h u) s = .next t ∧ (t.near h u).mode = .header qi e.seq ∧ (t.home h).ptr = qi ∧ t.mem = s.mem ∧
        ∀ y ∈ ((t.home h).queue qi).entries, y.seq = e.seq → y.headerRead = true)

/-- R33, R63, R64, R73 to R75, R78 to R81, R405: what a home does with an enqueue, whose anchors it first translates, a configuration, a
lease request and its end, and with its refreshes. An enqueue, and an NFREE that asks for a message, let their launch go once they are
answered (log 62); that LEASED reads 1 and an NFREE finds no lease while the home returns to shared mode is the model's reading
(log 63), that an NLEASE waits meanwhile, and what it does for a launch that has completed, the model's choice (log 64), as is the code 5
of a batch that would carry a target's MEMBERS past its 32 bits (log 69). -/
def Obligations.HomeSteps : Prop :=
  (∀ (s : State) (n base top perms : Nat) (who : Asker) (r : SymRef) (descs : List (Option (BitVec 512)))
      (ids : List Nat), s.hreqs[n]? = some (.enqueue who (some r) descs base top perms ids) →
    let s1 : State := { s with hreqs := dropAt s.hreqs n }
    let core := who.core
    let q : Enqueuer := ⟨.core core, core, who.vf, who.asid, who.job, who.launch, some (base, top), perms, none⟩
    let raws := descs.map fun d => (d.getD 0).toNat
    let s2 := raws.foldl (State.anchorWalk q) s1
    let codes := raws.flatMap (s2.taskCodes q) ++ (if raws.any (s2.overfills q raws) then [5] else []) ++ s2.batchCodes q raws
    ∃ t : State, exec (.homeEnqueue n) s = .next (t.unpin who.launch) ∧ t.hreqs = dropAt s.hreqs n ∧
      (none ∈ descs → t.homes = s.homes ∧
        t.arrivals = s.arrivals ++ [⟨core, r, Reg.data 0x8000000000000009, []⟩]) ∧
      (none ∉ descs → ∀ c ∈ codes, (∀ e ∈ codes, c ≤ e) → t.homes = s.homes ∧
        t.arrivals = s.arrivals ++ [⟨core, r, Reg.data (BitVec.ofNat 64 (2 ^ 63 + c)), []⟩]) ∧
      ∀ raw rest h qi, none ∉ descs → codes = [] → raws = raw :: rest → s2.taskQueue q raw = some (h, qi) →
        t.arrivals = s.arrivals ++ [⟨core, r, Reg.data (BitVec.ofNat 64
          (qi * 2 ^ 41 + h * 2 ^ 32 + ((s.home h).queue qi).counter)), []⟩] ∧
        ((t.home h).queue qi).entries.length = ((s.home h).queue qi).entries.length + raws.length ∧
        ((t.home h).queue qi).counter = (((s.home h).queue qi).counter + raws.length) % 2 ^ 32) ∧
  (∀ (s : State) (n core h : Nat) (r : SymRef) (w : Word), s.hreqs[n]? = some (.config core (some r) h w) →
    let qi := w.toNat / 2 ^ 15 % 8
    let q := (s.home h).queue qi
    let bad := w.toNat / 2 ^ 20 % 2 ^ 43 ≠ 0 ∨ w.toNat / 2 ^ 12 % 8 ≠ 0
    ∃ t : State, exec (.homeQueueConfigure n) s = .next t ∧
      (bad → t.homes = s.homes ∧ t.arrivals = s.arrivals ++ [⟨core, r, Reg.data 0x8000000000000001, []⟩]) ∧
      (¬ bad → (∃ b, t.arrivals = s.arrivals ++ [⟨core, r, Reg.data (BitVec.ofNat 64 ((s.home h).debt * 2 ^ 56 + b * 2 ^ 55 +
          q.dpri * 2 ^ 53 + (q.entries.filter (·.cond == .waiting)).length * 2 ^ 32 + q.entries.length * 2 ^ 16 + q.thresh)), []⟩] ∧
          b = if (s.home h).lease.isSome || (s.home h).returning then 1 else 0) ∧
        (w.getLsbD 63 = true → ((t.home h).queue qi).thresh = w.toNat % 2 ^ 12 ∧
          ((t.home h).queue qi).dpri = w.toNat / 2 ^ 18 % 4) ∧
        (w.getLsbD 63 = false → t.homes = s.homes))) ∧
  (∀ (s : State) (n core h launch count : Nat) (born : Option Nat) (r : SymRef),
    s.hreqs[n]? = some (.lease core (some r) h launch born count) →
    let x := s.home h
    let stops := (s.stack (h / 32)).recal = true ∨ ∃ l, x.lease = some l ∧
      (l.1 ≠ launch ∨ (mget s.launches launch).map (·.born) ≠ born)
    let gives (t : State) (w : Word) : Prop := t.hreqs = dropAt s.hreqs n ∧ t.arrivals = s.arrivals ++ [⟨core, r, Reg.data w, []⟩]
    ∃ t : State, exec (.homeLeaseRequest n) s = .next t ∧
      (stops → gives t 0x8000000000000001 ∧ t.homes = s.homes) ∧
      (¬ stops → count = 0 → gives t 0x8000000000000002 ∧ t.homes = s.homes) ∧
      (¬ stops → count ≠ 0 → x.returning = true → t = s) ∧
      (¬ stops → count ≠ 0 → x.returning = false → gives t 0 ∧
        ((mget s.launches launch).map (·.born) = born → t.home h = { x with lease := some (launch, s.rc + count) }) ∧
        ((mget s.launches launch).map (·.born) ≠ born → t.home h = { x with
          lease := none
          returning := true }))) ∧
  (∀ (s : State) (n core h launch : Nat) (born : Option Nat) (r : SymRef) (w : Word),
    s.hreqs[n]? = some (.free core (some r) h launch born w) →
    let x := s.home h
    let mine (l : Nat × Nat) : Prop := l.1 = launch ∧ (mget s.launches launch).map (·.born) = born
    let gives (c : Nat) : Prop := ∃ t : State, exec (.homeLeaseFree n) s = .next (if w.getLsbD 6 then t.unpin launch else t) ∧
      t.homes = s.homes ∧ t.hreqs = dropAt s.hreqs n ∧
      t.arrivals = s.arrivals ++ [⟨core, r, Reg.data (BitVec.ofNat 64 (2 ^ 63 + c)), []⟩]
    (x.lease = none → gives 3) ∧ (∀ l, x.lease = some l → ¬ mine l → gives 1) ∧
      (∀ l, x.lease = some l → mine l → 128 ≤ w.toNat → gives 4) ∧
      ∀ l, x.lease = some l → mine l → w.toNat < 128 → ∃ t : State, exec (.homeLeaseFree n) s = .next t ∧
        t.arrivals = s.arrivals ∧ (t.home h).lease = none ∧ (t.home h).returning = true ∧ (t.home h).notes = x.notes ++
          [⟨core, some r, if 64 ≤ w.toNat then some (w.toNat % 64) else none, launch⟩]) ∧
  (∀ (s : State) (h : Nat) (l : Nat × Nat), (s.home h).lease = some l →
    let ended (t : State) : Prop := t.home h = { s.home h with
      lease := none
      returning := true }
    (l.2 ≤ s.rc → ∃ t : State, exec (.leaseExpiry h) s = .next t ∧ ended t) ∧
    (s.rc < l.2 → exec (.leaseExpiry h) s = .next s) ∧ (l.2 ≤ s.rc + 1 → ended s.tick) ∧
    ∀ x : Launch, ended (s.endLaunch l.1 x)) ∧
  ∀ (s : State) (h : Nat),
    let x := s.home h
    let repaid (t : State) : Prop := ∀ b v, (b, v) ∈ (t.home h).refresh ↔ v ≠ 0 ∧ (b, v + 1) ∈ x.refresh
    (x.burst = true → ∃ t : State, exec (.refreshBurst h) s = .next t ∧ repaid t ∧
      ((t.home h).burst = false ↔ (t.home h).refresh = [])) ∧
    (x.burst = false → exec (.refreshBurst h) s = .next s) ∧
    (x.returning = true → (∀ w ∈ x.units.toList, w.mode = .idle) → ∃ t : State, exec (.leaseReturnToShared h) s = .next t ∧
      (t.home h).returning = false ∧ (t.home h).notes = [] ∧ (x.burst = false → repaid t) ∧
      (x.burst = true → (t.home h).refresh = [] ∧ (t.home h).burst = false)) ∧
    ∀ bank,
      let issued (t : State) : Prop := ∀ b v, (b, v) ∈ (t.home h).refresh ↔
        v ≠ 0 ∧ (b, if b = bank then v + 1 else v) ∈ x.refresh
      (x.lease = none → x.returning = false → ∃ t : State, exec (.refreshDue h bank) s = .next t ∧ issued t) ∧
      (x.lease ≠ none ∨ x.returning = true → ∃ t : State, exec (.refreshDue h bank) s = .next t ∧
        ((t.home h).refresh = x.refresh ∨
          (x.debt < 8 ∧ x.nearBusy bank = false ∧ issued t) ∨
          (mget (t.home h).refresh bank = some (min 8 ((mget x.refresh bank).getD 0 + 1)) ∧
            (8 ≤ (mget x.refresh bank).getD 0 + 1 → (t.home h).burst = true))))

/-! ## What reaches a core -/

/-- R96, R99, R204 to R208, R212, R217, R240, R241, R333, R350 to R356, R360: a late value rewrites the registers that hold its
symbol, a walk sets A and D and fills the TLB, a wake or the timer ends a wait, a write is seen in order, a word is marked, a message with
such a word on a link or in a buffer, or in its header, is dropped, and with it the branch of a multicast or the packet of a reduction,
barriers and broadcasts complete, and a line requests a pre-emption. What such a loss does to a SPAWN's status and to a multicast's
members is the model's choice (log 80). The registers that a late value reaches keep what it brings (R363): the first instruction that
reads one acquires that, whether it waits or not (log 89). -/
def Obligations.CoreEvents : Prop :=
  (∀ (s : State) (n k : Nat) (r : SymRef) (v : Reg) (ids : List Nat), s.arrivals[n]? = some ⟨k, r, v, ids⟩ →
    let c := s.core k
    let e := c.sym[r.sym.val]
    (s.held k = true → exec (.ephemerisResolution n) s = .next s) ∧ (s.held k = false → ∃ t : State, exec (.ephemerisResolution n) s = .next t ∧ t.arrivals = dropAt s.arrivals n ∧
      (e.state = .free ∨ e.gen ≠ r.gen → t.core k = c) ∧
      (e.state ≠ .free → e.gen = r.gen → (t.core k).sym[r.sym.val].state = .free ∧
        (t.core k).sym[r.sym.val].gen = r.gen ∧ (t.core k).pc = c.pc ∧ t.mem = s.mem ∧
        (s.mem.live ids ≠ [] → ∀ q ∈ c.holders r.sym, (q, s.mem.live ids) ∈ (t.core k).owed) ∧
        (∀ i : Fin 32, ((c.g[i.val]).tag ≠ .eph ∨ symOf c.g[i.val] ≠ r.sym) → (t.core k).g[i.val] = c.g[i.val]) ∧
        (∀ (i : Fin 32) (sc : BitVec 48) (off : Word), c.g[i.val] = Reg.eph .i64 r.sym sc.toNat off →
          (v.tag = .data → (t.core k).g[i.val] = Reg.data (BitVec.ofInt 64 sc.toInt * v.value + off)) ∧
          (v.tag = .pois → (t.core k).g[i.val].tag = .pois)) ∧
        ∀ (i : Fin 16) (sc off : BitVec 32), c.f[i.val] = Reg.eph .f32 r.sym sc.toNat (off.zeroExtend 64) → v.tag = .data →
          (t.core k).f[i.val] = Reg.data (BitVec.ofNat 64
            (fp32.fma .rne sc.toNat (v.value.toNat % 2 ^ 32) off.toNat))))) ∧
  (∀ (s : State) (i : Issue) (body : State → Res),
    (∀ a, s.me.act = some a → s.lookBlocked i = false → i.check s.me a = none → (i.x64 = true → isExt s.cur = true) →
      s.issue i body = (s.acquireOwed i.reads).issue i body) ∧
    (∀ x ∈ (s.acquireOwed i.reads).me.owed, x ∈ s.me.owed ∧ x.1 ∉ i.reads) ∧
    ∀ x ∈ s.me.owed, x.1 ∈ i.reads → ∀ e ∈ (s.acquireOwed i.reads).mem.unseen, e.id ∈ x.2 → e.seen (.core s.cur) = true) ∧
  (∀ (s : State) (k : Nat) (va : Word) (acc : Access) (l : Leaf) (pte : Nat), va.toNat < 2 ^ 48 →
    (∀ e ∈ (s.core k).tlb, e.asid = (s.core k).asid → ¬ (e.va ≤ va.toNat ∧ va.toNat < e.va + e.size)) → s.mem.wf = true →
    s.mem.upsets = [] →
    walk s.mem (.core k) (s.vf (s.core k).vfid).ctx (s.core k).asid va.toNat = .ok (l, pte) →
    mappable (l.place va.toNat).pa = true →
    s.mem.viewNat (.core k) pte 8 = leNat ((List.range' pte 8).map s.mem.byte) →
    let grants := match acc with | .read => l.r | .write => l.w | .execute => l.x
    ∃ t : State, exec (.pageTableWalk k va acc) s = .next t ∧ (grants = false → t = s) ∧
      (grants = true → t.mem.byte pte = s.mem.byte pte ||| (if acc = .write then 0xC0 else 0x40) ∧
        (∀ a, a ≠ pte → t.mem.byte a = s.mem.byte a) ∧ ∃ e ∈ (t.core k).tlb, e.asid = (s.core k).asid ∧ e.va = l.va ∧
          e.size = l.size ∧ e.pa = l.pa ∧ e.sc = l.sc ∧ e.mt = l.mt ∧ e.r = l.r ∧ e.w = l.w ∧ e.x = l.x ∧
          (acc = .write → e.d = true))) ∧
  (∀ (s : State) (k : Nat) (w : Watch), w ∈ s.mem.watches → w.core = k → (s.core k).wait = some .waita →
    s.held k = false →
    let again (i : Instr) : Prop := ∃ t : State, exec i s = .next t ∧ (t.core k).wait = none ∧ (t.core k).pc = (s.core k).pc ∧
      (∀ x ∈ t.mem.watches, x.core = k → x.woken = true) ∧ t.mem.cells = s.mem.cells
    (w.woken = true → again (.waitaWake k)) ∧ (w.since + 4096 ≤ s.rc → again (.waitaTimerExpiry k))) ∧
  (∀ (s : State) (n : Nat) (v : Viewer) (e : Unseen), s.mem.unseen.find? (·.id == n) = some e →
    ∃ t : State, exec (.writePerformedAsSeen n v) s = .next t ∧ t.mem.cells = s.mem.cells ∧ t.cores = s.cores ∧
      (s.mem.before e v ≠ [] → t = s) ∧
      (s.mem.before e v = [] → (∀ x ∈ t.mem.unseen, x.id = n → x.seen v = true) ∧
        ∀ w a, w ≠ v → t.mem.view w a = s.mem.view w a)) ∧
  (∀ (s : State) (n : Nat) (f : Flight), s.flights[n]? = some f → f.travel = .link → ∃ t : State,
    exec (.wordBecomesUncorrectable (.flight n)) s = .next t ∧ t.flights.take (s.flights.length - 1) = dropAt s.flights n ∧ t.mem = s.mem ∧
    ∀ st landing born, f.packet.kind = .spawn (some st) landing born → ∃ b : Bool,
      t.arrivals = s.arrivals ++ [⟨f.packet.msg.src, st, Reg.data (if b then 1 else 0), []⟩]) ∧
  (∀ (s : State) (n : Nat) (x : Multicast) (domes : List Nat), s.multis[n]? = some x → (∃ k ∈ x.left, k / 128 ∈ domes) → ∃ t : State,
    exec (.wordBecomesUncorrectable (.branch n domes)) s = .next t ∧ t.mem = s.mem ∧
    ((∃ k ∈ x.left, k / 128 ∉ domes) → ∃ y, t.multis[n]? = some y ∧ y.packet = x.packet ∧ y.route = x.route ∧
      y.left = x.left.filter fun k => decide (k / 128 ∉ domes)) ∧
    ((∀ k ∈ x.left, k / 128 ∈ domes) → t.multis = dropAt s.multis n)) ∧
  (∀ (s : State) (n : Nat), n < s.sent.length → ∃ t : State, exec (.wordBecomesUncorrectable (.sent n)) s = .next t ∧
    t.sent = dropAt s.sent n ∧ t.counter .linkDropped = min (s.counter .linkDropped + 1) (2 ^ 64 - 1) ∧ t.mem = s.mem ∧
    t.cores = s.cores) ∧
  (∀ (s : State) (n m : Nat) (r : Round), s.rounds[n]? = some r → m < r.parts.length → ∃ t : State,
    exec (.wordBecomesUncorrectable (.part n m)) s = .next t ∧ t.rounds[n]? = some { r with parts := dropAt r.parts m } ∧
    t.counter .linkDropped = min (s.counter .linkDropped + 1) (2 ^ 64 - 1) ∧ t.mem = s.mem) ∧
  (∀ (s : State) (pa : Nat), isDram pa = true ∨ (sliceOf pa).isSome = true → ∃ t : State,
    exec (.wordBecomesUncorrectable (.memory pa)) s = .next t ∧
    t.mem.mark (pa / 8) = (s.mem.mark (pa / 8)).or (some .hardware) ∧ t.mem.cells = s.mem.cells ∧ (∀ w, w ≠ pa / 8 → t.mem.mark w = s.mem.mark w) ∧
    t.cores = s.cores) ∧
  (∀ (s : State) (k : Nat) (i : Fin 32) (p : Packet) (w : Fin 6), (s.core k).slots[i.val] = .holds p →
    ∃ (t : State) (q : Packet), exec (.wordBecomesUncorrectable (.inbox k i.val w.val)) s = .next t ∧ (t.core k).slots[i.val] = .holds q ∧
      q.msg.tagOf w.val = 3 ∧ (∀ j : Fin 6, j ≠ w → q.msg.tagOf j.val = p.msg.tagOf j.val) ∧ q.msg.m = p.msg.m ∧
      t.mem = s.mem) ∧
  (∀ (s : State) (k : Nat) (i : Fin 32) (p : Packet) (w : Nat), (s.core k).slots[i.val] = .holds p → p.kind = .send → i.val < 28 →
    w = 6 ∨ w = 7 → (s.core k).pinned ≠ some i → ∃ t : State, exec (.wordBecomesUncorrectable (.inbox k i.val w)) s = .next t ∧
      (t.core k).slots[i.val] = .free ∧ i ∉ (t.core k).order ∧
      t.counter .linkDropped = min (s.counter .linkDropped + 1) (2 ^ 64 - 1) ∧ t.mem = s.mem) ∧
  (∀ (s : State) (c : Nat) (b : Barrier), mget s.barriers c = some b → ∃ t : State, exec (.barrierCompletion c) s = .next t ∧
    t.barrier c = { b with
      p := xor b.p ((b.flips.filter fun x => decide (x ≤ s.rc)).length % 2 == 1)
      flips := b.flips.filter fun x => decide (s.rc < x) } ∧ t.cores = s.cores) ∧
  (∀ (s : State) (c k tick : Nat) (b : Bcast) (v : BitVec 32), mget s.bcasts c = some b → b.pending = [(tick, k, v)] →
    tick ≤ s.rc → ∃ t : State, exec (.broadcastCompletion c) s = .next t ∧ (t.bcast c).value = v ∧
      (t.bcast c).seq = b.seq + 1 ∧ (t.bcast c).pending = [] ∧
      ∀ (j : Nat) (d : Core) (r : SymRef) (want : Word), s.held j = false → mget s.cores j = some d → d.bc = [(c, r, want)] →
        d.sym[r.sym.val].state = .pending → d.sym[r.sym.val].gen = r.gen →
        ((b.seq + 1 - want.truncate 32).toNat < 2 ^ 31 → (t.core j).sym[r.sym.val].state = .free ∧ (t.core j).bc = []) ∧
        (¬ (b.seq + 1 - want.truncate 32).toNat < 2 ^ 31 → t.core j = d)) ∧
  ∀ (s : State) (die line k : Nat) (c : Core), mget s.cores k = some c → ∃ t,
    exec (.preemptionLineRaise die line) s = .next t ∧ t.core k = (if k / 2048 = die ∧ c.lineMask.getLsbD line then
      { c with preempt := true } else c) ∧ t.mem = s.mem

/-- An entry of the class table takes a message of the packet's class (R324). -/
def Governed (c : Core) (p : Packet) : Prop :=
  let cls : Fin 64 := Fin.ofNat 64 p.msg.cls
  c.classes[cls.val].getLsbD 63 = true ∨ c.classes[0].getLsbD 63 = true

/-- A core's lowest free slot of a range. -/
def LowestFree (c : Core) (i : Fin 32) (lo hi : Nat) : Prop :=
  lo ≤ i.val ∧ i.val < hi ∧ c.slots[i.val] = .free ∧ ∀ j : Fin 32, lo ≤ j.val → j < i → c.slots[j.val] ≠ .free

/-- A message stands in a slot of its destination, behind those that came before it, its tags 10 read as 11 (R322). -/
def InSlot (s t : State) (p : Packet) (i : Fin 32) : Prop :=
  ∃ q : Packet, (t.core p.msg.dest).slots[i.val] = .holds q ∧ (t.core p.msg.dest).order = (s.core p.msg.dest).order ++ [i] ∧
    q.msg.m = p.msg.m ∧ q.msg.src = p.msg.src ∧ q.msg.cls = p.msg.cls ∧ ∀ n : Fin 6, q.msg.tagOf n.val =
      if p.msg.tagOf n.val = 2 then 3 else p.msg.tagOf n.val

/-- R22, R35 to R37, R49, R53, R54, R322 to R325, R331, R332, R335, R336, R348: an ordinary message takes the lowest free slot, parks where none is free, and is
discarded where its classes are empty; a SPAWN is answered; a free core starts the highest message at its entry among those that are
runnable and may start there (log 38); a multicast waits for one of the eight buffers of a router, forks there and reaches a slot or the
parking buffer, and rounds merge. That a message of a function which the dome no longer serves
is discarded as it arrives is the model's reading (log 66), the next node where ROUTE has no tree entry that of log 74. -/
def Obligations.MessageSteps : Prop :=
  (∀ (s : State) (p : Packet) (rest : List Flight), s.flights = ⟨p, .link⟩ :: rest →
    (∀ f ∈ s.flights, ∀ since, f.travel ≠ .parked since) →
    let k := p.msg.dest
    let c := s.core k
    let served : Prop := s.serves p.vf (k / 128) = true
    let plain : Prop := p.kind = .send ∨ p.kind = .fault ∨ p.kind = .notify ∨ p.kind = .cross ∨ ∃ g, p.kind = .root g
    let slot (i : Fin 32) (lo hi : Nat) : Prop := LowestFree c i lo hi
    let governed : Prop := Governed c p
    let held (t : State) (i : Fin 32) : Prop := InSlot s t p i
    let parks : Prop := ∃ t : State, exec (.messageArrival 0) s = .next t ∧ t.flights = rest ++ [⟨p, .parked s.rc⟩] ∧
      t.cores = s.cores
    (s.held k = true → exec (.messageArrival 0) s = .next s) ∧ (s.held k = false →
    ((¬ served → (∀ st landing born, p.kind ≠ .spawn st landing born) → ∃ t : State, exec (.messageArrival 0) s = .next t ∧
      t.cores = s.cores ∧ t.flights.take rest.length = rest) ∧
    (∀ i : Fin 32, plain → slot i 0 28 → served →
      ∃ t : State, exec (.messageArrival 0) s = .next t ∧ t.flights.take rest.length = rest ∧ (governed → held t i) ∧
        (¬ governed → (t.core k).slots = c.slots)) ∧
    (∀ i : Fin 32, p.kind = .completion → slot i 28 32 → served → governed → ∃ t : State, exec (.messageArrival 0) s = .next t ∧ held t i) ∧
    (plain → served → (∀ j : Fin 32, j.val < 28 → c.slots[j.val] ≠ .free) → parks) ∧
    (p.kind = .completion → served → (∀ j : Fin 32, 28 ≤ j.val → c.slots[j.val] ≠ .free) → parks) ∧
    ∀ (st : Option SymRef) (landing : Nat) (born : Option Nat) (l : Launch), p.kind = .spawn st landing born →
      mget s.launches p.msg.launch = some l →
      let back (t : State) (flags : BitVec 6) : Prop := ∃ f : Flight, t.flights = rest ++ [f] ∧ f.travel = .placed landing ∧
        f.packet.msg.dest = p.msg.src ∧ f.packet.msg.flags = flags ∧ f.packet.kind = .spawn st landing born
      (∀ i : Fin 32, slot i 0 28 → served → governed → born = some l.born → l.cancelled = false → l.counts.isFull = false →
        ∃ t : State, exec (.messageArrival 0) s = .next t ∧ held t i ∧ back t 2) ∧
      ((∀ j : Fin 32, j.val < 28 → c.slots[j.val] ≠ .free) ∨ ¬ served ∨ ¬ governed ∨ born ≠ some l.born ∨ l.cancelled = true ∨
          l.counts.isFull = true →
        ∃ t : State, exec (.messageArrival 0) s = .next t ∧ (t.core k).slots = c.slots ∧ back t 3)))) ∧
  (∀ (s : State) (p : Packet) (since : Nat) (rest : List Flight), s.flights = ⟨p, .parked since⟩ :: rest →
    (∀ st landing born, p.kind ≠ .spawn st landing born) → s.serves p.vf (p.msg.dest / 128) = true → s.held p.msg.dest = false →
    (∀ i : Fin 32, Governed (s.core p.msg.dest) p →
      (if p.kind = .completion then LowestFree (s.core p.msg.dest) i 28 32 else LowestFree (s.core p.msg.dest) i 0 28) →
      ∃ t : State, exec (.messageArrival 0) s = .next t ∧ InSlot s t p i) ∧
    ((∀ j : Fin 32, decide (28 ≤ j.val) = decide (p.kind = .completion) → (s.core p.msg.dest).slots[j.val] ≠ .free) →
      exec (.messageArrival 0) s = .next s)) ∧
  (∀ (s : State) (p : Packet) (i : Fin 32) (rest : List Flight), s.flights = ⟨p, .placed i.val⟩ :: rest →
    (∀ st landing born, p.kind ≠ .spawn st landing born) → s.held p.msg.dest = false → Governed (s.core p.msg.dest) p →
    ∃ t : State, exec (.messageArrival 0) s = .next t ∧ t.flights = rest ∧ InSlot s t p i) ∧
  (∀ (s : State) (n landing l2 : Nat) (born : Option Nat) (p : Packet) (r : SymRef), s.flights[n]? = some ⟨p, .placed landing⟩ →
    landing < 32 → p.kind = .spawn (some r) l2 born →
    (s.held p.msg.dest = true ∨ s.stalled p = true → exec (.spawnResponse n) s = .next s) ∧
    (s.held p.msg.dest = false → s.stalled p = false → ∃ t : State, exec (.spawnResponse n) s = .next t ∧
      t.flights = dropAt s.flights n ∧
      t.arrivals = s.arrivals ++ [⟨p.msg.dest, r, Reg.data (if p.msg.flags.getLsbD 0 then 1 else 0), []⟩] ∧
      (t.core p.msg.dest).slots[landing]? = some .free)) ∧
  (∀ (s : State) (k n : Nat) (i : Fin 32) (p : Packet) (e pc : Word) (l : Launch), (s.core k).act = none →
    (s.core k).busyFor = none → (s.core k).preempt = false → s.held k = false → (s.core k).orphan = none →
    (s.core k).select (s.mayStart k) = some (i, p, e) → mget s.launches n = some l →
    (match p.kind with
      | .start _ => n = p.msg.launch ∧ pc = l.desc.pc
      | .task r => n = p.msg.launch ∧ ∃ x : Entry, s.entryAt r.home r.queue r.seq = some x ∧ pc = x.desc.farpc
      | .notify | .cross => s.listener p = some n ∧ l.counts.isFull = false ∧ pc = e &&& 0xFFFFFFFFFFFE
      | .send | .spawn _ _ _ | .root _ | .completion | .fault => n = p.msg.launch ∧ pc = e &&& 0xFFFFFFFFFFFE) →
    (pc.getLsbD 0 = true → ∃ t : State, exec (.handlerStart k) s = .next t ∧ (t.core k).act = none ∧
      (t.core k).fcause = 3 ∧ (t.core k).faddr = pc &&& 0xFFFFFFFFFFFF) ∧
    (pc.getLsbD 0 = false →
    ∃ (t : State) (a : Act), exec (.handlerStart k) s = .next t ∧ (t.core k).act = some a ∧ a.launch = n ∧ a.kind = p.kind ∧
      a.entry = true ∧ a.commit = false ∧ (t.core k).pc = pc ∧ a.startPc = pc ∧
      (p.kind = .notify ∨ p.kind = .cross → ∃ y, mget t.launches n = some y ∧ y.counts.members = l.counts.members + 1) ∧
      (t.core k).pinned = some i ∧ (t.core k).asid = l.asid ∧ (t.core k).vfid = l.vf ∧
      (∀ r : GReg, r ≠ 2 → (t.core k).readG r = Reg.data 0) ∧ ((t.core k).readG 2).tag = .cap ∧
      ((t.core k).readG 2).value = BitVec.ofNat 64 ((s.vf l.vf).swb + k * 2 ^ 18 + 0x40000) ∧
      (t.core k).splo = BitVec.ofNat 64 ((s.vf l.vf).swb + k * 2 ^ 18 + 0x40000 - l.desc.carve * 1024))) ∧
  (∀ (s : State) (k : Nat) (i : Fin 32) (p : Packet) (e : Word), (s.core k).act = none → (s.core k).busyFor = none →
    (s.core k).preempt = false → s.held k = false → (s.core k).orphan = none →
    (s.core k).select (s.mayStart k) = some (i, p, e) →
    (match p.kind with
      | .notify | .cross => s.listener p = none
      | .start _ | .task _ | .send | .spawn _ _ _ | .root _ | .completion | .fault => mget s.launches p.msg.launch = none) →
    ∃ t : State, exec (.handlerStart k) s = .next t ∧ (t.core k).act = none ∧ (t.core k).slots[i.val] = .free) ∧
  (∀ (c : Core) (may : Packet → Bool) (i : Fin 32) (p : Packet) (e : Word), c.select may = some (i, p, e) →
    i ∈ c.order ∧ c.pinned ≠ some i ∧ c.slots[i.val] = .holds p ∧ e.getLsbD 62 = true ∧ may p = true ∧
    ∀ (j : Fin 32) (q : Packet) (f : Word), j ∈ c.order → c.pinned ≠ some j → c.slots[j.val] = .holds q → may q = true →
      c.governs q.msg.cls = some f → f.getLsbD 62 = true → f.toNat / 2 ^ 56 % 4 ≤ e.toNat / 2 ^ 56 % 4) ∧
  (∀ (s : State) (d : Nat) (f : Flight) (since : Nat) (before after : List Flight), s.flights = before ++ f :: after →
    f.travel = .parked since → f.packet.msg.dest / 128 = d → since + 2 ^ 20 ≤ s.rc →
    (∀ g ∈ before, ∀ x, g.travel = .parked x → g.packet.msg.dest / 128 = d → s.rc < x + 2 ^ 20) →
    ∃ t : State, exec (.parkingTimeout d) s = .next t ∧ (t.core f.packet.msg.dest).preempt = true ∧
      t.flights.map (·.packet) = s.flights.map (·.packet) ∧ t.mem = s.mem) ∧
  (∀ (s : State) (n d : Nat) (x : Multicast) (before after : List McCopy) (queued : Bool) (left : List Nat), s.multis[n]? = some x →
    x.copies = before ++ ⟨d, queued, left⟩ :: after → (∀ c ∈ before ++ after, c.node ≠ d) →
    let room (e : Nat) : Prop :=
      (s.multis.map fun m => (m.copies.filter fun c => !c.queued && c.node == e).length).sum < 8
    (queued = true →
      (room d → ∃ t : State, exec (.multicastForward n d) s = .next t ∧ t.flights = s.flights ∧ t.cores = s.cores ∧
        t.multis[n]? = some { x with copies := before ++ ⟨d, false, left⟩ :: after }) ∧
      (¬ room d → exec (.multicastForward n d) s = .next s)) ∧
    (queued = false →
      ((∀ k ∈ left, k / 128 ≠ d) → left ≠ [] → s.route d x.route = .dimension →
        ∃ (t : State) (l : List McCopy), exec (.multicastForward n d) s = .next t ∧ t.flights = s.flights ∧ t.cores = s.cores ∧
          t.multis[n]? = some { x with copies := before ++ l ++ after } ∧
          (∀ k, k ∈ l.flatMap (·.left) ↔ k ∈ left) ∧ (left.Nodup → (l.flatMap (·.left)).Nodup) ∧
          ∀ c ∈ l, c.queued = false ∧ ((c.node = d ∧ ∀ k ∈ c.left, ¬ room (k / 128)) ∨
            (room c.node ∧ ∀ k ∈ c.left, k / 128 = c.node))) ∧
      ∀ k, left = [k] → k / 128 = d → before = [] → after = [] →
        let p : Packet := { x.packet with msg := { x.packet.msg with dest := k } }
        let ended (t : State) : Prop := exec (.multicastForward n d) s = .next t ∧ t.multis = dropAt s.multis n
        let none_ : Prop := ∀ j : Fin 32, j.val < 28 → (s.core k).slots[j.val] ≠ .free
        (s.inPartition p.vf k = false → ∃ t, ended t ∧ t.flights.take s.flights.length = s.flights ∧ t.cores = s.cores) ∧
        (s.inPartition p.vf k = true → s.held k = false →
          (∀ i : Fin 32, LowestFree (s.core k) i 0 28 → (∀ f ∈ s.flights, ∀ since, f.travel ≠ .parked since) → Governed (s.core k) p →
            ∃ t, ended t ∧ InSlot s t p i) ∧
          (none_ → s.parkedIn d < 32 → ∃ t, ended t ∧ t.flights = s.flights ++ [⟨p, .parked s.rc⟩] ∧ t.cores = s.cores) ∧
          (none_ → 32 ≤ s.parkedIn d → ∃ t, exec (.multicastForward n d) s = .next t ∧ t.multis = s.multis ∧
            t.flights = s.flights ∧ t.cores = s.cores)))) ∧
  ∀ (s : State) (n : Nat) (r : Round) (vf route root cls pri op fmt nw l : Nat) (contrib : List Nat),
    s.rounds[n]? = some r → mget s.groups r.group = some (.reduction vf route contrib root cls pri op fmt nw l) →
    s.roundOpen r = true → nw ≤ 5 → s.inPartition vf root = true →
    let top := root / 128
    let result (t : State) (q : Part) (whole : Bool) : Prop := (∀ y ∈ t.rounds, y.group = r.group → y.round ≠ r.round) ∧
      ∃ f ∈ t.flights, f.packet.kind = .root r.group ∧ f.packet.msg.dest = root ∧ f.packet.msg.cls = cls ∧
        f.packet.msg.incomplete = !whole ∧ ∀ i : Fin 6, f.packet.msg.m[i.val] =
          if i.val = 5 then q.mask else if i.val < nw then q.words.getD i.val 0 else 0
    (r.parts ≠ [] → ∃ (i : Nat) (p : Part), r.parts[i]? = some p ∧
      let q : Part := match mget r.held p.node with
        | some x => { x with mask := x.mask ||| p.mask, words := List.zipWith (mergeWord op fmt) x.words p.words }
        | none => { p with src := none }
      let full : Prop := ∀ (j c : Nat), contrib[j]? = some c →
        q.mask.getLsbD j = true ∨ q.node ∉ s.treePath route top 64 (c / 128)
      ∃ t : State, exec (.reductionMerge n) s = .next t ∧
        (q.node = top → full → result t q true) ∧
        (q.node = top → ¬ full → t.rounds[n]? = some { r with
          parts := dropAt r.parts i
          held := mput r.held top q }) ∧
        (q.node ≠ top → full ∨ r.abandoned = true → t.rounds[n]? = some { r with
          parts := dropAt r.parts i ++ [{ q with node := match mget s.routes (64 * q.node + route) with
            | some (.treeUp _ next) => next
            | _ => top }]
          held := mdel r.held q.node }) ∧
        (q.node ≠ top → ¬ full → r.abandoned = false → t.rounds[n]? = some { r with
          parts := dropAt r.parts i
          held := mput r.held q.node q })) ∧
    ∀ q, r.parts = [] → r.abandoned = true → r.held = [(top, q)] →
      ∃ t : State, exec (.reductionMerge n) s = .next t ∧ result t q false

/-! ## The Orrery -/

/-- R24, R26, R28 to R31, R40, R43 to R52, R57 to R60, R155 to R158, R373, R426: the Orrery serves its requests in order, one in a
cycle, counts, takes the die agents' counts, dispatches at most four items of one level a cycle and starts TCB bodies, one of a graph in
a cycle; a die agent places a unit or returns it to its stream; a dome is zeroed before it leaves its partition. That a returned unit
stands in front of what comes after it and behind what comes before it in R45's order is the model's reading (log 26), and the domes that
domeFor ranks are its choice (log 91). That a request is not
served in the cycle of its issue is log 59, the service by what the issuer recorded and GARM's code 4 for a launch that has completed
log 25, the code where MEMBERS is full log 69, a dome in use while messages wait log 70, one restitch at a time log 72: each the
model's. -/
def Obligations.OrrerySteps : Prop :=
  ∀ (s : State),
    let gone (rest : List OrreryReq) : State := { s with
      oreqs := rest
      served := some s.rc }
    let due (who : Asker) : Prop := who.since < s.rc ∧ s.served ≠ some s.rc
    let reply (t : State) (core : Nat) (r : SymRef) (w : Word) : Prop := t.arrivals = s.arrivals ++ [⟨core, r, Reg.data w, []⟩]
    let ref (c : Nat) : Word := BitVec.ofNat 64 (2 ^ 63 + c)
    (∀ (who : Asker) (addr : Nat) (r : SymRef) (ids : List Nat) (rest : List OrreryReq),
      s.oreqs = .launch who (some r) addr ids :: rest → due who → s.heldFor .orrery who.vf who.asid addr 128 [.read] = false →
      let core := who.core
      let q : Issuer := ⟨some who.job, who.vf, who.asid, who.graph, who.phase, none, core⟩
      let d := (gone rest).readDesc q.vf q.asid addr
      ∃ t : State, exec .orreryLaunchRequest s = .next t ∧ t.oreqs = rest ∧
        (d.1 = none → reply t core r (ref 10) ∧ t.launches = s.launches) ∧
        ∀ (raw : Nat) (tags : BitVec 6), d.1 = some (raw, tags) →
          let codes := (d.2.pcChecked q d.1).launchCodes q raw (parseLaunch raw tags)
          (∀ c ∈ codes, (∀ e ∈ codes, c ≤ e) → reply t core r (ref c) ∧ t.launches = s.launches) ∧
          (codes = [] → ∃ (i : Nat) (y : Launch), i < 4096 ∧ mget s.launches i = none ∧
            reply t core r (BitVec.ofNat 64 i) ∧ mget t.launches i = some y ∧ y.desc.pc = BitVec.ofNat 64 (raw % 2 ^ 48) ∧
            y.desc.units = raw / 2 ^ 96 % 2 ^ 32 ∧ y.counts = ⟨true, y.desc.units, 0, 0, 0⟩ ∧ y.next = 0 ∧
            y.cancelled = false ∧ y.vf = q.vf ∧ t.accepted.getLast? = some i ∧
            ∀ j ≠ i, mget t.launches j = mget s.launches j)) ∧
    (∀ (q : OrreryReq) (rest : List OrreryReq), s.oreqs = q :: rest → ¬ due q.who →
      ∀ i ∈ [Instr.orreryLaunchRequest, .orreryCancelRequest, .orreryGarmRequest, .orreryGrelRequest], exec i s = .next s) ∧
    (∀ (who : Asker) (r : SymRef) (lv : Level) (index : Word) (rest : List OrreryReq),
      s.oreqs = .cancel who (some r) lv index :: rest → due who →
      let core := who.core
      let job := s.instanceJob lv index.toNat
      rising none (s.launches.map Prod.fst) = true → ∃ t : State, exec .orreryCancelRequest s = .next t ∧ t.oreqs = rest ∧
        (job = none → reply t core r (ref 2) ∧ t.launches = s.launches) ∧
        (∀ j, job = some j → j ≠ who.job → reply t core r (ref 1) ∧ t.launches = s.launches) ∧
        (job = some who.job → reply t core r 0 ∧
          (lv = .launch → ∀ y, mget t.launches index.toNat = some y → y.cancelled = true))) ∧
    (∀ (who : Asker) (addr : Nat) (r : SymRef) (near : Bool) (index : Word) (ids : List Nat) (rest : List OrreryReq),
      s.oreqs = .garm who (some r) addr near index ids :: rest → due who → s.heldFor .orrery who.vf who.asid addr 64 [.read] = false →
      let core := who.core
      let l := who.launch
      ∃ t : State, exec .orreryGarmRequest s = .next t ∧ t.oreqs = rest ∧
        ((∀ y, mget s.launches l = some y → some y.born ≠ who.born) → reply t core r (ref 4)) ∧
        ∀ (y : Launch), mget s.launches l = some y → some y.born = who.born →
          let b := State.readBlocks y.vf y.asid 1 addr (gone rest)
          (b.1 = none → reply t core r (ref 5) ∧ t.tcbs = s.tcbs) ∧
          ∀ (bs : List Byte) (tags : List Bool), b.1 = some (bs, tags) →
            let x := leNat bs
            let again := b.2.rearmCodes x index.toNat near
            let codes := b.2.garmCodes x index near y.desc.job y.desc.phase
            ((s.tcb index.toNat).state = .faulted → (s.tcb index.toNat).owner.job = y.desc.job → index.toNat ≤ 65535 →
              (∀ c ∈ again, (∀ e ∈ again, c ≤ e) → reply t core r (ref c) ∧ t.tcbs = s.tcbs) ∧ (again = [] → reply t core r 0)) ∧
            ((s.tcb index.toNat).state ≠ .faulted → (∀ c ∈ codes, (∀ e ∈ codes, c ≤ e) → reply t core r (ref c) ∧ t.tcbs = s.tcbs) ∧
            (codes = [] → reply t core r 0 ∧ (t.tcb index.toNat).counter = x / 2 ^ 16 % 2 ^ 16 ∧
              (t.tcb index.toNat).kind = x / 2 ^ 4 % 2 ^ 4 ∧ (t.tcb index.toNat).owner.launch = l ∧
              (t.tcb index.toNat).state = if x / 2 ^ 16 % 2 ^ 16 = 0 then .ready else .armed))) ∧
    (∀ (who : Asker) (r : SymRef) (index : Word) (rest : List OrreryReq), s.oreqs = .grel who (some r) index :: rest →
      due who →
      let core := who.core
      rising none (s.graphs.map Prod.fst) = true → ∃ t : State, exec .orreryGrelRequest s = .next t ∧ t.oreqs = rest ∧
        (mget s.graphs index.toNat = none → reply t core r (ref 1)) ∧
        ∀ x, mget s.graphs index.toNat = some x →
          (who.job ≠ x.job → reply t core r (ref 2) ∧ t.graphs = s.graphs) ∧
          (who.job = x.job → x.counts.closed = true → reply t core r (ref 3) ∧ t.graphs = s.graphs) ∧
          (who.job = x.job → x.counts.closed = false → reply t core r 0 ∧
            ∀ y, mget t.graphs index.toNat = some y → y.counts.closed = true)) ∧
    (∀ (die : Nat), (s.rc % 64 ≠ 0 → exec (.freeResourceReport die) s = .next s) ∧
      (s.rc % 64 = 0 → ∃ t : State, exec (.freeResourceReport die) s = .next t ∧ t.cores = s.cores ∧ ∀ d, d / 16 = die →
        let cs := (List.range 96).map fun i => d * 128 + i
        (t.dome d).report = some ⟨s.rc, (cs.filter fun k => (s.core k).isIdle && !s.held k).length,
          (cs.map fun k => (s.core k).freeU).sum⟩)) ∧
    (∀ (d : Nat) (x : Dome) (r : CountReport), mget s.domes d = some x → x.report = some r → r.sent < s.rc →
      (s.counted.dome d).idle = r.idle ∧ (s.counted.dome d).free = r.free) ∧
    (s.dispatched = some s.rc → exec .orreryDispatchCycle s = .next s) ∧
    (s.dispatched ≠ some s.rc →
      let u := [3, 2, 1, 0].foldl State.passTurn s.counted
      ((∃ v ∈ s.vfs, ∃ p < 4, u.placeable v.1 p ≠ none) → ∃ (t : State) (x : Placement) (l : List Placement),
        exec .orreryDispatchCycle s = .next t ∧ t.placements = s.placements ++ x :: l ∧ l.length ≤ 3 ∧
        t.dispatched = some s.rc ∧
        ∃ v ∈ s.vfs, ∃ p < 4, u.placeable v.1 p = some (x.item, x.dome) ∧
          ∀ q, p < q → q < 4 → ∀ w ∈ s.vfs, u.placeable w.1 q = none) ∧
      ((∀ v ∈ s.vfs, ∀ p < 4, u.placeable v.1 p = none) → ∃ t : State, exec .orreryDispatchCycle s = .next t ∧
        t.placements = s.placements ∧ t.launches = s.launches)) ∧
    (∀ (vf pri d : Nat) (i : Item), s.placeable vf pri = some (i, d) → i ∈ s.stream vf pri ∧ s.domeFor vf i = some d ∧
      ((∀ g, i ≠ .tcb g) → (s.vf vf).domes.contains d = true)) ∧
    (∀ (n l u d : Nat) (z : Launch), s.placements[n]? = some ⟨.unit l u, d⟩ → mget s.launches l = some z →
      ∃ t : State, exec (.dieAgentPlacement n) s = .next t ∧ t.placements = dropAt s.placements n ∧
        let w := (s.dropPlacement n).coreForUnit l d
        (w = none → (t.dome d).free = 0 ∧ t.flights = s.flights ∧ ∃ a b, s.front = a ++ b ∧ t.front = a ++ .unit l u :: b ∧
          (∀ i ∈ b, s.comesBefore i (.unit l u) = false) ∧ ∀ i ∈ a.getLast?, s.comesBefore i (.unit l u) = true) ∧
        ∀ (k : Nat), w = some k → k / 128 = d ∧ ∃ (f : Flight) (i : Fin 32), t.flights = s.flights ++ [f] ∧ f.travel = .placed i.val ∧
          i.val < 28 ∧ (s.core k).slots[i.val] = .free ∧ (t.core k).slots[i.val] = .reserved ∧ f.packet.kind = .start u ∧
          f.packet.msg.dest = k ∧ f.packet.msg.cls = z.desc.cls ∧ f.packet.msg.pri = z.desc.pri ∧ f.packet.msg.launch = l ∧
          f.packet.msg.m[0] = z.desc.template[0] + BitVec.ofNat 64 u ∧
          ∀ j : Fin 6, j ≠ 0 → f.packet.msg.m[j.val] = z.desc.template[j.val]) ∧
    (∀ (g i now : Nat) (x : Graph) (rest : List (Nat × Nat)), mget s.graphs g = some x → x.ready = (i, now) :: rest →
      (x.headPri ≠ none → exec (.tcbHeadBodyRead g) s = .next s) ∧ (x.headPri = none → ∃ (t : State) (y : Graph) (pri : Nat),
      exec (.tcbHeadBodyRead g) s = .next t ∧ mget t.graphs g = some y ∧ y = { x with headPri := some pri } ∧
        ((s.tcb i).kind = 0 → pri = 3) ∧ ((s.bodyPri (s.tcb i)).1 = none → pri = (s.tcb i).owner.pri) ∧
        (∀ q, (s.bodyPri (s.tcb i)).1 = some q → pri = q) ∧ ∀ raw tags, (s.tcb i).kind = 1 →
          (s.readDesc (s.tcb i).owner.vf (s.tcb i).owner.asid (s.tcb i).body).1 = some (raw, tags) →
          pri = (parseLaunch raw tags).pri)) ∧
    (∀ (g i now d : Nat) (x : Graph) (rest : List (Nat × Nat)), mget s.graphs g = some x → x.ready = (i, now) :: rest → ⟨.tcb g, d⟩ ∈ s.placements →
      let first (t : State) : Prop := ∀ y, mget t.graphs g = some y → y.started = some s.rc
      (x.started = some s.rc → exec (.tcbBodyStart g) s = .next s) ∧
      (x.started ≠ some s.rc → (s.tcb i).state ≠ .ready → ∃ t : State, exec (.tcbBodyStart g) s = .next t ∧ t.tcbs = s.tcbs ∧
        ∀ y, mget t.graphs g = some y → y.ready = rest) ∧
      (x.started ≠ some s.rc → (s.tcb i).state = .ready → ∃ t : State, exec (.tcbBodyStart g) s = .next t ∧ (∀ p ∈ t.placements, p.item ≠ .tcb g) ∧
        ((s.tcb i).kind = 0 → i ∉ (s.tcb i).succ → (∀ y ∈ s.launches, y.2.tcb = none) →
          rising none (s.tcbs.map Prod.fst) = true → first t ∧ ∀ y, mget t.tcbs i = some y → y.state = .done) ∧
        ∀ (raw : Nat) (tags : BitVec 6),
          let s1 : State := { s with placements := s.placements.filter fun p => p.item != .tcb g }
          let o := (s.tcb i).owner
          let b := s1.readDesc o.vf o.asid (s.tcb i).body
          (s.tcb i).kind = 1 → b.1 = some (raw, tags) →
          let q : Issuer := ⟨some o.job, o.vf, o.asid, none, none, some i, o.core⟩
          (b.2.pcChecked q b.1).launchCodes q raw { parseLaunch raw tags with
            gv := true
            graph := (s.tcb i).graph } = [] →
          first t ∧ (t.tcb i).state = .running ∧ ∃ (j : Nat) (y : Launch), mget s.launches j = none ∧ mget t.launches j = some y ∧ y.tcb = some i)) ∧
    (∀ (d vf : Nat) (service : Bool) (next : Option Nat), (s.dome d).mode = .retiring vf service next → s.mem.wf = true →
      (s.domeInUse d vf = true → exec (.domeLeavesRetiring d) s = .next s) ∧
      (s.domeInUse d vf = false → ∃ t : State, exec (.domeLeavesRetiring d) s = .next t ∧ t.mem.wf = true ∧
        (t.dome d).mode = (match next with
          | some v => .owned v
          | none => if service then .testing else .unassigned) ∧
        (∀ v, next = some v → (t.vf v).domes = (s.vf v).domes ++ [d]) ∧ (t.dome d).alm.ivalid = false ∧
        (∀ a, inDome d a = true → t.mem.byte a = 0) ∧ (∀ a, inDome d a = false → t.mem.byte a = s.mem.byte a) ∧
        ∀ k c, mget s.cores k = some c → k / 128 = d → ∀ i : Fin 64, (t.core k).classes[i.val] = 0)) ∧
    ∀ (x : Restitch), s.stitch = some x →
      (∀ pri, s.placeable x.vf pri = none) ∧
      ((∀ c ∈ s.cores, s.inPartition x.vf c.1 = true → c.2.act = none) →
        (∀ f ∈ s.flights, s.inPartition x.vf f.packet.msg.dest = false) →
        (∀ m ∈ s.multis, ∀ k ∈ m.left, s.inPartition x.vf k = false) →
        (∀ r ∈ s.rounds, ∀ v a b c d e f g h i, mget s.groups r.group = some (.reduction v a b c d e f g h i) → v ≠ x.vf) →
        ∃ t : State, exec (.meshRestitch x.vf) s = .next t ∧ t = { s with
          stitch := none
          routes := x.loads.foldl (fun m y => mput m (64 * y.1 + y.2.1) y.2.2) s.routes
          topologies := match x.topology with
            | some y => mput s.topologies x.vf y
            | none => s.topologies }) ∧
      ((∃ c ∈ s.cores, s.inPartition x.vf c.1 = true ∧ c.2.act ≠ none) → exec (.meshRestitch x.vf) s = .next s)

/-! ## Heat and power -/

/-- R216, R381, R383 to R392, R401, R402: a regulator takes its step and supply, a sample moves a balance and what it governs, an
exchange holds two cores and swaps their table entries, the rack budget expires and moves the package cap, the inlet limits it, and
a scrub corrects one flipped bit and marks a word with more. One 5 mV unit or one cap step in an update, and the loops at the multiples of
10 µs, are the model's reading (log 40), the power check at the multiples of 100 µs that of log 43, that a core whose accesses another
exchange holds waits with its own that of log 42. -/
def Obligations.PowerSteps : Prop :=
  weightFloor 360 = 256 ∧ weightFloor 392 = 512 ∧ weightFloor 328 = 128 ∧
  (∀ (s : State) (k : Nat), (s.rc % 12000 ≠ 0 ∨ (s.core k).trimmed = some s.rc → exec (.regulatorUpdate k) s = .next s) ∧
    (∀ x, mget s.sc.slacks k = some x → k < 8192 → k % 128 < 96 → (s.rc + 1) % 12000 = 0 →
      (s.tick.core k).trimmed = some (s.rc + 1))) ∧
  (∀ (s : State) (k : Nat) (x : Int), s.rc % 12000 = 0 → (s.core k).trimmed ≠ some s.rc → mget s.sc.slacks k = some x →
    let c := s.core k
    let goal := s.sc.slackTarget
    ∃ t : State, exec (.regulatorUpdate k) s = .next t ∧ (t.core k).trimmed = some s.rc ∧
      (t.core k).step = min (t.core k).thermalCap (min s.sc.packageCap (t.core k).slackCap) ∧
      (t.core k).thermalCap = c.thermalCap ∧
      (x < goal → c.supply < 190 → (t.core k).supply = c.supply + 1 ∧ (t.core k).slackCap = c.slackCap) ∧
      (x < goal → 190 ≤ c.supply → (t.core k).supply = c.supply ∧ (t.core k).slackCap = c.slackCap - 1) ∧
      (goal < x → 120 < c.supply → (t.core k).supply = c.supply - 1 ∧ (t.core k).slackCap = c.slackCap) ∧
      (x = goal → (t.core k).supply = c.supply) ∧ t.mem = s.mem ∧ (t.core k).stepSince = s.rc ∧
      (s.counter (.stepTime k c.step) + (s.rc - c.stepSince) < 2 ^ 64 →
        t.counter (.stepTime k c.step) = s.counter (.stepTime k c.step) + (s.rc - c.stepSince))) ∧
  (∀ (s : State) (k : Nat), ∃ t : State, exec (.droopPause k) s = .next t ∧ t.cores = s.cores ∧ t.mem = s.mem ∧
    t.counter (.droop k) = min (s.counter (.droop k) + 1) (2 ^ 64 - 1)) ∧
  (∀ (s : State), s.rc % 1200000 ≠ 0 ∨ s.sc.sampledAt = some s.rc → exec .thermalSample s = .next s) ∧
  (∀ (s : State) (n : Nat) (q : Int), s.rc % 1200000 = 0 → s.sc.sampledAt ≠ some s.rc → s.sc.temps = [(n, q)] →
    ∃ t : State, exec .thermalSample s = .next t ∧ mget t.sc.sampled n = some q ∧ t.sc.sampledAt = some s.rc ∧ (∃ w : Nat, (w = weightFloor q ∨ w = weightFloor q + 1) ∧
      t.balance n = min 16384 (s.balance n + 256 - w)) ∧
    (n < 8192 → (t.core n).asking = (decide (t.balance n < 8192) && decide (360 < q)) ∧
      (t.balance n < 2048 → 360 < q → (t.core n).thermalCap = (s.core n).thermalCap - 1) ∧
      (4096 ≤ t.balance n → (t.core n).thermalCap = min 24 ((s.core n).thermalCap + 1)) ∧
      (2048 ≤ t.balance n → t.balance n < 4096 → (t.core n).thermalCap = (s.core n).thermalCap)) ∧
    (9472 ≤ n → (t.balance n < 2048 → 360 < q → (t.stack (n - 9472)).blocked = true) ∧
      (4096 ≤ t.balance n → (t.stack (n - 9472)).blocked = false))) ∧
  (∀ (s : State) (d : Nat), (s.dome d).exchange = none → (s.sc.suspended = true → exec (.thermalExchange d) s = .next s) ∧
    (s.sc.suspended = false → (∀ k ∈ domeCores d, (s.core (s.physOf k)).asking = false) →
      exec (.thermalExchange d) s = .next s) ∧
    ∀ a, s.sc.suspended = false → (domeCores d).find? (fun k => (s.core (s.physOf k)).asking) = some a →
      let p := s.physOf a
      let u := s.setCore p { s.core p with asking := false }
      let choice := u.choosePartner a ((mget s.sc.sampled p).getD 0)
      ((s.core a).settled = false ∨ s.since (s.core a).exchanged 2 = false ∨ choice = none →
        ∃ t : State, exec (.thermalExchange d) s = .next t ∧ (t.core p).asking = false ∧ (t.dome d).exchange = none ∧
          t.counter (.lapsed a) = min (s.counter (.lapsed a) + 1) (2 ^ 64 - 1)) ∧
      ∀ b, (s.core a).settled = true → s.since (s.core a).exchanged 2 = true → choice = some b →
        (s.accessesHeld a = true → exec (.thermalExchange d) s = .next s) ∧
        (s.accessesHeld a = false → ∃ t : State, exec (.thermalExchange d) s = .next t ∧ (t.dome d).exchange = some (a, b) ∧ t.held a = true ∧
          (b / 128 = d ∧ t.held b = true) ∧ (t.core a).buf = [] ∧ (t.core a).dcache = [] ∧ (t.core a).g = (s.core a).g ∧
          (t.core a).pc = (s.core a).pc)) ∧
  (∀ (s : State) (d a b : Nat), (s.dome d).exchange = some (a, b) → a / 128 = d → b / 128 = d → a ≠ b →
    ∃ t : State, exec (.thermalExchange d) s = .next t ∧ t.physOf a = s.physOf b ∧ t.physOf b = s.physOf a ∧
      (t.dome d).exchange = none ∧ (t.core a).exchanged = some s.rc ∧ (t.core b).exchanged = some s.rc ∧
      (t.core (s.physOf a)).vacated = some s.rc ∧ (t.core a).act = (s.core a).act ∧ (t.core a).pc = (s.core a).pc ∧ t.mem = s.mem) ∧
  (∀ (s : State), (s.sc.expiry ≠ 0 → s.sc.expiry ≤ s.rc → ∃ t : State, exec .powerLeaseExpiry s = .next t ∧ t.sc.budget = 1800 ∧
      t.sc.expiry = 0 ∧ t.counter .tokensExpired = min (s.counter .tokensExpired + 1) (2 ^ 64 - 1)) ∧
    (s.rc < s.sc.expiry → exec .powerLeaseExpiry s = .next s) ∧
    (s.sc.expiry ≠ 0 → s.sc.expiry ≤ s.rc + 1 → s.tick.sc.budget = 1800)) ∧
  (∀ (s : State), s.rc % 120000 ≠ 0 ∨ s.sc.checkedAt = some s.rc → exec .packagePowerCheck s = .next s) ∧
  (∀ (s : State), s.rc % 120000 = 0 → s.sc.checkedAt ≠ some s.rc →
    let budget := if s.sc.inletOver then min s.sc.budget 1800 else s.sc.budget
    ∃ t : State, exec .packagePowerCheck s = .next t ∧ t.cores = s.cores ∧ t.sc.checkedAt = some s.rc ∧
      (budget < s.sc.power → t.sc.packageCap = s.sc.packageCap - 1 ∧ t.sc.halfArrays = decide (s.sc.packageCap = 0)) ∧
      (s.sc.power ≤ budget → t.sc.halfArrays = false ∧ (s.sc.power * 100 < budget * 95 →
        t.sc.packageCap = min 24 (s.sc.packageCap + 1)) ∧
        (budget * 95 ≤ s.sc.power * 100 → t.sc.packageCap = s.sc.packageCap))) ∧
  (∀ (s : State), s.sc.inletOver = false → (180 < s.sc.inlet → ∃ t : State, exec .inletOvertemp s = .next t ∧
      t.sc.inletOver = true ∧ ∃ e ∈ t.sc.log, e.code = .inlet) ∧
    (s.sc.inlet ≤ 180 → exec .inletOvertemp s = .next s)) ∧
  (∀ (s : State), s.sc.inletOver = true → (s.sc.inlet < 168 → s.sc.inletSince + 1200000000 ≤ s.rc →
      ∃ t : State, exec .inletTemperatureRecovery s = .next t ∧ t.sc.inletOver = false) ∧
    (168 ≤ s.sc.inlet → exec .inletTemperatureRecovery s = .next s)) ∧
  ∀ (s : State) (w : Nat),
    (isMemory (8 * w) = false ∨ mget s.mem.upsets w = none → exec (.patrolScrub w) s = .next s) ∧
    ∀ n, isMemory (8 * w) = true → mget s.mem.upsets w = some n → rising none (s.mem.upsets.map Prod.fst) = true →
      ∃ t : State, exec (.patrolScrub w) s = .next t ∧ t.cores = s.cores ∧ t.mem.cells = s.mem.cells ∧ mget t.mem.upsets w = none ∧
        (n = 1 → t.mem.marks = s.mem.marks ∧
          t.counter (.corrected (placeOf (8 * w))) = min (s.counter (.corrected (placeOf (8 * w))) + 1) (2 ^ 64 - 1)) ∧
        (n ≠ 1 → t.mem.mark w = (s.mem.mark w).or (some .hardware))

/-! ## Pre-emption -/

/-- R119, R374 to R378, R380, R412, R413, R425: a request reaches a core; it is taken at a boundary unless a commit or OVF = 0 holds it off,
once nothing is owed to the activation and its earlier commands are done; the context is saved, or the activation faults with cause
21; a saved context resumes at its region with its live-ins, one with no region with its waiting messages; a core that met X64 moves to an
extended one, and is free again once the activation ends there. That a save waits while an engine holds an earlier command of the core,
that another context of its area holds it off or lets it lapse, that the slots of the saved messages must be free where it resumes, and
that saves and resumptions wait out an exchange are the model's readings (logs 38 and 42); the fault of an odd RGNPC is its choice
(log 84). -/
def Obligations.PreemptionSteps : Prop :=
  (∀ (s : State) (k : Nat), ∃ t : State, exec (.preemptionRequestArrival k) s = .next t ∧ t.mem = s.mem ∧
    t.core k = { s.core k with preempt := true } ∧ ∀ j ≠ k, t.core j = s.core j) ∧
  (∀ (s : State) (k : Nat), (s.core k).preempt = false ∨ s.held k = true → exec (.preemptionTake k) s = .next s) ∧
  (∀ (s : State) (k : Nat), (s.core k).preempt = true → s.held k = false → (s.core k).act = none → s.exchanging = false →
    ((s.core k).waiting = [] → ∃ t : State, exec (.preemptionTake k) s = .next t ∧
      t.core k = { s.core k with preempt := false } ∧ t.mem = s.mem) ∧
    ((s.core k).waiting ≠ [] →
      (s.waitingLaunch k = none ∨ ∃ l x, s.waitingLaunch k = some (l, x) ∧ (x.desc.ovf = 0 ∨ s.areaTaken l k k = true)) →
      ∃ t : State, exec (.preemptionTake k) s = .next t ∧ t.core k = { s.core k with preempt := false } ∧ t.saved = s.saved ∧
        t.counter .lapsedPreempt = min (s.counter .lapsedPreempt + 1) (2 ^ 64 - 1)) ∧
    ∀ l x, (s.core k).waiting ≠ [] → s.waitingLaunch k = some (l, x) → x.desc.ovf ≠ 0 → s.areaTaken l k k = false →
      let u := s.flushAll k
      let addr := x.desc.ovf.toNat + 2 ^ 31 + k * 2 ^ 15
      let save := State.saveParts k x.vf x.asid addr ((u.core k).record (u.mat k) k x.vf x.asid l k) u
      (save.1 = none → ∃ (t : State) (y : Saved), exec (.preemptionTake k) s = .next t ∧ t.saved = s.saved ++ [y] ∧ y.launch = l ∧
        y.record = addr ∧ y.act = none ∧ y.pri = x.desc.pri ∧ y.inbox = (s.core k).inboxImage ∧ (t.core k).waiting = [] ∧
        (t.core k).preempt = false ∧ ∃ z, mget t.launches l = some z ∧ z.pins = x.pins + 1) ∧
      ∀ d at_, save.1 = some (d, at_) → ∃ t : State, exec (.preemptionTake k) s = .next t ∧ t.saved = s.saved ∧
        (t.core k).fcause = BitVec.ofNat 16 (d * 256 + 21) ∧ (t.core k).faddr = addr48 (BitVec.ofNat 64 at_) ∧
        (t.core k).order = (s.core k).order ∧ (t.core k).preempt = false) ∧
  (∀ (s : State) (k : Nat) (a : Act), (s.core k).preempt = true → s.held k = false → (s.core k).act = some a →
    a.commit = true ∨ a.ovf = 0 ∨ s.areaTaken a.launch (s.core k).kself k = true → exec (.preemptionTake k) s = .next s) ∧
  (∀ (s : State) (k : Nat) (a : Act), (s.core k).preempt = true → s.held k = false → (s.core k).act = some a →
    a.commit = false → a.ovf ≠ 0 → s.areaTaken a.launch (s.core k).kself k = false → s.accessesHeld k = true →
    ∃ t : State, exec (.preemptionTake k) s = .next t ∧ t.core k = { s.core k with wait := some .saving } ∧ t.mem = s.mem ∧
      t.saved = s.saved) ∧
  (∀ (s : State) (k : Nat) (a : Act), (s.core k).preempt = true → s.held k = false → (s.core k).act = some a →
    a.commit = false → a.ovf ≠ 0 → s.areaTaken a.launch (s.core k).kself k = false → s.accessesHeld k = false →
    (s.stopRegion k).owesMessage k a = true ∨ (s.stopRegion k).enginesBusy k = true →
    ∃ t : State, exec (.preemptionTake k) s = .next t ∧ (t.core k).wait = some .saving ∧ (t.core k).act = some a ∧
      (t.core k).buf = [] ∧ t.saved = s.saved) ∧
  (∀ (s : State) (k : Nat) (a : Act), (s.core k).preempt = true → s.held k = false → (s.core k).act = some a →
    a.commit = false → a.ovf ≠ 0 → s.areaTaken a.launch (s.core k).kself k = false → (s.stopRegion k).owesMessage k a = false →
    (s.stopRegion k).enginesBusy k = false → s.exchanging = false →
    let c := s.core k
    let u := (s.stopRegion k).flushAll k
    let addr := a.ovf.toNat + 2 ^ 31 + c.kself * 2 ^ 15
    let carve := u.saveCarve k
    let parts := (u.core k).record (carve.2.mat k) k c.vfid c.asid a.launch c.kself
    let save := State.saveParts k c.vfid c.asid addr parts carve.2
    (carve.1 = none → save.1 = none → ∃ (t : State) (x : Saved), exec (.preemptionTake k) s = .next t ∧
      t.saved = s.saved ++ [x] ∧ x.launch = a.launch ∧ x.kself = c.kself ∧ x.act = some a ∧ x.asid = c.asid ∧ x.vf = c.vfid ∧
      x.record = addr ∧ x.ext = isExt k ∧ (t.core k).act = none ∧ (t.core k).wait = none ∧ (t.core k).preempt = false ∧
      ∀ i : Fin 32, ∀ p, (t.core k).slots[i.val] ≠ .holds p) ∧
    ∀ d at_, carve.1 = some (d, at_) ∨ (carve.1 = none ∧ save.1 = some (d, at_)) → ∃ t : State,
      exec (.preemptionTake k) s = .next t ∧ (t.core k).act = none ∧ t.saved.length = s.saved.length ∧
      (t.core k).fcause = BitVec.ofNat 16 (d * 256 + 21) ∧ (t.core k).faddr = addr48 (BitVec.ofNat 64 at_)) ∧
  (∀ (s : State) (n d : Nat) (x : Saved), s.placements[n]? = some ⟨.ctx x, d⟩ →
    let fits (k : Nat) : Prop := isExt k = x.ext ∧ s.held k = false ∧ (s.core k).fits x.inbox = true
    ((∀ k ∈ domeCores d, ¬ fits k) → ∃ t : State, exec (.contextResume n) s = .next t ∧ t.placements = dropAt s.placements n ∧
      t.saved = savedIn x s.saved ∧ (x.ext = true → (t.dome d).noExt = true) ∧ (x.ext = false → (t.dome d).noBase = true) ∧
      t.mem = s.mem) ∧
    (∀ k : Nat, k ∈ domeCores d → fits k → (∀ j ∈ domeCores d, j < k → ¬ fits j) → x.act = none → s.exchanging = false →
      (((s.dropPlacement n).restore k x).clearValid k x).1 = none → ∃ t : State, exec (.contextResume n) s = .next t ∧
        t.placements = dropAt s.placements n ∧ (t.core k).act = none ∧ (t.core k).pinned = none ∧
        (t.core k).kself = x.kself ∧ (t.core k).order = x.inbox.map Prod.fst ∧
        ∀ y ∈ x.inbox, ∃ p : Packet, (t.core k).slots[y.1.val] = .holds p) ∧
    ∀ (k : Nat) (a : Act), k ∈ domeCores d → fits k → (∀ j ∈ domeCores d, j < k → ¬ fits j) → x.act = some a → s.exchanging = false →
      let u := (s.dropPlacement n).restore k x
      let valid := (u.clearValid k x).1
      (valid = none → (u.core k).rgnpc.getLsbD 0 = false → ∃ t : State, exec (.contextResume n) s = .next t ∧
        t.placements = dropAt s.placements n ∧ (t.core k).kself = x.kself ∧ (t.core k).asid = x.asid ∧ (t.core k).vfid = x.vf ∧
        (t.core k).pc = (t.core k).rgnpc ∧ (t.core k).act = some { a with base := (t.core k).regionNo } ∧
        (∀ r : GReg, a.entry = false → a.gmask.getLsbD r.val = false → (t.core k).readG r = Reg.data 0) ∧
        (a.entry = true → ((t.core k).readG 2).tag = .cap)) ∧
      (∀ e at_, valid = some (e, at_) → ∃ t : State, exec (.contextResume n) s = .next t ∧ (t.core k).act = none ∧
        (t.core k).fcause = BitVec.ofNat 16 (e * 256 + 21) ∧ (t.core k).faddr = addr48 (BitVec.ofNat 64 at_)) ∧
      (valid = none → (u.core k).rgnpc.getLsbD 0 = true → ∃ t : State, exec (.contextResume n) s = .next t ∧
        (t.core k).act = none ∧ (t.core k).fcause = 3 ∧ (t.core k).faddr = addr48 (u.core k).rgnpc)) ∧
  (∀ (s : State) (k j : Nat) (a : Act), (s.core k).act = some a → a.left = some j → j ≠ k →
    (s.leave k).core j = { s.core j with busyFor := none } ∧ ∀ i, i ≠ k → i ≠ j → (s.leave k).core i = s.core i) ∧
  ∀ (s : State) (k : Nat) (a : Act), (s.core k).act = some a → (s.core k).wait = some .migration →
    let c := s.core k
    let u := s.stopRegion k
    (s.held k = true ∨ s.accessesHeld k = true → exec (.extensionMigration k) s = .next s) ∧
    (u.owesMessage k a = true ∨ u.enginesBusy k = true → ∃ t : State,
      exec (.extensionMigration k) s = .next t ∧ (t.core k).act = some a ∧ (t.core k).wait = some .migration) ∧
    (u.owesMessage k a = false → u.enginesBusy k = false → s.held k = false → s.accessesHeld k = false →
      let fits (j : Nat) : Prop := isExt j = true ∧ s.held j = false ∧ (u.core j).fits c.inboxImage = true
      ((∀ j ∈ domeCores (k / 128), ¬ fits j) → ∃ t : State, exec (.extensionMigration k) s = .next t ∧
        (t.core k).act = some a ∧ (t.core k).wait = some .migration) ∧
      ∀ j : Nat, j ∈ domeCores (k / 128) → fits j → (∀ i ∈ domeCores (k / 128), i < j → ¬ fits i) → ∃ t : State,
        exec (.extensionMigration k) s = .next t ∧ (t.core k).act = none ∧ (t.core k).busyFor = some (a.launch, c.kself) ∧
        (t.core j).act = some { a with left := some k, base := (t.core j).regionNo } ∧ (t.core j).pc = c.rgnpc ∧
        (t.core j).kself = c.kself ∧ (t.core j).asid = c.asid ∧ (t.core j).vfid = c.vfid ∧
        (t.core j).classes = c.classes ∧
        ∀ r : GReg, a.entry = false → r ≠ 0 → a.gmask.getLsbD r.val = true → (c.readG r).tag ≠ .eph →
          (t.core j).readG r = c.readG r)

/-! ## The Station Controller -/

/-- R59, R93, R94, R156, R210, R247, R249, R327, R393, R395, R397 to R399, R401, R404: the operations of a virtual function's endpoint:
status and effect of each; where a slice of an exchange holds its memory up, a request waits (R389). The order of the statuses is the
model's reading (log 45), as is GRANT's status 5 for a malformed capability or for bounds over unmapped pages (log 47); COPY's lengths
and flag address and GRANT's misaligned address that draw 4 (log 46), LAUNCH's misaligned address and a WRITE of no bytes that do (log 98),
COPY's channel and its wait for one (log 90), its translation as a whole when it is taken up (log 78), and the visibility to the whole
package before the reply (log 79) are the model's choices. -/
def Obligations.KcpRequests : Prop :=
  ∀ (s : State) (ep : Nat) (q : KcpReq) (rest : List KcpReq), mget s.kcp ep = some (q :: rest) → ep < 1024 →
    s.sc.boot = .ready → q.busy = false → q.wellFormed = true →
    let s0 : State := { s with kcp := mput s.kcp ep rest }
    let done (i : Instr) (st : Nat) (body : List Byte) (more : State → Prop) : Prop := ∃ (t : State) (p : List Nat) (es : List LogEntry), exec i s = .next t ∧
      mget t.kcp ep = some rest ∧ t.replies = s.replies ++ [⟨ep, q.header.reply st body.length, body, p, es⟩] ∧
      (p ≠ [] → ∃ j a n, q.body = .read j a n) ∧ more t
    let left (u t : State) : Prop := t.mem = u.mem ∧ t.launches = s.launches ∧ t.jobs = s.jobs ∧ t.cores = s.cores
    let same (t : State) : Prop := left s t
    let goes (i : Instr) (more : State → KcpRun → Prop) : Prop := ∃ (t : State) (y : KcpRun), exec i s = .next t ∧ t.kcp = s.kcp ∧
      t.replies = s.replies ∧ mget t.kcpRuns ep = some y ∧ more t y
    let w8 (n : Nat) : List Byte := leBytes 8 n
    let mine (j : Nat) : Option Job := (mget s.jobs j).filter fun x => x.vf == ep
    (∀ desc : BitVec 1024, q.body = .launchBody desc →
      let who : Issuer := ⟨none, ep, 0, none, none, none, 0⟩
      let u := s0.pcChecked who (some (desc.toNat, 0))
      let codes := u.launchCodes who desc.toNat (parseLaunch desc.toNat 0)
      (∀ c ∈ codes, (∀ e ∈ codes, c ≤ e) → done (.kcpLaunch ep) 0 (w8 (2 ^ 63 + c)) (left u)) ∧
      (codes = [] → ∃ i, i < 4096 ∧ mget s.launches i = none ∧ done (.kcpLaunch ep) 0 (w8 i) fun t =>
        ∃ y, mget t.launches i = some y ∧ y.vf = ep ∧ y.desc.units = desc.toNat / 2 ^ 96 % 2 ^ 32)) ∧
    (∀ addr job res, q.body = .launchAt addr job res →
      (res = true ∨ addr % 64 ≠ 0 → done (.kcpLaunch ep) 4 [] same) ∧
      (res = false → addr < 2 ^ 48 → addr % 64 = 0 → job < 1024 → mine job = none →
        done (.kcpLaunch ep) 0 (w8 (2 ^ 63 + 7)) same)) ∧
    (∀ lv i, q.body = .cancel lv i →
      (s.instanceJob lv i.toNat = none → done (.kcpCancel ep) 0 (w8 (2 ^ 63 + 2)) same) ∧
      ∀ j x, s.instanceJob lv i.toNat = some j → mget s.jobs j = some x →
        (x.vf ≠ ep → done (.kcpCancel ep) 0 (w8 (2 ^ 63 + 1)) same) ∧
        (x.vf = ep → done (.kcpCancel ep) 0 (w8 0) fun t => rising none (s.launches.map Prod.fst) = true → lv = .launch →
          ∀ y, mget t.launches i.toNat = some y → y.cancelled = true)) ∧
    (∀ i, q.body = .close false i → (mine i = none → done (.kcpClose ep) 6 [] same) ∧
      (mine i ≠ none → rising none (s.jobs.map Prod.fst) = true → done (.kcpClose ep) 0 [] fun t =>
        ∀ y, mget t.jobs i = some y → y.counts.closed = true)) ∧
    (∀ i x, q.body = .close true i → mget s.phases i = some x → mine x.job ≠ none →
      rising none (s.phases.map Prod.fst) = true → done (.kcpClose ep) 0 [] fun t =>
        ∀ y, mget t.phases i = some y → y.counts.closed = true) ∧
    (∀ b, q.body = .open b →
      let job := b.toNat / 2 ^ 16 % 2 ^ 10
      let phase := b.toNat / 2 ^ 32 % 2 ^ 8
      let asid := b.toNat / 2 ^ 48 % 2 ^ 16
      let u := s0.checked (s.asidAt ep asid) 8
      (openBad b.toNat = true → done (.kcpOpen ep) 4 [] same) ∧
      (openBad b.toNat = false → b.getLsbD 0 = false → mget s.jobs job = none → u.asidValid ep asid = true →
        done (.kcpOpen ep) 0 [] fun t => mget t.jobs job = some ⟨⟨false, 0, 0, 0, 0⟩, ep, asid, none⟩) ∧
      (openBad b.toNat = false → b.getLsbD 0 = false → mget s.jobs job ≠ none ∨ u.asidValid ep asid = false →
        done (.kcpOpen ep) 6 [] (left u)) ∧
      ∀ x, openBad b.toNat = false → b.getLsbD 0 = true → mine job = some x → mget s.phases phase = none →
        x.counts.closed = false → x.counts.isFull = false → done (.kcpOpen ep) 0 [] fun t =>
          mget t.phases phase = some ⟨⟨false, 0, 0, 0, 0⟩, job⟩ ∧
          ∃ y, mget t.jobs job = some y ∧ y.counts.members = x.counts.members + 1) ∧
    (∀ pkg l x, q.body = .listen false pkg l → mget s.launches l = some x →
      (x.vf ≠ ep → done (.kcpListen ep) 5 [] same) ∧
      (x.vf = ep → done (.kcpListen ep) 0 [] fun t => mget (t.vf ep).listen pkg = some l)) ∧
    (∀ j a v i, q.body = .grant j a v i → (a % 16 ≠ 0 → done (.kcpGrant ep) 4 [] same) ∧
      (a % 16 = 0 → malformed i v = true → done (.kcpGrant ep) 5 [] same) ∧
      (∀ x u, a % 16 = 0 → malformed i v = false → mine j = some x → s0.boundsInside ep x.asid i v = (false, u) →
        done (.kcpGrant ep) 5 [] (left u)) ∧
      ∀ x p u w, a % 16 = 0 → malformed i v = false → mine j = some x → s0.boundsInside ep x.asid i v = (true, u) →
        u.engineTo .station ep x.asid a [.write] = (.ok p, w) → p.pa % 16 = 0 → s.mem.wf = true → w.heldAt p.pa = false →
        done (.kcpGrant ep) 0 [] fun t =>
          t.mem.tag (p.pa / 16) = true ∧ (∀ k < 8, t.mem.byte (p.pa + k) = BitVec.ofNat 8 (v.toNat / 256 ^ k)) ∧
          ∀ k < 8, t.mem.byte (p.pa + 8 + k) = BitVec.ofNat 8 (i.toNat / 256 ^ k)) ∧
    (∀ asid va, q.body = .shoot asid va →
      let hit (e : TlbEntry) : Prop := e.asid = asid ∧ e.va ≤ va ∧ va < e.va + e.size
      done (.kcpShoot ep) 0 [] fun t => t.mem = s.mem ∧
        (∀ k c, mget s.cores k = some c → ∀ e, e ∈ (t.core k).tlb ↔ e ∈ c.tlb ∧ ¬ hit e) ∧
        ∀ y, y ∈ t.tlbs ↔ y ∈ s.tlbs ∧ ¬ hit y.2) ∧
    (∀ j a n, q.body = .read j a n → (n = 0 ∨ 2 ^ 20 < n → done (.kcpRead ep) 4 [] same) ∧
      (0 < n → n ≤ 2 ^ 20 → mine j = none → done (.kcpRead ep) 5 [] same) ∧
      ∀ x e u, 0 < n → n ≤ 2 ^ 20 → mine j = some x → s0.spanPages .station ep x.asid [.read] a n = (some [e], u) → e.size = n →
        u.mem.upsets = [] → u.heldSpan e.pa n = false →
        (u.mem.poisonIn .station e.pa n = none → done (.kcpRead ep) 0 (u.mem.viewBytes .station e.pa n) fun t => t.mem = u.mem) ∧
        ∀ w, e.pa = 8 * w → n = 8 → u.mem.viewMark .station w ≠ none → ∃ t : State, exec (.kcpRead ep) s = .next t ∧ t.mem = u.mem ∧
          t.replies = s.replies ++ [⟨ep, q.header.reply 0 8, w8 0, [0], []⟩]) ∧
    (∀ j a d, q.body = .write j a d → mget s.kcpRuns ep = none → (d = [] → done (.kcpWrite ep) 4 [] same) ∧
      ∀ x e u, 0 < d.length → d.length ≤ 2 ^ 20 → mine j = some x → s.mem.wf = true →
        s0.spanPages .station ep x.asid [.write] a d.length = (some [e], u) → e.size = d.length → u.heldSpan e.pa d.length = false →
        goes (.kcpWrite ep) fun t y => y.channel = none ∧ (∀ k < d.length, some (t.mem.byte (e.pa + k)) = d[k]?) ∧ t.mem.wf = true ∧
          ∀ z, z < e.pa ∨ e.pa + d.length ≤ z → t.mem.byte z = u.mem.byte z) ∧
    (∀ x : KcpRun, mget s.kcpRuns ep = some x → x.channel = none → done (.kcpWrite ep) 0 [] fun t =>
      t.mem = x.shown s.mem ∧ ∀ a, t.mem.byte a = s.mem.byte a) ∧
    (∀ j src dst n flag val, q.body = .copy j src dst n flag val → mget s.kcpRuns ep = none →
      (n = 0 ∨ 2 ^ 36 < n ∨ flag % 2 ≠ 0 → done (.kcpCopy ep) 4 [] same) ∧
      (0 < n → n ≤ 2 ^ 36 → flag % 2 = 0 → mine j = none → done (.kcpCopy ep) 5 [] same) ∧
      (∀ x c u, 0 < n → n ≤ 2 ^ 36 → flag % 2 = 0 → mine j = some x → s.freeKcpChannel = some c →
        s0.spanPages (.kcpChannel c) ep x.asid [.read] src n = (none, u) → done (.kcpCopy ep) 5 [] (left u)) ∧
      (0 < n → n ≤ 2 ^ 36 → flag % 2 = 0 → mine j ≠ none → s.freeKcpChannel = none → exec (.kcpCopy ep) s = .next s) ∧
      ∀ x c a d f u v w, 0 < n → n ≤ 2 ^ 36 → flag % 2 = 0 → mine j = some x → s.freeKcpChannel = some c →
        s0.spanPages (.kcpChannel c) ep x.asid [.read] src n = (some a, u) →
        u.spanPages (.kcpChannel c) ep x.asid [.write] dst n = (some d, v) →
        v.engineTo (.kcpChannel c) ep x.asid flag [.write] = (.ok f, w) →
        goes (.kcpCopy ep) fun t y => y = ⟨some c, src, dst, n, a, d, ⟨flag, f.pa, 2, f.sc⟩, val, 0, false, []⟩ ∧ t.mem = w.mem) ∧
    (∀ (x : KcpRun) (c : Nat), mget s.kcpRuns ep = some x → x.channel = some c →
      let v := Viewer.kcpChannel c
      let from_ := x.src + x.done
      let to_ := x.dst + x.done
      let n := min (x.len - x.done) (min (64 - from_ % 64) (64 - to_ % 64))
      (∀ p d : Nat × Nat, x.done < x.len → placeIn x.sources from_ = some p → placeIn x.dests to_ = some d →
        (s.heldSpan p.1 n = true ∨ s.heldSpan d.1 n = true → exec (.kcpCopy ep) s = .next s) ∧
        (s.heldSpan p.1 n = false → s.heldSpan d.1 n = false → s.mem.upsets = [] → s.mem.wf = true →
          s.mem.poisonIn v p.1 n = none → goes (.kcpCopy ep) fun t y => y.done = x.done + n ∧ y.src = x.src ∧ y.dst = x.dst ∧
            y.len = x.len ∧ y.sources = x.sources ∧ y.dests = x.dests ∧ y.flagged = x.flagged ∧
            ∀ k < n, x.src ≤ to_ + k ∧ to_ + k < x.src + x.len ∨ t.mem.byte (d.1 + k) = s.mem.view v (p.1 + k))) ∧
      (x.len ≤ x.done → x.flagged = false → s.mem.wf = true → s.heldSpan x.flag.pa 2 = false →
        goes (.kcpCopy ep) fun t y => y.flagged = true ∧ ∀ k < 2, t.mem.byte (x.flag.pa + k) = BitVec.ofNat 8 (x.val / 256 ^ k)) ∧
      (x.len ≤ x.done → x.flagged = true → done (.kcpCopy ep) 0 [] fun t =>
        t.mem = x.shown s.mem ∧ ∀ a, t.mem.byte a = s.mem.byte a)) ∧
    (∀ c, q.body = .count c → done (.kcpCount ep) 0 (w8 (s.reading c).toNat) same ∧
      ((∀ r, c ≠ .minimum r) → (∀ k n, c ≠ .stepTime k n) → s.reading c = BitVec.ofNat 64 (s.counter c)) ∧
      (∀ k n, c = .stepTime k n → s.reading c = BitVec.ofNat 64 (min (2 ^ 64 - 1)
        (s.counter c + if (s.core k).step = n then s.rc - (s.core k).stepSince else 0))) ∧
      ∀ r m, c = .minimum r → mget s.sc.minima r = some m → s.reading c = BitVec.ofInt 64 m) ∧
    (∀ nonce, q.body = .attest nonce → (nonce.length ≠ 32 → done (.kcpAttest ep) 4 [] same) ∧
      (nonce.length = 32 → done (.kcpAttest ep) 0
        (s.attestation nonce ++ leBytes 64 (Config.identitySignature (s.attestation nonce)).toNat) same)) ∧
    ∀ n, q.body = .other n → (n = 0 ∨ (12 < n ∧ n < 0x40) ∨ 0x45 < n → done (.kcpUnknownOp ep) 1 [] same) ∧
      (0 < n ∧ n ≤ 12 → done (.kcpUnknownOp ep) 4 [] same) ∧ (0x40 ≤ n ∧ n ≤ 0x45 → done (.kcpUnknownOp ep) 2 [] same)

/-- The oldest request of a management endpoint of a READY device is well-formed and signed with an enrolled key. -/
def MgmtReady (s : State) (ep : Nat) (q : KcpReq) (rest : List KcpReq) (key : BitVec 256) : Prop :=
  1024 ≤ ep ∧ mget s.kcp ep = some (q :: rest) ∧ s.sc.boot = .ready ∧ q.busy = false ∧ q.wellFormed = true ∧ q.signer = some key ∧ key ∈ s.sc.keys

/-- The oldest request of an endpoint has been answered with a status and no body. -/
def Answered (s t : State) (ep : Nat) (q : KcpReq) (rest : List KcpReq) (st : Nat) : Prop :=
  mget t.kcp ep = some rest ∧ t.replies = s.replies ++ [⟨ep, q.header.reply st 0, [], [], []⟩]

/-- What a refused request leaves as it was. -/
def Untouched (s t : State) : Prop := t.mem = s.mem ∧ t.cores = s.cores ∧ t.sc = s.sc ∧ t.vfs = s.vfs ∧ t.domes = s.domes

/-- R57, R58, R349, R391, R395 to R397, R400, R401, R403, R405, R427: the operations of the management endpoint, and the statuses that
come before any operation. Their order is the model's reading (log 45), as are the last key's status 6 ahead of the own key's 2
(log 48), PART's status 4 for a misaligned base (log 49), a malformed token's 4 (log 50), SVC's 6 for a dome that it cannot take out or
give back (log 52), and the wait of a request that came before a restart (log 86); a restitch refused with 6 (log 72) and a LOG of no more
entries than a reply holds (log 97) are its choices. -/
def Obligations.KcpManagement : Prop :=
  (∀ (s : State) (ep : Nat) (q : KcpReq) (rest : List KcpReq) (op : PartOp), mget s.kcp ep = some (q :: rest) → q.body = .part op →
    (q.busy = true ∨ s.sc.boot = .safe → ∃ t : State, exec (.kcpPart ep) s = .next t ∧ Answered s t ep q rest 3 ∧ Untouched s t) ∧
    (q.busy = false → s.sc.boot = .booting ∨ s.sc.boot = .restarting ∨ s.sc.boot = .restartingSafe → exec (.kcpPart ep) s = .next s) ∧
    (q.busy = false → s.sc.boot = .ready → ep < 1024 → ∃ t : State, exec (.kcpPart ep) s = .next t ∧ Answered s t ep q rest 2 ∧ Untouched s t) ∧
    (q.busy = false → s.sc.boot = .ready → 1024 ≤ ep → q.signer = none → s.sc.keys ≠ [] →
      ∃ t : State, exec (.kcpPart ep) s = .next t ∧ Answered s t ep q rest 2 ∧ Untouched s t)) ∧
  (∀ (s : State) (ep : Nat) (r : KcpReq), ep ≤ 1024 → ∃ b : Bool,
    mget (s.input (.kcp ep r)).kcp ep = some (((mget s.kcp ep).getD []) ++ [{ r with busy := b, arrived := s.rc }]) ∧
    (b = true ↔ s.sc.boot = .booting ∨ s.sc.boot = .restarting ∨ s.sc.boot = .restartingSafe ∨
      (s.sc.boot = .safe ∧ ¬ (ep = 1024 ∧ r.body.op ∈ [0x0A, 0x0B, 0x42, 0x44] ∧ ∀ n, r.body ≠ .other n)))) ∧
  (∀ (s : State) (ep : Nat) (q : KcpReq) (rest : List KcpReq) (n : Nat), mget s.kcp ep = some (q :: rest) → q.body = .other n →
    ep < 1024 → s.sc.boot = .ready → q.busy = false → q.wellFormed = false →
    ∃ t : State, exec (.kcpUnknownOp ep) s = .next t ∧ Untouched s t ∧
      (n < 0x40 ∨ 0x45 < n → Answered s t ep q rest 4) ∧ (0x40 ≤ n → n ≤ 0x45 → Answered s t ep q rest 2)) ∧
  (∀ (s : State) (ep : Nat) (q : KcpReq) (rest : List KcpReq) (key : BitVec 256) (op : PartOp), MgmtReady s ep q rest key →
    q.body = .part op → op.bad = true → ∃ t : State, exec (.kcpPart ep) s = .next t ∧ Answered s t ep q rest 4 ∧ Untouched s t) ∧
  (∀ (s : State) (ep : Nat) (q : KcpReq) (rest : List KcpReq) (key : BitVec 256) (op : PartOp), MgmtReady s ep q rest key →
    q.body = .part op → op.bad = false → s.part op = none →
    ∃ t : State, exec (.kcpPart ep) s = .next t ∧ Answered s t ep q rest 6 ∧ Untouched s t) ∧
  (∀ (s : State) (ep : Nat) (q : KcpReq) (rest : List KcpReq) (key : BitVec 256) (op : PartOp), MgmtReady s ep q rest key →
    q.body = .part op → op.bad = false → s.part op ≠ none →
    ∃ t : State, exec (.kcpPart ep) s = .next t ∧ Answered s t ep q rest 0 ∧ t.mem = s.mem ∧ match op with
      | .assign vf d => ((s.dome d).mode = .unassigned → (t.dome d).mode = .owned vf ∧ (t.vf vf).domes = (s.vf vf).domes ++ [d]) ∧
          ∀ old, (s.dome d).mode = .retiring old false none → (t.dome d).mode = .retiring old false (some vf) ∧ t.vfs = s.vfs
      | .remove d p => ∀ vf, (s.dome d).mode = .owned vf → (t.dome d).mode = .retiring vf false none ∧ d ∉ (t.vf vf).domes ∧
          ∀ k c, mget s.cores k = some c → k / 128 = d → p = true → c.act ≠ none → (t.core k).preempt = true
      | .weight vf w => (t.vf vf).weight = w
      | .context vf b => (t.vf vf).ctx = b
      | .swb vf b => (t.vf vf).swb = b
      | .remote vf b => (t.vf vf).remote = b
      | .channel c vf n => (t.barrier c).vf = some vf ∧ (t.barrier c).parties = n
      | .slot c vf => (t.bcast c).vf = some vf
      | .line die n vf => mget t.lines (8 * die + n) = some vf
      | .group n g => mget t.groups n = some g
      | .route d c r => ∀ vf, (s.dome d).mode = .owned vf → s.stitch = none →
          (s.quiet vf = true → mget t.routes (64 * d + c) = some r ∧ t.stitch = none) ∧
          (s.quiet vf = false → t.routes = s.routes ∧ t.stitch = some ⟨vf, none, [(d, c, r)]⟩)
      | .stitch vf x => s.stitch = none → t.stitch = some ⟨vf, some x, []⟩
      | .package n => t.sc.package = some n) ∧
  (∀ (s : State) (vf d : Nat) (p : Bool),
    (s.part (.assign vf d) = none ↔ (s.dome d).mode ≠ .unassigned ∧ ∀ old, (s.dome d).mode ≠ .retiring old false none) ∧
    (s.part (.remove d p) = none ↔ ∀ old, (s.dome d).mode ≠ .owned old) ∧
    ∀ x, s.part (.stitch vf x) = none ↔ ∃ y, s.stitch = some y ∧ y.vf ≠ vf) ∧
  (∀ (s : State) (ep : Nat) (q : KcpReq) (rest : List KcpReq) (key : BitVec 256) (b : BitVec 128), MgmtReady s ep q rest key →
    q.body = .token b →
    let seq := b.truncate 32
    let watts := b.toNat / 2 ^ 32 % 2 ^ 16
    let new := s.sc.anyToken = false ∨ (0 < (seq - s.sc.lastSeq).toNat ∧ (seq - s.sc.lastSeq).toNat < 2 ^ 31)
    (b.toNat / 2 ^ 48 ≠ 0 → ∃ t : State, exec (.kcpToken ep) s = .next t ∧ Answered s t ep q rest 4 ∧ t.sc.budget = s.sc.budget ∧
      t.sc.expiry = s.sc.expiry ∧ t.counter .tokensIgnored = min (s.counter .tokensIgnored + 1) (2 ^ 64 - 1)) ∧
    (b.toNat / 2 ^ 48 = 0 → new → ∃ t : State, exec (.kcpToken ep) s = .next t ∧ Answered s t ep q rest 0 ∧ t.sc.lastSeq = seq ∧
      t.sc.budget = max 900 (min 3000 watts) ∧ t.sc.expiry = q.arrived + 600000000) ∧
    (b.toNat / 2 ^ 48 = 0 → ¬ new → ∃ t : State, exec (.kcpToken ep) s = .next t ∧ Answered s t ep q rest 0 ∧
      t.sc.budget = s.sc.budget ∧ t.sc.expiry = s.sc.expiry ∧
      t.counter .tokensIgnored = min (s.counter .tokensIgnored + 1) (2 ^ 64 - 1))) ∧
  (∀ (s : State) (ep : Nat) (q : KcpReq) (rest : List KcpReq) (key : BitVec 256) (img : List Byte), MgmtReady s ep q rest key →
    q.body = .fwupd false false img →
    let good := Config.imageSigned img = true ∧ s.sc.fused.toNat ≤ (Config.imageVersion img).toNat
    (good → ∃ t : State, exec (.kcpFwupdImage ep) s = .next t ∧ Answered s t ep q rest 0 ∧ t.sc.activeB = !s.sc.activeB ∧
      t.sc.boot = .restarting ∧ t.sc.active = ⟨Config.imageVersion img, img, true, false⟩) ∧
    (¬ good → ∃ t : State, exec (.kcpFwupdImage ep) s = .next t ∧ Answered s t ep q rest 4 ∧ t.sc.active = s.sc.active ∧
      t.sc.boot = .ready)) ∧
  (∀ (s : State) (ep : Nat) (q : KcpReq) (rest : List KcpReq) (key : BitVec 256), MgmtReady s ep q rest key →
    q.body = .fwupd true false [] →
    (s.sc.active.ready = false ∨ 255 ≤ s.sc.rows → ∃ t : State, exec (.kcpFwupdCommit ep) s = .next t ∧ Answered s t ep q rest 6 ∧
      Untouched s t) ∧
    (s.sc.active.ready = true → s.sc.rows < 255 → s.sc.fused.toNat < s.sc.active.version.toNat →
      ∃ t : State, exec (.kcpFwupdCommit ep) s = .next t ∧ Answered s t ep q rest 0 ∧ t.sc.fused = s.sc.active.version ∧
        t.sc.rows = s.sc.rows + 1) ∧
    (s.sc.active.ready = true → s.sc.rows < 255 → s.sc.active.version.toNat ≤ s.sc.fused.toNat →
      ∃ t : State, exec (.kcpFwupdCommit ep) s = .next t ∧ Answered s t ep q rest 0 ∧ Untouched s t)) ∧
  (∀ (s : State) (ep : Nat) (q : KcpReq) (rest : List KcpReq) (key : BitVec 256) (i : Nat) (back : Bool), MgmtReady s ep q rest key →
    (q.body = .svc true i back → 16 ≤ i → ∃ t : State, exec (.kcpSvc ep) s = .next t ∧ Answered s t ep q rest 4 ∧ Untouched s t) ∧
    (q.body = .svc true i false → i < 16 → ∃ t : State, exec (.kcpSvc ep) s = .next t ∧ Answered s t ep q rest 0 ∧
      (t.stack i).recal = true ∧ t.mem = s.mem) ∧
    (q.body = .svc false i false → i < 64 → (s.dome i).mode = .unassigned → ∃ t : State, exec (.kcpSvc ep) s = .next t ∧
      Answered s t ep q rest 0 ∧ (t.dome i).mode = .testing) ∧
    (∀ vf, q.body = .svc false i false → i < 64 → (s.dome i).mode = .owned vf → ∃ t : State, exec (.kcpSvc ep) s = .next t ∧
      Answered s t ep q rest 0 ∧ (t.dome i).mode = .retiring vf true none ∧ i ∉ (t.vf vf).domes) ∧
    (∀ vf, q.body = .svc false i true → i < 64 → (s.dome i).mode = .owned vf → ∃ t : State, exec (.kcpSvc ep) s = .next t ∧
      Answered s t ep q rest 6 ∧ Untouched s t)) ∧
  (∀ (s : State) (ep : Nat) (q : KcpReq) (rest : List KcpReq) (key : BitVec 256) (first n : Nat), MgmtReady s ep q rest key →
    q.body = .log first n →
    let es := (s.sc.log.drop first).take (min n 32770)
    let body := es.flatMap LogEntry.bytes
    ∃ t : State, exec (.kcpLog ep) s = .next t ∧ mget t.kcp ep = some rest ∧
      t.replies = s.replies ++ [⟨ep, q.header.reply 0 body.length, body, [], es⟩] ∧ Untouched s t) ∧
  (∀ (s : State) (ep : Nat) (q : KcpReq) (rest : List KcpReq) (key : BitVec 256) (b : BitVec 320), MgmtReady s ep q rest key →
    q.body = .keys b → b.toNat / 2 ^ 8 % 2 ^ 56 = 0 → b.toNat % 256 = 0 →
    let k := BitVec.ofNat 256 (b.toNat / 2 ^ 64)
    (k ∉ s.sc.keys → s.sc.keys.length < 8 → ∃ t : State, exec (.kcpKeysAdd ep) s = .next t ∧ Answered s t ep q rest 0 ∧
      t.sc.keys = s.sc.keys ++ [k] ∧ ∃ e ∈ t.sc.log, e.code = .keyChange ∧ e.data = BitVec.ofNat 128 (b.toNat / 2 ^ 64)) ∧
    (k ∈ s.sc.keys ∨ 8 ≤ s.sc.keys.length → ∃ t : State, exec (.kcpKeysAdd ep) s = .next t ∧ Answered s t ep q rest 6 ∧
      Untouched s t)) ∧
  ∀ (s : State) (ep : Nat) (q : KcpReq) (rest : List KcpReq) (key : BitVec 256) (b : BitVec 320), MgmtReady s ep q rest key →
    q.body = .keys b → b.toNat / 2 ^ 8 % 2 ^ 56 = 0 → b.toNat % 256 = 1 →
    let k := BitVec.ofNat 256 (b.toNat / 2 ^ 64)
    (k ∈ s.sc.keys → 1 < s.sc.keys.length → k ≠ key → ∃ t : State, exec (.kcpKeysRevoke ep) s = .next t ∧
      Answered s t ep q rest 0 ∧ k ∉ t.sc.keys ∧ (∀ x, x ≠ k → (x ∈ t.sc.keys ↔ x ∈ s.sc.keys)) ∧
      ∃ e ∈ t.sc.log, e.code = .keyChange) ∧
    (k ∉ s.sc.keys ∨ s.sc.keys.length = 1 → ∃ t : State, exec (.kcpKeysRevoke ep) s = .next t ∧ Answered s t ep q rest 6 ∧
      Untouched s t) ∧
    (1 < s.sc.keys.length → k = key → ∃ t : State, exec (.kcpKeysRevoke ep) s = .next t ∧ Answered s t ep q rest 2 ∧ Untouched s t)

/-- R246, R338, R394, R396, R400, R403, R405, R427: bring-up and restart reach READY or SAFE, power loss returns to reset what does not
survive it, recalibration and self-test end, and packets of another package are performed or dropped. The data of the log's entries for
SAFE and for a change of slot are the model's (logs 51 and 53), as are what power loss keeps (log 44) and the refusal of a packet
without a code (log 52). -/
def Obligations.StationSteps : Prop :=
  (∀ (s : State) (failed : Option (Fin 3)) (bad : List Nat), s.sc.boot = .booting →
    let slot (b : Bool) : FwSlot := if b then s.sc.slotB else s.sc.slotA
    let boots (b : Bool) : Prop := (slot b).valid = true ∧ s.sc.fused.toNat ≤ (slot b).version.toNat ∧
      Config.imageBoots (slot b).image = true
    ∃ t : State, exec (.bringUp failed bad) s = .next t ∧ t.mem = s.mem ∧
      (failed = none → boots s.sc.activeB → t.sc.boot = .ready ∧ t.sc.activeB = s.sc.activeB ∧ t.sc.active.ready = true ∧
        ∀ d, d < 64 → d ∈ bad → (t.dome d).mode = .disabled) ∧
      (failed = none → ¬ boots s.sc.activeB → boots (!s.sc.activeB) → t.sc.boot = .ready ∧ t.sc.activeB = !s.sc.activeB ∧
        t.sc.active.ready = true ∧ ∃ e ∈ t.sc.log, e.code = .firmware ∨ 65536 ≤ bad.length) ∧
      (∀ n : Fin 3, failed = some n → boots s.sc.activeB ∨ boots (!s.sc.activeB) → t.sc.boot = .safe ∧
        ∃ e ∈ t.sc.log, e.code = .safe ∧ e.data = BitVec.ofNat 128 (n.val + 2)) ∧
      (¬ boots s.sc.activeB → ¬ boots (!s.sc.activeB) → t.sc.boot = .safe ∧ ∃ e ∈ t.sc.log, e.code = .safe ∧ e.data = 1)) ∧
  (∀ (s : State) (failed : Option (Fin 3)) (bad : List Nat), s.sc.boot ≠ .booting → exec (.bringUp failed bad) s = .next s) ∧
  (∀ (s : State), s.sc.active.valid = true → s.sc.fused.toNat ≤ s.sc.active.version.toNat →
    Config.imageBoots s.sc.active.image = true →
    (s.sc.boot = .restarting → ∃ t : State, exec .stationControllerRestart s = .next t ∧ t.sc.boot = .ready ∧
      t.sc.active.ready = true ∧ t.mem = s.mem ∧ t.cores = s.cores) ∧
    (s.sc.boot = .restartingSafe → ∃ t : State, exec .stationControllerRestart s = .next t ∧ t.sc.boot = .safe ∧
      t.sc.active = s.sc.active ∧ t.mem = s.mem ∧ t.cores = s.cores)) ∧
  (∀ (s : State), ∃ t : State, exec .powerLoss s = .next t ∧ t.mem = State.reset.mem ∧ t.cores = State.reset.cores ∧
    t.sc.boot = .booting ∧ t.sc.keys = s.sc.keys ∧ t.sc.slotA = s.sc.slotA ∧ t.sc.slotB = s.sc.slotB ∧
    t.sc.activeB = s.sc.activeB ∧ t.sc.fused = s.sc.fused ∧ t.sc.package = s.sc.package ∧ t.sc.log = []) ∧
  (∀ (s : State) (i : Nat), (s.stack i).recal = true → ∃ t : State, exec (.stackRecalibrationComplete i) s = .next t ∧
    t.stack i = { s.stack i with recal := false } ∧ t.mem = s.mem) ∧
  (∀ (s : State) (d : Nat), (s.dome d).mode = .testing →
    (∃ t : State, exec (.domeSelfTestComplete d true) s = .next t ∧ (t.dome d).mode = .unassigned) ∧
    ∃ t : State, exec (.domeSelfTestComplete d false) s = .next t ∧ (t.dome d).mode = .disabled ∧
      ∃ e ∈ t.sc.log, e.code = .domeFailed) ∧
  (∀ (s : State) (n : Nat), s.uet[n]? = some .unsupported → ∃ t : State, exec (.unsupportedUetPacket n) s = .next t ∧
    t.uet = dropAt s.uet n ∧ t.counter .badPacket = min (s.counter .badPacket + 1) (2 ^ 64 - 1) ∧ t.mem = s.mem) ∧
  (∀ (s : State) (n source vf asid va len : Nat), s.uet[n]? = some (.read source vf asid va len) →
    let s1 : State := { s with uet := dropAt s.uet n }
    (∀ u, s1.remotePages source vf asid [.read] va len = (none, u) → ∃ t : State, exec (.uetRemoteMemoryAccess n) s = .next t ∧
      t.uet = dropAt s.uet n ∧ t.uetOut = s.uetOut ++ [none] ∧ t.mem = u.mem) ∧
    ∀ (e : Extent) (u : State), s1.remotePages source vf asid [.read] va len = (some [e], u) → e.size = len → u.mem.upsets = [] →
      s.heldSpan e.pa len = false →
      ∃ t : State, exec (.uetRemoteMemoryAccess n) s = .next t ∧ t.uet = dropAt s.uet n ∧ t.mem = u.mem ∧
        (u.mem.poisonIn (.uet source) e.pa len = none → t.uetOut = s.uetOut ++ [some (u.mem.viewBytes (.uet source) e.pa len)]) ∧
        (u.mem.poisonIn (.uet source) e.pa len ≠ none → t.uetOut = s.uetOut ++ [none])) ∧
  (∀ (s : State) (n source vf asid va : Nat) (d : List Byte) (pois : Bool), s.uet[n]? = some (.write source vf asid va d pois) →
    let s1 : State := { s with uet := dropAt s.uet n }
    (∀ u, s1.remotePages source vf asid [.write] va d.length = (none, u) → ∃ t : State, exec (.uetRemoteMemoryAccess n) s = .next t ∧
      t.uet = dropAt s.uet n ∧ t.uetOut = s.uetOut ++ [none] ∧ t.mem = u.mem) ∧
    ∀ (e : Extent) (u : State), s1.remotePages source vf asid [.write] va d.length = (some [e], u) → e.size = d.length →
      s.mem.wf = true → s.heldSpan e.pa d.length = false → ∃ t : State, exec (.uetRemoteMemoryAccess n) s = .next t ∧ t.uet = dropAt s.uet n ∧
        t.uetOut = s.uetOut ++ [some []] ∧ ∀ k < d.length, some (t.mem.byte (e.pa + k)) = d[k]?) ∧
  (∀ (s : State) (source vf asid va n : Nat) (rights : List Access), (s.vf vf).remote = false ∨ s.sc.package = none →
    s.remotePages source vf asid rights va n = (none, s)) ∧
  (∀ (s u : State) (source vf asid va n : Nat) (rights : List Access) (l : List Extent),
    s.remotePages source vf asid rights va n = (some l, u) →
    ∀ e ∈ l, e.sc = 4) ∧
  ∀ (s : State) (n pkg vf : Nat) (m : Msg), s.uet[n]? = some (.message pkg vf m) →
    let earlier := ∃ w x, .message pkg w x ∈ s.uet.take n ∧ x.src = m.src ∧ x.dest = m.dest ∧ x.cls = m.cls ∧ x.pri = m.pri
    let admitted := s.sc.package ≠ none ∧ (s.vf vf).remote = true ∧ s.inPartition vf m.dest = true
    (earlier → exec (.uetRemoteMemoryAccess n) s = .next s) ∧
    (¬ earlier → admitted → ∃ (t : State) (f : Flight), exec (.uetRemoteMemoryAccess n) s = .next t ∧ t.uet = dropAt s.uet n ∧
      t.flights = s.flights ++ [f] ∧ f.packet.kind = .cross ∧ f.packet.msg.launch = pkg ∧ f.packet.msg.xpkg = true ∧
      f.packet.msg.dest = m.dest ∧ f.packet.msg.m = m.m) ∧
    (¬ earlier → ¬ admitted → ∃ t : State, exec (.uetRemoteMemoryAccess n) s = .next t ∧ t.uet = dropAt s.uet n ∧
      t.flights = s.flights ∧ t.counter .crossDropped = min (s.counter .crossDropped + 1) (2 ^ 64 - 1))

/-! ## The whole machine -/

/-- R104, R118, R307: where the bytes at the PC of the core whose turn it is decode to an instruction, the step is exec of it, after which a
reference cycle passes; so too for the word at a near unit's index, and a move of the agenda is exec of the step it names. The fetch
changes nothing but the core's instruction cache. -/
def Obligations.StepRunsDecoded : Prop :=
  (∀ (s : State) (a : Act) (e : TlbEntry) (i : Instr), s.agenda = [] → s.nearCur = none → s.me.act = some a →
    s.me.wait = none →
    let va := s.me.pc.toNat
    let pa := e.pa + (va - e.va)
    let lo := s.mem.viewNat (.core s.cur) pa 2
    let w := s.mem.viewNat (.core s.cur) pa 4
    s.idles s.cur = false → s.preempts s.cur = false → s.mem.upsets = [] →
    s.me.icache = [] → tlbFind s.me.tlb s.me.asid va = some e → tlbFind s.me.tlb s.me.asid (va + 2) = some e → e.x = true →
    mappable pa = true → mappable (pa + 2) = true → pa % 2 = 0 → e.va ≤ va → va + 2 < 2 ^ 48 →
    (∀ n, s.mem.viewMark (.core s.cur) n = none) →
    (lo % 2 = 0 ∧ decode16 lo = .ok i) ∨ (lo % 2 = 1 ∧ decode32 w = .ok i) →
    ∃ u, { u with cores := s.cores } = s ∧ (∀ k, k ≠ s.cur → u.core k = s.core k) ∧
      { u.me with icache := s.me.icache } = s.me ∧
      ∀ t, exec i u = .next t → step s = .next t.tick) ∧
  (∀ (t : State), t.tick.rc = t.rc + 1 ∧ t.tick.nearCur = none ∧ t.tick.mem = t.mem ∧ ∀ k, (t.tick.core k).pc = (t.core k).pc) ∧
  (∀ (s : State) (h u qi : Nat) (e : Entry) (w : BitVec 32) (i : Instr), s.agenda = [] → s.nearCur = some (h, u) →
    s.nearTask h u = some (qi, e) → (s.near h u).image.code[(s.near h u).index]? = some w → decodeNear w.toNat = .ok i →
    ∀ t, exec i s = .next t → step s = .next t.tick) ∧
  ∀ (s : State) (i : Instr) (rest : List Move), s.agenda = .event i :: rest → Instr.isTurn i = true →
    step s = exec i { s with agenda := rest }

/-- The machine never stops: every step of every state answers a next state (R369, R370: a fault is taken and the machine goes
on). -/
def Obligations.EveryStepGoesOn : Prop :=
  (∀ (i : Instr) (s : State), ∃ t : State, exec i s = .next t) ∧ ∀ (s : State), ∃ t, step s = .next t

/-- R104, R107, R127, R129 to R132, R134 to R137: words that the spec writes out decode to the instructions that it names for
them. -/
def Obligations.DecodeKnownWords : Prop :=
  decode32 0x040E6319 = .ok (.cprm 6 6 7) ∧ decode32 0x000E5319 = .ok (.cbnd 6 5 7) ∧
  decode32 0x08026419 = .ok (.cget 8 6 1) ∧ decode32 0x0C006419 = .ok (.ctag 8 6) ∧
  decode32 0x10006419 = .ok (.cstrip 8 6) ∧ decode32 0x0002301B = .ok (.ewait (.f 3)) ∧
  decode32 0x0000001B = .ok (.ewait (.g 0)) ∧ decode32 0x0400041B = .ok (.estat 8) ∧
  decode32 0x0800501B = .ok (.edrop (.g 5)) ∧ decode32 0x3FC05E21 = .ok (.bne 5 0 (BitVec.ofInt 12 (-4))) ∧
  decode32 0xC0105221 = .ok (.btag 5 8 4) ∧ decode32 0x000E028D = .ok (.ori 5 0 7)

/-- R104, R107 to R109, R307: decode and encode agree: every well-formed instruction is what its word decodes to. -/
def Obligations.EncodeDecodeRoundTrip : Prop :=
  ∀ (i : Instr), i.wf = true →
    match i.kind with
    | .core32 => encode i < 2 ^ 32 ∧ encode i % 2 = 1 ∧ decode32 (encode i) = .ok i
    | .core16 => encode i < 2 ^ 16 ∧ encode i % 2 = 0 ∧ decode16 (encode i) = .ok i
    | .near => encode i < 2 ^ 32 ∧ decodeNear (encode i) = .ok i
    | .none => True

/-- R104, R107, R118, R307: an instruction that a word decodes to is well-formed, and it is of a word. -/
def Obligations.DecodedIsWellFormed : Prop :=
  (∀ (w : Nat) (i : Instr), decode32 w = .ok i → i.wf = true ∧ i.kind = .core32) ∧
  (∀ (w : Nat) (i : Instr), decode16 w = .ok i → i.wf = true ∧ i.kind = .core16) ∧
  ∀ (w : Nat) (i : Instr), decodeNear w = .ok i → i.wf = true ∧ i.kind = .near

/-- R93, R199, R212 to R215: every step keeps the canonical form of memory: bytes, tags and marks rise strictly, and no byte is listed that
reads as an unlisted one. -/
def Obligations.CanonicalMemoryKept : Prop := ∀ (s t : State), s.mem.wf = true → step s = .next t → t.mem.wf = true

/-- R101, R386, R391, R400: the state after reset: memory in canonical form with nothing listed, no activation, every core with MWGT 1, the
other system registers of R101 zero and an empty class table, the budget at 1,800 W and every balance at 64 ms. -/
def Obligations.ResetState : Prop :=
  State.reset.mem.wf = true ∧ (∀ a, State.reset.mem.byte a = 0) ∧ State.reset.sc.boot = .booting ∧
  (∀ k, (State.reset.core k).act = none ∧ (State.reset.core k).kself = k ∧ (State.reset.core k).mwgt = 1 ∧
    (State.reset.core k).rgnpc = 0 ∧ (State.reset.core k).fcause = 0 ∧ (State.reset.core k).faddr = 0 ∧
    (State.reset.core k).splo = 0 ∧ (State.reset.core k).ovfptr = 0 ∧ (State.reset.core k).dseed = 0 ∧
    (State.reset.core k).rgnrec = 0 ∧ (State.reset.core k).dkeep = 0 ∧ (State.reset.core k).asid = 0 ∧ (State.reset.core k).vfid = 0 ∧
    ∀ i : Fin 64, (State.reset.core k).classes[i.val] = 0) ∧
  State.reset.sc.inForce = 1800 ∧ ∀ r, State.reset.balance r = 16384
end

