-- ==== Sys2Proof/Laws/Map.lean ====
section
/-! SUPPORT. Reading after writing, for finite tables and for the units of the state. -/
namespace Sys2Proof.Machine

/-- The entry that has been put is the one that is read. -/
@[simp] theorem mget_mput_same {α : Type} (m : Map α) (i : Nat) (x : α) : mget (mput m i x) i = some x := by
  induction m with
  | nil => simp [mput, mget]
  | cons p rest ih =>
    obtain ⟨k, v⟩ := p
    simp only [mput]
    split
    · simp [mget]
    · split
      · simp [mget]
      · simp [mget, *]

/-- Every other entry is read as before. -/
theorem mget_mput_other {α : Type} (m : Map α) {i j : Nat} (x : α) (h : j ≠ i) : mget (mput m i x) j = mget m j := by
  induction m with
  | nil => simp [mput, mget, h]
  | cons p rest ih =>
    obtain ⟨k, v⟩ := p
    simp only [mput]
    split
    · subst_vars; simp [mget, h]
    · split
      · simp only [mget, h, if_false]
        by_cases hk : j = k
        · subst hk
          have : ¬ j < i := by omega
          simp [this]
        · simp only [hk, if_false]
          split
          · have : j < k := by omega
            simp [this]
          · rfl
      · simp only [mget]
        split
        · rfl
        · split
          · rfl
          · exact ih

/-- A core that has been set is the one that is read. -/
@[simp] theorem State.core_setCore_same (s : State) (k : Nat) (c : Core) : (s.setCore k c).core k = c := by
  simp [State.core, State.setCore]

/-- Every other core is read as before. -/
theorem State.core_setCore_other (s : State) {k j : Nat} (c : Core) (h : j ≠ k) : (s.setCore k c).core j = s.core j := by
  simp [State.core, State.setCore, mget_mput_other _ _ h]

/-- The core whose turn it is, after it has been set. -/
@[simp] theorem State.me_setMe (s : State) (c : Core) : (s.setMe c).me = c := by
  simp only [State.me, State.setMe]
  exact State.core_setCore_same s s.cur c

/-- Setting it twice is setting it once. -/
@[simp] theorem mput_mput {α : Type} (m : Map α) (i : Nat) (x y : α) : mput (mput m i x) i y = mput m i y := by
  induction m with
  | nil => simp [mput]
  | cons p rest ih =>
    obtain ⟨k, v⟩ := p
    simp only [mput]
    split
    · simp [mput]
    · split
      · simp [mput]
      · simp [mput, *]

/-- Setting it twice is setting it once. -/
@[simp] theorem State.setMe_setMe (s : State) (c d : Core) : (s.setMe c).setMe d = s.setMe d := by
  simp [State.setMe, State.setCore]

end Sys2Proof.Machine
end

