-- ==== Sys2Proof/Laws/State.lean ====
section
/-! SUPPORT. What an update of the state, or of a core, leaves of the other fields: one lemma for each field, true by rfl. -/
namespace Sys2Proof.Machine

/-! ## State.setCore -/

@[simp] theorem State.setCore_mem (s : State) (k : Nat) (x : Core) : (s.setCore k x).mem = s.mem := rfl
@[simp] theorem State.setCore_mats (s : State) (k : Nat) (x : Core) : (s.setCore k x).mats = s.mats := rfl
@[simp] theorem State.setCore_matUnits (s : State) (k : Nat) (x : Core) : (s.setCore k x).matUnits = s.matUnits := rfl
@[simp] theorem State.setCore_domes (s : State) (k : Nat) (x : Core) : (s.setCore k x).domes = s.domes := rfl
@[simp] theorem State.setCore_homes (s : State) (k : Nat) (x : Core) : (s.setCore k x).homes = s.homes := rfl
@[simp] theorem State.setCore_stackTable (s : State) (k : Nat) (x : Core) : (s.setCore k x).stackTable = s.stackTable := rfl
@[simp] theorem State.setCore_launches (s : State) (k : Nat) (x : Core) : (s.setCore k x).launches = s.launches := rfl
@[simp] theorem State.setCore_graphs (s : State) (k : Nat) (x : Core) : (s.setCore k x).graphs = s.graphs := rfl
@[simp] theorem State.setCore_phases (s : State) (k : Nat) (x : Core) : (s.setCore k x).phases = s.phases := rfl
@[simp] theorem State.setCore_jobs (s : State) (k : Nat) (x : Core) : (s.setCore k x).jobs = s.jobs := rfl
@[simp] theorem State.setCore_tcbs (s : State) (k : Nat) (x : Core) : (s.setCore k x).tcbs = s.tcbs := rfl
@[simp] theorem State.setCore_accepted (s : State) (k : Nat) (x : Core) : (s.setCore k x).accepted = s.accepted := rfl
@[simp] theorem State.setCore_front (s : State) (k : Nat) (x : Core) : (s.setCore k x).front = s.front := rfl
@[simp] theorem State.setCore_offers (s : State) (k : Nat) (x : Core) : (s.setCore k x).offers = s.offers := rfl
@[simp] theorem State.setCore_saved (s : State) (k : Nat) (x : Core) : (s.setCore k x).saved = s.saved := rfl
@[simp] theorem State.setCore_turns (s : State) (k : Nat) (x : Core) : (s.setCore k x).turns = s.turns := rfl
@[simp] theorem State.setCore_oreqs (s : State) (k : Nat) (x : Core) : (s.setCore k x).oreqs = s.oreqs := rfl
@[simp] theorem State.setCore_served (s : State) (k : Nat) (x : Core) : (s.setCore k x).served = s.served := rfl
@[simp] theorem State.setCore_dispatched (s : State) (k : Nat) (x : Core) : (s.setCore k x).dispatched = s.dispatched := rfl
@[simp] theorem State.setCore_placements (s : State) (k : Nat) (x : Core) : (s.setCore k x).placements = s.placements := rfl
@[simp] theorem State.setCore_vfs (s : State) (k : Nat) (x : Core) : (s.setCore k x).vfs = s.vfs := rfl
@[simp] theorem State.setCore_hreqs (s : State) (k : Nat) (x : Core) : (s.setCore k x).hreqs = s.hreqs := rfl
@[simp] theorem State.setCore_flights (s : State) (k : Nat) (x : Core) : (s.setCore k x).flights = s.flights := rfl
@[simp] theorem State.setCore_multis (s : State) (k : Nat) (x : Core) : (s.setCore k x).multis = s.multis := rfl
@[simp] theorem State.setCore_rounds (s : State) (k : Nat) (x : Core) : (s.setCore k x).rounds = s.rounds := rfl
@[simp] theorem State.setCore_groups (s : State) (k : Nat) (x : Core) : (s.setCore k x).groups = s.groups := rfl
@[simp] theorem State.setCore_routes (s : State) (k : Nat) (x : Core) : (s.setCore k x).routes = s.routes := rfl
@[simp] theorem State.setCore_barriers (s : State) (k : Nat) (x : Core) : (s.setCore k x).barriers = s.barriers := rfl
@[simp] theorem State.setCore_bcasts (s : State) (k : Nat) (x : Core) : (s.setCore k x).bcasts = s.bcasts := rfl
@[simp] theorem State.setCore_lines (s : State) (k : Nat) (x : Core) : (s.setCore k x).lines = s.lines := rfl
@[simp] theorem State.setCore_stitch (s : State) (k : Nat) (x : Core) : (s.setCore k x).stitch = s.stitch := rfl
@[simp] theorem State.setCore_topologies (s : State) (k : Nat) (x : Core) : (s.setCore k x).topologies = s.topologies := rfl
@[simp] theorem State.setCore_reports (s : State) (k : Nat) (x : Core) : (s.setCore k x).reports = s.reports := rfl
@[simp] theorem State.setCore_cres (s : State) (k : Nat) (x : Core) : (s.setCore k x).cres = s.cres := rfl
@[simp] theorem State.setCore_lastRwr (s : State) (k : Nat) (x : Core) : (s.setCore k x).lastRwr = s.lastRwr := rfl
@[simp] theorem State.setCore_arrivals (s : State) (k : Nat) (x : Core) : (s.setCore k x).arrivals = s.arrivals := rfl
@[simp] theorem State.setCore_kcp (s : State) (k : Nat) (x : Core) : (s.setCore k x).kcp = s.kcp := rfl
@[simp] theorem State.setCore_kcpRuns (s : State) (k : Nat) (x : Core) : (s.setCore k x).kcpRuns = s.kcpRuns := rfl
@[simp] theorem State.setCore_replies (s : State) (k : Nat) (x : Core) : (s.setCore k x).replies = s.replies := rfl
@[simp] theorem State.setCore_uet (s : State) (k : Nat) (x : Core) : (s.setCore k x).uet = s.uet := rfl
@[simp] theorem State.setCore_sent (s : State) (k : Nat) (x : Core) : (s.setCore k x).sent = s.sent := rfl
@[simp] theorem State.setCore_remote (s : State) (k : Nat) (x : Core) : (s.setCore k x).remote = s.remote := rfl
@[simp] theorem State.setCore_rma (s : State) (k : Nat) (x : Core) : (s.setCore k x).rma = s.rma := rfl
@[simp] theorem State.setCore_tlbs (s : State) (k : Nat) (x : Core) : (s.setCore k x).tlbs = s.tlbs := rfl
@[simp] theorem State.setCore_uetOut (s : State) (k : Nat) (x : Core) : (s.setCore k x).uetOut = s.uetOut := rfl
@[simp] theorem State.setCore_sc (s : State) (k : Nat) (x : Core) : (s.setCore k x).sc = s.sc := rfl
@[simp] theorem State.setCore_rc (s : State) (k : Nat) (x : Core) : (s.setCore k x).rc = s.rc := rfl
@[simp] theorem State.setCore_cur (s : State) (k : Nat) (x : Core) : (s.setCore k x).cur = s.cur := rfl
@[simp] theorem State.setCore_nearCur (s : State) (k : Nat) (x : Core) : (s.setCore k x).nearCur = s.nearCur := rfl
@[simp] theorem State.setCore_agenda (s : State) (k : Nat) (x : Core) : (s.setCore k x).agenda = s.agenda := rfl
@[simp] theorem State.setCore_fresh (s : State) (k : Nat) (x : Core) : (s.setCore k x).fresh = s.fresh := rfl

/-! ## State.setMe -/

@[simp] theorem State.setMe_mem (s : State) (x : Core) : (s.setMe x).mem = s.mem := rfl
@[simp] theorem State.setMe_mats (s : State) (x : Core) : (s.setMe x).mats = s.mats := rfl
@[simp] theorem State.setMe_matUnits (s : State) (x : Core) : (s.setMe x).matUnits = s.matUnits := rfl
@[simp] theorem State.setMe_domes (s : State) (x : Core) : (s.setMe x).domes = s.domes := rfl
@[simp] theorem State.setMe_homes (s : State) (x : Core) : (s.setMe x).homes = s.homes := rfl
@[simp] theorem State.setMe_stackTable (s : State) (x : Core) : (s.setMe x).stackTable = s.stackTable := rfl
@[simp] theorem State.setMe_launches (s : State) (x : Core) : (s.setMe x).launches = s.launches := rfl
@[simp] theorem State.setMe_graphs (s : State) (x : Core) : (s.setMe x).graphs = s.graphs := rfl
@[simp] theorem State.setMe_phases (s : State) (x : Core) : (s.setMe x).phases = s.phases := rfl
@[simp] theorem State.setMe_jobs (s : State) (x : Core) : (s.setMe x).jobs = s.jobs := rfl
@[simp] theorem State.setMe_tcbs (s : State) (x : Core) : (s.setMe x).tcbs = s.tcbs := rfl
@[simp] theorem State.setMe_accepted (s : State) (x : Core) : (s.setMe x).accepted = s.accepted := rfl
@[simp] theorem State.setMe_front (s : State) (x : Core) : (s.setMe x).front = s.front := rfl
@[simp] theorem State.setMe_offers (s : State) (x : Core) : (s.setMe x).offers = s.offers := rfl
@[simp] theorem State.setMe_saved (s : State) (x : Core) : (s.setMe x).saved = s.saved := rfl
@[simp] theorem State.setMe_turns (s : State) (x : Core) : (s.setMe x).turns = s.turns := rfl
@[simp] theorem State.setMe_oreqs (s : State) (x : Core) : (s.setMe x).oreqs = s.oreqs := rfl
@[simp] theorem State.setMe_served (s : State) (x : Core) : (s.setMe x).served = s.served := rfl
@[simp] theorem State.setMe_dispatched (s : State) (x : Core) : (s.setMe x).dispatched = s.dispatched := rfl
@[simp] theorem State.setMe_placements (s : State) (x : Core) : (s.setMe x).placements = s.placements := rfl
@[simp] theorem State.setMe_vfs (s : State) (x : Core) : (s.setMe x).vfs = s.vfs := rfl
@[simp] theorem State.setMe_hreqs (s : State) (x : Core) : (s.setMe x).hreqs = s.hreqs := rfl
@[simp] theorem State.setMe_flights (s : State) (x : Core) : (s.setMe x).flights = s.flights := rfl
@[simp] theorem State.setMe_multis (s : State) (x : Core) : (s.setMe x).multis = s.multis := rfl
@[simp] theorem State.setMe_rounds (s : State) (x : Core) : (s.setMe x).rounds = s.rounds := rfl
@[simp] theorem State.setMe_groups (s : State) (x : Core) : (s.setMe x).groups = s.groups := rfl
@[simp] theorem State.setMe_routes (s : State) (x : Core) : (s.setMe x).routes = s.routes := rfl
@[simp] theorem State.setMe_barriers (s : State) (x : Core) : (s.setMe x).barriers = s.barriers := rfl
@[simp] theorem State.setMe_bcasts (s : State) (x : Core) : (s.setMe x).bcasts = s.bcasts := rfl
@[simp] theorem State.setMe_lines (s : State) (x : Core) : (s.setMe x).lines = s.lines := rfl
@[simp] theorem State.setMe_stitch (s : State) (x : Core) : (s.setMe x).stitch = s.stitch := rfl
@[simp] theorem State.setMe_topologies (s : State) (x : Core) : (s.setMe x).topologies = s.topologies := rfl
@[simp] theorem State.setMe_reports (s : State) (x : Core) : (s.setMe x).reports = s.reports := rfl
@[simp] theorem State.setMe_cres (s : State) (x : Core) : (s.setMe x).cres = s.cres := rfl
@[simp] theorem State.setMe_lastRwr (s : State) (x : Core) : (s.setMe x).lastRwr = s.lastRwr := rfl
@[simp] theorem State.setMe_arrivals (s : State) (x : Core) : (s.setMe x).arrivals = s.arrivals := rfl
@[simp] theorem State.setMe_kcp (s : State) (x : Core) : (s.setMe x).kcp = s.kcp := rfl
@[simp] theorem State.setMe_kcpRuns (s : State) (x : Core) : (s.setMe x).kcpRuns = s.kcpRuns := rfl
@[simp] theorem State.setMe_replies (s : State) (x : Core) : (s.setMe x).replies = s.replies := rfl
@[simp] theorem State.setMe_uet (s : State) (x : Core) : (s.setMe x).uet = s.uet := rfl
@[simp] theorem State.setMe_sent (s : State) (x : Core) : (s.setMe x).sent = s.sent := rfl
@[simp] theorem State.setMe_remote (s : State) (x : Core) : (s.setMe x).remote = s.remote := rfl
@[simp] theorem State.setMe_rma (s : State) (x : Core) : (s.setMe x).rma = s.rma := rfl
@[simp] theorem State.setMe_tlbs (s : State) (x : Core) : (s.setMe x).tlbs = s.tlbs := rfl
@[simp] theorem State.setMe_uetOut (s : State) (x : Core) : (s.setMe x).uetOut = s.uetOut := rfl
@[simp] theorem State.setMe_sc (s : State) (x : Core) : (s.setMe x).sc = s.sc := rfl
@[simp] theorem State.setMe_rc (s : State) (x : Core) : (s.setMe x).rc = s.rc := rfl
@[simp] theorem State.setMe_cur (s : State) (x : Core) : (s.setMe x).cur = s.cur := rfl
@[simp] theorem State.setMe_nearCur (s : State) (x : Core) : (s.setMe x).nearCur = s.nearCur := rfl
@[simp] theorem State.setMe_agenda (s : State) (x : Core) : (s.setMe x).agenda = s.agenda := rfl
@[simp] theorem State.setMe_fresh (s : State) (x : Core) : (s.setMe x).fresh = s.fresh := rfl

/-! ## State.setMat -/

@[simp] theorem State.setMat_mem (s : State) (k : Nat) (x : MatCore) : (s.setMat k x).mem = s.mem := rfl
@[simp] theorem State.setMat_cores (s : State) (k : Nat) (x : MatCore) : (s.setMat k x).cores = s.cores := rfl
@[simp] theorem State.setMat_matUnits (s : State) (k : Nat) (x : MatCore) : (s.setMat k x).matUnits = s.matUnits := rfl
@[simp] theorem State.setMat_domes (s : State) (k : Nat) (x : MatCore) : (s.setMat k x).domes = s.domes := rfl
@[simp] theorem State.setMat_homes (s : State) (k : Nat) (x : MatCore) : (s.setMat k x).homes = s.homes := rfl
@[simp] theorem State.setMat_stackTable (s : State) (k : Nat) (x : MatCore) : (s.setMat k x).stackTable = s.stackTable := rfl
@[simp] theorem State.setMat_launches (s : State) (k : Nat) (x : MatCore) : (s.setMat k x).launches = s.launches := rfl
@[simp] theorem State.setMat_graphs (s : State) (k : Nat) (x : MatCore) : (s.setMat k x).graphs = s.graphs := rfl
@[simp] theorem State.setMat_phases (s : State) (k : Nat) (x : MatCore) : (s.setMat k x).phases = s.phases := rfl
@[simp] theorem State.setMat_jobs (s : State) (k : Nat) (x : MatCore) : (s.setMat k x).jobs = s.jobs := rfl
@[simp] theorem State.setMat_tcbs (s : State) (k : Nat) (x : MatCore) : (s.setMat k x).tcbs = s.tcbs := rfl
@[simp] theorem State.setMat_accepted (s : State) (k : Nat) (x : MatCore) : (s.setMat k x).accepted = s.accepted := rfl
@[simp] theorem State.setMat_front (s : State) (k : Nat) (x : MatCore) : (s.setMat k x).front = s.front := rfl
@[simp] theorem State.setMat_offers (s : State) (k : Nat) (x : MatCore) : (s.setMat k x).offers = s.offers := rfl
@[simp] theorem State.setMat_saved (s : State) (k : Nat) (x : MatCore) : (s.setMat k x).saved = s.saved := rfl
@[simp] theorem State.setMat_turns (s : State) (k : Nat) (x : MatCore) : (s.setMat k x).turns = s.turns := rfl
@[simp] theorem State.setMat_oreqs (s : State) (k : Nat) (x : MatCore) : (s.setMat k x).oreqs = s.oreqs := rfl
@[simp] theorem State.setMat_served (s : State) (k : Nat) (x : MatCore) : (s.setMat k x).served = s.served := rfl
@[simp] theorem State.setMat_dispatched (s : State) (k : Nat) (x : MatCore) : (s.setMat k x).dispatched = s.dispatched := rfl
@[simp] theorem State.setMat_placements (s : State) (k : Nat) (x : MatCore) : (s.setMat k x).placements = s.placements := rfl
@[simp] theorem State.setMat_vfs (s : State) (k : Nat) (x : MatCore) : (s.setMat k x).vfs = s.vfs := rfl
@[simp] theorem State.setMat_hreqs (s : State) (k : Nat) (x : MatCore) : (s.setMat k x).hreqs = s.hreqs := rfl
@[simp] theorem State.setMat_flights (s : State) (k : Nat) (x : MatCore) : (s.setMat k x).flights = s.flights := rfl
@[simp] theorem State.setMat_multis (s : State) (k : Nat) (x : MatCore) : (s.setMat k x).multis = s.multis := rfl
@[simp] theorem State.setMat_rounds (s : State) (k : Nat) (x : MatCore) : (s.setMat k x).rounds = s.rounds := rfl
@[simp] theorem State.setMat_groups (s : State) (k : Nat) (x : MatCore) : (s.setMat k x).groups = s.groups := rfl
@[simp] theorem State.setMat_routes (s : State) (k : Nat) (x : MatCore) : (s.setMat k x).routes = s.routes := rfl
@[simp] theorem State.setMat_barriers (s : State) (k : Nat) (x : MatCore) : (s.setMat k x).barriers = s.barriers := rfl
@[simp] theorem State.setMat_bcasts (s : State) (k : Nat) (x : MatCore) : (s.setMat k x).bcasts = s.bcasts := rfl
@[simp] theorem State.setMat_lines (s : State) (k : Nat) (x : MatCore) : (s.setMat k x).lines = s.lines := rfl
@[simp] theorem State.setMat_stitch (s : State) (k : Nat) (x : MatCore) : (s.setMat k x).stitch = s.stitch := rfl
@[simp] theorem State.setMat_topologies (s : State) (k : Nat) (x : MatCore) : (s.setMat k x).topologies = s.topologies := rfl
@[simp] theorem State.setMat_reports (s : State) (k : Nat) (x : MatCore) : (s.setMat k x).reports = s.reports := rfl
@[simp] theorem State.setMat_cres (s : State) (k : Nat) (x : MatCore) : (s.setMat k x).cres = s.cres := rfl
@[simp] theorem State.setMat_lastRwr (s : State) (k : Nat) (x : MatCore) : (s.setMat k x).lastRwr = s.lastRwr := rfl
@[simp] theorem State.setMat_arrivals (s : State) (k : Nat) (x : MatCore) : (s.setMat k x).arrivals = s.arrivals := rfl
@[simp] theorem State.setMat_kcp (s : State) (k : Nat) (x : MatCore) : (s.setMat k x).kcp = s.kcp := rfl
@[simp] theorem State.setMat_kcpRuns (s : State) (k : Nat) (x : MatCore) : (s.setMat k x).kcpRuns = s.kcpRuns := rfl
@[simp] theorem State.setMat_replies (s : State) (k : Nat) (x : MatCore) : (s.setMat k x).replies = s.replies := rfl
@[simp] theorem State.setMat_uet (s : State) (k : Nat) (x : MatCore) : (s.setMat k x).uet = s.uet := rfl
@[simp] theorem State.setMat_sent (s : State) (k : Nat) (x : MatCore) : (s.setMat k x).sent = s.sent := rfl
@[simp] theorem State.setMat_remote (s : State) (k : Nat) (x : MatCore) : (s.setMat k x).remote = s.remote := rfl
@[simp] theorem State.setMat_rma (s : State) (k : Nat) (x : MatCore) : (s.setMat k x).rma = s.rma := rfl
@[simp] theorem State.setMat_tlbs (s : State) (k : Nat) (x : MatCore) : (s.setMat k x).tlbs = s.tlbs := rfl
@[simp] theorem State.setMat_uetOut (s : State) (k : Nat) (x : MatCore) : (s.setMat k x).uetOut = s.uetOut := rfl
@[simp] theorem State.setMat_sc (s : State) (k : Nat) (x : MatCore) : (s.setMat k x).sc = s.sc := rfl
@[simp] theorem State.setMat_rc (s : State) (k : Nat) (x : MatCore) : (s.setMat k x).rc = s.rc := rfl
@[simp] theorem State.setMat_cur (s : State) (k : Nat) (x : MatCore) : (s.setMat k x).cur = s.cur := rfl
@[simp] theorem State.setMat_nearCur (s : State) (k : Nat) (x : MatCore) : (s.setMat k x).nearCur = s.nearCur := rfl
@[simp] theorem State.setMat_agenda (s : State) (k : Nat) (x : MatCore) : (s.setMat k x).agenda = s.agenda := rfl
@[simp] theorem State.setMat_fresh (s : State) (k : Nat) (x : MatCore) : (s.setMat k x).fresh = s.fresh := rfl

/-! ## State.setDome -/

@[simp] theorem State.setDome_mem (s : State) (k : Nat) (x : Dome) : (s.setDome k x).mem = s.mem := rfl
@[simp] theorem State.setDome_cores (s : State) (k : Nat) (x : Dome) : (s.setDome k x).cores = s.cores := rfl
@[simp] theorem State.setDome_mats (s : State) (k : Nat) (x : Dome) : (s.setDome k x).mats = s.mats := rfl
@[simp] theorem State.setDome_matUnits (s : State) (k : Nat) (x : Dome) : (s.setDome k x).matUnits = s.matUnits := rfl
@[simp] theorem State.setDome_homes (s : State) (k : Nat) (x : Dome) : (s.setDome k x).homes = s.homes := rfl
@[simp] theorem State.setDome_stackTable (s : State) (k : Nat) (x : Dome) : (s.setDome k x).stackTable = s.stackTable := rfl
@[simp] theorem State.setDome_launches (s : State) (k : Nat) (x : Dome) : (s.setDome k x).launches = s.launches := rfl
@[simp] theorem State.setDome_graphs (s : State) (k : Nat) (x : Dome) : (s.setDome k x).graphs = s.graphs := rfl
@[simp] theorem State.setDome_phases (s : State) (k : Nat) (x : Dome) : (s.setDome k x).phases = s.phases := rfl
@[simp] theorem State.setDome_jobs (s : State) (k : Nat) (x : Dome) : (s.setDome k x).jobs = s.jobs := rfl
@[simp] theorem State.setDome_tcbs (s : State) (k : Nat) (x : Dome) : (s.setDome k x).tcbs = s.tcbs := rfl
@[simp] theorem State.setDome_accepted (s : State) (k : Nat) (x : Dome) : (s.setDome k x).accepted = s.accepted := rfl
@[simp] theorem State.setDome_front (s : State) (k : Nat) (x : Dome) : (s.setDome k x).front = s.front := rfl
@[simp] theorem State.setDome_offers (s : State) (k : Nat) (x : Dome) : (s.setDome k x).offers = s.offers := rfl
@[simp] theorem State.setDome_saved (s : State) (k : Nat) (x : Dome) : (s.setDome k x).saved = s.saved := rfl
@[simp] theorem State.setDome_turns (s : State) (k : Nat) (x : Dome) : (s.setDome k x).turns = s.turns := rfl
@[simp] theorem State.setDome_oreqs (s : State) (k : Nat) (x : Dome) : (s.setDome k x).oreqs = s.oreqs := rfl
@[simp] theorem State.setDome_served (s : State) (k : Nat) (x : Dome) : (s.setDome k x).served = s.served := rfl
@[simp] theorem State.setDome_dispatched (s : State) (k : Nat) (x : Dome) : (s.setDome k x).dispatched = s.dispatched := rfl
@[simp] theorem State.setDome_placements (s : State) (k : Nat) (x : Dome) : (s.setDome k x).placements = s.placements := rfl
@[simp] theorem State.setDome_vfs (s : State) (k : Nat) (x : Dome) : (s.setDome k x).vfs = s.vfs := rfl
@[simp] theorem State.setDome_hreqs (s : State) (k : Nat) (x : Dome) : (s.setDome k x).hreqs = s.hreqs := rfl
@[simp] theorem State.setDome_flights (s : State) (k : Nat) (x : Dome) : (s.setDome k x).flights = s.flights := rfl
@[simp] theorem State.setDome_multis (s : State) (k : Nat) (x : Dome) : (s.setDome k x).multis = s.multis := rfl
@[simp] theorem State.setDome_rounds (s : State) (k : Nat) (x : Dome) : (s.setDome k x).rounds = s.rounds := rfl
@[simp] theorem State.setDome_groups (s : State) (k : Nat) (x : Dome) : (s.setDome k x).groups = s.groups := rfl
@[simp] theorem State.setDome_routes (s : State) (k : Nat) (x : Dome) : (s.setDome k x).routes = s.routes := rfl
@[simp] theorem State.setDome_barriers (s : State) (k : Nat) (x : Dome) : (s.setDome k x).barriers = s.barriers := rfl
@[simp] theorem State.setDome_bcasts (s : State) (k : Nat) (x : Dome) : (s.setDome k x).bcasts = s.bcasts := rfl
@[simp] theorem State.setDome_lines (s : State) (k : Nat) (x : Dome) : (s.setDome k x).lines = s.lines := rfl
@[simp] theorem State.setDome_stitch (s : State) (k : Nat) (x : Dome) : (s.setDome k x).stitch = s.stitch := rfl
@[simp] theorem State.setDome_topologies (s : State) (k : Nat) (x : Dome) : (s.setDome k x).topologies = s.topologies := rfl
@[simp] theorem State.setDome_reports (s : State) (k : Nat) (x : Dome) : (s.setDome k x).reports = s.reports := rfl
@[simp] theorem State.setDome_cres (s : State) (k : Nat) (x : Dome) : (s.setDome k x).cres = s.cres := rfl
@[simp] theorem State.setDome_lastRwr (s : State) (k : Nat) (x : Dome) : (s.setDome k x).lastRwr = s.lastRwr := rfl
@[simp] theorem State.setDome_arrivals (s : State) (k : Nat) (x : Dome) : (s.setDome k x).arrivals = s.arrivals := rfl
@[simp] theorem State.setDome_kcp (s : State) (k : Nat) (x : Dome) : (s.setDome k x).kcp = s.kcp := rfl
@[simp] theorem State.setDome_kcpRuns (s : State) (k : Nat) (x : Dome) : (s.setDome k x).kcpRuns = s.kcpRuns := rfl
@[simp] theorem State.setDome_replies (s : State) (k : Nat) (x : Dome) : (s.setDome k x).replies = s.replies := rfl
@[simp] theorem State.setDome_uet (s : State) (k : Nat) (x : Dome) : (s.setDome k x).uet = s.uet := rfl
@[simp] theorem State.setDome_sent (s : State) (k : Nat) (x : Dome) : (s.setDome k x).sent = s.sent := rfl
@[simp] theorem State.setDome_remote (s : State) (k : Nat) (x : Dome) : (s.setDome k x).remote = s.remote := rfl
@[simp] theorem State.setDome_rma (s : State) (k : Nat) (x : Dome) : (s.setDome k x).rma = s.rma := rfl
@[simp] theorem State.setDome_tlbs (s : State) (k : Nat) (x : Dome) : (s.setDome k x).tlbs = s.tlbs := rfl
@[simp] theorem State.setDome_uetOut (s : State) (k : Nat) (x : Dome) : (s.setDome k x).uetOut = s.uetOut := rfl
@[simp] theorem State.setDome_sc (s : State) (k : Nat) (x : Dome) : (s.setDome k x).sc = s.sc := rfl
@[simp] theorem State.setDome_rc (s : State) (k : Nat) (x : Dome) : (s.setDome k x).rc = s.rc := rfl
@[simp] theorem State.setDome_cur (s : State) (k : Nat) (x : Dome) : (s.setDome k x).cur = s.cur := rfl
@[simp] theorem State.setDome_nearCur (s : State) (k : Nat) (x : Dome) : (s.setDome k x).nearCur = s.nearCur := rfl
@[simp] theorem State.setDome_agenda (s : State) (k : Nat) (x : Dome) : (s.setDome k x).agenda = s.agenda := rfl
@[simp] theorem State.setDome_fresh (s : State) (k : Nat) (x : Dome) : (s.setDome k x).fresh = s.fresh := rfl

/-! ## State.setHome -/

@[simp] theorem State.setHome_mem (s : State) (k : Nat) (x : Home) : (s.setHome k x).mem = s.mem := rfl
@[simp] theorem State.setHome_cores (s : State) (k : Nat) (x : Home) : (s.setHome k x).cores = s.cores := rfl
@[simp] theorem State.setHome_mats (s : State) (k : Nat) (x : Home) : (s.setHome k x).mats = s.mats := rfl
@[simp] theorem State.setHome_matUnits (s : State) (k : Nat) (x : Home) : (s.setHome k x).matUnits = s.matUnits := rfl
@[simp] theorem State.setHome_domes (s : State) (k : Nat) (x : Home) : (s.setHome k x).domes = s.domes := rfl
@[simp] theorem State.setHome_stackTable (s : State) (k : Nat) (x : Home) : (s.setHome k x).stackTable = s.stackTable := rfl
@[simp] theorem State.setHome_launches (s : State) (k : Nat) (x : Home) : (s.setHome k x).launches = s.launches := rfl
@[simp] theorem State.setHome_graphs (s : State) (k : Nat) (x : Home) : (s.setHome k x).graphs = s.graphs := rfl
@[simp] theorem State.setHome_phases (s : State) (k : Nat) (x : Home) : (s.setHome k x).phases = s.phases := rfl
@[simp] theorem State.setHome_jobs (s : State) (k : Nat) (x : Home) : (s.setHome k x).jobs = s.jobs := rfl
@[simp] theorem State.setHome_tcbs (s : State) (k : Nat) (x : Home) : (s.setHome k x).tcbs = s.tcbs := rfl
@[simp] theorem State.setHome_accepted (s : State) (k : Nat) (x : Home) : (s.setHome k x).accepted = s.accepted := rfl
@[simp] theorem State.setHome_front (s : State) (k : Nat) (x : Home) : (s.setHome k x).front = s.front := rfl
@[simp] theorem State.setHome_offers (s : State) (k : Nat) (x : Home) : (s.setHome k x).offers = s.offers := rfl
@[simp] theorem State.setHome_saved (s : State) (k : Nat) (x : Home) : (s.setHome k x).saved = s.saved := rfl
@[simp] theorem State.setHome_turns (s : State) (k : Nat) (x : Home) : (s.setHome k x).turns = s.turns := rfl
@[simp] theorem State.setHome_oreqs (s : State) (k : Nat) (x : Home) : (s.setHome k x).oreqs = s.oreqs := rfl
@[simp] theorem State.setHome_served (s : State) (k : Nat) (x : Home) : (s.setHome k x).served = s.served := rfl
@[simp] theorem State.setHome_dispatched (s : State) (k : Nat) (x : Home) : (s.setHome k x).dispatched = s.dispatched := rfl
@[simp] theorem State.setHome_placements (s : State) (k : Nat) (x : Home) : (s.setHome k x).placements = s.placements := rfl
@[simp] theorem State.setHome_vfs (s : State) (k : Nat) (x : Home) : (s.setHome k x).vfs = s.vfs := rfl
@[simp] theorem State.setHome_hreqs (s : State) (k : Nat) (x : Home) : (s.setHome k x).hreqs = s.hreqs := rfl
@[simp] theorem State.setHome_flights (s : State) (k : Nat) (x : Home) : (s.setHome k x).flights = s.flights := rfl
@[simp] theorem State.setHome_multis (s : State) (k : Nat) (x : Home) : (s.setHome k x).multis = s.multis := rfl
@[simp] theorem State.setHome_rounds (s : State) (k : Nat) (x : Home) : (s.setHome k x).rounds = s.rounds := rfl
@[simp] theorem State.setHome_groups (s : State) (k : Nat) (x : Home) : (s.setHome k x).groups = s.groups := rfl
@[simp] theorem State.setHome_routes (s : State) (k : Nat) (x : Home) : (s.setHome k x).routes = s.routes := rfl
@[simp] theorem State.setHome_barriers (s : State) (k : Nat) (x : Home) : (s.setHome k x).barriers = s.barriers := rfl
@[simp] theorem State.setHome_bcasts (s : State) (k : Nat) (x : Home) : (s.setHome k x).bcasts = s.bcasts := rfl
@[simp] theorem State.setHome_lines (s : State) (k : Nat) (x : Home) : (s.setHome k x).lines = s.lines := rfl
@[simp] theorem State.setHome_stitch (s : State) (k : Nat) (x : Home) : (s.setHome k x).stitch = s.stitch := rfl
@[simp] theorem State.setHome_topologies (s : State) (k : Nat) (x : Home) : (s.setHome k x).topologies = s.topologies := rfl
@[simp] theorem State.setHome_reports (s : State) (k : Nat) (x : Home) : (s.setHome k x).reports = s.reports := rfl
@[simp] theorem State.setHome_cres (s : State) (k : Nat) (x : Home) : (s.setHome k x).cres = s.cres := rfl
@[simp] theorem State.setHome_lastRwr (s : State) (k : Nat) (x : Home) : (s.setHome k x).lastRwr = s.lastRwr := rfl
@[simp] theorem State.setHome_arrivals (s : State) (k : Nat) (x : Home) : (s.setHome k x).arrivals = s.arrivals := rfl
@[simp] theorem State.setHome_kcp (s : State) (k : Nat) (x : Home) : (s.setHome k x).kcp = s.kcp := rfl
@[simp] theorem State.setHome_kcpRuns (s : State) (k : Nat) (x : Home) : (s.setHome k x).kcpRuns = s.kcpRuns := rfl
@[simp] theorem State.setHome_replies (s : State) (k : Nat) (x : Home) : (s.setHome k x).replies = s.replies := rfl
@[simp] theorem State.setHome_uet (s : State) (k : Nat) (x : Home) : (s.setHome k x).uet = s.uet := rfl
@[simp] theorem State.setHome_sent (s : State) (k : Nat) (x : Home) : (s.setHome k x).sent = s.sent := rfl
@[simp] theorem State.setHome_remote (s : State) (k : Nat) (x : Home) : (s.setHome k x).remote = s.remote := rfl
@[simp] theorem State.setHome_rma (s : State) (k : Nat) (x : Home) : (s.setHome k x).rma = s.rma := rfl
@[simp] theorem State.setHome_tlbs (s : State) (k : Nat) (x : Home) : (s.setHome k x).tlbs = s.tlbs := rfl
@[simp] theorem State.setHome_uetOut (s : State) (k : Nat) (x : Home) : (s.setHome k x).uetOut = s.uetOut := rfl
@[simp] theorem State.setHome_sc (s : State) (k : Nat) (x : Home) : (s.setHome k x).sc = s.sc := rfl
@[simp] theorem State.setHome_rc (s : State) (k : Nat) (x : Home) : (s.setHome k x).rc = s.rc := rfl
@[simp] theorem State.setHome_cur (s : State) (k : Nat) (x : Home) : (s.setHome k x).cur = s.cur := rfl
@[simp] theorem State.setHome_nearCur (s : State) (k : Nat) (x : Home) : (s.setHome k x).nearCur = s.nearCur := rfl
@[simp] theorem State.setHome_agenda (s : State) (k : Nat) (x : Home) : (s.setHome k x).agenda = s.agenda := rfl
@[simp] theorem State.setHome_fresh (s : State) (k : Nat) (x : Home) : (s.setHome k x).fresh = s.fresh := rfl

/-! ## State.setStack -/

@[simp] theorem State.setStack_mem (s : State) (k : Nat) (x : Stack) : (s.setStack k x).mem = s.mem := rfl
@[simp] theorem State.setStack_cores (s : State) (k : Nat) (x : Stack) : (s.setStack k x).cores = s.cores := rfl
@[simp] theorem State.setStack_mats (s : State) (k : Nat) (x : Stack) : (s.setStack k x).mats = s.mats := rfl
@[simp] theorem State.setStack_matUnits (s : State) (k : Nat) (x : Stack) : (s.setStack k x).matUnits = s.matUnits := rfl
@[simp] theorem State.setStack_domes (s : State) (k : Nat) (x : Stack) : (s.setStack k x).domes = s.domes := rfl
@[simp] theorem State.setStack_homes (s : State) (k : Nat) (x : Stack) : (s.setStack k x).homes = s.homes := rfl
@[simp] theorem State.setStack_launches (s : State) (k : Nat) (x : Stack) : (s.setStack k x).launches = s.launches := rfl
@[simp] theorem State.setStack_graphs (s : State) (k : Nat) (x : Stack) : (s.setStack k x).graphs = s.graphs := rfl
@[simp] theorem State.setStack_phases (s : State) (k : Nat) (x : Stack) : (s.setStack k x).phases = s.phases := rfl
@[simp] theorem State.setStack_jobs (s : State) (k : Nat) (x : Stack) : (s.setStack k x).jobs = s.jobs := rfl
@[simp] theorem State.setStack_tcbs (s : State) (k : Nat) (x : Stack) : (s.setStack k x).tcbs = s.tcbs := rfl
@[simp] theorem State.setStack_accepted (s : State) (k : Nat) (x : Stack) : (s.setStack k x).accepted = s.accepted := rfl
@[simp] theorem State.setStack_front (s : State) (k : Nat) (x : Stack) : (s.setStack k x).front = s.front := rfl
@[simp] theorem State.setStack_offers (s : State) (k : Nat) (x : Stack) : (s.setStack k x).offers = s.offers := rfl
@[simp] theorem State.setStack_saved (s : State) (k : Nat) (x : Stack) : (s.setStack k x).saved = s.saved := rfl
@[simp] theorem State.setStack_turns (s : State) (k : Nat) (x : Stack) : (s.setStack k x).turns = s.turns := rfl
@[simp] theorem State.setStack_oreqs (s : State) (k : Nat) (x : Stack) : (s.setStack k x).oreqs = s.oreqs := rfl
@[simp] theorem State.setStack_served (s : State) (k : Nat) (x : Stack) : (s.setStack k x).served = s.served := rfl
@[simp] theorem State.setStack_dispatched (s : State) (k : Nat) (x : Stack) : (s.setStack k x).dispatched = s.dispatched := rfl
@[simp] theorem State.setStack_placements (s : State) (k : Nat) (x : Stack) : (s.setStack k x).placements = s.placements := rfl
@[simp] theorem State.setStack_vfs (s : State) (k : Nat) (x : Stack) : (s.setStack k x).vfs = s.vfs := rfl
@[simp] theorem State.setStack_hreqs (s : State) (k : Nat) (x : Stack) : (s.setStack k x).hreqs = s.hreqs := rfl
@[simp] theorem State.setStack_flights (s : State) (k : Nat) (x : Stack) : (s.setStack k x).flights = s.flights := rfl
@[simp] theorem State.setStack_multis (s : State) (k : Nat) (x : Stack) : (s.setStack k x).multis = s.multis := rfl
@[simp] theorem State.setStack_rounds (s : State) (k : Nat) (x : Stack) : (s.setStack k x).rounds = s.rounds := rfl
@[simp] theorem State.setStack_groups (s : State) (k : Nat) (x : Stack) : (s.setStack k x).groups = s.groups := rfl
@[simp] theorem State.setStack_routes (s : State) (k : Nat) (x : Stack) : (s.setStack k x).routes = s.routes := rfl
@[simp] theorem State.setStack_barriers (s : State) (k : Nat) (x : Stack) : (s.setStack k x).barriers = s.barriers := rfl
@[simp] theorem State.setStack_bcasts (s : State) (k : Nat) (x : Stack) : (s.setStack k x).bcasts = s.bcasts := rfl
@[simp] theorem State.setStack_lines (s : State) (k : Nat) (x : Stack) : (s.setStack k x).lines = s.lines := rfl
@[simp] theorem State.setStack_stitch (s : State) (k : Nat) (x : Stack) : (s.setStack k x).stitch = s.stitch := rfl
@[simp] theorem State.setStack_topologies (s : State) (k : Nat) (x : Stack) : (s.setStack k x).topologies = s.topologies := rfl
@[simp] theorem State.setStack_reports (s : State) (k : Nat) (x : Stack) : (s.setStack k x).reports = s.reports := rfl
@[simp] theorem State.setStack_cres (s : State) (k : Nat) (x : Stack) : (s.setStack k x).cres = s.cres := rfl
@[simp] theorem State.setStack_lastRwr (s : State) (k : Nat) (x : Stack) : (s.setStack k x).lastRwr = s.lastRwr := rfl
@[simp] theorem State.setStack_arrivals (s : State) (k : Nat) (x : Stack) : (s.setStack k x).arrivals = s.arrivals := rfl
@[simp] theorem State.setStack_kcp (s : State) (k : Nat) (x : Stack) : (s.setStack k x).kcp = s.kcp := rfl
@[simp] theorem State.setStack_kcpRuns (s : State) (k : Nat) (x : Stack) : (s.setStack k x).kcpRuns = s.kcpRuns := rfl
@[simp] theorem State.setStack_replies (s : State) (k : Nat) (x : Stack) : (s.setStack k x).replies = s.replies := rfl
@[simp] theorem State.setStack_uet (s : State) (k : Nat) (x : Stack) : (s.setStack k x).uet = s.uet := rfl
@[simp] theorem State.setStack_sent (s : State) (k : Nat) (x : Stack) : (s.setStack k x).sent = s.sent := rfl
@[simp] theorem State.setStack_remote (s : State) (k : Nat) (x : Stack) : (s.setStack k x).remote = s.remote := rfl
@[simp] theorem State.setStack_rma (s : State) (k : Nat) (x : Stack) : (s.setStack k x).rma = s.rma := rfl
@[simp] theorem State.setStack_tlbs (s : State) (k : Nat) (x : Stack) : (s.setStack k x).tlbs = s.tlbs := rfl
@[simp] theorem State.setStack_uetOut (s : State) (k : Nat) (x : Stack) : (s.setStack k x).uetOut = s.uetOut := rfl
@[simp] theorem State.setStack_sc (s : State) (k : Nat) (x : Stack) : (s.setStack k x).sc = s.sc := rfl
@[simp] theorem State.setStack_rc (s : State) (k : Nat) (x : Stack) : (s.setStack k x).rc = s.rc := rfl
@[simp] theorem State.setStack_cur (s : State) (k : Nat) (x : Stack) : (s.setStack k x).cur = s.cur := rfl
@[simp] theorem State.setStack_nearCur (s : State) (k : Nat) (x : Stack) : (s.setStack k x).nearCur = s.nearCur := rfl
@[simp] theorem State.setStack_agenda (s : State) (k : Nat) (x : Stack) : (s.setStack k x).agenda = s.agenda := rfl
@[simp] theorem State.setStack_fresh (s : State) (k : Nat) (x : Stack) : (s.setStack k x).fresh = s.fresh := rfl

/-! ## State.setVf -/

@[simp] theorem State.setVf_mem (s : State) (k : Nat) (x : Vf) : (s.setVf k x).mem = s.mem := rfl
@[simp] theorem State.setVf_cores (s : State) (k : Nat) (x : Vf) : (s.setVf k x).cores = s.cores := rfl
@[simp] theorem State.setVf_mats (s : State) (k : Nat) (x : Vf) : (s.setVf k x).mats = s.mats := rfl
@[simp] theorem State.setVf_matUnits (s : State) (k : Nat) (x : Vf) : (s.setVf k x).matUnits = s.matUnits := rfl
@[simp] theorem State.setVf_domes (s : State) (k : Nat) (x : Vf) : (s.setVf k x).domes = s.domes := rfl
@[simp] theorem State.setVf_homes (s : State) (k : Nat) (x : Vf) : (s.setVf k x).homes = s.homes := rfl
@[simp] theorem State.setVf_stackTable (s : State) (k : Nat) (x : Vf) : (s.setVf k x).stackTable = s.stackTable := rfl
@[simp] theorem State.setVf_launches (s : State) (k : Nat) (x : Vf) : (s.setVf k x).launches = s.launches := rfl
@[simp] theorem State.setVf_graphs (s : State) (k : Nat) (x : Vf) : (s.setVf k x).graphs = s.graphs := rfl
@[simp] theorem State.setVf_phases (s : State) (k : Nat) (x : Vf) : (s.setVf k x).phases = s.phases := rfl
@[simp] theorem State.setVf_jobs (s : State) (k : Nat) (x : Vf) : (s.setVf k x).jobs = s.jobs := rfl
@[simp] theorem State.setVf_tcbs (s : State) (k : Nat) (x : Vf) : (s.setVf k x).tcbs = s.tcbs := rfl
@[simp] theorem State.setVf_accepted (s : State) (k : Nat) (x : Vf) : (s.setVf k x).accepted = s.accepted := rfl
@[simp] theorem State.setVf_front (s : State) (k : Nat) (x : Vf) : (s.setVf k x).front = s.front := rfl
@[simp] theorem State.setVf_offers (s : State) (k : Nat) (x : Vf) : (s.setVf k x).offers = s.offers := rfl
@[simp] theorem State.setVf_saved (s : State) (k : Nat) (x : Vf) : (s.setVf k x).saved = s.saved := rfl
@[simp] theorem State.setVf_turns (s : State) (k : Nat) (x : Vf) : (s.setVf k x).turns = s.turns := rfl
@[simp] theorem State.setVf_oreqs (s : State) (k : Nat) (x : Vf) : (s.setVf k x).oreqs = s.oreqs := rfl
@[simp] theorem State.setVf_served (s : State) (k : Nat) (x : Vf) : (s.setVf k x).served = s.served := rfl
@[simp] theorem State.setVf_dispatched (s : State) (k : Nat) (x : Vf) : (s.setVf k x).dispatched = s.dispatched := rfl
@[simp] theorem State.setVf_placements (s : State) (k : Nat) (x : Vf) : (s.setVf k x).placements = s.placements := rfl
@[simp] theorem State.setVf_hreqs (s : State) (k : Nat) (x : Vf) : (s.setVf k x).hreqs = s.hreqs := rfl
@[simp] theorem State.setVf_flights (s : State) (k : Nat) (x : Vf) : (s.setVf k x).flights = s.flights := rfl
@[simp] theorem State.setVf_multis (s : State) (k : Nat) (x : Vf) : (s.setVf k x).multis = s.multis := rfl
@[simp] theorem State.setVf_rounds (s : State) (k : Nat) (x : Vf) : (s.setVf k x).rounds = s.rounds := rfl
@[simp] theorem State.setVf_groups (s : State) (k : Nat) (x : Vf) : (s.setVf k x).groups = s.groups := rfl
@[simp] theorem State.setVf_routes (s : State) (k : Nat) (x : Vf) : (s.setVf k x).routes = s.routes := rfl
@[simp] theorem State.setVf_barriers (s : State) (k : Nat) (x : Vf) : (s.setVf k x).barriers = s.barriers := rfl
@[simp] theorem State.setVf_bcasts (s : State) (k : Nat) (x : Vf) : (s.setVf k x).bcasts = s.bcasts := rfl
@[simp] theorem State.setVf_lines (s : State) (k : Nat) (x : Vf) : (s.setVf k x).lines = s.lines := rfl
@[simp] theorem State.setVf_stitch (s : State) (k : Nat) (x : Vf) : (s.setVf k x).stitch = s.stitch := rfl
@[simp] theorem State.setVf_topologies (s : State) (k : Nat) (x : Vf) : (s.setVf k x).topologies = s.topologies := rfl
@[simp] theorem State.setVf_reports (s : State) (k : Nat) (x : Vf) : (s.setVf k x).reports = s.reports := rfl
@[simp] theorem State.setVf_cres (s : State) (k : Nat) (x : Vf) : (s.setVf k x).cres = s.cres := rfl
@[simp] theorem State.setVf_lastRwr (s : State) (k : Nat) (x : Vf) : (s.setVf k x).lastRwr = s.lastRwr := rfl
@[simp] theorem State.setVf_arrivals (s : State) (k : Nat) (x : Vf) : (s.setVf k x).arrivals = s.arrivals := rfl
@[simp] theorem State.setVf_kcp (s : State) (k : Nat) (x : Vf) : (s.setVf k x).kcp = s.kcp := rfl
@[simp] theorem State.setVf_kcpRuns (s : State) (k : Nat) (x : Vf) : (s.setVf k x).kcpRuns = s.kcpRuns := rfl
@[simp] theorem State.setVf_replies (s : State) (k : Nat) (x : Vf) : (s.setVf k x).replies = s.replies := rfl
@[simp] theorem State.setVf_uet (s : State) (k : Nat) (x : Vf) : (s.setVf k x).uet = s.uet := rfl
@[simp] theorem State.setVf_sent (s : State) (k : Nat) (x : Vf) : (s.setVf k x).sent = s.sent := rfl
@[simp] theorem State.setVf_remote (s : State) (k : Nat) (x : Vf) : (s.setVf k x).remote = s.remote := rfl
@[simp] theorem State.setVf_rma (s : State) (k : Nat) (x : Vf) : (s.setVf k x).rma = s.rma := rfl
@[simp] theorem State.setVf_tlbs (s : State) (k : Nat) (x : Vf) : (s.setVf k x).tlbs = s.tlbs := rfl
@[simp] theorem State.setVf_uetOut (s : State) (k : Nat) (x : Vf) : (s.setVf k x).uetOut = s.uetOut := rfl
@[simp] theorem State.setVf_sc (s : State) (k : Nat) (x : Vf) : (s.setVf k x).sc = s.sc := rfl
@[simp] theorem State.setVf_rc (s : State) (k : Nat) (x : Vf) : (s.setVf k x).rc = s.rc := rfl
@[simp] theorem State.setVf_cur (s : State) (k : Nat) (x : Vf) : (s.setVf k x).cur = s.cur := rfl
@[simp] theorem State.setVf_nearCur (s : State) (k : Nat) (x : Vf) : (s.setVf k x).nearCur = s.nearCur := rfl
@[simp] theorem State.setVf_agenda (s : State) (k : Nat) (x : Vf) : (s.setVf k x).agenda = s.agenda := rfl
@[simp] theorem State.setVf_fresh (s : State) (k : Nat) (x : Vf) : (s.setVf k x).fresh = s.fresh := rfl

/-! ## State.setTcb -/

@[simp] theorem State.setTcb_mem (s : State) (k : Nat) (x : Tcb) : (s.setTcb k x).mem = s.mem := rfl
@[simp] theorem State.setTcb_cores (s : State) (k : Nat) (x : Tcb) : (s.setTcb k x).cores = s.cores := rfl
@[simp] theorem State.setTcb_mats (s : State) (k : Nat) (x : Tcb) : (s.setTcb k x).mats = s.mats := rfl
@[simp] theorem State.setTcb_matUnits (s : State) (k : Nat) (x : Tcb) : (s.setTcb k x).matUnits = s.matUnits := rfl
@[simp] theorem State.setTcb_domes (s : State) (k : Nat) (x : Tcb) : (s.setTcb k x).domes = s.domes := rfl
@[simp] theorem State.setTcb_homes (s : State) (k : Nat) (x : Tcb) : (s.setTcb k x).homes = s.homes := rfl
@[simp] theorem State.setTcb_stackTable (s : State) (k : Nat) (x : Tcb) : (s.setTcb k x).stackTable = s.stackTable := rfl
@[simp] theorem State.setTcb_launches (s : State) (k : Nat) (x : Tcb) : (s.setTcb k x).launches = s.launches := rfl
@[simp] theorem State.setTcb_graphs (s : State) (k : Nat) (x : Tcb) : (s.setTcb k x).graphs = s.graphs := rfl
@[simp] theorem State.setTcb_phases (s : State) (k : Nat) (x : Tcb) : (s.setTcb k x).phases = s.phases := rfl
@[simp] theorem State.setTcb_jobs (s : State) (k : Nat) (x : Tcb) : (s.setTcb k x).jobs = s.jobs := rfl
@[simp] theorem State.setTcb_accepted (s : State) (k : Nat) (x : Tcb) : (s.setTcb k x).accepted = s.accepted := rfl
@[simp] theorem State.setTcb_front (s : State) (k : Nat) (x : Tcb) : (s.setTcb k x).front = s.front := rfl
@[simp] theorem State.setTcb_offers (s : State) (k : Nat) (x : Tcb) : (s.setTcb k x).offers = s.offers := rfl
@[simp] theorem State.setTcb_saved (s : State) (k : Nat) (x : Tcb) : (s.setTcb k x).saved = s.saved := rfl
@[simp] theorem State.setTcb_turns (s : State) (k : Nat) (x : Tcb) : (s.setTcb k x).turns = s.turns := rfl
@[simp] theorem State.setTcb_oreqs (s : State) (k : Nat) (x : Tcb) : (s.setTcb k x).oreqs = s.oreqs := rfl
@[simp] theorem State.setTcb_served (s : State) (k : Nat) (x : Tcb) : (s.setTcb k x).served = s.served := rfl
@[simp] theorem State.setTcb_dispatched (s : State) (k : Nat) (x : Tcb) : (s.setTcb k x).dispatched = s.dispatched := rfl
@[simp] theorem State.setTcb_placements (s : State) (k : Nat) (x : Tcb) : (s.setTcb k x).placements = s.placements := rfl
@[simp] theorem State.setTcb_vfs (s : State) (k : Nat) (x : Tcb) : (s.setTcb k x).vfs = s.vfs := rfl
@[simp] theorem State.setTcb_hreqs (s : State) (k : Nat) (x : Tcb) : (s.setTcb k x).hreqs = s.hreqs := rfl
@[simp] theorem State.setTcb_flights (s : State) (k : Nat) (x : Tcb) : (s.setTcb k x).flights = s.flights := rfl
@[simp] theorem State.setTcb_multis (s : State) (k : Nat) (x : Tcb) : (s.setTcb k x).multis = s.multis := rfl
@[simp] theorem State.setTcb_rounds (s : State) (k : Nat) (x : Tcb) : (s.setTcb k x).rounds = s.rounds := rfl
@[simp] theorem State.setTcb_groups (s : State) (k : Nat) (x : Tcb) : (s.setTcb k x).groups = s.groups := rfl
@[simp] theorem State.setTcb_routes (s : State) (k : Nat) (x : Tcb) : (s.setTcb k x).routes = s.routes := rfl
@[simp] theorem State.setTcb_barriers (s : State) (k : Nat) (x : Tcb) : (s.setTcb k x).barriers = s.barriers := rfl
@[simp] theorem State.setTcb_bcasts (s : State) (k : Nat) (x : Tcb) : (s.setTcb k x).bcasts = s.bcasts := rfl
@[simp] theorem State.setTcb_lines (s : State) (k : Nat) (x : Tcb) : (s.setTcb k x).lines = s.lines := rfl
@[simp] theorem State.setTcb_stitch (s : State) (k : Nat) (x : Tcb) : (s.setTcb k x).stitch = s.stitch := rfl
@[simp] theorem State.setTcb_topologies (s : State) (k : Nat) (x : Tcb) : (s.setTcb k x).topologies = s.topologies := rfl
@[simp] theorem State.setTcb_reports (s : State) (k : Nat) (x : Tcb) : (s.setTcb k x).reports = s.reports := rfl
@[simp] theorem State.setTcb_cres (s : State) (k : Nat) (x : Tcb) : (s.setTcb k x).cres = s.cres := rfl
@[simp] theorem State.setTcb_lastRwr (s : State) (k : Nat) (x : Tcb) : (s.setTcb k x).lastRwr = s.lastRwr := rfl
@[simp] theorem State.setTcb_arrivals (s : State) (k : Nat) (x : Tcb) : (s.setTcb k x).arrivals = s.arrivals := rfl
@[simp] theorem State.setTcb_kcp (s : State) (k : Nat) (x : Tcb) : (s.setTcb k x).kcp = s.kcp := rfl
@[simp] theorem State.setTcb_kcpRuns (s : State) (k : Nat) (x : Tcb) : (s.setTcb k x).kcpRuns = s.kcpRuns := rfl
@[simp] theorem State.setTcb_replies (s : State) (k : Nat) (x : Tcb) : (s.setTcb k x).replies = s.replies := rfl
@[simp] theorem State.setTcb_uet (s : State) (k : Nat) (x : Tcb) : (s.setTcb k x).uet = s.uet := rfl
@[simp] theorem State.setTcb_sent (s : State) (k : Nat) (x : Tcb) : (s.setTcb k x).sent = s.sent := rfl
@[simp] theorem State.setTcb_remote (s : State) (k : Nat) (x : Tcb) : (s.setTcb k x).remote = s.remote := rfl
@[simp] theorem State.setTcb_rma (s : State) (k : Nat) (x : Tcb) : (s.setTcb k x).rma = s.rma := rfl
@[simp] theorem State.setTcb_tlbs (s : State) (k : Nat) (x : Tcb) : (s.setTcb k x).tlbs = s.tlbs := rfl
@[simp] theorem State.setTcb_uetOut (s : State) (k : Nat) (x : Tcb) : (s.setTcb k x).uetOut = s.uetOut := rfl
@[simp] theorem State.setTcb_sc (s : State) (k : Nat) (x : Tcb) : (s.setTcb k x).sc = s.sc := rfl
@[simp] theorem State.setTcb_rc (s : State) (k : Nat) (x : Tcb) : (s.setTcb k x).rc = s.rc := rfl
@[simp] theorem State.setTcb_cur (s : State) (k : Nat) (x : Tcb) : (s.setTcb k x).cur = s.cur := rfl
@[simp] theorem State.setTcb_nearCur (s : State) (k : Nat) (x : Tcb) : (s.setTcb k x).nearCur = s.nearCur := rfl
@[simp] theorem State.setTcb_agenda (s : State) (k : Nat) (x : Tcb) : (s.setTcb k x).agenda = s.agenda := rfl
@[simp] theorem State.setTcb_fresh (s : State) (k : Nat) (x : Tcb) : (s.setTcb k x).fresh = s.fresh := rfl

/-! ## State.setLaunch -/

@[simp] theorem State.setLaunch_mem (s : State) (k : Nat) (x : Launch) : (s.setLaunch k x).mem = s.mem := rfl
@[simp] theorem State.setLaunch_cores (s : State) (k : Nat) (x : Launch) : (s.setLaunch k x).cores = s.cores := rfl
@[simp] theorem State.setLaunch_mats (s : State) (k : Nat) (x : Launch) : (s.setLaunch k x).mats = s.mats := rfl
@[simp] theorem State.setLaunch_matUnits (s : State) (k : Nat) (x : Launch) : (s.setLaunch k x).matUnits = s.matUnits := rfl
@[simp] theorem State.setLaunch_domes (s : State) (k : Nat) (x : Launch) : (s.setLaunch k x).domes = s.domes := rfl
@[simp] theorem State.setLaunch_homes (s : State) (k : Nat) (x : Launch) : (s.setLaunch k x).homes = s.homes := rfl
@[simp] theorem State.setLaunch_stackTable (s : State) (k : Nat) (x : Launch) : (s.setLaunch k x).stackTable = s.stackTable := rfl
@[simp] theorem State.setLaunch_graphs (s : State) (k : Nat) (x : Launch) : (s.setLaunch k x).graphs = s.graphs := rfl
@[simp] theorem State.setLaunch_phases (s : State) (k : Nat) (x : Launch) : (s.setLaunch k x).phases = s.phases := rfl
@[simp] theorem State.setLaunch_jobs (s : State) (k : Nat) (x : Launch) : (s.setLaunch k x).jobs = s.jobs := rfl
@[simp] theorem State.setLaunch_tcbs (s : State) (k : Nat) (x : Launch) : (s.setLaunch k x).tcbs = s.tcbs := rfl
@[simp] theorem State.setLaunch_accepted (s : State) (k : Nat) (x : Launch) : (s.setLaunch k x).accepted = s.accepted := rfl
@[simp] theorem State.setLaunch_front (s : State) (k : Nat) (x : Launch) : (s.setLaunch k x).front = s.front := rfl
@[simp] theorem State.setLaunch_offers (s : State) (k : Nat) (x : Launch) : (s.setLaunch k x).offers = s.offers := rfl
@[simp] theorem State.setLaunch_saved (s : State) (k : Nat) (x : Launch) : (s.setLaunch k x).saved = s.saved := rfl
@[simp] theorem State.setLaunch_turns (s : State) (k : Nat) (x : Launch) : (s.setLaunch k x).turns = s.turns := rfl
@[simp] theorem State.setLaunch_oreqs (s : State) (k : Nat) (x : Launch) : (s.setLaunch k x).oreqs = s.oreqs := rfl
@[simp] theorem State.setLaunch_served (s : State) (k : Nat) (x : Launch) : (s.setLaunch k x).served = s.served := rfl
@[simp] theorem State.setLaunch_dispatched (s : State) (k : Nat) (x : Launch) : (s.setLaunch k x).dispatched = s.dispatched := rfl
@[simp] theorem State.setLaunch_placements (s : State) (k : Nat) (x : Launch) : (s.setLaunch k x).placements = s.placements := rfl
@[simp] theorem State.setLaunch_vfs (s : State) (k : Nat) (x : Launch) : (s.setLaunch k x).vfs = s.vfs := rfl
@[simp] theorem State.setLaunch_hreqs (s : State) (k : Nat) (x : Launch) : (s.setLaunch k x).hreqs = s.hreqs := rfl
@[simp] theorem State.setLaunch_flights (s : State) (k : Nat) (x : Launch) : (s.setLaunch k x).flights = s.flights := rfl
@[simp] theorem State.setLaunch_multis (s : State) (k : Nat) (x : Launch) : (s.setLaunch k x).multis = s.multis := rfl
@[simp] theorem State.setLaunch_rounds (s : State) (k : Nat) (x : Launch) : (s.setLaunch k x).rounds = s.rounds := rfl
@[simp] theorem State.setLaunch_groups (s : State) (k : Nat) (x : Launch) : (s.setLaunch k x).groups = s.groups := rfl
@[simp] theorem State.setLaunch_routes (s : State) (k : Nat) (x : Launch) : (s.setLaunch k x).routes = s.routes := rfl
@[simp] theorem State.setLaunch_barriers (s : State) (k : Nat) (x : Launch) : (s.setLaunch k x).barriers = s.barriers := rfl
@[simp] theorem State.setLaunch_bcasts (s : State) (k : Nat) (x : Launch) : (s.setLaunch k x).bcasts = s.bcasts := rfl
@[simp] theorem State.setLaunch_lines (s : State) (k : Nat) (x : Launch) : (s.setLaunch k x).lines = s.lines := rfl
@[simp] theorem State.setLaunch_stitch (s : State) (k : Nat) (x : Launch) : (s.setLaunch k x).stitch = s.stitch := rfl
@[simp] theorem State.setLaunch_topologies (s : State) (k : Nat) (x : Launch) : (s.setLaunch k x).topologies = s.topologies := rfl
@[simp] theorem State.setLaunch_reports (s : State) (k : Nat) (x : Launch) : (s.setLaunch k x).reports = s.reports := rfl
@[simp] theorem State.setLaunch_cres (s : State) (k : Nat) (x : Launch) : (s.setLaunch k x).cres = s.cres := rfl
@[simp] theorem State.setLaunch_lastRwr (s : State) (k : Nat) (x : Launch) : (s.setLaunch k x).lastRwr = s.lastRwr := rfl
@[simp] theorem State.setLaunch_arrivals (s : State) (k : Nat) (x : Launch) : (s.setLaunch k x).arrivals = s.arrivals := rfl
@[simp] theorem State.setLaunch_kcp (s : State) (k : Nat) (x : Launch) : (s.setLaunch k x).kcp = s.kcp := rfl
@[simp] theorem State.setLaunch_kcpRuns (s : State) (k : Nat) (x : Launch) : (s.setLaunch k x).kcpRuns = s.kcpRuns := rfl
@[simp] theorem State.setLaunch_replies (s : State) (k : Nat) (x : Launch) : (s.setLaunch k x).replies = s.replies := rfl
@[simp] theorem State.setLaunch_uet (s : State) (k : Nat) (x : Launch) : (s.setLaunch k x).uet = s.uet := rfl
@[simp] theorem State.setLaunch_sent (s : State) (k : Nat) (x : Launch) : (s.setLaunch k x).sent = s.sent := rfl
@[simp] theorem State.setLaunch_remote (s : State) (k : Nat) (x : Launch) : (s.setLaunch k x).remote = s.remote := rfl
@[simp] theorem State.setLaunch_rma (s : State) (k : Nat) (x : Launch) : (s.setLaunch k x).rma = s.rma := rfl
@[simp] theorem State.setLaunch_tlbs (s : State) (k : Nat) (x : Launch) : (s.setLaunch k x).tlbs = s.tlbs := rfl
@[simp] theorem State.setLaunch_uetOut (s : State) (k : Nat) (x : Launch) : (s.setLaunch k x).uetOut = s.uetOut := rfl
@[simp] theorem State.setLaunch_sc (s : State) (k : Nat) (x : Launch) : (s.setLaunch k x).sc = s.sc := rfl
@[simp] theorem State.setLaunch_rc (s : State) (k : Nat) (x : Launch) : (s.setLaunch k x).rc = s.rc := rfl
@[simp] theorem State.setLaunch_cur (s : State) (k : Nat) (x : Launch) : (s.setLaunch k x).cur = s.cur := rfl
@[simp] theorem State.setLaunch_nearCur (s : State) (k : Nat) (x : Launch) : (s.setLaunch k x).nearCur = s.nearCur := rfl
@[simp] theorem State.setLaunch_agenda (s : State) (k : Nat) (x : Launch) : (s.setLaunch k x).agenda = s.agenda := rfl
@[simp] theorem State.setLaunch_fresh (s : State) (k : Nat) (x : Launch) : (s.setLaunch k x).fresh = s.fresh := rfl

/-! ## State.setMem -/

@[simp] theorem State.setMem_cores (s : State) (x : Memory) : (s.setMem x).cores = s.cores := rfl
@[simp] theorem State.setMem_mats (s : State) (x : Memory) : (s.setMem x).mats = s.mats := rfl
@[simp] theorem State.setMem_matUnits (s : State) (x : Memory) : (s.setMem x).matUnits = s.matUnits := rfl
@[simp] theorem State.setMem_domes (s : State) (x : Memory) : (s.setMem x).domes = s.domes := rfl
@[simp] theorem State.setMem_homes (s : State) (x : Memory) : (s.setMem x).homes = s.homes := rfl
@[simp] theorem State.setMem_stackTable (s : State) (x : Memory) : (s.setMem x).stackTable = s.stackTable := rfl
@[simp] theorem State.setMem_launches (s : State) (x : Memory) : (s.setMem x).launches = s.launches := rfl
@[simp] theorem State.setMem_graphs (s : State) (x : Memory) : (s.setMem x).graphs = s.graphs := rfl
@[simp] theorem State.setMem_phases (s : State) (x : Memory) : (s.setMem x).phases = s.phases := rfl
@[simp] theorem State.setMem_jobs (s : State) (x : Memory) : (s.setMem x).jobs = s.jobs := rfl
@[simp] theorem State.setMem_tcbs (s : State) (x : Memory) : (s.setMem x).tcbs = s.tcbs := rfl
@[simp] theorem State.setMem_accepted (s : State) (x : Memory) : (s.setMem x).accepted = s.accepted := rfl
@[simp] theorem State.setMem_front (s : State) (x : Memory) : (s.setMem x).front = s.front := rfl
@[simp] theorem State.setMem_offers (s : State) (x : Memory) : (s.setMem x).offers = s.offers := rfl
@[simp] theorem State.setMem_saved (s : State) (x : Memory) : (s.setMem x).saved = s.saved := rfl
@[simp] theorem State.setMem_turns (s : State) (x : Memory) : (s.setMem x).turns = s.turns := rfl
@[simp] theorem State.setMem_oreqs (s : State) (x : Memory) : (s.setMem x).oreqs = s.oreqs := rfl
@[simp] theorem State.setMem_served (s : State) (x : Memory) : (s.setMem x).served = s.served := rfl
@[simp] theorem State.setMem_dispatched (s : State) (x : Memory) : (s.setMem x).dispatched = s.dispatched := rfl
@[simp] theorem State.setMem_placements (s : State) (x : Memory) : (s.setMem x).placements = s.placements := rfl
@[simp] theorem State.setMem_vfs (s : State) (x : Memory) : (s.setMem x).vfs = s.vfs := rfl
@[simp] theorem State.setMem_hreqs (s : State) (x : Memory) : (s.setMem x).hreqs = s.hreqs := rfl
@[simp] theorem State.setMem_flights (s : State) (x : Memory) : (s.setMem x).flights = s.flights := rfl
@[simp] theorem State.setMem_multis (s : State) (x : Memory) : (s.setMem x).multis = s.multis := rfl
@[simp] theorem State.setMem_rounds (s : State) (x : Memory) : (s.setMem x).rounds = s.rounds := rfl
@[simp] theorem State.setMem_groups (s : State) (x : Memory) : (s.setMem x).groups = s.groups := rfl
@[simp] theorem State.setMem_routes (s : State) (x : Memory) : (s.setMem x).routes = s.routes := rfl
@[simp] theorem State.setMem_barriers (s : State) (x : Memory) : (s.setMem x).barriers = s.barriers := rfl
@[simp] theorem State.setMem_bcasts (s : State) (x : Memory) : (s.setMem x).bcasts = s.bcasts := rfl
@[simp] theorem State.setMem_lines (s : State) (x : Memory) : (s.setMem x).lines = s.lines := rfl
@[simp] theorem State.setMem_stitch (s : State) (x : Memory) : (s.setMem x).stitch = s.stitch := rfl
@[simp] theorem State.setMem_topologies (s : State) (x : Memory) : (s.setMem x).topologies = s.topologies := rfl
@[simp] theorem State.setMem_reports (s : State) (x : Memory) : (s.setMem x).reports = s.reports := rfl
@[simp] theorem State.setMem_cres (s : State) (x : Memory) : (s.setMem x).cres = s.cres := rfl
@[simp] theorem State.setMem_lastRwr (s : State) (x : Memory) : (s.setMem x).lastRwr = s.lastRwr := rfl
@[simp] theorem State.setMem_arrivals (s : State) (x : Memory) : (s.setMem x).arrivals = s.arrivals := rfl
@[simp] theorem State.setMem_kcp (s : State) (x : Memory) : (s.setMem x).kcp = s.kcp := rfl
@[simp] theorem State.setMem_kcpRuns (s : State) (x : Memory) : (s.setMem x).kcpRuns = s.kcpRuns := rfl
@[simp] theorem State.setMem_replies (s : State) (x : Memory) : (s.setMem x).replies = s.replies := rfl
@[simp] theorem State.setMem_uet (s : State) (x : Memory) : (s.setMem x).uet = s.uet := rfl
@[simp] theorem State.setMem_sent (s : State) (x : Memory) : (s.setMem x).sent = s.sent := rfl
@[simp] theorem State.setMem_remote (s : State) (x : Memory) : (s.setMem x).remote = s.remote := rfl
@[simp] theorem State.setMem_rma (s : State) (x : Memory) : (s.setMem x).rma = s.rma := rfl
@[simp] theorem State.setMem_tlbs (s : State) (x : Memory) : (s.setMem x).tlbs = s.tlbs := rfl
@[simp] theorem State.setMem_uetOut (s : State) (x : Memory) : (s.setMem x).uetOut = s.uetOut := rfl
@[simp] theorem State.setMem_sc (s : State) (x : Memory) : (s.setMem x).sc = s.sc := rfl
@[simp] theorem State.setMem_rc (s : State) (x : Memory) : (s.setMem x).rc = s.rc := rfl
@[simp] theorem State.setMem_cur (s : State) (x : Memory) : (s.setMem x).cur = s.cur := rfl
@[simp] theorem State.setMem_nearCur (s : State) (x : Memory) : (s.setMem x).nearCur = s.nearCur := rfl
@[simp] theorem State.setMem_agenda (s : State) (x : Memory) : (s.setMem x).agenda = s.agenda := rfl
@[simp] theorem State.setMem_fresh (s : State) (x : Memory) : (s.setMem x).fresh = s.fresh := rfl

/-! ## State.post -/

@[simp] theorem State.post_mem (s : State) (x : Packet) : (s.post x).mem = s.mem := rfl
@[simp] theorem State.post_cores (s : State) (x : Packet) : (s.post x).cores = s.cores := rfl
@[simp] theorem State.post_mats (s : State) (x : Packet) : (s.post x).mats = s.mats := rfl
@[simp] theorem State.post_matUnits (s : State) (x : Packet) : (s.post x).matUnits = s.matUnits := rfl
@[simp] theorem State.post_domes (s : State) (x : Packet) : (s.post x).domes = s.domes := rfl
@[simp] theorem State.post_homes (s : State) (x : Packet) : (s.post x).homes = s.homes := rfl
@[simp] theorem State.post_stackTable (s : State) (x : Packet) : (s.post x).stackTable = s.stackTable := rfl
@[simp] theorem State.post_launches (s : State) (x : Packet) : (s.post x).launches = s.launches := rfl
@[simp] theorem State.post_graphs (s : State) (x : Packet) : (s.post x).graphs = s.graphs := rfl
@[simp] theorem State.post_phases (s : State) (x : Packet) : (s.post x).phases = s.phases := rfl
@[simp] theorem State.post_jobs (s : State) (x : Packet) : (s.post x).jobs = s.jobs := rfl
@[simp] theorem State.post_tcbs (s : State) (x : Packet) : (s.post x).tcbs = s.tcbs := rfl
@[simp] theorem State.post_accepted (s : State) (x : Packet) : (s.post x).accepted = s.accepted := rfl
@[simp] theorem State.post_front (s : State) (x : Packet) : (s.post x).front = s.front := rfl
@[simp] theorem State.post_offers (s : State) (x : Packet) : (s.post x).offers = s.offers := rfl
@[simp] theorem State.post_saved (s : State) (x : Packet) : (s.post x).saved = s.saved := rfl
@[simp] theorem State.post_turns (s : State) (x : Packet) : (s.post x).turns = s.turns := rfl
@[simp] theorem State.post_oreqs (s : State) (x : Packet) : (s.post x).oreqs = s.oreqs := rfl
@[simp] theorem State.post_served (s : State) (x : Packet) : (s.post x).served = s.served := rfl
@[simp] theorem State.post_dispatched (s : State) (x : Packet) : (s.post x).dispatched = s.dispatched := rfl
@[simp] theorem State.post_placements (s : State) (x : Packet) : (s.post x).placements = s.placements := rfl
@[simp] theorem State.post_vfs (s : State) (x : Packet) : (s.post x).vfs = s.vfs := rfl
@[simp] theorem State.post_hreqs (s : State) (x : Packet) : (s.post x).hreqs = s.hreqs := rfl
@[simp] theorem State.post_multis (s : State) (x : Packet) : (s.post x).multis = s.multis := rfl
@[simp] theorem State.post_rounds (s : State) (x : Packet) : (s.post x).rounds = s.rounds := rfl
@[simp] theorem State.post_groups (s : State) (x : Packet) : (s.post x).groups = s.groups := rfl
@[simp] theorem State.post_routes (s : State) (x : Packet) : (s.post x).routes = s.routes := rfl
@[simp] theorem State.post_barriers (s : State) (x : Packet) : (s.post x).barriers = s.barriers := rfl
@[simp] theorem State.post_bcasts (s : State) (x : Packet) : (s.post x).bcasts = s.bcasts := rfl
@[simp] theorem State.post_lines (s : State) (x : Packet) : (s.post x).lines = s.lines := rfl
@[simp] theorem State.post_stitch (s : State) (x : Packet) : (s.post x).stitch = s.stitch := rfl
@[simp] theorem State.post_topologies (s : State) (x : Packet) : (s.post x).topologies = s.topologies := rfl
@[simp] theorem State.post_reports (s : State) (x : Packet) : (s.post x).reports = s.reports := rfl
@[simp] theorem State.post_cres (s : State) (x : Packet) : (s.post x).cres = s.cres := rfl
@[simp] theorem State.post_lastRwr (s : State) (x : Packet) : (s.post x).lastRwr = s.lastRwr := rfl
@[simp] theorem State.post_arrivals (s : State) (x : Packet) : (s.post x).arrivals = s.arrivals := rfl
@[simp] theorem State.post_kcp (s : State) (x : Packet) : (s.post x).kcp = s.kcp := rfl
@[simp] theorem State.post_kcpRuns (s : State) (x : Packet) : (s.post x).kcpRuns = s.kcpRuns := rfl
@[simp] theorem State.post_replies (s : State) (x : Packet) : (s.post x).replies = s.replies := rfl
@[simp] theorem State.post_uet (s : State) (x : Packet) : (s.post x).uet = s.uet := rfl
@[simp] theorem State.post_sent (s : State) (x : Packet) : (s.post x).sent = s.sent := rfl
@[simp] theorem State.post_remote (s : State) (x : Packet) : (s.post x).remote = s.remote := rfl
@[simp] theorem State.post_rma (s : State) (x : Packet) : (s.post x).rma = s.rma := rfl
@[simp] theorem State.post_tlbs (s : State) (x : Packet) : (s.post x).tlbs = s.tlbs := rfl
@[simp] theorem State.post_uetOut (s : State) (x : Packet) : (s.post x).uetOut = s.uetOut := rfl
@[simp] theorem State.post_sc (s : State) (x : Packet) : (s.post x).sc = s.sc := rfl
@[simp] theorem State.post_rc (s : State) (x : Packet) : (s.post x).rc = s.rc := rfl
@[simp] theorem State.post_cur (s : State) (x : Packet) : (s.post x).cur = s.cur := rfl
@[simp] theorem State.post_nearCur (s : State) (x : Packet) : (s.post x).nearCur = s.nearCur := rfl
@[simp] theorem State.post_agenda (s : State) (x : Packet) : (s.post x).agenda = s.agenda := rfl
@[simp] theorem State.post_fresh (s : State) (x : Packet) : (s.post x).fresh = s.fresh := rfl

/-! ## State.draw -/

@[simp] theorem State.draw_mem (s : State) (n : Nat) : (s.draw n).mem = s.mem := rfl
@[simp] theorem State.draw_cores (s : State) (n : Nat) : (s.draw n).cores = s.cores := rfl
@[simp] theorem State.draw_mats (s : State) (n : Nat) : (s.draw n).mats = s.mats := rfl
@[simp] theorem State.draw_matUnits (s : State) (n : Nat) : (s.draw n).matUnits = s.matUnits := rfl
@[simp] theorem State.draw_domes (s : State) (n : Nat) : (s.draw n).domes = s.domes := rfl
@[simp] theorem State.draw_homes (s : State) (n : Nat) : (s.draw n).homes = s.homes := rfl
@[simp] theorem State.draw_stackTable (s : State) (n : Nat) : (s.draw n).stackTable = s.stackTable := rfl
@[simp] theorem State.draw_launches (s : State) (n : Nat) : (s.draw n).launches = s.launches := rfl
@[simp] theorem State.draw_graphs (s : State) (n : Nat) : (s.draw n).graphs = s.graphs := rfl
@[simp] theorem State.draw_phases (s : State) (n : Nat) : (s.draw n).phases = s.phases := rfl
@[simp] theorem State.draw_jobs (s : State) (n : Nat) : (s.draw n).jobs = s.jobs := rfl
@[simp] theorem State.draw_tcbs (s : State) (n : Nat) : (s.draw n).tcbs = s.tcbs := rfl
@[simp] theorem State.draw_accepted (s : State) (n : Nat) : (s.draw n).accepted = s.accepted := rfl
@[simp] theorem State.draw_front (s : State) (n : Nat) : (s.draw n).front = s.front := rfl
@[simp] theorem State.draw_offers (s : State) (n : Nat) : (s.draw n).offers = s.offers := rfl
@[simp] theorem State.draw_saved (s : State) (n : Nat) : (s.draw n).saved = s.saved := rfl
@[simp] theorem State.draw_turns (s : State) (n : Nat) : (s.draw n).turns = s.turns := rfl
@[simp] theorem State.draw_oreqs (s : State) (n : Nat) : (s.draw n).oreqs = s.oreqs := rfl
@[simp] theorem State.draw_served (s : State) (n : Nat) : (s.draw n).served = s.served := rfl
@[simp] theorem State.draw_dispatched (s : State) (n : Nat) : (s.draw n).dispatched = s.dispatched := rfl
@[simp] theorem State.draw_placements (s : State) (n : Nat) : (s.draw n).placements = s.placements := rfl
@[simp] theorem State.draw_vfs (s : State) (n : Nat) : (s.draw n).vfs = s.vfs := rfl
@[simp] theorem State.draw_hreqs (s : State) (n : Nat) : (s.draw n).hreqs = s.hreqs := rfl
@[simp] theorem State.draw_flights (s : State) (n : Nat) : (s.draw n).flights = s.flights := rfl
@[simp] theorem State.draw_multis (s : State) (n : Nat) : (s.draw n).multis = s.multis := rfl
@[simp] theorem State.draw_rounds (s : State) (n : Nat) : (s.draw n).rounds = s.rounds := rfl
@[simp] theorem State.draw_groups (s : State) (n : Nat) : (s.draw n).groups = s.groups := rfl
@[simp] theorem State.draw_routes (s : State) (n : Nat) : (s.draw n).routes = s.routes := rfl
@[simp] theorem State.draw_barriers (s : State) (n : Nat) : (s.draw n).barriers = s.barriers := rfl
@[simp] theorem State.draw_bcasts (s : State) (n : Nat) : (s.draw n).bcasts = s.bcasts := rfl
@[simp] theorem State.draw_lines (s : State) (n : Nat) : (s.draw n).lines = s.lines := rfl
@[simp] theorem State.draw_stitch (s : State) (n : Nat) : (s.draw n).stitch = s.stitch := rfl
@[simp] theorem State.draw_topologies (s : State) (n : Nat) : (s.draw n).topologies = s.topologies := rfl
@[simp] theorem State.draw_reports (s : State) (n : Nat) : (s.draw n).reports = s.reports := rfl
@[simp] theorem State.draw_cres (s : State) (n : Nat) : (s.draw n).cres = s.cres := rfl
@[simp] theorem State.draw_lastRwr (s : State) (n : Nat) : (s.draw n).lastRwr = s.lastRwr := rfl
@[simp] theorem State.draw_arrivals (s : State) (n : Nat) : (s.draw n).arrivals = s.arrivals := rfl
@[simp] theorem State.draw_kcp (s : State) (n : Nat) : (s.draw n).kcp = s.kcp := rfl
@[simp] theorem State.draw_kcpRuns (s : State) (n : Nat) : (s.draw n).kcpRuns = s.kcpRuns := rfl
@[simp] theorem State.draw_replies (s : State) (n : Nat) : (s.draw n).replies = s.replies := rfl
@[simp] theorem State.draw_uet (s : State) (n : Nat) : (s.draw n).uet = s.uet := rfl
@[simp] theorem State.draw_sent (s : State) (n : Nat) : (s.draw n).sent = s.sent := rfl
@[simp] theorem State.draw_remote (s : State) (n : Nat) : (s.draw n).remote = s.remote := rfl
@[simp] theorem State.draw_rma (s : State) (n : Nat) : (s.draw n).rma = s.rma := rfl
@[simp] theorem State.draw_tlbs (s : State) (n : Nat) : (s.draw n).tlbs = s.tlbs := rfl
@[simp] theorem State.draw_uetOut (s : State) (n : Nat) : (s.draw n).uetOut = s.uetOut := rfl
@[simp] theorem State.draw_sc (s : State) (n : Nat) : (s.draw n).sc = s.sc := rfl
@[simp] theorem State.draw_rc (s : State) (n : Nat) : (s.draw n).rc = s.rc := rfl
@[simp] theorem State.draw_cur (s : State) (n : Nat) : (s.draw n).cur = s.cur := rfl
@[simp] theorem State.draw_nearCur (s : State) (n : Nat) : (s.draw n).nearCur = s.nearCur := rfl
@[simp] theorem State.draw_agenda (s : State) (n : Nat) : (s.draw n).agenda = s.agenda := rfl

/-! ## Core.setG, Core.setF, Core.setV, Core.advance -/

@[simp] theorem Core.setG_f (c : Core) (d : GReg) (x : Reg) : (c.setG d x).f = c.f := by unfold Core.setG; split <;> rfl
@[simp] theorem Core.setG_v (c : Core) (d : GReg) (x : Reg) : (c.setG d x).v = c.v := by unfold Core.setG; split <;> rfl
@[simp] theorem Core.setG_pc (c : Core) (d : GReg) (x : Reg) : (c.setG d x).pc = c.pc := by unfold Core.setG; split <;> rfl
@[simp] theorem Core.setG_act (c : Core) (d : GReg) (x : Reg) : (c.setG d x).act = c.act := by unfold Core.setG; split <;> rfl
@[simp] theorem Core.setG_regionNo (c : Core) (d : GReg) (x : Reg) : (c.setG d x).regionNo = c.regionNo := by unfold Core.setG; split <;> rfl
@[simp] theorem Core.setG_windows (c : Core) (d : GReg) (x : Reg) : (c.setG d x).windows = c.windows := by unfold Core.setG; split <;> rfl
@[simp] theorem Core.setG_wait (c : Core) (d : GReg) (x : Reg) : (c.setG d x).wait = c.wait := by unfold Core.setG; split <;> rfl
@[simp] theorem Core.setG_kself (c : Core) (d : GReg) (x : Reg) : (c.setG d x).kself = c.kself := by unfold Core.setG; split <;> rfl
@[simp] theorem Core.setG_asid (c : Core) (d : GReg) (x : Reg) : (c.setG d x).asid = c.asid := by unfold Core.setG; split <;> rfl
@[simp] theorem Core.setG_vfid (c : Core) (d : GReg) (x : Reg) : (c.setG d x).vfid = c.vfid := by unfold Core.setG; split <;> rfl
@[simp] theorem Core.setG_rgnpc (c : Core) (d : GReg) (x : Reg) : (c.setG d x).rgnpc = c.rgnpc := by unfold Core.setG; split <;> rfl
@[simp] theorem Core.setG_rgnrec (c : Core) (d : GReg) (x : Reg) : (c.setG d x).rgnrec = c.rgnrec := by unfold Core.setG; split <;> rfl
@[simp] theorem Core.setG_fcause (c : Core) (d : GReg) (x : Reg) : (c.setG d x).fcause = c.fcause := by unfold Core.setG; split <;> rfl
@[simp] theorem Core.setG_faddr (c : Core) (d : GReg) (x : Reg) : (c.setG d x).faddr = c.faddr := by unfold Core.setG; split <;> rfl
@[simp] theorem Core.setG_splo (c : Core) (d : GReg) (x : Reg) : (c.setG d x).splo = c.splo := by unfold Core.setG; split <;> rfl
@[simp] theorem Core.setG_ovfptr (c : Core) (d : GReg) (x : Reg) : (c.setG d x).ovfptr = c.ovfptr := by unfold Core.setG; split <;> rfl
@[simp] theorem Core.setG_mwgt (c : Core) (d : GReg) (x : Reg) : (c.setG d x).mwgt = c.mwgt := by unfold Core.setG; split <;> rfl
@[simp] theorem Core.setG_dseed (c : Core) (d : GReg) (x : Reg) : (c.setG d x).dseed = c.dseed := by unfold Core.setG; split <;> rfl
@[simp] theorem Core.setG_dkeep (c : Core) (d : GReg) (x : Reg) : (c.setG d x).dkeep = c.dkeep := by unfold Core.setG; split <;> rfl
@[simp] theorem Core.setG_arrCfg (c : Core) (d : GReg) (x : Reg) : (c.setG d x).arrCfg = c.arrCfg := by unfold Core.setG; split <;> rfl
@[simp] theorem Core.setG_classes (c : Core) (d : GReg) (x : Reg) : (c.setG d x).classes = c.classes := by unfold Core.setG; split <;> rfl
@[simp] theorem Core.setG_slots (c : Core) (d : GReg) (x : Reg) : (c.setG d x).slots = c.slots := by unfold Core.setG; split <;> rfl
@[simp] theorem Core.setG_order (c : Core) (d : GReg) (x : Reg) : (c.setG d x).order = c.order := by unfold Core.setG; split <;> rfl
@[simp] theorem Core.setG_pinned (c : Core) (d : GReg) (x : Reg) : (c.setG d x).pinned = c.pinned := by unfold Core.setG; split <;> rfl
@[simp] theorem Core.setG_rounds (c : Core) (d : GReg) (x : Reg) : (c.setG d x).rounds = c.rounds := by unfold Core.setG; split <;> rfl
@[simp] theorem Core.setG_buf (c : Core) (d : GReg) (x : Reg) : (c.setG d x).buf = c.buf := by unfold Core.setG; split <;> rfl
@[simp] theorem Core.setG_ldes (c : Core) (d : GReg) (x : Reg) : (c.setG d x).ldes = c.ldes := by unfold Core.setG; split <;> rfl
@[simp] theorem Core.setG_dcache (c : Core) (d : GReg) (x : Reg) : (c.setG d x).dcache = c.dcache := by unfold Core.setG; split <;> rfl
@[simp] theorem Core.setG_icache (c : Core) (d : GReg) (x : Reg) : (c.setG d x).icache = c.icache := by unfold Core.setG; split <;> rfl
@[simp] theorem Core.setG_tlb (c : Core) (d : GReg) (x : Reg) : (c.setG d x).tlb = c.tlb := by unfold Core.setG; split <;> rfl
@[simp] theorem Core.setG_fifo (c : Core) (d : GReg) (x : Reg) : (c.setG d x).fifo = c.fifo := by unfold Core.setG; split <;> rfl
@[simp] theorem Core.setG_ordinal (c : Core) (d : GReg) (x : Reg) : (c.setG d x).ordinal = c.ordinal := by unfold Core.setG; split <;> rfl
@[simp] theorem Core.setG_chans (c : Core) (d : GReg) (x : Reg) : (c.setG d x).chans = c.chans := by unfold Core.setG; split <;> rfl
@[simp] theorem Core.setG_arrQueue (c : Core) (d : GReg) (x : Reg) : (c.setG d x).arrQueue = c.arrQueue := by unfold Core.setG; split <;> rfl
@[simp] theorem Core.setG_obs (c : Core) (d : GReg) (x : Reg) : (c.setG d x).obs = c.obs := by unfold Core.setG; split <;> rfl
@[simp] theorem Core.setG_atomicObs (c : Core) (d : GReg) (x : Reg) : (c.setG d x).atomicObs = c.atomicObs := by unfold Core.setG; split <;> rfl
@[simp] theorem Core.setG_fenced (c : Core) (d : GReg) (x : Reg) : (c.setG d x).fenced = c.fenced := by unfold Core.setG; split <;> rfl
@[simp] theorem Core.setG_landed (c : Core) (d : GReg) (x : Reg) : (c.setG d x).landed = c.landed := by unfold Core.setG; split <;> rfl
@[simp] theorem Core.setG_owed (c : Core) (d : GReg) (x : Reg) : (c.setG d x).owed = c.owed := by unfold Core.setG; split <;> rfl
@[simp] theorem Core.setG_bc (c : Core) (d : GReg) (x : Reg) : (c.setG d x).bc = c.bc := by unfold Core.setG; split <;> rfl
@[simp] theorem Core.setG_lineMask (c : Core) (d : GReg) (x : Reg) : (c.setG d x).lineMask = c.lineMask := by unfold Core.setG; split <;> rfl
@[simp] theorem Core.setG_preempt (c : Core) (d : GReg) (x : Reg) : (c.setG d x).preempt = c.preempt := by unfold Core.setG; split <;> rfl
@[simp] theorem Core.setG_busyFor (c : Core) (d : GReg) (x : Reg) : (c.setG d x).busyFor = c.busyFor := by unfold Core.setG; split <;> rfl
@[simp] theorem Core.setG_step (c : Core) (d : GReg) (x : Reg) : (c.setG d x).step = c.step := by unfold Core.setG; split <;> rfl
@[simp] theorem Core.setG_stepSince (c : Core) (d : GReg) (x : Reg) : (c.setG d x).stepSince = c.stepSince := by unfold Core.setG; split <;> rfl
@[simp] theorem Core.setG_thermalCap (c : Core) (d : GReg) (x : Reg) : (c.setG d x).thermalCap = c.thermalCap := by unfold Core.setG; split <;> rfl
@[simp] theorem Core.setG_slackCap (c : Core) (d : GReg) (x : Reg) : (c.setG d x).slackCap = c.slackCap := by unfold Core.setG; split <;> rfl
@[simp] theorem Core.setG_supply (c : Core) (d : GReg) (x : Reg) : (c.setG d x).supply = c.supply := by unfold Core.setG; split <;> rfl
@[simp] theorem Core.setG_trimmed (c : Core) (d : GReg) (x : Reg) : (c.setG d x).trimmed = c.trimmed := by unfold Core.setG; split <;> rfl
@[simp] theorem Core.setG_asking (c : Core) (d : GReg) (x : Reg) : (c.setG d x).asking = c.asking := by unfold Core.setG; split <;> rfl
@[simp] theorem Core.setG_vacated (c : Core) (d : GReg) (x : Reg) : (c.setG d x).vacated = c.vacated := by unfold Core.setG; split <;> rfl
@[simp] theorem Core.setG_exchanged (c : Core) (d : GReg) (x : Reg) : (c.setG d x).exchanged = c.exchanged := by unfold Core.setG; split <;> rfl

@[simp] theorem Core.setF_g (c : Core) (d : FReg) (x : Reg) : (c.setF d x).g = c.g := by unfold Core.setF; simp only; split <;> rfl
@[simp] theorem Core.setF_v (c : Core) (d : FReg) (x : Reg) : (c.setF d x).v = c.v := by unfold Core.setF; simp only; split <;> rfl
@[simp] theorem Core.setF_pc (c : Core) (d : FReg) (x : Reg) : (c.setF d x).pc = c.pc := by unfold Core.setF; simp only; split <;> rfl
@[simp] theorem Core.setF_act (c : Core) (d : FReg) (x : Reg) : (c.setF d x).act = c.act := by unfold Core.setF; simp only; split <;> rfl
@[simp] theorem Core.setF_regionNo (c : Core) (d : FReg) (x : Reg) : (c.setF d x).regionNo = c.regionNo := by unfold Core.setF; simp only; split <;> rfl
@[simp] theorem Core.setF_windows (c : Core) (d : FReg) (x : Reg) : (c.setF d x).windows = c.windows := by unfold Core.setF; simp only; split <;> rfl
@[simp] theorem Core.setF_wait (c : Core) (d : FReg) (x : Reg) : (c.setF d x).wait = c.wait := by unfold Core.setF; simp only; split <;> rfl
@[simp] theorem Core.setF_kself (c : Core) (d : FReg) (x : Reg) : (c.setF d x).kself = c.kself := by unfold Core.setF; simp only; split <;> rfl
@[simp] theorem Core.setF_asid (c : Core) (d : FReg) (x : Reg) : (c.setF d x).asid = c.asid := by unfold Core.setF; simp only; split <;> rfl
@[simp] theorem Core.setF_vfid (c : Core) (d : FReg) (x : Reg) : (c.setF d x).vfid = c.vfid := by unfold Core.setF; simp only; split <;> rfl
@[simp] theorem Core.setF_rgnpc (c : Core) (d : FReg) (x : Reg) : (c.setF d x).rgnpc = c.rgnpc := by unfold Core.setF; simp only; split <;> rfl
@[simp] theorem Core.setF_rgnrec (c : Core) (d : FReg) (x : Reg) : (c.setF d x).rgnrec = c.rgnrec := by unfold Core.setF; simp only; split <;> rfl
@[simp] theorem Core.setF_fcause (c : Core) (d : FReg) (x : Reg) : (c.setF d x).fcause = c.fcause := by unfold Core.setF; simp only; split <;> rfl
@[simp] theorem Core.setF_faddr (c : Core) (d : FReg) (x : Reg) : (c.setF d x).faddr = c.faddr := by unfold Core.setF; simp only; split <;> rfl
@[simp] theorem Core.setF_splo (c : Core) (d : FReg) (x : Reg) : (c.setF d x).splo = c.splo := by unfold Core.setF; simp only; split <;> rfl
@[simp] theorem Core.setF_ovfptr (c : Core) (d : FReg) (x : Reg) : (c.setF d x).ovfptr = c.ovfptr := by unfold Core.setF; simp only; split <;> rfl
@[simp] theorem Core.setF_mwgt (c : Core) (d : FReg) (x : Reg) : (c.setF d x).mwgt = c.mwgt := by unfold Core.setF; simp only; split <;> rfl
@[simp] theorem Core.setF_dseed (c : Core) (d : FReg) (x : Reg) : (c.setF d x).dseed = c.dseed := by unfold Core.setF; simp only; split <;> rfl
@[simp] theorem Core.setF_dkeep (c : Core) (d : FReg) (x : Reg) : (c.setF d x).dkeep = c.dkeep := by unfold Core.setF; simp only; split <;> rfl
@[simp] theorem Core.setF_arrCfg (c : Core) (d : FReg) (x : Reg) : (c.setF d x).arrCfg = c.arrCfg := by unfold Core.setF; simp only; split <;> rfl
@[simp] theorem Core.setF_classes (c : Core) (d : FReg) (x : Reg) : (c.setF d x).classes = c.classes := by unfold Core.setF; simp only; split <;> rfl
@[simp] theorem Core.setF_slots (c : Core) (d : FReg) (x : Reg) : (c.setF d x).slots = c.slots := by unfold Core.setF; simp only; split <;> rfl
@[simp] theorem Core.setF_order (c : Core) (d : FReg) (x : Reg) : (c.setF d x).order = c.order := by unfold Core.setF; simp only; split <;> rfl
@[simp] theorem Core.setF_pinned (c : Core) (d : FReg) (x : Reg) : (c.setF d x).pinned = c.pinned := by unfold Core.setF; simp only; split <;> rfl
@[simp] theorem Core.setF_rounds (c : Core) (d : FReg) (x : Reg) : (c.setF d x).rounds = c.rounds := by unfold Core.setF; simp only; split <;> rfl
@[simp] theorem Core.setF_buf (c : Core) (d : FReg) (x : Reg) : (c.setF d x).buf = c.buf := by unfold Core.setF; simp only; split <;> rfl
@[simp] theorem Core.setF_ldes (c : Core) (d : FReg) (x : Reg) : (c.setF d x).ldes = c.ldes := by unfold Core.setF; simp only; split <;> rfl
@[simp] theorem Core.setF_dcache (c : Core) (d : FReg) (x : Reg) : (c.setF d x).dcache = c.dcache := by unfold Core.setF; simp only; split <;> rfl
@[simp] theorem Core.setF_icache (c : Core) (d : FReg) (x : Reg) : (c.setF d x).icache = c.icache := by unfold Core.setF; simp only; split <;> rfl
@[simp] theorem Core.setF_tlb (c : Core) (d : FReg) (x : Reg) : (c.setF d x).tlb = c.tlb := by unfold Core.setF; simp only; split <;> rfl
@[simp] theorem Core.setF_fifo (c : Core) (d : FReg) (x : Reg) : (c.setF d x).fifo = c.fifo := by unfold Core.setF; simp only; split <;> rfl
@[simp] theorem Core.setF_ordinal (c : Core) (d : FReg) (x : Reg) : (c.setF d x).ordinal = c.ordinal := by unfold Core.setF; simp only; split <;> rfl
@[simp] theorem Core.setF_chans (c : Core) (d : FReg) (x : Reg) : (c.setF d x).chans = c.chans := by unfold Core.setF; simp only; split <;> rfl
@[simp] theorem Core.setF_arrQueue (c : Core) (d : FReg) (x : Reg) : (c.setF d x).arrQueue = c.arrQueue := by unfold Core.setF; simp only; split <;> rfl
@[simp] theorem Core.setF_obs (c : Core) (d : FReg) (x : Reg) : (c.setF d x).obs = c.obs := by unfold Core.setF; simp only; split <;> rfl
@[simp] theorem Core.setF_atomicObs (c : Core) (d : FReg) (x : Reg) : (c.setF d x).atomicObs = c.atomicObs := by unfold Core.setF; simp only; split <;> rfl
@[simp] theorem Core.setF_fenced (c : Core) (d : FReg) (x : Reg) : (c.setF d x).fenced = c.fenced := by unfold Core.setF; simp only; split <;> rfl
@[simp] theorem Core.setF_landed (c : Core) (d : FReg) (x : Reg) : (c.setF d x).landed = c.landed := by unfold Core.setF; simp only; split <;> rfl
@[simp] theorem Core.setF_owed (c : Core) (d : FReg) (x : Reg) : (c.setF d x).owed = c.owed := by unfold Core.setF; simp only; split <;> rfl
@[simp] theorem Core.setF_bc (c : Core) (d : FReg) (x : Reg) : (c.setF d x).bc = c.bc := by unfold Core.setF; simp only; split <;> rfl
@[simp] theorem Core.setF_lineMask (c : Core) (d : FReg) (x : Reg) : (c.setF d x).lineMask = c.lineMask := by unfold Core.setF; simp only; split <;> rfl
@[simp] theorem Core.setF_preempt (c : Core) (d : FReg) (x : Reg) : (c.setF d x).preempt = c.preempt := by unfold Core.setF; simp only; split <;> rfl
@[simp] theorem Core.setF_busyFor (c : Core) (d : FReg) (x : Reg) : (c.setF d x).busyFor = c.busyFor := by unfold Core.setF; simp only; split <;> rfl
@[simp] theorem Core.setF_step (c : Core) (d : FReg) (x : Reg) : (c.setF d x).step = c.step := by unfold Core.setF; simp only; split <;> rfl
@[simp] theorem Core.setF_stepSince (c : Core) (d : FReg) (x : Reg) : (c.setF d x).stepSince = c.stepSince := by unfold Core.setF; simp only; split <;> rfl
@[simp] theorem Core.setF_thermalCap (c : Core) (d : FReg) (x : Reg) : (c.setF d x).thermalCap = c.thermalCap := by unfold Core.setF; simp only; split <;> rfl
@[simp] theorem Core.setF_slackCap (c : Core) (d : FReg) (x : Reg) : (c.setF d x).slackCap = c.slackCap := by unfold Core.setF; simp only; split <;> rfl
@[simp] theorem Core.setF_supply (c : Core) (d : FReg) (x : Reg) : (c.setF d x).supply = c.supply := by unfold Core.setF; simp only; split <;> rfl
@[simp] theorem Core.setF_trimmed (c : Core) (d : FReg) (x : Reg) : (c.setF d x).trimmed = c.trimmed := by unfold Core.setF; simp only; split <;> rfl
@[simp] theorem Core.setF_asking (c : Core) (d : FReg) (x : Reg) : (c.setF d x).asking = c.asking := by unfold Core.setF; simp only; split <;> rfl
@[simp] theorem Core.setF_vacated (c : Core) (d : FReg) (x : Reg) : (c.setF d x).vacated = c.vacated := by unfold Core.setF; simp only; split <;> rfl
@[simp] theorem Core.setF_exchanged (c : Core) (d : FReg) (x : Reg) : (c.setF d x).exchanged = c.exchanged := by unfold Core.setF; simp only; split <;> rfl

@[simp] theorem Core.setV_g (c : Core) (d : VecReg) (x : VReg) : (c.setV d x).g = c.g := rfl
@[simp] theorem Core.setV_f (c : Core) (d : VecReg) (x : VReg) : (c.setV d x).f = c.f := rfl
@[simp] theorem Core.setV_pc (c : Core) (d : VecReg) (x : VReg) : (c.setV d x).pc = c.pc := rfl
@[simp] theorem Core.setV_act (c : Core) (d : VecReg) (x : VReg) : (c.setV d x).act = c.act := rfl
@[simp] theorem Core.setV_regionNo (c : Core) (d : VecReg) (x : VReg) : (c.setV d x).regionNo = c.regionNo := rfl
@[simp] theorem Core.setV_windows (c : Core) (d : VecReg) (x : VReg) : (c.setV d x).windows = c.windows := rfl
@[simp] theorem Core.setV_wait (c : Core) (d : VecReg) (x : VReg) : (c.setV d x).wait = c.wait := rfl
@[simp] theorem Core.setV_sym (c : Core) (d : VecReg) (x : VReg) : (c.setV d x).sym = c.sym := rfl
@[simp] theorem Core.setV_kself (c : Core) (d : VecReg) (x : VReg) : (c.setV d x).kself = c.kself := rfl
@[simp] theorem Core.setV_asid (c : Core) (d : VecReg) (x : VReg) : (c.setV d x).asid = c.asid := rfl
@[simp] theorem Core.setV_vfid (c : Core) (d : VecReg) (x : VReg) : (c.setV d x).vfid = c.vfid := rfl
@[simp] theorem Core.setV_rgnpc (c : Core) (d : VecReg) (x : VReg) : (c.setV d x).rgnpc = c.rgnpc := rfl
@[simp] theorem Core.setV_rgnrec (c : Core) (d : VecReg) (x : VReg) : (c.setV d x).rgnrec = c.rgnrec := rfl
@[simp] theorem Core.setV_fcause (c : Core) (d : VecReg) (x : VReg) : (c.setV d x).fcause = c.fcause := rfl
@[simp] theorem Core.setV_faddr (c : Core) (d : VecReg) (x : VReg) : (c.setV d x).faddr = c.faddr := rfl
@[simp] theorem Core.setV_splo (c : Core) (d : VecReg) (x : VReg) : (c.setV d x).splo = c.splo := rfl
@[simp] theorem Core.setV_ovfptr (c : Core) (d : VecReg) (x : VReg) : (c.setV d x).ovfptr = c.ovfptr := rfl
@[simp] theorem Core.setV_mwgt (c : Core) (d : VecReg) (x : VReg) : (c.setV d x).mwgt = c.mwgt := rfl
@[simp] theorem Core.setV_dseed (c : Core) (d : VecReg) (x : VReg) : (c.setV d x).dseed = c.dseed := rfl
@[simp] theorem Core.setV_dkeep (c : Core) (d : VecReg) (x : VReg) : (c.setV d x).dkeep = c.dkeep := rfl
@[simp] theorem Core.setV_arrCfg (c : Core) (d : VecReg) (x : VReg) : (c.setV d x).arrCfg = c.arrCfg := rfl
@[simp] theorem Core.setV_classes (c : Core) (d : VecReg) (x : VReg) : (c.setV d x).classes = c.classes := rfl
@[simp] theorem Core.setV_slots (c : Core) (d : VecReg) (x : VReg) : (c.setV d x).slots = c.slots := rfl
@[simp] theorem Core.setV_order (c : Core) (d : VecReg) (x : VReg) : (c.setV d x).order = c.order := rfl
@[simp] theorem Core.setV_pinned (c : Core) (d : VecReg) (x : VReg) : (c.setV d x).pinned = c.pinned := rfl
@[simp] theorem Core.setV_rounds (c : Core) (d : VecReg) (x : VReg) : (c.setV d x).rounds = c.rounds := rfl
@[simp] theorem Core.setV_buf (c : Core) (d : VecReg) (x : VReg) : (c.setV d x).buf = c.buf := rfl
@[simp] theorem Core.setV_ldes (c : Core) (d : VecReg) (x : VReg) : (c.setV d x).ldes = c.ldes := rfl
@[simp] theorem Core.setV_dcache (c : Core) (d : VecReg) (x : VReg) : (c.setV d x).dcache = c.dcache := rfl
@[simp] theorem Core.setV_icache (c : Core) (d : VecReg) (x : VReg) : (c.setV d x).icache = c.icache := rfl
@[simp] theorem Core.setV_tlb (c : Core) (d : VecReg) (x : VReg) : (c.setV d x).tlb = c.tlb := rfl
@[simp] theorem Core.setV_fifo (c : Core) (d : VecReg) (x : VReg) : (c.setV d x).fifo = c.fifo := rfl
@[simp] theorem Core.setV_ordinal (c : Core) (d : VecReg) (x : VReg) : (c.setV d x).ordinal = c.ordinal := rfl
@[simp] theorem Core.setV_chans (c : Core) (d : VecReg) (x : VReg) : (c.setV d x).chans = c.chans := rfl
@[simp] theorem Core.setV_arrQueue (c : Core) (d : VecReg) (x : VReg) : (c.setV d x).arrQueue = c.arrQueue := rfl
@[simp] theorem Core.setV_obs (c : Core) (d : VecReg) (x : VReg) : (c.setV d x).obs = c.obs := rfl
@[simp] theorem Core.setV_atomicObs (c : Core) (d : VecReg) (x : VReg) : (c.setV d x).atomicObs = c.atomicObs := rfl
@[simp] theorem Core.setV_fenced (c : Core) (d : VecReg) (x : VReg) : (c.setV d x).fenced = c.fenced := rfl
@[simp] theorem Core.setV_landed (c : Core) (d : VecReg) (x : VReg) : (c.setV d x).landed = c.landed := rfl
@[simp] theorem Core.setV_owed (c : Core) (d : VecReg) (x : VReg) : (c.setV d x).owed = c.owed := rfl
@[simp] theorem Core.setV_bc (c : Core) (d : VecReg) (x : VReg) : (c.setV d x).bc = c.bc := rfl
@[simp] theorem Core.setV_lineMask (c : Core) (d : VecReg) (x : VReg) : (c.setV d x).lineMask = c.lineMask := rfl
@[simp] theorem Core.setV_preempt (c : Core) (d : VecReg) (x : VReg) : (c.setV d x).preempt = c.preempt := rfl
@[simp] theorem Core.setV_busyFor (c : Core) (d : VecReg) (x : VReg) : (c.setV d x).busyFor = c.busyFor := rfl
@[simp] theorem Core.setV_step (c : Core) (d : VecReg) (x : VReg) : (c.setV d x).step = c.step := rfl
@[simp] theorem Core.setV_stepSince (c : Core) (d : VecReg) (x : VReg) : (c.setV d x).stepSince = c.stepSince := rfl
@[simp] theorem Core.setV_thermalCap (c : Core) (d : VecReg) (x : VReg) : (c.setV d x).thermalCap = c.thermalCap := rfl
@[simp] theorem Core.setV_slackCap (c : Core) (d : VecReg) (x : VReg) : (c.setV d x).slackCap = c.slackCap := rfl
@[simp] theorem Core.setV_supply (c : Core) (d : VecReg) (x : VReg) : (c.setV d x).supply = c.supply := rfl
@[simp] theorem Core.setV_trimmed (c : Core) (d : VecReg) (x : VReg) : (c.setV d x).trimmed = c.trimmed := rfl
@[simp] theorem Core.setV_asking (c : Core) (d : VecReg) (x : VReg) : (c.setV d x).asking = c.asking := rfl
@[simp] theorem Core.setV_vacated (c : Core) (d : VecReg) (x : VReg) : (c.setV d x).vacated = c.vacated := rfl
@[simp] theorem Core.setV_exchanged (c : Core) (d : VecReg) (x : VReg) : (c.setV d x).exchanged = c.exchanged := rfl

@[simp] theorem Core.advance_g (c : Core) (i : Issue) (p : Word) : (c.advance i p).g = c.g := rfl
@[simp] theorem Core.advance_f (c : Core) (i : Issue) (p : Word) : (c.advance i p).f = c.f := rfl
@[simp] theorem Core.advance_v (c : Core) (i : Issue) (p : Word) : (c.advance i p).v = c.v := rfl
@[simp] theorem Core.advance_regionNo (c : Core) (i : Issue) (p : Word) : (c.advance i p).regionNo = c.regionNo := rfl
@[simp] theorem Core.advance_sym (c : Core) (i : Issue) (p : Word) : (c.advance i p).sym = c.sym := rfl
@[simp] theorem Core.advance_kself (c : Core) (i : Issue) (p : Word) : (c.advance i p).kself = c.kself := rfl
@[simp] theorem Core.advance_asid (c : Core) (i : Issue) (p : Word) : (c.advance i p).asid = c.asid := rfl
@[simp] theorem Core.advance_vfid (c : Core) (i : Issue) (p : Word) : (c.advance i p).vfid = c.vfid := rfl
@[simp] theorem Core.advance_rgnpc (c : Core) (i : Issue) (p : Word) : (c.advance i p).rgnpc = c.rgnpc := rfl
@[simp] theorem Core.advance_rgnrec (c : Core) (i : Issue) (p : Word) : (c.advance i p).rgnrec = c.rgnrec := rfl
@[simp] theorem Core.advance_fcause (c : Core) (i : Issue) (p : Word) : (c.advance i p).fcause = c.fcause := rfl
@[simp] theorem Core.advance_faddr (c : Core) (i : Issue) (p : Word) : (c.advance i p).faddr = c.faddr := rfl
@[simp] theorem Core.advance_splo (c : Core) (i : Issue) (p : Word) : (c.advance i p).splo = c.splo := rfl
@[simp] theorem Core.advance_ovfptr (c : Core) (i : Issue) (p : Word) : (c.advance i p).ovfptr = c.ovfptr := rfl
@[simp] theorem Core.advance_mwgt (c : Core) (i : Issue) (p : Word) : (c.advance i p).mwgt = c.mwgt := rfl
@[simp] theorem Core.advance_dseed (c : Core) (i : Issue) (p : Word) : (c.advance i p).dseed = c.dseed := rfl
@[simp] theorem Core.advance_dkeep (c : Core) (i : Issue) (p : Word) : (c.advance i p).dkeep = c.dkeep := rfl
@[simp] theorem Core.advance_arrCfg (c : Core) (i : Issue) (p : Word) : (c.advance i p).arrCfg = c.arrCfg := rfl
@[simp] theorem Core.advance_classes (c : Core) (i : Issue) (p : Word) : (c.advance i p).classes = c.classes := rfl
@[simp] theorem Core.advance_slots (c : Core) (i : Issue) (p : Word) : (c.advance i p).slots = c.slots := rfl
@[simp] theorem Core.advance_order (c : Core) (i : Issue) (p : Word) : (c.advance i p).order = c.order := rfl
@[simp] theorem Core.advance_pinned (c : Core) (i : Issue) (p : Word) : (c.advance i p).pinned = c.pinned := rfl
@[simp] theorem Core.advance_rounds (c : Core) (i : Issue) (p : Word) : (c.advance i p).rounds = c.rounds := rfl
@[simp] theorem Core.advance_buf (c : Core) (i : Issue) (p : Word) : (c.advance i p).buf = c.buf := rfl
@[simp] theorem Core.advance_ldes (c : Core) (i : Issue) (p : Word) : (c.advance i p).ldes = c.ldes := rfl
@[simp] theorem Core.advance_dcache (c : Core) (i : Issue) (p : Word) : (c.advance i p).dcache = c.dcache := rfl
@[simp] theorem Core.advance_icache (c : Core) (i : Issue) (p : Word) : (c.advance i p).icache = c.icache := rfl
@[simp] theorem Core.advance_tlb (c : Core) (i : Issue) (p : Word) : (c.advance i p).tlb = c.tlb := rfl
@[simp] theorem Core.advance_fifo (c : Core) (i : Issue) (p : Word) : (c.advance i p).fifo = c.fifo := rfl
@[simp] theorem Core.advance_ordinal (c : Core) (i : Issue) (p : Word) : (c.advance i p).ordinal = c.ordinal := rfl
@[simp] theorem Core.advance_chans (c : Core) (i : Issue) (p : Word) : (c.advance i p).chans = c.chans := rfl
@[simp] theorem Core.advance_arrQueue (c : Core) (i : Issue) (p : Word) : (c.advance i p).arrQueue = c.arrQueue := rfl
@[simp] theorem Core.advance_obs (c : Core) (i : Issue) (p : Word) : (c.advance i p).obs = c.obs := rfl
@[simp] theorem Core.advance_atomicObs (c : Core) (i : Issue) (p : Word) : (c.advance i p).atomicObs = c.atomicObs := rfl
@[simp] theorem Core.advance_fenced (c : Core) (i : Issue) (p : Word) : (c.advance i p).fenced = c.fenced := rfl
@[simp] theorem Core.advance_landed (c : Core) (i : Issue) (p : Word) : (c.advance i p).landed = c.landed := rfl
@[simp] theorem Core.advance_bc (c : Core) (i : Issue) (p : Word) : (c.advance i p).bc = c.bc := rfl
@[simp] theorem Core.advance_lineMask (c : Core) (i : Issue) (p : Word) : (c.advance i p).lineMask = c.lineMask := rfl
@[simp] theorem Core.advance_preempt (c : Core) (i : Issue) (p : Word) : (c.advance i p).preempt = c.preempt := rfl
@[simp] theorem Core.advance_busyFor (c : Core) (i : Issue) (p : Word) : (c.advance i p).busyFor = c.busyFor := rfl
@[simp] theorem Core.advance_step (c : Core) (i : Issue) (p : Word) : (c.advance i p).step = c.step := rfl
@[simp] theorem Core.advance_stepSince (c : Core) (i : Issue) (p : Word) : (c.advance i p).stepSince = c.stepSince := rfl
@[simp] theorem Core.advance_thermalCap (c : Core) (i : Issue) (p : Word) : (c.advance i p).thermalCap = c.thermalCap := rfl
@[simp] theorem Core.advance_slackCap (c : Core) (i : Issue) (p : Word) : (c.advance i p).slackCap = c.slackCap := rfl
@[simp] theorem Core.advance_supply (c : Core) (i : Issue) (p : Word) : (c.advance i p).supply = c.supply := rfl
@[simp] theorem Core.advance_trimmed (c : Core) (i : Issue) (p : Word) : (c.advance i p).trimmed = c.trimmed := rfl
@[simp] theorem Core.advance_asking (c : Core) (i : Issue) (p : Word) : (c.advance i p).asking = c.asking := rfl
@[simp] theorem Core.advance_vacated (c : Core) (i : Issue) (p : Word) : (c.advance i p).vacated = c.vacated := rfl
@[simp] theorem Core.advance_exchanged (c : Core) (i : Issue) (p : Word) : (c.advance i p).exchanged = c.exchanged := rfl
@[simp] theorem Core.advance_pc (c : Core) (i : Issue) (p : Word) : (c.advance i p).pc = p := rfl
@[simp] theorem Core.advance_wait (c : Core) (i : Issue) (p : Word) : (c.advance i p).wait = none := rfl
@[simp] theorem Core.advance_windows (c : Core) (i : Issue) (p : Word) : (c.advance i p).windows = i.windows c.windows := rfl
@[simp] theorem Core.advance_owed (c : Core) (i : Issue) (p : Word) :
    (c.advance i p).owed = c.owed.filter fun x => !i.writes.contains x.1 := rfl

end Sys2Proof.Machine
end

