-- ==== Sys2Proof/Laws/Booked.lean ====
section
/-! SUPPORT. What the counting of levels and tasks leaves alone: one lemma for each operation. -/
namespace Sys2Proof.Machine

/-- State t is state s but for what the counting of levels and tasks changes, with messages sent besides. -/
def Booked (s t : State) : Prop :=
  { t with
    launches := s.launches
    graphs := s.graphs
    phases := s.phases
    jobs := s.jobs
    tcbs := s.tcbs
    offers := s.offers
    homes := s.homes
    reports := s.reports
    flights := s.flights
    sc := { t.sc with counters := s.sc.counters } } = s ∧ ∀ f ∈ s.flights, f ∈ t.flights

/-- Nothing has changed. -/
theorem Booked.refl (s : State) : Booked s s := ⟨rfl, fun _ h => h⟩

/-- One after the other. -/
theorem Booked.trans {s t u : State} (h : Booked s t) (g : Booked t u) : Booked s u := by
  refine ⟨?_, fun f hf => g.2 f (h.2 f hf)⟩
  have h1 := h.1
  rw [← g.1] at h1
  exact h1

/-- A list of them. -/
theorem Booked.foldl {α : Type} (f : State → α → State) (hf : ∀ s a, Booked s (f s a)) (l : List α) (s : State) :
    Booked s (l.foldl f s) := by
  induction l generalizing s with
  | nil => exact Booked.refl s
  | cons a l ih => exact (hf s a).trans (ih _)

/-- Every core stays. -/
theorem Booked.core {s t : State} (h : Booked s t) (k : Nat) : t.core k = s.core k := by
  have h1 := congrArg State.cores h.1
  simp only at h1
  unfold State.core
  rw [h1]

/-- An event counted. -/
theorem booked_count (s : State) (c : Counter) (n : Nat) : Booked s (s.count c n) := by
  unfold State.count
  split
  · exact .refl _
  · exact ⟨rfl, fun _ h => h⟩

/-- A message sent. -/
theorem booked_post (s : State) (p : Packet) : Booked s (s.post p) :=
  ⟨rfl, fun _ hf => List.mem_append_left _ hf⟩

/-- A TCB replaced. -/
theorem booked_setTcb (s : State) (t : Nat) (x : Tcb) : Booked s (s.setTcb t x) := ⟨rfl, fun _ h => h⟩

/-- The launches replaced. -/
theorem booked_launches (s : State) (m : Map Launch) : Booked s { s with launches := m } := ⟨rfl, fun _ h => h⟩

/-- A home replaced. -/
theorem booked_setHome (s : State) (t : Nat) (x : Home) : Booked s (s.setHome t x) := ⟨rfl, fun _ h => h⟩

/-- A TCB becomes READY. -/
theorem booked_tcbReady (s : State) (t : Nat) : Booked s (s.tcbReady t) := ⟨rfl, fun _ h => h⟩

/-- A successor released. -/
theorem booked_release1 (ids : List Nat) (s : State) (t : Nat) : Booked s (State.release1 ids s t) := by
  unfold State.release1
  simp only
  split
  · split
    · exact (booked_setTcb s t _).trans (booked_tcbReady _ t)
    · exact booked_setTcb s t _
  · exact .refl s

/-- A TCB's body completed. -/
theorem booked_tcbEnd (s : State) (t : Nat) (e : End) (ids : List Nat) : Booked s (s.tcbEnd t e ids) := by
  unfold State.tcbEnd
  cases e with
  | faulted => exact booked_setTcb s t _
  | cancelled => exact ⟨rfl, fun _ h => h⟩
  | done =>
    simp only [if_true]
    refine Booked.trans ?_ (Booked.foldl _ (booked_release1 ids) _ _)
    exact ⟨rfl, fun _ h => h⟩

/-- A launch notifies. -/
theorem booked_notify (s : State) (l : Nat) (x : Launch) : Booked s (s.notify l x) := by
  unfold State.notify
  split
  · exact booked_post _ _
  · exact booked_count _ _ _

/-- A launch completes. -/
theorem booked_endLaunch (s : State) (l : Nat) (x : Launch) : Booked s (s.endLaunch l x) := by
  unfold State.endLaunch
  have h : Booked s ((({ s with launches := mdel s.launches l } : State).endLeases l).notify l x) :=
    Booked.trans (t := ({ s with launches := mdel s.launches l } : State).endLeases l) ⟨rfl, fun _ h => h⟩ (booked_notify _ _ _)
  refine h.trans ?_
  simp only
  generalize (({ s with launches := mdel s.launches l } : State).endLeases l).notify l x = u
  refine Booked.trans (t := if x.counts.outcome = .faulted then
    { u with jobs := mmod u.jobs x.desc.job fun j => { j with firstFault := j.firstFault.orElse fun _ => some l } }
    else u) ?_ ?_
  · split
    · exact ⟨rfl, fun _ h => h⟩
    · exact .refl _
  · generalize (if x.counts.outcome = .faulted then
      { u with jobs := mmod u.jobs x.desc.job fun j => { j with firstFault := j.firstFault.orElse fun _ => some l } }
      else u) = v
    split
    · exact booked_tcbEnd _ _ _ _
    · split <;> exact ⟨rfl, fun _ h => h⟩

/-- One instance completes. -/
theorem booked_settle1 {s t : State} (h : s.settle1 = some t) : Booked s t := by
  unfold State.settle1 at h
  split at h
  · cases h; exact booked_endLaunch _ _ _
  · split at h
    · cases h; exact ⟨rfl, fun _ h => h⟩
    · split at h
      · cases h; exact ⟨rfl, fun _ h => h⟩
      · cases hj : s.jobs.find? fun x => x.2.counts.isComplete with
        | none => rw [hj] at h; simp at h
        | some j => rw [hj] at h; simp at h; subst h; exact ⟨rfl, fun _ h => h⟩

/-- Some instances complete. -/
theorem booked_settleN (n : Nat) (s : State) : Booked s (State.settleN n s) := by
  induction n generalizing s with
  | zero => exact .refl s
  | succ n ih =>
    unfold State.settleN
    split
    · rename_i t h; exact (booked_settle1 h).trans (ih t)
    · exact .refl s

/-- Every complete instance completes. -/
theorem booked_settle (s : State) : Booked s s.settle := booked_settleN _ s

/-- A member ended. -/
theorem booked_endMember (s : State) (l : Nat) (e : End) (ids : List Nat) : Booked s (s.endMember l e ids) :=
  Booked.trans (t := { s with launches := mmod s.launches l fun x =>
    { x with counts := x.counts.finish e, finished := x.finished ++ ids } }) ⟨rfl, fun _ h => h⟩ (booked_settle _)

/-- A pin taken off. -/
theorem booked_unpin (s : State) (l : Nat) : Booked s (s.unpin l) :=
  Booked.trans (t := { s with launches := mmod s.launches l fun x => { x with pins := x.pins - 1 } }) ⟨rfl, fun _ h => h⟩ (booked_settle _)

/-- A member added. -/
theorem booked_join (s : State) (l : Nat) : Booked s (s.join l) := ⟨rfl, fun _ h => h⟩

/-- A fault message sent. -/
theorem booked_faultTo (s : State) (vf super fcls pri l src : Nat) (w : List Word) (ids : List Nat) (en : Option Engine) :
    Booked s (s.faultTo vf super fcls pri l src w ids en) := by
  unfold State.faultTo
  simp only
  refine Booked.trans (t := if s.canJoin l then s.join l else s) ?_ ?_
  · split
    · exact booked_join _ _
    · exact .refl _
  · generalize (if s.canJoin l then s.join l else s) = u
    split
    · exact booked_post _ _
    · split
      · exact (booked_count _ _ _).trans (booked_endMember _ _ _ _)
      · exact booked_count _ _ _

/-- A fault message sent for a launch. -/
theorem booked_faultMessage (s : State) (l src : Nat) (w : List Word) (ids : List Nat) (en : Option Engine) :
    Booked s (s.faultMessage l src w ids en) := by
  unfold State.faultMessage
  split
  · exact booked_faultTo _ _ _ _ _ _ _ _ _ _
  · exact .refl _

/-- A task passed to the Orrery. -/
theorem booked_passTask (h qi : Nat) (s : State) (e : Entry) : Booked s (State.passTask h qi s e) := ⟨rfl, fun _ h => h⟩

/-- The tasks of a queue passed. -/
theorem booked_passTasks (s : State) (h qi : Nat) : Booked s (s.passTasks h qi) := Booked.foldl _ (booked_passTask h qi) _ s

/-- The offer rule of a queue. -/
theorem booked_offerQueue (s : State) (h qi : Nat) : Booked s (s.offerQueue h qi) :=
  (booked_setHome s h _).trans (booked_passTasks _ h qi)

/-- A TCB's task ended. -/
theorem booked_tcbTaskEnd (s : State) (t : Nat) (e : End) (ids : List Nat) : Booked s (s.tcbTaskEnd t e ids) := by
  unfold State.tcbTaskEnd
  simp only
  split
  · exact (booked_setTcb s t _).trans (booked_tcbEnd _ t _ _)
  · exact booked_setTcb s t _

/-- A task's target advanced. -/
theorem booked_targetEnd (s : State) (d : TaskDesc) (e : End) (ids : List Nat) : Booked s (s.targetEnd d e ids) := by
  unfold State.targetEnd
  split
  · exact ⟨rfl, fun _ h => h⟩
  · exact ⟨rfl, fun _ h => h⟩
  · exact booked_tcbTaskEnd _ _ _ _
  · exact .refl _

/-- A task retired. -/
theorem booked_retireTask (s : State) (t : TaskRef) (e : End) (ids : List Nat) : Booked s (s.retireTask t e ids) := by
  unfold State.retireTask
  simp only
  split
  · exact .refl _
  · rename_i en _
    generalize ({ (s.home t.home).modQueue t.queue fun q =>
      { q with entries := q.entries.filter fun y => y.seq != t.seq } with released := _, retired := _ } : Home) = x2
    refine (((booked_setHome s t.home x2).trans (booked_passTasks _ t.home t.queue)).trans
      (booked_targetEnd _ en.desc e ids)).trans ?_
    generalize ((s.setHome t.home x2).passTasks t.home t.queue).targetEnd en.desc e ids = u
    exact (booked_launches u _).trans (booked_settle _)

/-- A unit ended. -/
theorem booked_endUnit (s : State) (a : Act) (e : End) (ids : List Nat) : Booked s (s.endUnit a e ids) := by
  unfold State.endUnit
  split
  · exact booked_retireTask _ _ _ _
  · split
    · exact booked_endMember _ _ _ _
    · exact .refl _

end Sys2Proof.Machine
end

