-- ==== Sys2Proof/Laws/Reach.lean ====
section
/-! SUPPORT. What the operations that reach memory leave alone: one lemma for each operation. -/
namespace Sys2Proof.Machine

/-- Core d is core c but for what reaching memory changes: the store buffer, the pending LDEs, the caches, the TLB, the writes
observed and those that a FENCE covers. -/
def Core.SameButMemory (c d : Core) : Prop :=
  { d with
    buf := c.buf
    ldes := c.ldes
    dcache := c.dcache
    icache := c.icache
    tlb := c.tlb
    obs := c.obs
    atomicObs := c.atomicObs
    fenced := c.fenced } = c

/-- State t is state s but for what core k's reaching memory changes. -/
def Reached (s t : State) (k : Nat) : Prop :=
  { t with
    cores := s.cores
    mem := s.mem
    arrivals := s.arrivals
    lastRwr := s.lastRwr
    sc := { t.sc with counters := s.sc.counters, log := s.sc.log }
    fresh := s.fresh } = s ∧ (∀ j, j ≠ k → t.core j = s.core j) ∧ (s.core k).SameButMemory (t.core k)

/-- Nothing has changed. -/
theorem Core.SameButMemory.refl (c : Core) : c.SameButMemory c := rfl

/-- One after the other. -/
theorem Core.SameButMemory.trans {c d e : Core} (h : c.SameButMemory d) (g : d.SameButMemory e) : c.SameButMemory e := by
  unfold Core.SameButMemory at *
  rw [← g] at h
  exact h

/-- Nothing has changed. -/
theorem Reached.refl (s : State) (k : Nat) : Reached s s k := ⟨rfl, fun _ _ => rfl, rfl⟩

/-- One after the other. -/
theorem Reached.trans {s t u : State} {k : Nat} (h : Reached s t k) (g : Reached t u k) : Reached s u k := by
  refine ⟨?_, fun j hj => (g.2.1 j hj).trans (h.2.1 j hj), h.2.2.trans g.2.2⟩
  have h1 := h.1
  rw [← g.1] at h1
  exact h1

/-- A list of them. -/
theorem Reached.foldl {α : Type} {k : Nat} (f : State → α → State) (hf : ∀ s a, Reached s (f s a) k) (l : List α) (s : State) :
    Reached s (l.foldl f s) k := by
  induction l generalizing s with
  | nil => exact Reached.refl s k
  | cons a l ih => exact (hf s a).trans (ih _)

/-- A change of what reaching memory changes on core k. -/
theorem reached_setCore {s : State} {k : Nat} {c : Core} (h : (s.core k).SameButMemory c) : Reached s (s.setCore k c) k :=
  ⟨rfl, fun _ hj => State.core_setCore_other s c hj, by rw [State.core_setCore_same]; exact h⟩

/-- Memory replaced changes no more. -/
theorem reached_setMem (s : State) (k : Nat) (m : Memory) : Reached s (s.setMem m) k := ⟨rfl, fun _ _ => rfl, rfl⟩

/-- Memory replaced, as a record changes no more. -/
theorem reached_mem (s : State) (k : Nat) (m : Memory) : Reached s { s with mem := m } k := ⟨rfl, fun _ _ => rfl, rfl⟩

/-- Free values drawn changes no more. -/
theorem reached_draw (s : State) (k n : Nat) : Reached s (s.draw n) k := ⟨rfl, fun _ _ => rfl, rfl⟩

/-- An event counted changes no more. -/
theorem reached_count (s : State) (k : Nat) (c : Counter) (n : Nat) : Reached s (s.count c n) k := by
  unfold State.count
  split
  · exact .refl _ _
  · exact ⟨rfl, fun _ _ => rfl, rfl⟩

/-- The event log replaced changes no more. -/
theorem reached_log (s : State) (k : Nat) (l : List LogEntry) : Reached s { s with sc := { s.sc with log := l } } k :=
  ⟨rfl, fun _ _ => rfl, rfl⟩

/-- An entry in the event log changes no more. -/
theorem reached_note (s : State) (k src : Nat) (c : LogCode) (d : List Nat) : Reached s (s.note src c d) k := by
  unfold State.note
  exact reached_log _ _ _

/-- A word marked changes no more. -/
theorem reached_markWord (s : State) (k w : Nat) : Reached s (s.markWord w) k := by
  unfold State.markWord
  split
  · exact .refl _ _
  · exact ((reached_setMem s k _).trans (reached_count _ k _ _)).trans (reached_note _ k _ _ _)

/-- A word's code checked changes no more. -/
theorem reached_checkWord (k : Nat) (s : State) (w : Nat) : Reached s (s.checkWord w) k := by
  unfold State.checkWord
  split
  · exact .refl _ _
  · simp only
    split
    · exact (reached_setMem s k _).trans (reached_count _ k _ _)
    · exact (reached_setMem s k _).trans (reached_markWord _ k _)

/-- The codes of a span checked changes no more. -/
theorem reached_checked (s : State) (k pa n : Nat) : Reached s (s.checked pa n) k := by
  unfold State.checked
  split
  · exact .refl _ _
  · exact .foldl _ (reached_checkWord k) _ s

/-- The words of a merge read changes no more. -/
theorem reached_merged (s : State) (k pa n : Nat) : Reached s (s.merged pa n) k := by
  unfold State.merged
  split
  · exact .refl _ _
  · exact .foldl _ (reached_checkWord k) _ s

/-- The counts of a write change no more. -/
theorem reached_countMarks (s : State) (k pa : Nat) (ev : Nat × Nat × Nat) : Reached s (s.countMarks pa ev) k :=
  ((reached_count s k _ _).trans (reached_count _ k _ _)).trans (reached_count _ k _ _)

/-- A late value sent changes no more. -/
theorem reached_arrive (s : State) (k j : Nat) (r : Option SymRef) (x : Reg) (l : List Nat) : Reached s (s.arrive j r x l) k := by
  unfold State.arrive
  split
  · exact ⟨rfl, fun _ _ => rfl, rfl⟩
  · exact .refl _ _

/-- A line written back changes no more. -/
theorem reached_writeLine (s : State) (k : Nat) (l : Line) : Reached s (s.writeLine k l) k := by
  unfold State.writeLine
  split
  · exact reached_setMem _ _ _
  · exact .refl _ _

/-- A flush changes no more. -/
theorem reached_flush (s : State) (k : Nat) (d : Bool) (p : Line → Bool) : Reached s (s.flush k d p) k := by
  refine (Reached.foldl (fun t l => t.writeLine k l) (fun s l => reached_writeLine s k l) _ s).trans (reached_setCore ?_)
  rw [show State.core (List.foldl (fun t l => t.writeLine k l) s _) k = s.core k from ?_]
  · rfl
  · generalize List.filter p (s.core k).dcache = l
    induction l generalizing s with
    | nil => rfl
    | cons a l ih =>
      rw [List.foldl_cons, ih]
      unfold State.writeLine
      split <;> rfl

/-- A line brought in changes no more. -/
theorem reached_fill (s : State) (k pa : Nat) : Reached s (s.fill k pa) k := by
  unfold State.fill
  split
  · exact .refl _ _
  · simp only
    refine (reached_checked s k (pa / 64 * 64) 64).trans ?_
    generalize s.checked (pa / 64 * 64) 64 = t
    split
    · exact reached_setCore rfl
    · refine (reached_draw t k 1).trans ?_
      split
      · exact (reached_flush _ k _ _).trans (reached_setCore rfl)
      · exact reached_setCore rfl

/-- A read of memory or the cache changes no more. -/
theorem reached_loadAt (s : State) (k pa n : Nat) (c : Bool) : Reached s (s.loadAt k pa n c).2 k := by
  unfold State.loadAt
  split
  · simp only
    split <;> exact reached_fill s k pa
  · exact (reached_checked s k pa n).trans (reached_setCore rfl)

/-- A poison load counted changes no more. -/
theorem reached_countPoison (s : State) (k pa : Nat) (x : Loaded) : Reached s (s.countPoison pa x) k := by
  unfold State.countPoison
  split
  · exact reached_count _ _ _ _
  · exact .refl _ _

/-- An LDE performed changes no more. -/
theorem reached_performLde (s : State) (k : Nat) (e : Lde) : Reached s (s.performLde k e) k :=
  ((reached_loadAt s k _ _ _).trans (reached_countPoison _ k _ _)).trans (reached_arrive _ k _ _ _ _)

/-- LDEs performed changes no more. -/
theorem reached_performLdes (s : State) (k : Nat) (p : Lde → Bool) : Reached s (s.performLdes k p) k := by
  refine Reached.trans (t := s.setCore k { s.core k with ldes := (s.core k).ldes.filter fun e => !p e }) ?_ ?_
  · exact reached_setCore rfl
  · exact Reached.foldl (fun t e => t.performLde k e) (fun s e => reached_performLde s k e) _ _

/-- Bytes written changes no more. -/
theorem reached_writeMem (s : State) (k : Nat) (v : Visibility) (pa : Nat) (bs : List Byte) (p : Nat → Bool) (t : Bool) :
    Reached s (s.writeMem v pa bs p t) k :=
  ((reached_merged s k pa bs.length).trans (reached_setMem _ k _)).trans (reached_countMarks _ k _ _)

/-- What a release follows changes no more. -/
theorem reached_before (s : State) (k : Nat) (v : Visibility) : Reached s (s.before v) k := reached_setMem s k _

/-- A store to the cache changes no more. -/
theorem reached_cacheStore (s : State) (k pa : Nat) (bs : List Byte) (p : Nat → Bool) (t : Bool) :
    Reached s (s.cacheStore k pa bs p t) k := by
  unfold State.cacheStore
  simp only
  refine (reached_fill s k pa).trans ?_
  split
  · exact (reached_countMarks _ k _ _).trans (reached_setCore rfl)
  · exact reached_setCore rfl

/-- Writes counted as read change no more. -/
theorem reached_observe (s : State) (k : Nat) (l : List Nat) : Reached s (s.observe k l) k := reached_setCore rfl

/-- The read of an atomic changes no more. -/
theorem reached_readLatest (s : State) (k pa n : Nat) (acq : Bool) : Reached s (s.readLatest k pa n acq) k := by
  unfold State.readLatest
  refine (reached_setMem s k (s.mem.acquire (s.mem.latestIds pa n) (.core k))).trans ?_
  simp only
  split
  · exact (reached_setMem _ k _).trans (reached_observe _ k _)
  · exact reached_observe _ k _

/-- An atomic changes no more. -/
theorem reached_atomic (s : State) (k : Nat) (e : BufEntry) (r : Option SymRef) (f : Nat → Option Nat) :
    Reached s (s.atomic k e r f) k := by
  unfold State.atomic
  refine (((reached_before s k (s.visOf k e)).trans (reached_checked _ k e.pa e.size)).trans
    (reached_readLatest _ k e.pa e.size e.acquire)).trans ?_
  simp only
  split
  · exact (reached_count _ k _ _).trans (reached_arrive _ k _ _ _ _)
  · split
    · exact (reached_writeMem _ k _ _ _ _ _).trans (reached_arrive _ k _ _ _ _)
    · exact reached_arrive _ k _ _ _ _

/-- The last reductions noted changes no more. -/
theorem reached_lastRwr (s : State) (k : Nat) (m) : Reached s { s with lastRwr := m } k := ⟨rfl, fun _ _ => rfl, rfl⟩

/-- A remote reduction changes no more. -/
theorem reached_reduce (s : State) (k : Nat) (e : BufEntry) (op : RedOp) (t : Ty) (y : Nat) :
    Reached s (s.reduce k e op t y) k := by
  unfold State.reduce
  refine ((reached_before s k (s.visOf k e)).trans (reached_checked _ k e.pa e.size)).trans ?_
  simp only
  split
  · exact reached_count _ k _ _
  · exact ((reached_writeMem _ k _ _ _ _ _).trans (reached_lastRwr _ k _)).trans (reached_count _ k _ _)

/-- A buffered access performed changes no more. -/
theorem reached_perform (s : State) (k : Nat) (e : BufEntry) : Reached s (s.perform k e) k := by
  unfold State.perform
  simp only
  refine Reached.trans (t := if e.bypass then s.flush k true fun l => l.base == e.pa / 64 * 64 else s) ?_ ?_
  · split
    · exact reached_flush s k _ _
    · exact .refl _ _
  generalize (if e.bypass then s.flush k true fun l => l.base == e.pa / 64 * 64 else s) = s
  split
  · split
    · exact reached_cacheStore _ _ _ _ _ _
    · exact (reached_before s k _).trans (reached_writeMem _ k _ _ _ _ _)
  · exact reached_atomic _ _ _ _ _
  · exact reached_atomic _ _ _ _ _
  · exact reached_reduce _ _ _ _ _ _

/-- The head of the buffer performed changes no more. -/
theorem reached_performHead (s : State) (k : Nat) : Reached s (s.performHead k) k := by
  unfold State.performHead
  split
  · exact .refl _ _
  · rename_i e rest he
    refine (reached_performLdes s k _).trans (Reached.trans (t := State.setCore (s.performLdes k _) k
      { (s.performLdes k _).core k with buf := rest, ldes := _ }) (reached_setCore rfl) (reached_perform _ k e))

/-- Several heads performed changes no more. -/
theorem reached_performN (k n : Nat) (s : State) : Reached s (State.performN k n s) k := by
  induction n generalizing s with
  | zero => exact .refl _ _
  | succ n ih => exact (reached_performHead s k).trans (ih _)

/-- The buffer drained changes no more. -/
theorem reached_drain (s : State) (k : Nat) : Reached s (s.drain k) k := reached_performN k _ s

/-- The buffer drained past an entry changes no more. -/
theorem reached_drainPast (s : State) (k : Nat) (p : BufEntry → Bool) : Reached s (s.drainPast k p) k := reached_performN k _ s

/-- Every earlier LDE performed changes no more. -/
theorem reached_settleLdes (s : State) (k : Nat) : Reached s (s.settleLdes k) k := by
  unfold State.settleLdes
  simp only
  split
  · exact reached_performLdes s k _
  · exact ((reached_performLdes s k _).trans (reached_performN k _ _)).trans (reached_performLdes _ k _)

/-- Accesses settled changes no more. -/
theorem reached_settleAccesses (s : State) (k : Nat) : Reached s (s.settleAccesses k) k :=
  (reached_settleLdes s k).trans (reached_drain _ k)

/-- A release changes no more. -/
theorem reached_release (s : State) (k : Nat) : Reached s (s.release k).2 k := reached_settleAccesses s k

/-- An access put into the buffer changes no more. -/
theorem reached_enqueue (s : State) (k : Nat) (e : BufEntry) : Reached s (s.enqueue k e) k := by
  unfold State.enqueue
  simp only
  split
  · exact (reached_performHead s k).trans (reached_setCore rfl)
  · exact reached_setCore rfl

/-- A load changes no more. -/
theorem reached_load (s : State) (k pa n : Nat) (c : Bool) : Reached s (s.load k pa n c).2 k := by
  unfold State.load
  simp only
  refine (reached_drainPast s k fun e => e.acquire || e.delays pa n).trans ?_
  generalize s.drainPast k _ = t
  split
  · exact reached_loadAt _ k _ _ _
  · exact .refl _ _

/-- A fence changes no more. -/
theorem reached_fenceTo (s : State) (k sc : Nat) : Reached s (s.fenceTo k sc) k := by
  unfold State.fenceTo
  simp only
  refine (reached_settleAccesses s k).trans ?_
  generalize s.settleAccesses k = t
  refine (reached_setMem t k (t.mem.showAfter (t.priorIds k) (seerOf k sc))).trans ?_
  generalize t.setMem _ = u
  generalize List.foldl _ _ _ = f
  exact reached_setCore rfl

/-- An acquire changes no more. -/
theorem reached_acquire (s : State) (k : Nat) (l : List Nat) : Reached s (s.acquire k l) k := by
  unfold State.acquire
  split
  · exact .refl _ _
  · exact (reached_setMem s k _).trans (reached_setCore rfl)

/-- An acquire at a span changes no more. -/
theorem reached_acquireAt (s : State) (k pa n : Nat) : Reached s (s.acquireAt k pa n) k := reached_acquire s k _

/-- One walk changes no more. -/
theorem reached_walkOnce (s : State) (k : Nat) (v : Viewer) (vf asid va : Nat) (r : List Access) :
    Reached s (s.walkOnce v vf asid va r).2 k := by
  unfold State.walkOnce
  split
  · exact .refl _ _
  · split
    · exact .refl _ _
    · simp only
      split
      · exact reached_mem _ _ _
      · exact .refl _ _

/-- The codes of a walk's entries checked changes no more. -/
theorem reached_checkedFrom (k : Nat) (v : Viewer) (va : Nat) (l : List (Nat × Nat × Bool)) (table : Nat) (s : State) :
    Reached s (State.checkedFrom v va l table s) k := by
  induction l generalizing table s with
  | nil => exact .refl _ _
  | cons x l ih =>
    unfold State.checkedFrom
    simp only
    split
    · exact reached_checked _ _ _ _
    · exact (reached_checked _ k _ _).trans (ih _ _)

/-- The codes of a walk checked changes no more. -/
theorem reached_checkedWalk (s : State) (k : Nat) (v : Viewer) (vf asid va : Nat) : Reached s (s.checkedWalk v vf asid va) k := by
  unfold State.checkedWalk
  split
  · exact .refl _ _
  · exact (reached_checked s k _ _).trans (reached_checkedFrom k v va _ _ _)

/-- Walks change no more. -/
theorem reached_walks (k : Nat) (v : Viewer) (vf asid va : Nat) (r : List Access) (n : Nat) (s : State) :
    Reached s (State.walks v vf asid va r n s).2 k := by
  induction n generalizing s with
  | zero => exact (reached_checkedWalk s k v vf asid va).trans (reached_walkOnce _ k v vf asid va r)
  | succ n ih =>
    unfold State.walks
    refine (reached_checkedWalk s k v vf asid va).trans ?_
    generalize s.checkedWalk v vf asid va = t
    simp only
    split
    · exact reached_walkOnce t k v vf asid va r
    · exact (reached_mem t k _).trans (ih _)

/-- A translation by a walk changes no more. -/
theorem reached_walkTo (s : State) (k : Nat) (v : Viewer) (vf asid va : Nat) (r : List Access) :
    Reached s (s.walkTo v vf asid va r).2 k := by
  unfold State.walkTo
  split
  · exact .refl _ _
  · exact reached_walks k v vf asid va r _ s

/-- A translation changes no more. -/
theorem reached_translate (s : State) (k va : Nat) (r : List Access) : Reached s (s.translate k va r).2 k := by
  unfold State.translate State.engineTo
  split
  · exact .refl _ _
  · split
    · exact .refl _ _
    · have h := reached_walkTo s k (.core k) (s.core k).vfid (s.core k).asid va r
      split
      · rename_i he; rw [he] at h; exact h
      · rename_i he; rw [he] at h; exact h.trans (reached_setCore rfl)

/-- A fetch within a line changes no more. -/
theorem reached_fetchAt (s : State) (k pa n : Nat) : Reached s (s.fetchAt k pa n).2 k := by
  unfold State.fetchAt
  simp only
  refine (reached_checked s k (pa / 64 * 64) 64).trans ?_
  generalize s.checked (pa / 64 * 64) 64 = t
  split
  · split
    · exact reached_setCore rfl
    · exact (reached_draw t k 1).trans (reached_setCore rfl)
  · split
    · exact .refl _ _
    · split
      · exact reached_draw _ _ _
      · exact (reached_draw t k 1).trans (reached_setCore rfl)

/-- A fetch changes no more. -/
theorem reached_fetch (s : State) (k va n : Nat) : Reached s (s.fetch k va n).2 k := by
  unfold State.fetch
  have h := reached_translate s k va [.execute]
  split
  · rename_i he; rw [he] at h; exact h
  · rename_i he; rw [he] at h
    simp only
    split <;> exact h.trans (reached_fetchAt _ k _ _)

/-- An instruction's fetch changes no more. -/
theorem reached_fetchInstr (s : State) (k va : Nat) : Reached s (s.fetchInstr k va).2 k := by
  unfold State.fetchInstr
  have h := reached_fetch s k va 2
  split
  · rename_i he; rw [he] at h; exact h
  · rename_i he; rw [he] at h
    split
    · exact h
    · have g := reached_fetch (s.fetch k va 2).2 k (va + 2) 2
      rw [he] at g
      split
      · rename_i hf; rw [hf] at g; exact h.trans g
      · rename_i hf; rw [hf] at g; exact h.trans g

end Sys2Proof.Machine
end

