-- ==== Sys2Proof/Laws/Look.lean ====
section
/-! SUPPORT. What the operations that reach memory do with the store buffer and the pending LDEs, and how the registers
come through them. -/
namespace Sys2Proof.Machine

/-- A property of a changed core from the same of the core before: what reaching memory changes aside. -/
theorem Core.SameButMemory.get {α : Type} (F : Core → α) {c d : Core} (h : c.SameButMemory d) : F { d with
    buf := c.buf
    ldes := c.ldes
    dcache := c.dcache
    icache := c.icache
    tlb := c.tlb
    obs := c.obs
    atomicObs := c.atomicObs
    fenced := c.fenced } = F c := congrArg F h

/-- The same for the state. -/
theorem Reached.get {α : Type} (F : State → α) {s t : State} {k : Nat} (h : Reached s t k) : F { t with
    cores := s.cores
    mem := s.mem
    arrivals := s.arrivals
    lastRwr := s.lastRwr
    sc := { t.sc with counters := s.sc.counters, log := s.sc.log }
    fresh := s.fresh } = F s := congrArg F h.1

/-- Whose turn it is stays. -/
theorem Reached.cur {s t : State} {k : Nat} (h : Reached s t k) : t.cur = s.cur := h.get State.cur

/-- The core whose turn it is. -/
theorem Reached.me {s t : State} (h : Reached s t s.cur) : s.me.SameButMemory t.me := by
  unfold State.me
  rw [h.cur]
  exact h.2.2

/-- A g register stays. -/
theorem Core.SameButMemory.readG {c d : Core} (h : c.SameButMemory d) (r : GReg) : d.readG r = c.readG r := by
  unfold Core.readG
  rw [show d.g = c.g from h.get Core.g]

/-- An f register stays. -/
theorem Core.SameButMemory.readF {c d : Core} (h : c.SameButMemory d) (w : Bool) (r : FReg) : d.readF w r = c.readF w r := by
  unfold Core.readF
  rw [show d.f = c.f from h.get Core.f]

/-- A vector register stays. -/
theorem Core.SameButMemory.readV {c d : Core} (h : c.SameButMemory d) (r : VecReg) : d.readV r = c.readV r := by
  unfold Core.readV
  rw [show d.v = c.v from h.get Core.v]

/-- Every register stays. -/
theorem Core.SameButMemory.keepsRegs {c d : Core} (h : c.SameButMemory d) (l : List RegName) : c.KeepsRegs d l :=
  ⟨fun r _ => h.readG r, fun r w _ => h.readF w r, fun r _ => h.readV r, h.get Core.special⟩

/-- State t is state s but for what core k's looking at memory changes: the store buffer and the pending LDEs stay. -/
def Looked (s t : State) (k : Nat) : Prop :=
  Reached s t k ∧ (t.core k).buf = (s.core k).buf ∧ (t.core k).ldes = (s.core k).ldes

/-- Nothing has changed. -/
theorem Looked.refl (s : State) (k : Nat) : Looked s s k := ⟨.refl s k, rfl, rfl⟩

/-- One after the other. -/
theorem Looked.trans {s t u : State} {k : Nat} (h : Looked s t k) (g : Looked t u k) : Looked s u k :=
  ⟨h.1.trans g.1, g.2.1.trans h.2.1, g.2.2.trans h.2.2⟩

/-- A list of them. -/
theorem Looked.foldl {α : Type} {k : Nat} (f : State → α → State) (hf : ∀ s a, Looked s (f s a) k) (l : List α) (s : State) :
    Looked s (l.foldl f s) k := by
  induction l generalizing s with
  | nil => exact .refl s k
  | cons a l ih => exact (hf s a).trans (ih _)

/-- A step that leaves the cores alone. -/
theorem looked_of {s t : State} {k : Nat} (h : Reached s t k) (hc : t.cores = s.cores) : Looked s t k := by
  have e : t.core k = s.core k := by unfold State.core; rw [hc]
  exact ⟨h, by rw [e], by rw [e]⟩

/-- A core replaced by one that differs so. -/
theorem looked_setCore {s : State} {k : Nat} {c : Core} (h : (s.core k).SameButMemory c) (hb : c.buf = (s.core k).buf)
    (hl : c.ldes = (s.core k).ldes) : Looked s (s.setCore k c) k := ⟨reached_setCore h, by simp [hb], by simp [hl]⟩

/-- An event counted. -/
theorem looked_count (s : State) (k : Nat) (c : Counter) (n : Nat) : Looked s (s.count c n) k :=
  looked_of (reached_count s k c n) (by unfold State.count; split <;> rfl)

/-- Memory replaced. -/
theorem looked_setMem (s : State) (k : Nat) (m : Memory) : Looked s (s.setMem m) k := looked_of (reached_setMem s k m) rfl

/-- A word marked. -/
theorem looked_markWord (s : State) (k w : Nat) : Looked s (s.markWord w) k :=
  looked_of (reached_markWord s k w) (by
    unfold State.markWord State.note State.count
    split
    · rfl
    · simp)

/-- A word's code checked. -/
theorem looked_checkWord (k : Nat) (s : State) (w : Nat) : Looked s (s.checkWord w) k := by
  unfold State.checkWord
  split
  · exact .refl _ _
  · simp only
    split
    · exact (looked_setMem s k _).trans (looked_count _ k _ _)
    · exact (looked_setMem s k _).trans (looked_markWord _ k _)

/-- The codes of a span checked. -/
theorem looked_checked (s : State) (k pa n : Nat) : Looked s (s.checked pa n) k := by
  unfold State.checked
  split
  · exact .refl _ _
  · exact .foldl _ (looked_checkWord k) _ s

/-- The words of a merge read. -/
theorem looked_merged (s : State) (k pa n : Nat) : Looked s (s.merged pa n) k := by
  unfold State.merged
  split
  · exact .refl _ _
  · exact .foldl _ (looked_checkWord k) _ s

/-- The counts of a write. -/
theorem looked_countMarks (s : State) (k pa : Nat) (ev : Nat × Nat × Nat) : Looked s (s.countMarks pa ev) k :=
  ((looked_count s k _ _).trans (looked_count _ k _ _)).trans (looked_count _ k _ _)

/-- A late value sent. -/
theorem looked_arrive (s : State) (k j : Nat) (r : Option SymRef) (x : Reg) (l : List Nat) : Looked s (s.arrive j r x l) k :=
  looked_of (reached_arrive s k j r x l) (by unfold State.arrive; split <;> rfl)

/-- Lines written back leave the cores alone. -/
theorem cores_writeLines (k : Nat) (l : List Line) (s : State) : (l.foldl (fun t l => t.writeLine k l) s).cores = s.cores := by
  induction l generalizing s with
  | nil => rfl
  | cons a l ih =>
    rw [List.foldl_cons, ih]
    unfold State.writeLine
    split <;> rfl

/-- A flush. -/
theorem looked_flush (s : State) (k : Nat) (d : Bool) (p : Line → Bool) : Looked s (s.flush k d p) k :=
  ⟨reached_flush s k d p, by simp [State.flush], by simp [State.flush]⟩

/-- Free values drawn. -/
theorem looked_draw (s : State) (k n : Nat) : Looked s (s.draw n) k := looked_of (reached_draw s k n) rfl

/-- A line brought in. -/
theorem looked_fill (s : State) (k pa : Nat) : Looked s (s.fill k pa) k := by
  unfold State.fill
  split
  · exact .refl _ _
  · simp only
    refine (looked_checked s k (pa / 64 * 64) 64).trans ?_
    generalize s.checked (pa / 64 * 64) 64 = t
    split
    · exact looked_setCore rfl rfl rfl
    · refine (looked_draw t k 1).trans ?_
      split
      · exact (looked_flush _ k _ _).trans (looked_setCore rfl rfl rfl)
      · exact looked_setCore rfl rfl rfl

/-- A read of memory or the cache. -/
theorem looked_loadAt (s : State) (k pa n : Nat) (c : Bool) : Looked s (s.loadAt k pa n c).2 k := by
  unfold State.loadAt
  split
  · simp only
    split <;> exact looked_fill s k pa
  · exact (looked_checked s k pa n).trans (looked_setCore rfl rfl rfl)

/-- A poison load counted. -/
theorem looked_countPoison (s : State) (k pa : Nat) (x : Loaded) : Looked s (s.countPoison pa x) k := by
  unfold State.countPoison
  split
  · exact looked_count _ _ _ _
  · exact .refl _ _

/-- An LDE performed. -/
theorem looked_performLde (s : State) (k : Nat) (e : Lde) : Looked s (s.performLde k e) k :=
  ((looked_loadAt s k _ _ _).trans (looked_countPoison _ k _ _)).trans (looked_arrive _ k _ _ _ _)

/-- What a release follows. -/
theorem looked_before (s : State) (k : Nat) (v : Visibility) : Looked s (s.before v) k := looked_setMem s k _

/-- Bytes written. -/
theorem looked_writeMem (s : State) (k : Nat) (v : Visibility) (pa : Nat) (bs : List Byte) (p : Nat → Bool) (t : Bool) :
    Looked s (s.writeMem v pa bs p t) k :=
  ((looked_merged s k pa bs.length).trans (looked_setMem _ k _)).trans (looked_countMarks _ k _ _)

/-- A store to the cache. -/
theorem looked_cacheStore (s : State) (k pa : Nat) (bs : List Byte) (p : Nat → Bool) (t : Bool) :
    Looked s (s.cacheStore k pa bs p t) k := by
  unfold State.cacheStore
  simp only
  refine (looked_fill s k pa).trans ?_
  split
  · exact (looked_countMarks _ k _ _).trans (looked_setCore rfl rfl rfl)
  · exact looked_setCore rfl rfl rfl

/-- Writes counted as read. -/
theorem looked_observe (s : State) (k : Nat) (l : List Nat) : Looked s (s.observe k l) k := looked_setCore rfl rfl rfl

/-- The read of an atomic. -/
theorem looked_readLatest (s : State) (k pa n : Nat) (acq : Bool) : Looked s (s.readLatest k pa n acq) k := by
  unfold State.readLatest
  refine (looked_setMem s k (s.mem.acquire (s.mem.latestIds pa n) (.core k))).trans ?_
  simp only
  split
  · exact (looked_setMem _ k _).trans (looked_observe _ k _)
  · exact looked_observe _ k _

/-- An atomic. -/
theorem looked_atomic (s : State) (k : Nat) (e : BufEntry) (r : Option SymRef) (f : Nat → Option Nat) :
    Looked s (s.atomic k e r f) k := by
  unfold State.atomic
  refine (((looked_before s k (s.visOf k e)).trans (looked_checked _ k e.pa e.size)).trans
    (looked_readLatest _ k e.pa e.size e.acquire)).trans ?_
  simp only
  split
  · exact (looked_count _ k _ _).trans (looked_arrive _ k _ _ _ _)
  · split
    · exact (looked_writeMem _ k _ _ _ _ _).trans (looked_arrive _ k _ _ _ _)
    · exact looked_arrive _ k _ _ _ _

/-- The last reductions noted. -/
theorem looked_lastRwr (s : State) (k : Nat) (m : Map (RedOp × Ty)) : Looked s { s with lastRwr := m } k :=
  looked_of (reached_lastRwr s k m) rfl

/-- A remote reduction. -/
theorem looked_reduce (s : State) (k : Nat) (e : BufEntry) (op : RedOp) (t : Ty) (y : Nat) :
    Looked s (s.reduce k e op t y) k := by
  unfold State.reduce
  refine ((looked_before s k (s.visOf k e)).trans (looked_checked _ k e.pa e.size)).trans ?_
  simp only
  split
  · exact looked_count _ k _ _
  · exact ((looked_writeMem _ k _ _ _ _ _).trans (looked_lastRwr _ k _)).trans (looked_count _ k _ _)

/-- A buffered access performed. -/
theorem looked_perform (s : State) (k : Nat) (e : BufEntry) : Looked s (s.perform k e) k := by
  unfold State.perform
  simp only
  refine Looked.trans (t := if e.bypass then s.flush k true fun l => l.base == e.pa / 64 * 64 else s) ?_ ?_
  · split
    · exact looked_flush s k _ _
    · exact .refl _ _
  generalize (if e.bypass then s.flush k true fun l => l.base == e.pa / 64 * 64 else s) = s
  split
  · split
    · exact looked_cacheStore _ _ _ _ _ _
    · exact (looked_before s k _).trans (looked_writeMem _ k _ _ _ _ _)
  · exact looked_atomic _ _ _ _ _
  · exact looked_atomic _ _ _ _ _
  · exact looked_reduce _ _ _ _ _ _

/-- The LDEs that meet the condition are no longer pending; the buffer stays. -/
theorem performLdes_core (s : State) (k : Nat) (p : Lde → Bool) :
    ((s.performLdes k p).core k).ldes = (s.core k).ldes.filter (fun e => !p e) ∧
      ((s.performLdes k p).core k).buf = (s.core k).buf := by
  have h := Looked.foldl (k := k) (fun t e => t.performLde k e) (fun s e => looked_performLde s k e) ((s.core k).ldes.filter p)
    (s.setCore k { s.core k with ldes := (s.core k).ldes.filter fun e => !p e })
  unfold State.performLdes
  exact ⟨h.2.2.trans (by simp), h.2.1.trans (by simp)⟩

/-- An LDE is one of a list, but for how many entries of the buffer it waits for. -/
def Lde.among (e : Lde) (l : List Lde) : Prop := ∃ f ∈ l, ∃ n, e = { f with behind := n }

/-- The head leaves the buffer. -/
theorem performHead_core (s : State) (k : Nat) :
    ((s.performHead k).core k).buf = (s.core k).buf.tail ∧
      ∀ e ∈ ((s.performHead k).core k).ldes, e.among (s.core k).ldes := by
  unfold State.performHead
  split
  · rename_i h
    exact ⟨by simp [h], fun e he => ⟨e, he, e.behind, rfl⟩⟩
  · rename_i e rest he
    simp only [he, List.tail_cons]
    generalize (fun l : Lde => l.behind == 0 && decide (e.pa < l.pa + tyBytes l.ty) && decide (l.pa < e.pa + e.size)) = p
    obtain ⟨h1, h2⟩ := performLdes_core s k p
    have h := looked_perform ((s.performLdes k p).setCore k { (s.performLdes k p).core k with
      buf := rest
      ldes := ((s.performLdes k p).core k).ldes.map fun l => { l with behind := l.behind - 1 } }) k e
    refine ⟨h.2.1.trans (by simp), fun x hx => ?_⟩
    rw [h.2.2] at hx
    simp only [State.core_setCore_same, h1] at hx
    obtain ⟨y, hy, rfl⟩ := List.mem_map.1 hx
    exact ⟨y, (List.mem_filter.1 hy).1, _, rfl⟩

/-- Several heads leave the buffer. -/
theorem performN_core (k n : Nat) (s : State) :
    ((State.performN k n s).core k).buf = (s.core k).buf.drop n ∧
      ∀ e ∈ ((State.performN k n s).core k).ldes, e.among (s.core k).ldes := by
  induction n generalizing s with
  | zero => exact ⟨by simp [State.performN], fun e he => ⟨e, he, e.behind, rfl⟩⟩
  | succ n ih =>
    obtain ⟨h1, h2⟩ := performHead_core s k
    obtain ⟨h3, h4⟩ := ih (s.performHead k)
    refine ⟨?_, fun e he => ?_⟩
    · rw [State.performN, h3, h1, List.drop_tail]
    · obtain ⟨f, hf, n, rfl⟩ := h4 e he
      obtain ⟨g, hg, m, rfl⟩ := h2 f hf
      exact ⟨g, hg, n, rfl⟩

/-- A drained buffer is empty. -/
theorem drain_core (s : State) (k : Nat) :
    ((s.drain k).core k).buf = [] ∧ ∀ e ∈ ((s.drain k).core k).ldes, e.among (s.core k).ldes := by
  unfold State.drain
  obtain ⟨h1, h2⟩ := performN_core k (s.core k).buf.length s
  exact ⟨by simp [h1], h2⟩

/-- Every earlier LDE performed: none is pending. -/
theorem settleLdes_core (s : State) (k : Nat) : ((s.settleLdes k).core k).ldes = [] := by
  unfold State.settleLdes
  simp only
  split
  · rename_i h; exact List.isEmpty_iff.1 h
  · rw [(performLdes_core _ k _).1]
    simp

/-- Settled accesses leave nothing pending. -/
theorem settleAccesses_core (s : State) (k : Nat) :
    ((s.settleAccesses k).core k).buf = [] ∧ ((s.settleAccesses k).core k).ldes = [] := by
  unfold State.settleAccesses
  obtain ⟨h1, h2⟩ := drain_core (s.settleLdes k) k
  refine ⟨h1, List.eq_nil_iff_forall_not_mem.2 fun e he => ?_⟩
  obtain ⟨f, hf, _⟩ := h2 e he
  rw [settleLdes_core] at hf
  exact absurd hf (by simp)

end Sys2Proof.Machine
end

