-- ==== Sys2Proof/Laws/Fault.lean ====
section
/-! SUPPORT. What the end of an activation and the taking of a fault do. -/
namespace Sys2Proof.Machine

/-- The core whose activation leaves it: only the mark of a migration differs from `Core.leave`. -/
theorem State.core_leave (s : State) (k : Nat) :
    (s.leave k).core k = { (s.core k).leave with busyFor := ((s.leave k).core k).busyFor } := by
  have hm : ∀ (m : Map Core) (f : Nat × Core → Core) (i : Nat),
      mget (m.map fun x => (x.1, f x)) i = (mget m i).map fun c => f (i, c) := by
    intro m f i
    induction m with
    | nil => rfl
    | cons x m ih =>
      obtain ⟨j, c⟩ := x
      simp only [List.map_cons, mget]
      split
      · rename_i h
        subst h
        rfl
      · split <;> simp [ih]
  have hcs : ∃ base : Option Nat, (s.leave k).cores =
      (mput s.cores k (s.core k).leave).map fun x => (x.1, if base = some x.1 then { x.2 with busyFor := none } else x.2) :=
    ⟨(s.core k).act.bind (·.left), rfl⟩
  obtain ⟨base, hcs⟩ := hcs
  have hc : (s.leave k).core k =
      if base = some k then { (s.core k).leave with busyFor := none } else (s.core k).leave := by
    rw [State.core, hcs, hm _ (fun x => if base = some x.1 then { x.2 with busyFor := none } else x.2), mget_mput_same]
    rfl
  rw [hc]
  split <;> rfl

/-- The g registers of a core that its activation leaves. -/
theorem Core.leave_g (c : Core) : c.leave.g = c.g.map dropSyms := by
  unfold Core.leave Core.freePinned Core.dropAllSyms
  dsimp only
  split <;> rfl

/-- The special registers of a core that its activation leaves. -/
theorem Core.leave_special (c : Core) : c.leave.special = c.special := by
  unfold Core.leave Core.freePinned Core.dropAllSyms
  dsimp only
  split <;> rfl

/-- Taking a fault, step by step: FCAUSE and FADDR, the release, the activation's end, its message and its unit's count. -/
theorem State.faultAt_eq {s : State} {k : Nat} {a : Act} (ha : (s.core k).act = some a) (cause detail : Nat) (faddr : Word)
    (code : Nat) :
    s.faultAt k cause detail faddr code =
      let r := (s.setCore k ((s.core k).caused cause detail faddr)).release k
      ((r.2.leave k).faultMessage a.launch k (s.faultWords k a cause detail (addr48 faddr) code) r.1).endUnit a .faulted r.1 := by
  unfold State.faultAt
  rw [ha]

end Sys2Proof.Machine
end

