-- ==== Sys2Proof/Laws/Memory.lean ====
section
/-! SUPPORT. Memory keeps its canonical form under every operation, and reads what was written. -/
namespace Sys2Proof.Machine

/-! ## Bytes -/

/-- A looser lower end is met as well. -/
theorem cellsWf_none {lo : Option Nat} {l : List Host.Cell} (h : cellsWf lo l = true) : cellsWf none l = true := by
  cases l with
  | nil => rfl
  | cons p rest => simp_all [cellsWf]

/-- Where the lower end is met. -/
theorem cellsWf_cons {lo : Option Nat} {k : Nat} {v : Byte} {rest : List Host.Cell} :
    cellsWf lo ((k, v) :: rest) = true ↔ (∀ l, lo = some l → l < k) ∧ v ≠ unlisted ∧ cellsWf (some k) rest = true := by
  cases lo <;> simp [cellsWf, and_assoc]

/-- A lower end that lies lower is met as well. -/
theorem cellsWf_lower {lo hi : Nat} {l : List Host.Cell} (h : cellsWf (some hi) l = true) (hl : lo ≤ hi) :
    cellsWf (some lo) l = true := by
  cases l with
  | nil => rfl
  | cons p rest =>
    obtain ⟨k, v⟩ := p
    rw [cellsWf_cons] at *
    refine ⟨fun x hx => ?_, h.2⟩
    have := h.1 hi rfl
    simp only [Option.some.injEq] at hx
    omega

/-- An address at or below the lower end is not listed. -/
theorem cellGet_below {lo a : Nat} {l : List Host.Cell} (h : cellsWf (some lo) l = true) (ha : a ≤ lo) :
    cellGet l a = unlisted := by
  cases l with
  | nil => rfl
  | cons p rest =>
    obtain ⟨k, v⟩ := p
    rw [cellsWf_cons] at h
    have := h.1 lo rfl
    have h1 : a ≠ k := by omega
    have h2 : a < k := by omega
    simp [cellGet, h1, h2]

/-- One byte written keeps the form. -/
theorem cellsWf_cellPut {lo : Option Nat} {l : List Host.Cell} {a : Nat} (x : Byte) (h : cellsWf lo l = true)
    (ha : ∀ b, lo = some b → b < a) : cellsWf lo (cellPut l a x) = true := by
  induction l generalizing lo with
  | nil =>
    simp only [cellPut]
    split
    · rfl
    · rw [cellsWf_cons]; exact ⟨ha, ‹_›, rfl⟩
  | cons p rest ih =>
    obtain ⟨k, v⟩ := p
    rw [cellsWf_cons] at h
    obtain ⟨h1, h2, h3⟩ := h
    simp only [cellPut]
    split
    · subst_vars
      split
      · cases lo with
        | none => exact cellsWf_none h3
        | some b => exact cellsWf_lower h3 (Nat.le_of_lt (h1 b rfl))
      · exact cellsWf_cons.2 ⟨h1, ‹_›, h3⟩
    · split
      · split
        · exact cellsWf_cons.2 ⟨h1, h2, h3⟩
        · refine cellsWf_cons.2 ⟨ha, ‹_›, cellsWf_cons.2 ⟨fun b hb => ?_, h2, h3⟩⟩
          simp only [Option.some.injEq] at hb
          omega
      · refine cellsWf_cons.2 ⟨h1, h2, ih h3 fun b hb => ?_⟩
        simp only [Option.some.injEq] at hb
        omega

/-- The byte written is read. -/
theorem cellGet_cellPut_same {lo : Option Nat} {l : List Host.Cell} (a : Nat) (x : Byte) (h : cellsWf lo l = true) :
    cellGet (cellPut l a x) a = x := by
  induction l generalizing lo with
  | nil => simp only [cellPut]; split <;> simp_all [cellGet]
  | cons p rest ih =>
    obtain ⟨k, v⟩ := p
    rw [cellsWf_cons] at h
    obtain ⟨h1, h2, h3⟩ := h
    simp only [cellPut]
    split
    · subst_vars
      split
      · rw [cellGet_below h3 (Nat.le_refl _)]; exact (‹x = unlisted›).symm
      · simp [cellGet]
    · split
      · split
        · simp_all [cellGet]
        · simp [cellGet]
      · rename_i hk hl
        simp only [cellGet, hk, hl, if_false]
        exact ih h3

/-- Every other byte is read as before. -/
theorem cellGet_cellPut_other {lo : Option Nat} {l : List Host.Cell} {a b : Nat} (x : Byte) (h : cellsWf lo l = true)
    (hb : b ≠ a) : cellGet (cellPut l a x) b = cellGet l b := by
  induction l generalizing lo with
  | nil => simp only [cellPut]; split <;> simp [cellGet, hb]
  | cons p rest ih =>
    obtain ⟨k, v⟩ := p
    rw [cellsWf_cons] at h
    obtain ⟨h1, h2, h3⟩ := h
    simp only [cellPut]
    split
    · subst_vars
      split
      · simp only [cellGet, hb, if_false]
        split
        · exact cellGet_below h3 (by omega)
        · rfl
      · simp [cellGet, hb]
    · split
      · split
        · rfl
        · simp only [cellGet, hb, if_false]
          split
          · have h4 : b ≠ k := by omega
            have h5 : b < k := by omega
            simp [h4, h5]
          · rfl
      · simp only [cellGet]
        split
        · rfl
        · split
          · rfl
          · exact ih h3

/-- A run of bytes written keeps the form. -/
theorem cellsWf_putBytes {l : List Host.Cell} (a : Nat) (bs : List Byte) (h : cellsWf none l = true) :
    cellsWf none (putBytes l a bs) = true := by
  induction bs generalizing l a with
  | nil => exact h
  | cons b rest ih => exact ih (a + 1) (cellsWf_cellPut b h (by simp))

/-- A byte outside a run written is read as before. -/
theorem cellGet_putBytes_out {l : List Host.Cell} {a x : Nat} {bs : List Byte} (h : cellsWf none l = true)
    (hx : x < a ∨ a + bs.length ≤ x) : cellGet (putBytes l a bs) x = cellGet l x := by
  induction bs generalizing l a with
  | nil => rfl
  | cons b rest ih =>
    simp only [List.length_cons] at hx
    rw [putBytes, ih (cellsWf_cellPut b h (by simp)) (by omega), cellGet_cellPut_other b h (by omega)]

/-- A byte of a run written is read. -/
theorem cellGet_putBytes_in {l : List Host.Cell} {a j : Nat} {bs : List Byte} (h : cellsWf none l = true)
    (hj : j < bs.length) : cellGet (putBytes l a bs) (a + j) = bs[j] := by
  induction bs generalizing l a j with
  | nil => simp at hj
  | cons b rest ih =>
    have hw := cellsWf_cellPut (a := a) b h (by simp)
    cases j with
    | zero =>
      rw [putBytes, cellGet_putBytes_out hw (by omega), Nat.add_zero, cellGet_cellPut_same a b h]
      rfl
    | succ j =>
      have := ih (a := a + 1) hw (j := j) (by simpa using hj)
      rw [putBytes, show a + (j + 1) = a + 1 + j by omega, this]
      rfl

/-! ## Sets of numbers, and tables -/

/-- Where the lower end is met. -/
theorem rising_cons {lo : Option Nat} {k : Nat} {rest : List Nat} :
    rising lo (k :: rest) = true ↔ (∀ l, lo = some l → l < k) ∧ rising (some k) rest = true := by
  cases lo <;> simp [rising]

/-- A lower end that lies lower is met as well. -/
theorem rising_lower {lo : Option Nat} {hi : Nat} {l : List Nat} (h : rising (some hi) l = true) (hl : ∀ b, lo = some b → b ≤ hi) :
    rising lo l = true := by
  cases l with
  | nil => rfl
  | cons k rest =>
    rw [rising_cons] at *
    refine ⟨fun x hx => ?_, h.2⟩
    have h1 := h.1 hi rfl
    have h2 := hl x hx
    omega

/-- A number put in keeps the numbers rising. -/
theorem rising_setIn {lo : Option Nat} {l : List Nat} {i : Nat} (h : rising lo l = true) (hi : ∀ b, lo = some b → b < i) :
    rising lo (setIn l i) = true := by
  induction l generalizing lo with
  | nil => exact rising_cons.2 ⟨hi, rfl⟩
  | cons k rest ih =>
    obtain ⟨h1, h2⟩ := rising_cons.1 h
    simp only [setIn]
    split
    · exact h
    · split
      · refine rising_cons.2 ⟨hi, rising_cons.2 ⟨fun b hb => ?_, h2⟩⟩
        simp only [Option.some.injEq] at hb
        omega
      · refine rising_cons.2 ⟨h1, ih h2 fun b hb => ?_⟩
        simp only [Option.some.injEq] at hb
        omega

/-- A number taken out keeps them rising. -/
theorem rising_setOut {lo : Option Nat} {l : List Nat} (i : Nat) (h : rising lo l = true) : rising lo (setOut l i) = true := by
  induction l generalizing lo with
  | nil => rfl
  | cons k rest ih =>
    obtain ⟨h1, h2⟩ := rising_cons.1 h
    simp only [setOut]
    split
    · exact rising_lower h2 fun b hb => Nat.le_of_lt (h1 b hb)
    · split
      · exact h
      · exact rising_cons.2 ⟨h1, ih h2⟩

/-- An entry put into a table keeps its numbers rising. -/
theorem rising_mput {α : Type} {lo : Option Nat} {l : Map α} {i : Nat} (x : α) (h : rising lo (l.map Prod.fst) = true)
    (hi : ∀ b, lo = some b → b < i) : rising lo ((mput l i x).map Prod.fst) = true := by
  induction l generalizing lo with
  | nil => exact rising_cons.2 ⟨hi, rfl⟩
  | cons p rest ih =>
    obtain ⟨k, v⟩ := p
    rw [List.map_cons] at h
    obtain ⟨h1, h2⟩ := rising_cons.1 h
    simp only [mput]
    split
    · subst_vars; exact rising_cons.2 ⟨h1, h2⟩
    · split
      · refine rising_cons.2 ⟨hi, rising_cons.2 ⟨fun b hb => ?_, h2⟩⟩
        simp only [Option.some.injEq] at hb
        omega
      · refine rising_cons.2 ⟨h1, ih h2 fun b hb => ?_⟩
        simp only [Option.some.injEq] at hb
        omega

/-- An entry taken out keeps them rising. -/
theorem rising_mdel {α : Type} {lo : Option Nat} {l : Map α} (i : Nat) (h : rising lo (l.map Prod.fst) = true) :
    rising lo ((mdel l i).map Prod.fst) = true := by
  induction l generalizing lo with
  | nil => rfl
  | cons p rest ih =>
    obtain ⟨k, v⟩ := p
    rw [List.map_cons] at h
    obtain ⟨h1, h2⟩ := rising_cons.1 h
    simp only [mdel]
    split
    · exact rising_lower h2 fun b hb => Nat.le_of_lt (h1 b hb)
    · split
      · exact rising_cons.2 ⟨h1, h2⟩
      · exact rising_cons.2 ⟨h1, ih h2⟩

/-- A mark set or cleared. -/
theorem rising_putMark {l : Map Mark} (w : Nat) (k : Option Mark) (h : rising none (l.map Prod.fst) = true) :
    rising none ((putMark l w k).map Prod.fst) = true := by
  cases k with
  | none => exact rising_mdel w h
  | some k => exact rising_mput k h (by simp)

/-- The tags of granules set or cleared. -/
theorem rising_putTags {l : List Nat} (b : Bool) (grs : List Nat) (h : rising none l = true) :
    rising none (putTags l b grs) = true := by
  induction grs generalizing l with
  | nil => exact h
  | cons gr rest ih =>
    rw [putTags]
    refine ih ?_
    split
    · exact rising_setIn h (by simp)
    · exact rising_setOut gr h

/-- The marks after a write. -/
theorem rising_putMarks {l : Map Mark} (a n : Nat) (pois : Nat → Bool) (ws : List Nat)
    (h : rising none (l.map Prod.fst) = true) : rising none ((putMarks a n pois l ws).map Prod.fst) = true := by
  induction ws generalizing l with
  | nil => exact h
  | cons w rest ih => exact ih (rising_putMark w _ h)

/-- The tags of granules set one by one. -/
theorem rising_setTags {l : List Nat} (gr : Nat) (bs : List Bool) (h : rising none l = true) :
    rising none (setTags l gr bs) = true := by
  induction bs generalizing l gr with
  | nil => exact h
  | cons b rest ih =>
    rw [setTags]
    refine ih (gr + 1) ?_
    split
    · exact rising_setIn h (by simp)
    · exact rising_setOut gr h

/-- The marks of words set one by one. -/
theorem rising_setMarks {l : Map Mark} (w : Nat) (ks : List (Option Mark)) (h : rising none (l.map Prod.fst) = true) :
    rising none ((setMarks l w ks).map Prod.fst) = true := by
  induction ks generalizing l w with
  | nil => exact h
  | cons k rest ih => exact ih (w + 1) (rising_putMark w k h)

/-! ## Memory -/

/-- The three parts of the form. -/
theorem Memory.wf_iff {m : Memory} : m.wf = true ↔
    cellsWf none m.cells = true ∧ rising none m.tags = true ∧ rising none (m.marks.map Prod.fst) = true := by
  simp [Memory.wf, and_assoc]

/-- Memory is in its form after reset. -/
theorem Memory.reset_wf : State.reset.mem.wf = true := rfl

/-- The form rests on the bytes, the tags and the marks alone. -/
theorem Memory.wf_congr {m n : Memory} (h : m.wf = true) (hc : n.cells = m.cells) (ht : n.tags = m.tags)
    (hm : n.marks = m.marks) : n.wf = true := by
  simpa [Memory.wf, hc, ht, hm] using h

/-- A write keeps the form. -/
theorem Memory.write_wf {m : Memory} (vis : Visibility) (a : Nat) (bs : List Byte) (pois : Nat → Bool) (tag : Bool)
    (h : m.wf = true) : (m.write vis a bs pois tag).wf = true := by
  obtain ⟨h1, h2, h3⟩ := Memory.wf_iff.1 h
  exact Memory.wf_iff.2 ⟨cellsWf_putBytes a bs h1, rising_putTags _ _ h2, rising_putMarks _ _ _ _ h3⟩

/-- A write of whole granules keeps the form. -/
theorem Memory.writeWhole_wf {m : Memory} (vis : Visibility) (a : Nat) (bs : List Byte) (tags : List Bool)
    (marks : List (Option Mark)) (h : m.wf = true) : (m.writeWhole vis a bs tags marks).wf = true := by
  obtain ⟨h1, h2, h3⟩ := Memory.wf_iff.1 h
  exact Memory.wf_iff.2 ⟨cellsWf_putBytes a bs h1, rising_setTags _ _ h2, rising_setMarks _ _ h3⟩

/-- A plain write keeps the form. -/
theorem Memory.writeData_wf {m : Memory} (vis : Visibility) (a : Nat) (bs : List Byte) (h : m.wf = true) :
    (m.writeData vis a bs).wf = true := Memory.write_wf vis a bs _ _ h

/-- A word that takes a mark keeps the form. -/
theorem Memory.setMark_wf {m : Memory} (w : Nat) (k : Mark) (h : m.wf = true) : (m.setMark w k).wf = true := by
  obtain ⟨h1, h2, h3⟩ := Memory.wf_iff.1 h
  exact Memory.wf_iff.2 ⟨h1, rising_setOut _ h2, rising_mput k h3 (by simp)⟩

/-- Trimming the log leaves the bytes, the tags, the marks and the watches. -/
@[simp] theorem Memory.trim_cells (m : Memory) : m.trim.cells = m.cells := rfl
@[simp] theorem Memory.trim_tags (m : Memory) : m.trim.tags = m.tags := rfl
@[simp] theorem Memory.trim_marks (m : Memory) : m.trim.marks = m.marks := rfl
@[simp] theorem Memory.trim_watches (m : Memory) : m.trim.watches = m.watches := rfl

/-- A search among the entries that a filter keeps, where the filter looks at the place alone. -/
theorem find_filter_place {α : Type} (l : List (Nat × α)) (b : Nat → Bool) (a : Nat) :
    (l.filter fun x => !b x.1).find? (·.1 == a) = if b a then none else l.find? (·.1 == a) := by
  induction l with
  | nil => simp
  | cons x rest ih =>
    by_cases hx : x.1 = a
    · subst hx
      cases hb : b x.1
      · simp [hb]
      · simpa [hb] using ih
    · cases hb : b x.1
      · simpa [hb, hx] using ih
      · simpa [hb, hx] using ih

/-- Writes that an agent has seen may leave the log, if the earlier ones lose their places: it sees what it saw. -/
theorem latestSeen_withoutSettled {α : Type} (v : Viewer) (old : Unseen → Option α) (now : α) (p : Unseen → Bool)
    (less : ∀ e later, old (e.lessLater later) = if later.any fun g => (old g).isSome then none else old e)
    (l : List Unseen) (h : ∀ e ∈ l, p e = true → e.seen v = true) :
    latestSeen v old now (withoutSettled p l) = latestSeen v old now l := by
  let f (e : Unseen) (acc : α × Bool) : α × Bool := if acc.2 then acc else match old e with
    | none => acc
    | some x => if e.seen v then (acc.1, true) else (x, false)
  suffices ((withoutSettled p l).foldr f (now, false)).1 = (l.foldr f (now, false)).1 ∧
      (((withoutSettled p l).foldr f (now, false)).2 = (l.foldr f (now, false)).2 ∨
        (l.foldr f (now, false)).2 = true ∧ ((l.filter p).any fun g => (old g).isSome) = true) ∧
      (((l.filter p).any fun g => (old g).isSome) = true → (l.foldr f (now, false)).2 = true) from this.1
  induction l with
  | nil => simp [withoutSettled]
  | cons e rest ih =>
    obtain ⟨h1, h2, h3⟩ := ih fun x hx => h x (List.mem_cons_of_mem _ hx)
    have hseen : (e.lessLater (rest.filter p)).seen v = e.seen v := rfl
    by_cases hp : p e = true
    · have hs := h e List.mem_cons_self hp
      simp only [withoutSettled, if_pos hp, List.foldr_cons, List.filter_cons_of_pos hp, List.any_cons]
      by_cases hacc : (rest.foldr f (now, false)).2 = true
      · have hf : f e (rest.foldr f (now, false)) = rest.foldr f (now, false) := by simp [f, hacc]
        rw [hf]
        refine ⟨h1, ?_, fun _ => hacc⟩
        rcases h2 with h2 | h2
        · exact .inl h2
        · exact .inr ⟨h2.1, by simp [h2.2]⟩
      · cases ho : old e with
        | none =>
          have hf : f e (rest.foldr f (now, false)) = rest.foldr f (now, false) := by simp [f, ho]
          rw [hf]
          simp only [Option.isSome_none, Bool.false_or]
          exact ⟨h1, h2, h3⟩
        | some x =>
          have hf : f e (rest.foldr f (now, false)) = ((rest.foldr f (now, false)).1, true) := by simp [f, hacc, ho, hs]
          rw [hf]
          exact ⟨h1, .inr ⟨rfl, by simp⟩, fun _ => rfl⟩
    · simp only [withoutSettled, if_neg hp, List.foldr_cons, List.filter_cons_of_neg hp]
      by_cases hany : ((rest.filter p).any fun g => (old g).isSome) = true
      · have hacc := h3 hany
        have hf : f e (rest.foldr f (now, false)) = rest.foldr f (now, false) := by simp [f, hacc]
        have hg : f (e.lessLater (rest.filter p)) ((withoutSettled p rest).foldr f (now, false)) =
            (withoutSettled p rest).foldr f (now, false) := by simp [f, less, hany]
        rw [hf, hg]
        exact ⟨h1, h2, h3⟩
      · have h2' : ((withoutSettled p rest).foldr f (now, false)).2 = (rest.foldr f (now, false)).2 := by
          rcases h2 with h2 | h2
          · exact h2
          · exact absurd h2.2 hany
        have he : (withoutSettled p rest).foldr f (now, false) = rest.foldr f (now, false) := Prod.ext h1 h2'
        have hg : f (e.lessLater (rest.filter p)) ((withoutSettled p rest).foldr f (now, false)) =
            f e (rest.foldr f (now, false)) := by simp only [f, he, less, hseen, if_neg hany]
        rw [hg]
        exact ⟨rfl, .inl rfl, fun h => absurd h hany⟩

/-- A settled write has been seen by every agent. -/
theorem Memory.settled_seen (m : Memory) (e : Unseen) (v : Viewer) (h : m.settled e = true) : e.seen v = true := by
  have : ([] : Audience) ∈ e.seenBy := (by simpa using (Bool.and_eq_true_iff.1 h).1 : _ ∧ _).1
  simp only [Unseen.seen, Bool.or_eq_true, List.any_eq_true]
  exact .inr ⟨[], this, rfl⟩

/-- What stands at a place after a filter that looks at the place alone. -/
theorem snd_find_filter {α : Type} (l : List (Nat × α)) (b : Nat → Bool) (a : Nat) :
    ((l.filter fun x => !b x.1).find? (·.1 == a)).map Prod.snd = if b a then none else (l.find? (·.1 == a)).map Prod.snd := by
  rw [find_filter_place]; split <;> rfl

/-- Trimming the log changes nothing that any agent sees (R356). -/
@[simp] theorem Memory.view_trim (m : Memory) (v : Viewer) (a : Nat) : m.trim.view v a = m.view v a :=
  latestSeen_withoutSettled v _ _ _ (fun e later => snd_find_filter e.bytes (fun x => later.any fun g => (g.oldByte x).isSome) a) _
    fun e _ h => m.settled_seen e v h
@[simp] theorem Memory.viewTag_trim (m : Memory) (v : Viewer) (a : Nat) : m.trim.viewTag v a = m.viewTag v a :=
  latestSeen_withoutSettled v _ _ _ (fun e later => by
    simp only [Option.isSome_map, List.isSome_find?]
    exact snd_find_filter e.tags (fun x => later.any fun g => g.tags.any fun y => y.1 == x) a) _ fun e _ h => m.settled_seen e v h
@[simp] theorem Memory.viewMark_trim (m : Memory) (v : Viewer) (a : Nat) : m.trim.viewMark v a = m.viewMark v a :=
  latestSeen_withoutSettled v _ _ _ (fun e later => by
    simp only [Option.isSome_map, List.isSome_find?]
    exact snd_find_filter e.marks (fun x => later.any fun g => g.marks.any fun y => y.1 == x) a) _ fun e _ h => m.settled_seen e v h

/-- Writes performed as seen leave them too. -/
@[simp] theorem Memory.show_cells (m : Memory) (ids : List Nat) (v : Audience) : (m.show ids v).cells = m.cells := rfl
@[simp] theorem Memory.show_tags (m : Memory) (ids : List Nat) (v : Audience) : (m.show ids v).tags = m.tags := rfl
@[simp] theorem Memory.show_marks (m : Memory) (ids : List Nat) (v : Audience) : (m.show ids v).marks = m.marks := rfl
@[simp] theorem Memory.show_watches (m : Memory) (ids : List Nat) (v : Audience) : (m.show ids v).watches = m.watches := rfl

/-- Whatever `show` keeps, a chain of them keeps. -/
theorem Memory.foldl_show_keeps {α : Type} (f : Memory → α) (hf : ∀ m ids v, f (Memory.show m ids v) = f m) (l : List (Nat × Audience))
    (m : Memory) : f (l.foldl (fun n p => n.show [p.1] p.2) m) = f m := by
  induction l generalizing m with
  | nil => rfl
  | cons p rest ih => rw [List.foldl_cons, ih, hf]

/-- Writes performed after those they follow leave them too. -/
@[simp] theorem Memory.showAfter_cells (m : Memory) (ids : List Nat) (v : Audience) : (m.showAfter ids v).cells = m.cells :=
  Memory.foldl_show_keeps _ (by simp) _ m
@[simp] theorem Memory.showAfter_tags (m : Memory) (ids : List Nat) (v : Audience) : (m.showAfter ids v).tags = m.tags :=
  Memory.foldl_show_keeps _ (by simp) _ m
@[simp] theorem Memory.showAfter_marks (m : Memory) (ids : List Nat) (v : Audience) : (m.showAfter ids v).marks = m.marks :=
  Memory.foldl_show_keeps _ (by simp) _ m
@[simp] theorem Memory.showAfter_watches (m : Memory) (ids : List Nat) (v : Audience) : (m.showAfter ids v).watches = m.watches :=
  Memory.foldl_show_keeps _ (by simp) _ m

/-- So they keep the form. -/
theorem Memory.show_wf {m : Memory} (ids : List Nat) (v : Audience) (h : m.wf = true) : (m.show ids v).wf = true :=
  Memory.wf_congr h (by simp) (by simp) (by simp)
theorem Memory.showAfter_wf {m : Memory} (ids : List Nat) (v : Audience) (h : m.wf = true) : (m.showAfter ids v).wf = true :=
  Memory.wf_congr h (by simp) (by simp) (by simp)

/-- An acquire leaves them too. -/
@[simp] theorem Memory.acquire_cells (m : Memory) (ids : List Nat) (v : Viewer) : (m.acquire ids v).cells = m.cells := by
  simp [Memory.acquire]
@[simp] theorem Memory.acquire_tags (m : Memory) (ids : List Nat) (v : Viewer) : (m.acquire ids v).tags = m.tags := by
  simp [Memory.acquire]
@[simp] theorem Memory.acquire_marks (m : Memory) (ids : List Nat) (v : Viewer) : (m.acquire ids v).marks = m.marks := by
  simp [Memory.acquire]

/-- An acquire keeps the form. -/
theorem Memory.acquire_wf {m : Memory} (ids : List Nat) (v : Viewer) (h : m.wf = true) : (m.acquire ids v).wf = true :=
  Memory.showAfter_wf _ _ h

/-- One write performed for one agent keeps the form. -/
theorem Memory.perform_wf {m : Memory} (id : Nat) (v : Viewer) (h : m.wf = true) : (m.perform id v).wf = true := by
  unfold Memory.perform
  split
  · split
    · exact Memory.show_wf _ _ h
    · exact h
  · exact h

/-- A byte outside a write is as before. -/
theorem Memory.byte_write_out {m : Memory} {vis : Visibility} {a x : Nat} {bs : List Byte} {pois : Nat → Bool} {tag : Bool}
    (h : m.wf = true) (hx : x < a ∨ a + bs.length ≤ x) : (m.write vis a bs pois tag).byte x = m.byte x :=
  cellGet_putBytes_out (Memory.wf_iff.1 h).1 hx

/-- A byte of a write is what was written. -/
theorem Memory.byte_write_in {m : Memory} {vis : Visibility} {a j : Nat} {bs : List Byte} {pois : Nat → Bool} {tag : Bool}
    (h : m.wf = true) (hj : j < bs.length) : (m.write vis a bs pois tag).byte (a + j) = bs[j] :=
  cellGet_putBytes_in (Memory.wf_iff.1 h).1 hj

/-- The same for a write of whole granules. -/
theorem Memory.byte_writeWhole_out {m : Memory} {vis : Visibility} {a x : Nat} {bs : List Byte} {tags : List Bool}
    {marks : List (Option Mark)} (h : m.wf = true) (hx : x < a ∨ a + bs.length ≤ x) :
    (m.writeWhole vis a bs tags marks).byte x = m.byte x :=
  cellGet_putBytes_out (Memory.wf_iff.1 h).1 hx

/-- A byte of such a write is what was written. -/
theorem Memory.byte_writeWhole_in {m : Memory} {vis : Visibility} {a j : Nat} {bs : List Byte} {tags : List Bool}
    {marks : List (Option Mark)} (h : m.wf = true) (hj : j < bs.length) :
    (m.writeWhole vis a bs tags marks).byte (a + j) = bs[j] :=
  cellGet_putBytes_in (Memory.wf_iff.1 h).1 hj

/-- As many bytes as asked for. -/
@[simp] theorem leBytes_length (n x : Nat) : (leBytes n x).length = n := by
  induction n generalizing x with
  | zero => rfl
  | succ n ih => simp [leBytes, ih]

/-- The j-th little-endian byte of a number. -/
theorem leBytes_getElem {n x j : Nat} (h : j < (leBytes n x).length) : (leBytes n x)[j] = BitVec.ofNat 8 (x / 256 ^ j) := by
  induction n generalizing x j with
  | zero => simp at h
  | succ n ih =>
    cases j with
    | zero => simp [leBytes]
    | succ j =>
      simp only [leBytes, List.getElem_cons_succ]
      rw [ih, Nat.div_div_eq_div_mul, Nat.pow_succ, Nat.mul_comm]

/-- The bytes of a number give it back, within their count. -/
theorem leNat_leBytes (n x : Nat) : leNat (leBytes n x) = x % 256 ^ n := by
  induction n generalizing x with
  | zero => simp [leNat, leBytes, Nat.mod_one]
  | succ n ih =>
    simp only [leBytes, leNat, ih, BitVec.toNat_ofNat]
    rw [Nat.pow_succ' (m := 256), Nat.mod_mul (a := 256)]

end Sys2Proof.Machine
end

