-- ==== Sys2Proof/Laws/Forms.lean ====
section
/-! SUPPORT. The operations of the machine that write memory otherwise keep its canonical form. -/
namespace Sys2Proof.Machine

/-- Cells taken out keep the form. -/
theorem cellsWf_filter {lo : Option Nat} {l : List Host.Cell} (p : Host.Cell → Bool) (h : cellsWf lo l = true) :
    cellsWf lo (l.filter p) = true := by
  induction l generalizing lo with
  | nil => rfl
  | cons c rest ih =>
    obtain ⟨k, v⟩ := c
    obtain ⟨h1, h2, h3⟩ := cellsWf_cons.1 h
    rw [List.filter_cons]
    split
    · exact cellsWf_cons.2 ⟨h1, h2, ih h3⟩
    · cases lo with
      | none => exact cellsWf_none (ih h3)
      | some b => exact cellsWf_lower (ih h3) (Nat.le_of_lt (h1 b rfl))

/-- Numbers taken out keep the rest rising. -/
theorem rising_filter {lo : Option Nat} {l : List Nat} (p : Nat → Bool) (h : rising lo l = true) :
    rising lo (l.filter p) = true := by
  induction l generalizing lo with
  | nil => rfl
  | cons k rest ih =>
    obtain ⟨h1, h2⟩ := rising_cons.1 h
    rw [List.filter_cons]
    split
    · exact rising_cons.2 ⟨h1, ih h2⟩
    · exact rising_lower (ih h2) fun b hb => Nat.le_of_lt (h1 b hb)

/-- Entries taken out of a table. -/
theorem rising_map_filter {α : Type} {lo : Option Nat} {l : Map α} (p : Nat × α → Bool)
    (h : rising lo (l.map Prod.fst) = true) : rising lo ((l.filter p).map Prod.fst) = true := by
  induction l generalizing lo with
  | nil => rfl
  | cons c rest ih =>
    obtain ⟨h1, h2⟩ := rising_cons.1 h
    rw [List.filter_cons]
    split
    · exact rising_cons.2 ⟨h1, ih h2⟩
    · exact rising_lower (ih h2) fun b hb => Nat.le_of_lt (h1 b hb)

/-- A dome zeroed keeps the form (R57). -/
theorem Memory.zeroDome_wf {m : Memory} (d : Nat) (h : m.wf = true) : (m.zeroDome d).wf = true := by
  obtain ⟨h1, h2, h3⟩ := Memory.wf_iff.1 h
  exact Memory.wf_iff.2 ⟨cellsWf_filter _ h1, rising_filter _ h2, rising_map_filter _ h3⟩

/-- The A and D bits set keep the form (R205). -/
theorem setAD_wf {m : Memory} (v : Viewer) (pte : Nat) (dirty : Bool) (h : m.wf = true) : (setAD m v pte dirty).wf = true :=
  Memory.writeData_wf _ _ _ h

/-- The PTE's byte after A and D are set, and every other byte as before. -/
theorem setAD_byte {m : Memory} (v : Viewer) (pte : Nat) (dirty : Bool) (h : m.wf = true) :
    (setAD m v pte dirty).byte pte = (m.byte pte ||| 0x40 ||| (if dirty then 0x80 else 0)) ∧
      ∀ a, a ≠ pte → (setAD m v pte dirty).byte a = m.byte a := by
  constructor
  · exact Memory.byte_write_in (j := 0) h (by simp)
  · intro a ha
    refine Memory.byte_write_out h ?_
    simp only [List.length_singleton]
    omega

/-- A placed instruction keeps the form. -/
theorem Memory.place_wf {m : Memory} (n w : Nat) (h : m.wf = true) : (m.place n w).wf = true := by
  obtain ⟨h1, h2, h3⟩ := Memory.wf_iff.1 h
  exact Memory.wf_iff.2 ⟨cellsWf_putBytes _ _ (cellsWf_putBytes _ _ (cellsWf_putBytes _ _ h1)), h2, rfl⟩

end Sys2Proof.Machine
end

