-- ==== Sys2Proof/Laws/Ops.lean ====
section
/-! SUPPORT. What the shared operations of the meanings do: issuing, finishing, writing registers. -/
namespace Sys2Proof.Machine

/-! ## Issuing -/

/-- Nothing is acquired where the registers owe nothing (R363). -/
theorem State.acquireOwed_none {s : State} {l : List RegName} (h : ∀ x ∈ s.me.owed, x.1 ∉ l) : s.acquireOwed l = s := by
  have hf : (s.me.owed.filter fun x => l.contains x.1) = [] := by
    rw [List.filter_eq_nil_iff]
    intro x hx
    simpa using h x hx
  unfold State.acquireOwed
  rw [hf]
  rfl

/-- An instruction that issues has its own effect, after every earlier LDE where it is a commit instruction (R225). -/
theorem State.issue_of_issues {s : State} {i : Issue} (h : s.issues i) (body : State → Res) :
    s.issue i body = .next
      ((if i.commit then s.settleLdes s.cur else s).finish i (body (if i.commit then s.settleLdes s.cur else s))) := by
  obtain ⟨a, ha, hl, hc, hx, ho⟩ := h
  have hx' : (i.x64 && !isExt s.cur) = false := by
    cases h6 : i.x64 <;> simp_all
  simp [State.issue, ha, hl, hc, hx', State.acquireOwed_none ho]

/-- The same for an instruction that is no commit instruction. -/
theorem State.issue_plain {s : State} {i : Issue} (h : s.issues i) (hc : i.commit = false) (body : State → Res) :
    s.issue i body = .next (s.finish i (body s)) := by
  simpa [hc] using State.issue_of_issues h body

/-! ## Registers -/

/-- A g register after a write to it. -/
@[simp] theorem Core.readG_setG_same (c : Core) (d : GReg) (x : Reg) : (c.setG d x).readG d = written d x := by
  unfold Core.setG written Core.readG
  split <;> simp_all

/-- Every other g register after a write. -/
theorem Core.readG_setG_other (c : Core) {d r : GReg} (x : Reg) (h : r ≠ d) : (c.setG d x).readG r = c.readG r := by
  unfold Core.setG Core.readG
  have hv : d.val ≠ r.val := fun e => h (Fin.ext e.symm)
  split
  · rfl
  · split
    · rfl
    · simp [hv]

/-- The reference counts alone change where a register that may hold an ephemeris is written. -/
theorem addRef_counts (t : Vector Sym 32) (x : Reg) :
    ((addRef t x).map fun e => { e with count := 0 }) = t.map fun e => { e with count := 0 } := by
  unfold addRef
  split
  · ext j hj
    all_goals simp only [Vector.getElem_map, Vector.getElem_set]
    all_goals split <;> simp_all
  · rfl

/-- The same for a reference less. -/
theorem dropRef_counts (t : Vector Sym 32) (x : Reg) :
    ((dropRef t x).map fun e => { e with count := 0 }) = t.map fun e => { e with count := 0 } := by
  unfold dropRef
  split
  · ext j hj
    all_goals simp only [Vector.getElem_map, Vector.getElem_set]
    all_goals split <;> simp_all
  · rfl

/-- A write to a g register keeps all else but reference counts. -/
theorem Core.setG_keeps (c : Core) (d : GReg) (x : Reg) : c.KeepsBut (c.setG d x) [.g d] := by
  refine ⟨fun r hr => Core.readG_setG_other c x (by simpa using hr), fun r w _ => by simp [Core.readF], fun r _ => by
    simp [Core.readV], ?_, ?_⟩
  · unfold Core.setG
    split
    · rfl
    · simp only [dropRef_counts, addRef_counts]
  · unfold Core.setG
    split <;> rfl

/-- A write to an f register, likewise. -/
theorem Core.setF_keeps (c : Core) (d : FReg) (x : Reg) : c.KeepsBut (c.setF d x) [.f d] := by
  refine ⟨fun r _ => by simp [Core.readG], fun r w hr => ?_, fun r _ => by simp [Core.readV], ?_, ?_⟩
  · have hn : r ≠ d := by simpa using hr
    have hv : d.val ≠ r.val := fun e => hn (Fin.ext e.symm)
    unfold Core.setF Core.readF
    simp only
    split
    · rfl
    · split
      · rfl
      · simp [hv]
  · unfold Core.setF
    simp only
    split
    · rfl
    · simp only [dropRef_counts, addRef_counts]
  · unfold Core.setF
    simp only
    split <;> rfl

/-- An f register after a write of no capability. -/
theorem Core.readF_setF_same (c : Core) (wide : Bool) (d : FReg) (x : Reg) (h : x.tag ≠ .cap) :
    (c.setF d x).readF wide d = writtenF wide d x := by
  unfold Core.setF writtenF Core.readF
  simp only [h, if_false]
  split <;> simp_all

/-- A write to a vector register, likewise. -/
theorem Core.setV_keeps (c : Core) (d : VecReg) (x : VReg) : c.KeepsBut (c.setV d x) [.v d] := by
  refine ⟨fun r _ => by simp [Core.readG], fun r w _ => by simp [Core.readF], fun r hr => ?_, by simp, rfl⟩
  have hn : r ≠ d := by simpa using hr
  have hv : d.val ≠ r.val := fun e => hn (Fin.ext e.symm)
  simp [Core.setV, Core.readV, hv]

/-- A vector register after a write. -/
@[simp] theorem Core.readV_setV_same (c : Core) (d : VecReg) (x : VReg) : (c.setV d x).readV d = x := by
  simp [Core.setV, Core.readV]

/-! ## Frames -/

/-- A core keeps all of itself. -/
theorem Core.KeepsBut.refl (c : Core) (l : List RegName) : c.KeepsBut c l :=
  ⟨fun _ _ => rfl, fun _ _ _ => rfl, fun _ _ => rfl, rfl, rfl⟩

/-- Going on after an instruction that is no commit instruction keeps what was kept. -/
theorem Core.KeepsBut.advance {c d : Core} {l : List RegName} (h : c.KeepsBut d l) (i : Issue) (p : Word)
    (hc : i.commit = false) : c.KeepsBut (d.advance i p) l := by
  obtain ⟨h1, h2, h3, h4, h5⟩ := h
  refine ⟨h1, h2, h3, h4, ?_⟩
  rw [← h5]
  simp [Core.advance, hc]

/-- A state in which the core whose turn it is has been replaced differs there alone. -/
theorem State.onlyCore_setMe (s : State) (c : Core) : OnlyCore s (s.setMe c) s.cur :=
  ⟨rfl, fun _ h => State.core_setCore_other s c h, fun _ _ => rfl, fun _ _ => rfl, fun _ _ => rfl⟩

/-- The frame of such a state. -/
theorem State.framed_setMe {s : State} {c : Core} {l : List RegName} (h : s.me.KeepsBut c l) : Framed s (s.setMe c) l := by
  refine ⟨s.onlyCore_setMe c, ?_⟩
  simpa using h

/-- Going on twice is going on once. -/
theorem State.advance_setMe (s : State) (c : Core) (i : Issue) (p : Word) :
    (s.setMe c).advance i p = s.setMe (c.advance i p) := by
  simp [State.advance]

/-- An instruction whose effect is one write to a g register. -/
theorem writesG_of {i : Instr} {s : State} {d : GReg} {x : Reg} {u : Issue} (hc : u.commit = false)
    (h : exec i s = .next (s.finish u (s.writeG d x))) : WritesG i s d x (BitVec.ofNat 64 u.len) := by
  refine ⟨s.setMe ((s.me.setG d x).advance u (s.me.pc + BitVec.ofNat 64 u.len)), ?_, ?_, ?_, ?_, ?_⟩
  · simp [h, State.writeG, State.finish, State.advance_setMe]
  · rw [State.me_setMe]
    exact Core.readG_setG_same _ _ _
  · simp [Core.advance]
  · simp [Core.advance]
  · exact State.framed_setMe ((s.me.setG_keeps d x).advance u _ hc)

end Sys2Proof.Machine
end

