-- ==== Sys2Proof/Laws/Issue.lean ====
section
/-! SUPPORT. From how an instruction's own effect ends to what its step does: one lemma for each way. -/
namespace Sys2Proof.Machine

variable {i : Instr} {s : State} {u : Issue} {b : State → Res}

/-- The step of an instruction that issues is its effect, finished. -/
theorem exec_of_issues (hi : s.issues u) (hc : u.commit = false) (h : exec i s = s.issue u b) :
    exec i s = .next (s.finish u (b s)) := by
  rw [h, State.issue_plain hi hc]

/-- An effect that writes a g register. -/
theorem writesG_of_issues {d : GReg} {x : Reg} (hi : s.issues u) (hc : u.commit = false) (h : exec i s = s.issue u b)
    (hb : b s = s.writeG d x) : WritesG i s d x (BitVec.ofNat 64 u.len) :=
  writesG_of hc (by rw [exec_of_issues hi hc h, hb])

/-- An effect that writes an f register with no capability. -/
theorem writesF_of_issues {d : FReg} {x : Reg} (hi : s.issues u) (hc : u.commit = false) (hl : u.len = 4)
    (h : exec i s = s.issue u b) (hx : x.tag ≠ .cap) (hb : b s = s.writeF d x) : WritesF i s d x := by
  refine ⟨s.setMe ((s.me.setF d x).advance u (s.me.pc + BitVec.ofNat 64 u.len)), ?_, ?_, ?_, ?_, ?_⟩
  · rw [exec_of_issues hi hc h, hb]
    simp [State.writeF, State.finish, State.advance_setMe]
  · intro wide
    rw [State.me_setMe]
    exact Core.readF_setF_same _ _ _ _ hx
  · simp [Core.advance, hl]
  · simp [Core.advance]
  · exact State.framed_setMe ((s.me.setF_keeps d x).advance u _ hc)

/-- An effect that writes a vector register. -/
theorem writesV_of_issues {d : VecReg} {x : VReg} (hi : s.issues u) (hc : u.commit = false) (hl : u.len = 4)
    (h : exec i s = s.issue u b) (hb : b s = s.writeV d x) : WritesV i s d x := by
  refine ⟨s.setMe ((s.me.setV d x).advance u (s.me.pc + BitVec.ofNat 64 u.len)), ?_, ?_, ?_, ?_, ?_⟩
  · rw [exec_of_issues hi hc h, hb]
    simp [State.writeV, State.finish, State.advance_setMe]
  · rw [State.me_setMe]
    exact Core.readV_setV_same _ _ _
  · simp [Core.advance, hl]
  · simp [Core.advance]
  · exact State.framed_setMe ((s.me.setV_keeps d x).advance u _ hc)

/-- An effect that leaves the state as it is. -/
theorem passes_of_issues (hi : s.issues u) (hc : u.commit = false) (h : exec i s = s.issue u b) (hb : b s = .ok s) :
    Passes i s (BitVec.ofNat 64 u.len) := by
  refine ⟨s.setMe (s.me.advance u (s.me.pc + BitVec.ofNat 64 u.len)), ?_, ?_, ?_, ?_⟩
  · rw [exec_of_issues hi hc h, hb]
    rfl
  · simp [Core.advance]
  · simp [Core.advance]
  · exact State.framed_setMe ((Core.KeepsBut.refl _ _).advance u _ hc)

/-- An effect that waits. -/
theorem stalls_of_issues {w : Wait} (hi : s.issues u) (hc : u.commit = false) (h : exec i s = s.issue u b)
    (hb : b s = .wait w s) : Stalls i s w := by
  refine ⟨s.setMe { s.me with wait := some w }, ?_, ?_, ?_, ?_⟩
  · rw [exec_of_issues hi hc h, hb]
    rfl
  · simp
  · simp
  · exact State.framed_setMe ⟨fun _ _ => rfl, fun _ _ _ => rfl, fun _ _ => rfl, rfl, rfl⟩

/-- An effect that faults. -/
theorem faults_of_issues {cause detail : Nat} {addr : Word} {code : Nat} (hi : s.issues u) (hc : u.commit = false)
    (h : exec i s = s.issue u b) (hb : b s = .fault cause detail addr code s) : Faults i s cause detail addr code := by
  unfold Faults
  rw [exec_of_issues hi hc h, hb]
  rfl

/-- An effect that jumps. -/
theorem jumps_of_issues {p : Word} {c : Core} {l : List RegName} (hi : s.issues u) (hc : u.commit = false)
    (h : exec i s = s.issue u b) (hb : b s = .jump p (s.setMe c)) (hk : s.me.KeepsBut c l) : Jumps i s p l := by
  unfold Jumps
  split
  · rename_i h0
    unfold Faults
    rw [exec_of_issues hi hc h, hb]
    simp only [State.finish, h0, if_true]
  · rename_i h0
    refine ⟨s.setMe (c.advance u p), ?_, ?_, ?_, ?_⟩
    · rw [exec_of_issues hi hc h, hb]
      simp only [State.finish, h0]
      simp [State.advance_setMe]
    · simp [Core.advance]
    · simp [Core.advance]
    · exact State.framed_setMe (hk.advance u _ hc)

/-- An instruction issues where the five conditions come out so. -/
theorem State.issues_of {s : State} {i : Issue} {a : Act} (ha : s.me.act = some a)
    (h : (!s.lookBlocked i && (i.check s.me a).isNone && (!i.x64 || isExt s.cur) &&
      s.me.owed.all fun x => !i.reads.contains x.1) = true) : s.issues i := by
  simp only [Bool.and_eq_true, Bool.or_eq_true, Bool.not_eq_true', Option.isNone_iff_eq_none, List.all_eq_true] at h
  exact ⟨a, ha, h.1.1.1, h.1.1.2, fun hx => h.1.2.resolve_left (by simp [hx]), fun x hx => by simpa using h.2 x hx⟩

end Sys2Proof.Machine
end

