-- ==== Sys2Proof/Tests/Slice0.lean ====
section
/-! SUPPORT. Tests: ill-formed terms, the words of the spec, worked examples, and states that meet the hypotheses of the
statements. -/
namespace Sys2Proof.Tests
open Sys2Proof Sys2Proof.Machine

set_option Elab.async false

/-! ## Ill-formed terms: each check refuses one (R108 to R118) -/

theorem test_wf_shifts_and_fields :
    Instr.wf (.slli true 1 2 32) = false ∧ Instr.wf (.slli false 1 2 32) = true ∧ Instr.wf (.srli true 1 2 63) = false ∧
    Instr.wf (.srai true 1 2 32) = false ∧ Instr.wf (.extS64 1 2 60 4) = false ∧ Instr.wf (.extZ64 1 2 63 1) = false ∧
    Instr.wf (.ins 1 2 63 1) = false ∧ Instr.wf (.ins 1 2 63 0) = true ∧ Instr.wf (.btag 1 0b0100 0) = false ∧
    Instr.wf (.btag 1 0b1011 0) = true := by decide +kernel

theorem test_wf_types :
    Instr.wf (.ffma .rna 0 1 2 3 4) = false ∧ Instr.wf (.ffmaF64 .rna 0 1 2 3 4) = false ∧
    Instr.wf (.fcvt .s64 .s32 .rne 0 1 2) = false ∧ Instr.wf (.fcvt .f32 .s32 .rne 0 1 16) = false ∧
    Instr.wf (.fcvt .s32 .f32 .rne 0 16 1) = false ∧ Instr.wf (.ld .f16 0 1 2 3) = false ∧
    Instr.wf (.ld .f32 0 16 2 3) = false ∧ Instr.wf (.lde .f64 1 2 3) = false ∧ Instr.wf (.ldacq .f32 1 2 3) = false ∧
    Instr.wf (.st .bf16 1 2 3) = false ∧ Instr.wf (.strel .f64 1 2 3) = false ∧ Instr.wf (.rwrSum false .s16 1 2) = false ∧
    Instr.wf (.rwrMax false .f32 1 16) = false ∧ Instr.wf (.rwrMin false .z64 1 2) = false ∧
    Instr.wf (.waita .s16 1 2 3) = false := by decide +kernel

theorem test_wf_vector_types :
    Instr.wf (.vadd .e4m3 0 1 2 3) = false ∧ Instr.wf (.vsub .n4 0 1 2 3) = false ∧ Instr.wf (.vmul .e5m2 0 1 2 3) = false ∧
    Instr.wf (.vfma .e4m3 0 1 2 3) = false ∧ Instr.wf (.vmin .n4 0 1 2 3) = false ∧ Instr.wf (.vmax .n4 0 1 2 3) = false ∧
    Instr.wf (.vabs .z32 0 1 2) = false ∧ Instr.wf (.vneg .z8 0 1 2) = false ∧ Instr.wf (.vsel .n4 0 1 2 3) = false ∧
    Instr.wf (.vshl .f32 0 1 2 3) = false ∧ Instr.wf (.vshr .f16 0 1 2 3) = false ∧ Instr.wf (.vcmp .n4 0 1 2 3) = false ∧
    Instr.wf (.vdiv .s32 0 1 2 3) = false ∧ Instr.wf (.vred .n4 0 1 2 .sum) = false ∧ Instr.wf (.vbc .n4 0 1 (.g 2)) = false ∧
    Instr.wf (.vshf .e4m3 0 1 2 3) = false ∧ Instr.wf (.vget .n4 0 1 2 3) = false ∧ Instr.wf (.vset .n4 0 1 2 3) = false ∧
    Instr.wf (.vpack .s32 0 1 2 3) = false ∧ Instr.wf (.vcvt .s64 .f32 .rne 0 1 2) = false ∧
    Instr.wf (.vcvt .s8 .s32 .rne 0 1 2) = false ∧ Instr.wf (.vcvt .s8 .f32 .rna 0 1 2) = false ∧
    Instr.wf (.vqnt .s32 0 1 2 3) = false ∧ Instr.wf (.vdqnt .f64 0 1 2 3) = false := by decide +kernel

theorem test_wf_registers_in_a_row :
    Instr.wf (.cpy 0 29) = false ∧ Instr.wf (.cpyt 0 1 29) = false ∧ Instr.wf (.cpy 0 28) = true ∧
    Instr.wf (.zdrn false false 1 2 0 3) = false ∧ Instr.wf (.zdrn false false 1 2 3 0) = false ∧
    Instr.wf (.aeval 1 31 2) = false ∧ Instr.wf (.aeval 1 30 2) = true ∧ Instr.wf (.agth 1 29 2) = false ∧
    Instr.wf (.send 27 1 2 6) = false ∧ Instr.wf (.send 26 1 2 6) = true ∧ Instr.wf (.sendm 5 1 2 0) = false ∧
    Instr.wf (.sendr 28 1 5) = false := by decide +kernel

/-! ## Words: one for each constructor, written out field by field from the opcode table (R104, R107 to R113, R307) -/

theorem test_decode_add_srl :
    decode32 0b000000_0001_01100_01010_01001_0000011 = .ok (.add true 9 10 12) ∧
    decode32 0b000001_0001_01100_01010_01001_0000011 = .ok (.sub true 9 10 12) ∧
    decode32 0b000010_0001_01100_01010_01001_0000011 = .ok (.and true 9 10 12) ∧
    decode32 0b000011_0001_01100_01010_01001_0000011 = .ok (.or true 9 10 12) ∧
    decode32 0b000100_0001_01100_01010_01001_0000011 = .ok (.xor true 9 10 12) ∧
    decode32 0b000101_0001_01100_01010_01001_0000011 = .ok (.andn true 9 10 12) ∧
    decode32 0b000110_0001_01100_01010_01001_0000011 = .ok (.sll true 9 10 12) ∧
    decode32 0b000111_0001_01100_01010_01001_0000011 = .ok (.srl true 9 10 12) := by
  decide +kernel

theorem test_decode_sra_sltz :
    decode32 0b001000_0001_01100_01010_01001_0000011 = .ok (.sra true 9 10 12) ∧
    decode32 0b001001_0001_01100_01010_01001_0000011 = .ok (.rot true 9 10 12) ∧
    decode32 0b001010_0001_01100_01010_01001_0000011 = .ok (.min true 9 10 12) ∧
    decode32 0b001011_0001_01100_01010_01001_0000011 = .ok (.max true 9 10 12) ∧
    decode32 0b001100_0001_01100_01010_01001_0000011 = .ok (.minz true 9 10 12) ∧
    decode32 0b001101_0001_01100_01010_01001_0000011 = .ok (.maxz true 9 10 12) ∧
    decode32 0b001110_0001_01100_01010_01001_0000011 = .ok (.slt true 9 10 12) ∧
    decode32 0b001111_0001_01100_01010_01001_0000011 = .ok (.sltz true 9 10 12) := by
  decide +kernel

theorem test_decode_sel_movm :
    decode32 0b0100000000_01100_01010_01001_0000011 = .ok (.sel 9 10 12) ∧
    decode32 0b010001_0001_00000_01010_01001_0000011 = .ok (.clz true 9 10) ∧
    decode32 0b010010_0001_00000_01010_01001_0000011 = .ok (.ctz true 9 10) ∧
    decode32 0b010011_0001_00000_01010_01001_0000011 = .ok (.popc true 9 10) ∧
    decode32 0b010100_0001_00000_01010_01001_0000011 = .ok (.bswap true 9 10) ∧
    decode32 0b010101000000000_01010_01001_0000011 = .ok (.mov 9 10) ∧
    decode32 0b010110000000000_00100_01001_0000011 = .ok (.movm 9 4) := by
  decide +kernel

theorem test_decode_mul_addi :
    decode32 0b00000_1_0101_01100_01010_01001_0000101 = .ok (.mul true 5 9 10 12) ∧
    decode32 0b000010_0101_01100_01010_01001_0000101 = .ok (.mulh 5 9 10 12) ∧
    decode32 0b000100_0101_01100_01010_01001_0000101 = .ok (.mulhz 5 9 10 12) ∧
    decode32 0b00011_1_0101_01100_01010_01001_0000101 = .ok (.div true 5 9 10 12) ∧
    decode32 0b00100_1_0101_01100_01010_01001_0000101 = .ok (.divz true 5 9 10 12) ∧
    decode32 0b00101_1_0101_01100_01010_01001_0000101 = .ok (.rem true 5 9 10 12) ∧
    decode32 0b00110_1_0101_01100_01010_01001_0000101 = .ok (.remz true 5 9 10 12) ∧
    decode32 0b101101001011011_01010_01001_0000111 = .ok (.addi 9 10 0x5a5b) := by
  decide +kernel

theorem test_decode_addiw_lih :
    decode32 0b101101001011011_01010_01001_0001001 = .ok (.addiw 9 10 0x5a5b) ∧
    decode32 0b101101001011011_01010_01001_0001011 = .ok (.andi 9 10 0x5a5b) ∧
    decode32 0b101101001011011_01010_01001_0001101 = .ok (.ori 9 10 0x5a5b) ∧
    decode32 0b101101001011011_01010_01001_0001111 = .ok (.xori 9 10 0x5a5b) ∧
    decode32 0b101101001011011_01010_01001_0010001 = .ok (.slti 9 10 0x5a5b) ∧
    decode32 0b101101001011011_01010_01001_0010101 = .ok (.lih 9 10 0x5a5b) := by
  decide +kernel

theorem test_decode_slli_ins :
    decode32 0b000000_1_00_010101_01010_01001_0010011 = .ok (.slli true 9 10 21) ∧
    decode32 0b000000_1_01_010101_01010_01001_0010011 = .ok (.srli true 9 10 21) ∧
    decode32 0b000000_1_10_010101_01010_01001_0010011 = .ok (.srai true 9 10 21) ∧
    decode32 0b001011_100101_000_01010_01001_0010111 = .ok (.extS64 9 10 37 11) ∧
    decode32 0b001011_100101_001_01010_01001_0010111 = .ok (.extZ64 9 10 37 11) ∧
    decode32 0b001011_100101_010_01010_01001_0010111 = .ok (.ins 9 10 37 11) := by
  decide +kernel

theorem test_decode_cbnd_edrop :
    decode32 0b0000000000_01100_01010_01001_0011001 = .ok (.cbnd 9 10 12) ∧
    decode32 0b0000010000_01100_01010_01001_0011001 = .ok (.cprm 9 10 12) ∧
    decode32 0b0000100000_00001_01010_01001_0011001 = .ok (.cget 9 10 1) ∧
    decode32 0b000011000000000_01010_01001_0011001 = .ok (.ctag 9 10) ∧
    decode32 0b000100000000000_01010_01001_0011001 = .ok (.cstrip 9 10) ∧
    decode32 0b0000000000_00001_01010_000000011011 = .ok (.ewait (.f 10)) ∧
    decode32 0b00000100000000000000_01001_0011011 = .ok (.estat 9) ∧
    decode32 0b0000100000_00001_01010_000000011011 = .ok (.edrop (.f 10)) := by
  decide +kernel

theorem test_decode_beq_j :
    decode32 0b000_1010101_01100_01010_10011_0100001 = .ok (.beq 10 12 0xab3) ∧
    decode32 0b001_1010101_01100_01010_10011_0100001 = .ok (.bne 10 12 0xab3) ∧
    decode32 0b010_1010101_01100_01010_10011_0100001 = .ok (.blt 10 12 0xab3) ∧
    decode32 0b011_1010101_01100_01010_10011_0100001 = .ok (.bge 10 12 0xab3) ∧
    decode32 0b100_1010101_01100_01010_10011_0100001 = .ok (.blo 10 12 0xab3) ∧
    decode32 0b101_1010101_01100_01010_10011_0100001 = .ok (.bhs 10 12 0xab3) ∧
    decode32 0b110_1010101_01001_01010_10011_0100001 = .ok (.btag 10 0x9 0xab3) ∧
    decode32 0b1001000110100010101100111_0100011 = .ok (.j 0x1234567) := by
  decide +kernel

theorem test_decode_jal_rgn :
    decode32 0b1001000110100010101100111_0100101 = .ok (.jal 0x1234567) ∧
    decode32 0b101101001011011_01010_01001_0100111 = .ok (.jalr 9 10 0x5a5b) ∧
    decode32 0b1001000110100010101100111_0101011 = .ok (.rgn 0x1234567) := by
  decide +kernel

theorem test_decode_nop_dcinv :
    decode32 0b00000000000000000000000000101001 = .ok .nop ∧
    decode32 0b00000100000000000000000000101001 = .ok .hend ∧
    decode32 0b000010_10101001010111_000000101001 = .ok (.trap 0x2a57) ∧
    decode32 0b000011_10101001010111_000000101001 = .ok (.brk 0x2a57) ∧
    decode32 0b000100000000000_01010_000000101001 = .ok (.tlbi 10) ∧
    decode32 0b0001010000_01100_01010_000000101001 = .ok (.icinv 10 12) ∧
    decode32 0b0001100000_01100_01010_000000101001 = .ok (.dcwb 10 12) ∧
    decode32 0b0001110000_01100_01010_000000101001 = .ok (.dcinv 10 12) := by
  decide +kernel

theorem test_decode_srr_grel :
    decode32 0b000_000001000001_00000_01001_0101101 = .ok (.srr 9 .dseed) ∧
    decode32 0b001_000001000001_01010_000000101101 = .ok (.srw .dseed 10) ∧
    decode32 0b010_000001000001_01010_01001_0101101 = .ok (.srx 9 .dseed 10) ∧
    decode32 0b000000_0011_01100_01010_01001_0101111 = .ok (.spawn 9 10 12 3) ∧
    decode32 0b000001000000000_01010_01001_0101111 = .ok (.launch 9 10) ∧
    decode32 0b000010_0010_00000_01010_01001_0101111 = .ok (.cancel 9 10 .phase) ∧
    decode32 0b0000110000_01100_01010_01001_0101111 = .ok (.garm 9 10 12) ∧
    decode32 0b000100000000000_01010_01001_0101111 = .ok (.grel 9 10) := by
  decide +kernel

theorem test_decode_fadd_fcmp :
    decode32 0b000_011_0101_01100_01010_01001_0110001 = .ok (.fadd .rdn 5 9 10 12) ∧
    decode32 0b001_011_0101_01100_01010_01001_0110001 = .ok (.fsub .rdn 5 9 10 12) ∧
    decode32 0b010_011_0101_01100_01010_01001_0110001 = .ok (.fmul .rdn 5 9 10 12) ∧
    decode32 0b011_011_0101_01100_01010_01001_0110001 = .ok (.fdiv .rdn 5 9 10 12) ∧
    decode32 0b100_011_0101_00000_01010_01001_0110001 = .ok (.fsqrt .rdn 5 9 10) ∧
    decode32 0b101000_0101_01100_01010_01001_0110001 = .ok (.fmin 5 9 10 12) ∧
    decode32 0b101001_0101_01100_01010_01001_0110001 = .ok (.fmax 5 9 10 12) ∧
    decode32 0b101010_0101_01100_01010_01001_0110001 = .ok (.fcmp 5 9 10 12) := by
  decide +kernel

theorem test_decode_fcls_fmvf :
    decode32 0b101011_0101_00000_01010_01001_0110001 = .ok (.fcls 5 9 10) ∧
    decode32 0b101100_0101_00000_01010_01001_0110001 = .ok (.fmvg 5 9 10) ∧
    decode32 0b101101_0101_00000_01010_01001_0110001 = .ok (.fmvf 5 9 10) := by
  decide +kernel

theorem test_decode_fadd_f64_fcmp_f64 :
    decode32 0b000_011_0101_01100_01010_01001_0110011 = .ok (.faddF64 .rdn 5 9 10 12) ∧
    decode32 0b001_011_0101_01100_01010_01001_0110011 = .ok (.fsubF64 .rdn 5 9 10 12) ∧
    decode32 0b010_011_0101_01100_01010_01001_0110011 = .ok (.fmulF64 .rdn 5 9 10 12) ∧
    decode32 0b011_011_0101_01100_01010_01001_0110011 = .ok (.fdivF64 .rdn 5 9 10 12) ∧
    decode32 0b100_011_0101_00000_01010_01001_0110011 = .ok (.fsqrtF64 .rdn 5 9 10) ∧
    decode32 0b101000_0101_01100_01010_01001_0110011 = .ok (.fminF64 5 9 10 12) ∧
    decode32 0b101001_0101_01100_01010_01001_0110011 = .ok (.fmaxF64 5 9 10 12) ∧
    decode32 0b101010_0101_01100_01010_01001_0110011 = .ok (.fcmpF64 5 9 10 12) := by
  decide +kernel

theorem test_decode_fcls_f64_fcvt :
    decode32 0b101011_0101_00000_01010_01001_0110011 = .ok (.fclsF64 5 9 10) ∧
    decode32 0b101100_0101_00000_01010_01001_0110011 = .ok (.fmvgF64 5 9 10) ∧
    decode32 0b101101_0101_00000_01010_01001_0110011 = .ok (.fmvfF64 5 9 10) ∧
    decode32 0b1011_10_0101_01100_01010_01001_0110101 = .ok (.ffma .rup 5 9 10 12 11) ∧
    decode32 0b1011_10_0101_01100_01010_01001_0110111 = .ok (.ffmaF64 .rup 5 9 10 12 11) ∧
    decode32 0b101101001011011_00000_01001_0111001 = .ok (.fliF32 9 0x5a5b) ∧
    decode32 0b101101001011011_00001_01001_0111001 = .ok (.fliF64 9 0x5a5b) ∧
    decode32 0b100_011_0101_000_00_01010_01001_0111011 = .ok (.fcvt .f32 .s64 .rdn 5 9 10) := by
  decide +kernel

theorem test_decode_anq_tret :
    decode32 0b0000000000_01100_01010_01001_1000101 = .ok (.anq 9 10 12) ∧
    decode32 0b000001_0011_01100_01010_01001_1000101 = .ok (.anqb 9 10 12 3) ∧
    decode32 0b0000100000_01100_01010_01001_1000101 = .ok (.aqcf 9 10 12) ∧
    decode32 0b0000110000_01100_01010_01001_1000101 = .ok (.nlease 9 10 12) ∧
    decode32 0b0001000000_01100_01010_01001_1000101 = .ok (.nfree 9 10 12) ∧
    decode32 0b00010100000000000000000001000101 = .ok .tret := by
  decide +kernel

theorem test_decode_vadd_vneg :
    decode32 0b1001_00_0101_01100_01010_01001_1001001 = .ok (.vadd .f16 5 9 10 12) ∧
    decode32 0b0001_01_0101_01100_01010_01001_1001001 = .ok (.vsub .s32 5 9 10 12) ∧
    decode32 0b0001_10_0101_01100_01010_01001_1001001 = .ok (.vmul .s32 5 9 10 12) ∧
    decode32 0b0001_11_0101_01100_01010_01001_1001001 = .ok (.vfma .s32 5 9 10 12) ∧
    decode32 0b0001_00_0101_01100_01010_01001_1001011 = .ok (.vmin .s32 5 9 10 12) ∧
    decode32 0b0001_01_0101_01100_01010_01001_1001011 = .ok (.vmax .s32 5 9 10 12) ∧
    decode32 0b0001_10_0101_00000_01010_01001_1001011 = .ok (.vabs .s32 5 9 10) ∧
    decode32 0b0001_11_0101_00000_01010_01001_1001011 = .ok (.vneg .s32 5 9 10) := by
  decide +kernel

theorem test_decode_vand_vdiv :
    decode32 0b000000_0101_01100_01010_01001_1001101 = .ok (.vand 5 9 10 12) ∧
    decode32 0b000001_0101_01100_01010_01001_1001101 = .ok (.vor 5 9 10 12) ∧
    decode32 0b000010_0101_01100_01010_01001_1001101 = .ok (.vxor 5 9 10 12) ∧
    decode32 0b0001_11_0101_01100_01010_01001_1001101 = .ok (.vsel .s32 5 9 10 12) ∧
    decode32 0b0001_00_0101_01100_01010_01001_1001111 = .ok (.vshl .s32 5 9 10 12) ∧
    decode32 0b0001_01_0101_01100_01010_01001_1001111 = .ok (.vshr .s32 5 9 10 12) ∧
    decode32 0b0001_10_0101_01100_01010_01001_1001111 = .ok (.vcmp .s32 5 9 10 12) ∧
    decode32 0b1001_11_0101_01100_01010_01001_1001111 = .ok (.vdiv .f16 5 9 10 12) := by
  decide +kernel

theorem test_decode_vred_ldv :
    decode32 0b0001_00_0101_00001_01010_01001_1010001 = .ok (.vred .s32 5 9 10 .min) ∧
    decode32 0b0001_01_0101_00001_01010_01001_1010001 = .ok (.vbc .s32 5 9 (.f 10)) ∧
    decode32 0b0001_10_0101_01100_01010_01001_1010001 = .ok (.vshf .s32 5 9 10 12) ∧
    decode32 0b000011_0101_00000_01010_01001_1010001 = .ok (.vmov 5 9 10) ∧
    decode32 0b0001_00_0101_01100_01010_01001_1010011 = .ok (.vget .s32 5 9 10 12) ∧
    decode32 0b0001_01_0101_01100_01010_01001_1010011 = .ok (.vset .s32 5 9 10 12) ∧
    decode32 0b0011_10_0101_01100_01010_01001_1010011 = .ok (.vpack .s8 5 9 10 12) ∧
    decode32 0b000011_0101_01100_01010_01001_1010011 = .ok (.ldv 5 9 10 12) := by
  decide +kernel

theorem test_decode_vcvt_ldc :
    decode32 0b0011_00_0101_10_100_01010_01001_1010101 = .ok (.vcvt .s8 .f32 .rup 5 9 10) ∧
    decode32 0b0011_01_0101_01100_01010_01001_1010101 = .ok (.vqnt .s8 5 9 10 12) ∧
    decode32 0b1100_10_0101_01100_01010_01001_1010101 = .ok (.vdqnt .e4m3 5 9 10 12) ∧
    decode32 0b1011_00_0101_01100_01010_01001_1011001 = .ok (.ld .f64 5 9 10 12) ∧
    decode32 0b1000_010000_01100_01010_01001_1011001 = .ok (.lde .f32 9 10 12) ∧
    decode32 0b0001_100000_01100_01010_01001_1011001 = .ok (.ldacq .s32 9 10 12) ∧
    decode32 0b000011_0101_01100_01010_01001_1011001 = .ok (.ldc 5 9 10 12) := by
  decide +kernel

theorem test_decode_st_stv :
    decode32 0b000000_1000_01100_01010_01101_1011011 = .ok (.st .f32 13 10 12) ∧
    decode32 0b000001_0001_01100_01010_01101_1011011 = .ok (.strel .s32 13 10 12) ∧
    decode32 0b0000100000_01100_01010_01101_1011011 = .ok (.stc 13 10 12) ∧
    decode32 0b0000110000_01100_01010_01101_1011011 = .ok (.stv 13 10 12) := by
  decide +kernel

theorem test_decode_amo_swap_amo_max :
    decode32 0b0000_10_0001_01100_01010_01001_1011101 = .ok (.amoSwap .rel true 9 10 12) ∧
    decode32 0b0001_10_0001_01100_01010_01001_1011101 = .ok (.amoAdd .rel true 9 10 12) ∧
    decode32 0b0010_10_0001_01100_01010_01001_1011101 = .ok (.amoSetb .rel true 9 10 12) ∧
    decode32 0b0011_10_0001_01100_01010_01001_1011101 = .ok (.amoClrb .rel true 9 10 12) ∧
    decode32 0b0100_10_0001_01100_01010_01001_1011101 = .ok (.amoFlipb .rel true 9 10 12) ∧
    decode32 0b0101_10_0001_01100_01010_01001_1011101 = .ok (.amoKeepb .rel true 9 10 12) ∧
    decode32 0b0110_10_0001_01100_01010_01001_1011101 = .ok (.amoMin .rel true 9 10 12) ∧
    decode32 0b0111_10_0001_01100_01010_01001_1011101 = .ok (.amoMax .rel true 9 10 12) := by
  decide +kernel

theorem test_decode_amo_minz_rwr_min :
    decode32 0b1000_10_0001_01100_01010_01001_1011101 = .ok (.amoMinz .rel true 9 10 12) ∧
    decode32 0b1001_10_0001_01100_01010_01001_1011101 = .ok (.amoMaxz .rel true 9 10 12) ∧
    decode32 0b1010_10_0001_01100_01010_01001_1011101 = .ok (.amoIncw .rel true 9 10 12) ∧
    decode32 0b1011_10_0001_01100_01010_01001_1011101 = .ok (.amoDecw .rel true 9 10 12) ∧
    decode32 0b0000_10_1010_01100_01010_000001011111 = .ok (.rwrSum true .bf16 10 12) ∧
    decode32 0b0001_10_0001_01100_01010_000001011111 = .ok (.rwrMax true .s32 10 12) ∧
    decode32 0b0010_10_0001_01100_01010_000001011111 = .ok (.rwrMin true .s32 10 12) := by
  decide +kernel

theorem test_decode_cas_red :
    decode32 0b000_10_0_0001_01100_01010_01001_1100001 = .ok (.cas .rel true 9 10 12) ∧
    decode32 0b001000000000000_01010_000001100001 = .ok (.fence 10) ∧
    decode32 0b010000_0001_01100_01010_01001_1100001 = .ok (.waita .s32 9 10 12) ∧
    decode32 0b000000_0101_00000_01010_000001100011 = .ok (.cpy 5 10) ∧
    decode32 0b000001_0101_00000_01010_01001_1100011 = .ok (.cpyt 5 9 10) ∧
    decode32 0b0000100000_00011_00000_01001_1100011 = .ok (.cwm 9 3) ∧
    decode32 0b000011000000000_01010_01001_1100011 = .ok (.cres 9 10) ∧
    decode32 0b000100_0101_00000_01010_01001_1100011 = .ok (.red 5 9 10) := by
  decide +kernel

theorem test_decode_mma_bf_mma_n4e :
    decode32 0b1011_00_0101_00110_00101_00011_1101001 = .ok (.mmaBf 11 5 3 5 6) ∧
    decode32 0b1011_01_0101_00110_00101_00011_1101001 = .ok (.mmaH 11 5 3 5 6) ∧
    decode32 0b1011_10_0101_00110_00101_00011_1101001 = .ok (.mmaF32 11 5 3 5 6) ∧
    decode32 0b1011_11_0101_00110_00101_00011_1101001 = .ok (.mmaI8 11 5 3 5 6) ∧
    decode32 0b1011_00_0101_00110_00101_00011_1101011 = .ok (.mmaE44 11 5 3 5 6) ∧
    decode32 0b1011_01_0101_00110_00101_00011_1101011 = .ok (.mmaE55 11 5 3 5 6) ∧
    decode32 0b1011_10_0101_00110_00101_00011_1101011 = .ok (.mmaE45 11 5 3 5 6) ∧
    decode32 0b1011_11_0101_00110_00101_00011_1101011 = .ok (.mmaN4e 11 5 3 5 6) := by
  decide +kernel

theorem test_decode_mma_n4 :
    decode32 0b1011_00_0101_00110_00101_00011_1101101 = .ok (.mmaN4 11 5 3 5 6) := by
  decide +kernel

theorem test_decode_tcfg_zget :
    decode32 0b000000000000000_01010_00101_1101111 = .ok (.tcfg 5 10) ∧
    decode32 0b000100_0101_01100_01010_00101_1101111 = .ok (.tld 5 5 10 12) ∧
    decode32 0b000101_0101_01100_01010_00101_1101111 = .ok (.tldN4 5 5 10 12) ∧
    decode32 0b0010000000_01100_01010_00101_1101111 = .ok (.tst 5 10 12) ∧
    decode32 0b001100000000000_01010_00010_1101111 = .ok (.zclr 2 10) ∧
    decode32 0b0100_11_0000_01100_011_10_00101_1101111 = .ok (.zdrn true true 5 2 3 12) ∧
    decode32 0b010100000000000_00010_01001_1101111 = .ok (.zexp 9 2) ∧
    decode32 0b0110000000_01100_00010_01001_1101111 = .ok (.zget 9 2 12) := by
  decide +kernel

theorem test_decode_mfin_agth :
    decode32 0b01110000000000000000_01001_1101111 = .ok (.mfin 9) ∧
    decode32 0b000000000000000_01010_01001_1110001 = .ok (.acfg 9 10) ∧
    decode32 0b000001000000000_01010_01001_1110001 = .ok (.aload 9 10) ∧
    decode32 0b0000100000_01100_01010_01001_1110001 = .ok (.aeval 9 10 12) ∧
    decode32 0b0000110000_01100_01010_01001_1110001 = .ok (.agth 9 10 12) := by
  decide +kernel

theorem test_decode_send_cpnd :
    decode32 0b000000_0011_01100_01010_01001_1110011 = .ok (.send 9 10 12 3) ∧
    decode32 0b000001_0011_01100_01010_01001_1110011 = .ok (.sendm 9 10 12 3) ∧
    decode32 0b000010_0011_00000_01010_01001_1110011 = .ok (.sendr 9 10 3) ∧
    decode32 0b00001100000000000000000001110011 = .ok .mrel ∧
    decode32 0b0001000000_01100_01010_01001_1110011 = .ok (.clsw 9 10 12) ∧
    decode32 0b000101000000000_01010_01001_1110011 = .ok (.clsr 9 10) ∧
    decode32 0b0001100000_01100_01010_01001_1110011 = .ok (.clsen 9 10 12) ∧
    decode32 0b0001110000_00001_00000_01001_1110011 = .ok (.cpnd 9 1) := by
  decide +kernel

theorem test_decode_mbar_mrcv :
    decode32 0b000000000000000_01010_01001_1110101 = .ok (.mbar 9 10) ∧
    decode32 0b0000010000_01100_01010_000001110101 = .ok (.mwait 10 12) ∧
    decode32 0b0000100000_01100_01010_000001110101 = .ok (.mbc 10 12) ∧
    decode32 0b0000110000_01100_01010_01001_1110101 = .ok (.mrcv 9 10 12) := by
  decide +kernel

theorem test_decode_c_add_c_srli :
    decode16 0b0_01010_01001_00010 = .ok (.cAdd 9 10) ∧
    decode16 0b1_01010_01001_00010 = .ok (.cSub 9 10) ∧
    decode16 0b0_01010_01001_00100 = .ok (.cMov 9 10) ∧
    decode16 0b1_01010_01001_00100 = .ok (.cAnd 9 10) ∧
    decode16 0b101001_01001_00110 = .ok (.cAddi 9 0x29) ∧
    decode16 0b101001_01001_01000 = .ok (.cAddiZero 9 0x29) ∧
    decode16 0b010101_01001_01010 = .ok (.cSlli 9 21) ∧
    decode16 0b010101_01001_01100 = .ok (.cSrli 9 21) := by
  decide +kernel

theorem test_decode_c_ld_c_nop :
    decode16 0b1_01010_01001_01110 = .ok (.cLd true 9 10) ∧
    decode16 0b1_01010_01001_10000 = .ok (.cSt true 9 10) ∧
    decode16 0b101001_01010_10010 = .ok (.cBeq 10 0x29) ∧
    decode16 0b101001_01010_10100 = .ok (.cBne 10 0x29) ∧
    decode16 0b10110100101_10110 = .ok (.cJ 0x5a5) ∧
    decode16 0b0_01010_0000011000 = .ok (.cJalrG0 10) ∧
    decode16 0b1_01010_0000011000 = .ok (.cJalrLink 10) ∧
    decode16 0b0000000000011010 = .ok .cNop := by
  decide +kernel

theorem test_decode_c_hend_c_rgn :
    decode16 0b0000000000111010 = .ok .cHend ∧
    decode16 0b0000000001011010 = .ok .cTret ∧
    decode16 0b0000000001111010 = .ok .cBrk ∧
    decode16 0b10110100101_11100 = .ok (.cRgn 0x5a5) := by
  decide +kernel

theorem test_decode_near_two_moves_near_immediate_move :
    decodeNear 0b0000_01_011101_010000_10_001011_000101 = .ok (.nearTwoMoves 1 29 16 2 11 5) ∧
    decodeNear 0b01_01_0000_01_010000_1011111011101111 = .ok (.nearImmediateMove 1 1 16 0xbeef) := by
  decide +kernel
/-! ## The words that the spec writes out for its examples -/

theorem test_words_of_the_spec_1 :
    decode32 0x054E62C5 = .ok (.anqb 5 6 7 5) ∧
    decode32 0x00083283 = .ok (.add false 5 3 4) ∧
    decode32 0x00883285 = .ok (.mul false 2 5 3 4) ∧
    decode32 0x00083621 = .ok (.beq 3 4 0x00c) ∧
    decode32 0x04483303 = .ok (.sub true 6 3 4) ∧
    decode32 0x58002183 = .ok (.movm 3 2) ∧
    decode32 0x18083285 = .ok (.div false 0 5 3 4) ∧
    decode32 0x8000028D = .ok (.ori 5 0 0x4000) ∧
    decode32 0x00005295 = .ok (.lih 5 5 0x0000) ∧
    decode32 0x20005295 = .ok (.lih 5 5 0x1000) ∧
    decode32 0x00083293 = .ok (.slli false 5 3 4) ∧
    decode32 0x0C823297 = .ok (.extZ64 5 3 8 3) ∧
    decode32 0x000E5319 = .ok (.cbnd 6 5 7) ∧
    decode32 0x040E6319 = .ok (.cprm 6 6 7) := by
  decide +kernel

theorem test_words_of_the_spec_2 :
    decode32 0x08026419 = .ok (.cget 8 6 1) ∧
    decode32 0x0C006419 = .ok (.ctag 8 6) ∧
    decode32 0x10006419 = .ok (.cstrip 8 6) ∧
    decode32 0x0002301B = .ok (.ewait (.f 3)) ∧
    decode32 0x0400041B = .ok (.estat 8) ∧
    decode32 0x0800501B = .ok (.edrop (.g 5)) ∧
    decode32 0x3FC05E21 = .ok (.bne 5 0 0xffc) ∧
    decode32 0xC0105221 = .ok (.btag 5 0x8 0x004) ∧
    decode32 0x00004025 = .ok (.jal 0x0000080) ∧
    decode32 0x08123029 = .ok (.trap 0x0123) ∧
    decode32 0x000002AD = .ok (.srr 5 .kid) ∧
    decode32 0x2080602D = .ok (.srw .mwgt 6) ∧
    decode32 0x408262AD = .ok (.srx 5 .dseed 6) ∧
    decode32 0x10005029 = .ok (.tlbi 5) := by
  decide +kernel

theorem test_words_of_the_spec_3 :
    decode32 0x140C5029 = .ok (.icinv 5 6) ∧
    decode32 0x180C5029 = .ok (.dcwb 5 6) ∧
    decode32 0x1C0C5029 = .ok (.dcinv 5 6) ∧
    decode32 0x00DAC4AF = .ok (.spawn 9 12 13 3) ∧
    decode32 0x0400C4AF = .ok (.launch 9 12) ∧
    decode32 0x0840C4AF = .ok (.cancel 9 12 .graph) ∧
    decode32 0x0C1AC4AF = .ok (.garm 9 12 13) ∧
    decode32 0x1000C4AF = .ok (.grel 9 12) ∧
    decode32 0x042051BB = .ok (.fcvt .s64 .f32 .rtz 0 3 5) ∧
    decode32 0x8408233B = .ok (.fcvt .f32 .s32 .rtz 0 6 2) ∧
    decode32 0xA00811D5 = .ok (.vcvt .bf16 .f32 .rne 0 3 1) ∧
    decode32 0xC4041255 = .ok (.vqnt .e4m3 0 4 1 2) ∧
    decode32 0xC80442D5 = .ok (.vdqnt .e4m3 0 5 4 2) ∧
    decode32 0xA8041353 = .ok (.vpack .bf16 0 6 1 2) := by
  decide +kernel

theorem test_words_of_the_spec_4 :
    decode32 0x000411B1 = .ok (.fadd .rne 0 3 1 2) ∧
    decode32 0x000411B3 = .ok (.faddF64 .rne 0 3 1 2) ∧
    decode32 0x60C412B1 = .ok (.fdiv .rne 3 5 1 2) ∧
    decode32 0x80002331 = .ok (.fsqrt .rne 0 6 2) ∧
    decode32 0xA00411B1 = .ok (.fmin 0 3 1 2) ∧
    decode32 0xA8041331 = .ok (.fcmp 0 6 1 2) ∧
    decode32 0xAC0023B1 = .ok (.fcls 0 7 2) ∧
    decode32 0xB00032B1 = .ok (.fmvg 0 5 3) ∧
    decode32 0xB40051B1 = .ok (.fmvf 0 3 5) ∧
    decode32 0x30041235 = .ok (.ffma .rne 0 4 1 2 3) ∧
    decode32 0x404001B9 = .ok (.fliF32 3 0x2020) ∧
    decode32 0x8CC41249 = .ok (.vfma .f32 3 4 1 2) ∧
    decode32 0x100411C9 = .ok (.vadd .s32 0 3 1 2) ∧
    decode32 0x80001151 = .ok (.vred .f32 0 2 1 .sum) := by
  decide +kernel

theorem test_words_of_the_spec_5 :
    decode32 0x84023351 = .ok (.vbc .f32 0 6 (.f 3)) ∧
    decode32 0x100C72D3 = .ok (.vget .s32 0 5 7 6) ∧
    decode32 0x000832D9 = .ok (.ld .s64 0 5 3 4) ∧
    decode32 0x0C4A24D9 = .ok (.ldc 1 9 2 5) ∧
    decode32 0x840E61D9 = .ok (.lde .f32 3 6 7) ∧
    decode32 0x18006459 = .ok (.ldacq .s32 8 6 0) ∧
    decode32 0x0C8E6253 = .ok (.ldv 2 4 6 7) ∧
    decode32 0x004832DB = .ok (.st .s32 5 3 4) ∧
    decode32 0x040062DB = .ok (.strel .s64 5 6 0) ∧
    decode32 0x080A24DB = .ok (.stc 9 2 5) ∧
    decode32 0x0C00625B = .ok (.stv 4 6 0) ∧
    decode32 0x20006061 = .ok (.fence 6) ∧
    decode32 0x100A64DD = .ok (.amoAdd .plain false 9 6 5) ∧
    decode32 0x7C4A645D = .ok (.amoMax .ar true 8 6 5) := by
  decide +kernel

theorem test_words_of_the_spec_6 :
    decode32 0x080A6461 = .ok (.cas .acq false 8 6 5) ∧
    decode32 0x0A06605F = .ok (.rwrSum true .f32 6 3) ∧
    decode32 0x418A63E1 = .ok (.waita .z16 7 6 5) ∧
    decode32 0x00014063 = .ok (.cpy 0 20) ∧
    decode32 0x00814063 = .ok (.cpy 2 20) ∧
    decode32 0x040144E3 = .ok (.cpyt 0 9 20) ∧
    decode32 0x080403E3 = .ok (.cwm 7 2) ∧
    decode32 0x0C00C4E3 = .ok (.cres 9 12) ∧
    decode32 0x1000C4E3 = .ok (.red 0 9 12) ∧
    decode32 0x0000516F = .ok (.tcfg 2 5) ∧
    decode32 0x100E616F = .ok (.tld 0 2 6 7) ∧
    decode32 0x144E626F = .ok (.tldN4 1 4 6 7) ∧
    decode32 0x200E616F = .ok (.tst 2 6 7) ∧
    decode32 0x000620E9 = .ok (.mmaBf 0 0 1 2 3) := by
  decide +kernel

theorem test_words_of_the_spec_7 :
    decode32 0x600A416D = .ok (.mmaN4 6 0 2 4 5) ∧
    decode32 0x280E61E9 = .ok (.mmaF32 2 0 3 6 7) ∧
    decode32 0x300050EF = .ok (.zclr 1 5) ∧
    decode32 0x3000006F = .ok (.zclr 0 0) ∧
    decode32 0x4000116F = .ok (.zdrn false false 2 1 0 0) ∧
    decode32 0x440111EF = .ok (.zdrn false true 3 1 4 0) ∧
    decode32 0x4C0B11EF = .ok (.zdrn true true 3 1 4 5) ∧
    decode32 0x5000146F = .ok (.zexp 8 1) ∧
    decode32 0x6012146F = .ok (.zget 8 1 9) ∧
    decode32 0x700004EF = .ok (.mfin 9) ∧
    decode32 0x00005471 = .ok (.acfg 8 5) ∧
    decode32 0x040144F1 = .ok (.aload 9 20) ∧
    decode32 0x081CC571 = .ok (.aeval 10 12 14) ∧
    decode32 0x0C1F05F1 = .ok (.agth 11 16 15) := by
  decide +kernel

theorem test_words_of_the_spec_8 :
    decode32 0x009AC1F3 = .ok (.send 3 12 13 2) ∧
    decode32 0x045AC1F3 = .ok (.sendm 3 12 13 1) ∧
    decode32 0x0880C1F3 = .ok (.sendr 3 12 2) ∧
    decode32 0x0C000073 = .ok .mrel ∧
    decode32 0x100C5473 = .ok (.clsw 8 5 6) ∧
    decode32 0x14005473 = .ok (.clsr 8 5) ∧
    decode32 0x180C5473 = .ok (.clsen 8 5 6) ∧
    decode32 0x1C000473 = .ok (.cpnd 8 0) ∧
    decode32 0x1C040473 = .ok (.cpnd 8 2) ∧
    decode32 0x000054F5 = .ok (.mbar 9 5) ∧
    decode32 0x04125075 = .ok (.mwait 5 9) ∧
    decode32 0x080C5075 = .ok (.mbc 5 6) ∧
    decode32 0x0C0C54F5 = .ok (.mrcv 9 5 6) ∧
    decode32 0x00000029 = .ok .nop := by
  decide +kernel

theorem test_words_of_the_spec_9 :
    decode32 0x04000029 = .ok .hend := by
  decide +kernel


/-! ## States for tests -/

/-- Core k in an activation, its pages mapped one to one and, from 2^40 on, to the slices. -/
def running (k : Nat) : Core :=
  { (Core.reset k).placed with
    tlb := [⟨0, 0, 2 ^ 38, 0, 0, 0, true, true, true, true⟩, ⟨0, 2 ^ 40, 2 ^ 31, 0x8000000000000, 0, 0, true, true, true, true⟩] }

/-- The launch that the activation belongs to: supervisor core 5, fault class 3. -/
def someLaunch : Launch :=
  ⟨⟨0x10000, 1, 2, false, 1, 1, 4, 1, 5, 3, 0, 0, false, 0, 0, 0, 0, Vector.replicate 6 0, 0⟩, ⟨true, 4, 0, 0, 0⟩, 2, 0, 0, 0,
    false, none, [], [], 0, 0⟩

/-- A machine in which core k moves next; dome 0 belongs to virtual function 0. -/
def machine (k : Nat) (c : Core) : State :=
  { State.reset with
    cores := [(k, c)]
    cur := k
    vfs := [(0, { Vf.reset with domes := [0] })]
    launches := [(0, someLaunch)] }

/-- Registers written. -/
def withG (c : Core) (l : List (GReg × Reg)) : Core := l.foldl (fun c x => c.setG x.1 x.2) c
def withF (c : Core) (l : List (FReg × Reg)) : Core := l.foldl (fun c x => c.setF x.1 x.2) c
def withV (c : Core) (l : List (VecReg × VReg)) : Core := l.foldl (fun c x => c.setV x.1 x.2) c

/-- Core 0 moves next with g registers as listed. -/
def gs (l : List (GReg × Reg)) : State := machine 0 (withG (running 0) l)

/-- DATA. -/
def num (n : Nat) : Reg := Reg.data (w64 n)

/-- A capability over the whole address space with every permission. -/
def whole (v : Nat) : Reg := Reg.mkCap (w64 v) 0xFF60000001000000

/-- What a g register holds in a next state. -/
def outG (o : Out) (d : GReg) : Option Reg := match o with | .next t => some (t.me.readG d) | _ => none
def outF (o : Out) (d : FReg) : Option Reg := match o with | .next t => some (t.me.readF false d) | _ => none
def outV (o : Out) (d : VecReg) : Option VReg := match o with | .next t => some (t.me.readV d) | _ => none

/-- The cause and detail that a fault has left in FCAUSE, with FADDR. -/
def outFault (o : Out) : Option (BitVec 16 × Word) := match o with | .next t => some (t.me.fcause, t.me.faddr) | _ => none

/-- A vector of eight 32-bit elements. -/
def lanes (l : List Nat) : VReg := ⟨packElems 32 l, 0⟩

/-! ## Worked examples of the spec -/

/-- The capability of the example under R94. -/
def exampleCap (v : Nat) : Reg := Reg.mkCap (w64 v) 0xC010000200000010

theorem test_capability_bounds :
    capBase 0xC010000200000010 0x001000001080 = 0x001000001000 ∧ capTop 0xC010000200000010 0x001000001080 = 0x001000001100 ∧
    capFault (exampleCap 0x001000001080) 0x0010000010F8 8 [.r] = 0 ∧
    capFault (exampleCap 0x001000001080) 0x0010000010FC 8 [.r] = 3 := by decide +kernel

theorem test_addi_on_a_capability :
    outG (exec (.addi 5 3 0x80) (gs [(3, exampleCap 0x001000001080)])) 5 = some (exampleCap 0x001000001100) ∧
    outG (exec (.addi 5 3 0x81) (gs [(3, exampleCap 0x001000001080)])) 5 = some (num 0x001000001101) := by decide +kernel

theorem test_cbnd_of_the_example :
    outG (exec (.cbnd 6 5 7) (gs [(5, exampleCap 0x001000001040), (7, num 0x40)])) 6 =
      some (Reg.mkCap 0x001000001040 0xC000002080000040) := by decide +kernel

theorem test_ld_faults_of_the_example :
    outFault (exec (.ld .s64 0 5 3 4) (gs [(3, exampleCap 0x001000001000), (4, num 0xFC)])) = some (0x0305, 0x0010000010FC) ∧
    outFault (exec (.ld .s64 0 5 3 4) (gs [(3, exampleCap 0x001000001000), (4, num 0x04)])) = some (0x0004, 0x001000001004) ∧
    outFault (exec (.ld .s64 0 5 3 4) (gs [(3, exampleCap 0x001000001000), (4, num 0x100)])) = some (0x0305, 0x001000001100) := by
  decide +kernel

theorem test_ld_of_the_example :
    outG (exec (.ld .s64 0 5 3 4)
      { gs [(3, exampleCap 0x001000001000), (4, num 0xF8)] with
        mem := Memory.reset.writeData (Visibility.everyone .station) 0x0010000010F8 [8, 7, 6, 5, 4, 3, 2, 0xF1] }) 5 =
      some (num 0xF102030405060708) := by decide +kernel

theorem test_stack_window_of_the_example :
    (machine 0x905 { running 0x905 with
      act := some { placedAct with
        carve := 4
        slim := 8
        ovf := 0x001100000000 }
      splo := 0x00006417F000
      ovfptr := 0x001124140000 }).redirect 0x905 0x00006417EFF8 = .dest 0x00112417EFF8 := by decide +kernel

theorem test_ephemeris_of_the_example :
    resolveReg (Reg.eph .f32 0 0x40400000 0xB4800000) (num 0x3F800001) = num 0x40400000 := by decide +kernel

theorem test_region_record_of_the_example :
    (match exec (.rgn 0) { gs [] with
      mem := Memory.reset.writeData (Visibility.everyone .station) 0x10000 [0x18, 0, 0, 0, 0, 0, 0, 0, 0, 0, 1, 0, 0, 0, 0, 0] } with
      | .next t => t.me.act.map fun a => (a.gmask, a.fmask, a.entry)
      | _ => none) = some (0x18, 0, false) := by decide +kernel

theorem test_fcvt_of_the_example :
    outG (exec (.fcvt .f32 .s32 .rtz 0 6 2) (machine 0 (withF (running 0) [(2, num 0xC02CCCCD)]))) 6 =
      some (num 0xFFFFFFFFFFFFFFFE) := by decide +kernel

theorem test_vqnt_rounds_once :
    (outV (exec (.vqnt .e4m3 0 4 1 2) (machine 0 (withV (running 0)
      [(1, lanes (List.replicate 8 0x3F88000D)), (2, lanes (List.replicate 8 0x3F80000C))]))) 4).map (·.value) =
      some 0x3939393939393939 := by decide +kernel

theorem test_vdiv_then_vcvt_rounds_twice :
    fp32.div .rne 0x3F88000D 0x3F80000C = 0x3F880000 ∧
    tyConvert .e4m3 .rne 23 (tyValue .f32 0x3F880000) = 0x38 := by decide +kernel

/-- The eight elements of the example under R193. -/
def relu : VReg := lanes [0xC0000000, 0x40400000, 0x80000000, 0x7FC00000, 0x80000001, 0x40A00000, 0xFF800000, 0x3F000000]

theorem test_vcmp_of_the_example :
    outV (exec (.vcmp .f32 0 7 1 6) (machine 0 (withV (running 0) [(1, relu), (6, lanes [])]))) 7 =
      some (lanes [1, 4, 2, 8, 1, 4, 1, 4]) := by decide +kernel

theorem test_vsel_of_the_example :
    outV (exec (.vsel .s32 0 7 6 1) (machine 0 (withV (running 0) [(1, relu), (6, lanes []), (7, lanes [1, 0, 0, 0, 1, 0, 1, 0])]))) 7 =
      some (lanes [0, 0x40400000, 0x80000000, 0x7FC00000, 0, 0x40A00000, 0, 0x3F000000]) := by decide +kernel

theorem test_vred_of_the_example :
    outV (exec (.vred .f32 0 2 1 .sum) (machine 0 (withV (running 0)
      [(1, lanes [0x4B800000, 0x3F800000, 0x3F800000, 0x3F800000, 0x3F800000, 0x3F800000, 0x3F800000, 0xCB800000])]))) 2 =
      some (lanes [0x40A00000]) := by decide +kernel

theorem test_renormalisation_of_the_example :
    (let m : Vector Int 256 := Vector.ofFn fun j => if j.val = 0 then 2 ^ 47 - 2 else if j.val = 1 then 5 else 0
    let r := accUpdate (fun _ => true) (fun j => if j.val = 0 then 3 * 2 ^ 300 else if j.val = 1 then 2 ^ 300 else 0) 0 65537 m 0
    (r.1[0], r.1[1], r.1[2], r.2)) = (2 ^ 46 + 1, 2, 0, 1, false) := by decide +kernel

theorem test_rwr_in_either_format :
    fp32.add .rne false 0x3F800001 0x3F800000 = 0x40000000 ∧ fp32.add .rne false 0x3F800000 0x3F800000 = 0x40000000 := by
  decide +kernel

theorem test_near_body_of_the_example :
    decodeNear 0x00E3C381 = .ok (.nearTwoMoves 0 0x0E 0x0F 0 0x0E 0x01) ∧
    decodeNear 0x00A48750 = .ok (.nearTwoMoves 0 0x0A 0x12 0 0x1D 0x10) ∧
    decodeNear 0x0117C05E = .ok (.nearTwoMoves 0 0x11 0x1F 0 0x01 0x1E) ∧
    decodeNear 0x40120020 = .ok (.nearImmediateMove 0 0 0x12 0x20) ∧
    decodeNear 0x40610001 = .ok (.nearImmediateMove 0 1 0x21 1) ∧
    decodeNear 0x40220000 = .ok (.nearImmediateMove 0 0 0x22 0) := by decide +kernel

theorem test_illegal_words_of_the_spec : decode32 0xFFFFFFFF = .error 2 ∧ decode16 0 = .error 1 := by decide +kernel

/-! ## Witnesses: a state and operands that meet the hypotheses of each statement -/

/-- A message for class 9 with words 10 to 15. -/
def someMsg (tags : BitVec 12) : Msg := ⟨0, 3, 1, 9, false, false, 0, 0, 0, tags, ⟨#[10, 11, 12, 13, 14, 15], rfl⟩⟩

/-- A packet of it. -/
def somePacket (k : MsgKind) (tags : BitVec 12 := 0) : Packet := ⟨someMsg tags, k, true, [], 0, none⟩

/-- Core 0 with a message pinned in slot 4. -/
def pinnedCore (tags : BitVec 12) : Core :=
  { running 0 with
    slots := (Vector.replicate 32 Slot.free).set 4 (.holds (somePacket .send tags))
    order := [4]
    pinned := some 4 }

theorem witness_RegisterResults :
    regRegRows ≠ [] ∧ (gs [(5, num 7), (6, num 9)]).issues { reads := [.g 5, .g 6], writes := [.g 7] } ∧
    (gs [(5, num 7), (6, num 9)]).me.readG 5 = num 7 ∧ (gs [(5, num 7), (6, num 9)]).me.readG 6 = num 9 :=
  ⟨by simp [regRegRows], State.issues_of rfl (by decide +kernel), by decide +kernel, by decide +kernel⟩

/-- The destination that discards what is written. -/
theorem witness_RegisterResults_g0 :
    (gs [(5, num 7), (6, num 9)]).issues { reads := [.g 5, .g 6], writes := [.g 0] } :=
  State.issues_of rfl (by decide +kernel)

theorem witness_UnaryAndMoveResults_unary :
    unaryRows ≠ [] ∧ (gs [(5, num 7)]).issues { reads := [.g 5], writes := [.g 7] } ∧
    (gs [(5, num 7)]).me.readG 5 = num 7 :=
  ⟨by simp [unaryRows], State.issues_of rfl (by decide +kernel), by decide +kernel⟩

theorem witness_UnaryAndMoveResults_sel :
    let s := gs [(5, num 7), (6, num 9), (7, num 0)]
    s.issues { reads := [.g 5, .g 6, .g 7], writes := [.g 7] } ∧ s.me.readG 5 = num 7 ∧ s.me.readG 6 = num 9 ∧
    s.me.readG 7 = num 0 :=
  ⟨State.issues_of rfl (by decide +kernel), by decide +kernel⟩

theorem witness_UnaryAndMoveResults_movm :
    (gs []).issues { writes := [.g 7] } ∧ (gs []).me.pinned = none ∧
    (let s := machine 0 (pinnedCore 0b01_00_00_00_00)
    s.issues { writes := [.g 7] } ∧ s.me.pinned = some 4 ∧ s.me.slots[4] = .holds (somePacket .send 0b01_00_00_00_00) ∧
    (somePacket .send 0b01_00_00_00_00).msg.tagOf 5 = 0 ∧ (somePacket .send 0b01_00_00_00_00).msg.tagOf 4 = 1) :=
  ⟨State.issues_of rfl (by decide +kernel), by decide +kernel, State.issues_of rfl (by decide +kernel), by decide +kernel⟩

theorem witness_MultiplyAndImmediateResults :
    let s := gs [(5, num (2 ^ 63)), (6, num (2 ^ 64 - 1)), (7, num 3)]
    mulDivRows ≠ [] ∧ immediateRows ≠ [] ∧ shiftRows ≠ [] ∧
    s.issues { reads := [.g 5, .g 6], writes := [.g 7], look := 15 } ∧ s.issues { reads := [.g 5], writes := [.g 7] } ∧
    s.issues { reads := [.g 5, .g 7], writes := [.g 7] } ∧ s.me.readG 5 = num (2 ^ 63) ∧ s.me.readG 6 = num (2 ^ 64 - 1) ∧
    s.me.readG 7 = num 3 ∧ (Instr.slli true 7 5 31).wf = true ∧ (Instr.srai false 7 5 63).wf = true :=
  ⟨by simp [mulDivRows], by simp [immediateRows], by simp [shiftRows], State.issues_of rfl (by decide +kernel),
    State.issues_of rfl (by decide +kernel), State.issues_of rfl (by decide +kernel), by decide +kernel, by decide +kernel,
    by decide +kernel, rfl, rfl⟩

/-- The boundaries of the bit fields: the last bit, and all of them. -/
theorem witness_MultiplyAndImmediateResults_fields :
    (63 : Fin 64).val + (0 : Fin 64).val + 1 ≤ 64 ∧ (0 : Fin 64).val + (63 : Fin 64).val + 1 ≤ 64 := by decide

/-- g5 poisoned, g6 an ephemeris, g7 a number. -/
def lateRegs : State :=
  machine 0 { withG (running 0) [(5, ⟨.pois, 0, 1 <<< 56⟩), (6, Reg.eph .i64 3 1 0), (7, num 3)] with
    sym := (Vector.replicate 32 Sym.reset).set 3 ⟨.pending, 1, .i64, 1⟩ }

theorem witness_PoisonAndWaiting :
    regRegRows ≠ [] ∧ lateRegs.issues { reads := [.g 5, .g 6], writes := [.g 8] } ∧ (lateRegs.me.readG 5).tag = .pois ∧
    lateRegs.issues { reads := [.g 6, .g 5], writes := [.g 8] } ∧ (lateRegs.me.readG 6).tag ≠ .pois ∧
    lateRegs.issues { reads := [.g 7, .g 6], writes := [.g 8] } ∧ (lateRegs.me.readG 7).tag ≠ .pois ∧
    (lateRegs.me.readG 6).tag = .eph ∧ Instr.xor false 8 7 6 ≠ .add false 8 7 6 ∧ Instr.xor false 8 7 6 ≠ .sub false 8 7 6 :=
  ⟨by simp [regRegRows], State.issues_of rfl (by decide +kernel), by decide +kernel, State.issues_of rfl (by decide +kernel),
    by decide +kernel, State.issues_of rfl (by decide +kernel), by decide +kernel, by decide +kernel, by simp, by simp⟩

theorem witness_EphemerisTransforms :
    lateRegs.issues { reads := [.g 6, .g 7], writes := [.g 8] } ∧ lateRegs.me.readG 6 = Reg.eph .i64 3 (1 : BitVec 48).toNat 0 ∧
    (1 : BitVec 48) ≠ 0 ∧ lateRegs.me.readG 7 = Reg.data 3 ∧ (1 : BitVec 48).toInt * (3 : Word).toInt ≠ 0 ∧
    (1 : BitVec 48).toInt * (3 : Word).toInt < 2 ^ 47 ∧ -(2 ^ 47) ≤ (1 : BitVec 48).toInt * (3 : Word).toInt :=
  ⟨State.issues_of rfl (by decide +kernel), by decide +kernel⟩

/-- Two ephemerides of one symbol; the sum of the scales at its bound. -/
theorem witness_EphemerisTransforms_two :
    let s := machine 0 (withG (running 0) [(6, Reg.eph .i64 3 (2 ^ 46) 0), (7, Reg.eph .i64 3 (2 ^ 46 - 1) 5)])
    s.issues { reads := [.g 6, .g 7], writes := [.g 8] } ∧ s.me.readG 6 = Reg.eph .i64 3 (BitVec.ofNat 48 (2 ^ 46)).toNat 0 ∧
    s.me.readG 7 = Reg.eph .i64 3 (BitVec.ofNat 48 (2 ^ 46 - 1)).toNat 5 ∧
    (BitVec.ofNat 48 (2 ^ 46)).toInt + (BitVec.ofNat 48 (2 ^ 46 - 1)).toInt < 2 ^ 47 ∧
    (BitVec.ofNat 48 (2 ^ 46)).toInt + (BitVec.ofNat 48 (2 ^ 46 - 1)).toInt ≠ 0 ∧
    -(2 ^ 47) ≤ (BitVec.ofNat 48 (2 ^ 46)).toInt + (BitVec.ofNat 48 (2 ^ 46 - 1)).toInt :=
  ⟨State.issues_of rfl (by decide +kernel), by decide +kernel⟩

theorem witness_CapabilityResults_arithmetic :
    let s := gs [(5, exampleCap 0x001000001080), (6, num 0x80)]
    s.me.readG 5 = ⟨.cap, 0x001000001080, 0xC010000200000010⟩ ∧ s.me.readG 6 = Reg.data 0x80 ∧
    s.issues { reads := [.g 5, .g 6], writes := [.g 7] } ∧ s.issues { reads := [.g 5], writes := [.g 7] } :=
  ⟨by decide +kernel, by decide +kernel, State.issues_of rfl (by decide +kernel), State.issues_of rfl (by decide +kernel)⟩

theorem witness_CapabilityResults_reading :
    let s := gs [(5, exampleCap 0x001000001080), (6, num 9), (7, ⟨.pois, 0, 1 <<< 56⟩)]
    s.issues { reads := [.g 5], writes := [.g 8] } ∧ s.me.readG 5 = ⟨.cap, 0x001000001080, 0xC010000200000010⟩ ∧
    s.issues { reads := [.g 6], writes := [.g 8] } ∧ s.me.readG 6 = Reg.data 9 ∧
    s.issues { reads := [.g 7], writes := [.g 8] } ∧ (s.me.readG 7).tag = .pois :=
  ⟨State.issues_of rfl (by decide +kernel), by decide +kernel, State.issues_of rfl (by decide +kernel), by decide +kernel,
    State.issues_of rfl (by decide +kernel), by decide +kernel⟩

/-- CBND of 2^25 bytes needs G = 1; a malformed capability; a length of 0. -/
theorem witness_CapabilityResults_cbnd :
    let s := gs [(5, whole 0x2000000), (6, num (2 ^ 25)), (7, Reg.mkCap 0 0)]
    s.issues { reads := [.g 5, .g 6], writes := [.g 8] } ∧ s.me.readG 5 = ⟨.cap, 0x2000000, 0xFF60000001000000⟩ ∧
    s.me.readG 6 = Reg.data (w64 (2 ^ 25)) ∧ malformed 0xFF60000001000000 0x2000000 = false ∧ (w64 (2 ^ 25)) ≠ 0 ∧
    (0x2000000 + 2 ^ 25 + 2 ^ 1 - 1) / 2 ^ 1 - 0x2000000 / 2 ^ 1 ≤ 2 ^ 25 - 1 ∧
    (∀ h < 1, 2 ^ 25 - 1 < (0x2000000 + 2 ^ 25 + 2 ^ h - 1) / 2 ^ h - 0x2000000 / 2 ^ h) ∧
    capBase 0xFF60000001000000 0x2000000 ≤ ((0x2000000 / 2 ^ 1 * 2 ^ 1 : Nat) : Int) ∧
    (((0x2000000 + 2 ^ 25 + 2 ^ 1 - 1) / 2 ^ 1 * 2 ^ 1 : Nat) : Int) ≤ capTop 0xFF60000001000000 0x2000000 ∧
    malformed 0 0 = true :=
  ⟨State.issues_of rfl (by decide +kernel), by decide +kernel⟩

theorem witness_CapabilitiesNeverWiden :
    let s := gs [(5, exampleCap 0x001000001040), (7, num 0x40)]
    s.issues { reads := [.g 5, .g 7], writes := [.g 6] } ∧ (s.me.readG 7).tag = .data ∧ (s.me.readG 5).tag = .cap ∧
    (outG (exec (.cbnd 6 5 7) s) 6).map (·.tag) = some .cap ∧ (6 : GReg) ≠ 0 :=
  ⟨State.issues_of rfl (by decide +kernel), by decide +kernel⟩

theorem witness_EphemerisInstructions_ewait :
    lateRegs.issues { reads := [gfName (.g 6)] } ∧ (lateRegs.me.readGF false (.g 6)).tag = .eph ∧
    lateRegs.issues { reads := [gfName (.g 7)] } ∧ (lateRegs.me.readGF false (.g 7)).tag ≠ .eph ∧ GFReg.g 6 ≠ .g 0 ∧
    lateRegs.issues { reads := allNames } ∧ (lateRegs.me.g[6]).tag = .eph ∧ (gs []).issues { reads := allNames } ∧
    (machine 0 (withF (running 0) [(3, Reg.eph .f32 3 0x3F800000 0)])).issues { reads := allNames } ∧
    ((machine 0 (withF (running 0) [(3, Reg.eph .f32 3 0x3F800000 0)])).me.f[3]).tag = .eph ∧
    (∀ r : GReg, (gs []).me.g[r.val].tag ≠ .eph) ∧ ∀ r : FReg, (gs []).me.f[r.val].tag ≠ .eph :=
  ⟨State.issues_of rfl (by decide +kernel), by decide +kernel, State.issues_of rfl (by decide +kernel), by decide +kernel,
    by decide, State.issues_of rfl (by decide +kernel), by decide +kernel, State.issues_of rfl (by decide +kernel),
    State.issues_of rfl (by decide +kernel), by decide +kernel⟩

theorem witness_EphemerisInstructions_edrop :
    lateRegs.issues { writes := [.g 8] } ∧ lateRegs.issues { reads := [gfName (.g 7)] } ∧
    (lateRegs.me.readGF false (.g 7)).tag ≠ .eph ∧ (lateRegs.me.readGF false (.g 6)).tag = .eph ∧
    lateRegs.issues { reads := [gfName (.g 6)], writes := lateRegs.me.holders (symOf (lateRegs.me.readGF false (.g 6))) } :=
  ⟨State.issues_of rfl (by decide +kernel), State.issues_of rfl (by decide +kernel), by decide +kernel, by decide +kernel,
    State.issues_of rfl (by decide +kernel)⟩

theorem witness_BranchAndJumpResults :
    branchRows ≠ [] ∧ (gs [(5, num 7), (6, num 7)]).issues { reads := [.g 5, .g 6] } ∧
    (gs [(5, num 7), (6, num 7)]).me.readG 5 = num 7 ∧ (gs [(5, num 7), (6, num 7)]).me.readG 6 = num 7 ∧
    lateRegs.issues { reads := [.g 5, .g 7] } ∧ (lateRegs.me.readG 5).tag = .pois ∧ (lateRegs.me.readG 7).tag ≠ .eph ∧
    (gs []).issues {} ∧ (gs []).issues { writes := [.g 1] } :=
  ⟨by simp [branchRows], State.issues_of rfl (by decide +kernel), by decide +kernel, by decide +kernel,
    State.issues_of rfl (by decide +kernel), by decide +kernel, by decide +kernel, State.issues_of rfl (by decide +kernel),
    State.issues_of rfl (by decide +kernel)⟩

/-- JALR through DATA at an even and an odd address, and through a capability with X. -/
theorem witness_BranchAndJumpResults_jalr :
    let s := gs [(5, num 0x4000), (6, num 0x4001), (7, whole 0x4000)]
    s.issues { reads := [.g 5], writes := [.g 1] } ∧ (s.me.readG 5).tag ≠ .eph ∧ (s.me.readG 5).tag ≠ .pois ∧
    ((s.me.readG 5).value + (0 : BitVec 15).signExtend 64).getLsbD 0 = false ∧
    ((s.me.readG 6).value + (0 : BitVec 15).signExtend 64).getLsbD 0 = true ∧ (s.me.readG 7).tag = .cap ∧
    capFault (s.me.readG 7) ((s.me.readG 7).value + (0 : BitVec 15).signExtend 64).toNat 2 [.x] = 0 ∧
    (exec (.jalr 1 5 0) s) = .next (match exec (.jalr 1 5 0) s with | .next t => t | _ => s) :=
  ⟨State.issues_of rfl (by decide +kernel), by decide +kernel, by decide +kernel, by decide +kernel, by decide +kernel,
    by decide +kernel, by decide +kernel, rfl⟩

/-- The bytes of a region record whose live-in set is g3 and g4. -/
def someRecord : List Byte := [0x18, 0, 0, 0, 0, 0, 0, 0, 0, 0, 1, 0, 0, 0, 0, 0]

/-- Core 0 at a region record. -/
def atRecord : State :=
  { gs [(3, num 1), (4, num 2)] with mem := Memory.reset.writeData (Visibility.everyone .station) 0x10000 someRecord }

theorem witness_RegionBegins :
    (Instr.rgn 0, (0 : BitVec 25).signExtend 64, 4) ∈
      [(Instr.rgn 0, (0 : BitVec 25).signExtend 64, 4), (.cRgn 0, (0 : BitVec 11).signExtend 64, 2)] ∧
    atRecord.issues { rgn := true } ∧ atRecord.issues { rgn := true, len := 2 } ∧ atRecord.me.act = some placedAct ∧
    (atRecord.fetch atRecord.cur ((atRecord.me.pc &&& ~~~(15 : Word)) + 0 * 16).toNat 16).1 = .ok someRecord ∧
    leNat someRecord = (0x18 : BitVec 32).toNat + 2 ^ 80 ∧ (0x18 : BitVec 32).getLsbD 0 = false ∧ atRecord.me.owed = [] ∧
    (∀ r : GReg, (0x18 : BitVec 32).getLsbD r.val = true → atRecord.me.g[r.val].tag ≠ .eph) ∧
    ∀ r : FReg, (0 : BitVec 16).getLsbD r.val = true → atRecord.me.f[r.val].tag ≠ .eph :=
  ⟨List.mem_cons_self, State.issues_of rfl (by decide +kernel), State.issues_of rfl (by decide +kernel), by decide +kernel⟩

/-- Core 0 in an activation of a kind. -/
def inKind (k : MsgKind) : State := machine 0 { running 0 with act := some { placedAct with kind := k } }

theorem witness_TrapsAndActivationEnds :
    (gs []).issues {} ∧ (inKind .send).issues { commit := true } ∧ (inKind .send).me.act = some { placedAct with kind := .send } ∧
    (∀ r, MsgKind.send ≠ .task r) ∧ (inKind (.task ⟨0, 0, 0⟩)).issues { commit := true } ∧
    (∃ r, MsgKind.task ⟨0, 0, 0⟩ = .task r) :=
  ⟨State.issues_of rfl (by decide +kernel), State.issues_of rfl (by decide +kernel), by decide +kernel, nofun,
    State.issues_of rfl (by decide +kernel), ⟨_, rfl⟩⟩

/-- Core 0 with one dirty line. -/
def someLine : Line := ⟨0x3000, List.replicate 64 1, List.replicate 4 false, List.replicate 8 none, true⟩
def oneLine : State :=
  { machine 0 { withG (running 0) [(5, num 0x3000), (6, num 64)] with dcache := [someLine] } with
    mem := Memory.reset.place 0 0 }

theorem witness_CacheInstructions :
    oneLine.issues { reads := [.g 5] } ∧ oneLine.issues { reads := [.g 5, .g 6] } ∧ (oneLine.me.readG 5).tag ≠ .eph ∧
    (oneLine.me.readG 5).tag ≠ .pois ∧ (oneLine.me.readG 6).tag ≠ .eph ∧ (oneLine.me.readG 6).tag ≠ .pois ∧
    oneLine.mem.wf = true ∧ oneLine.me.buf = [] ∧ oneLine.me.dcache = [someLine] ∧ someLine.dirty = true ∧
    someLine.inSpans (oneLine.spansOf oneLine.cur 0x3000 64).1 = true ∧ someLine.bytes.length = 64 :=
  ⟨State.issues_of rfl (by decide +kernel), State.issues_of rfl (by decide +kernel), by decide +kernel, by decide +kernel,
    by decide +kernel, by decide +kernel, by decide +kernel, by decide +kernel, by decide +kernel, rfl, by decide +kernel, rfl⟩

theorem witness_SystemRegisters :
    (gs [(5, num 16)]).issues { writes := [.g 7] } ∧ (gs [(5, num 16)]).issues { reads := [.g 5], writes := [.g 7] } ∧
    ((gs [(5, num 16)]).me.readG 5).tag ≠ .eph ∧ ((gs [(5, num 16)]).me.readG 5).tag ≠ .pois ∧
    SysReg.kid ∉ [SysReg.mwgt, .dseed, .dkeep] ∧ SysReg.mwgt ∈ [SysReg.mwgt, .dseed, .dkeep] ∧
    ((num 16).value.truncate 4 : BitVec 4) = 0 :=
  ⟨State.issues_of rfl (by decide +kernel), State.issues_of rfl (by decide +kernel), by decide +kernel⟩

theorem witness_FaultIsTaken :
    ((machine 0 (pinnedCore 0)).core 0).act = some placedAct ∧ ((machine 0 (pinnedCore 0)).core 0).pinned = some 4 ∧
    mget (machine 0 (pinnedCore 0)).launches placedAct.launch = some someLaunch ∧ someLaunch.counts.members < 2 ^ 32 - 1 ∧
    (machine 0 (pinnedCore 0)).inPartition someLaunch.vf someLaunch.desc.super = true := by
  decide +kernel

/-- A tile load that waits in the queue, and its window. -/
def tileLoads : State :=
  { machine 0 { running 0 with windows := [⟨[.t 1], 2, 2⟩] } with
    mats := [(0, { MatCore.reset with queue := [⟨.tld false 1 ⟨1, .s8, 8⟩ [] [], 0, []⟩] })] }

theorem witness_IssueRules_blocked : tileLoads.me.act = some placedAct ∧ tileLoads.lookBlocked { reads := [.g 5] } = true := by
  decide +kernel

/-- The second of two windows is violated, at its last position. -/
theorem witness_IssueRules_violation :
    let s := machine 0 { running 0 with windows := [⟨[.g 9], 0, 3⟩, ⟨[.g 5], 1, 2⟩] }
    s.me.act = some placedAct ∧ s.lookBlocked { reads := [.g 5] } = false ∧
    s.me.windows = [⟨[.g 9], 0, 3⟩] ++ ⟨[.g 5], 1, 2⟩ :: [] ∧
    (∀ v ∈ [(⟨[.g 9], 0, 3⟩ : Window)], v.len ≤ v.pos ∨ ∀ r ∈ v.regs, r ∉ [RegName.g 5] ∧ r ∉ ([] : List RegName)) ∧ 1 < 2 ∧
    ∃ r ∈ [RegName.g 5], r ∈ [RegName.g 5] ∨ r ∈ ([] : List RegName) :=
  ⟨by decide +kernel, by decide +kernel, by decide +kernel, by decide, by decide, .g 5, by simp, by simp⟩

theorem witness_IssueRules_commit :
    let s := machine 0 { running 0 with act := some { placedAct with commit := true } }
    s.me.act = some { placedAct with commit := true } ∧ s.lookBlocked { writes := [.g 5] } = false ∧
    (∀ w ∈ s.me.windows, w.len ≤ w.pos ∨ ∀ r ∈ w.regs, r ∉ ([] : List RegName) ∧ r ∉ [RegName.g 5]) := by decide +kernel

theorem witness_IssueRules_live_in :
    let a : Act := { placedAct with gmask := 0x20, fmask := 0x8000, vmask := 1, tmask := 0x80 }
    let s := machine 0 { running 0 with act := some a }
    s.me.act = some a ∧ s.lookBlocked { writes := [.g 5] } = false ∧ s.lookBlocked { writes := [.v 0] } = false ∧
    s.lookBlocked { writes := [.t 7] } = false ∧ a.gmask.getLsbD (5 : GReg).val = true ∧ a.fmask.getLsbD (15 : FReg).val = true ∧
    a.vmask.getLsbD (0 : VecReg).val = true ∧ a.tmask.getLsbD (7 : TReg).val = true := by decide +kernel

/-- The last base core of a dome, and an X64 instruction. -/
theorem witness_IssueRules_x64 :
    let s := machine 87 (running 87)
    s.me.act = some placedAct ∧ s.lookBlocked { writes := [.f 5], x64 := true } = false ∧ s.me.windows = [] ∧
    (∀ r ∈ [RegName.f 5], placedAct.liveIn r = false) ∧ s.cur % 128 < 88 := by decide +kernel

theorem witness_IllegalEncodings :
    (gs []).me.act.isSome = true ∧ (gs []).me.wait = none ∧ (gs []).agenda = [] ∧ (gs []).nearCur = none ∧
    (gs []).idles (gs []).cur = false ∧ (gs []).preempts (gs []).cur = false ∧
    ((gs []).fetchInstr (gs []).cur (gs []).me.pc.toNat).1 = .ok (.error 1) ∧
    ((gs []).fetchInstr (gs []).cur (gs []).me.pc.toNat).2.me.act.isSome = true := by decide +kernel

/-- Core 0 with a capability over everything in g3, and numbers. -/
def loads : State :=
  machine 0 (withG (running 0) [(3, whole 0x3000), (4, num 32), (5, Reg.mkCap 0x3000 0x3F60000001000000), (6, num 2)])

/-- An access that reaches page memory through the TLB. -/
theorem reaches_of {s : State} {x : Reg} {addr : Word} {size : Nat} {perms : List Perm} {rights : List Access} {va : Nat}
    {p : Place} (h : (capFault x addr.toNat size perms == 0 && addr.toNat % size == 0 && s.redirect s.cur addr.toNat == .same &&
      va == addr.toNat && s.translate s.cur va rights == (.ok p, s) && s.passWm va size == s &&
      !s.me.wmBlocked va size && !s.tileDue && !s.heldAt p.pa) = true) :
    s.Reaches x addr size perms rights va p s := by
  simp only [Bool.and_eq_true, beq_iff_eq, Bool.not_eq_true'] at h
  obtain ⟨⟨⟨⟨⟨⟨⟨⟨h1, h2⟩, h3⟩, h4⟩, h5⟩, h6⟩, h7⟩, h8⟩, h9⟩ := h
  exact ⟨h1, h2, h9, .inl ⟨h3, h4⟩, ⟨s, h5, h6.symm⟩, h7, h8⟩

theorem witness_LoadResults_ld :
    (loads.me.readG 3).tag ≠ .eph ∧ (loads.me.readG 4).tag ≠ .eph ∧ (loads.me.readG 4).tag ≠ .pois ∧
    (Instr.ld .f64 15 15 3 4).wf = true ∧ loads.issues { reads := [.g 3, .g 4], writes := [rawName true 15], look := 15 } ∧
    loads.Reaches (whole 0x3000) (0x3000 + 32) 8 [.r] [.read] 0x3020 ⟨0x3020, 0, 0⟩ loads ∧
    (Instr.ldacq .z8 7 3 4).wf = true ∧ loads.issues { reads := [.g 3, .g 4], writes := [.g 7] } ∧
    loads.Reaches (whole 0x3000) (0x3000 + 32) 1 [.r] [.read] 0x3020 ⟨0x3020, 0, 0⟩ loads :=
  ⟨by decide +kernel, by decide +kernel, by decide +kernel, rfl, State.issues_of rfl (by decide +kernel),
    reaches_of (by decide +kernel), rfl, State.issues_of rfl (by decide +kernel), reaches_of (by decide +kernel)⟩

theorem witness_LoadResults_wide :
    loads.issues { reads := [.g 3, .g 4], writes := [.g 7], look := 1 } ∧
    loads.Reaches (whole 0x3000) (0x3000 + 32) 16 [.r] [.read] 0x3020 ⟨0x3020, 0, 0⟩ loads ∧
    loads.issues { reads := [.g 3, .g 4], writes := [.v 7], look := 1 } ∧
    loads.Reaches (whole 0x3000) (0x3000 + 32) 32 [.r] [.read] 0x3020 ⟨0x3020, 0, 0⟩ loads :=
  ⟨State.issues_of rfl (by decide +kernel), reaches_of (by decide +kernel), State.issues_of rfl (by decide +kernel),
    reaches_of (by decide +kernel)⟩

theorem witness_LoadResults_lde :
    (Instr.lde .f32 15 3 4).wf = true ∧ loads.issues { reads := [.g 3, .g 4], writes := [rawName true 15] } ∧
    loads.Reaches (whole 0x3000) (0x3000 + 32) 4 [.r] [.read] 0x3020 ⟨0x3020, 0, 0⟩ loads ∧ loads.me.freeSym = some 0 ∧
    (∀ e ∈ loads.me.buf, e.acquire = false ∧ e.meets 0x3020 4 = false) ∧ (15 : Fin 32).val ≠ 0 :=
  ⟨rfl, State.issues_of rfl (by decide +kernel), reaches_of (by decide +kernel), by decide +kernel⟩

/-- A buffered store of eight bytes at 0x3020. -/
def someStore (data : Nat) : BufEntry := ⟨0x3020, 0x3020, 8, 0, false, false, false, false, .store data 0 false, []⟩

theorem witness_LoadedValues :
    (∀ e ∈ (loads.core 0).buf, e.acquire = false ∧ e.meets 0x3020 8 = false) ∧
    (let s := machine 0 { running 0 with buf := [someStore 1, someStore 0x0807060504030201] }
    (s.core 0).buf = [someStore 1] ++ someStore 0x0807060504030201 :: [] ∧
    (someStore 0x0807060504030201).op = .store 0x0807060504030201 0 false ∧ (someStore 0).pa ≤ 0x3027 ∧
    0x3027 + 1 ≤ (someStore 0).pa + (someStore 0).size ∧ ∀ f ∈ (s.core 0).buf, f.acquire = false) ∧
    (Instr.ld .s8 0 0 0 0).wf = true ∧ ∀ m ∈ ([none] : List (Option Mark)), m = none := by decide +kernel

/-- A load at 0x3020 behind a store of its first half, an atomic on it, and a store that covers it. -/
theorem witness_LoadedValues_drained :
    let half : BufEntry := { someStore 1 with size := 4 }
    let atomic : BufEntry := { someStore 1 with op := .amo .add 1 none }
    let s := machine 0 { running 0 with buf := [someStore 1, half] ++ atomic :: [someStore 2] }
    (s.core 0).buf = [someStore 1] ++ half :: [atomic, someStore 2] ∧ half.meets 0x3020 8 = true ∧ half.pa + half.size < 0x3020 + 8 ∧
    (s.core 0).buf = [someStore 1, half] ++ atomic :: [someStore 2] ∧ atomic.meets 0x3020 8 = true ∧
    (∀ d q g, atomic.op ≠ .store d q g) ∧
    ∀ f ∈ [someStore 2], f.acquire = false ∧
      (f.meets 0x3020 8 = true → ∃ d q g, f.op = .store d q g ∧ f.pa ≤ 0x3020 ∧ 0x3020 + 8 ≤ f.pa + f.size) :=
  ⟨rfl, by decide, by decide, rfl, by decide, by simp, fun f hf => by
    rw [List.mem_singleton.mp hf]
    exact ⟨rfl, fun _ => ⟨2, 0, false, rfl, by decide, by decide⟩⟩⟩

theorem witness_StoreResults :
    (Instr.st .f64 15 3 4).wf = true ∧ loads.issues { reads := [.g 3, .g 4, rawName true 15] } ∧
    loads.Reaches (whole 0x3000) (0x3000 + 32) 8 [.w] [.write] 0x3020 ⟨0x3020, 0, 0⟩ loads ∧
    (loads.me.readRaw true true 15).tag ≠ .eph ∧ (Instr.strel .s64 6 3 4).wf = true ∧
    loads.issues { reads := [.g 3, .g 4, .g 6] } ∧ (loads.me.readG 6).tag ≠ .eph ∧
    loads.Reaches (whole 0x3000) (0x3000 + 32) 32 [.w] [.write] 0x3020 ⟨0x3020, 0, 0⟩ loads ∧
    loads.issues { reads := [.g 3, .g 4, .v 2] } :=
  ⟨rfl, State.issues_of rfl (by decide +kernel), reaches_of (by decide +kernel), by decide +kernel, rfl,
    State.issues_of rfl (by decide +kernel), by decide +kernel, reaches_of (by decide +kernel),
    State.issues_of rfl (by decide +kernel)⟩

/-- STC of a capability, through a base with SCAP and through one with W alone. -/
theorem witness_StoreResults_stc :
    let s := machine 0 (withG (running 0) [(3, whole 0x3000), (4, num 32), (5, Reg.mkCap 0x3000 0xE760000001000000), (6, whole 1)])
    s.issues { reads := [.g 3, .g 4, .g 6] } ∧ (s.me.readG 6).tag = .cap ∧ hasPerm (s.me.readG 3).info .scap = true ∧
    s.Reaches (whole 0x3000) (0x3000 + 32) 16 [.w] [.write] 0x3020 ⟨0x3020, 0, 0⟩ s ∧
    s.issues { reads := [.g 5, .g 4, .g 6] } ∧ hasPerm (s.me.readG 5).info .scap = false ∧
    s.Reaches (Reg.mkCap 0x3000 0xE760000001000000) (0x3000 + 32) 16 [.w] [.write] 0x3020 ⟨0x3020, 0, 0⟩ s :=
  ⟨State.issues_of rfl (by decide +kernel), by decide +kernel, by decide +kernel, reaches_of (by decide +kernel),
    State.issues_of rfl (by decide +kernel), by decide +kernel, reaches_of (by decide +kernel)⟩

/-- The faults of an access: DATA for a base, a malformed capability, the first byte past the top, no R, and a misaligned
address. -/
theorem witness_AccessFaults :
    (Instr.ld .s64 0 7 3 4).wf = true ∧ loads.issues { reads := [.g 3, .g 4], writes := [rawName false 7], look := 0 } ∧
    lateRegs.issues { reads := [.g 5, .g 7], writes := [rawName false 9], look := 0 } ∧ (lateRegs.me.readG 5).tag = .pois ∧
    (lateRegs.me.readG 7).tag ≠ .eph ∧ (lateRegs.me.readG 6).tag = .eph ∧ (loads.me.readG 4).tag ≠ .cap ∧ malformed 0 0 = true ∧
    capTop (exampleCap 0x001000001000).info 0x001000001000 < ((0x0010000010F9 + 8 : Nat) : Int) ∧
    hasPerm (loads.me.readG 5).info .r = false ∧ hasPerm (loads.me.readG 3).info .r = true ∧
    ((loads.me.readG 3).value + (loads.me.readG 6).value).toNat % tyBytes .s64 ≠ 0 :=
  ⟨rfl, State.issues_of rfl (by decide +kernel), State.issues_of rfl (by decide +kernel), by decide +kernel⟩

/-- The stack window overflows with OVF 0, and a translation fails where no table is. -/
theorem witness_AccessFaults_translation :
    ({ (gs []) with cores := [(0, { running 0 with splo := 0x4003F000 })] } : State).redirect 0 0x4003F000 = .same ∧
    ({ (gs []) with cores := [(0, { running 0 with
      splo := 0x4003F800
      act := some { placedAct with slim := 1 } })] } : State).redirect 0 0x4003F000 = .overflow ∧
    ((machine 0 { running 0 with tlb := [] }).translate 0 0x3000 [.read]).1 = .error 2 := by decide +kernel

/-- Core 0 with one entry in its store buffer. -/
def buffered (e : BufEntry) : State := machine 0 { running 0 with buf := [e] }

/-- An entry at page memory or, from 2^51 on, at a slice. -/
def someEntry (pa size : Nat) (op : BufOp) : BufEntry := ⟨0x3020, pa, size, 0, false, false, false, false, op, []⟩

theorem witness_StoresAndAtomicsPerformed_store :
    (buffered (someEntry 0x3020 8 (.store 0x1234 0 false))).mem.wf = true ∧
    ((buffered (someEntry 0x3020 8 (.store 0x1234 0 false))).core 0).buf = someEntry 0x3020 8 (.store 0x1234 0 false) :: [] ∧
    ((buffered (someEntry 0x3020 8 (.store 0x1234 0 false))).core 0).ldes = [] ∧
    (someEntry 0x3020 8 (.store 0x1234 0 false)).isRemote 0 = false ∧
    (someEntry 0x8000002000000 8 (.store 0x1234 0 false)).isRemote 0 = true ∧
    (someEntry 0x8000000000000 8 (.store 0x1234 0 false)).isRemote 0 = false ∧
    (buffered (someEntry 0x3020 8 (.store 0x1234 0 false))).heldAt 0x3020 = false ∧
    (buffered (someEntry 0x8000002000000 8 (.store 0x1234 0 false))).heldAt 0x8000002000000 = false := by decide +kernel

theorem witness_StoresAndAtomicsPerformed_atomic :
    amoRows ≠ [] ∧ ((buffered (someEntry 0x3020 4 (.amo .swap (2 ^ 32 - 1) (some ⟨3, 1⟩)))).core 0).buf =
      someEntry 0x3020 4 (.amo .swap (2 ^ 32 - 1) (some ⟨3, 1⟩)) :: [] ∧
    (let s := buffered (someEntry 0x3020 4 (.amo .swap (2 ^ 32 - 1) (some ⟨3, 1⟩)))
    s.heldAt 0x3020 = false ∧ s.mem.mark (0x3020 / 8) = none ∧ s.mem.upsets = [] ∧ s.mem.wf = true ∧ (s.core 0).ldes = []) ∧ 2 ^ 32 - 1 < 256 ^ 4 ∧ (someEntry 0x3020 8 (.cas 0 5 none)).op = .cas 0 5 none ∧
    (someEntry 0x3020 8 (.rwr .sum .s64 5)).op = .rwr .sum .s64 5 ∧ (someEntry 0x3020 8 (.rwr .max .s64 5)).op = .rwr .max .s64 5 :=
  ⟨by simp [amoRows], by decide +kernel, by decide +kernel, by decide, rfl, rfl, rfl⟩

/-- g3 a capability over everything, g4 and g6 numbers. -/
def atoms : State := machine 0 (withG (running 0) [(3, whole 0x3020), (4, num 32), (6, num 2)])

theorem witness_AtomicInstructions :
    amoRows ≠ [] ∧ rwrRows ≠ [] ∧ (atoms.me.readG 3).tag ≠ .eph ∧ (atoms.me.readG 4).tag ≠ .eph ∧ (atoms.me.readG 4).tag ≠ .pois ∧
    atoms.issues { reads := [.g 3, .g 4], writes := [.g 7], commit := true } ∧
    (atoms.performLdes atoms.cur fun _ => true) = atoms ∧
    atoms.Reaches (atoms.me.readG 3) (atoms.me.readG 3).value 8 [.r, .w, .atom] [.read, .write] 0x3020 ⟨0x3020, 0, 0⟩ atoms ∧
    atoms.me.freeSym = some 0 ∧ (atoms.me.readG 6).tag ≠ .eph ∧ (atoms.me.readG 6).tag ≠ .pois ∧
    atoms.issues { reads := [.g 3, .g 4, .g 6], writes := [.g 6], commit := true } ∧
    (Instr.rwrSum true .f32 3 15).wf = true ∧ atoms.issues { reads := [.g 3, rawName true 15], commit := true } ∧
    (atoms.me.readRaw true false 15).tag ≠ .eph ∧ atoms.me.buf.length < 16 :=
  ⟨by simp [amoRows], by simp [rwrRows], by decide +kernel, by decide +kernel, by decide +kernel,
    State.issues_of rfl (by decide +kernel), by decide +kernel, reaches_of (by decide +kernel), by decide +kernel,
    by decide +kernel, by decide +kernel, State.issues_of rfl (by decide +kernel), rfl, State.issues_of rfl (by decide +kernel),
    by decide +kernel, by decide +kernel⟩

/-- Without a request for g0 no symbol is needed; with all 32 taken none is free. -/
theorem witness_symReady : (gs []).symReady 0 ∧ (gs []).symReady 7 ∧
    ¬ (machine 0 { running 0 with sym := Vector.replicate 32 ⟨.pending, 1, .i64, 1⟩ }).symReady 7 :=
  ⟨.inl rfl, .inr (by decide +kernel), fun h => h.elim (by decide) fun h => h (by decide +kernel)⟩

theorem witness_FenceAndWaitaResults :
    atoms.issues { reads := [.g 3] } ∧ (atoms.me.readG 3).tag ≠ .eph ∧ (atoms.me.readG 3).tag ≠ .pois ∧
    (Instr.waita .s64 7 3 4).wf = true ∧ atoms.issues { reads := [.g 3, .g 4], writes := [.g 7] } ∧
    atoms.Reaches (atoms.me.readG 3) (atoms.me.readG 3).value 8 [.r] [.read] 0x3020 ⟨0x3020, 0, 0⟩ atoms ∧
    atoms.sleeping atoms.cur (0x3020 / 8) = false ∧
    atoms.mem.upsets = [] ∧
    (let w := (atoms.bypass ⟨0x3020, 0, 0⟩).drainPast atoms.cur fun e => e.acquire || e.meets 0x3020 8
    let x := leNat ((List.range' 0x3020 8).map fun q => w.mem.view (.core 0) q)
    (∀ q ∈ wordsOf 0x3020 8, w.mem.viewMark (.core 0) q = none) ∧ x ≠ (atoms.me.readG 4).value.toNat % 256 ^ 8 ∧
      x = (atoms.me.readG 0).value.toNat % 256 ^ 8) :=
  ⟨State.issues_of rfl (by decide +kernel), by decide +kernel, by decide +kernel, rfl, State.issues_of rfl (by decide +kernel),
    reaches_of (by decide +kernel), by decide +kernel⟩

/-- A base core and an extended one with two f registers. -/
def floats : State := machine 0 (withF (running 0) [(1, num 0x40400000), (2, num 0x3F800000), (15, num 0x7FC00000)])
def doubles : State := machine 88 (withF (running 88) [(1, num 0x4008000000000000), (2, num 0x3FF0000000000000)])

theorem witness_FloatResults :
    floats.me.readF false 1 = Reg.data 0x40400000 ∧ floats.me.readF false 2 = Reg.data 0x3F800000 ∧
    floats.issues { reads := [.f 1, .f 2], writes := [.f 3], look := 15, x64 := false } ∧
    floats.issues { reads := [.f 1], writes := [.f 0], look := 0, x64 := false } ∧
    floats.issues { reads := [.f 1, .f 2], writes := [.g 3], look := 0, x64 := false } ∧
    doubles.me.readF true 1 = Reg.data 0x4008000000000000 ∧ doubles.me.readF true 0 = Reg.data 0x3FF0000000000000 ∧
    doubles.issues { reads := [.f 1, .f 0], writes := [.f 3], look := 15, x64 := true } ∧
    doubles.issues { reads := [.f 1], writes := [.g 3], look := 0, x64 := true } ∧ floatRows ≠ [] :=
  ⟨by decide +kernel, by decide +kernel, State.issues_of rfl (by decide +kernel), State.issues_of rfl (by decide +kernel),
    State.issues_of rfl (by decide +kernel), by decide +kernel, by decide +kernel, State.issues_of rfl (by decide +kernel),
    State.issues_of rfl (by decide +kernel), by simp [floatRows]⟩

theorem witness_FloatMovesConversionsAndRounding :
    (gs [(5, num 9)]).issues { reads := [.g 5], writes := [.f 3], look := 1, x64 := false } ∧
    (gs [(5, num 9)]).me.readG 5 = Reg.data 9 ∧
    floats.issues { reads := [.f 1, .f 2, .f 15], writes := [.f 3], look := 1, x64 := false } ∧
    floats.me.readF false 15 = Reg.data 0x7FC00000 ∧ floats.issues { writes := [.f 3] } ∧
    (Instr.fcvt .f32 .s32 .rtz 0 31 1).wf = true ∧
    floats.issues { reads := [rawName true 1], writes := [rawName false 31], look := 0, x64 := false } ∧
    floats.me.readRaw true false 1 = Reg.data 0x40400000 ∧ (31 : Fin 32).val ≠ 0 ∧ 0 < 2 ∧ 2 * (5 % 2) = 2 :=
  ⟨State.issues_of rfl (by decide +kernel), by decide +kernel, State.issues_of rfl (by decide +kernel), by decide +kernel,
    State.issues_of rfl (by decide +kernel), rfl, State.issues_of rfl (by decide +kernel), by decide +kernel⟩

/-- v1 and v2 clean, v3 with its lane 1 poisoned. -/
def vectors : State := machine 0 (withV (running 0) [(1, lanes [1, 2, 3, 4, 5, 6, 7, 8]), (2, lanes [8, 7, 6, 5, 4, 3, 2, 1]), (3, ⟨0, 2⟩)])

theorem witness_VectorElementResults :
    vecRows ≠ [] ∧ (Instr.vadd .f16 15 4 1 3).wf = true ∧
    vectors.issues { reads := [.v 1, .v 3], writes := [.v 4], look := 15, x64 := false } ∧
    (vectors.me.readV 1).pois ||| (vectors.me.readV 2).pois = 0 ∧ (vectors.me.readV 3).pois ≠ 0 ∧
    (Instr.vadd .f64 0 4 1 2).wf = true ∧
    (machine 88 (running 88)).issues { reads := [.v 1, .v 2], writes := [.v 4], look := 0, x64 := true } :=
  ⟨by simp [vecRows], rfl, State.issues_of rfl (by decide +kernel), by decide +kernel, by decide +kernel, rfl,
    State.issues_of rfl (by decide +kernel)⟩

theorem witness_VectorUnaryAndSelect :
    (Instr.vabs .s8 1 4 1).wf = true ∧ vectors.issues { reads := [.v 1], writes := [.v 4], look := 1, x64 := false } ∧
    (vectors.me.readV 1).pois = 0 ∧ (vectors.me.readV 2).pois = 0 ∧ (vectors.me.readV 4).pois = 0 ∧
    vectors.issues { reads := [.v 1, .v 2], writes := [.v 4], look := 1 } ∧ (Instr.vsel .z8 1 4 1 2).wf = true ∧
    vectors.issues { reads := [.v 1, .v 2, .v 4], writes := [.v 4], look := 1, x64 := false } :=
  ⟨rfl, State.issues_of rfl (by decide +kernel), by decide +kernel, by decide +kernel, by decide +kernel,
    State.issues_of rfl (by decide +kernel), rfl, State.issues_of rfl (by decide +kernel)⟩

theorem witness_VectorLaneMoves :
    let s := machine 0 { withV (withG (running 0) [(5, num 17), (6, num 9)]) [(1, lanes [1, 2]), (3, ⟨0, 2⟩)] with
      f := (Vector.replicate 16 (num 0)).set 2 (num 17) }
    laneTypes.contains Ty.s32 = true ∧ s.issues { reads := [.v 1], writes := [.v 4], look := 1, x64 := false } ∧
    (s.me.readV 1).pois = 0 ∧ s.issues { reads := [.g 5], writes := [.v 4], look := 1, x64 := false } ∧
    s.me.readG 5 = Reg.data 17 ∧ s.issues { reads := [.f 2], writes := [.v 4], look := 1, x64 := false } ∧
    s.me.readF false 2 = Reg.data 17 ∧ s.issues { reads := [.v 1, .v 2], writes := [.v 4], look := 1, x64 := false } ∧
    s.issues { reads := [.v 3, .g 5], writes := [.g 7], look := 1, x64 := false } ∧
    nearPoison 32 (s.me.readV 3).pois (17 % 8 * 32 / 32) = true ∧ nearPoison 32 (s.me.readV 1).pois (17 % 8 * 32 / 32) = false ∧
    s.issues { reads := [.g 6, .g 5, .v 4], writes := [.v 4], look := 1, x64 := false } ∧ (s.me.readV 4).pois = 0 :=
  ⟨rfl, State.issues_of rfl (by decide +kernel), by decide +kernel, State.issues_of rfl (by decide +kernel), by decide +kernel,
    State.issues_of rfl (by decide +kernel), by decide +kernel, State.issues_of rfl (by decide +kernel),
    State.issues_of rfl (by decide +kernel), by decide +kernel, by decide +kernel, State.issues_of rfl (by decide +kernel),
    by decide +kernel⟩

theorem witness_VectorConversions :
    (Instr.vcvt .bf16 .f32 .rup 1 4 1).wf = true ∧ vectors.issues { reads := [.v 1], writes := [.v 4], look := 1, x64 := false } ∧
    (Instr.vqnt .e4m3 1 4 1 2).wf = true ∧ vectors.issues { reads := [.v 1, .v 2], writes := [.v 4], look := 1 } ∧
    (Instr.vqnt .n4 1 4 1 2).wf = true ∧ vectors.issues { reads := [.v 1, .v 2, .v 4], writes := [.v 4], look := 1 } ∧
    (Instr.vdqnt .n4 1 4 1 2).wf = true ∧ (Instr.vpack .z8 1 4 1 2).wf = true ∧ (vectors.me.readV 1).pois = 0 ∧
    (vectors.me.readV 2).pois = 0 ∧ (vectors.me.readV 4).pois = 0 :=
  ⟨rfl, State.issues_of rfl (by decide +kernel), rfl, State.issues_of rfl (by decide +kernel), rfl,
    State.issues_of rfl (by decide +kernel), rfl, rfl, by decide +kernel⟩

theorem witness_CompactResults :
    let s := gs [(5, num 7), (6, num 0), (8, num 0x4001)]
    s.me.readG 5 = Reg.data 7 ∧ s.me.readG 6 = Reg.data 0 ∧ s.issues { reads := [.g 5, .g 6], writes := [.g 5], len := 2 } ∧
    s.issues { reads := [.g 6], writes := [.g 5], len := 2 } ∧ s.issues { reads := [.g 5], writes := [.g 5], len := 2 } ∧
    s.issues { reads := [.g 0], writes := [.g 5], len := 2 } ∧ s.issues { len := 2 } ∧ s.issues { reads := [.g 5, .g 0], len := 2 } ∧
    s.issues { reads := [.g 5], writes := [.g 0], len := 2 } ∧ s.issues { reads := [.g 5], writes := [.g 1], len := 2 } ∧
    (s.me.readG 8).value.getLsbD 0 = true :=
  ⟨by decide +kernel, by decide +kernel, State.issues_of rfl (by decide +kernel), State.issues_of rfl (by decide +kernel),
    State.issues_of rfl (by decide +kernel), State.issues_of rfl (by decide +kernel), State.issues_of rfl (by decide +kernel),
    State.issues_of rfl (by decide +kernel), State.issues_of rfl (by decide +kernel), State.issues_of rfl (by decide +kernel),
    by decide +kernel⟩

theorem witness_CompactResults_memory :
    (atoms.me.readG 3).tag ≠ .eph ∧ atoms.issues { reads := [.g 3, .g 0], writes := [.g 7], len := 2 } ∧
    atoms.Reaches (atoms.me.readG 3) (atoms.me.readG 3).value 4 [.r] [.read] 0x3020 ⟨0x3020, 0, 0⟩ atoms ∧
    atoms.issues { reads := [.g 3, .g 0, .g 6], len := 2 } ∧ (atoms.me.readG 6).tag ≠ .eph ∧
    atoms.Reaches (atoms.me.readG 3) (atoms.me.readG 3).value 8 [.w] [.write] 0x3020 ⟨0x3020, 0, 0⟩ atoms :=
  ⟨by decide +kernel, State.issues_of rfl (by decide +kernel), reaches_of (by decide +kernel),
    State.issues_of rfl (by decide +kernel), by decide +kernel, reaches_of (by decide +kernel)⟩

/-- Core 0 about to send to core 1 through g12, with g13 the header word and g3, g4 the payload. -/
def sends : State :=
  machine 0 (withG (running 0) [(12, whole (2 ^ 40 + 0x40000)), (13, num 0x89), (3, whole 5), (4, num 7), (14, num 3)])

theorem witness_SendResults :
    (3 : GReg).val + 2 ≤ 32 ∧ (sends.me.readG 3).tag = .cap ∧ (∀ i < 2, (sends.me.readG (Fin.ofNat 32 (13 + i))).tag = .data) ∧
    sends.issues { reads := [.g 12, .g 13] ++ payloadNames (sends.me.payloadFrom 3 2), commit := true } ∧
    sends.me.act = some placedAct ∧ (sends.me.readG 13).tag = .data ∧
    (∀ z ∈ payloadVals (sends.me.payloadFrom 3 2), z.tag = .data ∨ z.tag = .cap) ∧ sends.outbound sends.cur < 4 ∧
    mget sends.launches placedAct.launch = some someLaunch ∧ someLaunch.cancelled = false ∧
    someLaunch.counts.members < 2 ^ 32 - 1 ∧ (sends.me.readG 12).tag = .cap ∧
    capFault (sends.me.readG 12) (sends.me.readG 12).value.toNat 1 [.send] = 0 ∧
    ((sends.performLdes sends.cur fun _ => true).translate sends.cur (sends.me.readG 12).value.toNat []).1 =
      .ok ⟨0x8000000040000, 0, 0⟩ ∧ sliceOf 0x8000000040000 = some 1 ∧ sends.inPartition sends.me.vfid 1 = true ∧
    sends.inPartition sends.me.vfid 128 = false :=
  ⟨by decide, by decide +kernel, by decide +kernel, State.issues_of rfl (by decide +kernel), by decide +kernel,
    by decide +kernel, by decide +kernel, by decide +kernel, by decide +kernel, rfl, by decide +kernel⟩

/-- A global word that names package 32767. -/
theorem witness_SendResults_remote :
    let s := { machine 0 (withG (running 0) [(12, num (2 ^ 63 + 32767 * 2 ^ 16 + 65535)), (13, num 9), (3, num 5)]) with
      vfs := [(0, { Vf.reset with domes := [0], remote := true })]
      sc := { Station.reset with package := some 2 } }
    s.me.readG 12 = Reg.data (BitVec.ofNat 64 (2 ^ 63 + 32767 * 2 ^ 16 + 65535)) ∧ s.sc.package = some 2 ∧ 2 ≠ 32767 ∧
    (s.vf s.me.vfid).remote = true ∧ (∀ z ∈ payloadVals (s.me.payloadFrom 3 1), z.tag = .data) ∧
    s.issues { reads := [.g 12, .g 13] ++ payloadNames (s.me.payloadFrom 3 1), commit := true } :=
  ⟨by decide +kernel, by decide +kernel, by decide, by decide +kernel, by decide +kernel, State.issues_of rfl (by decide +kernel)⟩

theorem witness_GroupMessages :
    let s := { sends with groups := [(3, .multicast 0 0 [1, 2]), (4, .reduction 0 0 [0, 1] 2 9 1 0 0 2 0), (5, .multicast 0 1 [])] }
    s.issues { reads := [.g 14, .g 13] ++ payloadNames (s.me.payloadFrom 3 2), commit := true } ∧
    s.me.readG 14 = Reg.data (BitVec.ofNat 64 3) ∧ (s.me.readG 13).tag = .data ∧
    (∀ z ∈ payloadVals (s.me.payloadFrom 3 2), z.tag = .data ∨ z.tag = .cap) ∧ s.outbound s.cur < 4 ∧
    mget s.groups 3 = some (.multicast 0 0 [1, 2]) ∧ mget s.groups 5 = some (.multicast 0 1 []) ∧ 0 = s.me.vfid ∧
    someLaunch.counts.members + [1, 2].length ≤ 2 ^ 32 - 1 :=
  ⟨State.issues_of rfl (by decide +kernel), by decide +kernel⟩

theorem witness_GroupMessages_sendr :
    let s := { machine 0 (withG (running 0) [(12, num 1023), (3, num 5), (4, num 7)]) with
      groups := [(1023, .reduction 0 0 [0, 1] 2 9 1 0 0 2 0)] }
    s.issues { reads := .g 12 :: payloadNames (s.me.payloadFrom 3 2), commit := true } ∧ s.me.act = some placedAct ∧
    s.me.readG 12 = Reg.data (BitVec.ofNat 64 1023) ∧ (∀ z ∈ payloadVals (s.me.payloadFrom 3 2), z.tag = .data ∨ z.tag = .cap) ∧
    s.outbound s.cur < 4 ∧ s.me.kself ∈ [0, 1] ∧ mget s.groups 1023 = some (.reduction 0 0 [0, 1] 2 9 1 0 0 2 0) ∧
    0 = s.me.vfid ∧ 0 = placedAct.launch ∧ (gs []).issues { commit := true } :=
  ⟨State.issues_of rfl (by decide +kernel), by decide +kernel, by decide +kernel, by decide +kernel, by decide +kernel,
    by decide +kernel, by decide +kernel, by decide +kernel, by decide +kernel, State.issues_of rfl (by decide +kernel)⟩

theorem witness_ClassTable :
    let s := gs [(5, num 63), (6, num 64), (7, num 1)]
    s.me.readG 5 = Reg.data (BitVec.ofNat 64 63) ∧ s.me.readG 7 = Reg.data 1 ∧
    s.issues { reads := [.g 5, .g 7], writes := [.g 8] } ∧ s.issues { reads := [.g 5], writes := [.g 8] } ∧
    (s.me.readG 6).tag = .data ∧ 64 ≤ (s.me.readG 6).value.toNat ∧ s.issues { reads := [.g 6], writes := [.g 8] } ∧
    s.issues { reads := [.g 6, .g 7], writes := [.g 8] } ∧ s.issues { writes := [.g 8] } ∧ s.me.pinned = none ∧
    (machine 0 (pinnedCore 0)).me.pinned = some 4 ∧ (machine 0 (pinnedCore 0)).me.slots[4] = .holds (somePacket .send) :=
  ⟨by decide +kernel, by decide +kernel, State.issues_of rfl (by decide +kernel), State.issues_of rfl (by decide +kernel),
    by decide +kernel, by decide +kernel, State.issues_of rfl (by decide +kernel), State.issues_of rfl (by decide +kernel),
    State.issues_of rfl (by decide +kernel), by decide +kernel⟩

/-- Channels 63 and 79 and slots 15 and 19 belong to virtual function 0: the highest of their ranges. -/
theorem witness_MeridianInstructions :
    let s := { gs [(5, num 63), (6, num 19), (7, num 80), (8, num 0)] with
      barriers := [(63, ⟨some 0, 1, 0, false, [], none⟩), (271, ⟨some 0, 2, 0, true, [], some (0, 5)⟩)]
      bcasts := [(15, ⟨some 0, 0, 0, []⟩), (67, ⟨some 0, 0, 0, []⟩)] }
    s.me.readG 5 = Reg.data 63 ∧ s.me.readG 8 = Reg.data 0 ∧ s.issues { reads := [.g 5], writes := [.g 9], commit := true } ∧
    (s.barrier (s.cur / 2048 * 64 + 63)).vf = some s.me.vfid ∧ (s.barrier (192 + 79)).vf = some s.me.vfid ∧
    (s.bcast (48 + 19)).vf = some s.me.vfid ∧ (s.bcast (s.cur / 2048 * 16 + 15)).vf = some s.me.vfid ∧
    (s.barrier 63).count + 1 = (s.barrier 63).parties ∧ (s.barrier 271).count + 1 ≠ (s.barrier 271).parties ∧
    (s.barrier 63).p = (0 : Word).getLsbD 0 ∧ (s.barrier 271).p ≠ (0 : Word).getLsbD 0 ∧
    s.issues { reads := [.g 5, .g 8] } ∧ s.issues { reads := [.g 6, .g 8], commit := true } ∧
    s.issues { reads := [.g 6, .g 8], writes := [.g 9] } ∧ s.issues { reads := [.g 5, .g 8], commit := true } ∧
    s.issues { reads := [.g 5, .g 8], writes := [.g 9] } ∧ ¬ (63 < 20) ∧ (s.bcast 0).vf ≠ some s.me.vfid ∧
    s.issues { reads := [.g 8, .g 8], commit := true } ∧ ¬ (80 < 80) ∧ (s.barrier 0).vf ≠ some s.me.vfid ∧ s.me.freeSym = some 0 :=
  ⟨by decide +kernel, by decide +kernel, State.issues_of rfl (by decide +kernel), by decide +kernel, by decide +kernel,
    by decide +kernel, by decide +kernel, by decide +kernel, by decide +kernel, by decide +kernel, by decide +kernel,
    State.issues_of rfl (by decide +kernel), State.issues_of rfl (by decide +kernel), State.issues_of rfl (by decide +kernel),
    State.issues_of rfl (by decide +kernel), State.issues_of rfl (by decide +kernel), by decide +kernel, by decide +kernel,
    State.issues_of rfl (by decide +kernel), by decide +kernel⟩

theorem witness_WorkInstructions_spawn :
    sends.me.act = some placedAct ∧ mget sends.launches placedAct.launch = some someLaunch ∧ sends.symReady 9 ∧
    sends.issues { reads := [.g 12, .g 13] ++ payloadNames (sends.me.payloadFrom 3 2), writes := [.g 9], commit := true } ∧
    (sends.me.readG 12).tag = .cap ∧ (sends.me.readG 13).tag = .data ∧
    (∀ z ∈ payloadVals (sends.me.payloadFrom 3 2), z.tag = .data ∨ z.tag = .cap) ∧
    capFault (sends.me.readG 12) (sends.me.readG 12).value.toNat 1 [.send] = 0 ∧
    ((sends.performLdes sends.cur fun _ => true).translate sends.cur (sends.me.readG 12).value.toNat []).1 =
      .ok ⟨0x8000000040000, 0, 0⟩ ∧ sliceOf 0x8000000040000 = some 1 ∧ sends.inPartition sends.me.vfid 1 = true ∧
    sends.me.slots[28] = .free ∧ ∀ k : Fin 32, 28 ≤ k.val → k.val < 28 → sends.me.slots[k.val] ≠ .free :=
  ⟨by decide +kernel, by decide +kernel, .inr (by decide +kernel), State.issues_of rfl (by decide +kernel), by decide +kernel⟩

theorem witness_WorkInstructions_requests :
    let s := gs [(12, whole 0x4000), (13, num 65535)]
    s.symReady 9 ∧ s.issues { reads := [.g 12], writes := [.g 9], commit := true } ∧
    capFault (s.me.readG 12) (s.me.readG 12).value.toNat 128 [.r] = 0 ∧ (s.me.readG 12).value.toNat % 64 = 0 ∧
    (s.me.readG 13).tag = .data ∧ s.issues { reads := [.g 13], writes := [.g 9], commit := true } ∧
    s.issues { reads := [.g 12, .g 13], writes := [.g 9], commit := true } ∧
    capFault (s.me.readG 12) (s.me.readG 12).value.toNat 64 [.r] = 0 :=
  ⟨.inr (by decide +kernel), State.issues_of rfl (by decide +kernel), by decide +kernel, by decide +kernel, by decide +kernel,
    State.issues_of rfl (by decide +kernel), State.issues_of rfl (by decide +kernel), by decide +kernel⟩

theorem witness_AnchorInstructions :
    let s := gs [(6, whole 0x4000), (7, num 128), (8, whole 0x8000)]
    s.me.act = some placedAct ∧ s.issues { reads := [.g 6, .g 7], writes := [.g 5], commit := true } ∧ s.symReady 5 ∧
    (s.me.readG 7).tag = .data ∧ capFault (s.me.readG 6) (s.me.readG 6).value.toNat 1 [.near] = 0 ∧
    ((s.performLdes s.cur fun _ => true).translate s.cur (s.me.readG 6).value.toNat []).1 = .ok ⟨0x4000, 0, 0⟩ ∧
    isDram 0x4000 = true :=
  ⟨by decide +kernel, State.issues_of rfl (by decide +kernel), .inr (by decide +kernel), by decide +kernel⟩

/-- A batch of sixteen descriptors under a capability with NEAR. -/
theorem witness_AnchorInstructions_batch :
    let s := gs [(6, whole 0x4000), (7, whole 0x8000)]
    (Instr.anqb 5 6 7 15, 16) ∈ [(Instr.anq 5 6 7, 1), (.anqb 5 6 7 15, (15 : Fin 16).val + 1)] ∧
    s.issues { reads := [.g 6, .g 7], writes := [.g 5], commit := true } ∧ (s.me.readG 6).tag = .cap ∧
    capFault (s.me.readG 6) (s.me.readG 6).value.toNat (64 * 16) [.r] = 0 ∧ (s.me.readG 6).value.toNat % 64 = 0 ∧
    (s.me.readG 7).tag = .cap ∧ malformed (s.me.readG 7).info (s.me.readG 7).value = false ∧
    hasPerm (s.me.readG 7).info .near = true ∧ (s.me.readG 6).value.toNat + 64 * 16 ≤ 2 ^ 48 ∧
    s.mem.upsets = [] ∧ cachedPlace ⟨0x4000, 0, 0⟩ = true ∧ cachedPlace ⟨0x4000, 2, 0⟩ = false ∧
    ∀ k < 16, s.redirect s.cur (0x4000 + 64 * k) = .same ∧ s.me.wmBlocked (0x4000 + 64 * k) 64 = false ∧
      s.heldAt (0x4000 + 64 * k) = false ∧
      (tlbFind s.me.tlb s.me.asid (0x4000 + 64 * k)).map (fun e => e.r && mappable (e.pa + (0x4000 + 64 * k - e.va))) = some true :=
  ⟨by simp, State.issues_of rfl (by decide +kernel), by decide +kernel⟩

/-- Core 0 about to copy 64 bytes on channel 1: the shape word, its source and its destination. -/
def copies (shape : Nat) : State :=
  machine 0 (withG (running 0) [(20, whole 0x4000), (21, whole 0x8000), (22, num shape), (23, whole 0x9000)])

theorem witness_CopyInstructions_enter :
    (copies 63).me.act = some placedAct ∧ ((copies 63).me.readG 22).tag = .data ∧ shTwod (w64 63) = false ∧ shTags (w64 63) = false ∧
    shFlag (w64 63) = false ∧ shMsg (w64 63) = false ∧
    (copies 63).issues { reads := [.g 20, .g 21, .g 22], writes := [], look := 1, commit := false } ∧
    (copies 63).issues { reads := [.g 20, .g 21, .g 22], writes := [.g 9], look := 1, commit := false } ∧
    ((copies 63).me.readG 20).tag = .cap ∧ ((copies 63).me.readG 21).tag = .cap ∧
    capFault ((copies 63).me.readG 20) 0x4000 (shExtent (w64 63) false) [.r] = 0 ∧
    capFault ((copies 63).me.readG 21) 0x8000 (shExtent (w64 63) true) [.w] = 0 ∧ (copies 63).me.fifo.length < 16 ∧
    (copies 63).tileDue = false ∧ tileLoads.tileDue = true :=
  ⟨by decide +kernel, by decide +kernel, by decide, by decide, by decide, by decide, State.issues_of rfl (by decide +kernel),
    State.issues_of rfl (by decide +kernel), by decide +kernel⟩

/-- A 2D shape whose destination stride is shorter than its row, one of a single row, and a source without R. -/
theorem witness_CopyInstructions_faults :
    let sh : Word := w64 (2 ^ 36 + 1 * 2 ^ 28 + 31 * 2 ^ 18 + 2 * 2 ^ 9 + 1)
    shTwod sh = true ∧ 0 < shRows sh ∧ shStride sh true < shRow sh ∧ shFlag sh = false ∧ shMsg sh = false ∧
    (copies sh.toNat).issues { reads := [.g 20, .g 21, .g 22], look := 0 } ∧
    capFault (Reg.mkCap 0x3000 0x3F60000001000000) 0x3000 64 [.r] ≠ 0 ∧ isRemote (Reg.mkCap 0x3000 0x3F60000001000000) = false :=
  ⟨by decide, by decide, by decide, by decide, by decide, State.issues_of rfl (by decide +kernel), by decide +kernel,
    by decide +kernel⟩

theorem witness_CopyInstructions_others :
    let s := gs [(12, num 5), (13, whole 0x8000)]
    s.issues { writes := [.g 9] } ∧ s.issues { reads := [.g 12], writes := [.g 9], commit := true } ∧
    (s.me.readG 12).tag = .data ∧ s.symReady 9 ∧
    s.issues { reads := [.g 13], writes := [.g 9], look := 1, commit := true } ∧ (s.me.readG 13).tag = .cap ∧
    capFault (s.me.readG 13) 0x8000 128 [.r, .near] = 0 ∧ s.redirect s.cur 0x8000 = .same ∧ s.redirect s.cur (0x8000 + 64) = .same ∧ s.me.wmBlocked 0x8000 64 = false ∧
    s.me.wmBlocked (0x8000 + 64) 64 = false :=
  ⟨State.issues_of rfl (by decide +kernel), State.issues_of rfl (by decide +kernel), by decide +kernel,
    .inr (by decide +kernel), State.issues_of rfl (by decide +kernel), by decide +kernel⟩

/-- A block with one source at 0x20000, a number of elements, a format and a destination. -/
def redWord (count fmt dst : Nat) : Nat := 0x20000 + dst * 2 ^ 512 + count * 2 ^ 576 + fmt * 2 ^ 608

/-- Core 0 about to submit a block at 0x8000, on a page of scope DIE (so no cache decides what it reads). -/
def submits (b : Nat) : State :=
  { machine 0 { withG (running 0) [(13, whole 0x8000)] with tlb := [⟨0, 0, 2 ^ 38, 0, 2, 0, true, true, true, true⟩] } with
    mem := (Memory.reset.place 0 0).writeData (Visibility.everyone .station) 0x8000 (leBytes 128 b) }

/-- RED: a poisoned block, and for each refusal and the acceptance a block that meets it. -/
theorem witness_CopyInstructions_red :
    (submits 5).issues { reads := [.g 13], writes := [.g 9], look := 0, commit := true } ∧ (submits 5).me.act = some placedAct ∧
    ((((((submits (redWord 1 0 0x30000)).settleLdes 0).passWm 0x8000 64).passWm 0x8040 64).release 0).2.readBlock 0x8000 0x8040).1 = some (redWord 1 0 0x30000) ∧
    ((({ submits 5 with mem := (submits 5).mem.setMark 0x1000 .stored } : State).release 0).2.readBlock 0x8000 0x8040).1 = none ∧
    redFmt (redWord 1 3 0x30000) = 3 ∧ redReserved (redWord 0 0 0x30000) = false ∧ redFmt (redWord 0 0 0x30000) ≠ 3 ∧
    redOp (redWord 0 0 0x30000) ≠ 3 ∧ redCount (redWord 0 0 0x30000) = 0 ∧ redCount (redWord 1 0 0x30001) = 1 ∧
    redSrc (redWord 1 0 0x30001) 0 ≠ 0 ∧ redDst (redWord 1 0 0x30001) % redSize (redWord 1 0 0x30001) ≠ 0 ∧
    (∀ k < 8, redSrc (redWord 1 0 0x30000) k % redSize (redWord 1 0 0x30000) = 0) ∧
    redDst (redWord 1 0 0x30000) % redSize (redWord 1 0 0x30000) = 0 ∧ redFlag (redWord 1 0 0x30000) % 2 = 0 ∧
    ((submits 5).redStack (.core 0) 0 0 (redWord 1 0 0x30000)).isSome = true ∧
    (gs []).redStack (.core 0) 0 0 (redWord 1 0 0x30000) = none ∧ ((submits 5).stack 0).queue.length < 64 ∧
    (∀ w ∈ [0x8000, 0x8000 + 64], ((submits 5).settleLdes 0).heldFor (.core 0) 0 0 w 64 [.read] = false) ∧
    (submits 5).redirect 0 0x8000 = .same ∧ (submits 5).redirect 0 (0x8000 + 64) = .same ∧
    (submits 5).me.wmBlocked 0x8000 64 = false ∧ (submits 5).me.wmBlocked (0x8000 + 64) 64 = false :=
  ⟨State.issues_of rfl (by decide +kernel), by decide +kernel⟩

/-- A copy request of core 0 for 64 bytes from 0x4000 to 0x8000 on a channel, and one with FLAG = 1 and value 3. -/
def someReq (ch : Nat) : CopyReq := ⟨.here 0x4000, .here 0x8000, w64 (63 + ch * 2 ^ 40), 0x9000, 0, 0, 0, 5, 0, ch, []⟩
def flagReq : CopyReq := { someReq 0 with shape := w64 (63 + 2 ^ 39 + 3 * 2 ^ 48) }

/-- A channel that runs a request. -/
def onChannel (r : CopyReq) (done : Nat) (m : Memory) : State :=
  { machine 0 { running 0 with chans := (Vector.replicate 4 Channel.reset).set 0 ⟨.active, some r, done, r.wmAt done, none, [], [], 0, none⟩ } with
    mem := m }

theorem witness_CopyEngineSteps_start :
    let s := machine 0 { running 0 with fifo := [someReq 1] ++ someReq 0 :: [someReq 2] }
    (s.chan 0 0).req = none ∧ (s.core 0).fifo = [someReq 1] ++ someReq 0 :: [someReq 2] ∧
    (∀ r ∈ [someReq 1], shCh r.shape ≠ (0 : Fin 4).val) ∧ shCh (someReq 0).shape = (0 : Fin 4).val ∧
    ∀ r ∈ [someReq 1] ++ [someReq 2], r ≠ someReq 0 := by decide +kernel

theorem witness_CopyEngineSteps_beat :
    let s := onChannel (someReq 0) 0 (Memory.reset.place 0 0)
    s.held 0 = false ∧ (s.chan 0 0).state = .active ∧ (s.chan 0 0).req = some (someReq 0) ∧ (s.chan 0 0).done < (someReq 0).total ∧
    (match s.nextBeat 0 0 (s.chan 0 0) (someReq 0) with | .move n _ => n | _ => 0) = 64 ∧
    (let s := onChannel (someReq 0) 0 Memory.reset
    (s.chan 0 0).done < (someReq 0).total ∧
    (match s.nextBeat 0 0 (s.chan 0 0) (someReq 0) with | .fail f _ => f.cause | _ => 0) = 6 ∧ s.exchanging = false) := by
  decide +kernel

/-- A beat over pages of scope DIE, which no cache serves. -/
theorem witness_CopyEngineSteps_bytes :
    let s := onChannel (someReq 0) 0 ((Memory.reset.place 0 0).writeData (Visibility.everyone .station) 0x4000 (leBytes 8 0x200000000000DF))
    s.mem.upsets = [] ∧ s.mem.wf = true ∧ (s.chan 0 0).skips = [] ∧ cachedPlace ⟨0x4000, 2, 0⟩ = false ∧
    (s.engineTo (.channel 0 0) 0 0 0x4000 [.read]).1 = .ok ⟨0x4000, 2, 0⟩ ∧
    ((s.engineTo (.channel 0 0) 0 0 0x4000 [.read]).2.engineTo (.channel 0 0) 0 0 0x8000 [.write]).1 = .ok ⟨0x8000, 2, 0⟩ ∧
    (match s.nextBeat 0 0 (s.chan 0 0) (someReq 0) with | .move n _ => n | _ => 0) = 64 := by decide +kernel

/-- A beat to another package, which waits for its acknowledgement. -/
theorem witness_CopyEngineSteps_remote :
    let r := { someReq 0 with dst := .remote 3 0x8000 }
    let s := onChannel r 0 (Memory.reset.place 0 0)
    (match s.nextBeat 0 0 (s.chan 0 0) r with | .send n _ => n | _ => 0) = 64 ∧
    0 < ((s.setCore 0 { s.core 0 with chans := (s.core 0).chans.set 0 { s.chan 0 0 with sent := 64 } }).chan 0 0).sent := by decide +kernel

theorem witness_CopyEngineSteps_completion :
    let s := onChannel flagReq 64 (Memory.reset.place 0 0)
    (s.chan 0 0).state = .active ∧ (s.chan 0 0).req = some flagReq ∧ flagReq.total ≤ (s.chan 0 0).done ∧ s.mem.wf = true ∧
    s.held 0 = false ∧ s.heldSpan 0x9000 2 = false ∧
    (s.engineTo (.channel 0 0) flagReq.vf flagReq.asid flagReq.flag [.write]).1.map Place.pa = .ok 0x9000 := by decide +kernel

/-- CRES: a suspended channel, an idle one, and a reserved bit of the word. -/
theorem witness_CopyEngineSteps_cres :
    let s := { machine 0 { running 0 with
      chans := (Vector.replicate 4 Channel.reset).set 0 ⟨.suspended, some (someReq 0), 0, 0, some ⟨0, 6, 2, 0x4000, 64⟩, [], [], 0, none⟩ } with
      cres := [(5, 0, some ⟨3, 1⟩, w64 0)] }
    s.exchanging = false ∧ s.cres[0]? = some (5, 0, some ⟨3, 1⟩, w64 0) ∧ (w64 0).toNat / 2 ^ 18 = 0 ∧ (w64 0).getLsbD 15 = false ∧
    (s.chan 0 0).state = .suspended ∧ (s.chan 0 0).req = some (someReq 0) ∧ (s.chan 0 0).fault = some ⟨0, 6, 2, 0x4000, 64⟩ ∧
    (someReq 0).super = 5 ∧ s.inPartition 0 0 = true ∧ (s.chan 0 1).state ≠ .suspended ∧ (w64 (2 ^ 18)).toNat / 2 ^ 18 ≠ 0 := by
  decide +kernel

/-- A reduction block without sources and elements, and one with a flag at 0x9000. -/
def someBlock (flag count : Nat) : RedBlock := ⟨BitVec.ofNat 1024 (count * 2 ^ 576 + 3 * 2 ^ 624 + flag * 2 ^ 640), 0x4000, 0, 0, 0, 0, []⟩
def onStack (q : List RedBlock) (a : Option RedBlock) (done : Nat) : State :=
  { machine 0 (running 0) with
    stackTable := [(0, { Stack.reset with
      queue := q
      active := a
      done := done })]
    mem := Memory.reset.place 0 0 }

theorem witness_CopyEngineSteps_reduction :
    ((onStack [someBlock 0 1] none 0).stack 0).active = none ∧ ((onStack [someBlock 0 1] none 0).stack 0).queue = someBlock 0 1 :: [] ∧
    ((onStack [] (some (someBlock 0 1)) 1).stack 0).active = some (someBlock 0 1) ∧
    redCount (someBlock 0 1).block.toNat ≤ ((onStack [] (some (someBlock 0 1)) 1).stack 0).done ∧
    (onStack [] (some (someBlock 0 1)) 1).exchanging = false ∧ redFlag (someBlock 0 1).block.toNat = 0 ∧ redFlag (someBlock 0x9000 1).block.toNat ≠ 0 ∧
    (onStack [] (some (someBlock 0x9000 1)) 1).mem.wf = true ∧
    ((onStack [] (some (someBlock 0x9000 1)) 1).engineTo (.stack 0) 0 0 0x9000 [.write]).1.map Place.pa = .ok 0x9000 := by
  decide +kernel

/-- A block whose destination is not mapped. -/
theorem witness_CopyEngineSteps_fault :
    let s := { onStack [] (some (someBlock 0 1)) 0 with mem := Memory.reset }
    (s.stack 0).done < redCount (someBlock 0 1).block.toNat ∧
    (match s.redStep 0 (someBlock 0 1) with | .error _ => true | .ok _ => false) = true := by decide +kernel

/-- A core with a matrix queue of n entries. -/
def matrix (n : Nat) : State :=
  { machine 0 (withF (withG (running 0) [(5, num (8 + 3 * 2 ^ 12 + 2 ^ 16)), (6, whole 0x4000), (7, num 64), (8, num 0)]) [(1, num 0x3F800000)]) with
    mats := [(0, { MatCore.reset with
      queue := List.replicate n ⟨.zclr 0 0, 0, []⟩
      tiles := Vector.replicate 8 { Tile.reset with shape := ⟨2, .s8, 8⟩ } })] }

theorem witness_MatrixInstructions_mma :
    (matrix 7).issues { reads := [.f 1, .t 2, .t 3] } ∧ (matrix 7).me.readF false 1 = Reg.data 0x3F800000 ∧
    ((matrix 7).mat 0).load < 8 ∧ 8 ≤ ((matrix 8).mat 0).load ∧
    (matrix 7).issues { reads := [.g 8] } ∧ (matrix 7).me.readG 8 = Reg.data 0 ∧
    (machine 0 (withF (running 0) [(1, ⟨.pois, 0, 1 <<< 56⟩)])).issues { reads := [.f 1, .t 2, .t 3] } ∧
    ((machine 0 (withF (running 0) [(1, ⟨.pois, 0, 1 <<< 56⟩)])).me.readF false 1).tag = .pois :=
  ⟨State.issues_of rfl (by decide +kernel), by decide +kernel, by decide +kernel, by decide +kernel,
    State.issues_of rfl (by decide +kernel), by decide +kernel, State.issues_of rfl (by decide +kernel), by decide +kernel⟩

/-- TCFG of one row of eight 8-bit columns, and its bounds. -/
theorem witness_MatrixInstructions_tcfg :
    (matrix 0).issues { reads := [.g 5], writes := [.t 2] } ∧ (matrix 0).me.readG 5 = Reg.data (w64 (8 + 3 * 2 ^ 12 + 2 ^ 16)) ∧
    Ty.ofCode 3 = some .s8 ∧ Ty.ofCode 15 = none ∧ 256 * tyWidth .n4 ≤ 1024 ∧ ¬ (129 * tyWidth .s8 ≤ 1024) :=
  ⟨State.issues_of rfl (by decide +kernel), by decide +kernel⟩

theorem witness_MatrixInstructions_tld :
    (matrix 0).issues { reads := [.g 6, .g 7], writes := [.t 2], look := 3, tile := true } ∧ (matrix 0).issues { reads := [.g 6, .g 7, .t 2] } ∧
    ((matrix 0).me.readG 6).tag = .cap ∧ (matrix 0).me.readG 7 = Reg.data (w64 64) ∧ (w64 64).toNat / 2 ^ 56 = 0 ∧
    (w64 64).toNat / 2 ^ 32 = 0 ∧ (∀ r < 2, capFault ((matrix 0).me.readG 6) (0x4000 + r * 64) 8 [.r] = 0 ∧
      (0x4000 + r * 64) % 1 = 0 ∧ (0x4000 + r * 64) % 65536 + 8 ≤ 65536 ∧
      (matrix 0).translate 0 (0x4000 + r * 64) [.read] = (.ok ⟨0x4000 + r * 64, 0, 0⟩, matrix 0)) ∧
    (w64 (2 ^ 56)).toNat / 2 ^ 56 ≠ 0 ∧ (w64 (2 ^ 32)).toNat / 2 ^ 32 ≠ 0 :=
  ⟨State.issues_of rfl (by decide +kernel), State.issues_of rfl (by decide +kernel), by decide +kernel⟩

theorem witness_MatrixInstructions_zdrn :
    (matrix 0).issues { reads := [.f 1] ++ [.t 3], writes := [.t 2] } ∧ (matrix 0).issues { reads := [] ++ [], writes := [.t 2] } ∧
    (matrix 0).me.readF false 1 = Reg.data 0x3F800000 ∧
    (((matrix 0).mat 0).tiles[2]).shape.fmt ∈ [Ty.f32, .f16, .bf16, .e4m3, .e5m2, .s32, .s16, .s8] ∧
    (((matrix 0).mat 0).tiles[3]).shape.fmt ∉ [Ty.f32, .f16, .bf16, .s32] :=
  ⟨State.issues_of rfl (by decide +kernel), State.issues_of rfl (by decide +kernel), by decide +kernel⟩

theorem witness_MatrixInstructions_values :
    let s := { machine 0 { withG (running 0) [(5, num 255)] with wait := some .unitValue } with
      mats := [(0, { MatCore.reset with value := some (num 3) })] }
    (matrix 0).issues { writes := [.g 9] } ∧ (matrix 0).issues { reads := [.g 8], writes := [.g 9] } ∧
    (matrix 0).me.wait ≠ some .unitValue ∧ s.issues { reads := [.g 5], writes := [.g 9] } ∧ s.me.wait = some .unitValue ∧
    (s.mat 0).value = some (num 3) ∧ s.me.readG 5 = Reg.data 255 ∧ ((matrix 0).mat 0).value = none ∧ (9 : GReg) ≠ 0 ∧
    (matrix 0).symReady 9 :=
  ⟨State.issues_of rfl (by decide +kernel), State.issues_of rfl (by decide +kernel), by decide +kernel,
    State.issues_of rfl (by decide +kernel), by decide +kernel, by decide +kernel, by decide +kernel, by decide +kernel,
    by decide, .inr (by decide +kernel)⟩

/-- A queue whose first command uses a resource of the unit. -/
def granted (c : MatCmd) : State := { machine 0 (running 0) with mats := [(0, { MatCore.reset with queue := [⟨c, 0, []⟩] })] }

theorem witness_MatrixSteps :
    (granted (.mma .i8 1 2 3 ⟨2, .s8, 8⟩ ⟨2, .s8, 8⟩ 127 0)).matGrant 0 .array = some (0, 0) ∧
    (granted (.zclr 1 0)).matGrant 0 .port = some (0, 0) ∧
    (granted (.zdrn false false 1 2 0 ⟨2, .s8, 8⟩ ⟨2, .s8, 8⟩ 0 0 0)).matGrant 0 .port = some (0, 0) ∧
    (granted (.zexp 5 1)).matGrant 0 .port = some (0, 0) ∧ (granted (.zget 5 1 255)).matGrant 0 .port = some (0, 0) ∧
    (granted (.tld false 1 ⟨2, .s8, 8⟩ [[⟨0x4000, 0x4000, 8, 0⟩]] [])).matGrant 0 .path = some (0, 0) ∧
    (granted (.tst 1 ⟨2, .s8, 8⟩ [[⟨0x4000, 0x4000, 8, 0⟩]])).matGrant 0 .path = some (0, 0) ∧
    (granted (.tst 1 ⟨2, .s8, 8⟩ [[⟨0x4000, 0x4000, 8, 0⟩]])).mem.wf = true ∧
    (granted (.tst 1 ⟨2, .s8, 8⟩ [[⟨0x4000, 0x4000, 8, 0⟩]])).heldSpan 0x4000 8 = false ∧
    [[(⟨0x4000, 0x4000, 8, 0⟩ : Extent)]] = [] ++ ([] ++ ⟨0x4000, 0x4000, 8, 0⟩ :: []) :: [] ∧ Tile.reset.pois = 0 ∧
    Acc.reset.body.e = 0 ∧ MatCore.reset.queue = [] ∧ MatCore.reset.owner ≠ (5, 0) ∧
    ((granted (.mfin ⟨3, 1⟩)).mat 0).queue = ⟨.mfin ⟨3, 1⟩, 0, []⟩ :: [] ∧ 8 * tyWidth .s8 ≤ 1024 := by decide +kernel

/-- Core 0 with the capabilities and the count of AEVAL in g12 and g13, those of AGTH in g16 to g19. -/
def almucantar (n : Nat) : State :=
  machine 0 (withG (running 0) [(12, whole 0x10000), (13, num n), (14, whole 0x40000), (16, whole 0x60000), (17, whole 0x80000),
    (18, num n), (19, num 0), (20, num (7 * 2 ^ 32)), (21, num 2)])

theorem witness_ArrayInstructions_acfg :
    (almucantar 1).issues { reads := [.g 20], writes := [.g 8] } ∧ (almucantar 1).me.readG 20 = Reg.data (w64 (7 * 2 ^ 32)) ∧
    w64 (7 * 2 ^ 32) &&& 0xFFFF0000FFFFFFFE = 0 ∧ (2 : Word) &&& 0xFFFF0000FFFFFFFE ≠ 0 ∧
    (almucantar 1).issues { reads := [.g 12], writes := [.g 8] } ∧
    capFault ((almucantar 1).me.readG 12) 0x10000 131072 [.r] = 0 ∧ 0x10000 % 64 = 0 ∧
    (State.extents 0 [.read] (131072 / 65536 + 2) 0x10000 131072 (almucantar 1)).2 = almucantar 1 ∧
    (almucantar 1).me.arrQueue.length < 4 ∧ (almucantar 1).tileDue = false :=
  ⟨State.issues_of rfl (by decide +kernel), by decide +kernel, by decide +kernel, by decide +kernel,
    State.issues_of rfl (by decide +kernel), by decide +kernel⟩

/-- AEVAL of one vector apart from its output; the counts 0 and 65537 fault. -/
theorem witness_ArrayInstructions_aeval :
    (almucantar 1).me.readG (12 + 1) = Reg.data (w64 1) ∧
    (almucantar 1).issues { reads := [.g 12, .g (12 + 1), .g 14], writes := [.g 8] } ∧
    capFault ((almucantar 1).me.readG 12) 0x10000 (1 * 512) [.r] = 0 ∧ capFault ((almucantar 1).me.readG 14) 0x40000 (1 * 128) [.w] = 0 ∧
    0x10000 + 1 * 512 ≤ 0x40000 ∧
    (State.extents 0 [.write] (1 * 128 / 65536 + 2) 0x40000 (1 * 128) (almucantar 1)).2 = almucantar 1 ∧
    ((almucantar 0).me.readG 13).value.toNat = 0 ∧ 65536 < ((almucantar 65537).me.readG 13).value.toNat :=
  ⟨by decide +kernel, State.issues_of rfl (by decide +kernel), by decide +kernel⟩

theorem witness_ArrayInstructions_agth :
    (almucantar 1).me.readG (16 + 2) = Reg.data (w64 1) ∧ (almucantar 1).me.readG (16 + 3) = Reg.data 0 ∧
    (almucantar 1).issues { reads := [.g 16, .g (16 + 1), .g (16 + 2), .g (16 + 3), .g 14], writes := [.g 8] } ∧
    capFault ((almucantar 1).me.readG 17) 0x80000 32768 [.r] = 0 ∧ 0x40000 + 1 * 4 ≤ 0x60000 ∧ 0x40000 + 1 * 4 ≤ 0x80000 ∧
    (State.extents 0 [.read] (32768 / 65536 + 2) 0x80000 32768 (almucantar 1)).2 = almucantar 1 :=
  ⟨by decide +kernel, by decide +kernel, State.issues_of rfl (by decide +kernel), by decide +kernel⟩

/-- An array command at the head of core 0's queue. -/
def arrayCmd (c : ArrCmd) : State := machine 0 { running 0 with arrQueue := [⟨c, 7, false, 0, 0, some ⟨3, 1⟩, 0, []⟩] }

theorem witness_ArraySteps :
    (arrayCmd (.aload [])).arrGrant 0 = some 0 ∧ domeOf 0 = 0 ∧ ((arrayCmd (.aload [])).alm 0).ivalid = false ∧
    (let seen (l : List Extent) (m : Memory) : Memory :=
      (({ arrayCmd (.aload l) with mem := m.acquire (m.live []) (.array 0) } : State).checkedAll l).mem
    ((seen [] Memory.reset).arrayRead 0 []).2 = false ∧ (arrayCmd (.aload [])).heldSpan 0x4000 8 = false ∧
    ((seen [⟨0x4000, 0x4000, 8, 0⟩] (Memory.reset.setMark 0x800 .stored)).arrayRead 0 [⟨0x4000, 0x4000, 8, 0⟩]).2 = true) ∧ (arrayCmd (.aeval 1 [] [])).arrGrant 0 = some 0 ∧
    (arrayCmd (.agth 1 [] [] [] [])).arrGrant 0 = some 0 ∧ (arrayCmd (.aeval 1 [] [])).mem.wf = true ∧ (63 < 64) ∧
    [1, 2].Perm [2, 1] ∧ ∀ c ∈ [1, 2], fp32.isNan c = false := by decide +kernel

/-- A near unit of home 0 that runs the first task of queue 0, with NEAR over memory. -/
def nearTest (f : NearUnit → NearUnit) : State :=
  { State.reset with
    homes := [(0, { Home.reset with
      queues := (Vector.replicate 8 Queue.reset).set 0 { Queue.reset with entries := [placedEntry] }
      units := (Vector.replicate 4 NearUnit.reset).set 0 (f (NearUnit.reset.placed 0)) })]
    nearCur := some (0, 0)
    launches := [(0, someLaunch)] }

theorem witness_NearInstructions :
    let s := nearTest id
    s.nearCur = some (0, 0) ∧ (s.near 0 0).mode = .running 0 0 ∧ s.entryAt 0 0 0 = some placedEntry ∧
    (s.near 0 0).count < 1048576 ∧ (s.near 0 0).index + 1 < (s.near 0 0).image.code.length ∧ (s.near 0 0).k.getLsbD 3 = true ∧
    ((nearTest fun x => { x with k := 0 }).near 0 0).k.getLsbD 3 = false ∧ (s.near 0 0).o.pois.getLsbD 0 = false ∧
    (s.near 0 0).fifo.length < 4 ∧ placedEntry.chunkOk 224 false = true ∧ placedEntry.chunkOk 256 false = false ∧
    (s.near 0 0).writes = [] ∧ placedEntry.chunkOk (s.near 0 0).sta.toNat true = true ∧ 1 < (s.near 0 0).image.code.length := by
  decide +kernel

theorem witness_NearInstructions_moves :
    let s := nearTest fun x => { x with k := 0b0001, fifo := [⟨0, some NearVal.zero⟩, ⟨32, none⟩] }
    (s.near 0 0).k.getLsbD (0 : Fin 4).val = true ∧ (s.near 0 0).k.getLsbD (3 : Fin 4).val = false ∧
    (s.near 0 0).fifo = ⟨0, some NearVal.zero⟩ :: [⟨32, none⟩] ∧ (7 : Port).val < 8 ∧ (0x11 : Port).val ≠ 0x1D ∧
    (0x10 : Port).val = 0x10 ∧ 0x12 ≤ (0x12 : Port).val ∧ 0x12 ≤ (0x3F : Port).val ∧ (0x3F : Port).val ≠ 0x1D ∧
    ((nearTest fun x => { x with fifo := [⟨0, none⟩] }).near 0 0).fifo = ⟨0, none⟩ :: [] := by decide +kernel

theorem witness_NearSteps_running :
    let s := nearTest fun x => { x with fifo := [⟨0, some NearVal.zero⟩, ⟨32, none⟩] }
    s.entryAt 0 0 0 = some placedEntry ∧ (s.near 0 0).mode = .running 0 0 ∧ (s.near 0 0).writes = [] ∧
    (s.near 0 0).fifo = [⟨0, some NearVal.zero⟩] ++ ⟨32, none⟩ :: [] ∧
    1048576 ≤ ((nearTest fun x => { x with count := 1048576 }).near 0 0).count ∧
    ((nearTest fun x => { x with writes := [⟨0, NearVal.zero, 1⟩] }).near 0 0).writes = ⟨0, NearVal.zero, 1⟩ :: [] ∧
    s.mem.wf = true := by decide +kernel

theorem witness_NearSteps_ends :
    ((nearTest fun x => { x with mode := .retiring 0 0 }).near 0 0).mode = .retiring 0 0 ∧
    ((nearTest fun x => { x with mode := .retiring 0 0 }).near 0 0).writes = [] ∧
    ((nearTest fun x => { x with mode := .header 0 0 }).near 0 0).mode = .header 0 0 ∧
    ((nearTest fun x => { x with mode := .header 0 0 }).nearImage 0 0 placedEntry).1 = none ∧
    ((nearTest fun x => { x with mode := .idle }).near 0 0).mode = .idle ∧ (nearTest id).takesNear 0 = true ∧
    ({ Home.reset with
      queues := (Vector.replicate 8 Queue.reset).set 0 { Queue.reset with
        entries := [{ placedEntry with cond := .waiting, headerRead := false }] } } : Home).takeable 0 =
      some { placedEntry with cond := .waiting, headerRead := false } ∧ ((nearTest id).home 0).ptr = 7 := by decide +kernel

/-- Core 0 as it asks for its launch 0, in reference cycle 0. -/
def someAsker : Asker := ⟨0, 0, 0, some 0, 0, 0, 0, none, some 0⟩

/-- A home's requests. -/
def atHomes (r : HomeReq) (h : Home) : State := { machine 0 (running 0) with hreqs := [r], homes := [(0, h)] }

theorem witness_HomeSteps :
    (atHomes (.enqueue someAsker (some ⟨3, 1⟩) [none] 0 0x10000 0 []) Home.reset).hreqs[0]? =
      some (.enqueue someAsker (some ⟨3, 1⟩) [none] 0 0x10000 0 []) ∧ (none : Option (BitVec 512)) ∈ [none] ∧
    (atHomes (.config 0 (some ⟨3, 1⟩) 0 (2 ^ 63 + 3)) Home.reset).hreqs[0]? = some (.config 0 (some ⟨3, 1⟩) 0 (2 ^ 63 + 3)) ∧
    ((2 ^ 63 + 3 : Word)).toNat / 2 ^ 20 % 2 ^ 43 = 0 ∧ ((2 ^ 63 + 3 : Word)).toNat / 2 ^ 12 % 8 = 0 ∧
    (2 ^ 62 : Word).toNat / 2 ^ 20 % 2 ^ 43 ≠ 0 ∧ (2 ^ 63 + 3 : Word).getLsbD 63 = true ∧
    (atHomes (.lease 0 (some ⟨3, 1⟩) 0 0 (some 0) 5) Home.reset).hreqs[0]? = some (.lease 0 (some ⟨3, 1⟩) 0 0 (some 0) 5) ∧
    ((atHomes (.lease 0 (some ⟨3, 1⟩) 0 0 (some 0) 5) Home.reset).stack 0).recal = false ∧
    (mget (atHomes (.lease 0 (some ⟨3, 1⟩) 0 0 (some 0) 5) Home.reset).launches 0).map (·.born) = some 0 ∧
    (mget (atHomes (.lease 0 (some ⟨3, 1⟩) 0 0 (some 1) 5) Home.reset).launches 0).map (·.born) ≠ some 1 ∧
    ((atHomes (.lease 0 (some ⟨3, 1⟩) 0 0 (some 0) 5) { Home.reset with returning := true }).home 0).returning = true ∧
    (let s := atHomes (.lease 0 (some ⟨3, 1⟩) 0 0 (some 1) 5) { Home.reset with lease := some (0, 100) }
    (s.home 0).lease = some (0, 100) ∧ (mget s.launches 0).map (·.born) ≠ some 1) := by decide +kernel

/-- A batch of one task that a home accepts. -/
theorem witness_HomeSteps_enqueue :
    let q : Enqueuer := ⟨.core 0, 0, 0, 0, 0, 0, some (0, 2 ^ 30), 0xFE, none⟩
    let s := { machine 0 (running 0) with mem := Memory.reset.place 0 0 }
    let raw := 0x20000 + 255 * 2 ^ 48 + 0x10000 * 2 ^ 64
    let s2 := [raw].foldl (State.anchorWalk q) s
    s2.taskCodes q raw ++ (if [raw].any (s2.overfills q [raw]) then [5] else []) ++ s2.batchCodes q [raw] = [] ∧
    (s2.taskQueue q raw).isSome = true := by decide +kernel

theorem witness_HomeSteps_leases :
    let leased := { Home.reset with lease := some (0, 100) }
    let s := atHomes (.free 0 (some ⟨3, 1⟩) 0 0 (some 0) 127) leased
    s.hreqs[0]? = some (.free 0 (some ⟨3, 1⟩) 0 0 (some 0) 127) ∧ (s.home 0).lease = some (0, 100) ∧ (127 : Word).toNat < 128 ∧
    128 ≤ (128 : Word).toNat ∧ ((atHomes (.free 0 (some ⟨3, 1⟩) 0 0 (some 0) 127) Home.reset).home 0).lease = none ∧
    (mget s.launches 0).map (·.born) = some 0 ∧ (mget s.launches 0).map (·.born) ≠ some 1 ∧ s.rc < 100 ∧
    100 ≤ ({ s with rc := 100 } : State).rc ∧ 100 ≤ ({ s with rc := 99 } : State).rc + 1 := by decide +kernel

theorem witness_HomeSteps_refresh :
    let x := { Home.reset with returning := true, burst := true, refresh := [(3, 8), (5, 1)] }
    x.returning = true ∧ (∀ w ∈ x.units.toList, w.mode = .idle) ∧ x.burst = true ∧ Home.reset.lease = none ∧
    Home.reset.returning = false ∧ ({ Home.reset with lease := some (0, 5), refresh := [(3, 7)] } : Home).lease ≠ none ∧
    8 ≤ (mget [(3, 7)] 3).getD 0 + 1 ∧ Home.reset.burst = false ∧ ({ Home.reset with refresh := [(3, 7)] } : Home).debt < 8 ∧
    Home.reset.nearBusy 3 = false := by decide +kernel

/-- Core 0 with registers that hold symbol 3, on the way to a value. -/
def lateCore : State :=
  { machine 0 { withF (withG (running 0) [(6, Reg.eph .i64 3 2 5), (7, num 3)]) [(2, Reg.eph .f32 3 0x40000000 0x3F800000)] with
      sym := (Vector.replicate 32 Sym.reset).set 3 ⟨.pending, 2, .i64, 1⟩ } with
    arrivals := [⟨0, ⟨3, 1⟩, num 0x40400000, []⟩, ⟨0, ⟨3, 2⟩, ⟨.pois, 0, 0⟩, []⟩] }

theorem witness_CoreEvents_resolution :
    lateCore.arrivals[0]? = some ⟨0, ⟨3, 1⟩, num 0x40400000, []⟩ ∧ lateCore.arrivals[1]? = some ⟨0, ⟨3, 2⟩, ⟨.pois, 0, 0⟩, []⟩ ∧
    ((lateCore.core 0).sym[3]).state ≠ .free ∧ ((lateCore.core 0).sym[3]).gen = 1 ∧ ((lateCore.core 0).sym[3]).gen ≠ 2 ∧
    ((lateCore.core 0).g[7]).tag ≠ .eph ∧ (lateCore.core 0).g[6] = Reg.eph .i64 3 (2 : BitVec 48).toNat 5 ∧
    (lateCore.core 0).f[2] = Reg.eph .f32 3 (0x40000000 : BitVec 32).toNat ((0x3F800000 : BitVec 32).zeroExtend 64) ∧
    (num 0x40400000).tag = .data ∧ (⟨.pois, 0, 0⟩ : Reg).tag = .pois := by decide +kernel

/-- A dome with an exchange of cores 0 and 1 under way. -/
def exchanging (c : Core) : State := { machine 0 c with domes := [(0, { Dome.reset with exchange := some (0, 1) })] }

/-- g6 holds a value whose writes core 0 has still to acquire; write 4 is one of them. -/
theorem witness_CoreEvents_owed :
    let x : RegName × List Nat := (.g 6, [4])
    let s := { machine 0 { running 0 with owed := [x] } with
      mem := { Memory.reset with unseen := [⟨4, .core 1, [], [], [], [], [.package], [], [], false, []⟩] } }
    s.me.act = some placedAct ∧ s.lookBlocked { reads := [.g 6] } = false ∧
    (Issue.check { reads := [.g 6] } s.me placedAct = none) ∧ x ∈ s.me.owed ∧ x.1 ∈ [RegName.g 6] ∧
    (∃ e ∈ (s.acquireOwed [.g 6]).mem.unseen, e.id ∈ x.2) ∧
    (lateCore.core 0).holders 3 = [.g 6, .f 2] ∧ s.mem.live [4] ≠ [] := by decide +kernel

/-- Core 2 with a store to the slice of core 0 while that is in an exchange. -/
def holdsOff : State := { exchanging (running 0) with cores := [(0, running 0), (2, { running 2 with
  buf := [⟨2 ^ 40, 0x8000000000000, 8, 0, false, false, false, false, .store 1 0 false, []⟩]
  preempt := true
  wait := some .migration
  act := some { placedAct with ovf := 0x20000, entry := false } })] }

theorem witness_accessesHeld : holdsOff.accessesHeld 2 = true ∧ holdsOff.held 2 = false ∧ (holdsOff.core 2).preempt = true ∧
    (holdsOff.core 2).act = some { placedAct with ovf := 0x20000, entry := false } ∧ (holdsOff.core 2).wait = some .migration ∧
    holdsOff.areaTaken placedAct.launch (holdsOff.core 2).kself 2 = false := by decide +kernel

theorem witness_held : (exchanging (running 0)).held 0 = true ∧ lateCore.held 0 = false := by decide +kernel

theorem witness_CoreEvents_walk :
    let s := { machine 0 (Core.reset 0) with mem := Memory.reset.place 0 0 }
    (0x1234 : Word).toNat < 2 ^ 48 ∧ (s.core 0).tlb = [] ∧ s.mem.wf = true ∧ s.mem.upsets = [] ∧
    (walk s.mem (.core 0) (s.vf (s.core 0).vfid).ctx (s.core 0).asid 0x1234 =
      .ok (⟨0, 2 ^ 37, 0, 0, 0, true, true, true, true⟩, 0x4000) ∧
    mappable ((⟨0, 2 ^ 37, 0, 0, 0, true, true, true, true⟩ : Leaf).place 0x1234).pa = true ∧
    s.mem.viewNat (.core 0) 0x4000 8 = leNat ((List.range' 0x4000 8).map s.mem.byte)) := by decide +kernel

theorem witness_CoreEvents_waits :
    let s := { machine 0 { running 0 with wait := some .waita } with
      rc := 4196, mem := { Memory.reset with
        watches := [⟨0, 5, 100, true⟩]
        unseen := [⟨3, .core 1, [], [], [], [], [.package], [], [], false, []⟩, ⟨4, .core 1, [], [], [], [], [.package], [3], [], false, []⟩] } }
    (⟨0, 5, 100, true⟩ : Watch) ∈ s.mem.watches ∧ (s.core 0).wait = some .waita ∧ 100 + 4096 ≤ s.rc ∧ s.held 0 = false ∧
    s.mem.unseen.find? (·.id == 3) = some ⟨3, .core 1, [], [], [], [], [.package], [], [], false, []⟩ ∧
    s.mem.before ⟨3, .core 1, [], [], [], [], [.package], [], [], false, []⟩ (.core 2) = [] ∧
    s.mem.unseen.find? (·.id == 4) = some ⟨4, .core 1, [], [], [], [], [.package], [3], [], false, []⟩ ∧
    s.mem.before ⟨4, .core 1, [], [], [], [], [.package], [3], [], false, []⟩ (.core 2) ≠ [] ∧ isDram 0x4000 = true := by decide +kernel

theorem witness_CoreEvents_others :
    let s := { machine 0 { pinnedCore 0 with lineMask := 4, bc := [(5, ⟨3, 1⟩, w64 8)], sym := (Vector.replicate 32 Sym.reset).set 3 ⟨.pending, 0, .i64, 1⟩ } with
      barriers := [(2, ⟨some 0, 4, 0, false, [0, 9], none⟩)], bcasts := [(5, ⟨some 0, 0, 7, [(0, 0, 77)]⟩), (6, ⟨some 0, 0, 6, [(0, 0, 77)]⟩)] }
    (s.core 0).slots[4] = .holds (somePacket .send) ∧ (machine 0 { pinnedCore 0 with pinned := none }).me.pinned ≠ some 4 ∧
    mget s.barriers 2 = some ⟨some 0, 4, 0, false, [0, 9], none⟩ ∧
    mget s.bcasts 5 = some ⟨some 0, 0, 7, [(0, 0, 77)]⟩ ∧ 0 ≤ s.rc ∧ (∃ d, mget s.cores 0 = some d ∧ d.bc = [(5, ⟨3, 1⟩, w64 8)] ∧
      d.sym[3].state = .pending ∧ d.sym[3].gen = 1 ∧ d.lineMask.getLsbD 2 = true) ∧
    ((7 : BitVec 32) + 1 - (w64 8).truncate 32).toNat < 2 ^ 31 ∧ ¬ ((6 : BitVec 32) + 1 - (w64 8).truncate 32).toNat < 2 ^ 31 :=
  ⟨by decide +kernel, by decide +kernel, by decide +kernel, by decide +kernel, Nat.zero_le _, ⟨_, rfl, by decide +kernel⟩, by decide,
    by decide⟩

/-- What a word lost on a link may stand in: a message, a SPAWN, a branch of a multicast, a packet of a reduction. -/
theorem witness_CoreEvents_links :
    let s := { machine 0 (running 0) with
      flights := [⟨somePacket .send, .link⟩, ⟨somePacket (.spawn (some ⟨3, 1⟩) 5 (some 0)), .link⟩]
      multis := [⟨somePacket .send, 3, [⟨0, false, [1, 130]⟩]⟩]
      rounds := [⟨7, 0, [⟨0, 1, [w64 1, w64 2], some 3⟩], [], [], false⟩]
      sent := [(2, someMsg 0)] }
    0 < s.sent.length ∧ s.flights[0]? = some ⟨somePacket .send, .link⟩ ∧ s.flights[1]? = some ⟨somePacket (.spawn (some ⟨3, 1⟩) 5 (some 0)), .link⟩ ∧
    s.multis[0]? = some ⟨somePacket .send, 3, [⟨0, false, [1, 130]⟩]⟩ ∧ (∃ k ∈ [1, 130], k / 128 ∈ [0]) ∧ (∃ k ∈ [1, 130], k / 128 ∉ [0]) ∧
    (∀ k ∈ [1, 130], k / 128 ∈ [0, 1]) ∧ s.rounds[0]? = some ⟨7, 0, [⟨0, 1, [w64 1, w64 2], some 3⟩], [], [], false⟩ ∧
    0 < [(⟨0, 1, [w64 1, w64 2], some 3⟩ : Part)].length := by decide +kernel

/-- A message on a link to core 0, which has an entry for class 9 at priority 1. -/
def arriving (k : MsgKind) (full : Bool) : State :=
  { machine 0 { Core.reset 0 with
      classes := (Vector.replicate 64 0).set 9 (w64 (2 ^ 63 + 2 ^ 62 + 2 ^ 56 + 0x10000))
      slots := if full then Vector.replicate 32 .reserved else Vector.replicate 32 .free } with
    flights := [⟨somePacket k, .link⟩] }

theorem witness_MessageSteps_arrival :
    (arriving .send false).flights = ⟨somePacket .send, .link⟩ :: [] ∧
    (∀ f ∈ (arriving .send false).flights, f.travel = .link) ∧ (arriving .send false).held 0 = false ∧
    (arriving .send false).serves 0 0 = true ∧ ({ arriving .send false with vfs := [] } : State).serves 0 0 = false ∧ (somePacket .send).msg.dest = 0 ∧
    (((arriving .send false).core 0).classes[9]).getLsbD 63 = true ∧ ((arriving .send false).core 0).slots[0] = .free ∧
    ((arriving .completion false).core 0).slots[28] = .free ∧ (somePacket .completion).kind = .completion ∧
    (∀ j : Fin 32, j.val < 28 → ((arriving .send true).core 0).slots[j.val] ≠ .free) ∧
    (somePacket (.spawn none 3 (some someLaunch.born))).kind = .spawn none 3 (some someLaunch.born) ∧ mget (arriving (.spawn none 3 (some someLaunch.born)) false).launches 0 = some someLaunch ∧
    someLaunch.cancelled = false ∧ someLaunch.counts.isFull = false := by decide +kernel

/-- A message that waits in the parking buffer, with a free slot and without; a start message at its slot; a result of a group. -/
theorem witness_MessageSteps_slots :
    let s (k : MsgKind) (w : Travel) (full : Bool) : State := { arriving k full with flights := [⟨somePacket k, w⟩] }
    (s .send (.parked 3) false).flights = [⟨somePacket .send, .parked 3⟩] ∧ (s .send (.parked 3) false).serves 0 0 = true ∧
    (s .send (.parked 3) false).held 0 = false ∧ LowestFree ((s .send (.parked 3) false).core 0) 0 0 28 ∧
    LowestFree ((s .completion (.parked 3) false).core 0) 28 28 32 ∧ Governed ((s .send (.parked 3) false).core 0) (somePacket .send) ∧
    (∀ j : Fin 32, decide (28 ≤ j.val) = decide ((somePacket .send).kind = .completion) →
      ((s .send (.parked 3) true).core 0).slots[j.val] ≠ .free) ∧
    (∀ j : Fin 32, 28 ≤ j.val → ((s .completion .link true).core 0).slots[j.val] ≠ .free) ∧
    (s (.start 2) (.placed 5) false).flights = [⟨somePacket (.start 2), .placed (5 : Fin 32).val⟩] ∧
    (somePacket (.root 7)).kind = .root 7 := by
  refine ⟨rfl, by decide +kernel, by decide +kernel, ?_, ?_, ?_, by decide +kernel, by decide +kernel, rfl, rfl⟩
  · unfold LowestFree; decide +kernel
  · unfold LowestFree; decide +kernel
  · unfold Governed; decide +kernel

theorem witness_MessageSteps_response :
    let s := { machine 0 (running 0) with flights := [⟨somePacket (.spawn (some ⟨3, 1⟩) 5 (some 0)), .placed 5⟩] }
    s.flights[0]? = some ⟨somePacket (.spawn (some ⟨3, 1⟩) 5 (some 0)), .placed 5⟩ ∧ 5 < 32 ∧
    s.held (somePacket .send).msg.dest = false ∧ s.stalled (somePacket (.spawn (some ⟨3, 1⟩) 5 (some 0))) = false := by decide +kernel

/-- A bounce from core 128 of another dome while 32 messages are parked in dome 0; a SPAWN of a launch that completed. -/
theorem witness_MessageSteps_stalled :
    let p : Packet := { somePacket (.spawn (some ⟨3, 1⟩) 5 (some 0)) with msg := { someMsg 0 with src := 128 } }
    let s := { machine 0 (running 0) with
      flights := ⟨p, .placed 5⟩ :: List.replicate 32 ⟨somePacket .send, .parked 7⟩ }
    s.flights[0]? = some ⟨p, .placed 5⟩ ∧ s.stalled p = true ∧ (some 9 : Option Nat) ≠ some someLaunch.born := by decide +kernel

/-- Core 0, free, with a message of class 9 that it may start. -/
def startable (k : MsgKind) : State :=
  machine 0 { pinnedCore 0 with
    act := none
    pinned := none
    slots := (Vector.replicate 32 Slot.free).set 4 (.holds (somePacket k))
    classes := (Vector.replicate 64 0).set 9 (w64 (2 ^ 63 + 2 ^ 62 + 2 ^ 56 + 0x10000)) }

theorem witness_MessageSteps_start :
    (∀ k ∈ [MsgKind.send, .start 2], ((startable k).core 0).act = none ∧ ((startable k).core 0).busyFor = none ∧
      ((startable k).core 0).preempt = false ∧ (startable k).held 0 = false ∧ someLaunch.desc.pc.getLsbD 0 = false ∧
      ((startable k).core 0).orphan = none ∧
      ((startable k).core 0).select ((startable k).mayStart 0) = some (4, somePacket k, w64 (2 ^ 63 + 2 ^ 62 + 2 ^ 56 + 0x10000)) ∧
      mget (startable k).launches (somePacket k).msg.launch = some someLaunch) := by decide +kernel

/-- A far body's delivery with its entry, a message of another package with its listener, and messages whose launch is gone. -/
theorem witness_MessageSteps_kinds :
    let task : MsgKind := .task ⟨0, 0, 0⟩
    let s := { startable task with homes := (nearTest id).homes }
    let x := { startable .notify with vfs := [(0, { Vf.reset with domes := [0], listen := [(3, 0)] })], sc := { Station.reset with package := some 3 } }
    s.entryAt 0 0 0 = some placedEntry ∧ placedEntry.desc.farpc.getLsbD 0 = false ∧
    (s.core 0).select (s.mayStart 0) = some (4, somePacket task, w64 (2 ^ 63 + 2 ^ 62 + 2 ^ 56 + 0x10000)) ∧ (s.core 0).orphan = none ∧
    x.listener (somePacket .notify) = some 0 ∧ mget x.launches 0 = some someLaunch ∧ someLaunch.counts.isFull = false ∧
    (startable .notify).listener (somePacket .notify) = none ∧
    mget ({ startable .send with launches := [] } : State).launches (somePacket .send).msg.launch = none ∧
    (1 : Word).getLsbD 0 = true := by decide +kernel

theorem witness_MessageSteps_parking :
    let f : Flight := ⟨somePacket .send, .parked 5⟩
    let g : Flight := ⟨somePacket .send, .parked 6⟩
    let s := { machine 0 (running 0) with flights := [g] ++ f :: [], rc := 5 + 2 ^ 20 }
    s.flights = [g] ++ f :: [] ∧ f.packet.msg.dest / 128 = 0 ∧ 5 + 2 ^ 20 ≤ s.rc ∧ s.rc < 6 + 2 ^ 20 := by decide +kernel

theorem witness_MessageSteps_groups :
    let s := { machine 0 (running 0) with
      multis := [⟨somePacket .send, 3, [⟨0, false, [1, 2]⟩]⟩]
      groups := [(7, .reduction 0 0 [3, 4] 5 9 1 0 0 2 0)]
      rounds := [⟨7, 0, [⟨0, 1, [w64 1, w64 2], some 3⟩, ⟨0, 2, [w64 3, w64 4], some 4⟩], [], [], false⟩, ⟨7, 1, [], [(0, ⟨0, 1, [w64 1, w64 2], none⟩)], [], true⟩] }
    s.multis[0]? = some ⟨somePacket .send, 3, [⟨0, false, [1, 2]⟩]⟩ ∧ s.rounds[0]? = some ⟨7, 0, [⟨0, 1, [w64 1, w64 2], some 3⟩, ⟨0, 2, [w64 3, w64 4], some 4⟩], [], [], false⟩ ∧
    mget s.groups 7 = some (.reduction 0 0 [3, 4] 5 9 1 0 0 2 0) ∧ s.inPartition 0 5 = true ∧
    s.roundOpen ⟨7, 0, [⟨0, 1, [w64 1, w64 2], some 3⟩, ⟨0, 2, [w64 3, w64 4], some 4⟩], [], [], false⟩ = true ∧
    s.rounds[1]? = some ⟨7, 1, [], [(0, ⟨0, 1, [w64 1, w64 2], none⟩)], [], true⟩ ∧
    s.roundOpen ⟨7, 1, [], [(0, ⟨0, 1, [w64 1, w64 2], none⟩)], [], true⟩ = true ∧ ∀ i < 2, (3 : BitVec 64).getLsbD i = true := by decide +kernel

/-- A multicast to two members of dome 1, one of dome 2: in the outbound queue of a core of dome 0, and in its router; the routers of
domes 0 and 2 with all eight buffers in use; a copy with one member. -/
theorem witness_MessageSteps_multicast :
    let x (b : Bool) : Multicast := ⟨somePacket .send, 3, [] ++ ⟨0, b, [130, 131, 256]⟩ :: []⟩
    let one : Multicast := ⟨somePacket .send, 3, [⟨0, false, [1]⟩]⟩
    let s (b : Bool) (n : Nat) : State := { machine 0 (running 0) with
      multis := x b :: List.replicate n ⟨somePacket .send, 3, [⟨0, false, [1]⟩, ⟨2, false, [256]⟩]⟩ }
    let room (s : State) (e : Nat) : Prop := (s.multis.map fun m => (m.copies.filter fun c => !c.queued && c.node == e).length).sum < 8
    let last (f : Bool) (fs : List Flight) : State := { machine 0 { running 0 with
      classes := (Vector.replicate 64 0).set 9 (w64 (2 ^ 63 + 2 ^ 62 + 2 ^ 56 + 0x10000))
      slots := if f then Vector.replicate 32 .reserved else Vector.replicate 32 .free } with
      cores := [(1, { running 1 with
        classes := (Vector.replicate 64 0).set 9 (w64 (2 ^ 63 + 2 ^ 62 + 2 ^ 56 + 0x10000))
        slots := if f then Vector.replicate 32 .reserved else Vector.replicate 32 .free })]
      flights := fs
      multis := [one] }
    (s true 0).multis[0]? = some (x true) ∧ (s false 0).multis[0]? = some (x false) ∧ room (s true 7) 0 ∧ ¬ room (s true 8) 0 ∧
    (∀ k ∈ [130, 131, 256], k / 128 ≠ 0) ∧ (s false 0).route 0 3 = .dimension ∧ [130, 131, 256].Nodup ∧ room (s false 7) 1 ∧
    ¬ room (s false 8) 2 ∧ (last false []).multis[0]? = some one ∧ one.copies = [] ++ ⟨0, false, [1]⟩ :: [] ∧ 1 / 128 = 0 ∧
    (last false []).inPartition one.packet.vf 1 = true ∧ ({ last false [] with vfs := [] } : State).inPartition one.packet.vf 1 = false ∧
    (last false []).held 1 = false ∧ LowestFree ((last false []).core 1) 0 0 28 ∧
    Governed ((last false []).core 1) { one.packet with msg := { one.packet.msg with dest := 1 } } ∧
    (∀ j : Fin 32, j.val < 28 → ((last true []).core 1).slots[j.val] ≠ .free) ∧ (last true []).parkedIn 0 < 32 ∧
    32 ≤ (last true (List.replicate 32 ⟨somePacket .send, .parked 7⟩)).parkedIn 0 := by
  refine ⟨rfl, rfl, by decide +kernel, by decide +kernel, by decide, by decide +kernel, by decide, by decide +kernel, by decide +kernel, rfl,
    rfl, rfl, by decide +kernel, by decide +kernel, by decide +kernel, ?_, ?_, by decide +kernel, by decide +kernel, by decide +kernel⟩
  · unfold LowestFree; decide +kernel
  · unfold Governed; decide +kernel

/-- A counter record with members. -/
def counts4 : Counts := ⟨false, 4, 0, 0, 0⟩

/-- The words of a launch descriptor: PC, CARVE, SLIM, units and the mask of dome 0. -/
def descRaw : Nat := 0x10000 + 2 ^ 80 + 2 ^ 88 + 4 * 2 ^ 96 + 2 ^ 128

/-- The Orrery with one job, phase and graph, a descriptor at 0x8000, a TCB image at 0x9000 and requests. -/
def orrery (q : List OrreryReq) : State :=
  { machine 0 (running 0) with
    mem := ((Memory.reset.place 0 0).writeData (Visibility.everyone .station) 0x8000 (leBytes 128 descRaw)).writeData
      (Visibility.everyone .station) 0x9000 (leBytes 64 (2 ^ 16 + 7 * 2 ^ 32 + ((2 ^ 192 - 1) * 2 ^ 128)))
    jobs := [(0, ⟨counts4, 0, 0, none⟩)]
    phases := [(0, ⟨counts4, 0⟩)]
    graphs := [(7, ⟨counts4, 0, 0, [(12, 0)], none, none⟩), (8, ⟨⟨true, 4, 0, 0, 0⟩, 0, 0, [(13, 0)], none, none⟩)]
    tcbs := [(12, { Tcb.reset with state := .ready, graph := 7 }), (13, { Tcb.reset with kind := 1, state := .ready, graph := 7, body := 0x8000 }),
      (14, { Tcb.reset with state := .armed, graph := 7 })]
    rc := 64
    oreqs := q }

theorem witness_OrrerySteps_launch :
    let s : State := { orrery [] with served := some 64 }
    let q : Issuer := ⟨some 0, 0, 0, none, some 0, none, 0⟩
    (orrery [.launch someAsker (some ⟨3, 1⟩) 0x8000 []]).oreqs = .launch someAsker (some ⟨3, 1⟩) 0x8000 [] :: [] ∧
    someAsker.since < s.rc ∧ (orrery []).served ≠ some (orrery []).rc ∧ s.served = some s.rc ∧
    (orrery []).heldFor .orrery 0 0 0x8000 128 [.read] = false ∧ (s.readDesc 0 0 0x8000).1 = some (descRaw, 0) ∧
    ((s.readDesc 0 0 0x8000).2.pcChecked q (some (descRaw, 0))).launchCodes q descRaw (parseLaunch descRaw 0) = [] ∧
    ({ s with jobs := [] }.readDesc 0 0 0x8000).1 = some (descRaw, 0) ∧
    (({ s with jobs := [] }.readDesc 0 0 0x8000).2.pcChecked q (some (descRaw, 0))).launchCodes q descRaw (parseLaunch descRaw 0) ≠ [] ∧
    ({ s with mem := Memory.reset }.readDesc 0 0 0x8000).1 = none := by decide +kernel

theorem witness_OrrerySteps_requests :
    let s : State := { orrery [] with served := some 64 }
    (orrery [.cancel someAsker (some ⟨3, 1⟩) .launch 0]).oreqs = .cancel someAsker (some ⟨3, 1⟩) .launch 0 :: [] ∧
    rising none (s.launches.map Prod.fst) = true ∧ s.instanceJob .launch (0 : Word).toNat = some someAsker.job ∧ 0 ≠ { someAsker with job := 1 }.job ∧
    s.instanceJob .launch (1 : Word).toNat = none ∧ (∃ y, mget s.launches someAsker.launch = some y ∧ some y.born = someAsker.born) ∧
    (orrery [.garm someAsker (some ⟨3, 1⟩) 0x9000 false 20 []]).oreqs = .garm someAsker (some ⟨3, 1⟩) 0x9000 false 20 [] :: [] ∧
    (State.readBlocks someLaunch.vf someLaunch.asid 1 0x9000 s).1 =
      some (leBytes 64 (2 ^ 16 + 7 * 2 ^ 32 + ((2 ^ 192 - 1) * 2 ^ 128)), List.replicate 4 false) ∧
    (s.tcb (20 : Word).toNat).state ≠ .faulted ∧
    s.garmCodes (2 ^ 16 + 7 * 2 ^ 32 + ((2 ^ 192 - 1) * 2 ^ 128)) 20 false 0 0 = [] ∧
    s.garmCodes (2 ^ 16 + 7 * 2 ^ 32 + ((2 ^ 192 - 1) * 2 ^ 128)) 12 false 0 0 ≠ [] ∧
    (orrery [.grel someAsker (some ⟨3, 1⟩) 7]).oreqs = .grel someAsker (some ⟨3, 1⟩) 7 :: [] ∧
    rising none (s.graphs.map Prod.fst) = true ∧ (∃ x, mget s.graphs 7 = some x ∧ x.job = 0 ∧ x.counts.closed = false) ∧
    (∃ x, mget s.graphs 8 = some x ∧ x.counts.closed = true) ∧ mget s.graphs 9 = none ∧ s.rc % 64 = 0 ∧
    (orrery []).heldFor .orrery 0 0 0x9000 64 [.read] = false :=
  ⟨rfl, by decide +kernel, by decide +kernel, by decide +kernel, by decide +kernel, ⟨_, rfl, by decide +kernel⟩, rfl, by decide +kernel,
    by decide +kernel, by decide +kernel, by decide +kernel, rfl, by decide +kernel, ⟨_, rfl, by decide +kernel⟩,
    ⟨_, rfl, by decide +kernel⟩, by decide +kernel⟩

theorem witness_OrrerySteps_head :
    let s := orrery []
    (∃ x, mget s.graphs 8 = some x ∧ x.ready = (13, 0) :: [] ∧ x.headPri = none) ∧ (s.tcb 13).kind = 1 ∧
    (s.readDesc (s.tcb 13).owner.vf (s.tcb 13).owner.asid (s.tcb 13).body).1 = some (descRaw, 0) ∧ (s.tcb 12).kind = 0 ∧
    (({ s with mem := Memory.reset } : State).bodyPri (s.tcb 13)).1 = none :=
  ⟨⟨_, rfl, rfl, rfl⟩, by decide +kernel⟩

theorem witness_OrrerySteps_placement :
    let s := { orrery [] with placements := [⟨.unit 0 2, 0⟩, ⟨.tcb 7, 0⟩] }
    s.placements[0]? = some ⟨.unit 0 2, 0⟩ ∧ mget s.launches 0 = some someLaunch ∧
    (s.dropPlacement 0).coreForUnit 0 0 = some 0 ∧
    { s with cores := (List.range 96).map fun k => (k, { Core.reset k with slots := Vector.replicate 32 .reserved }) }.coreForUnit 0 0 = none ∧
    (∃ x, mget s.graphs 7 = some x ∧ x.ready = [(12, 0)]) ∧ (s.tcb 12).kind = 0 ∧ 12 ∉ (s.tcb 12).succ ∧
    (∀ y ∈ s.launches, y.2.tcb = none) ∧ rising none (s.tcbs.map Prod.fst) = true ∧ ⟨.tcb 7, 0⟩ ∈ s.placements ∧
    (∀ pri < 4, ∀ v < 2, State.reset.placeable v pri = none) ∧ s.dispatched ≠ some s.rc ∧ ({ s with dispatched := some 64 } : State).dispatched = some s.rc ∧
    ((([3, 2, 1, 0].foldl State.passTurn ({ machine 0 (Core.reset 0) with accepted := [0], domes := [(0, { Dome.reset with mode := .owned 0, idle := 4, free := 100 })] } : State).counted).placeable 0 1).isSome = true) :=
  ⟨by decide +kernel, by decide +kernel, by decide +kernel, by decide +kernel, ⟨_, rfl, rfl⟩, by decide +kernel⟩

theorem witness_OrrerySteps_body :
    let s := orrery []
    let y : Graph := ⟨counts4, 0, 0, [(12, 0)], none, some 64⟩
    (mget s.graphs 7).map (·.started) = some none ∧ mget ({ s with graphs := [(7, y)] } : State).graphs 7 = some y ∧ y.started = some s.rc ∧
    (s.tcb 13).kind = 1 ∧ (s.tcb 12).state = .ready ∧ (s.tcb 13).state = .ready ∧ (s.tcb 14).state ≠ .ready ∧
    (s.readDesc (s.tcb 13).owner.vf (s.tcb 13).owner.asid (s.tcb 13).body).1 = some (descRaw, 0) ∧
    ((s.readDesc 0 0 0x8000).2.pcChecked ⟨some 0, 0, 0, none, none, some 13, 0⟩ (some (descRaw, 0))).launchCodes
      ⟨some 0, 0, 0, none, none, some 13, 0⟩ descRaw { parseLaunch descRaw 0 with
        gv := true
        graph := 7 } = [] := by decide +kernel

theorem witness_OrrerySteps_domes :
    let s := { machine 0 (Core.reset 0) with domes := [(0, { Dome.reset with mode := .retiring 0 true none })], stitch := some ⟨0, none, []⟩ }
    (s.dome 0).mode = .retiring 0 true none ∧ s.mem.wf = true ∧ s.domeInUse 0 0 = false ∧ s.stitch = some ⟨0, none, []⟩ ∧
    (∀ c ∈ s.cores, s.inPartition 0 c.1 = true → c.2.act = none) ∧ s.flights = [] ∧ s.multis = [] ∧
    { s with cores := [(0, running 0)] }.domeInUse 0 0 = true ∧
    ∃ c ∈ { s with cores := [(0, running 0)] }.cores, s.inPartition 0 c.1 = true ∧ c.2.act ≠ none :=
  ⟨by decide +kernel, by decide +kernel, by decide +kernel, rfl, by decide +kernel, rfl, rfl, by decide +kernel,
    ⟨_, List.mem_cons_self, by decide +kernel⟩⟩

/-- A machine with cores 0 and 1 and readings at the Station Controller. -/
def heated (f : Station → Station) : State :=
  { machine 0 { running 0 with asking := true } with
    cores := [(0, { running 0 with asking := true }), (1, Core.reset 1)]
    rc := 1200000 * 10
    sc := f { Station.reset with
      slacks := [(0, -3), (1, 0), (2, 4)]
      temps := [(0, 400)]
      sampled := [(0, 400), (1, 350)]
      balances := [(0, 2000)] } }

theorem witness_PowerSteps :
    (heated id).rc % 12000 = 0 ∧ ((heated id).core 0).trimmed ≠ some (heated id).rc ∧ ({ heated id with rc := 1 } : State).rc % 12000 ≠ 0 ∧
    ((heated id).setCore 0 { (heated id).core 0 with trimmed := some (heated id).rc }).core 0 =
      { (heated id).core 0 with trimmed := some (heated id).rc } ∧ (({ heated id with rc := 11999 } : State).rc + 1) % 12000 = 0 ∧
    (heated id).accessesHeld 0 = false ∧ mget (heated id).sc.slacks 0 = some (-3) ∧ (-3 : Int) < (heated id).sc.slackTarget ∧ ((heated id).core 0).supply < 190 ∧
    mget (heated id).sc.slacks 2 = some 4 ∧ mget (heated id).sc.slacks 1 = some 0 ∧ (0 : Int) = (heated id).sc.slackTarget ∧
    State.reset.rc + 1 ≠ 1200000 ∧ (heated id).rc % 1200000 = 0 ∧ (heated id).sc.temps = [(0, 400)] ∧
    (heated id).sc.suspended = false ∧ (heated fun x => { x with suspended := true }).sc.suspended = true ∧
    (domeCores 0).find? (fun k => ((heated id).core ((heated id).physOf k)).asking) = some 0 ∧
    (∀ k ∈ domeCores 1, ((heated id).core ((heated id).physOf k)).asking = false) ∧
    ((heated id).core 0).settled = true ∧ (heated id).since ((heated id).core 0).exchanged 2 = true ∧
    ((heated id).setCore 0 { (heated id).core 0 with asking := false }).choosePartner 0
      ((mget (heated id).sc.sampled 0).getD 0) = some 1 ∧ (heated id).sc.sampledAt ≠ some (heated id).rc ∧
    ((heated id).dome 0).exchange = none ∧ ((exchanging (running 0)).dome 0).exchange = some (0, 1) ∧
    ((heated fun x => { x with sampled := [(0, 400)] }).setCore 0 { (heated id).core 0 with asking := false }).choosePartner 0 400 = none ∧
    (heated id).counter (.stepTime 0 ((heated id).core 0).step) + ((heated id).rc - ((heated id).core 0).stepSince) < 2 ^ 64 := by
  decide +kernel

/-- A word with one flipped bit and one with two. -/
theorem witness_PowerSteps_scrub :
    let m := { Memory.reset with upsets := [(0x800, 1), (0x801, 2)] }
    isMemory (8 * 0x800) = true ∧ isMemory (8 * 0x801) = true ∧ mget m.upsets 0x800 = some 1 ∧ mget m.upsets 0x801 = some 2 ∧
    rising none (m.upsets.map Prod.fst) = true ∧ mget m.upsets 0x802 = none := by decide +kernel

theorem witness_PowerSteps_budget :
    (heated fun x => { x with expiry := 5 }).sc.expiry ≠ 0 ∧ (heated fun x => { x with expiry := 5 }).sc.expiry ≤ (heated id).rc ∧
    (heated id).rc < 2 ^ 40 ∧ (heated id).rc % 120000 = 0 ∧ (heated id).sc.checkedAt ≠ some (heated id).rc ∧ min (heated id).sc.budget 1800 < (heated fun x => { x with power := 1801 }).sc.power ∧
    (heated id).sc.power * 100 < (heated id).sc.budget * 95 ∧ (heated id).sc.inletOver = false ∧
    180 < (heated fun x => { x with inlet := 181 }).sc.inlet ∧ (heated id).sc.inlet ≤ 180 ∧
    (heated fun x => { x with inletOver := true }).sc.inletOver = true ∧ (heated id).sc.inlet < 168 ∧
    (heated id).sc.inletSince + 1200000000 ≤ { heated id with rc := 1200000000 }.rc := by decide +kernel

/-- A saved context of core 2. -/
def someSaved (ext : Bool) : Saved := ⟨4, 0, 2, 2 ^ 31 + 2 * 2 ^ 15, ext, 0, 0, 1, some { placedAct with entry := false }, [], none, []⟩

/-- Core 0 asked to give up an activation whose context area is at an address. -/
def preempted (o : Word) (fs : List Flight) : State :=
  { machine 0 { running 0 with
      preempt := true
      act := some { placedAct with ovf := o }
      splo := w64 (2 ^ 30 + 0x3FFF0)
      ovfptr := 0x20000 } with flights := fs }

/-- A completion message on its way to core 0. -/
def owedMsg : Flight := ⟨somePacket .completion, .link⟩

theorem witness_PreemptionSteps :
    (State.reset.core 0).preempt = false ∧ ((preempted 0 []).core 0).preempt = true ∧
    ((preempted 0x20000 []).core 0).act = some { placedAct with ovf := 0x20000 } ∧
    ((preempted 0x20000 []).stopRegion 0).owesMessage 0 { placedAct with ovf := 0x20000 } = false ∧
    ((preempted 0x20000 [owedMsg]).stopRegion 0).owesMessage 0 { placedAct with ovf := 0x20000 } = true ∧
    (machine 0 { Core.reset 0 with preempt := true }).me.waiting = [] ∧ (preempted 0x20000 []).held 0 = false ∧
    (preempted 0x20000 []).areaTaken 0 0 0 = false ∧ (preempted 0x20000 []).accessesHeld 0 = false ∧
    ({ preempted 0x20000 [] with saved := [{ someSaved false with kself := 0 }] } : State).areaTaken 0 0 0 = true ∧
    ((preempted 0x20000 []).stopRegion 0).enginesBusy 0 = false ∧ (preempted 0x20000 []).exchanging = false ∧ (exchanging (running 0)).held 0 = true := by decide +kernel

/-- The save meets no fault, or one at a page that is not mapped; a command of an earlier region keeps the engines busy. -/
theorem witness_PreemptionSteps_save :
    let save (s : State) : Option (Nat × Nat) × Option (Nat × Nat) :=
      let u := (s.stopRegion 0).flushAll 0
      let carve := u.saveCarve 0
      (carve.1, (State.saveParts 0 0 0 (0x20000 + 2 ^ 31)
        ((u.core 0).record (carve.2.mat 0) 0 0 0 0 0) carve.2).1)
    let bare : State := { preempted 0x20000 [] with cores := [(0, { (preempted 0x20000 []).core 0 with tlb := [] })] }
    save (preempted 0x20000 []) = (none, none) ∧ (save bare).1 = some (1, 0x20000 + 0x3FFF0) ∧
    (({ preempted 0x20000 [] with mats := [(0, { MatCore.reset with queue := [⟨.zclr 0 0, 9, []⟩] })] } : State).stopRegion 0).enginesBusy 0 = true := by
  decide +kernel

/-- A core without an activation, with a message that waits, asked to be pre-empted. -/
def holding (o : Word) : State :=
  { machine 0 { pinnedCore 0 with
      act := none
      pinned := none
      preempt := true } with
    launches := [(0, { someLaunch with desc := { someLaunch.desc with ovf := o } })] }

theorem witness_PreemptionSteps_waiting :
    let u := (holding 0x20000).flushAll 0
    ((holding 0x20000).core 0).preempt = true ∧ (holding 0x20000).exchanging = false ∧ (holding 0x20000).held 0 = false ∧ ((holding 0x20000).core 0).act = none ∧
    ((holding 0x20000).core 0).waiting ≠ [] ∧ ((holding 0x20000).waitingLaunch 0).map (·.1) = some 0 ∧
    ((holding 0).waitingLaunch 0).map (·.2.desc.ovf) = some 0 ∧ (holding 0x20000).areaTaken 0 0 0 = false ∧
    ({ holding 0x20000 with saved := [{ someSaved false with kself := 0 }] } : State).areaTaken 0 0 0 = true ∧ ((holding 0x20000).waitingLaunch 0).map (·.2.desc.ovf) = some 0x20000 ∧
    (State.saveParts 0 0 0 (0x20000 + 2 ^ 31) ((u.core 0).record (u.mat 0) 0 0 0 0 0) u).1 = none := by decide +kernel

theorem witness_PreemptionSteps_resume :
    let s := { machine 0 (running 0) with placements := [⟨.ctx (someSaved false), 0⟩, ⟨.ctx (someSaved true), 0⟩] }
    s.placements[0]? = some ⟨.ctx (someSaved false), 0⟩ ∧ isExt 1 = (someSaved false).ext ∧ (s.core 1).fits (someSaved false).inbox = true ∧
    1 ∈ domeCores 0 ∧ s.held 1 = false ∧ s.exchanging = false ∧ (∀ j ∈ domeCores 0, j < 1 → (s.core j).fits (someSaved false).inbox = false) ∧
    { s with cores := (List.range 96).map fun k => (k, running k) }.cores.all (fun c => c.2.fits []) = false := by decide +kernel

/-- A context with no running region and a message in slot 4; an activation that has left core 0 for core 88. -/
theorem witness_PreemptionSteps_bare :
    let x : Saved := { someSaved false with act := none, inbox := [(4, somePacket .send)] }
    let s := { machine 0 (running 0) with placements := [⟨.ctx x, 0⟩], mem := Memory.reset.place 0 0 }
    s.placements[0]? = some ⟨.ctx x, 0⟩ ∧ isExt 1 = x.ext ∧ s.held 1 = false ∧ (s.core 1).fits x.inbox = true ∧ 1 ∈ domeCores 0 ∧
    (∀ j ∈ domeCores 0, j < 1 → (s.core j).fits x.inbox = false) ∧ s.exchanging = false ∧
    (((s.dropPlacement 0).restore 1 x).clearValid 1 x).1 = none ∧
    (let moved := machine 88 { running 88 with act := some { placedAct with left := some 0 } }
    (moved.core 88).act = some { placedAct with left := some 0 } ∧ 0 ≠ 88) := by decide +kernel

/-- The record's VALID can be cleared and its PC is even; it is odd; its page is not mapped. -/
theorem witness_PreemptionSteps_record :
    let s (m : Memory) : State := ({ machine 0 (running 0) with mem := m } : State).restore 1 (someSaved false)
    let odd := (Memory.reset.place 0 0).writeData (Visibility.everyone .station) (2 ^ 31 + 2 * 2 ^ 15 + 8) [1]
    ((s (Memory.reset.place 0 0)).clearValid 1 (someSaved false)).1 = none ∧
    ((s (Memory.reset.place 0 0)).core 1).rgnpc.getLsbD 0 = false ∧ ((s odd).clearValid 1 (someSaved false)).1 = none ∧
    ((s odd).core 1).rgnpc.getLsbD 0 = true ∧
    ((s Memory.reset).clearValid 1 (someSaved false)).1 = some (1, 2 ^ 31 + 2 * 2 ^ 15) := by decide +kernel

theorem witness_PreemptionSteps_migration :
    let s := machine 0 { withG (running 0) [(5, num 9)] with wait := some .migration, act := some { placedAct with entry := false, gmask := 0x20 } }
    (s.core 0).act = some { placedAct with entry := false, gmask := 0x20 } ∧ (s.core 0).wait = some .migration ∧
    (s.stopRegion 0).owesMessage 0 { placedAct with entry := false, gmask := 0x20 } = false ∧
    (s.stopRegion 0).enginesBusy 0 = false ∧ s.held 0 = false ∧ s.accessesHeld 0 = false ∧ s.held 88 = false ∧ 88 ∈ domeCores 0 ∧ isExt 88 = true ∧ ((s.stopRegion 0).core 88).fits (s.core 0).inboxImage = true ∧
    (∀ i ∈ domeCores 0, i < 88 → isExt i = false) ∧ (0x20 : BitVec 32).getLsbD (5 : GReg).val = true ∧
    ((s.core 0).readG 5).tag ≠ .eph := by decide +kernel

/-- A request of the form of its OP, signed with key 5. -/
def askedReq (b : KcpBody) : KcpReq := ⟨⟨false, BitVec.ofNat 15 b.op, 0, 7, BitVec.ofNat 32 (b.len.getD 0), 0⟩, some 5, b, false, 0⟩

/-- A request at an endpoint of a package that is ready; job 0 belongs to virtual function 0. -/
def asked (ep : Nat) (b : KcpBody) : State :=
  { orrery [] with
    kcp := [(ep, [askedReq b])]
    sc := { Station.reset with boot := .ready, keys := [5], slotA := ⟨3, [1], true, true⟩ } }

theorem witness_KcpRequests :
    let s := asked 0 (.cancel .launch 0)
    let s0 := { s with kcp := mput s.kcp 0 [] }
    mget s.kcp 0 = some (askedReq (.cancel .launch 0) :: []) ∧ s.sc.boot = .ready ∧ (askedReq (.cancel .launch 0)).busy = false ∧
    (∀ b ∈ [KcpBody.cancel .launch 0, .read 0 0x20000 8, .launchBody 0, .open 0, .other 99, .part (.package 2), .keys 0],
      (askedReq b).wellFormed = true) ∧
    (let codes (b : BitVec 1024) : List Nat := (s0.pcChecked ⟨none, 0, 0, none, none, none, 0⟩ (some (b.toNat, 0))).launchCodes
      ⟨none, 0, 0, none, none, none, 0⟩ b.toNat (parseLaunch b.toNat 0)
    codes (BitVec.ofNat 1024 descRaw) = [] ∧ codes 0 ≠ []) ∧
    (mget s.jobs 9).filter (fun x => x.vf == 0) = none ∧ s.instanceJob .launch (1 : Word).toNat = none ∧
    s.instanceJob .launch (0 : Word).toNat = some 0 ∧ (∃ x, mget s.jobs 0 = some x ∧ x.vf = 0) ∧
    rising none (s.launches.map Prod.fst) = true ∧ rising none (s.jobs.map Prod.fst) = true ∧
    (∃ x, mget s.phases 0 = some x ∧ x.job = 0) ∧ rising none (s.phases.map Prod.fst) = true ∧
    openBad ((1 : BitVec 128) <<< 16).toNat = false ∧ openBad 2 = true ∧ mget s.jobs 1 = none ∧ (s0.checked (s.asidAt 0 0) 8).asidValid 0 0 = true ∧
    (s0.checked (s.asidAt 0 1) 8).asidValid 0 1 = false ∧
    openBad (1 + 2 ^ 32) = false ∧ mget s.phases 1 = none ∧ counts4.closed = false ∧ counts4.isFull = false :=
  ⟨rfl, rfl, rfl, by decide +kernel, by decide +kernel, by decide +kernel, by decide +kernel, by decide +kernel,
    ⟨_, rfl, rfl⟩, by decide +kernel, by decide +kernel, ⟨_, rfl, rfl⟩, by decide +kernel⟩

theorem witness_KcpRequests_memory :
    let s := asked 0 (.read 0 0x20000 8)
    let s0 := { s with kcp := mput s.kcp 0 [] }
    ((s0.boundsInside 0 0 0xFF00000000100000 0x20000).2.engineTo .station 0 0 0x20000 [.write]).1.map (·.pa) = .ok 0x20000 ∧ malformed 0xFF60000001000000 0 = false ∧
    malformed 0 0 = true ∧ (({ s0 with mem := Memory.reset } : State).boundsInside 0 0 0xFF00000000100000 0x20000).1 = false ∧
    (s0.boundsInside 0 0 0xFF00000000100000 0x20000).1 = true ∧ s.mem.wf = true ∧
    (s0.spanPages .station 0 0 [.read] 0x20000 8).1 = some [⟨0x20000, 0x20000, 8, 0⟩] ∧
    (s0.spanPages .station 0 0 [.read] 0x20000 8).2.mem.poisonIn .station 0x20000 8 = none ∧
    (s0.spanPages .station 0 0 [.read] 0x20000 8).2.mem.upsets = [] ∧ (s0.spanPages .station 0 0 [.read] 0x20000 8).2.heldSpan 0x20000 8 = false ∧
    (s0.spanPages .station 0 0 [.write] 0x20000 2).1 = some [⟨0x20000, 0x20000, 2, 0⟩] ∧ mget s.kcpRuns 0 = none ∧
    (List.replicate 32 (0 : Byte)).length = 32 := by decide +kernel

theorem witness_KcpRequests_poison :
    let s0 : State := { asked 0 (.read 0 0x20000 8) with
      kcp := [(0, [])]
      mem := (orrery []).mem.setMark 0x4000 .stored }
    (s0.spanPages .station 0 0 [.read] 0x20000 8).2.mem.viewMark .station 0x4000 ≠ none := by decide +kernel

/-- A copy of 8 bytes that channel 2 runs: its bytes, its flag, and its end. -/
def copyRun (done : Nat) (flagged : Bool) : KcpRun :=
  ⟨some 2, 0x20000, 0x30000, 8, [⟨0x20000, 0x20000, 8, 0⟩], [⟨0x30000, 0x30000, 8, 0⟩], ⟨0x40000, 0x40000, 2, 0⟩, 5, done, flagged, []⟩

theorem witness_KcpRequests_copy :
    let s := { asked 0 (.copy 0 0x20000 0x30000 8 0x40000 5) with kcpRuns := [(0, copyRun 0 false)] }
    let s0 := asked 0 (.copy 0 0x20000 0x30000 8 0x40000 5)
    s0.freeKcpChannel = some 0 ∧ ((s0.spanPages (.kcpChannel 0) 0 0 [.read] 0x20000 8).1).isSome = true ∧
    (((s0.spanPages (.kcpChannel 0) 0 0 [.read] 0x20000 8).2.spanPages (.kcpChannel 0) 0 0 [.write] 0x30000 8).1).isSome = true ∧
    (s0.engineTo (.kcpChannel 0) 0 0 0x40000 [.write]).1.map (·.pa) = .ok 0x40000 ∧
    (({ s0 with mem := Memory.reset } : State).spanPages (.kcpChannel 0) 0 0 [.read] 0x20000 8).1 = none ∧
    ({ s0 with kcpRuns := (List.range 12).map fun c => (c + 1, { copyRun 0 false with channel := some c }) } : State).freeKcpChannel = none ∧
    mget s.kcpRuns 0 = some (copyRun 0 false) ∧ (copyRun 0 false).done < (copyRun 0 false).len ∧ s.mem.upsets = [] ∧ s.mem.wf = true ∧
    placeIn (copyRun 0 false).sources 0x20000 = some (0x20000, 0) ∧ placeIn (copyRun 0 false).dests 0x30000 = some (0x30000, 0) ∧
    s.heldSpan 0x20000 8 = false ∧ s.heldSpan 0x30000 8 = false ∧ s.heldSpan 0x40000 2 = false ∧
    (exchanging (running 0)).heldSpan 0x8000000000000 8 = true ∧ s.mem.poisonIn (.kcpChannel 2) 0x20000 8 = none ∧
    (copyRun 8 false).len ≤ (copyRun 8 false).done ∧ (copyRun 8 true).flagged = true := by decide +kernel

theorem witness_KcpManagement :
    MgmtReady (asked 1024 (.part (.assign 3 5))) 1024 (askedReq (.part (.assign 3 5))) [] 5 ∧
    (let s := asked 1024 (.part (.assign 3 5))
    (s.dome 5).mode = .unassigned ∧ ({ s with domes := [(5, { Dome.reset with mode := .owned 3 })] }.dome 5).mode = .owned 3 ∧
    (PartOp.assign 3 64).bad = true ∧ (PartOp.group 3 (.multicast 0 0 [1])).bad = false ∧ (PartOp.channel 2 0 4).bad = false ∧
    (s.part (.assign 3 5)).isSome = true ∧ s.part (.remove 5 false) = none ∧ s.stitch = none ∧ s.quiet 3 = true ∧
    s.quiet 0 = false ∧ State.reset.sc.boot = .booting ∧ Station.reset.boot ≠ .safe ∧
    (askedReq (.other 99)).busy = false ∧ { askedReq (.other 99) with header := { (askedReq (.other 99)).header with rply := true } }.wellFormed = false) :=
  ⟨⟨by decide, by decide +kernel, by decide +kernel, by decide +kernel, rfl, by decide +kernel⟩, by decide +kernel⟩

theorem witness_KcpManagement_others :
    let s := asked 1024 (.token 0)
    let key (b : Nat) : BitVec 256 := BitVec.ofNat 256 ((BitVec.ofNat 320 b).toNat / 2 ^ 64)
    s.sc.anyToken = false ∧ (BitVec.ofNat 128 (5 + 2000 * 2 ^ 32)).toNat / 2 ^ 48 = 0 ∧ (BitVec.ofNat 128 (2 ^ 48)).toNat / 2 ^ 48 ≠ 0 ∧
    { s.sc with anyToken := true, lastSeq := 9 }.anyToken = true ∧ ¬ (0 < ((9 : BitVec 32) - 9).toNat) ∧
    s.sc.active.ready = true ∧ s.sc.rows < 255 ∧ s.sc.fused.toNat < s.sc.active.version.toNat ∧
    (BitVec.ofNat 320 (9 * 2 ^ 64)).toNat / 2 ^ 8 % 2 ^ 56 = 0 ∧ key (9 * 2 ^ 64) ∉ s.sc.keys ∧ key (1 + 5 * 2 ^ 64) ∈ s.sc.keys ∧
    (BitVec.ofNat 320 (1 + 5 * 2 ^ 64)).toNat % 256 = 1 ∧ s.sc.keys.length = 1 ∧ 1 < [key (1 + 5 * 2 ^ 64), 6].length ∧
    key (1 + 5 * 2 ^ 64) ≠ 6 := by decide +kernel

theorem witness_StationSteps :
    State.reset.sc.boot = .booting ∧ (asked 0 (.other 99)).sc.boot ≠ .booting ∧
    { asked 0 (.other 99) with sc := { Station.reset with boot := .restarting } }.sc.boot = .restarting ∧
    { asked 0 (.other 99) with sc := { Station.reset with boot := .restartingSafe } }.sc.boot = .restartingSafe ∧
    Station.reset.active.valid = true ∧ Station.reset.fused.toNat ≤ Station.reset.active.version.toNat ∧
    ({ State.reset with stackTable := [(2, { Stack.reset with recal := true })] }.stack 2).recal = true ∧
    ({ State.reset with domes := [(5, { Dome.reset with mode := .testing })] }.dome 5).mode = .testing ∧
    { State.reset with uet := [.unsupported] }.uet[0]? = some .unsupported := by decide +kernel

/-- Page 0 mapped with scope SYSTEM, remote access on, package 2. -/
def remotely : State :=
  { machine 0 (running 0) with
    mem := (Memory.reset.place 0 0).writeData (Visibility.everyone .station) 0x4000 (leBytes 8 (0xDF + 4 * 2 ^ 52))
    vfs := [(0, { Vf.reset with domes := [0], remote := true })]
    sc := { Station.reset with package := some 2 } }

theorem witness_StationSteps_remote :
    (remotely.remotePages 3 0 0 [.write] 0x20000 3).1 = some [⟨0x20000, 0x20000, 3, 4⟩] ∧
    (remotely.remotePages 3 0 0 [.read] 0x20000 3).1 = some [⟨0x20000, 0x20000, 3, 4⟩] ∧
    (let t := (remotely.remotePages 3 0 0 [.read] 0x20000 3).2
    t.mem.poisonIn (.uet 3) 0x20000 3 = none ∧ t.mem.upsets = [] ∧ remotely.heldSpan 0x20000 3 = false) ∧
    remotely.mem.wf = true ∧ remotely.sc.package ≠ none ∧ (remotely.vf 0).remote = true ∧ remotely.inPartition 0 0 = true ∧
    (State.reset.vf 0).remote = false ∧ (State.reset.remotePages 3 0 0 [.read] 0x20000 3).1 = none := by decide +kernel

/-- Core 0 with an instruction at the PC. -/
def fetching (w : Nat) : State := { machine 0 (running 0) with mem := Memory.reset.place 4 w }

theorem witness_StepRunsDecoded :
    (∀ w ∈ [0x000E028D, 0x2000], (fetching w).agenda = [] ∧ (fetching w).nearCur = none ∧ (fetching w).me.act = some placedAct ∧
      (fetching w).me.wait = none ∧ (fetching w).me.icache = [] ∧ (fetching w).me.pc = w64 placedAt ∧
      (fetching w).idles (fetching w).cur = false ∧ (fetching w).preempts (fetching w).cur = false ∧ (fetching w).mem.upsets = [] ∧
      tlbFind (fetching w).me.tlb (fetching w).me.asid placedAt = some ⟨0, 0, 2 ^ 38, 0, 0, 0, true, true, true, true⟩ ∧
      tlbFind (fetching w).me.tlb (fetching w).me.asid (placedAt + 2) = some ⟨0, 0, 2 ^ 38, 0, 0, 0, true, true, true, true⟩ ∧
      mappable placedAt = true ∧ mappable (placedAt + 2) = true ∧ placedAt % 2 = 0 ∧ placedAt + 2 < 2 ^ 48 ∧
      (fetching w).mem.viewNat (.core 0) placedAt 4 = w) ∧
    decode32 0x000E028D = .ok (.ori 5 0 7) := by decide +kernel

theorem witness_StepRunsDecoded_near :
    let w : BitVec 32 := BitVec.ofNat 32 (encode (.nearImmediateMove 0 0 8 5))
    let s := { nearTest fun x => { x with image := { x.image with code := [w] }, index := 0 } with agenda := [] }
    s.nearCur = some (0, 0) ∧ s.nearTask 0 0 = some (0, placedEntry) ∧
    (s.near 0 0).image.code[(s.near 0 0).index]? = some w ∧
    decodeNear w.toNat = .ok (.nearImmediateMove 0 0 8 5) := by decide +kernel

theorem witness_StepRunsDecoded_move :
    { State.reset with agenda := [.event (.nearTake 0 0)] }.agenda = .event (.nearTake 0 0) :: [] ∧
    Instr.isTurn (.nearTake 0 0) = true := by decide +kernel

/-- A well-formed instruction of each kind. -/
theorem witness_EncodeDecodeRoundTrip :
    (Instr.ori 5 0 7).wf = true ∧ (Instr.ori 5 0 7).kind = .core32 ∧ (Instr.cHend).wf = true ∧ (Instr.cHend).kind = .core16 ∧
    (Instr.nearImmediateMove 0 0 8 5).wf = true ∧ (Instr.nearImmediateMove 0 0 8 5).kind = .near := by decide +kernel

theorem witness_DecodedIsWellFormed :
    decode32 0x000E028D = .ok (.ori 5 0 7) ∧ decode16 (encode .cHend) = .ok .cHend ∧
    decodeNear (encode (.nearImmediateMove 0 0 8 5)) = .ok (.nearImmediateMove 0 0 8 5) := by decide +kernel

theorem witness_CanonicalMemoryKept :
    (fetching 0x000E028D).mem.wf = true ∧ ∃ t, step (fetching 0x000E028D) = .next t := ⟨by decide +kernel, _, rfl⟩

end Sys2Proof.Tests
end

section
namespace Sys2Proof.Machine

/-! ## The dispatch of a level whose turn an unlisted virtual function holds -/

/-- The READY head of graph n waits at priority 3: a NULL TCB, in a graph of a job. -/
def readyGraph (job n : Nat) : Graph := ⟨Counts.new false 1, job, 0, [(n, 0)], none, none⟩

/-- Virtual functions 0 and 1 each have a graph with a READY head; the table lists virtual function 1 alone, while every turn is held
by 0, with a grant left. -/
def unlistedHolder : State :=
  { State.reset with
    vfs := [(1, Vf.reset)]
    jobs := [(0, ⟨Counts.new false 1, 0, 0, none⟩), (1, ⟨Counts.new false 1, 1, 0, none⟩)]
    graphs := [(0, readyGraph 0 0), (1, readyGraph 1 1)]
    turns := Vector.replicate 4 ⟨some 0, 1⟩ }

/-- What the cycle places from, once idle holders have passed their turns. -/
def unlistedHolder.served : State := [3, 2, 1, 0].foldl State.passTurn unlistedHolder.counted

/-- The holder of the turn is served first, though the table does not list it; the listed virtual function comes after it. -/
theorem unlistedHolder_dispatch : ∃ t : State, exec .orreryDispatchCycle unlistedHolder = .next t ∧
    t.placements = [⟨.tcb 0, 0⟩, ⟨.tcb 1, 0⟩] := ⟨_, rfl, by decide +kernel⟩

/-- The listed virtual function can place its own head, at priority 3. -/
theorem unlistedHolder_listed : unlistedHolder.served.placeable 1 3 = some (.tcb 1, 0) := by decide +kernel

/-- At no level can it place the head that is placed first. -/
theorem unlistedHolder_first : ∀ p < 4, unlistedHolder.served.placeable 1 p ≠ some (.tcb 0, 0) := by decide +kernel

/-- Refutes O48: of the fifteen clauses the one about the dispatch cycle fails where a virtual function that has no entry in the table
holds the turn of the level that is served. `Turn.grant` gives the turn to its holder without asking whether the ring lists it, so the
first item placed, in `unlistedHolder` the head of graph 0, is one that no listed virtual function can place; the clause says that
it is an item of a listed one. (No step gives an unlisted virtual function a turn; the statement ranges over every state.) -/
theorem not_orrerySteps : ¬ Obligations.OrrerySteps := by
  intro h
  obtain ⟨-, -, -, -, -, -, -, -, hcycle, -⟩ := h unlistedHolder
  obtain ⟨hplaces, -⟩ := hcycle (by decide)
  have hlisted : ∃ v ∈ unlistedHolder.vfs, ∃ p < 4, unlistedHolder.served.placeable v.1 p ≠ none :=
    ⟨(1, Vf.reset), List.mem_singleton_self _, 3, by decide, by simp [unlistedHolder_listed]⟩
  obtain ⟨t, x, l, ht, hx, -, -, v, hv, p, hp, hitem, -⟩ := hplaces hlisted
  obtain ⟨u, hu, hfirst⟩ := unlistedHolder_dispatch
  obtain rfl : u = t := Host.Outcome.next.inj (hu.symm.trans ht)
  obtain rfl : x = ⟨.tcb 0, 0⟩ := (List.cons.inj (hx.symm.trans hfirst)).1
  obtain rfl : v = (1, Vf.reset) := List.mem_singleton.1 hv
  exact unlistedHolder_first p hp hitem

end Sys2Proof.Machine
end

section
/-! SUPPORT. What completing instances, walks and the clock leave alone, for the steps of homes and messages. -/
namespace Sys2Proof.Machine

/-! ## Tables and folds -/

/-- What one step of a fold leaves alone, the fold leaves alone. -/
theorem foldl_keeps {σ α β : Type} (F : σ → β) {f : σ → α → σ} (hf : ∀ s a, F (f s a) = F s) (l : List α) (s : σ) :
    F (l.foldl f s) = F s := by
  induction l generalizing s with
  | nil => rfl
  | cons a l ih => exact (ih _).trans (hf s a)

/-- A table whose entries are all rewritten, each under its number. -/
theorem mget_map_entries {α : Type} (m : Map α) (f : α → α) (i : Nat) :
    mget (m.map fun x => (x.1, f x.2)) i = (mget m i).map f := by
  induction m with
  | nil => rfl
  | cons p rest ih =>
    obtain ⟨k, v⟩ := p
    simp only [List.map_cons, mget]
    split
    · rfl
    · split
      · rfl
      · exact ih

/-- An entry that has been changed is read changed. -/
theorem mget_mmod_same {α : Type} (m : Map α) (i : Nat) (f : α → α) : mget (mmod m i f) i = (mget m i).map f := by
  unfold mmod
  cases h : mget m i with
  | none => simp [h]
  | some x => simp

/-- A home that has been set is the one that is read. -/
@[simp] theorem State.home_setHome_same (s : State) (h : Nat) (x : Home) : (s.setHome h x).home h = x := by
  simp [State.home, State.setHome]

/-- Every home of the table rewritten: an unlisted one reads as after reset, which the change leaves alone. -/
theorem State.home_map (s : State) (f : Home → Home) (hf : f Home.reset = Home.reset) (h : Nat) :
    State.home { s with homes := s.homes.map fun x => (x.1, f x.2) } h = f (s.home h) := by
  simp only [State.home, mget_map_entries]
  cases mget s.homes h with
  | none => exact hf.symm
  | some x => rfl

/-! ## Counting an event -/

/-- An event counted changes the Station Controller's record alone. -/
theorem State.count_eq (s : State) (c : Counter) (n : Nat) : ∃ sc, s.count c n = { s with sc := sc } := by
  unfold State.count
  split
  · exact ⟨s.sc, rfl⟩
  · exact ⟨_, rfl⟩

/-! ## The end of a TCB's body (R30) -/

/-- State t is state s but for its launches, graphs and TCBs. -/
def Levelled (s t : State) : Prop := ∃ l g m, t = { s with launches := l, graphs := g, tcbs := m }

/-- Nothing has changed. -/
theorem Levelled.refl (s : State) : Levelled s s := ⟨_, _, _, rfl⟩

/-- One after the other. -/
theorem Levelled.trans {s t u : State} (h : Levelled s t) (g : Levelled t u) : Levelled s u := by
  obtain ⟨_, _, _, rfl⟩ := h
  obtain ⟨_, _, _, rfl⟩ := g
  exact ⟨_, _, _, rfl⟩

/-- A list of them. -/
theorem Levelled.foldl {α : Type} {f : State → α → State} (hf : ∀ s a, Levelled s (f s a)) (l : List α) (s : State) :
    Levelled s (l.foldl f s) := by
  induction l generalizing s with
  | nil => exact .refl s
  | cons a l ih => exact (hf s a).trans (ih _)

/-- The counter of one successor decreased. -/
theorem levelled_release1 (ids : List Nat) (s : State) (t : Nat) : Levelled s (State.release1 ids s t) := by
  unfold State.release1
  simp only
  split
  · split <;> exact ⟨_, _, _, rfl⟩
  · exact .refl s

/-- A TCB has ended. -/
theorem levelled_tcbEnd (s : State) (t : Nat) (e : End) (ids : List Nat) : Levelled s (s.tcbEnd t e ids) := by
  unfold State.tcbEnd
  cases e with
  | faulted => exact ⟨_, _, _, rfl⟩
  | cancelled => exact ⟨_, _, _, rfl⟩
  | done =>
    simp only [if_true]
    exact Levelled.trans ⟨_, _, _, rfl⟩ (Levelled.foldl (levelled_release1 ids) _ _)

/-! ## The end of instances (R23, R25, R73) -/

/-- The homes stay. -/
theorem Levelled.homes {s t : State} (h : Levelled s t) : t.homes = s.homes := by
  obtain ⟨_, _, _, rfl⟩ := h
  rfl

/-- What is on its way stays. -/
theorem Levelled.flights {s t : State} (h : Levelled s t) : t.flights = s.flights := by
  obtain ⟨_, _, _, rfl⟩ := h
  rfl

/-- A launch's message at its completion joins the traffic last; no home hears of it. -/
theorem State.notify_keeps (s : State) (l : Nat) (x : Launch) :
    (s.notify l x).homes = s.homes ∧ s.flights <+: (s.notify l x).flights := by
  unfold State.notify
  split
  · exact ⟨rfl, List.prefix_append _ _⟩
  · obtain ⟨sc, h⟩ := s.count_eq .notifyDiscarded (if x.desc.notify then 1 else 0)
    rw [h]
    exact ⟨rfl, List.prefix_refl _⟩

/-- Of the homes a completed launch changes the leases alone, and what it sends joins the traffic last. -/
theorem State.endLaunch_keeps (s : State) (l : Nat) (x : Launch) :
    (s.endLaunch l x).homes = (s.endLeases l).homes ∧ s.flights <+: (s.endLaunch l x).flights := by
  obtain ⟨hh, hf⟩ := (({ s with launches := mdel s.launches l } : State).endLeases l).notify_keeps l x
  unfold State.endLaunch
  simp only
  generalize (({ s with launches := mdel s.launches l } : State).endLeases l).notify l x = u at hh hf
  replace hh : u.homes = (s.endLeases l).homes := hh
  replace hf : s.flights <+: u.flights := hf
  have hjobs : ∀ v : State, v = (if x.counts.outcome = .faulted then
      { u with jobs := mmod u.jobs x.desc.job fun j => { j with firstFault := j.firstFault.orElse fun _ => some l } }
      else u) → v.homes = u.homes ∧ v.flights = u.flights := by
    rintro v rfl
    split <;> exact ⟨rfl, rfl⟩
  generalize (if x.counts.outcome = .faulted then
    { u with jobs := mmod u.jobs x.desc.job fun j => { j with firstFault := j.firstFault.orElse fun _ => some l } }
    else u) = v at hjobs
  obtain ⟨hv, hw⟩ := hjobs v rfl
  rw [← hv] at hh
  rw [← hw] at hf
  split
  · have h := levelled_tcbEnd v ‹_› x.counts.outcome x.finished
    rw [h.homes, h.flights]
    exact ⟨hh, hf⟩
  · split <;> exact ⟨hh, hf⟩

/-- What relates two states when one of its kind completes relates them once all have completed. -/
theorem State.settle_of_ends {R : State → State → Prop} (hrefl : ∀ s, R s s) (htrans : ∀ {s t u}, R s t → R t u → R s u)
    (hl : ∀ s l x, R s (State.endLaunch s l x)) (hg : ∀ s n g, R s (State.endGraph s n g))
    (hp : ∀ s n p, R s (State.endPhase s n p)) (hj : ∀ s n j, R s (State.endJob s n j)) (s : State) : R s s.settle := by
  have hone : ∀ {s t : State}, s.settle1 = some t → R s t := by
    intro s t h
    unfold State.settle1 at h
    split at h
    · cases h; exact hl _ _ _
    · split at h
      · cases h; exact hg _ _ _
      · split at h
        · cases h; exact hp _ _ _
        · obtain ⟨j, -, rfl⟩ := Option.map_eq_some_iff.1 h
          exact hj _ _ _
  have hmany : ∀ n s, R s (State.settleN n s) := by
    intro n
    induction n with
    | zero => exact hrefl
    | succ n ih =>
      intro s
      unfold State.settleN
      split
      · exact htrans (hone ‹_›) (ih _)
      · exact hrefl s
  exact hmany _ s

/-- The leases of a launch end: a home with no lease stays as it is. -/
theorem State.home_endLeases (s : State) (l h : Nat) :
    (s.endLeases l).home h = if (s.home h).lease.any (·.1 == l) then (s.home h).endLease else s.home h :=
  s.home_map (fun x : Home => if x.lease.any (fun y : Nat × Nat => y.1 == l) then x.endLease else x) rfl h

/-- Where instances complete, messages join the traffic last. -/
theorem State.settle_flights (s : State) : s.flights <+: s.settle.flights :=
  State.settle_of_ends (R := fun s t => s.flights <+: t.flights) (fun _ => List.prefix_refl _) List.IsPrefix.trans
    (fun s l x => (s.endLaunch_keeps l x).2) (fun _ _ _ => List.prefix_refl _) (fun _ _ _ => List.prefix_refl _)
    (fun _ _ _ => List.prefix_refl _) s

/-- Where instances complete, a home with no lease stays as it is. -/
theorem State.settle_home (s : State) (h : Nat) (hl : (s.home h).lease = none) : s.settle.home h = s.home h := by
  refine State.settle_of_ends (R := fun s t => (s.home h).lease = none → t.home h = s.home h) (fun _ _ => rfl)
    (fun hst htu hs => (htu (by rw [hst hs, hs])).trans (hst hs)) ?_ (fun _ _ _ _ => rfl) (fun _ _ _ _ => rfl)
    (fun _ _ _ _ => rfl) s hl
  intro s l x hs
  have he : (s.endLaunch l x).home h = (s.endLeases l).home h := by
    unfold State.home
    rw [(s.endLaunch_keeps l x).1]
  simp [he, s.home_endLeases, hs]

end Sys2Proof.Machine
end

section
/-! SUPPORT. What a walk leaves alone, and what its result depends on. -/
namespace Sys2Proof.Machine

/-! ## What a walk changes -/

/-- State t is state s but for memory and what the Station Controller has counted. -/
def Sensed (s t : State) : Prop := ∃ m sc, t = { s with mem := m, sc := sc }

/-- Nothing has changed. -/
theorem Sensed.refl (s : State) : Sensed s s := ⟨_, _, rfl⟩

/-- One after the other. -/
theorem Sensed.trans {s t u : State} (h : Sensed s t) (g : Sensed t u) : Sensed s u := by
  obtain ⟨_, _, rfl⟩ := h
  obtain ⟨_, _, rfl⟩ := g
  exact ⟨_, _, rfl⟩

/-- A list of them. -/
theorem Sensed.foldl {α : Type} {f : State → α → State} (hf : ∀ s a, Sensed s (f s a)) (l : List α) (s : State) :
    Sensed s (l.foldl f s) := by
  induction l generalizing s with
  | nil => exact .refl s
  | cons a l ih => exact (hf s a).trans (ih _)

/-- The homes stay. -/
theorem Sensed.homes {s t : State} (h : Sensed s t) : t.homes = s.homes := by
  obtain ⟨_, _, rfl⟩ := h
  rfl

/-- An event counted. -/
theorem sensed_count (s : State) (c : Counter) (n : Nat) : Sensed s (s.count c n) := by
  obtain ⟨sc, h⟩ := s.count_eq c n
  exact ⟨s.mem, sc, h⟩

/-- A word marked. -/
theorem sensed_markWord (s : State) (w : Nat) : Sensed s (s.markWord w) := by
  unfold State.markWord
  split
  · exact .refl s
  · exact (Sensed.trans ⟨_, s.sc, rfl⟩ (sensed_count _ _ _)).trans ⟨_, _, rfl⟩

/-- A word's code checked. -/
theorem sensed_checkWord (s : State) (w : Nat) : Sensed s (s.checkWord w) := by
  unfold State.checkWord
  split
  · exact .refl s
  · simp only
    split
    · exact Sensed.trans ⟨_, s.sc, rfl⟩ (sensed_count _ _ _)
    · exact Sensed.trans ⟨_, s.sc, rfl⟩ (sensed_markWord _ _)

/-- The codes of a span checked. -/
theorem sensed_checked (s : State) (pa n : Nat) : Sensed s (s.checked pa n) := by
  unfold State.checked
  split
  · exact .refl s
  · exact .foldl sensed_checkWord _ s

/-- The codes checked of a walk's entries from a table on. -/
theorem sensed_checkedFrom (v : Viewer) (va : Nat) (l : List (Nat × Nat × Bool)) (table : Nat) (s : State) :
    Sensed s (State.checkedFrom v va l table s) := by
  induction l generalizing table s with
  | nil => exact .refl s
  | cons x rest ih =>
    unfold State.checkedFrom
    simp only
    split
    · exact sensed_checked s _ _
    · exact (sensed_checked s _ _).trans (ih _ _)

/-- The codes checked of a whole walk. -/
theorem sensed_checkedWalk (s : State) (v : Viewer) (vf asid va : Nat) : Sensed s (s.checkedWalk v vf asid va) := by
  unfold State.checkedWalk
  split
  · exact .refl s
  · exact (sensed_checked s _ _).trans (sensed_checkedFrom _ _ _ _ _)

/-- One walk. -/
theorem sensed_walkOnce (s : State) (v : Viewer) (vf asid va : Nat) (r : List Access) :
    Sensed s (s.walkOnce v vf asid va r).2 := by
  unfold State.walkOnce
  split
  · exact .refl s
  · split
    · exact .refl s
    · simp only
      split
      · exact ⟨_, _, rfl⟩
      · exact .refl s

/-- Walks until one holds. -/
theorem sensed_walks (v : Viewer) (vf asid va : Nat) (r : List Access) (n : Nat) (s : State) :
    Sensed s (State.walks v vf asid va r n s).2 := by
  induction n generalizing s with
  | zero => exact (sensed_checkedWalk s v vf asid va).trans (sensed_walkOnce _ _ _ _ _ _)
  | succ n ih =>
    unfold State.walks
    simp only
    split
    · exact (sensed_checkedWalk s v vf asid va).trans (sensed_walkOnce _ _ _ _ _ _)
    · exact ((sensed_checkedWalk s v vf asid va).trans ⟨_, _, rfl⟩).trans (ih _)

/-- A translation by a walk changes memory and the Station Controller's record alone. -/
theorem sensed_walkTo (s : State) (v : Viewer) (vf asid va : Nat) (r : List Access) : Sensed s (s.walkTo v vf asid va r).2 := by
  unfold State.walkTo
  split
  · exact .refl s
  · exact sensed_walks _ _ _ _ _ _ _

/-- The walk of an anchor. -/
theorem sensed_anchorWalk (q : Enqueuer) (s : State) (raw : Nat) : Sensed s (State.anchorWalk q s raw) := by
  unfold State.anchorWalk
  simp only
  split
  · split
    · exact (sensed_walkTo _ _ _ _ _ _).trans (sensed_walkTo _ _ _ _ _ _)
    · exact sensed_walkTo _ _ _ _ _ _
  · exact sensed_walkTo _ _ _ _ _ _

/-! ## What a walk's result depends on -/

/-- Two states agree in what walks read: memory and the virtual functions' context tables. -/
def SameWalks (s t : State) : Prop := s.mem = t.mem ∧ s.vfs = t.vfs

/-- Walks that agree, agree after a list of operations that keep them so. -/
theorem SameWalks.foldl {α : Type} {f : State → α → State} (hf : ∀ {s t} a, SameWalks s t → SameWalks (f s a) (f t a))
    (l : List α) {s t : State} (h : SameWalks s t) : SameWalks (l.foldl f s) (l.foldl f t) := by
  induction l generalizing s t with
  | nil => exact h
  | cons a l ih => exact ih (hf a h)

/-- An event counted changes neither memory nor the virtual functions. -/
theorem State.count_keeps (s : State) (c : Counter) (n : Nat) : (s.count c n).mem = s.mem ∧ (s.count c n).vfs = s.vfs := by
  obtain ⟨sc, h⟩ := s.count_eq c n
  simp [h]

/-- A word marked in both. -/
theorem SameWalks.markWord {s t : State} (h : SameWalks s t) (w : Nat) : SameWalks (s.markWord w) (t.markWord w) := by
  obtain ⟨hm, hv⟩ := h
  unfold State.markWord State.note
  rw [← hm]
  split
  · exact ⟨hm, hv⟩
  · simp [SameWalks, State.count_keeps, State.setMem, hv]

/-- A word's code checked in both. -/
theorem SameWalks.checkWord {s t : State} (w : Nat) (h : SameWalks s t) : SameWalks (s.checkWord w) (t.checkWord w) := by
  obtain ⟨hm, hv⟩ := h
  unfold State.checkWord
  rw [← hm]
  split
  · exact ⟨hm, hv⟩
  · simp only
    split
    · simp [SameWalks, State.count_keeps, State.setMem, hv]
    · refine SameWalks.markWord ?_ w
      exact ⟨rfl, hv⟩

/-- The codes of a span checked in both. -/
theorem SameWalks.checked {s t : State} (h : SameWalks s t) (pa n : Nat) : SameWalks (s.checked pa n) (t.checked pa n) := by
  unfold State.checked
  rw [← h.1]
  split
  · exact h
  · exact h.foldl SameWalks.checkWord _

/-- The codes checked in both of a walk's entries from a table on. -/
theorem SameWalks.checkedFrom {v : Viewer} {va : Nat} (l : List (Nat × Nat × Bool)) (table : Nat) {s t : State}
    (h : SameWalks s t) : SameWalks (State.checkedFrom v va l table s) (State.checkedFrom v va l table t) := by
  induction l generalizing table s t with
  | nil => exact h
  | cons x rest ih =>
    have hc := h.checked (table + 8 * bits va x.1 x.2.1) 8
    unfold State.checkedFrom
    simp only
    rw [← hc.1]
    split
    · exact hc
    · exact ih _ hc

/-- The codes checked in both of a whole walk. -/
theorem SameWalks.checkedWalk {s t : State} (h : SameWalks s t) (v : Viewer) (vf asid va : Nat) :
    SameWalks (s.checkedWalk v vf asid va) (t.checkedWalk v vf asid va) := by
  unfold State.checkedWalk State.vf
  rw [← h.1, ← h.2]
  split
  · exact h
  · simp only
    rw [← (h.checked _ 16).1]
    exact (h.checked _ 16).checkedFrom _ _

/-- One walk has the same result. -/
theorem SameWalks.walkOnce {s t : State} (h : SameWalks s t) (v : Viewer) (vf asid va : Nat) (r : List Access) :
    (s.walkOnce v vf asid va r).1 = (t.walkOnce v vf asid va r).1 := by
  unfold State.walkOnce State.vf
  rw [← h.1, ← h.2]
  split
  · rfl
  · split <;> rfl

/-- The compare-and-swap of a walk fails in both at the same PTE. -/
theorem SameWalks.walkStale {s t : State} (h : SameWalks s t) (v : Viewer) (vf asid va : Nat) (r : List Access) :
    s.walkStale v vf asid va r = t.walkStale v vf asid va r := by
  unfold State.walkStale State.vf
  rw [← h.1, ← h.2]

/-- Walks until one holds have the same result. -/
theorem SameWalks.walks {v : Viewer} {vf asid va : Nat} {r : List Access} (n : Nat) {s t : State} (h : SameWalks s t) :
    (State.walks v vf asid va r n s).1 = (State.walks v vf asid va r n t).1 := by
  have hc := fun {s t : State} (h : SameWalks s t) => h.checkedWalk v vf asid va
  induction n generalizing s t with
  | zero => exact (hc h).walkOnce _ _ _ _ _
  | succ n ih =>
    unfold State.walks
    simp only
    rw [← (hc h).walkStale]
    split
    · exact (hc h).walkOnce _ _ _ _ _
    · exact ih ⟨by rw [(hc h).1], (hc h).2⟩

/-- The result of a walk depends on memory and the context tables alone. -/
theorem SameWalks.walkTo {s t : State} (h : SameWalks s t) (v : Viewer) (vf asid va : Nat) (r : List Access) :
    (s.walkTo v vf asid va r).1 = (t.walkTo v vf asid va r).1 := by
  unfold State.walkTo
  rw [← h.1]
  split
  · rfl
  · exact h.walks _

/-- So does an anchor's place. -/
theorem SameWalks.anchorLeaf {s t : State} (h : SameWalks s t) (q : Enqueuer) (va : Nat) :
    s.anchorLeaf q va = t.anchorLeaf q va := by
  unfold State.anchorLeaf
  rw [h.walkTo]

end Sys2Proof.Machine
end

section
/-! SUPPORT. What a home does with its queues, its leases and its refreshes (R63 to R65, R73 to R75, R78 to R81). -/
namespace Sys2Proof.Machine

/-- A property of a state after counting from the same of the state before: what counting changes aside. -/
theorem Booked.get {α : Type} (F : State → α) {s t : State} (h : Booked s t) : F { t with
    launches := s.launches
    graphs := s.graphs
    phases := s.phases
    jobs := s.jobs
    tcbs := s.tcbs
    offers := s.offers
    homes := s.homes
    reports := s.reports
    flights := s.flights
    sc := { t.sc with counters := s.sc.counters } } = F s := congrArg F h.1

/-! ## Numbers and their bits -/

/-- A bit of a word, by its number. -/
theorem bit_toNat {n : Nat} (w : BitVec n) (i : Nat) : bit w.toNat i = w.getLsbD i := by
  rw [BitVec.getLsbD, Nat.testBit_eq_decide_div_mod_eq]
  simp [bit, bits, Bool.beq_eq_decide_eq]

/-- The code of a refusal, as a word. -/
theorem min?_of_least {l : List Nat} {c : Nat} (hc : c ∈ l) (hl : ∀ e ∈ l, c ≤ e) : l.min? = some c :=
  List.min?_eq_some_iff.2 ⟨hc, hl⟩

/-! ## Queues (R64, R65) -/

/-- What the offer rule leaves of a queue: how many entries it has, the next sequence number, the threshold and the priority. -/
def Queue.shape (q : Queue) : Nat × Nat × Nat × Nat := (q.entries.length, q.counter, q.thresh, q.dpri)

/-- A queue that has been changed in its home. -/
theorem Home.queue_modQueue (x : Home) (f : Queue → Queue) {i : Nat} (hi : i < 8) :
    (x.modQueue i f).queue i = f (x.queue i) := by
  simp [Home.modQueue, Home.queue, Fin.ofNat, Nat.mod_eq_of_lt hi]

/-- An entry changed leaves the queue's shape. -/
theorem Queue.shape_modEntry (q : Queue) (seq : Nat) (f : Entry → Entry) : (q.modEntry seq f).shape = q.shape := by
  simp [Queue.modEntry, Queue.shape]

/-- Entries offered above the threshold leave the queue's shape. -/
theorem Queue.shape_offerOver (n : Nat) (q : Queue) : (Queue.offerOver n q).shape = q.shape := by
  induction n generalizing q with
  | zero => rfl
  | succ n ih =>
    unfold Queue.offerOver
    split
    · split
      · rw [ih, shape_modEntry]
      · rfl
    · rfl

/-- A queue's offers leave its shape. -/
theorem Queue.shape_offer (q : Queue) : q.offer.shape = q.shape := by
  have hfar : q.offerFar.shape = q.shape := by simp [Queue.offerFar, Queue.shape]
  unfold Queue.offer
  simp only
  split
  · exact hfar
  · rw [shape_offerOver, hfar]

/-- A task passed to the Orrery leaves the shape of a home's queue. -/
theorem State.shape_passTask {h qi : Nat} (hq : qi < 8) (s : State) (e : Entry) :
    (((State.passTask h qi s e).home h).queue qi).shape = ((s.home h).queue qi).shape := by
  unfold State.passTask
  simp only
  change (((State.setHome s h _).home h).queue qi).shape = _
  rw [State.home_setHome_same, Home.queue_modQueue _ _ hq, Queue.shape_modEntry]

/-- The offer rule and the passing of tasks leave a queue's shape. -/
theorem State.shape_offerQueue {h qi : Nat} (hq : qi < 8) (s : State) :
    (((s.offerQueue h qi).home h).queue qi).shape = ((s.home h).queue qi).shape := by
  unfold State.offerQueue State.passTasks
  rw [foldl_keeps (fun t : State => ((t.home h).queue qi).shape) (State.shape_passTask hq), State.home_setHome_same,
    Home.queue_modQueue _ _ hq, Queue.shape_offer]

/-! ## Entries made (R64, R78) -/

/-- An entry made is counted where its target counts it. -/
theorem booked_addEntry (q : Enqueuer) (h qi : Nat) (ids : List Nat) (s : State) (raw : Nat) :
    Booked s (State.addEntry q h qi ids s raw) := by
  unfold State.addEntry
  simp only
  split
  · exact .refl s
  · split <;> exact ⟨rfl, fun _ hf => hf⟩

/-- Counting changes nothing that walks read. -/
theorem Booked.sameWalks {s t : State} (h : Booked s t) : SameWalks t s := ⟨h.get State.mem, h.get State.vfs⟩

/-- An entry put last in a queue lengthens it and moves its counter on. -/
theorem State.queue_of_entered {s t : State} {h qi : Nat} {e : Entry} (hq : qi < 8)
    (ht : t.homes = (s.setHome h ((s.home h).modQueue qi fun w => { w with
      entries := w.entries ++ [e]
      counter := (w.counter + 1) % 2 ^ 32 })).homes) :
    ((t.home h).queue qi).entries.length = ((s.home h).queue qi).entries.length + 1 ∧
      ((t.home h).queue qi).counter = (((s.home h).queue qi).counter + 1) % 2 ^ 32 := by
  have hhome : t.home h = (s.setHome h _).home h := congrArg (fun m => (mget m h).getD Home.reset) ht
  rw [hhome, State.home_setHome_same, Home.queue_modQueue _ _ hq]
  exact ⟨by simp, rfl⟩

/-- An entry is made where the anchor is in DRAM. -/
theorem State.queue_addEntry {q : Enqueuer} {h qi raw : Nat} (ids : List Nat) {s : State} (ht : q.tcb = none) (hq : qi < 8)
    (ha : s.anchorLeaf q (parseTask raw).anchor ≠ none) :
    let x := (s.home h).queue qi
    let y := ((State.addEntry q h qi ids s raw).home h).queue qi
    y.entries.length = x.entries.length + 1 ∧ y.counter = (x.counter + 1) % 2 ^ 32 := by
  obtain ⟨r, hr⟩ := Option.ne_none_iff_exists'.1 ha
  have hd : q.target (parseTask raw) = parseTask raw := by simp [Enqueuer.target, ht]
  unfold State.addEntry
  simp only [hd, hr]
  split <;> exact State.queue_of_entered hq rfl

/-- Entries made one after the other lengthen their queue and move its counter on. -/
theorem State.queue_addEntries {q : Enqueuer} {h qi : Nat} (ids : List Nat) (ht : q.tcb = none) (hq : qi < 8)
    (raws : List Nat) (s : State) (ha : ∀ raw ∈ raws, s.anchorLeaf q (parseTask raw).anchor ≠ none) :
    let x := (s.home h).queue qi
    let y := ((raws.foldl (State.addEntry q h qi ids) s).home h).queue qi
    y.entries.length = x.entries.length + raws.length ∧
      (raws ≠ [] → y.counter = (x.counter + raws.length) % 2 ^ 32) := by
  induction raws generalizing s with
  | nil => exact ⟨rfl, fun h => absurd rfl h⟩
  | cons raw rest ih =>
    obtain ⟨hlen1, hcount1⟩ := State.queue_addEntry (h := h) ids ht hq (ha raw (List.mem_cons_self ..))
    have hsame := (booked_addEntry q h qi ids s raw).sameWalks
    obtain ⟨hlen, hcount⟩ := ih (State.addEntry q h qi ids s raw) fun r hr => by
      rw [hsame.anchorLeaf]
      exact ha r (List.mem_cons_of_mem _ hr)
    refine ⟨by rw [List.foldl_cons, hlen, hlen1, List.length_cons]; omega, fun _ => ?_⟩
    rcases rest with _ | ⟨r, rest⟩
    · exact hcount1
    · rw [List.foldl_cons, hcount (List.cons_ne_nil _ _), hcount1, List.length_cons (a := raw)]
      omega

/-! ## A batch at its home (R78) -/

/-- The words of a batch's descriptors. -/
def batchWords (descs : List (Option (BitVec 512))) : List Nat := descs.map fun d => (d.getD 0).toNat

/-- The state once a batch's anchors are translated. -/
def State.batchWalks (s : State) (q : Enqueuer) (raws : List Nat) : State := raws.foldl (State.anchorWalk q) s

/-- The codes that apply to a batch whose anchors have been translated. -/
def State.enqueueCodes (s : State) (q : Enqueuer) (raws : List Nat) : List Nat :=
  raws.flatMap (s.taskCodes q) ++ (if raws.any (s.overfills q raws) then [5] else []) ++ s.batchCodes q raws

/-- The translation of a batch's anchors changes memory and the Station Controller's record alone. -/
theorem sensed_batchWalks (s : State) (q : Enqueuer) (raws : List Nat) : Sensed s (s.batchWalks q raws) :=
  .foldl (sensed_anchorWalk q) raws s

/-- A batch with a poisoned descriptor draws code 9. -/
theorem State.enqueueAt_poisoned {s : State} {q : Enqueuer} {descs : List (Option (BitVec 512))} {ids : List Nat}
    (h : none ∈ descs) : s.enqueueAt q descs ids = (refusal 9, s) := by
  unfold State.enqueueAt
  rw [if_pos (List.any_eq_true.2 ⟨none, h, rfl⟩)]

/-- A batch without one draws the least code that applies, or is entered whole. -/
theorem State.enqueueAt_clean {s : State} {q : Enqueuer} {descs : List (Option (BitVec 512))} {ids : List Nat}
    (h : none ∉ descs) : s.enqueueAt q descs ids =
      let raws := batchWords descs
      let u := s.batchWalks q raws
      match (u.enqueueCodes q raws).min? with
      | some c => (refusal c, u)
      | none =>
        match raws.head?.bind (u.taskQueue q) with
        | none => (refusal 4, u)
        | some (h, qi) => (w64 (qi * 2 ^ 41 + h * 2 ^ 32 + ((u.home h).queue qi).counter),
            (raws.foldl (State.addEntry q h qi ids) u).offerQueue h qi) := by
  have hn : ¬ descs.any Option.isNone = true := by
    rw [List.any_eq_true]
    rintro ⟨x, hx, hnone⟩
    exact h (Option.isNone_iff_eq_none.1 hnone ▸ hx)
  unfold State.enqueueAt
  rw [if_neg hn]
  rfl

/-- A batch to which codes apply draws the least. -/
theorem State.enqueueAt_refused {s : State} {q : Enqueuer} {descs : List (Option (BitVec 512))} {c : Nat}
    (ids : List Nat) (hn : none ∉ descs)
    (hc : ((s.batchWalks q (batchWords descs)).enqueueCodes q (batchWords descs)).min? = some c) :
    s.enqueueAt q descs ids = (refusal c, s.batchWalks q (batchWords descs)) := by
  rw [State.enqueueAt_clean hn]
  simp only [hc]

/-- A batch to which none applies is entered whole. -/
theorem State.enqueueAt_entered {s : State} {q : Enqueuer} {descs : List (Option (BitVec 512))} {h qi : Nat} (ids : List Nat)
    (hn : none ∉ descs) (hc : (s.batchWalks q (batchWords descs)).enqueueCodes q (batchWords descs) = [])
    (hq : (batchWords descs).head?.bind ((s.batchWalks q (batchWords descs)).taskQueue q) = some (h, qi)) :
    s.enqueueAt q descs ids =
      (w64 (qi * 2 ^ 41 + h * 2 ^ 32 + (((s.batchWalks q (batchWords descs)).home h).queue qi).counter),
        ((batchWords descs).foldl (State.addEntry q h qi ids) (s.batchWalks q (batchWords descs))).offerQueue h qi) := by
  rw [State.enqueueAt_clean hn]
  simp only [hc, List.min?_nil, hq]

/-- A batch at its home leaves the requests and the late values on their way alone. -/
theorem State.enqueueAt_keeps (s : State) (q : Enqueuer) (descs : List (Option (BitVec 512))) (ids : List Nat) :
    (s.enqueueAt q descs ids).2.hreqs = s.hreqs ∧ (s.enqueueAt q descs ids).2.arrivals = s.arrivals := by
  by_cases hn : none ∈ descs
  · rw [State.enqueueAt_poisoned hn]
    exact ⟨rfl, rfl⟩
  · have hw : (s.batchWalks q (batchWords descs)).hreqs = s.hreqs ∧
        (s.batchWalks q (batchWords descs)).arrivals = s.arrivals := by
      obtain ⟨m, sc, hw⟩ := sensed_batchWalks s q (batchWords descs)
      rw [hw]
      exact ⟨rfl, rfl⟩
    rw [State.enqueueAt_clean hn]
    simp only
    generalize s.batchWalks q (batchWords descs) = u at hw
    split
    · exact hw
    · split
      · exact hw
      · rename_i h qi _
        have hb : Booked u (((batchWords descs).foldl (State.addEntry q h qi ids) u).offerQueue h qi) :=
          (Booked.foldl _ (booked_addEntry q h qi ids) _ _).trans (booked_offerQueue _ h qi)
        exact ⟨(hb.get State.hreqs).trans hw.1, (hb.get State.arrivals).trans hw.2⟩

/-- Where no code applies, every anchor of a batch is in DRAM. -/
theorem State.anchorLeaf_of_no_code {s : State} {q : Enqueuer} {raws : List Nat} (h : s.enqueueCodes q raws = []) :
    ∀ raw ∈ raws, s.anchorLeaf q (parseTask raw).anchor ≠ none := by
  intro raw hraw hnone
  obtain ⟨⟨htask, -⟩, -⟩ := (List.append_eq_nil_iff.1 h).imp_left List.append_eq_nil_iff.1
  have : (4 : Nat) ∈ raws.flatMap (s.taskCodes q) :=
    List.mem_flatMap.2 ⟨raw, hraw, by simp [State.taskCodes, hnone]⟩
  simp [htask] at this

end Sys2Proof.Machine
end

section
/-! SUPPORT. The steps of a home that take up an enqueue or an AQCF (R63, R64, R73). -/
namespace Sys2Proof.Machine

variable {s : State} {n : Nat}

/-- The state once a home has taken a request up. -/
def State.takeHomeReq (s : State) (n : Nat) : State := { s with hreqs := dropAt s.hreqs n }

/-- The requester's own part of a batch. -/
def Asker.enqueuer (who : Asker) (base top perms : Nat) : Enqueuer :=
  ⟨.core who.core, who.core, who.vf, who.asid, who.job, who.launch, some (base, top), perms, none⟩

/-- The step of an enqueue: its answer, and its launch let go. -/
theorem homeEnqueue_eq {who : Asker} {res : Option SymRef} {descs : List (Option (BitVec 512))} {base top perms : Nat}
    {ids : List Nat} (h : s.hreqs[n]? = some (.enqueue who res descs base top perms ids)) :
    let r := (s.takeHomeReq n).enqueueAt (who.enqueuer base top perms) descs ids
    exec (.homeEnqueue n) s = .next ((r.2.status who.core res r.1).unpin who.launch) := by
  change execHomeEnqueue n s = _
  unfold execHomeEnqueue
  rw [h]
  rfl

/-- An AQCF with reserved bits set is refused. -/
theorem homeQueueConfigure_refused {core h : Nat} {res : Option SymRef} {w : Word} (hq : s.hreqs[n]? = some (.config core res h w))
    (hbad : bits w.toNat 20 43 ≠ 0 ∨ bits w.toNat 12 3 ≠ 0) : exec (.homeQueueConfigure n) s =
      .next ((s.takeHomeReq n).status core res (refusal 1)) := by
  change execHomeQueueConfigure n s = _
  unfold execHomeQueueConfigure
  rw [hq]
  exact if_pos hbad

/-- Any other AQCF sets the queue, where its top bit asks for it, and answers what the queue was. -/
theorem homeQueueConfigure_answered {core h : Nat} {res : Option SymRef} {w : Word}
    (hq : s.hreqs[n]? = some (.config core res h w)) (hbad : ¬ (bits w.toNat 20 43 ≠ 0 ∨ bits w.toNat 12 3 ≠ 0)) :
    let t := s.takeHomeReq n
    let qi := bits w.toNat 15 3
    exec (.homeQueueConfigure n) s = .next (State.status (if bit w.toNat 63 then
      (t.setHome h ((s.home h).modQueue qi fun q => { q with thresh := bits w.toNat 0 12, dpri := bits w.toNat 18 2 })).offerQueue h qi
      else t) core res ((s.home h).queueStatus qi)) := by
  change execHomeQueueConfigure n s = _
  unfold execHomeQueueConfigure
  rw [hq]
  exact if_neg hbad

end Sys2Proof.Machine
end

section
/-! SUPPORT. What answers, the clock and repaid refreshes do to a home (R73, R78 to R80). -/
namespace Sys2Proof.Machine

/-- Where instances complete, nothing is taken of the leases that have ended already. -/
theorem State.unpin_home (s : State) (l h : Nat) (hl : (s.home h).lease = none) : (s.unpin l).home h = s.home h :=
  State.settle_home { s with launches := mmod s.launches l fun x => { x with pins := x.pins - 1 } } h hl

/-- The answer to an NFREE leaves a home with no lease as it is. -/
theorem State.answerFree_home (i : Nat) (s : State) (f : FreeNote) (h : Nat) (hl : (s.home h).lease = none) :
    (State.answerFree i s f).home h = s.home h := by
  obtain ⟨core, res, cls, launch⟩ := f
  have hs : (s.status core res 0).home h = s.home h := by cases res <;> rfl
  unfold State.answerFree State.completion
  simp only
  split
  · split
    · exact ((State.unpin_home _ _ _ (by exact hs ▸ hl)).trans hs)
    · exact ((State.unpin_home _ _ _ (by exact hs ▸ hl)).trans hs)
  · exact hs

/-- The answers to NFREEs leave a home with no lease as it is. -/
theorem State.answerFrees_home (i h : Nat) (l : List FreeNote) (s : State) (hl : (s.home h).lease = none) :
    (l.foldl (State.answerFree i) s).home h = s.home h := by
  induction l generalizing s with
  | nil => rfl
  | cons f l ih =>
    have hf := State.answerFree_home i s f h hl
    rw [List.foldl_cons, ih _ (by rw [hf, hl]), hf]

/-- An event counted leaves the homes alone. -/
theorem State.homes_count (s : State) (c : Counter) (n : Nat) : (s.count c n).homes = s.homes := by
  obtain ⟨sc, h⟩ := s.count_eq c n
  rw [h]

/-- A token's expiry leaves the homes alone. -/
theorem State.homes_expireToken (s : State) : s.expireToken.homes = s.homes := by
  unfold State.expireToken
  split
  · rw [State.homes_count]
  · rfl

/-- A die's report leaves the homes alone. -/
theorem State.homes_reportDie (s : State) (die : Nat) : (s.reportDie die).homes = s.homes := by
  unfold State.reportDie
  split
  · exact foldl_keeps State.homes (f := fun t i => t.reportDome (16 * die + i)) (fun _ _ => rfl) _ s
  · rfl

/-- The loops of the cores leave the homes alone. -/
theorem State.homes_regulate (s : State) : s.regulate.homes = s.homes := by
  have hone (s : State) (k : Nat) : (s.regulate1 k).homes = s.homes := by
    unfold State.regulate1 State.regulateCore
    split
    · exact State.homes_count _ _ _
    · rfl
  unfold State.regulate
  split
  · exact foldl_keeps State.homes hone _ s
  · rfl

/-- The samples of a tick leave the homes alone. -/
theorem State.homes_sampleAll (s : State) : s.sampleAll.homes = s.homes := by
  have hone (s : State) (x : Nat × Int) : (s.sample x).homes = s.homes := by
    unfold State.sample State.govern
    simp only
    split <;> rfl
  unfold State.sampleAll
  split
  · exact foldl_keeps State.homes hone s.sc.temps { s with sc := { s.sc with sampledAt := some s.rc } }
  · rfl

/-- The estimate against the budget leaves the homes alone. -/
theorem State.homes_checkPower (s : State) : s.checkPower.homes = s.homes := by
  unfold State.checkPower
  split <;> rfl

/-- A barrier that is due leaves the homes alone. -/
theorem State.homes_barrierDue (s : State) (c : Nat) : (s.barrierDue c).homes = s.homes := rfl

/-- A broadcast that is due leaves the homes alone. -/
theorem State.homes_bcastDue (s : State) (c : Nat) : (s.bcastDue c).homes = s.homes := rfl

/-- After the leases whose time has come, the clock changes no home. -/
theorem State.homes_clocked (s : State) : s.clocked.homes = s.expireLeases.homes := by
  unfold State.clocked
  simp only
  rw [State.homes_checkPower, State.homes_sampleAll, State.homes_regulate, foldl_keeps State.homes State.homes_reportDie,
    foldl_keeps State.homes fun s (b : Nat × Bcast) => State.homes_bcastDue s b.1,
    foldl_keeps State.homes fun s (b : Nat × Barrier) => State.homes_barrierDue s b.1, State.homes_expireToken]

/-- A tick ends the leases whose time has come. -/
theorem State.home_tick (s : State) (h : Nat) : s.tick.home h = (s.home h).expire (s.rc + 1) := by
  have hh := State.homes_clocked { s with rc := s.rc + 1, nearCur := none }
  refine (congrArg (fun m => (mget m h).getD Home.reset) hh).trans ?_
  exact State.home_map { s with rc := s.rc + 1, nearCur := none } (fun x => x.expire (s.rc + 1)) rfl h

/-! ## Refreshes (R74) -/

/-- What a refresh issued to each of some banks leaves postponed. -/
theorem mem_repaid {l : Map Nat} {f : Nat × Nat → Nat} {b v : Nat} :
    (b, v) ∈ ((l.map fun e => (e.1, f e)).filter fun e => e.2 != 0) ↔ v ≠ 0 ∧ ∃ w, (b, w) ∈ l ∧ f (b, w) = v := by
  constructor
  · intro h
    obtain ⟨hm, hv⟩ := List.mem_filter.1 h
    obtain ⟨⟨c, w⟩, hw, he⟩ := List.mem_map.1 hm
    obtain ⟨rfl, rfl⟩ := Prod.mk.inj he
    exact ⟨by simpa using hv, w, hw, rfl⟩
  · rintro ⟨hv, w, hw, rfl⟩
    exact List.mem_filter.2 ⟨List.mem_map.2 ⟨(b, w), hw, rfl⟩, by simpa using hv⟩

/-- One postponed refresh of every bank is issued. -/
theorem Home.mem_repay (x : Home) (b v : Nat) : (b, v) ∈ x.repay.refresh ↔ v ≠ 0 ∧ (b, v + 1) ∈ x.refresh := by
  refine mem_repaid.trans (and_congr_right fun hv => ⟨?_, fun h => ⟨_, h, rfl⟩⟩)
  rintro ⟨w, hw, rfl⟩
  rwa [Nat.sub_add_cancel (by simp at hv; omega)]

/-- One postponed refresh of a bank is issued. -/
theorem Home.mem_repayBank (x : Home) (bank b v : Nat) :
    (b, v) ∈ (x.repayBank bank).refresh ↔ v ≠ 0 ∧ (b, if b = bank then v + 1 else v) ∈ x.refresh := by
  refine mem_repaid.trans (and_congr_right fun hv => ?_)
  by_cases hb : b = bank
  · simp only [hb, if_true]
    refine ⟨?_, fun h => ⟨_, h, rfl⟩⟩
    rintro ⟨w, hw, rfl⟩
    rwa [Nat.sub_add_cancel (by simp at hv; omega)]
  · simp [hb]

/-- The taking of tasks resumes when no refresh is postponed. -/
theorem Home.burst_repay {x : Home} (h : x.burst = true) : x.repay.burst = false ↔ x.repay.refresh = [] := by
  simp [Home.repay, h]

/-- The most refreshes postponed for a bank are no fewer than those of any. -/
theorem Home.le_debt {x : Home} {b v : Nat} (h : (b, v) ∈ x.refresh) : v ≤ x.debt := by
  have hmono : ∀ (l : Map Nat) (m : Nat), m ≤ l.foldl (fun m e => max m e.2) m ∧ ∀ e ∈ l, e.2 ≤ l.foldl (fun m e => max m e.2) m := by
    intro l
    induction l with
    | nil => simp
    | cons e l ih =>
      intro m
      obtain ⟨hm, hl⟩ := ih (max m e.2)
      refine ⟨(le_max_left _ _).trans hm, ?_⟩
      rintro f (_ | ⟨_, hf⟩)
      · exact (le_max_right _ _).trans hm
      · exact hl f hf
  exact (hmono _ 0).2 _ h

/-- What has been put under an index is of the table. -/
theorem mem_mput {α : Type} (m : Map α) (i : Nat) (x : α) : (i, x) ∈ mput m i x := by
  induction m with
  | nil => simp [mput]
  | cons p rest ih =>
    simp only [mput]
    split
    · simp
    · split
      · simp
      · exact List.mem_cons_of_mem _ ih

end Sys2Proof.Machine
end

section
/-! SUPPORT. The answers to enqueues and to AQCF. -/
namespace Sys2Proof.Machine

variable {s : State} {n : Nat} {r : SymRef}

/-- A batch's queue is one of a home's eight. -/
theorem State.taskQueue_lt {q : Enqueuer} {raws : List Nat} {h qi : Nat}
    (hqueue : raws.head?.bind (s.taskQueue q) = some (h, qi)) : qi < 8 := by
  obtain ⟨raw, -, htq⟩ := Option.bind_eq_some_iff.1 hqueue
  obtain ⟨x, -, hx⟩ := Option.map_eq_some_iff.1 htq
  obtain ⟨-, rfl⟩ := Prod.mk.inj hx
  exact Nat.mod_lt _ (by decide)

/-- An enqueue answers code 9, the least code that applies, or where its entries stand, in sequence. -/
theorem homeEnqueue_answers {who : Asker} {descs : List (Option (BitVec 512))} {base top perms : Nat} {ids : List Nat}
    (hreq : s.hreqs[n]? = some (.enqueue who (some r) descs base top perms ids)) :
    let q := who.enqueuer base top perms
    let raws := batchWords descs
    let u := (s.takeHomeReq n).batchWalks q raws
    let answers (t : State) (w : Word) : Prop := t.arrivals = s.arrivals ++ [⟨who.core, r, Reg.data w, []⟩]
    ∃ t : State, exec (.homeEnqueue n) s = .next (t.unpin who.launch) ∧ t.hreqs = dropAt s.hreqs n ∧
      (none ∈ descs → t.homes = s.homes ∧ answers t (refusal 9)) ∧
      (none ∉ descs → ∀ c, (u.enqueueCodes q raws).min? = some c → t.homes = s.homes ∧ answers t (refusal c)) ∧
      ∀ h qi, none ∉ descs → u.enqueueCodes q raws = [] → raws.head?.bind (u.taskQueue q) = some (h, qi) →
        answers t (w64 (qi * 2 ^ 41 + h * 2 ^ 32 + ((s.home h).queue qi).counter)) ∧
        ((t.home h).queue qi).entries.length = ((s.home h).queue qi).entries.length + raws.length ∧
        ((t.home h).queue qi).counter = (((s.home h).queue qi).counter + raws.length) % 2 ^ 32 := by
  intro q raws u answers
  obtain ⟨hkeep, harr⟩ := State.enqueueAt_keeps (s.takeHomeReq n) q descs ids
  have hu : u.homes = s.homes := (sensed_batchWalks (s.takeHomeReq n) q raws).homes
  have hans : answers (((s.takeHomeReq n).enqueueAt q descs ids).2.status who.core (some r)
      ((s.takeHomeReq n).enqueueAt q descs ids).1) ((s.takeHomeReq n).enqueueAt q descs ids).1 := congrArg (· ++ _) harr
  refine ⟨_, homeEnqueue_eq hreq, hkeep, fun hn => ?_, fun hn c hc => ?_, fun h qi hn hcodes hqueue => ?_⟩
  · rw [State.enqueueAt_poisoned hn] at hans ⊢
    exact ⟨rfl, hans⟩
  · rw [State.enqueueAt_refused ids hn hc] at hans ⊢
    exact ⟨hu, hans⟩
  · have hq : qi < 8 := State.taskQueue_lt hqueue
    have hhome : u.home h = s.home h := congrArg (fun m => (mget m h).getD Home.reset) hu
    have hne : raws ≠ [] := by
      intro he
      rw [he] at hqueue
      cases hqueue
    obtain ⟨hlen, hcount⟩ := State.queue_addEntries (h := h) ids (q := q) rfl hq raws u (State.anchorLeaf_of_no_code hcodes)
    have hshape := State.shape_offerQueue (h := h) hq (raws.foldl (State.addEntry q h qi ids) u)
    rw [State.enqueueAt_entered ids hn hcodes hqueue] at hans ⊢
    rw [← hhome]
    exact ⟨hans, (congrArg Prod.fst hshape).trans hlen, (congrArg (fun x => x.2.1) hshape).trans (hcount hne)⟩

/-- A configuration that names a reserved bit is refused; another reads its queue, and sets it where it asks for that. -/
theorem homeQueueConfigure_answers {core h : Nat} {w : Word} (hreq : s.hreqs[n]? = some (.config core (some r) h w)) :
    let qi := bits w.toNat 15 3
    let bad := bits w.toNat 20 43 ≠ 0 ∨ bits w.toNat 12 3 ≠ 0
    let answers (t : State) (x : Word) : Prop := t.arrivals = s.arrivals ++ [⟨core, r, Reg.data x, []⟩]
    ∃ t : State, exec (.homeQueueConfigure n) s = .next t ∧ (bad → t.homes = s.homes ∧ answers t (refusal 1)) ∧
      (¬ bad → answers t ((s.home h).queueStatus qi) ∧
        (w.getLsbD 63 = true → ((t.home h).queue qi).thresh = bits w.toNat 0 12 ∧
          ((t.home h).queue qi).dpri = bits w.toNat 18 2) ∧
        (w.getLsbD 63 = false → t.homes = s.homes)) := by
  intro qi bad answers
  have hq : qi < 8 := Nat.mod_lt _ (by decide)
  by_cases hbad : bad
  · exact ⟨_, homeQueueConfigure_refused hreq hbad, fun _ => ⟨rfl, rfl⟩, fun h => absurd hbad h⟩
  · refine ⟨_, homeQueueConfigure_answered hreq hbad, fun h => absurd h hbad, fun _ => ?_⟩
    rw [bit_toNat]
    cases w.getLsbD 63 with
    | false => exact ⟨rfl, fun h => absurd h (by decide), fun _ => rfl⟩
    | true =>
      let set (q : Queue) : Queue := { q with
        thresh := bits w.toNat 0 12
        dpri := bits w.toNat 18 2 }
      let t := (s.takeHomeReq n).setHome h ((s.home h).modQueue qi set)
      have hshape := State.shape_offerQueue (h := h) hq t
      rw [State.home_setHome_same, Home.queue_modQueue _ _ hq] at hshape
      refine ⟨congrArg (· ++ _) ((booked_offerQueue t h qi).get State.arrivals), fun _ => ?_, fun h => absurd h (by decide)⟩
      exact ⟨congrArg (fun x => x.2.2.1) hshape, congrArg (fun x => x.2.2.2) hshape⟩

end Sys2Proof.Machine
end

section
/-! SUPPORT. The steps of leases and refreshes (R73 to R75, R78 to R81). -/
namespace Sys2Proof.Machine

variable {s : State} {n : Nat} {r : SymRef} {core h launch : Nat} {born : Option Nat}

/-! ## Leases (R73, R75, R80, R81) -/

/-- A lease request is turned away: the stack recalibrates, or another launch holds the lease. -/
def State.leaseStops (s : State) (h launch : Nat) (born : Option Nat) : Bool :=
  (s.stack (stackOfHome h)).recal || (s.home h).lease.any fun l => l.1 != launch || !s.sameLaunch launch born

/-- The launch of an index is the one that a stamp names. -/
theorem State.sameLaunch_iff : s.sameLaunch launch born = true ↔ (mget s.launches launch).map (·.born) = born := by
  simp [State.sameLaunch]

/-- A lease request is turned away where the stack recalibrates, or another launch holds the lease. -/
theorem State.leaseStops_iff : s.leaseStops h launch born = true ↔ (s.stack (h / 32)).recal = true ∨
    ∃ l, (s.home h).lease = some l ∧ (l.1 ≠ launch ∨ (mget s.launches launch).map (·.born) ≠ born) := by
  simp [State.leaseStops, stackOfHome, State.sameLaunch, Option.any_eq_true]

/-- The step of a lease request by its cases: refused, left to wait for the return, or granted. -/
theorem homeLeaseRequest_eq {count : Nat} (hreq : s.hreqs[n]? = some (.lease core (some r) h launch born count)) :
    exec (.homeLeaseRequest n) s = .next (
      let t := s.takeHomeReq n
      let y := { s.home h with lease := some (launch, s.rc + count) }
      if s.leaseStops h launch born then t.status core (some r) (refusal 1)
      else if count = 0 then t.status core (some r) (refusal 2)
      else if (s.home h).returning then s
      else (t.setHome h (if s.sameLaunch launch born then y else y.endLease)).status core (some r) 0) := by
  change execHomeLeaseRequest n s = _
  unfold execHomeLeaseRequest State.leaseStops
  rw [hreq]
  simp only
  cases (s.home h).lease with
  | none =>
    simp only [Option.any_none, apply_ite Host.Outcome.next]
    rfl
  | some l =>
    simp only [Option.any_some, apply_ite Host.Outcome.next]
    rfl

/-- The code that an NFREE draws, if it is refused: 3 where the home is not leased, 1 where another launch holds the lease, 4 for a
word past its seven bits. -/
def State.freeCode (s : State) (h launch : Nat) (born : Option Nat) (w : Word) : Option Nat :=
  match (s.home h).lease with
  | none => some 3
  | some l => if l.1 ≠ launch ∨ s.sameLaunch launch born = false then some 1 else if 128 ≤ w.toNat then some 4 else none

/-- The step of an NFREE by its cases: refused, or noted with the lease ended. -/
theorem homeLeaseFree_eq {w : Word} (hreq : s.hreqs[n]? = some (.free core (some r) h launch born w)) :
    exec (.homeLeaseFree n) s = .next (
      let t := s.takeHomeReq n
      match s.freeCode h launch born w with
      | some c =>
        if w.getLsbD 6 then (t.status core (some r) (refusal c)).unpin launch else t.status core (some r) (refusal c)
      | none => t.setHome h { (s.home h).endLease with notes := (s.home h).notes ++
          [⟨core, some r, if w.getLsbD 6 then some (bits w.toNat 0 6) else none, launch⟩] }) := by
  change execHomeLeaseFree n s = _
  unfold execHomeLeaseFree State.freeCode
  rw [hreq]
  simp only
  cases (s.home h).lease with
  | none => rfl
  | some l =>
    by_cases hother : l.1 ≠ launch ∨ s.sameLaunch launch born = false
    · simp only [if_pos hother]
      rfl
    · by_cases hw : 128 ≤ w.toNat
      · simp only [if_neg hother, if_pos hw]
        rfl
      · simp only [if_neg hother, if_neg hw]
        rfl

/-- A refused NFREE is answered, and lets its launch go where it asked for a message. -/
theorem homeLeaseFree_refused {w : Word} {c : Nat} (hreq : s.hreqs[n]? = some (.free core (some r) h launch born w))
    (hc : s.freeCode h launch born w = some c) :
    ∃ t : State, exec (.homeLeaseFree n) s = .next (if w.getLsbD 6 then t.unpin launch else t) ∧ t.homes = s.homes ∧
      t.hreqs = dropAt s.hreqs n ∧ t.arrivals = s.arrivals ++ [⟨core, r, Reg.data (refusal c), []⟩] := by
  have hexec := homeLeaseFree_eq hreq
  simp only [hc] at hexec
  exact ⟨_, hexec, rfl, rfl, rfl⟩

/-- Bit 6 of a word of seven bits. -/
theorem getLsbD_six {w : Word} (hw : w.toNat < 128) : w.getLsbD 6 = decide (64 ≤ w.toNat) := by
  rw [← bit_toNat, bit, bits, Bool.beq_eq_decide_eq]
  exact decide_eq_decide.2 (by omega)

/-- An NFREE that is not refused ends the lease, and is answered with the return to shared mode. -/
theorem homeLeaseFree_ends {w : Word} (hreq : s.hreqs[n]? = some (.free core (some r) h launch born w))
    (hc : s.freeCode h launch born w = none) (hw : w.toNat < 128) : exec (.homeLeaseFree n) s = .next
      ((s.takeHomeReq n).setHome h { (s.home h).endLease with notes := (s.home h).notes ++
        [⟨core, some r, if 64 ≤ w.toNat then some (w.toNat % 64) else none, launch⟩] }) := by
  have hexec := homeLeaseFree_eq hreq
  simp only [hc, getLsbD_six hw] at hexec
  simpa [bits] using hexec

/-- A lease that has ended. -/
theorem Home.endLease_of_leased {x : Home} {l : Nat × Nat} (hl : x.lease = some l) : x.endLease = { x with
    lease := none
    returning := true } := by
  simp [Home.endLease, hl]

/-- Of a home, a launch's completion changes the leases that it ends. -/
theorem State.home_endLaunch (s : State) (l : Nat) (x : Launch) (h : Nat) :
    (s.endLaunch l x).home h = (s.endLeases l).home h :=
  congrArg (fun m => (mget m h).getD Home.reset) (s.endLaunch_keeps l x).1

/-- The return to shared mode, once no near unit runs a task. -/
theorem leaseReturnToShared_eq (hret : (s.home h).returning = true) (hq : (s.home h).quiet = true) :
    exec (.leaseReturnToShared h) s = .next ((s.home h).notes.foldl (State.answerFree h) (s.setHome h
      { (if (s.home h).burst then { s.home h with refresh := [], burst := false } else (s.home h).repay) with
        lease := none
        returning := false
        notes := [] })) := by
  change execLeaseReturnToShared h s = _
  unfold execLeaseReturnToShared
  simp only [hret, hq]
  rfl

/-- A bank's refresh in leased mode is postponed, or issued where the bank has no near access, or is left for now. -/
theorem refreshDue_leased {bank : Nat} (hl : (s.home h).leased = true) : ∃ t : State, exec (.refreshDue h bank) s = .next t ∧
    (t.home h = { s.home h with
        refresh := mput (s.home h).refresh bank (min 8 ((mget (s.home h).refresh bank).getD 0 + 1))
        burst := (s.home h).burst || decide (8 ≤ Home.debt { s.home h with
          refresh := mput (s.home h).refresh bank (min 8 ((mget (s.home h).refresh bank).getD 0 + 1)) }) } ∨
      ((s.home h).debt < 8 ∧ (s.home h).nearBusy bank = false ∧ t.home h = (s.home h).repayBank bank) ∨
      t.home h = s.home h) := by
  change ∃ t : State, execRefreshDue h bank s = .next t ∧ _
  unfold execRefreshDue
  simp only [hl, if_true]
  split
  · exact ⟨_, rfl, .inl (State.home_setHome_same _ _ _)⟩
  · split
    · rename_i hb
      exact ⟨_, rfl, .inr (.inl ⟨hb.1, hb.2, State.home_setHome_same _ _ _⟩)⟩
    · exact ⟨_, rfl, .inr (.inr rfl)⟩

/-- A refresh that is due in shared mode is issued. -/
theorem refreshDue_shared {bank : Nat} (hl : (s.home h).leased = false) :
    exec (.refreshDue h bank) s = .next (s.setHome h ((s.home h).repayBank bank)) := by
  change execRefreshDue h bank s = _
  unfold execRefreshDue
  simp only [hl]
  rfl

end Sys2Proof.Machine
end

section
namespace Sys2Proof.Settled
open Machine

/-- Settles O45: each step of a home by what it answers, from the lemmas about enqueues, leases and refreshes; what completes on the
  way leaves the homes' queues and ended leases alone. -/
theorem homeSteps : Obligations.HomeSteps := by
  unfold Obligations.HomeSteps
  refine ⟨?_, ?_, ?_, ?_, ?_, ?_⟩
  · intro s n base top perms who r descs ids hreq
    obtain ⟨t, hexec, hreqs, hpois, hrefused, hentered⟩ := homeEnqueue_answers hreq
    refine ⟨t, hexec, hreqs, hpois, fun hn c hc hle => hrefused hn c (min?_of_least hc hle), ?_⟩
    intro raw rest h qi hn hcodes hraws hqueue
    have hhead : (batchWords descs).head? = some raw := congrArg List.head? hraws
    exact hentered h qi hn hcodes ((congrArg (Option.bind · _) hhead).trans hqueue)
  · intro s n core h r w hreq
    obtain ⟨t, hexec, hbad, hgood⟩ := homeQueueConfigure_answers hreq
    refine ⟨t, hexec, hbad, fun hb => ?_⟩
    obtain ⟨hans, hset, hread⟩ := hgood hb
    refine ⟨⟨_, ?_, rfl⟩, ?_, hread⟩
    · rw [hans, Home.queueStatus, Home.leased]
      simp only [ite_mul, Nat.one_mul, Nat.zero_mul]
      rfl
    · simpa [bits] using hset
  · intro s n core h launch count born r hreq
    have hexec := homeLeaseRequest_eq hreq
    simp only at hexec
    refine ⟨_, hexec, ?_⟩
    simp only [← State.leaseStops_iff]
    refine ⟨fun hs => ?_, fun hs hc => ?_, fun hs hc hr => ?_, fun hs hc hr => ?_⟩
    · simp only [hs, if_true]
      exact ⟨⟨rfl, rfl⟩, rfl⟩
    · simp only [hs, hc]
      exact ⟨⟨rfl, rfl⟩, rfl⟩
    · simp [hs, hc, hr]
    · simp only [hs, hc, hr, if_false]
      refine ⟨⟨rfl, rfl⟩, fun hb => ?_, fun hb => ?_⟩
      · simp only [State.sameLaunch_iff.2 hb, if_true]
        exact State.home_setHome_same _ _ _
      · have hgone : s.sameLaunch launch born = false := Bool.eq_false_iff.2 (hb ∘ State.sameLaunch_iff.1)
        simp only [hgone]
        exact State.home_setHome_same _ _ _
  · intro s n core h launch born r w hreq
    simp only [← State.sameLaunch_iff]
    refine ⟨fun hl => homeLeaseFree_refused hreq ?_, fun l hl hm => homeLeaseFree_refused hreq ?_,
      fun l hl hm hw => homeLeaseFree_refused hreq ?_, fun l hl hm hw => ⟨_, homeLeaseFree_ends hreq ?_ hw, rfl, ?_⟩⟩
    · simp [State.freeCode, hl]
    · rw [not_and_or, Bool.not_eq_true] at hm
      simp only [State.freeCode, hl]
      rw [if_pos hm]
    · simp [State.freeCode, hl, hm, hw]
    · simp [State.freeCode, hl, hm, hw]
    · rw [State.home_setHome_same, Home.endLease_of_leased hl]
      exact ⟨rfl, rfl, rfl⟩
  · intro s h l hl
    have hend : (s.home h).endLease = _ := Home.endLease_of_leased hl
    refine ⟨fun hle => ⟨s.setHome h (s.home h).endLease, ?_, ?_⟩, fun hlt => ?_, fun hle => ?_, fun x => ?_⟩
    · change execLeaseExpiry h s = _
      simp [execLeaseExpiry, hl, hle]
    · exact (State.home_setHome_same _ _ _).trans hend
    · change execLeaseExpiry h s = _
      simp [execLeaseExpiry, hl, hlt]
    · refine (State.home_tick s h).trans ?_
      simp [Home.expire, hl, hle, hend]
    · refine ((State.home_endLaunch _ _ _ _).trans (State.home_endLeases _ _ _)).trans ?_
      simp [hl, hend]
  · intro s h
    refine ⟨fun hb => ?_, fun hb => ?_, fun hret hidle => ?_, fun bank => ⟨fun hl hret => ?_, fun hl => ?_⟩⟩
    · refine ⟨s.setHome h (s.home h).repay, ?_, ?_, ?_⟩
      · change execRefreshBurst h s = _
        simp [execRefreshBurst, hb]
      · simpa using (s.home h).mem_repay
      · simpa using Home.burst_repay hb
    · change execRefreshBurst h s = _
      simp [execRefreshBurst, hb]
    · have hq : (s.home h).quiet = true := List.all_eq_true.2 fun u hu => beq_iff_eq.2 (hidle u hu)
      refine ⟨_, leaseReturnToShared_eq hret hq, ?_⟩
      simp only
      rw [State.answerFrees_home]
      · rw [State.home_setHome_same]
        refine ⟨rfl, rfl, fun hb => ?_, fun hb => ?_⟩
        · simpa [hb] using (s.home h).mem_repay
        · simp [hb]
      · rw [State.home_setHome_same]
    · refine ⟨_, refreshDue_shared (by simp [Home.leased, hl, hret]), ?_⟩
      simpa using (s.home h).mem_repayBank bank
    · have hleased : (s.home h).leased = true := by
        simpa [Home.leased, Option.isSome_iff_ne_none] using hl
      obtain ⟨t, hexec, ht | ⟨hd, hn, ht⟩ | ht⟩ := refreshDue_leased (bank := bank) hleased
      · refine ⟨t, hexec, .inr (.inr ?_)⟩
        rw [ht]
        refine ⟨mget_mput_same _ _ _, fun h8 => ?_⟩
        have h8' : 8 ≤ Home.debt { s.home h with
            refresh := mput (s.home h).refresh bank (min 8 ((mget (s.home h).refresh bank).getD 0 + 1)) } :=
          (Nat.le_min.2 ⟨le_refl 8, h8⟩).trans (Home.le_debt (mem_mput _ bank _))
        simp [h8']
      · refine ⟨t, hexec, .inr (.inl ⟨hd, hn, ?_⟩)⟩
        simpa [ht] using (s.home h).mem_repayBank bank
      · exact ⟨t, hexec, .inl (by rw [ht])⟩

end Sys2Proof.Settled
end

section
/-! SUPPORT. The inbox: which slot a message takes, what it looks like there, and what else its arrival changes (R322 to R324). -/
namespace Sys2Proof.Machine

/-! ## The slots of a kind -/

/-- The lowest free slot of a kind is the one that a message of that kind takes. -/
theorem Core.freeFor_of_lowest {c : Core} {special : Bool} {i : Fin 32} (hkind : decide (28 ≤ i.val) = special)
    (hfree : c.slots[i.val] = .free) (hmin : ∀ j : Fin 32, decide (28 ≤ j.val) = special → j < i → c.slots[j.val] ≠ .free) :
    c.freeFor special = some i := by
  unfold Core.freeFor
  rw [List.find?_eq_some_iff_getElem]
  refine ⟨by simp [hkind, hfree], i.val, by simp, by simp, fun j hj => ?_⟩
  have hji : (⟨j, hj.trans i.isLt⟩ : Fin 32) < i := hj
  by_cases hk : decide (28 ≤ j) = special
  · simp [hmin _ hk hji]
  · simp [hk]

/-- With no free slot of a kind a message of that kind finds none. -/
theorem Core.freeFor_of_full {c : Core} {special : Bool}
    (hfull : ∀ j : Fin 32, decide (28 ≤ j.val) = special → c.slots[j.val] ≠ .free) : c.freeFor special = none := by
  unfold Core.freeFor
  rw [List.find?_eq_none]
  intro j _
  by_cases hk : decide (28 ≤ j.val) = special
  · simp [hfull j hk]
  · simp [hk]

/-- A class is governed where its own entry or that of class 0 is valid. -/
theorem Core.governs_isSome {c : Core} {cls : Nat} :
    (c.governs cls).isSome = true ↔ c.classes[(Fin.ofNat 64 cls).val].getLsbD 63 = true ∨ c.classes[0].getLsbD 63 = true := by
  unfold Core.governs
  simp only [Fin.getElem_fin]
  split
  · next hown => exact iff_of_true rfl (.inl hown)
  · next hown =>
    split
    · next hzero => exact iff_of_true rfl (.inr hzero)
    · next hzero => exact iff_of_false nofun (not_or.2 ⟨hown, hzero⟩)

/-! ## The tags of a payload -/

/-- Bit 0 of one tag set. -/
theorem tag_or_pow (t : BitVec 12) (k n : Fin 6) : (t ||| BitVec.ofNat 12 (4 ^ k.val)).toNat / 4 ^ n.val % 4 =
    (t.toNat / 4 ^ n.val % 4) ||| if n = k then 1 else 0 := by
  have hbit : ∀ k n : Fin 6, (BitVec.ofNat 12 (4 ^ k.val)).toNat / 2 ^ (2 * n.val) % 2 ^ 2 = if n = k then 1 else 0 := by decide
  have hpow : (4 : Nat) ^ n.val = 2 ^ (2 * n.val) := by rw [Nat.pow_mul]
  have hor := Nat.or_mod_two_pow (n := 2) (a := t.toNat / 2 ^ (2 * n.val)) (b := (BitVec.ofNat 12 (4 ^ k.val)).toNat / 2 ^ (2 * n.val))
  rw [BitVec.toNat_or, hpow, Nat.or_div_two_pow, ← hbit k n]
  exact hor

/-- Bit 0 of some tags set: each of these tags has it, the others stay. -/
theorem tag_foldl_or_pow (l : List Nat) (hl : ∀ k ∈ l, k < 6) (t : BitVec 12) (n : Fin 6) :
    (l.foldl (fun t k => t ||| BitVec.ofNat 12 (4 ^ k)) t).toNat / 4 ^ n.val % 4 =
      (t.toNat / 4 ^ n.val % 4) ||| if n.val ∈ l then 1 else 0 := by
  induction l generalizing t with
  | nil => simp
  | cons k l ih =>
    have hk : k < 6 := hl k (by simp)
    rw [List.foldl_cons, ih fun j hj => hl j (by simp [hj]), tag_or_pow t ⟨k, hk⟩ n, Nat.or_assoc]
    congr 1
    by_cases hn : n.val = k
    · by_cases hm : k ∈ l <;> simp [hn, hm, Fin.ext_iff]
    · by_cases hm : n.val ∈ l <;> simp [hn, hm, Fin.ext_iff]

/-- Every tag 10 is read as 11, and the others as they are (R322). -/
theorem Msg.tagOf_fixTags (m : Msg) (n : Fin 6) :
    Msg.tagOf { m with ptag := m.fixTags.1 } n.val = if m.tagOf n.val = 2 then 3 else m.tagOf n.val := by
  unfold Msg.fixTags
  refine (tag_foldl_or_pow _ (fun k hk => List.mem_range.1 (List.mem_of_mem_filter hk)) m.ptag n).trans ?_
  change m.tagOf n.val ||| _ = _
  have hn : n.val < 6 := n.isLt
  by_cases h2 : m.tagOf n.val = 2
  · simp [h2, hn]
  · simp [h2]

/-! ## What a slot holds -/

/-- A message accepted at core k takes its slot, last of all (R323). -/
theorem State.core_accept (s : State) (k : Nat) (i : Fin 32) (p : Packet) : (s.accept k i p).core k = { s.core k with
    slots := (s.core k).slots.set i.val (.holds { p with msg := { p.msg with ptag := p.msg.fixTags.1 } })
    order := (s.core k).order ++ [i] } :=
  ((booked_count _ _ _).core k).trans (State.core_setCore_same _ _ _)

/-- A message accepted stands in its slot. -/
theorem inSlot_accept (s : State) (i : Fin 32) (p : Packet) : InSlot s (s.accept p.msg.dest i p) p i := by
  refine ⟨{ p with msg := { p.msg with ptag := p.msg.fixTags.1 } }, ?_, ?_, rfl, rfl, rfl, p.msg.tagOf_fixTags⟩
  · simp [State.core_accept]
  · rw [State.core_accept]

/-- Whether a message stands in its slot is a matter of its destination alone, of which the order counts before. -/
theorem inSlot_of_core {s t u v : State} {p : Packet} {i : Fin 32} (h : InSlot s t p i)
    (hs : (u.core p.msg.dest).order = (s.core p.msg.dest).order) (ht : v.core p.msg.dest = t.core p.msg.dest) : InSlot u v p i := by
  unfold InSlot
  rw [hs, ht]
  exact h

/-- A delivery written down changes the homes alone. -/
theorem State.delivered_keeps (s : State) (p : Packet) : (s.delivered p).cores = s.cores ∧ (s.delivered p).flights = s.flights := by
  unfold State.delivered
  split <;> exact ⟨rfl, rfl⟩

/-- A message accepted leaves the flights alone. -/
theorem State.accept_flights (s : State) (k : Nat) (i : Fin 32) (p : Packet) : (s.accept k i p).flights = s.flights := by
  unfold State.accept State.count
  simp only
  split <;> rfl

/-- A message whose class is governed stands in its slot, and nothing else is on its way for it. -/
theorem State.deliver_governed {s : State} {i : Fin 32} {p : Packet} (hg : Governed (s.core p.msg.dest) p) :
    InSlot s (s.deliver p.msg.dest i p) p i ∧ (s.deliver p.msg.dest i p).flights = s.flights := by
  obtain ⟨e, he⟩ := Option.isSome_iff_exists.1 (Core.governs_isSome.2 hg)
  obtain ⟨hcores, hflights⟩ := (s.accept p.msg.dest i p).delivered_keeps p
  have hdeliver : s.deliver p.msg.dest i p = (s.accept p.msg.dest i p).delivered p := by simp [State.deliver, he]
  rw [hdeliver]
  refine ⟨inSlot_of_core (inSlot_accept s i p) rfl ?_, hflights.trans (s.accept_flights _ _ _)⟩
  rw [State.core, State.core, hcores]

/-! ## What is discarded -/

/-- A member that has ended changes no core, and what is on its way stays. -/
theorem State.endMember_keeps (s : State) (l : Nat) (e : End) (ids : List Nat) :
    (s.endMember l e ids).cores = s.cores ∧ s.flights <+: (s.endMember l e ids).flights :=
  ⟨(booked_endMember s l e ids).get State.cores, State.settle_flights { s with launches := mmod s.launches l fun x =>
    { x with counts := x.counts.finish e, finished := x.finished ++ ids } }⟩

/-- A count changes no core, and what is on its way stays. -/
theorem State.count_cores_flights (s : State) (c : Counter) (n : Nat) : (s.count c n).cores = s.cores ∧ (s.count c n).flights = s.flights := by
  unfold State.count
  split <;> exact ⟨rfl, rfl⟩

/-- A message counted out changes no core, and what is on its way stays. -/
theorem State.countedOut_keeps (s : State) (c : Counter) (p : Packet) :
    (if p.member then (s.count c).endMember p.msg.launch .cancelled else s.count c).cores = s.cores ∧
      s.flights <+: (if p.member then (s.count c).endMember p.msg.launch .cancelled else s.count c).flights := by
  obtain ⟨hcores, hflights⟩ := s.count_cores_flights c 1
  split
  · obtain ⟨hc, hf⟩ := (s.count c).endMember_keeps p.msg.launch .cancelled []
    exact ⟨hc.trans hcores, hflights ▸ hf⟩
  · exact ⟨hcores, hflights ▸ List.prefix_rfl⟩

/-- A message dropped changes no core, and what is on its way stays. -/
theorem State.undelivered_keeps (s : State) (p : Packet) :
    (s.undelivered p).cores = s.cores ∧ s.flights <+: (s.undelivered p).flights := s.countedOut_keeps _ p

/-- A message discarded changes no core, and what is on its way stays. -/
theorem State.discard_keeps (s : State) (k : Nat) (p : Packet) :
    (s.discard k p).cores = s.cores ∧ s.flights <+: (s.discard k p).flights := s.countedOut_keeps _ p

/-! ## Arrival (R49, R53, R331) -/

/-- A message that starts no unit and delivers no far body. -/
def MsgKind.plain (x : MsgKind) : Prop := x = .send ∨ x = .fault ∨ x = .notify ∨ x = .cross ∨ ∃ g, x = .root g

/-- A plain message takes an ordinary slot, and is discarded where its classes are empty. -/
theorem MsgKind.plain_cases {x : MsgKind} (h : x.plain) : x.special = false ∧
    (∀ st landing born, x ≠ .spawn st landing born) ∧ (∀ u, x ≠ .start u) ∧ ∀ t, x ≠ .task t := by
  obtain rfl | rfl | rfl | rfl | ⟨g, rfl⟩ := h <;> exact ⟨rfl, nofun, nofun, nofun⟩

/-- A message whose classes are empty, and that no one waits for, leaves no trace at its core. -/
theorem State.deliver_ungoverned {s : State} {i : Fin 32} {p : Packet} (hg : ¬ Governed (s.core p.msg.dest) p)
    (hstart : ∀ u, p.kind ≠ .start u) (htask : ∀ t, p.kind ≠ .task t) : s.deliver p.msg.dest i p = s.discard p.msg.dest p := by
  have he : (s.core p.msg.dest).governs p.msg.cls = none := by
    rw [← Option.not_isSome_iff_eq_none, Core.governs_isSome]
    exact hg
  unfold State.deliver State.classEmpty
  rw [he]
  simp only
  split
  · next hu => exact absurd hu (hstart _)
  · next ht => exact absurd ht (htask _)
  all_goals rfl

end Sys2Proof.Machine
end

section
/-! SUPPORT. The steps of a message's arrival (R49, R53, R331). -/
namespace Sys2Proof.Machine

variable {s : State} {p : Packet} {rest : List Flight}

/-! ## What waits, and what does not -/

/-- No message is parked. -/
def State.NoneParked (s : State) : Prop := ∀ f ∈ s.flights, ∀ since, f.travel ≠ .parked since

/-- With none parked, none is parked for a core. -/
theorem State.NoneParked.parkedFor (h : s.NoneParked) (k : Nat) (special : Bool) : s.parkedFor k special = false := by
  refine List.any_eq_false.2 fun f hf => ?_
  have hnot := h f hf
  split
  · next since ht => exact absurd ht (hnot since)
  · exact Bool.false_ne_true
  · exact Bool.false_ne_true

/-- With none parked, every parking buffer is empty. -/
theorem State.NoneParked.parkedIn (h : s.NoneParked) (d : Nat) : s.parkedIn d = 0 := by
  refine List.length_eq_zero_iff.2 (List.filter_eq_nil_iff.2 fun f hf => ?_)
  have hnot := h f hf
  split
  · next since ht => exact absurd ht (hnot since)
  · exact Bool.false_ne_true
  · exact Bool.false_ne_true

/-- With none parked, no link stands still. -/
theorem State.NoneParked.stalled (h : s.NoneParked) (p : Packet) : s.stalled p = false := by
  simp [State.stalled, h.parkedIn]

/-- The first on its way waits behind nothing, where none is parked. -/
theorem State.NoneParked.behind (h : s.NoneParked) : s.behind 0 ⟨p, .link⟩ = false := by
  rw [State.behind, List.take_zero, List.any_nil, Bool.false_or]
  refine List.any_eq_false.2 fun f hf => ?_
  have hnot := h f hf
  split
  · next since _ ht => exact absurd ht (hnot since)
  · exact Bool.false_ne_true

/-- The first parked one waits behind nothing. -/
theorem State.behind_head_parked (since : Nat) : s.behind 0 ⟨p, .parked since⟩ = false := by
  rw [State.behind, List.take_zero, List.any_nil, Bool.false_or]
  exact List.any_eq_false.2 fun f _ => Bool.false_ne_true

/-- One that a die agent has placed waits behind nothing. -/
theorem State.behind_placed (n i : Nat) : s.behind n ⟨p, .placed i⟩ = false := by
  rw [State.behind, Bool.or_eq_false_iff]
  exact ⟨List.any_eq_false.2 fun f _ => Bool.false_ne_true, List.any_eq_false.2 fun f _ => Bool.false_ne_true⟩

/-- The first on its way taken out. -/
theorem State.dropFlight_head {f : Flight} (h : s.flights = f :: rest) : (s.dropFlight 0).flights = rest := by
  simp [State.dropFlight, h, dropAt]

/-! ## MESSAGE_ARRIVAL by its cases -/

/-- A message for a core of an exchange is held (R389). -/
theorem messageArrival_held {n : Nat} {f : Flight} (hf : s.flights[n]? = some f) (hh : s.held f.packet.msg.dest = true) :
    exec (.messageArrival n) s = .next s := by
  change execMessageArrival n s = _
  simp [execMessageArrival, hf, hh]

/-- A message on its way or parked that is no SPAWN goes to its core, or is dropped where its dome no longer serves its function. -/
theorem messageArrival_moving {n : Nat} {f : Flight} (hf : s.flights[n]? = some f) (hb : s.behind n f = false)
    (hh : s.held f.packet.msg.dest = false) (hkind : ∀ st landing born, f.packet.kind ≠ .spawn st landing born)
    (ht : ∀ i, f.travel ≠ .placed i) : exec (.messageArrival n) s =
      if s.serves f.packet.vf (domeOf f.packet.msg.dest) = true then s.arriveAt n f
      else .next ((s.dropFlight n).undelivered f.packet) := by
  change execMessageArrival n s = _
  unfold execMessageArrival
  simp only [hf, hb, hh, Bool.or_false, Bool.false_eq_true, if_false]
  split
  · next hs _ => exact absurd hs (hkind _ _ _)
  · next hs _ => exact absurd hs (hkind _ _ _)
  · cases s.serves f.packet.vf (domeOf f.packet.msg.dest) <;> rfl
  · cases s.serves f.packet.vf (domeOf f.packet.msg.dest) <;> rfl
  · next hp _ => exact absurd hp (ht _)

/-- A SPAWN on its way is answered (R53). -/
theorem messageArrival_spawn {n : Nat} {st : Option SymRef} {landing : Nat} {born : Option Nat} (hf : s.flights[n]? = some ⟨p, .link⟩)
    (hb : s.behind n ⟨p, .link⟩ = false) (hh : s.held p.msg.dest = false) (hkind : p.kind = .spawn st landing born)
    (hs : s.stalled p = false) : exec (.messageArrival n) s = .next ((s.dropFlight n).spawnArrives p landing born) := by
  change execMessageArrival n s = _
  unfold execMessageArrival
  simp only [hf, hb, hh, hkind, hs, Bool.or_false, Bool.false_eq_true, if_false]

/-- A message that a die agent has placed takes its slot (R49). -/
theorem messageArrival_placed {n : Nat} {i : Fin 32} (hf : s.flights[n]? = some ⟨p, .placed i.val⟩) (hh : s.held p.msg.dest = false)
    (hkind : ∀ st landing born, p.kind ≠ .spawn st landing born) : exec (.messageArrival n) s = .next
      (((s.dropFlight n).setCore p.msg.dest { s.core p.msg.dest with
        slots := (s.core p.msg.dest).slots.set i.val .free }).deliver p.msg.dest i p) := by
  have hi : Fin.ofNat 32 i.val = i := by ext; simp
  change execMessageArrival n s = _
  unfold execMessageArrival
  simp only [hf, State.behind_placed, hh, hi, Bool.or_false, Bool.false_eq_true, if_false]

/-- At its core a message takes the free slot that it finds, where none is parked. -/
theorem State.NoneParked.arriveAt_free (h : s.NoneParked) {n : Nat} {i : Fin 32}
    (hi : (s.core p.msg.dest).freeFor p.kind.special = some i) :
    s.arriveAt n ⟨p, .link⟩ = .next ((s.dropFlight n).deliver p.msg.dest i p) := by
  simp [State.arriveAt, hi, h.stalled, h.parkedFor]

/-- At its core a message that finds no slot parks, where none is parked. -/
theorem State.NoneParked.arriveAt_full (h : s.NoneParked) {n : Nat} (hi : (s.core p.msg.dest).freeFor p.kind.special = none) :
    s.arriveAt n ⟨p, .link⟩ = .next { s with flights := dropAt s.flights n ++ [⟨p, .parked s.rc⟩] } := by
  simp [State.arriveAt, hi, State.park, h.parkedIn]

/-- A parked message takes the free slot that it finds. -/
theorem State.arriveAt_parked_free {n since : Nat} {i : Fin 32} (hi : (s.core p.msg.dest).freeFor p.kind.special = some i) :
    s.arriveAt n ⟨p, .parked since⟩ = .next ((s.dropFlight n).deliver p.msg.dest i p) := by
  simp [State.arriveAt, hi]

/-- A parked message that finds no slot stays parked. -/
theorem State.arriveAt_parked_full {n since : Nat} (hi : (s.core p.msg.dest).freeFor p.kind.special = none) :
    s.arriveAt n ⟨p, .parked since⟩ = .next s := by
  simp [State.arriveAt, hi]

end Sys2Proof.Machine
end

section
/-! SUPPORT. What arrivals do, by the message's kind and the slots of its core (R22, R53, R322 to R324, R331). -/
namespace Sys2Proof.Machine

variable {s : State} {p : Packet} {rest : List Flight}

/-- The lowest free ordinary slot. -/
theorem freeFor_ordinary_of_lowest {c : Core} {i : Fin 32} (h : LowestFree c i 0 28) : c.freeFor false = some i := by
  obtain ⟨-, hi, hfree, hmin⟩ := h
  exact Core.freeFor_of_lowest (decide_eq_false (by omega)) hfree fun j _ hj => hmin j (Nat.zero_le _) hj

/-- The lowest free reserved slot. -/
theorem freeFor_reserved_of_lowest {c : Core} {i : Fin 32} (h : LowestFree c i 28 32) : c.freeFor true = some i := by
  obtain ⟨hi, -, hfree, hmin⟩ := h
  exact Core.freeFor_of_lowest (decide_eq_true hi) hfree fun j hj => hmin j (of_decide_eq_true hj)

/-- No ordinary slot is free. -/
theorem Core.freeFor_ordinary_full {c : Core} (h : ∀ j : Fin 32, j.val < 28 → c.slots[j.val] ≠ .free) : c.freeFor false = none :=
  Core.freeFor_of_full fun j hj => h j (Nat.lt_of_not_le (of_decide_eq_false hj))

/-- No reserved slot is free. -/
theorem Core.freeFor_reserved_full {c : Core} (h : ∀ j : Fin 32, 28 ≤ j.val → c.slots[j.val] ≠ .free) : c.freeFor true = none :=
  Core.freeFor_of_full fun j hj => h j (of_decide_eq_true hj)

/-- A completion message alone takes a reserved slot (R323). -/
theorem MsgKind.special_eq (x : MsgKind) : x.special = decide (x = .completion) := by
  cases x <;> rfl

/-- The lowest free slot of its kind is the one that a message finds. -/
theorem freeFor_of_lowest_of_kind {c : Core} {i : Fin 32} {x : MsgKind}
    (h : if x = .completion then LowestFree c i 28 32 else LowestFree c i 0 28) : c.freeFor x.special = some i := by
  rw [MsgKind.special_eq]
  split at h
  · next hx => exact decide_eq_true hx ▸ freeFor_reserved_of_lowest h
  · next hx => exact decide_eq_false hx ▸ freeFor_ordinary_of_lowest h

/-! ## The first message on its way, where none is parked -/

section
variable (hfl : s.flights = ⟨p, .link⟩ :: rest) (hnone : s.NoneParked) (hh : s.held p.msg.dest = false)
  (hkind : ∀ st landing born, p.kind ≠ .spawn st landing born)
include hfl hnone hh hkind

/-- One whose function the dome no longer serves is dropped (R55). -/
theorem arrival_unserved (hserves : ¬ s.serves p.vf (p.msg.dest / 128) = true) : ∃ t : State,
    exec (.messageArrival 0) s = .next t ∧ t.cores = s.cores ∧ t.flights.take rest.length = rest := by
  have hexec := messageArrival_moving (f := ⟨p, .link⟩) (by rw [hfl]; rfl) hnone.behind hh hkind nofun
  obtain ⟨hcores, hflights⟩ := (s.dropFlight 0).undelivered_keeps p
  rw [State.dropFlight_head hfl, List.prefix_iff_eq_take] at hflights
  exact ⟨_, hexec.trans (if_neg hserves), hcores, hflights.symm⟩

variable (hserves : s.serves p.vf (p.msg.dest / 128) = true)
include hserves

/-- One that finds a free slot is delivered there. -/
theorem arrival_free {i : Fin 32} (hi : (s.core p.msg.dest).freeFor p.kind.special = some i) :
    exec (.messageArrival 0) s = .next ((s.dropFlight 0).deliver p.msg.dest i p) :=
  ((messageArrival_moving (f := ⟨p, .link⟩) (by rw [hfl]; rfl) hnone.behind hh hkind nofun).trans (if_pos hserves)).trans
    (hnone.arriveAt_free hi)

/-- One that finds no free slot parks (R331). -/
theorem arrival_full (hi : (s.core p.msg.dest).freeFor p.kind.special = none) : ∃ t : State,
    exec (.messageArrival 0) s = .next t ∧ t.flights = rest ++ [⟨p, .parked s.rc⟩] ∧ t.cores = s.cores := by
  have hexec := messageArrival_moving (f := ⟨p, .link⟩) (by rw [hfl]; rfl) hnone.behind hh hkind nofun
  refine ⟨_, (hexec.trans (if_pos hserves)).trans (hnone.arriveAt_full hi), ?_, rfl⟩
  simp [hfl, dropAt]

/-- One whose class is governed stands in the slot that it finds. -/
theorem arrival_inSlot {i : Fin 32} (hi : (s.core p.msg.dest).freeFor p.kind.special = some i) (hg : Governed (s.core p.msg.dest) p) :
    ∃ t : State, exec (.messageArrival 0) s = .next t ∧ t.flights = rest ∧ InSlot s t p i := by
  obtain ⟨hslot, hflights⟩ := State.deliver_governed (s := s.dropFlight 0) (i := i) hg
  exact ⟨_, arrival_free hfl hnone hh hkind hserves hi, hflights.trans (State.dropFlight_head hfl), inSlot_of_core hslot rfl rfl⟩

end

/-- A plain message whose classes are empty leaves the slots of its core alone (R324). -/
theorem arrival_discarded (hfl : s.flights = ⟨p, .link⟩ :: rest) (hnone : s.NoneParked) (hh : s.held p.msg.dest = false)
    (hserves : s.serves p.vf (p.msg.dest / 128) = true) (hplain : p.kind.plain) {i : Fin 32}
    (hi : (s.core p.msg.dest).freeFor false = some i) (hg : ¬ Governed (s.core p.msg.dest) p) : ∃ t : State,
      exec (.messageArrival 0) s = .next t ∧ rest <+: t.flights ∧ t.cores = s.cores := by
  obtain ⟨hspecial, hspawn, hstart, htask⟩ := MsgKind.plain_cases hplain
  have hexec := arrival_free hfl hnone hh hspawn hserves (i := i) (by rw [hspecial, hi])
  rw [State.deliver_ungoverned (s := s.dropFlight 0) hg hstart htask] at hexec
  obtain ⟨hcores, hflights⟩ := (s.dropFlight 0).discard_keeps p.msg.dest p
  rw [State.dropFlight_head hfl] at hflights
  exact ⟨_, hexec, hflights, hcores⟩

/-! ## SPAWN (R53, R54) -/

/-- The answer to a SPAWN goes back to the sender's landing slot. -/
def spawnAnswer (p : Packet) (landing : Nat) (flags : BitVec 6) : Flight :=
  ⟨{ p with msg := { p.msg with
      dest := p.msg.src
      src := p.msg.dest
      flags := flags } }, .placed landing⟩

/-- A SPAWN that is accepted. -/
theorem State.spawnArrives_accepted {landing : Nat} {born : Option Nat} {i : Fin 32}
    (hi : (s.core p.msg.dest).freeFor false = some i) (hg : Governed (s.core p.msg.dest) p)
    (htakes : (s.takes p.msg.launch && s.sameLaunch p.msg.launch born && s.serves p.vf (p.msg.dest / 128)) = true) :
    (s.spawnArrives p landing born).flights = s.flights ++ [spawnAnswer p landing 2] ∧
      InSlot s (s.spawnArrives p landing born) p i := by
  obtain ⟨e, he⟩ := Option.isSome_iff_exists.1 (Core.governs_isSome.2 hg)
  have heq : s.spawnArrives p landing born =
      let t := (s.join p.msg.launch).accept p.msg.dest i { p with member := true }
      { t with flights := t.flights ++ [spawnAnswer p landing 2] } := by
    unfold State.spawnArrives
    simp only [hi, he]
    exact if_pos htakes
  rw [heq]
  exact ⟨congrArg (· ++ _) (State.accept_flights _ _ _ _), inSlot_of_core (inSlot_accept (s.join p.msg.launch) i { p with member := true }) rfl rfl⟩

/-- A SPAWN that bounces. -/
theorem State.spawnArrives_bounced {landing : Nat} {born : Option Nat}
    (hno : (s.core p.msg.dest).freeFor false = none ∨ ¬ Governed (s.core p.msg.dest) p ∨
      (s.takes p.msg.launch && s.sameLaunch p.msg.launch born && s.serves p.vf (p.msg.dest / 128)) = false) :
    (s.spawnArrives p landing born).flights = s.flights ++ [spawnAnswer p landing 3] ∧
      (s.spawnArrives p landing born).cores = s.cores := by
  have heq : s.spawnArrives p landing born =
      { s.count (.spawnRefused p.msg.src) with
        flights := (s.count (.spawnRefused p.msg.src)).flights ++ [spawnAnswer p landing 3] } := by
    unfold State.spawnArrives
    simp only
    split
    · next i e hi he =>
      have hg : Governed (s.core p.msg.dest) p := Core.governs_isSome.1 (by rw [he]; rfl)
      simp only [hi, hg, not_true, reduceCtorEq, false_or] at hno
      exact if_neg (by simpa [domeOf] using hno)
    · rfl
  obtain ⟨hcores, hflights⟩ := s.count_cores_flights (.spawnRefused p.msg.src) 1
  rw [heq]
  exact ⟨congrArg (· ++ _) hflights, hcores⟩

/-- What a SPAWN's launch must be for it to be accepted (R54). -/
theorem State.spawn_conditions {born : Option Nat} {l : Launch} (hl : mget s.launches p.msg.launch = some l) :
    (s.takes p.msg.launch && s.sameLaunch p.msg.launch born && s.serves p.vf (p.msg.dest / 128)) = true ↔
      (l.cancelled = false ∧ l.counts.isFull = false) ∧ born = some l.born ∧ s.serves p.vf (p.msg.dest / 128) = true := by
  simp [State.takes, State.sameLaunch, hl, and_assoc, eq_comm (a := some l.born)]

/-- The first SPAWN on its way is accepted where its launch takes members and a slot is free. -/
theorem arrival_spawn_accepted {st : Option SymRef} {landing : Nat} {born : Option Nat} {l : Launch} {i : Fin 32}
    (hfl : s.flights = ⟨p, .link⟩ :: rest) (hnone : s.NoneParked) (hh : s.held p.msg.dest = false)
    (hk : p.kind = .spawn st landing born) (hl : mget s.launches p.msg.launch = some l) (hi : LowestFree (s.core p.msg.dest) i 0 28)
    (hserves : s.serves p.vf (p.msg.dest / 128) = true) (hg : Governed (s.core p.msg.dest) p) (hborn : born = some l.born)
    (hcan : l.cancelled = false) (hroom : l.counts.isFull = false) : ∃ t : State, exec (.messageArrival 0) s = .next t ∧
      InSlot s t p i ∧ t.flights = rest ++ [spawnAnswer p landing 2] := by
  have hconds := (State.spawn_conditions (s := s.dropFlight 0) hl).2 ⟨⟨hcan, hroom⟩, hborn, hserves⟩
  obtain ⟨hback, hslot⟩ := State.spawnArrives_accepted (s := s.dropFlight 0) (landing := landing) (freeFor_ordinary_of_lowest hi) hg hconds
  exact ⟨_, messageArrival_spawn (by rw [hfl]; rfl) hnone.behind hh hk (hnone.stalled p), inSlot_of_core hslot rfl rfl,
    State.dropFlight_head hfl ▸ hback⟩

/-- The first SPAWN on its way bounces otherwise. -/
theorem arrival_spawn_bounced {st : Option SymRef} {landing : Nat} {born : Option Nat} {l : Launch}
    (hfl : s.flights = ⟨p, .link⟩ :: rest) (hnone : s.NoneParked) (hh : s.held p.msg.dest = false)
    (hk : p.kind = .spawn st landing born) (hl : mget s.launches p.msg.launch = some l)
    (hno : (∀ j : Fin 32, j.val < 28 → (s.core p.msg.dest).slots[j.val] ≠ .free) ∨ ¬ s.serves p.vf (p.msg.dest / 128) = true ∨
      ¬ Governed (s.core p.msg.dest) p ∨ born ≠ some l.born ∨ l.cancelled = true ∨ l.counts.isFull = true) : ∃ t : State,
      exec (.messageArrival 0) s = .next t ∧ t.cores = s.cores ∧ t.flights = rest ++ [spawnAnswer p landing 3] := by
  have hconds := State.spawn_conditions (s := s.dropFlight 0) (born := born) hl
  obtain ⟨hback, hcores⟩ := State.spawnArrives_bounced (s := s.dropFlight 0) (p := p) (landing := landing) (born := born) (by
    rw [← Bool.not_eq_true, hconds]
    obtain hfull | hserves | hg | hborn | hcan | hroom := hno
    · exact .inl (Core.freeFor_ordinary_full hfull)
    · exact .inr (.inr fun h => hserves h.2.2)
    · exact .inr (.inl hg)
    · exact .inr (.inr fun h => hborn h.2.1)
    · exact .inr (.inr fun h => by simp [hcan] at h)
    · exact .inr (.inr fun h => by simp [hroom] at h))
  exact ⟨_, messageArrival_spawn (by rw [hfl]; rfl) hnone.behind hh hk (hnone.stalled p), hcores,
    State.dropFlight_head hfl ▸ hback⟩

/-! ## Parked and placed messages -/

/-- A message that a die agent has placed stands in its reserved slot (R49). -/
theorem placed_inSlot {i : Fin 32} (hfl : s.flights = ⟨p, .placed i.val⟩ :: rest) (hspawn : ∀ st landing born, p.kind ≠ .spawn st landing born)
    (hh : s.held p.msg.dest = false) (hg : Governed (s.core p.msg.dest) p) :
    ∃ t : State, exec (.messageArrival 0) s = .next t ∧ t.flights = rest ∧ InSlot s t p i := by
  have hexec := messageArrival_placed (n := 0) (i := i) (by rw [hfl]; rfl) hh hspawn
  generalize ht : (s.dropFlight 0).setCore p.msg.dest { s.core p.msg.dest with
    slots := (s.core p.msg.dest).slots.set i.val .free } = t at hexec
  have hcore : t.core p.msg.dest = { s.core p.msg.dest with slots := (s.core p.msg.dest).slots.set i.val .free } :=
    ht ▸ State.core_setCore_same _ _ _
  obtain ⟨hslot, hflights⟩ := State.deliver_governed (s := t) (i := i) (p := p) (by rw [hcore]; exact hg)
  refine ⟨_, hexec, hflights.trans ?_, inSlot_of_core hslot (by rw [hcore]) rfl⟩
  rw [← ht]
  exact State.dropFlight_head hfl

end Sys2Proof.Machine
end

section
/-! SUPPORT. The answer to a SPAWN, the choice and the start of a handler, and the time of parking (R35 to R37, R53, R325, R332). -/
namespace Sys2Proof.Machine

variable {s : State} {p : Packet}

/-! ## SPAWN_RESPONSE (R53) -/

/-- The answer to a SPAWN by its cases: held back, or the status resolves and the landing ends. -/
theorem spawnResponse_eq {n landing l2 : Nat} {born : Option Nat} {r : SymRef} (hf : s.flights[n]? = some ⟨p, .placed landing⟩)
    (hk : p.kind = .spawn (some r) l2 born) : exec (.spawnResponse n) s =
      if s.held p.msg.dest || s.stalled p then .next s
      else .next { (s.dropFlight n).setCore p.msg.dest { s.core p.msg.dest with
          slots := (s.core p.msg.dest).slots.set (Fin.ofNat 32 landing).val .free } with
        arrivals := s.arrivals ++ [⟨p.msg.dest, r, Reg.data (if p.msg.flags.getLsbD 0 then 1 else 0), []⟩] } := by
  change execSpawnResponse n s = _
  unfold execSpawnResponse
  simp only [hf, hk]
  rfl

/-- An answer that is not held back arrives, and the landing slot is free. -/
theorem spawnResponse_arrives {n landing l2 : Nat} {born : Option Nat} {r : SymRef} (hf : s.flights[n]? = some ⟨p, .placed landing⟩)
    (hlanding : landing < 32) (hk : p.kind = .spawn (some r) l2 born) (hh : s.held p.msg.dest = false) (hs : s.stalled p = false) :
    ∃ t : State, exec (.spawnResponse n) s = .next t ∧ t.flights = dropAt s.flights n ∧
      t.arrivals = s.arrivals ++ [⟨p.msg.dest, r, Reg.data (if p.msg.flags.getLsbD 0 then 1 else 0), []⟩] ∧
      (t.core p.msg.dest).slots[landing]? = some .free := by
  refine ⟨_, (spawnResponse_eq hf hk).trans (if_neg (by simp [hh, hs])), rfl, rfl, ?_⟩
  refine (congrArg (fun c : Core => c.slots[landing]?) (State.core_setCore_same (s.dropFlight n) p.msg.dest _)).trans ?_
  simp [Nat.mod_eq_of_lt hlanding, hlanding]

/-! ## The selection of a message (R325) -/

/-- The choice of the inbox: the later of two where its priority is higher. -/
def better (best : Option (Fin 32 × Packet × Word)) (x : Fin 32 × Packet × Word) : Option (Fin 32 × Packet × Word) :=
  match best with
  | none => some x
  | some b => if entryPri b.2.2 < entryPri x.2.2 then some x else some b

/-- The message in a slot that is runnable, of those that may start. -/
def Core.runnableAt (c : Core) (may : Packet → Bool) (i : Fin 32) : Option (Fin 32 × Packet × Word) :=
  match (c.slots[i.val]).msg.filter may with
  | some p => (c.governs p.msg.cls).bind fun e => if e.getLsbD 62 then some (i, p, e) else none
  | none => none

/-- The inbox chooses the best among the runnable ones. -/
theorem Core.select_eq (c : Core) (may : Packet → Bool) :
    c.select may = (c.waiting.filterMap (c.runnableAt may)).foldl better none := rfl

/-- What is chosen from a list, given what stood before, is of these, and none of these has a higher priority. -/
theorem foldl_better {l : List (Fin 32 × Packet × Word)} {b x : Fin 32 × Packet × Word} (h : l.foldl better (some b) = some x) :
    x ∈ b :: l ∧ ∀ y ∈ b :: l, entryPri y.2.2 ≤ entryPri x.2.2 := by
  induction l generalizing b with
  | nil =>
    obtain rfl : b = x := Option.some.inj h
    simp
  | cons a l ih =>
    rw [List.foldl_cons, better] at h
    split at h
    · next hlt =>
      obtain ⟨hmem, hmax⟩ := ih h
      refine ⟨List.mem_cons_of_mem _ hmem, fun y hy => ?_⟩
      obtain rfl | hy := List.mem_cons.1 hy
      · exact hlt.le.trans (hmax a (by simp))
      · exact hmax y hy
    · next hle =>
      obtain ⟨hmem, hmax⟩ := ih h
      refine ⟨?_, fun y hy => ?_⟩
      · obtain rfl | hm := List.mem_cons.1 hmem
        · simp
        · simp [hm]
      · obtain rfl | hy := List.mem_cons.1 hy
        · exact hmax y (by simp)
        · obtain rfl | hy := List.mem_cons.1 hy
          · exact (Nat.not_lt.1 hle).trans (hmax b (by simp))
          · exact hmax y (by simp [hy])

/-- What is chosen from a list is of it, and none of it has a higher priority. -/
theorem foldl_better_none {l : List (Fin 32 × Packet × Word)} {x : Fin 32 × Packet × Word} (h : l.foldl better none = some x) :
    x ∈ l ∧ ∀ y ∈ l, entryPri y.2.2 ≤ entryPri x.2.2 := by
  cases l with
  | nil => exact absurd h nofun
  | cons a l => exact foldl_better (b := a) h

/-- A slot's message is runnable where its governing entry says so. -/
theorem Core.runnableAt_iff {c : Core} {may : Packet → Bool} {i : Fin 32} {x : Fin 32 × Packet × Word} :
    c.runnableAt may i = some x ↔ x.1 = i ∧ c.slots[i.val] = .holds x.2.1 ∧ may x.2.1 = true ∧
      c.governs x.2.1.msg.cls = some x.2.2 ∧ x.2.2.getLsbD 62 = true := by
  obtain ⟨j, p, e⟩ := x
  unfold Core.runnableAt
  cases hs : c.slots[i.val] with
  | holds q =>
    by_cases hm : may q = true
    · simp only [Slot.msg, Option.filter_some, hm, if_true, Option.bind_eq_some_iff, Slot.holds.injEq]
      constructor
      · rintro ⟨f, hf, hsel⟩
        split at hsel
        · next hrun => cases hsel; exact ⟨rfl, rfl, hm, hf, hrun⟩
        · exact absurd hsel nofun
      · rintro ⟨rfl, rfl, -, hf, hrun⟩
        exact ⟨e, hf, if_pos hrun⟩
    · simp only [Slot.msg, Option.filter_some, hm, Slot.holds.injEq]
      refine iff_of_false nofun ?_
      rintro ⟨-, rfl, hy, -⟩
      exact hm hy
  | free => exact iff_of_false nofun nofun
  | reserved => exact iff_of_false nofun nofun
  | landing => exact iff_of_false nofun nofun

/-- The chosen message waits, is runnable and may start, and no other such has a higher priority (R325). -/
theorem Core.select_spec {c : Core} {may : Packet → Bool} {x : Fin 32 × Packet × Word} (h : c.select may = some x) :
    (x.1 ∈ c.waiting ∧ c.runnableAt may x.1 = some x) ∧
      ∀ j ∈ c.waiting, ∀ y, c.runnableAt may j = some y → entryPri y.2.2 ≤ entryPri x.2.2 := by
  rw [Core.select_eq] at h
  obtain ⟨hmem, hmax⟩ := foldl_better_none h
  obtain ⟨i, hi, hrun⟩ := List.mem_filterMap.1 hmem
  refine ⟨?_, fun j hj y hy => hmax y (List.mem_filterMap.2 ⟨j, hj, hy⟩)⟩
  obtain rfl := (Core.runnableAt_iff.1 hrun).1
  exact ⟨hi, hrun⟩

/-- A message waits where it stands in the order and is not pinned. -/
theorem Core.mem_waiting {c : Core} {i : Fin 32} : i ∈ c.waiting ↔ i ∈ c.order ∧ c.pinned ≠ some i := by
  simp [Core.waiting]

end Sys2Proof.Machine
end

section
/-! SUPPORT. The start of a handler: the launch that its unit is of, the state that it begins in, and a start that faults (R35 to R37,
R105, R141, R325, R327). -/
namespace Sys2Proof.Machine

variable {s : State} {k : Nat} {p : Packet}

/-! ## The launch of a handler (R42, R327) -/

/-- A handler's launch n, l before and x once the handler is of it in state t: the launch has gained at most a member, and that where it
listens. -/
structure HandlerLaunch (s : State) (p : Packet) (n : Nat) (l : Launch) (t : State) (x : Launch) : Prop where
  chosen : ∃ counted, s.launchFor p = some (n, counted, t)
  found : mget t.launches n = some x
  others : t = { s with launches := t.launches }
  desc : x.desc = l.desc
  asid : x.asid = l.asid
  vf : x.vf = l.vf
  joined : p.kind = .notify ∨ p.kind = .cross → x.counts.members = l.counts.members + 1

/-- A listener's handler adds its member to the listener launch. -/
theorem HandlerLaunch.of_listener {n : Nat} {l : Launch} (hl : mget s.launches n = some l) (hk : p.kind = .notify ∨ p.kind = .cross)
    (hn : s.listener p = some n) (hroom : l.counts.isFull = false) :
    HandlerLaunch s p n l (s.join n) { l with counts := l.counts.join } := by
  have hcan : s.canJoin n = true := by simp [State.canJoin, hl, hroom]
  refine ⟨⟨true, ?_⟩, ?_, rfl, rfl, rfl, rfl, fun _ => rfl⟩
  · obtain hk | hk := hk <;> simp [State.launchFor, hk, hn, hcan]
  · rw [State.join, mget_mmod_same, hl]
    rfl

/-- Any other handler is of the launch that its message names. -/
theorem HandlerLaunch.of_message {l : Launch} (hl : mget s.launches p.msg.launch = some l)
    (hk : p.kind ≠ .notify ∧ p.kind ≠ .cross) : HandlerLaunch s p p.msg.launch l s l := by
  obtain ⟨hnotify, hcross⟩ := hk
  refine ⟨?_, hl, rfl, rfl, rfl, rfl, fun h => absurd h (not_or.2 ⟨hnotify, hcross⟩)⟩
  unfold State.launchFor
  simp only [hl, Option.isSome_some, if_true]
  split
  · next hx => exact absurd hx hnotify
  · next hx => exact absurd hx hcross
  all_goals exact ⟨_, rfl⟩

/-! ## The state that a handler begins in -/

/-- What a core acquires changes its observed writes alone, and memory. -/
theorem State.acquire_eq (s : State) (k : Nat) (ids : List Nat) : ∃ m o, s.acquire k ids = s ∨
    s.acquire k ids = ({ s with mem := m } : State).setCore k { s.core k with obs := o } := by
  unfold State.acquire
  split
  · exact ⟨s.mem, [], .inl rfl⟩
  · exact ⟨_, _, .inr rfl⟩

/-- The matrix unit's new owner changes the matrix units alone. -/
theorem State.matOwner_eq (s : State) (k asid vf : Nat) : ∃ m u, s.matOwner k asid vf = { s with
    mats := m
    matUnits := u } := by
  unfold State.matOwner
  split
  · exact ⟨s.mats, s.matUnits, rfl⟩
  · exact ⟨_, _, rfl⟩

/-- The state once what a message carries is acquired and the matrix unit has its owner (R265, R348). -/
def State.readied (s : State) (k : Nat) (p : Packet) (x : Launch) : State :=
  (s.acquire k (s.mem.live p.carried)).matOwner k x.asid x.vf

/-- It has the launches, virtual functions and homes that it had. -/
theorem State.readied_keeps (s : State) (k : Nat) (p : Packet) (x : Launch) : (s.readied k p x).launches = s.launches ∧
    (s.readied k p x).vfs = s.vfs ∧ (s.readied k p x).homes = s.homes := by
  unfold State.readied
  obtain ⟨m, u, hu⟩ := (s.acquire k (s.mem.live p.carried)).matOwner_eq k x.asid x.vf
  rw [hu]
  obtain ⟨m, o, ha | ha⟩ := s.acquire_eq k (s.mem.live p.carried) <;> rw [ha] <;> exact ⟨rfl, rfl, rfl⟩

/-- The first state of an activation that a message starts. -/
def State.entered (s : State) (k n : Nat) (counted : Bool) (x : Launch) (i : Fin 32) (p : Packet) (pc : Word) : State :=
  let u := s.readied k p x
  u.setCore k (u.begun k x (entryAct n x p.kind counted pc ((u.core k).regionNo + 1)) (some i))

/-- A handler starts at its class entry, or faults there (R35, R105). -/
theorem State.startHandler_eq {n : Nat} {i : Fin 32} {e : Word} {counted : Bool} {t : State} {x : Launch}
    (hl : s.launchFor p = some (n, counted, t)) (hx : mget t.launches n = some x) : s.startHandler k i p e =
      let pc := (t.readied k p x).startPc x p e
      if pc.getLsbD 0 then (t.entered k n counted x i p pc).faultAt k 3 0 pc else t.entered k n counted x i p pc := by
  unfold State.startHandler
  rw [hl]
  simp only [hx]
  rfl

/-- The PC that a handler starts at is a matter of the homes and of its launch's descriptor. -/
theorem State.startPc_congr {u : State} {l x : Launch} (hhomes : u.homes = s.homes) (hdesc : x.desc = l.desc) (e : Word) :
    u.startPc x p e = s.startPc l p e := by
  unfold State.startPc State.entryAt State.home
  rw [hhomes, hdesc]

/-- A free core without an orphan starts what its inbox selects (R325). -/
theorem handlerStart_selected {i : Fin 32} {e : Word} (hact : (s.core k).act = none) (hbusy : (s.core k).busyFor = none)
    (hpre : (s.core k).preempt = false) (hh : s.held k = false) (horphan : (s.core k).orphan = none)
    (hsel : (s.core k).select (s.mayStart k) = some (i, p, e)) : exec (.handlerStart k) s = .next (s.startHandler k i p e) := by
  change execHandlerStart k s = _
  unfold execHandlerStart
  simp [Core.open, hact, hbusy, hpre, hh, horphan, hsel]

/-- The core of an activation that has just begun: its stack capability apart, the general registers hold 0 (R22, R36). -/
theorem State.entered_core (s : State) (k n : Nat) (counted : Bool) (x : Launch) (i : Fin 32) (p : Packet) (pc : Word) :
    (s.entered k n counted x i p pc).core k =
      (s.readied k p x).begun k x (entryAct n x p.kind counted pc (((s.readied k p x).core k).regionNo + 1)) (some i) :=
  State.core_setCore_same _ _ _

/-- A begun activation's registers: 0, or the stack capability in g2 (R36). -/
theorem State.begun_readG (s : State) (k : Nat) (l : Launch) (a : Act) (slot : Option (Fin 32)) :
    (∀ r : GReg, r ≠ 2 → (s.begun k l a slot).readG r = Reg.data 0) ∧
      (s.begun k l a slot).readG 2 = s.stackCap l.vf k a.slim := by
  refine ⟨fun r hr => ?_, rfl⟩
  have hval : 2 ≠ r.val := fun h => hr (Fin.ext h.symm)
  simp [Core.readG, State.begun, hval]

/-! ## A start that faults (R105, R370) -/

/-- A core whose activation leaves it has none, and keeps FCAUSE and FADDR. -/
theorem Core.leave_fault (c : Core) : c.leave.act = none ∧ c.leave.fcause = c.fcause ∧ c.leave.faddr = c.faddr := by
  unfold Core.leave Core.freePinned Core.dropAllSyms
  dsimp only
  split <;> exact ⟨rfl, rfl, rfl⟩

/-- A release leaves FCAUSE and FADDR alone. -/
theorem Core.SameButMemory.fault {c d : Core} (h : c.SameButMemory d) : d.fcause = c.fcause ∧ d.faddr = c.faddr := by
  unfold Core.SameButMemory at h
  have hcause := congrArg Core.fcause h
  have haddr := congrArg Core.faddr h
  exact ⟨hcause, haddr⟩

/-- After a fault the core has no activation, and FCAUSE and FADDR tell of it. -/
theorem State.core_faultAt {a : Act} (ha : (s.core k).act = some a) (cause detail : Nat) (faddr : Word) (code : Nat) :
    ((s.faultAt k cause detail faddr code).core k).act = none ∧
      ((s.faultAt k cause detail faddr code).core k).fcause = BitVec.ofNat 16 (detail * 256 + cause) ∧
      ((s.faultAt k cause detail faddr code).core k).faddr = addr48 faddr := by
  have hreleased := (reached_release (s.setCore k ((s.core k).caused cause detail faddr)) k).2.2
  rw [State.core_setCore_same] at hreleased
  obtain ⟨hcause, haddr⟩ := hreleased.fault
  rw [State.faultAt_eq ha]
  simp only
  generalize (s.setCore k ((s.core k).caused cause detail faddr)).release k = r at hcause haddr ⊢
  rw [(booked_endUnit _ _ _ _).core, (booked_faultMessage _ _ _ _ _ _).core, State.core_leave]
  obtain ⟨hact, hcause', haddr'⟩ := Core.leave_fault (r.2.core k)
  exact ⟨hact, hcause'.trans hcause, haddr'.trans haddr⟩

/-! ## The start as a whole -/

section
variable {n : Nat} {i : Fin 32} {e pc : Word} {l x : Launch} {t : State}

/-- A handler's virtual functions and homes are those of the state before. -/
theorem HandlerLaunch.keeps (h : HandlerLaunch s p n l t x) : (t.readied k p x).vfs = s.vfs ∧ (t.readied k p x).homes = s.homes := by
  obtain ⟨-, hvfs, hhomes⟩ := t.readied_keeps k p x
  exact ⟨hvfs.trans (h.others ▸ rfl), hhomes.trans (h.others ▸ rfl)⟩

/-- A handler starts at its PC, or faults there. -/
theorem HandlerLaunch.startHandler_eq (h : HandlerLaunch s p n l t x) (hpc : s.startPc l p e = pc) : ∃ counted : Bool,
    s.startHandler k i p e = if pc.getLsbD 0 then (t.entered k n counted x i p pc).faultAt k 3 0 pc
      else t.entered k n counted x i p pc := by
  obtain ⟨counted, hchosen⟩ := h.chosen
  have hstart := State.startPc_congr (p := p) (h.keeps (k := k)).2 h.desc e
  exact ⟨counted, (State.startHandler_eq hchosen h.found).trans (by rw [hstart, hpc])⟩

/-- A handler that has begun has the stack of its launch's descriptor in the slice of core k (R22, R36). -/
theorem HandlerLaunch.entered_stack (h : HandlerLaunch s p n l t x) (counted : Bool) :
    (((t.entered k n counted x i p pc).core k).readG 2).tag = .cap ∧
      (((t.entered k n counted x i p pc).core k).readG 2).value = BitVec.ofNat 64 ((s.vf l.vf).swb + k * 2 ^ 18 + 0x40000) ∧
      ((t.entered k n counted x i p pc).core k).splo =
        BitVec.ofNat 64 ((s.vf l.vf).swb + k * 2 ^ 18 + 0x40000 - l.desc.carve * 1024) := by
  have hva : (t.readied k p x).sliceVa x.vf k = (s.vf l.vf).swb + k * 2 ^ 18 := by
    rw [State.sliceVa, State.vf, h.keeps.1, h.vf]
    rfl
  rw [State.entered_core, (State.begun_readG _ _ _ _ _).2, ← hva, ← h.desc]
  exact ⟨rfl, rfl, rfl⟩

end

/-- A selected message whose launch is over leaves its slot, and nothing runs (R325, R327). -/
theorem State.core_startHandler_none {i : Fin 32} {e : Word} (h : s.launchFor p = none) :
    (s.startHandler k i p e).core k = (s.core k).freeSlot i := by
  have heq : s.startHandler k i p e = (s.setCore k ((s.core k).freeSlot i)).discard k p := by
    unfold State.startHandler
    rw [h]
  rw [heq, State.core, ((s.setCore k ((s.core k).freeSlot i)).discard_keeps k p).1]
  exact State.core_setCore_same _ _ _

end Sys2Proof.Machine
end

section
/-! SUPPORT. The time of parking, and what a multicast does at a router (R332, R335). -/
namespace Sys2Proof.Machine

variable {s : State}

/-! ## PARKING_TIMEOUT (R332) -/

/-- A message of a dome has stayed parked for 2^20 rc. -/
def Flight.late (d rc : Nat) (f : Flight) : Bool :=
  match f.travel with
  | .parked t => domeOf f.packet.msg.dest == d && decide (t + 2 ^ 20 ≤ rc)
  | .link | .placed _ => false

/-- The core of a message that has stayed parked for too long is asked to be pre-empted; no message is lost. -/
theorem parkingTimeout_late {d : Nat} {f : Flight} (hf : s.flights.find? (Flight.late d s.rc) = some f) : ∃ t : State,
    exec (.parkingTimeout d) s = .next t ∧ (t.core f.packet.msg.dest).preempt = true ∧
      t.flights.map (·.packet) = s.flights.map (·.packet) ∧ t.mem = s.mem := by
  let t : State := { s with flights := s.flights.map fun e => if e == f then { e with travel := .parked s.rc } else e }
  let u := (t.count (.parkTimeout f.packet.msg.dest)).note f.packet.msg.dest .park [f.packet.msg.src, f.packet.msg.cls]
  refine ⟨u.setCore f.packet.msg.dest { u.core f.packet.msg.dest with preempt := true }, ?_, ?_, ?_, rfl⟩
  · change execParkingTimeout d s = _
    unfold execParkingTimeout
    change (match s.flights.find? (Flight.late d s.rc) with | none => _ | some f => _) = _
    rw [hf]
  · rw [State.core_setCore_same]
  · change (s.flights.map fun e => if e == f then { e with travel := .parked s.rc } else e).map (·.packet) = _
    rw [List.map_map]
    refine List.map_congr_left fun e _ => ?_
    rw [Function.comp_apply]
    split <;> rfl

/-- The first late one of the flights, those before it not being late. -/
theorem find_late {d since : Nat} {f : Flight} {before after : List Flight} (hfl : s.flights = before ++ f :: after)
    (ht : f.travel = .parked since) (hd : f.packet.msg.dest / 128 = d) (hlate : since + 2 ^ 20 ≤ s.rc)
    (hbefore : ∀ g ∈ before, ∀ x, g.travel = .parked x → g.packet.msg.dest / 128 = d → s.rc < x + 2 ^ 20) :
    s.flights.find? (Flight.late d s.rc) = some f := by
  rw [hfl, List.find?_append, List.find?_eq_none.2, Option.none_or, List.find?_cons_of_pos]
  · rw [Flight.late, ht]
    exact Bool.and_eq_true_iff.2 ⟨beq_iff_eq.2 hd, decide_eq_true hlate⟩
  · intro g hg
    unfold Flight.late
    split
    · next x hx =>
      have hearly := hbefore g hg x hx
      simp only [domeOf, Bool.and_eq_true, beq_iff_eq, decide_eq_true_eq, not_and, Nat.not_le]
      exact hearly
    · exact Bool.false_ne_true
    · exact Bool.false_ne_true

/-! ## The copies of a multicast (R335) -/

/-- The place of the one member of a list that meets a condition. -/
theorem findIdx_middle {α : Type} {f : α → Bool} {before after : List α} {c : α} (hc : f c = true)
    (hbefore : ∀ b ∈ before, f b = false) : (before ++ c :: after).findIdx? f = some before.length := by
  induction before with
  | nil => simp [List.findIdx?_cons, hc]
  | cons b before ih =>
    rw [List.cons_append, List.findIdx?_cons, hbefore b (by simp), ih fun x hx => hbefore x (by simp [hx])]
    rfl

/-- Multicast n with other copies, of which there are some. -/
theorem State.multi_setCopies {n : Nat} {x : Multicast} {l : List McCopy} (hx : s.multis[n]? = some x) (hl : l ≠ []) :
    (s.setCopies n x l).multis[n]? = some { x with copies := l } := by
  simp [State.setCopies, hl, List.getElem?_zipIdx, hx]

/-- A multicast with the copies that it has is as it was. -/
theorem State.setCopies_self {n : Nat} {x : Multicast} (hx : s.multis[n]? = some x) (hl : x.copies ≠ []) :
    s.setCopies n x x.copies = s := by
  have hm : (s.multis.zipIdx.map fun y => if y.2 = n then { x with copies := x.copies } else y.1) = s.multis := by
    refine List.ext_getElem? fun m => ?_
    rw [List.getElem?_map, List.getElem?_zipIdx, Option.map_map]
    cases hm : s.multis[m]? with
    | none => rfl
    | some y =>
      by_cases hmn : m = n
      · subst hmn
        obtain rfl : y = x := Option.some.inj (hm.symm.trans hx)
        simp
      · simp [hmn]
  unfold State.setCopies
  rw [if_neg (by simpa using hl), hm]

/-- A router's room is a matter of the copies that it holds. -/
theorem State.mcRoom_iff (s : State) (e : Nat) : s.mcRoom e = true ↔
    (s.multis.map fun m => (m.copies.filter fun c => !c.queued && c.node == e).length).sum < 8 := decide_eq_true_iff

/-- A multicast in the outbound queue takes a free buffer of its router, or waits. -/
theorem multicastForward_queued {n d : Nat} {x : Multicast} {before after : List McCopy} {left : List Nat}
    (hx : s.multis[n]? = some x) (hc : x.copies = before ++ ⟨d, true, left⟩ :: after) (hother : ∀ c ∈ before ++ after, c.node ≠ d) :
    exec (.multicastForward n d) s =
      if s.mcRoom d then .next (s.setCopies n x (before ++ ⟨d, false, left⟩ :: after)) else .next s := by
  have hnone : x.copies.findIdx? (fun c => c.node == d && !c.queued) = none := by
    rw [List.findIdx?_eq_none_iff, hc]
    intro c hmem
    obtain hb | hmem := List.mem_append.1 hmem
    · simp [hother c (by simp [hb])]
    · obtain rfl | ha := List.mem_cons.1 hmem
      · simp
      · simp [hother c (by simp [ha])]
  have hsome : x.copies.findIdx? (fun c => c.node == d) = some before.length := by
    rw [hc]
    exact findIdx_middle (by simp) fun b hb => by simp [hother b (by simp [hb])]
  change execMulticastForward n d s = _
  unfold execMulticastForward
  rw [hc] at hnone hsome
  simp only [hx, hc, hnone, hsome]
  simp

/-- A copy in a buffer serves the members of its dome, and goes on for the others. -/
theorem multicastForward_accepted {n d : Nat} {x : Multicast} {before after : List McCopy} {left : List Nat}
    (hx : s.multis[n]? = some x) (hc : x.copies = before ++ ⟨d, false, left⟩ :: after) (hother : ∀ c ∈ before ++ after, c.node ≠ d) :
    exec (.multicastForward n d) s =
      let r := State.replicas x.packet (left.filter fun k => domeOf k == d) s
      .next (r.2.setCopies n x (before ++ r.2.mcCopies x.route d (r.1 ++ left.filter fun k => domeOf k != d) ++ after)) := by
  have hsome : x.copies.findIdx? (fun c => c.node == d && !c.queued) = some before.length := by
    rw [hc]
    exact findIdx_middle (by simp) fun b hb => by simp [hother b (by simp [hb])]
  change execMulticastForward n d s = _
  unfold execMulticastForward
  rw [hc] at hsome
  simp only [hx, hc, hsome]
  simp

end Sys2Proof.Machine
end

section
/-! SUPPORT. The branches of a multicast, and its replica for a member of the router's dome (R335). -/
namespace Sys2Proof.Machine

variable {s : State}

/-! ## Branches -/

/-- The next router of a multicast on its way from dome d to a member. -/
def State.mcHop (s : State) (cls d k : Nat) : Nat := if domeOf k = d then d else s.mcNext cls d (domeOf k)

/-- A member's copy stays at dome d: it is of that dome, or the next router has no free buffer. -/
def State.mcStays (s : State) (cls d k : Nat) : Bool := s.mcHop cls d k == d || !s.mcRoom (s.mcHop cls d k)

/-- The routers that copies go to. -/
def State.mcHops (s : State) (cls d : Nat) (left : List Nat) : List Nat :=
  ((left.filter (!s.mcStays cls d ·)).map (s.mcHop cls d)).eraseDups

/-- The members that the copy to a router is for. -/
def State.mcBranch (s : State) (cls d : Nat) (left : List Nat) (h : Nat) : List Nat :=
  left.filter fun k => !s.mcStays cls d k && s.mcHop cls d k == h

/-- The copies: what stays, if anything does, and one on each branch. -/
theorem State.mcCopies_eq (s : State) (cls d : Nat) (left : List Nat) : s.mcCopies cls d left =
    (if (left.filter (s.mcStays cls d)).isEmpty then [] else [⟨d, false, left.filter (s.mcStays cls d)⟩]) ++
      (s.mcHops cls d left).map fun h => ⟨h, false, s.mcBranch cls d left h⟩ := rfl

/-- The members of a copy that stays, if there is one. -/
theorem flatMap_left_kept (d : Nat) (kept : List Nat) :
    (if kept.isEmpty then [] else [⟨d, false, kept⟩] : List McCopy).flatMap (·.left) = kept := by
  cases kept <;> simp

/-- The members of all copies. -/
theorem State.left_mcCopies (s : State) (cls d : Nat) (left : List Nat) : (s.mcCopies cls d left).flatMap (·.left) =
    left.filter (s.mcStays cls d) ++ (s.mcHops cls d left).flatMap (s.mcBranch cls d left) := by
  rw [State.mcCopies_eq, List.flatMap_append, flatMap_left_kept, List.flatMap_map]

/-- Whom a branch is for. -/
theorem State.mem_mcBranch {cls d h k : Nat} {left : List Nat} :
    k ∈ s.mcBranch cls d left h ↔ k ∈ left ∧ s.mcStays cls d k = false ∧ s.mcHop cls d k = h := by
  simp [State.mcBranch]

/-- Where the branches lead. -/
theorem State.mem_mcHops {cls d h : Nat} {left : List Nat} :
    h ∈ s.mcHops cls d left ↔ ∃ k ∈ left, s.mcStays cls d k = false ∧ s.mcHop cls d k = h := by
  simp [State.mcHops, List.mem_eraseDups, and_assoc]

/-- Every member is still to be reached by some copy, and no other core. -/
theorem State.mem_left_mcCopies (s : State) (cls d : Nat) (left : List Nat) (k : Nat) :
    k ∈ (s.mcCopies cls d left).flatMap (·.left) ↔ k ∈ left := by
  rw [State.left_mcCopies, List.mem_append, List.mem_flatMap]
  constructor
  · rintro (hk | ⟨h, -, hk⟩)
    · exact List.mem_of_mem_filter hk
    · exact (State.mem_mcBranch.1 hk).1
  · intro hk
    cases hstays : s.mcStays cls d k with
    | true => exact .inl (List.mem_filter.2 ⟨hk, hstays⟩)
    | false => exact .inr ⟨_, State.mem_mcHops.2 ⟨k, hk, hstays, rfl⟩, State.mem_mcBranch.2 ⟨hk, hstays, rfl⟩⟩

/-- A list with its repetitions erased repeats nothing. -/
theorem nodup_eraseDups (l : List Nat) : l.eraseDups.Nodup := by
  match l with
  | [] => simp
  | a :: l =>
    rw [List.eraseDups_cons, List.nodup_cons]
    exact ⟨by simp [List.mem_eraseDups], nodup_eraseDups _⟩
termination_by l.length
decreasing_by exact Nat.lt_succ_of_le (List.length_filter_le _ _)

/-- No member is reached by two copies. -/
theorem State.nodup_left_mcCopies (s : State) (cls d : Nat) {left : List Nat} (hl : left.Nodup) :
    ((s.mcCopies cls d left).flatMap (·.left)).Nodup := by
  rw [State.left_mcCopies, List.nodup_append']
  refine ⟨hl.filter _, List.nodup_flatMap.2 ⟨fun h _ => hl.filter _, ?_⟩, ?_⟩
  · refine List.Pairwise.imp ?_ (nodup_eraseDups _)
    intro a b hab k ha hb
    exact hab ((State.mem_mcBranch.1 ha).2.2.symm.trans (State.mem_mcBranch.1 hb).2.2)
  · intro k hkept hbranch
    obtain ⟨h, -, hk⟩ := List.mem_flatMap.1 hbranch
    have hstays : s.mcStays cls d k = true := (List.mem_filter.1 hkept).2
    exact Bool.false_ne_true ((State.mem_mcBranch.1 hk).2.1.symm.trans hstays)

/-- With members left there are copies. -/
theorem State.mcCopies_ne_nil (s : State) (cls d : Nat) {left : List Nat} (hl : left ≠ []) : s.mcCopies cls d left ≠ [] := by
  intro hnil
  obtain ⟨k, hk⟩ := List.exists_mem_of_ne_nil left hl
  have hmem := (s.mem_left_mcCopies cls d left k).2 hk
  rw [hnil] at hmem
  exact absurd hmem (by simp)

/-- With no member left there are none. -/
theorem State.mcCopies_nil (s : State) (cls d : Nat) : s.mcCopies cls d [] = [] := rfl

/-- A member of the dome keeps its copy. -/
theorem State.mcCopies_own (s : State) (cls : Nat) {d k : Nat} (hk : domeOf k = d) : s.mcCopies cls d [k] = [⟨d, false, [k]⟩] := by
  have hstays : s.mcStays cls d k = true := by simp [State.mcStays, State.mcHop, hk]
  rw [State.mcCopies_eq, State.mcHops]
  simp [hstays]

/-- In dimension order each copy is for one dome with room, or stays for want of it (R328). -/
theorem State.mcCopies_dimension {cls d : Nat} {left : List Nat} (hroute : s.route d cls = .dimension)
    (hout : ∀ k ∈ left, domeOf k ≠ d) {c : McCopy} (hc : c ∈ s.mcCopies cls d left) : c.queued = false ∧
      ((c.node = d ∧ ∀ k ∈ c.left, s.mcRoom (domeOf k) = false) ∨
        (s.mcRoom c.node = true ∧ ∀ k ∈ c.left, domeOf k = c.node)) := by
  have hhop : ∀ k ∈ left, s.mcHop cls d k = domeOf k := fun k hk => by
    simp [State.mcHop, hout k hk, State.mcNext, hroute]
  have hstays : ∀ k ∈ left, s.mcStays cls d k = !s.mcRoom (domeOf k) := fun k hk => by
    simp [State.mcStays, hhop k hk, hout k hk]
  rw [State.mcCopies_eq, List.mem_append] at hc
  obtain hkept | hbranch := hc
  · split at hkept
    · exact absurd hkept (by simp)
    · obtain rfl := List.mem_singleton.1 hkept
      refine ⟨rfl, .inl ⟨rfl, fun k hk => ?_⟩⟩
      obtain ⟨hmem, hs⟩ := List.mem_filter.1 hk
      simpa [hstays k hmem] using hs
  · obtain ⟨h, hh, rfl⟩ := List.mem_map.1 hbranch
    refine ⟨rfl, .inr ⟨?_, fun k hk => ?_⟩⟩
    · obtain ⟨k, hk, hs, rfl⟩ := State.mem_mcHops.1 hh
      rw [hstays k hk] at hs
      rw [hhop k hk]
      simpa using hs
    · obtain ⟨hmem, -, hnode⟩ := State.mem_mcBranch.1 hk
      exact (hhop k hmem).symm.trans hnode

/-- A copy with members of other domes alone forwards to the branches, and changes nothing besides. -/
theorem multicastForward_away {n d : Nat} {x : Multicast} {before after : List McCopy} {left : List Nat}
    (hx : s.multis[n]? = some x) (hc : x.copies = before ++ ⟨d, false, left⟩ :: after) (hother : ∀ c ∈ before ++ after, c.node ≠ d)
    (hout : ∀ k ∈ left, domeOf k ≠ d) (hleft : left ≠ []) : ∃ t : State, exec (.multicastForward n d) s = .next t ∧
      t.flights = s.flights ∧ t.cores = s.cores ∧
      t.multis[n]? = some { x with copies := before ++ s.mcCopies x.route d left ++ after } := by
  have hexec := multicastForward_accepted hx hc hother
  have hown : (left.filter fun k => domeOf k == d) = [] := List.filter_eq_nil_iff.2 fun k hk => by simp [hout k hk]
  have hall : (left.filter fun k => domeOf k != d) = left := List.filter_eq_self.2 fun k hk => by simp [hout k hk]
  simp only [hown, hall, State.replicas, List.nil_append] at hexec
  exact ⟨_, hexec, rfl, rfl, State.multi_setCopies hx (by simp [s.mcCopies_ne_nil x.route d hleft])⟩

/-! ## The replica for a member -/

/-- A copy with one member left, of the router's dome: with its replica the multicast is over, and without it stays as it is. -/
theorem multicastForward_last {n d k : Nat} {x : Multicast} (hx : s.multis[n]? = some x) (hc : x.copies = [⟨d, false, [k]⟩])
    (hk : domeOf k = d) : exec (.multicastForward n d) s = match s.replica x.packet k with
      | some t => .next { t with multis := dropAt t.multis n }
      | none => .next s := by
  have hexec := multicastForward_accepted (before := []) (after := []) hx hc (by simp)
  have hown : ([k].filter fun k => domeOf k == d) = [k] := by simp [hk]
  have hnone : ([k].filter fun k => domeOf k != d) = [] := by simp [hk]
  simp only [hown, hnone] at hexec
  rw [hexec, State.replicas]
  cases s.replica x.packet k with
  | some t => rfl
  | none =>
    simp only [State.replicas, List.append_nil, List.nil_append]
    rw [State.mcCopies_own _ _ hk, ← hc, State.setCopies_self hx (by simp [hc])]

/-- The message that a member receives. -/
def Packet.replicaFor (p : Packet) (k : Nat) : Packet := { p with msg := { p.msg with dest := k } }

/-- Outside the partition it is dropped (R55). -/
theorem State.replica_outside {p : Packet} {k : Nat} (h : s.inPartition p.vf k = false) :
    s.replica p k = some (s.undelivered (p.replicaFor k)) := by
  unfold State.replica
  simp only [h]
  rfl

section
variable {p : Packet} {k : Nat} (hin : s.inPartition p.vf k = true) (hh : s.held k = false)
include hin hh

/-- It takes the free slot that it finds, where none is parked. -/
theorem State.replica_free {i : Fin 32} (hi : (s.core k).freeFor false = some i) (hnone : s.NoneParked) :
    s.replica p k = some (s.deliver k i (p.replicaFor k)) := by
  unfold State.replica
  simp only [hin, hh, hi, hnone.parkedFor]
  rfl

/-- It parks where it finds none. -/
theorem State.replica_full (hi : (s.core k).freeFor false = none) : s.replica p k =
    if s.parkedIn (domeOf k) < 32 then some { s with flights := s.flights ++ [⟨p.replicaFor k, .parked s.rc⟩] } else none := by
  unfold State.replica
  simp only [hin, hh, hi]
  rfl

end

/-- A message whose class is governed leaves the multicasts alone. -/
theorem State.multis_deliver {k : Nat} {i : Fin 32} {p : Packet} (hg : Governed (s.core k) p) : (s.deliver k i p).multis = s.multis := by
  obtain ⟨e, he⟩ := Option.isSome_iff_exists.1 (Core.governs_isSome.2 hg)
  unfold State.deliver State.accept State.delivered State.count
  rw [he]
  simp only
  split <;> split <;> rfl

/-- A message dropped leaves the multicasts alone. -/
theorem State.multis_undelivered (s : State) (p : Packet) : (s.undelivered p).multis = s.multis := by
  have hcount := (booked_count s (.dropped p.msg.src) 1).get State.multis
  unfold State.undelivered
  simp only
  split
  · exact ((booked_endMember (s.count (.dropped p.msg.src)) p.msg.launch .cancelled []).get State.multis).trans hcount
  · exact hcount

section
variable {n d k : Nat} {x : Multicast} (hx : s.multis[n]? = some x) (hc : x.copies = [⟨d, false, [k]⟩]) (hk : domeOf k = d)
include hx hc hk

/-- The last member is outside the partition: nobody receives the message. -/
theorem multicastForward_outside (hin : s.inPartition x.packet.vf k = false) : ∃ t : State,
    (exec (.multicastForward n d) s = .next t ∧ t.multis = dropAt s.multis n) ∧ t.flights.take s.flights.length = s.flights ∧
      t.cores = s.cores := by
  have hexec := multicastForward_last hx hc hk
  rw [State.replica_outside hin] at hexec
  obtain ⟨hcores, hflights⟩ := s.undelivered_keeps (x.packet.replicaFor k)
  exact ⟨_, ⟨hexec, congrArg (dropAt · n) (s.multis_undelivered _)⟩, (List.prefix_iff_eq_take.1 hflights).symm, hcores⟩

variable (hin : s.inPartition x.packet.vf k = true) (hh : s.held k = false)
include hin hh

/-- The last member has a free slot: the message stands there. -/
theorem multicastForward_inSlot {i : Fin 32} (hi : LowestFree (s.core k) i 0 28) (hnone : s.NoneParked)
    (hg : Governed (s.core k) (x.packet.replicaFor k)) : ∃ t : State,
    (exec (.multicastForward n d) s = .next t ∧ t.multis = dropAt s.multis n) ∧ InSlot s t (x.packet.replicaFor k) i := by
  have hexec := multicastForward_last hx hc hk
  rw [State.replica_free hin hh (freeFor_ordinary_of_lowest hi) hnone] at hexec
  exact ⟨_, ⟨hexec, congrArg (dropAt · n) (State.multis_deliver hg)⟩,
    inSlot_of_core (State.deliver_governed (p := x.packet.replicaFor k) hg).1 rfl rfl⟩

variable (hfull : ∀ j : Fin 32, j.val < 28 → (s.core k).slots[j.val] ≠ .free)
include hfull

/-- The last member has no free slot: the message parks where there is room. -/
theorem multicastForward_parks (hpark : s.parkedIn d < 32) : ∃ t : State,
    (exec (.multicastForward n d) s = .next t ∧ t.multis = dropAt s.multis n) ∧
      t.flights = s.flights ++ [⟨x.packet.replicaFor k, .parked s.rc⟩] ∧ t.cores = s.cores := by
  have hexec := multicastForward_last hx hc hk
  rw [State.replica_full hin hh (Core.freeFor_ordinary_full hfull), hk, if_pos hpark] at hexec
  exact ⟨_, ⟨hexec, rfl⟩, rfl, rfl⟩

/-- With neither slot nor room to park the copy stays where it is. -/
theorem multicastForward_waits (hpark : 32 ≤ s.parkedIn d) : exec (.multicastForward n d) s = .next s := by
  have hexec := multicastForward_last hx hc hk
  rw [State.replica_full hin hh (Core.freeFor_ordinary_full hfull), hk, if_neg (Nat.not_lt.2 hpark)] at hexec
  exact hexec

end

end Sys2Proof.Machine
end

section
/-! SUPPORT. How the packets of a round merge on their way to the root, and the result that the root forms (R336, R337). -/
namespace Sys2Proof.Machine

variable {s : State}

/-! ## The node that a packet reaches -/

/-- What a node holds once a packet has reached it. -/
def Round.merged (r : Round) (op fmt : Nat) (p : Part) : Part :=
  match mget r.held p.node with
  | some x => x.merge op fmt p
  | none => { p with src := none }

/-- A packet on its way to the next node of its tree. -/
def State.partUp (s : State) (route top : Nat) (q : Part) : Part := { q with node := s.treeNext route top q.node }

/-- What becomes of what a node holds once the i-th packet of the n-th round has reached it: it stays, moves up or is the result. -/
def State.mergeEnd (s : State) (n : Nat) (r : Round) (vf route root cls pri nw l : Nat) (contrib : List Nat) (i : Nat) (q : Part) : State :=
  let full := s.nodeFull route (domeOf root) contrib q
  if q.node = domeOf root then
    if full then s.draw.rootResult r q vf root cls pri nw l true
    else s.draw.setRound n { r with
      parts := dropAt r.parts i
      held := mput r.held (domeOf root) q }
  else if full || r.abandoned then
    s.draw.setRound n { r with
      parts := dropAt r.parts i ++ [s.partUp route (domeOf root) q]
      held := mdel r.held q.node }
  else s.draw.setRound n { r with
    parts := dropAt r.parts i
    held := mput r.held q.node q }

section
variable {n i : Nat} {r : Round} {vf route root cls pri nw l : Nat} {contrib : List Nat} {q : Part}

/-- At the root a full packet is the result. -/
theorem State.mergeEnd_result (hn : q.node = domeOf root) (hf : s.nodeFull route (domeOf root) contrib q = true) :
    s.mergeEnd n r vf route root cls pri nw l contrib i q = s.draw.rootResult r q vf root cls pri nw l true :=
  (if_pos hn).trans (if_pos hf)

/-- At the root a packet that is not full waits. -/
theorem State.mergeEnd_root (hn : q.node = domeOf root) (hf : ¬ s.nodeFull route (domeOf root) contrib q = true) :
    s.mergeEnd n r vf route root cls pri nw l contrib i q = s.draw.setRound n { r with
      parts := dropAt r.parts i
      held := mput r.held (domeOf root) q } :=
  (if_pos hn).trans (if_neg hf)

/-- Below the root a packet that is full, or of an abandoned round, moves up. -/
theorem State.mergeEnd_up (hn : q.node ≠ domeOf root)
    (hf : s.nodeFull route (domeOf root) contrib q = true ∨ r.abandoned = true) :
    s.mergeEnd n r vf route root cls pri nw l contrib i q = s.draw.setRound n { r with
      parts := dropAt r.parts i ++ [s.partUp route (domeOf root) q]
      held := mdel r.held q.node } :=
  (if_neg hn).trans (if_pos (Bool.or_eq_true_iff.2 hf))

/-- Below the root any other packet waits. -/
theorem State.mergeEnd_waits (hn : q.node ≠ domeOf root) (hf : ¬ s.nodeFull route (domeOf root) contrib q = true)
    (hab : r.abandoned = false) : s.mergeEnd n r vf route root cls pri nw l contrib i q = s.draw.setRound n { r with
      parts := dropAt r.parts i
      held := mput r.held q.node q } :=
  (if_neg hn).trans (if_neg (by simp [hf, hab]))

end

/-- A round of which packets are on their way: one of them reaches its node. -/
theorem reductionMerge_part {n : Nat} {r : Round} {vf route root cls pri op fmt nw l : Nat} {contrib : List Nat}
    (hr : s.rounds[n]? = some r) (hg : mget s.groups r.group = some (.reduction vf route contrib root cls pri op fmt nw l))
    (hopen : s.roundOpen r = true) (hparts : r.parts ≠ []) : ∃ i p, r.parts[i]? = some p ∧
      exec (.reductionMerge n) s = .next (s.mergeEnd n r vf route root cls pri nw l contrib i (r.merged op fmt p)) := by
  have hi : Config.freeNat s.fresh % r.parts.length < r.parts.length := Nat.mod_lt _ (List.length_pos_iff.2 hparts)
  have hp := List.getElem?_eq_getElem hi
  refine ⟨_, _, hp, ?_⟩
  change execReductionMerge n s = _
  unfold execReductionMerge
  simp only [hr, hg, hopen, if_true, hp, State.mergeEnd, apply_ite Host.Outcome.next]
  rfl

/-- An abandoned round that only the root holds something of becomes the result as it is (R337). -/
theorem reductionMerge_abandoned {n : Nat} {r : Round} {vf route root cls pri op fmt nw l : Nat} {contrib : List Nat} {q : Part}
    (hr : s.rounds[n]? = some r) (hg : mget s.groups r.group = some (.reduction vf route contrib root cls pri op fmt nw l))
    (hopen : s.roundOpen r = true) (hparts : r.parts = []) (hab : r.abandoned = true) (hheld : r.held = [(domeOf root, q)]) :
    exec (.reductionMerge n) s = .next (s.rootResult r q vf root cls pri nw l false) := by
  change execReductionMerge n s = _
  unfold execReductionMerge
  simp [hr, hg, hopen, hparts, hab, hheld, mget]

/-- A node is full where each contributor is included or does not pass it. -/
theorem State.nodeFull_iff (s : State) (route top : Nat) (contrib : List Nat) (q : Part) : s.nodeFull route top contrib q = true ↔
    ∀ j c : Nat, contrib[j]? = some c → q.mask.getLsbD j = true ∨ q.node ∉ s.treePath route top 64 (c / 128) := by
  unfold State.nodeFull
  rw [List.all_eq_true]
  constructor
  · intro h j c hj
    have hc := h (c, j) (List.mem_zipIdx_iff_getElem?.2 hj)
    simpa [domeOf] using hc
  · rintro h ⟨c, j⟩ hc
    have hj := h j c (List.mem_zipIdx_iff_getElem?.1 hc)
    simpa [domeOf] using hj

/-- A round replaced is read as what replaced it. -/
theorem State.round_setRound {n : Nat} {r x : Round} (hr : s.rounds[n]? = some r) : (s.setRound n x).rounds[n]? = some x := by
  simp [State.setRound, List.getElem?_zipIdx, hr]

/-- The next node is what the routes say, else the root's. -/
theorem State.treeNext_eq (s : State) (route top d : Nat) : s.treeNext route top d =
    match mget s.routes (64 * d + route) with
    | some (.treeUp _ next) => next
    | _ => top := by
  unfold State.treeNext State.route
  cases mget s.routes (64 * d + route) with
  | none => rfl
  | some x => cases x <;> rfl

/-! ## The result (R336, R337) -/

/-- The words of a result: those of the round, zeros, and the mask of the contributors. -/
theorem payload_result (f : Nat → Word) (mask : BitVec 64) (nw : Nat) (i : Fin 6) :
    (payload (((List.range 5).map fun i => if i < nw then f i else 0) ++ [mask]))[i.val] =
      if i.val = 5 then mask else if i.val < nw then f i.val else 0 := by
  rw [payload, Vector.getElem_ofFn]
  by_cases h5 : i.val = 5
  · simp [h5]
  · have hlt : i.val < 5 := by omega
    simp [h5, hlt]

/-- The message of a result. -/
def State.resultMsg (s : State) (r : Round) (q : Part) (root cls pri nw l : Nat) (full : Bool) : Msg :=
  { s.message root (0x1000 + r.group) pri cls l 0x10
      (((List.range 5).map fun i => if i < nw then q.words.getD i 0 else 0) ++ [q.mask]) with incomplete := !full }

/-- Where the root is of the partition, the result is sent, its round is over, and its launch is held no longer. -/
theorem State.rootResult_eq {r : Round} {q : Part} {vf root cls pri nw l : Nat} (full : Bool) (hin : s.inPartition vf root = true) :
    ∃ (u : State) (p : Packet), s.rootResult r q vf root cls pri nw l full = (u.post p).unpin l ∧
      u.rounds = s.rounds.filter (fun x => !(x.group == r.group && x.round == r.round)) ∧ p.kind = .root r.group ∧
      p.msg = s.resultMsg r q root cls pri nw l full := by
  unfold State.rootResult
  cases s.canJoin l
  · exact ⟨_, _, congrArg (State.unpin · l) (if_pos hin), rfl, rfl, rfl⟩
  · exact ⟨_, _, congrArg (State.unpin · l) (if_pos hin), rfl, rfl, rfl⟩

/-- The root's result is a message for it, and the round is over. -/
theorem State.rootResult_spec {r : Round} {q : Part} {vf root cls pri nw l : Nat} (full : Bool)
    (hin : s.inPartition vf root = true) :
    (∀ y ∈ (s.rootResult r q vf root cls pri nw l full).rounds, y.group = r.group → y.round ≠ r.round) ∧
      ∃ f ∈ (s.rootResult r q vf root cls pri nw l full).flights, f.packet.kind = .root r.group ∧ f.packet.msg.dest = root ∧
        f.packet.msg.cls = cls ∧ f.packet.msg.incomplete = !full ∧ ∀ i : Fin 6, f.packet.msg.m[i.val] =
          if i.val = 5 then q.mask else if i.val < nw then q.words.getD i.val 0 else 0 := by
  obtain ⟨u, p, heq, hrounds, hkind, hmsg⟩ := State.rootResult_eq (s := s) (r := r) (q := q) (cls := cls) (pri := pri) (nw := nw)
    (l := l) full hin
  have hbooked := booked_unpin (u.post p) l
  rw [heq]
  refine ⟨fun y hy hgroup hround => ?_, ⟨p, .link⟩, hbooked.2 _ (by simp [State.post]), hkind, by rw [hmsg]; rfl,
    by rw [hmsg]; rfl, by rw [hmsg]; rfl, fun i => ?_⟩
  · have hy : y ∈ u.rounds := (hbooked.get State.rounds) ▸ hy
    rw [hrounds] at hy
    simpa [hgroup, hround] using (List.mem_filter.1 hy).2
  · change p.msg.m[i.val] = _
    rw [hmsg]
    exact payload_result (fun i => q.words.getD i 0) q.mask nw i

end Sys2Proof.Machine
end

section
namespace Sys2Proof.Settled
open Machine

/-- Settles O47: each step of a message by what it answers, from the lemmas about arrivals, the start of handlers, multicasts and rounds. -/
theorem messageSteps : Obligations.MessageSteps := by
  unfold Obligations.MessageSteps
  refine ⟨?_, ?_, ?_, ?_, ?_, ?_, ?_, ?_, ?_, ?_⟩
  · intro s p rest hfl hnone
    refine ⟨fun hh => messageArrival_held (f := ⟨p, .link⟩) (by rw [hfl]; rfl) hh, fun hh => ⟨fun hserves hspawn => ?_,
      fun i hplain hi hserves => ?_, fun i hk hi hserves hg => ?_, fun hplain hserves hfull => ?_, fun hk hserves hfull => ?_, ?_⟩⟩
    · exact arrival_unserved hfl hnone hh hspawn hserves
    · obtain ⟨hspecial, hspawn, -, -⟩ := MsgKind.plain_cases hplain
      have hfree : (s.core p.msg.dest).freeFor p.kind.special = some i := hspecial ▸ (freeFor_ordinary_of_lowest hi)
      by_cases hg : Governed (s.core p.msg.dest) p
      · obtain ⟨t, hexec, hflights, hslot⟩ := arrival_inSlot hfl hnone hh hspawn hserves hfree hg
        exact ⟨t, hexec, by rw [hflights, List.take_length], fun _ => hslot, fun hn => absurd hg hn⟩
      · obtain ⟨t, hexec, hflights, hcores⟩ := arrival_discarded hfl hnone hh hserves hplain (freeFor_ordinary_of_lowest hi) hg
        refine ⟨t, hexec, (List.prefix_iff_eq_take.1 hflights).symm, fun hy => absurd hy hg, fun _ => ?_⟩
        rw [State.core, hcores]
        rfl
    · have hspawn : ∀ st landing born, p.kind ≠ .spawn st landing born := hk ▸ nofun
      obtain ⟨t, hexec, -, hslot⟩ := arrival_inSlot hfl hnone hh hspawn hserves (by rw [hk]; exact freeFor_reserved_of_lowest hi) hg
      exact ⟨t, hexec, hslot⟩
    · obtain ⟨hspecial, hspawn, -, -⟩ := MsgKind.plain_cases hplain
      exact arrival_full hfl hnone hh hspawn hserves (hspecial ▸ Core.freeFor_ordinary_full hfull)
    · exact arrival_full hfl hnone hh (hk ▸ nofun) hserves (hk ▸ Core.freeFor_reserved_full hfull)
    · intro st landing born l hk hl back
      refine ⟨fun i hi hserves hg hborn hcan hroom => ?_, fun hno => ?_⟩
      · obtain ⟨t, hexec, hslot, hback⟩ := arrival_spawn_accepted hfl hnone hh hk hl hi hserves hg hborn hcan hroom
        exact ⟨t, hexec, hslot, _, hback, rfl, rfl, rfl, hk⟩
      · obtain ⟨t, hexec, hcores, hback⟩ := arrival_spawn_bounced hfl hnone hh hk hl hno
        refine ⟨t, hexec, ?_, _, hback, rfl, rfl, rfl, hk⟩
        rw [State.core, hcores]
        rfl
  · intro s p since rest hfl hspawn hserves hh
    have hexec := (messageArrival_moving (f := ⟨p, .parked since⟩) (by rw [hfl]; rfl) (State.behind_head_parked since) hh hspawn
      nofun).trans (if_pos hserves)
    refine ⟨fun i hg hi => ?_, fun hfull => hexec.trans (State.arriveAt_parked_full (Core.freeFor_of_full ?_))⟩
    · obtain ⟨hslot, -⟩ := State.deliver_governed (s := s.dropFlight 0) (i := i) hg
      exact ⟨_, hexec.trans (State.arriveAt_parked_free (freeFor_of_lowest_of_kind hi)), inSlot_of_core hslot rfl rfl⟩
    · rw [MsgKind.special_eq]
      exact hfull
  · intro s p i rest hfl hspawn hh hg
    exact placed_inSlot hfl hspawn hh hg
  · intro s n landing l2 born p r hf hlanding hk
    refine ⟨fun hwait => (spawnResponse_eq hf hk).trans (if_pos (by simpa using hwait)), fun hh hs => ?_⟩
    exact spawnResponse_arrives hf hlanding hk hh hs
  · intro s k n i p e pc l hact hbusy hpre hh horphan hsel hl hm
    have hexec := handlerStart_selected hact hbusy hpre hh horphan hsel
    have hstart : (∃ t x, HandlerLaunch s p n l t x) ∧ s.startPc l p e = pc := by
      unfold State.startPc
      cases hk : p.kind <;> simp only [hk] at hm ⊢
      case start =>
        obtain ⟨rfl, rfl⟩ := hm
        exact ⟨⟨_, _, .of_message hl (by simp [hk])⟩, rfl⟩
      case task r =>
        obtain ⟨rfl, y, hy, rfl⟩ := hm
        exact ⟨⟨_, _, .of_message hl (by simp [hk])⟩, by simp [hy]⟩
      case notify | cross =>
        obtain ⟨hlisten, hroom, rfl⟩ := hm
        exact ⟨⟨_, _, .of_listener hl (by simp [hk]) hlisten hroom⟩, rfl⟩
      all_goals
        obtain ⟨rfl, rfl⟩ := hm
        exact ⟨⟨_, _, .of_message hl (by simp [hk])⟩, rfl⟩
    obtain ⟨⟨t, x, hjoin⟩, hpc⟩ := hstart
    obtain ⟨counted, heq⟩ := hjoin.startHandler_eq (k := k) (i := i) hpc
    have hcore := t.entered_core k n counted x i p pc
    refine ⟨fun hodd => ?_, fun heven => ?_⟩
    · rw [heq, if_pos hodd] at hexec
      obtain ⟨hact', hcause, haddr⟩ := State.core_faultAt (by rw [hcore]; rfl) 3 0 pc 0
      exact ⟨_, hexec, hact', hcause, haddr⟩
    · rw [heq, if_neg (by rw [heven]; exact Bool.false_ne_true)] at hexec
      obtain ⟨htag, hvalue, hsplo⟩ := hjoin.entered_stack (k := k) (i := i) (pc := pc) counted
      refine ⟨_, _, hexec, by rw [hcore]; rfl, rfl, rfl, rfl, rfl, by rw [hcore]; rfl, rfl, fun hk => ⟨x, ?_, hjoin.joined hk⟩,
        by rw [hcore]; rfl, by rw [hcore]; exact hjoin.asid, by rw [hcore]; exact hjoin.vf, ?_, htag, hvalue, hsplo⟩
      · exact (congrArg (fun m => mget m n) (t.readied_keeps k p x).1).trans hjoin.found
      · rw [hcore]
        exact (State.begun_readG _ _ _ _ _).1
  · intro s k i p e hact hbusy hpre hh horphan hsel hm
    have hexec := handlerStart_selected hact hbusy hpre hh horphan hsel
    have hnone : s.launchFor p = none := by
      unfold State.launchFor
      cases hk : p.kind <;> simp only [hk] at hm ⊢ <;> simp [hm]
    refine ⟨_, hexec, ?_⟩
    rw [State.core_startHandler_none hnone]
    exact ⟨hact, by simp [Core.freeSlot]⟩
  · intro c may i p e hsel
    obtain ⟨⟨hwait, hrun⟩, hmax⟩ := Core.select_spec hsel
    obtain ⟨horder, hpinned⟩ := Core.mem_waiting.1 hwait
    obtain ⟨-, hslot, hmay, hgov, hrunnable⟩ := Core.runnableAt_iff.1 hrun
    refine ⟨horder, hpinned, hslot, hrunnable, hmay, fun j q f hj hp hq hmq hf hrf => ?_⟩
    exact hmax j (Core.mem_waiting.2 ⟨hj, hp⟩) (j, q, f) (Core.runnableAt_iff.2 ⟨rfl, hq, hmq, hf, hrf⟩)
  · intro s d f since before after hfl ht hd hlate hbefore
    exact parkingTimeout_late (find_late hfl ht hd hlate hbefore)
  · intro s n d x before after queued left hx hc hother room
    have hroom : ∀ e, s.mcRoom e = true ↔ room e := s.mcRoom_iff
    refine ⟨fun hqueued => ?_, fun hqueued => ?_⟩
    · subst hqueued
      have hexec := multicastForward_queued hx hc hother
      refine ⟨fun hr => ⟨_, hexec.trans (if_pos ((hroom d).2 hr)), rfl, rfl, State.multi_setCopies hx (by simp)⟩,
        fun hr => hexec.trans (if_neg (hr ∘ (hroom d).1))⟩
    subst hqueued
    refine ⟨fun hout hleft hroute => ?_, fun k hk hd hb ha => ?_⟩
    · obtain ⟨t, hexec, hflights, hcores, hmulti⟩ := multicastForward_away hx hc hother hout hleft
      refine ⟨t, _, hexec, hflights, hcores, hmulti, s.mem_left_mcCopies _ _ _, s.nodup_left_mcCopies _ _, fun c hmem => ?_⟩
      obtain ⟨hq, ⟨hnode, hfull⟩ | ⟨hfree, hnode⟩⟩ := State.mcCopies_dimension hroute hout hmem
      · refine ⟨hq, .inl ⟨hnode, fun k hk => ?_⟩⟩
        rw [← hroom, Bool.not_eq_true]
        exact hfull k hk
      · exact ⟨hq, .inr ⟨(hroom _).1 hfree, hnode⟩⟩
    · subst hk hb ha
      intro p ended none_
      refine ⟨fun hin => multicastForward_outside hx hc hd hin, fun hin hh => ⟨fun i hi hnone hg => ?_, fun hfull hpark => ?_,
        fun hfull hpark => ?_⟩⟩
      · exact multicastForward_inSlot hx hc hd hin hh hi hnone hg
      · exact multicastForward_parks hx hc hd hin hh hfull hpark
      · exact ⟨s, multicastForward_waits hx hc hd hin hh hfull hpark, rfl, rfl, rfl⟩
  · intro s n r vf route root cls pri op fmt nw l contrib hr hg hopen _ hin top result
    refine ⟨fun hparts => ?_, fun q hparts hab hheld => ?_⟩
    · obtain ⟨i, p, hp, hexec⟩ := reductionMerge_part hr hg hopen hparts
      refine ⟨i, p, hp, ?_⟩
      intro q full
      change exec _ s = .next (s.mergeEnd n r vf route root cls pri nw l contrib i q) at hexec
      have hfull : s.nodeFull route (domeOf root) contrib q = true ↔ full := s.nodeFull_iff _ _ _ _
      refine ⟨_, hexec, fun hn hf => ?_, fun hn hf => ?_, fun hn hf => ?_, fun hn hf hab => ?_⟩
      · have hend := State.mergeEnd_result (s := s) (n := n) (r := r) (vf := vf) (cls := cls) (pri := pri) (nw := nw) (l := l) (i := i)
          hn (hfull.2 hf)
        rw [hend]
        exact State.rootResult_spec true hin
      · rw [State.mergeEnd_root hn (mt hfull.1 hf)]
        exact State.round_setRound hr
      · rw [State.mergeEnd_up hn (hf.imp hfull.2 id)]
        refine (State.round_setRound (s := s.draw) hr).trans ?_
        rw [State.partUp, State.treeNext_eq]
        rfl
      · rw [State.mergeEnd_waits hn (mt hfull.1 hf) hab]
        exact State.round_setRound hr
    · exact ⟨_, reductionMerge_abandoned hr hg hopen hparts hab hheld, State.rootResult_spec false hin⟩

end Sys2Proof.Settled
end

section
/-! SUPPORT. An instruction with a late result: what its step changes besides what it asks for, and where a request joins those at the
Orrery (R53, R96, R153). -/
namespace Sys2Proof.Machine

/-! ## The core under an instruction with a late result -/

/-- Core d holds in its registers, symbols and special registers what core c does. -/
structure Core.SameRegs (c d : Core) : Prop where
  g : d.g = c.g
  f : d.f = c.f
  v : d.v = c.v
  sym : d.sym = c.sym
  special : d.special = c.special

/-- Reaching memory leaves the registers alone. -/
theorem Core.SameButMemory.sameRegs {c d : Core} (h : c.SameButMemory d) : c.SameRegs d :=
  ⟨h.get Core.g, h.get Core.f, h.get Core.v, h.get Core.sym, h.get Core.special⟩

/-- One after the other. -/
theorem Core.SameRegs.trans {c d e : Core} (h : c.SameRegs d) (k : d.SameRegs e) : c.SameRegs e :=
  ⟨k.g.trans h.g, k.f.trans h.f, k.v.trans h.v, k.sym.trans h.sym, k.special.trans h.special⟩

/-- The other way round. -/
theorem Core.SameRegs.symm {c d : Core} (h : c.SameRegs d) : d.SameRegs c :=
  ⟨h.g.symm, h.f.symm, h.v.symm, h.sym.symm, h.special.symm⟩

/-- Registers kept stay kept where the core before and the core after are replaced by ones with the same registers. -/
theorem Core.KeepsRegs.congr {c c' d d' : Core} {l : List RegName} (h : c.KeepsRegs d l) (hc : c.SameRegs c') (hd : d.SameRegs d') :
    c'.KeepsRegs d' l := by
  obtain ⟨hg, hf, hv, hs⟩ := h
  refine ⟨fun r hr => ?_, fun r wide hr => ?_, fun r hr => ?_, hd.special.trans (hs.trans hc.special.symm)⟩
  · have := hg r hr
    unfold Core.readG at this ⊢
    rwa [hd.g, hc.g]
  · have := hf r wide hr
    unfold Core.readF at this ⊢
    rwa [hd.f, hc.f]
  · have := hv r hr
    unfold Core.readV at this ⊢
    rwa [hd.v, hc.v]

/-- What a frame of one instruction keeps, it keeps of the registers. -/
theorem Core.KeepsBut.keepsRegs {c d : Core} {l : List RegName} (h : c.KeepsBut d l) : c.KeepsRegs d l := by
  obtain ⟨hg, hf, hv, -, hrest⟩ := h
  exact ⟨hg, hf, hv, (congrArg Core.special hrest :)⟩

/-- A late value's register and symbol, read off a state before and a state after that have the same registers and symbols. -/
theorem LateG.congr {s s' t t' : State} {d : GReg} {kind : EphKind} {res : Option SymRef} (h : LateG s t d kind res)
    (hs : s.me.SameRegs s'.me) (ht : t.me.SameRegs t'.me) : LateG s' t' d kind res := by
  refine h.imp id fun ⟨i, hd, hfree, hreg, hstate, hgen, hres⟩ => ⟨i, hd, ?_, ?_, by rw [ht.sym, hstate],
    by rw [ht.sym, hs.sym, hgen], by rw [hs.sym, hres]⟩
  · unfold Core.freeSym at hfree ⊢
    rwa [hs.sym]
  · unfold Core.readG at hreg ⊢
    rwa [ht.g]

/-! ## The state under such an instruction -/

/-- State t is state s but for what reaching memory changes, and for the g registers and the symbols of the core whose turn it is. -/
def Underway (s t : State) : Prop :=
  { t with
    cores := s.cores
    mem := s.mem
    arrivals := s.arrivals
    lastRwr := s.lastRwr
    sc := { t.sc with counters := s.sc.counters, log := s.sc.log }
    fresh := s.fresh } = s ∧ s.me.SameButMemory { t.me with g := s.me.g, sym := s.me.sym }

/-- Reaching memory is no more than that. -/
theorem Reached.underway {s t : State} (h : Reached s t s.cur) : Underway s t :=
  ⟨h.1, (congrArg (fun c : Core => { c with g := s.me.g, sym := s.me.sym }) h.me :)⟩

/-- One after the other. -/
theorem Underway.trans {s t u : State} (h : Underway s t) (k : Underway t u) : Underway s u := by
  obtain ⟨hs, hc⟩ := h
  obtain ⟨kt, kc⟩ := k
  unfold Core.SameButMemory at hc kc
  refine ⟨?_, ?_⟩
  · rw [← kt] at hs
    exact hs
  · rw [← kc] at hc
    exact hc

/-- A property of such a state is that of the state before. -/
theorem Underway.get {α : Type} (F : State → α) {s t : State} (h : Underway s t) : F { t with
    cores := s.cores
    mem := s.mem
    arrivals := s.arrivals
    lastRwr := s.lastRwr
    sc := { t.sc with counters := s.sc.counters, log := s.sc.log }
    fresh := s.fresh } = F s := congrArg F h.1

/-- The same for the core whose turn it is. -/
theorem Underway.getMe {α : Type} (F : Core → α) {s t : State} (h : Underway s t) : F { t.me with
    buf := s.me.buf
    ldes := s.me.ldes
    dcache := s.me.dcache
    icache := s.me.icache
    tlb := s.me.tlb
    obs := s.me.obs
    atomicObs := s.me.atomicObs
    fenced := s.me.fenced
    g := s.me.g
    sym := s.me.sym } = F s.me := congrArg F h.2

/-- Who issues a request stays. -/
theorem Underway.asker {s t : State} (h : Underway s t) : t.asker = s.asker := by
  have hact : t.me.act = s.me.act := h.getMe Core.act
  have hvf : t.me.vfid = s.me.vfid := h.getMe Core.vfid
  have hasid : t.me.asid = s.me.asid := h.getMe Core.asid
  have hlaunches : t.launches = s.launches := h.get State.launches
  have hcur : t.cur = s.cur := h.get State.cur
  have hrc : t.rc = s.rc := h.get State.rc
  unfold State.asker State.myLaunch
  rw [hact, hvf, hasid, hlaunches, hcur, hrc]

/-- The symbol allocated and the register written: what a late result does to its core. -/
theorem lateG_allocated {s : State} {d : GReg} {i : Fin 32} (kind : EphKind) (hd : d ≠ 0) (hi : s.me.freeSym = some i) :
    LateG s (s.setMe ((s.me.allocate i kind).setG d (Reg.newEph kind i))) d kind (some ((s.me.allocate i kind).symRef i)) := by
  obtain ⟨-, -, -, hcounts, -⟩ := (s.me.allocate i kind).setG_keeps d (Reg.newEph kind i)
  have hsym := congrArg (fun v : Vector Sym 32 => v[i.val]) hcounts
  simp only [Vector.getElem_map] at hsym
  have hnew : (s.me.allocate i kind).sym[i.val] = ⟨.pending, 0, kind, s.me.sym[i.val].gen + 1⟩ := by
    simp [Core.allocate]
  rw [hnew] at hsym
  obtain ⟨hpending, -, -, hgen⟩ := Sym.mk.inj hsym
  refine .inr ⟨i, hd, hi, ?_, ?_, ?_, ?_⟩
  · simp [written, hd]
  · rw [State.me_setMe]; exact hpending
  · rw [State.me_setMe]; exact hgen
  · simp [Core.symRef, hnew]

/-- An instruction with a late result goes on where a symbol stands ready: its register and its symbol alone have changed. -/
theorem State.lateG_of_symReady {s : State} {d : GReg} {kind : EphKind} (h : s.symReady d) (k : Option SymRef → State → Res) :
    ∃ res t, s.lateG d kind k = k res t ∧ Underway s t ∧ LateG s t d kind res ∧ s.me.KeepsRegs t.me [.g d] := by
  by_cases hd : d = 0
  · subst hd
    exact ⟨none, s, rfl, (Reached.refl s s.cur).underway, .inl ⟨rfl, rfl⟩, (Core.SameButMemory.refl s.me).keepsRegs _⟩
  · obtain ⟨i, hi⟩ := Option.ne_none_iff_exists'.1 (h.resolve_left hd)
    refine ⟨some ((s.me.allocate i kind).symRef i), s.setMe ((s.me.allocate i kind).setG d (Reg.newEph kind i)), ?_, ⟨rfl, ?_⟩,
      lateG_allocated kind hd hi, ?_⟩
    · simp [State.lateG, State.lateTo, hd, hi]
    · rw [State.me_setMe]
      unfold Core.SameButMemory Core.setG
      split <;> rfl
    · rw [State.me_setMe]
      exact ((s.me.allocate i kind).setG_keeps d _).keepsRegs

/-- A core that goes on holds what it held. -/
theorem State.sameRegs_advance (s : State) (i : Issue) (p : Word) : s.me.SameRegs (s.advance i p).me := by
  unfold State.advance
  rw [State.me_setMe]
  exact ⟨rfl, rfl, rfl, rfl, rfl⟩

/-- A commit instruction whose effect is a late result, and then f: it runs where f leaves the registers alone. -/
theorem runs_of_late {i : Instr} {s w : State} {u : Issue} {d : GReg} {b : State → Res} {f : Option SymRef → State → State}
    {more : State → Prop} (hi : s.issues u) (hcommit : u.commit = true) (hlen : u.len = 4) (hexec : exec i s = s.issue u b)
    (hsym : s.symReady d) (hw : Reached (s.settleLdes s.cur) w s.cur)
    (hb : b (s.settleLdes s.cur) = w.lateG d .i64 fun res v => .ok (f res v))
    (hf : ∀ res v, Underway s v → v.me.SameRegs (f res v).me)
    (hmore : ∀ res v p, Underway s v → LateG s ((f res v).advance u p) d .i64 res → more ((f res v).advance u p)) :
    Runs i s [.g d] more := by
  have hset := reached_settleLdes s s.cur
  have hreach := hset.trans hw
  have hregs := hreach.me.sameRegs
  have hready : w.symReady d := by
    unfold State.symReady Core.freeSym at hsym ⊢
    rwa [hregs.sym]
  obtain ⟨res, v, hlate, hv, hreg, hkeeps⟩ := w.lateG_of_symReady hready fun res v => .ok (f res v)
  have hunder : Underway s v := hreach.underway.trans hv
  have hpc : (s.settleLdes s.cur).me.pc = s.me.pc := hset.me.get Core.pc
  have hlast := (hf res v hunder).trans ((f res v).sameRegs_advance u (s.me.pc + 4))
  refine ⟨(f res v).advance u (s.me.pc + 4), ?_, by simp [State.advance], by simp [State.advance], hkeeps.congr hregs.symm hlast,
    hmore res v _ hunder (hreg.congr hregs.symm hlast)⟩
  rw [hexec, State.issue_of_issues hi]
  simp only [hcommit, if_true, hb, hlate, State.finish, hlen, hpc]
  rfl

/-! ## Requests at the Orrery (R153) -/

/-- A request stands behind those that are not after it, and before the first that is. -/
theorem askIn_split (r : OrreryReq) (l : List OrreryReq) : ∃ before after, l = before ++ after ∧ askIn r l = before ++ r :: after ∧
    (∀ q ∈ before, q.who.since < r.who.since ∨ q.who.since = r.who.since ∧ q.who.core ≤ r.who.core) ∧
    ∀ q ∈ after.head?, r.who.since < q.who.since ∨ r.who.since = q.who.since ∧ r.who.core < q.who.core := by
  induction l with
  | nil => exact ⟨[], [], rfl, rfl, nofun, nofun⟩
  | cons q rest ih =>
    unfold askIn
    by_cases hfirst : r.who.since < q.who.since ∨ r.who.since = q.who.since ∧ r.who.core < q.who.core
    · exact ⟨[], q :: rest, rfl, if_pos hfirst, nofun, by rintro _ ⟨⟩; exact hfirst⟩
    · obtain ⟨before, after, hsplit, hput, hbefore, hafter⟩ := ih
      refine ⟨q :: before, after, by rw [hsplit]; rfl, by rw [if_neg hfirst, hput]; rfl, ?_, hafter⟩
      rintro x (_ | ⟨_, hx⟩)
      · omega
      · exact hbefore x hx

/-- A state whose requests are those of another with one put among them. -/
theorem asked_of_oreqs {s t : State} {r : OrreryReq} (h : t.oreqs = askIn r s.oreqs) : Asked s t r := by
  obtain ⟨before, after, hsplit, hput, hbefore, hafter⟩ := askIn_split r s.oreqs
  exact ⟨before, after, hsplit, h.trans hput, hbefore, hafter⟩

/-- A request made at the issue of an instruction names its issuer as it was at its start. -/
theorem Underway.asked {s t : State} (h : Underway s t) (r : Asker → OrreryReq) {i : Issue} {p : Word} :
    Asked s ((t.ask (r t.asker)).advance i p) (r s.asker) := by
  have hreqs : t.oreqs = s.oreqs := h.get State.oreqs
  refine asked_of_oreqs ?_
  rw [← hreqs, ← h.asker]
  rfl

/-- The same for a request that carries a release. -/
theorem Underway.asked_release {s t : State} (h : Underway s t) (r : Asker → OrreryReq) {i : Issue} {p : Word} :
    Asked s (((t.release t.cur).2.ask (r t.asker)).advance i p) (r s.asker) := by
  have hrel := (reached_release t t.cur).underway
  rw [← hrel.asker]
  exact (h.trans hrel).asked r

/-- A core that has made a request with a release has nothing pending. -/
theorem release_settled (s : State) (r : OrreryReq) (i : Issue) (p : Word) :
    (((s.release s.cur).2.ask r).advance i p).me.buf = [] ∧ (((s.release s.cur).2.ask r).advance i p).me.ldes = [] := by
  have hme : (((s.release s.cur).2.ask r).advance i p).me = (s.release s.cur).2.me.advance i p := State.me_setMe _ _
  rw [hme, State.me, (reached_release s s.cur).cur]
  exact settleAccesses_core s s.cur

/-! ## SPAWN (R53) -/

/-- The landing slot is the lowest free one of the reserved slots. -/
theorem Core.freeReserved_eq (c : Core) : c.freeReserved = c.freeFor true := by
  unfold Core.freeReserved Core.freeFor
  simp

/-- A request names the stamp of its issuer's launch. -/
theorem State.asker_born (s : State) : s.asker.born = (mget s.launches s.myLaunch).map (·.born) := by
  unfold State.asker
  dsimp only
  split <;> simp [*]

/-- SPAWN toward a core of the partition, with a landing slot: its message is on its way, and the slot is kept. -/
theorem State.spawn_sent {s : State} {dest : Nat} {slot : Fin 32} (b : Word) (pl : List (GReg × Reg × Bool)) (res : Option SymRef)
    (hslot : s.me.freeReserved = some slot) (hin : s.inPartition s.me.vfid dest = true) : ∃ (t : State) (p : Packet),
      Reached s t s.cur ∧ s.spawn dest b pl res = (t.setMe { t.me with slots := t.me.slots.set slot.val .landing }).post p ∧
      p.kind = .spawn res slot.val s.asker.born ∧ p.msg.dest = dest ∧ p.msg.flags = 0x02 ∧ p.msg.cls = clsOf b := by
  have hreach := reached_release s s.cur
  have hact : (s.release s.cur).2.me.act = s.me.act := hreach.me.get Core.act
  have hlaunches : (s.release s.cur).2.launches = s.launches := hreach.get State.launches
  unfold State.spawn
  simp only [hslot, hin, if_true]
  refine ⟨_, _, hreach, rfl, ?_, rfl, rfl, rfl⟩
  rw [s.asker_born]
  simp only [State.myLaunch, State.me_setMe, State.setMe_launches, hact, hlaunches]

/-- The same from a state on the way to SPAWN's effect: the landing slot, the partition and the issuer are as at its start. -/
theorem Underway.spawn_sent {s v : State} {dest : Nat} {slot : Fin 32} (hv : Underway s v) (b : Word) (pl : List (GReg × Reg × Bool))
    (res : Option SymRef) (hlowest : LowestFree s.me slot 28 32) (hin : s.inPartition s.me.vfid dest = true) :
    ∃ (t : State) (p : Packet), Reached v t v.cur ∧
      v.spawn dest b pl res = (t.setMe { t.me with slots := t.me.slots.set slot.val .landing }).post p ∧
      p.kind = .spawn res slot.val s.asker.born ∧ p.msg.dest = dest ∧ p.msg.flags = 0x02 ∧ p.msg.cls = clsOf b := by
  have hslots : v.me.slots = s.me.slots := hv.getMe Core.slots
  have hvf : v.me.vfid = s.me.vfid := hv.getMe Core.vfid
  have hvfs : v.vfs = s.vfs := hv.get State.vfs
  rw [← hv.asker]
  refine State.spawn_sent b pl res ?_ ?_
  · rw [Core.freeReserved_eq]
    refine freeFor_reserved_of_lowest ?_
    unfold LowestFree at hlowest ⊢
    rwa [hslots]
  · unfold State.inPartition State.vf at hin ⊢
    rwa [hvf, hvfs]

/-- SPAWN issues with its payload as its operands. -/
theorem exec_spawn (d a b : GReg) (n : Fin 7) (s : State) : exec (.spawn d a b n) s =
    s.issue { reads := [.g a, .g b] ++ payloadNames (s.me.payloadFrom 3 n.val), writes := [.g d], commit := true } fun t =>
      let x := t.me.readG a
      let y := t.me.readG b
      let pl := s.me.payloadFrom 3 n.val
      t.readyUnless (x :: y :: payloadVals pl) (t.clean (x :: y :: payloadVals pl) 3) (t.clean [x, y] 3 (t.destOf x fun j u =>
        u.clean (payloadVals pl) 3 (u.lateG d .i64 fun res v => .ok (v.spawn j y.value pl res)))) := rfl

/-- SPAWN with a landing slot, once its destination is translated to a core of the partition (R53, R154). -/
theorem runs_spawn {s u : State} {d a b : GReg} {n : Fin 7} {p : Place} {j : Nat} {slot : Fin 32} (hsym : s.symReady d)
    (hi : s.issues { reads := [.g a, .g b] ++ payloadNames (s.me.payloadFrom 3 n.val), writes := [.g d], commit := true })
    (hx : (s.me.readG a).tag = .cap) (hy : (s.me.readG b).tag = .data)
    (hpl : ∀ z ∈ payloadVals (s.me.payloadFrom 3 n.val), z.tag = .data ∨ z.tag = .cap)
    (hcap : capFault (s.me.readG a) (s.me.readG a).value.toNat 1 [.send] = 0)
    (htrans : (s.settleLdes s.cur).translate s.cur (s.me.readG a).value.toNat [] = (.ok p, u)) (hslice : sliceOf p.pa = some j)
    (hin : s.inPartition s.me.vfid j = true) (hlowest : LowestFree s.me slot 28 32) :
    Runs (.spawn d a b n) s [.g d] fun t => ∃ (res : Option SymRef) (f : Flight), LateG s t d .i64 res ∧
      t.flights = s.flights ++ [f] ∧ f.packet.kind = .spawn res slot.val s.asker.born ∧ f.packet.msg.dest = j ∧
      f.packet.msg.flags = 0x02 ∧ f.packet.msg.cls = (s.me.readG b).value.toNat % 64 ∧ t.me.slots[slot.val] = .landing := by
  have hset := reached_settleLdes s s.cur
  have hcur : (s.settleLdes s.cur).cur = s.cur := hset.cur
  have hu : Reached (s.settleLdes s.cur) u s.cur := by
    have h := reached_translate (s.settleLdes s.cur) s.cur (s.me.readG a).value.toNat []
    rwa [htrans] at h
  refine runs_of_late (f := fun res v => v.spawn j (s.me.readG b).value (s.me.payloadFrom 3 n.val) res) hi rfl rfl
    (exec_spawn d a b n s) hsym hu ?_ (fun res v hv => ?_)
    fun res v q hv hlate => ?_
  · have hxs : (s.settleLdes s.cur).me.readG a = s.me.readG a := hset.me.readG a
    have hys : (s.settleLdes s.cur).me.readG b = s.me.readG b := hset.me.readG b
    have hno : ∀ {tag : Tag}, tag = .eph ∨ tag = .pois → ¬ ∃ z ∈ payloadVals (s.me.payloadFrom 3 n.val), z.tag = tag := by
      rintro tag htag ⟨z, hz, rfl⟩
      rcases hpl z hz with h | h <;> simp [h] at htag
    simp [hxs, hys, State.readyUnless, State.clean, hx, hy, hno, State.destOf, hcap, hcur, htrans, hslice]
  · obtain ⟨t, q, ht, heq, -⟩ := hv.spawn_sent (s.me.readG b).value (s.me.payloadFrom 3 n.val) res hlowest hin
    rw [heq]
    refine ht.me.sameRegs.trans ?_
    change t.me.SameRegs (t.setMe _).me
    rw [State.me_setMe]
    exact ⟨rfl, rfl, rfl, rfl, rfl⟩
  · obtain ⟨t, q, ht, heq, hkind, hdest, hflags, hcls⟩ :=
      hv.spawn_sent (s.me.readG b).value (s.me.payloadFrom 3 n.val) res hlowest hin
    rw [heq] at hlate ⊢
    have hflights : t.flights = s.flights := (hv.trans ht.underway).get State.flights
    refine ⟨res, ⟨q, .link⟩, hlate, ?_, hkind, hdest, hflags, ?_, ?_⟩
    · rw [← hflights]
      rfl
    · simpa [clsOf, bits] using hcls
    · have hme : ((t.setMe { t.me with slots := t.me.slots.set slot.val .landing }).post q).me =
          { t.me with slots := t.me.slots.set slot.val .landing } := State.me_setMe _ _
      simp only [State.advance, State.me_setMe, Core.advance, hme, Vector.getElem_set_self]

/-! ## The requests (R155 to R158) -/

/-- LAUNCH issues as a commit instruction, and makes its request with a release. -/
theorem exec_launch (d a : GReg) (s : State) :
    exec (.launch d a) s = s.issue { reads := [.g a], writes := [.g d], commit := true } fun t =>
      let x := t.me.readG a
      t.ready [x] (t.clean [x] 1 (t.imageAt x 128 [.r] (t.lateG d .i64 fun res v =>
        .ok ((v.release v.cur).2.ask (.launch v.asker res x.value.toNat (v.release v.cur).1))))) := rfl

/-- CANCEL issues as a commit instruction, and makes its request without a release. -/
theorem exec_cancel (d a : GReg) (lv : Level) (s : State) :
    exec (.cancel d a lv) s = s.issue { reads := [.g a], writes := [.g d], commit := true } fun t =>
      let x := t.me.readG a
      t.ready [x] (t.clean [x] 5 (t.lateG d .i64 fun res v => .ok (v.ask (.cancel v.asker res lv x.value)))) := rfl

/-- GREL likewise. -/
theorem exec_grel (d a : GReg) (s : State) :
    exec (.grel d a) s = s.issue { reads := [.g a], writes := [.g d], commit := true } fun t =>
      let x := t.me.readG a
      t.ready [x] (t.clean [x] 5 (t.lateG d .i64 fun res v => .ok (v.ask (.grel v.asker res x.value)))) := rfl

/-- GARM issues as a commit instruction of two operands, and makes its request with a release. -/
theorem exec_garm (d a b : GReg) (s : State) :
    exec (.garm d a b) s = s.issue { reads := [.g a, .g b], writes := [.g d], commit := true } fun t =>
      let x := t.me.readG a
      let y := t.me.readG b
      t.clean [x] 1 (t.clean [y] 5 (t.ready [x, y] (t.imageAt x 64 [.r] (t.lateG d .i64 fun res v =>
        .ok ((v.release v.cur).2.ask
          (.garm v.asker res x.value.toNat (hasPerm x.info .near) y.value (v.release v.cur).1)))))) := rfl

/-- A capability with its permissions is neither poison nor late. -/
theorem tag_of_capFault {x : Reg} {addr n : Nat} {perms : List Perm} (h : capFault x addr n perms = 0) : x.tag = .cap := by
  unfold capFault at h
  by_contra hne
  simp [hne] at h

/-- The operand of LAUNCH or GARM passes its checks. -/
theorem State.imageAt_of {s : State} {x : Reg} {n : Nat} {perms : List Perm} (hcap : capFault x x.value.toNat n perms = 0)
    (halign : x.value.toNat % 64 = 0) (k : Res) : s.imageAt x n perms k = k := by
  unfold State.imageAt
  simp [hcap, halign]

end Sys2Proof.Machine
end

section
namespace Sys2Proof.Settled
open Machine

/-- Settles O35: every instruction goes on with its register late, and its message or its request is made from a state in which its
issuer is as at its start. -/
theorem workInstructions : Obligations.WorkInstructions := by
  unfold Obligations.WorkInstructions
  intro s d a b act hact x y
  have hset := reached_settleLdes s s.cur
  have hx : (s.settleLdes s.cur).me.readG a = x := hset.me.readG a
  have hy : (s.settleLdes s.cur).me.readG b = y := hset.me.readG b
  have hrel : ∀ (v : State) (r : OrreryReq), v.me.SameRegs ((v.release v.cur).2.ask r).me := fun v _ =>
    (reached_release v v.cur).me.sameRegs
  refine ⟨fun l hl => ?_, fun hsym => ⟨?_, fun hi => ⟨fun hcap halign => ?_, fun htag => ⟨fun lv => ?_, ?_⟩⟩,
    fun hi hdata hcap halign => ?_⟩⟩
  · simp [State.asker, State.myLaunch, hact, hl]
  · intro u n p j slot pl hi htag hdata hpl hcap htrans hslice hin hreserved hfree hmin
    exact runs_spawn hsym hi htag hdata hpl hcap htrans hslice hin ⟨hreserved, slot.isLt, hfree, hmin⟩
  · refine runs_of_late (f := fun res v => (v.release v.cur).2.ask (.launch v.asker res x.value.toNat (v.release v.cur).1)) hi rfl rfl
      (exec_launch d a s) hsym (.refl _ _) ?_ (fun _ v _ => hrel v _) fun res v p hv hlate => ⟨res, (v.release v.cur).1, hlate,
        hv.asked_release (.launch · res x.value.toNat (v.release v.cur).1), release_settled v _ _ _⟩
    simp [hx, State.ready, State.clean, tag_of_capFault hcap, State.imageAt_of hcap halign]
  · refine runs_of_late (f := fun res v => v.ask (.cancel v.asker res lv x.value)) hi rfl rfl (exec_cancel d a lv s) hsym (.refl _ _) ?_
      (fun _ v _ => ⟨rfl, rfl, rfl, rfl, rfl⟩) fun res v p hv hlate => ⟨res, hlate, hv.asked (.cancel · res lv x.value)⟩
    rcases htag with h | h <;> simp [hx, State.ready, State.clean, h]
  · refine runs_of_late (f := fun res v => v.ask (.grel v.asker res x.value)) hi rfl rfl (exec_grel d a s) hsym (.refl _ _) ?_
      (fun _ v _ => ⟨rfl, rfl, rfl, rfl, rfl⟩) fun res v p hv hlate => ⟨res, hlate, hv.asked (.grel · res x.value)⟩
    rcases htag with h | h <;> simp [hx, State.ready, State.clean, h]
  · refine runs_of_late (f := fun res v => (v.release v.cur).2.ask
        (.garm v.asker res x.value.toNat (hasPerm x.info .near) y.value (v.release v.cur).1)) hi rfl rfl (exec_garm d a b s) hsym
      (.refl _ _) ?_ (fun _ v _ => hrel v _) fun res v p hv hlate => ⟨res, (v.release v.cur).1, hlate,
        hv.asked_release (.garm · res x.value.toNat (hasPerm x.info .near) y.value (v.release v.cur).1)⟩
    simp [hx, hy, State.ready, State.clean, tag_of_capFault hcap, hdata, State.imageAt_of hcap halign]

end Sys2Proof.Settled
end

section
/-! SUPPORT. How the oldest request of an endpoint of KCP is answered: the statuses before any operation, and an operation's own answer
(R395 to R398, R400, R403). -/
namespace Sys2Proof.Machine

variable {s : State} {ep : Nat} {q : KcpReq} {rest : List KcpReq}

/-! ## The oldest request taken up -/

/-- The state once the oldest request of an endpoint has left its queue. -/
def State.dequeued (s : State) (ep : Nat) (rest : List KcpReq) : State := { s with kcp := mput s.kcp ep rest }

@[simp] theorem State.dequeued_sc (s : State) (ep : Nat) (rest : List KcpReq) : (s.dequeued ep rest).sc = s.sc := rfl
@[simp] theorem State.dequeued_dome (s : State) (ep : Nat) (rest : List KcpReq) (d : Nat) : (s.dequeued ep rest).dome d = s.dome d := rfl
@[simp] theorem State.dequeued_jobs (s : State) (ep : Nat) (rest : List KcpReq) : (s.dequeued ep rest).jobs = s.jobs := rfl
@[simp] theorem State.dequeued_phases (s : State) (ep : Nat) (rest : List KcpReq) : (s.dequeued ep rest).phases = s.phases := rfl
@[simp] theorem State.dequeued_launches (s : State) (ep : Nat) (rest : List KcpReq) : (s.dequeued ep rest).launches = s.launches := rfl
@[simp] theorem State.dequeued_vf (s : State) (ep : Nat) (rest : List KcpReq) (n : Nat) : (s.dequeued ep rest).vf n = s.vf n := rfl
@[simp] theorem State.dequeued_stitch (s : State) (ep : Nat) (rest : List KcpReq) : (s.dequeued ep rest).stitch = s.stitch := rfl

/-- The oldest request of an endpoint is taken up by the step of its operation. -/
theorem State.begin_eq {α : Type} {pick : KcpBody → Option α} {x : α} {vf mgmt inSafe : Bool}
    {run : α → KcpReq → State → Option Answer × State} (hq : mget s.kcp ep = some (q :: rest)) (hpick : pick q.body = some x) :
    s.begin ep pick vf mgmt inSafe run =
      if s.paused q then .next s
      else
        match s.refuses ep q vf mgmt inSafe, run x q (s.dequeued ep rest) with
        | 0, (some a, u) => .next (u.reply ep q a)
        | 0, (none, u) => .next { u with kcp := s.kcp }
        | code + 1, _ => .next ((s.dequeued ep rest).reply ep q (statusOnly (code + 1))) := by
  have hrefuses : State.refuses { s with kcp := mput s.kcp ep rest } ep q vf mgmt inSafe = s.refuses ep q vf mgmt inSafe := rfl
  unfold State.begin
  simp only [hq, hpick, hrefuses]
  split
  · rfl
  · cases s.refuses ep q vf mgmt inSafe with
    | succ code => rfl
    | zero =>
      rcases hrun : run x q (s.dequeued ep rest) with ⟨_ | a, u⟩ <;>
        · rw [show run x q { s with kcp := mput s.kcp ep rest } = _ from hrun]
          rfl

section
variable {α : Type} {pick : KcpBody → Option α} {x : α} {vf mgmt inSafe : Bool} {u : State}

/-- A request refused before its operation has no effect but its reply. -/
theorem State.begin_refused {run : α → KcpReq → State → Option Answer × State} {code : Nat} (hq : mget s.kcp ep = some (q :: rest))
    (hpick : pick q.body = some x) (hpaused : s.paused q = false) (hcode : s.refuses ep q vf mgmt inSafe = code + 1) :
    s.begin ep pick vf mgmt inSafe run = .next ((s.dequeued ep rest).reply ep q (statusOnly (code + 1))) := by
  simp only [State.begin_eq hq hpick, hpaused, hcode]
  rfl

/-- A request performed is answered with what its operation answers. -/
theorem State.begin_answered {run : α → KcpReq → State → Option Answer × State} {a : Answer} (hq : mget s.kcp ep = some (q :: rest))
    (hpick : pick q.body = some x) (hpaused : s.paused q = false) (hcode : s.refuses ep q vf mgmt inSafe = 0)
    (hrun : run x q (s.dequeued ep rest) = (some a, u)) :
    s.begin ep pick vf mgmt inSafe run = .next (u.reply ep q a) := by
  simp only [State.begin_eq hq hpick, hpaused, hcode, hrun]
  rfl

/-- A request whose operation goes on stays the oldest. -/
theorem State.begin_goes {run : α → KcpReq → State → Option Answer × State} (hq : mget s.kcp ep = some (q :: rest))
    (hpick : pick q.body = some x) (hpaused : s.paused q = false) (hcode : s.refuses ep q vf mgmt inSafe = 0)
    (hrun : run x q (s.dequeued ep rest) = (none, u)) :
    s.begin ep pick vf mgmt inSafe run = .next { u with kcp := s.kcp } := by
  simp only [State.begin_eq hq hpick, hpaused, hcode, hrun]
  rfl

end

/-! ## The statuses before any operation -/

/-- Only a start or a restart makes a request wait that came before it. -/
theorem State.paused_of_ready (h : s.sc.boot = .ready) : s.paused q = false := by
  simp [State.paused, h]

/-- An operation of a virtual function's endpoint that is well-formed is performed. -/
theorem State.refuses_vf {mgmt inSafe : Bool} (hready : s.sc.boot = .ready) (hbusy : q.busy = false) (hep : ep < 1024)
    (hform : q.wellFormed = true) : s.refuses ep q true mgmt inSafe = 0 := by
  simp [State.refuses, hready, hbusy, hep, hform]

/-- An operation of the management endpoint alone is not permitted at another one. -/
theorem State.refuses_other {mgmt inSafe : Bool} (hready : s.sc.boot = .ready) (hbusy : q.busy = false) (hep : ep < 1024) :
    s.refuses ep q false mgmt inSafe = 2 := by
  simp [State.refuses, hready, hbusy, hep]

/-- A malformed request of a virtual function's operations. -/
theorem State.refuses_malformed {mgmt inSafe : Bool} (hready : s.sc.boot = .ready) (hbusy : q.busy = false) (hep : ep < 1024)
    (hform : q.wellFormed = false) : s.refuses ep q true mgmt inSafe = 4 := by
  simp [State.refuses, hready, hbusy, hep, hform]

/-- A request of the management endpoint with an enrolled key's signature is performed. -/
theorem refuses_of_mgmtReady {key : BitVec 256} {vf inSafe : Bool} (h : MgmtReady s ep q rest key) :
    s.refuses ep q vf true inSafe = 0 := by
  obtain ⟨hep, -, hready, hbusy, hform, hsigner, hkey⟩ := h
  have hlow : ¬ ep < 1024 := by omega
  have hsigned : s.signatureOk q = true := by simp [State.signatureOk, hsigner, hkey]
  simp [State.refuses, hready, hbusy, hlow, hsigned, hform]

/-- A request of the management endpoint without a signature is not permitted where a key is enrolled. -/
theorem State.refuses_unsigned {vf mgmt inSafe : Bool} (hready : s.sc.boot = .ready) (hbusy : q.busy = false) (hep : 1024 ≤ ep)
    (hsigner : q.signer = none) (hkeys : s.sc.keys ≠ []) : s.refuses ep q vf mgmt inSafe = 2 := by
  have hlow : ¬ ep < 1024 := by omega
  have hsigned : s.signatureOk q = false := by simp [State.signatureOk, hsigner, hkeys]
  simp [State.refuses, hready, hbusy, hlow, hsigned]

/-! ## Replies -/

/-- A reply of a status alone answers the request. -/
theorem answered_reply {u : State} {st : Nat} (hkcp : u.kcp = mput s.kcp ep rest) (hreplies : u.replies = s.replies) :
    Answered s (u.reply ep q (statusOnly st)) ep q rest st := by
  refine ⟨?_, ?_⟩
  · change mget u.kcp ep = _
    rw [hkcp, mget_mput_same]
  · rw [← hreplies]
    rfl

/-- A refusal before the operation answers the request and leaves all else. -/
theorem serve_refuses {α : Type} {pick : KcpBody → Option α} {x : α} {vf mgmt inSafe : Bool} {run : α → KcpReq → State → Answer × State}
    {code : Nat} (hq : mget s.kcp ep = some (q :: rest)) (hpick : pick q.body = some x) (hpaused : s.paused q = false)
    (hcode : s.refuses ep q vf mgmt inSafe = code + 1) : ∃ t : State, s.serve ep pick vf mgmt inSafe run = .next t ∧
      Answered s t ep q rest (code + 1) ∧ Untouched s t :=
  ⟨_, State.begin_refused hq hpick hpaused hcode, answered_reply rfl rfl, rfl, rfl, rfl, rfl, rfl⟩

/-- An operation of the management endpoint that answers a status alone. -/
theorem mgmtReady_answers {α : Type} {pick : KcpBody → Option α} {x : α} {vf inSafe : Bool} {run : α → KcpReq → State → Answer × State}
    {key : BitVec 256} {st : Nat} {u : State} {more : State → Prop} (h : MgmtReady s ep q rest key) (hpick : pick q.body = some x)
    (hrun : run x q (s.dequeued ep rest) = (statusOnly st, u)) (hkcp : u.kcp = mput s.kcp ep rest)
    (hreplies : u.replies = s.replies) (hmore : more (u.reply ep q (statusOnly st))) :
    ∃ t : State, s.serve ep pick vf true inSafe run = .next t ∧ Answered s t ep q rest st ∧ more t := by
  have hrefuses := refuses_of_mgmtReady h (vf := vf) (inSafe := inSafe)
  obtain ⟨-, hq, hready, -⟩ := h
  refine ⟨_, State.begin_answered (u := u) hq hpick (State.paused_of_ready hready) hrefuses ?_, answered_reply hkcp hreplies, hmore⟩
  simp only [hrun]

/-- One that refuses leaves all but its reply. -/
theorem mgmtReady_refuses {α : Type} {pick : KcpBody → Option α} {x : α} {vf inSafe : Bool}
    {run : α → KcpReq → State → Answer × State} {key : BitVec 256} {st : Nat} (h : MgmtReady s ep q rest key)
    (hpick : pick q.body = some x)
    (hrun : run x q (s.dequeued ep rest) = (statusOnly st, (s.dequeued ep rest))) :
    ∃ t : State, s.serve ep pick vf true inSafe run = .next t ∧ Answered s t ep q rest st ∧ Untouched s t :=
  mgmtReady_answers h hpick hrun rfl rfl ⟨rfl, rfl, rfl, rfl, rfl⟩

end Sys2Proof.Machine
end

section
/-! SUPPORT. What the operations of the management endpoint do: a dome's retirement, PART, tokens and counters (R55 to R58, R391, R397,
R401). -/
namespace Sys2Proof.Machine

/-! ## Folds, tables, domes and virtual functions -/

/-- What is related to the start of a fold is related to its end, where each step keeps to the relation. -/
theorem foldl_related {σ α : Type} {R : σ → σ → Prop} (htrans : ∀ {s t u}, R s t → R t u → R s u) {f : σ → α → σ}
    (hf : ∀ s a, R s (f s a)) (l : List α) {r s : σ} (h : R r s) : R r (l.foldl f s) := by
  induction l generalizing s with
  | nil => exact h
  | cons a l ih => exact ih (htrans h (hf s a))

/-- The same for a fold from the right. -/
theorem foldr_related {σ α : Type} {R : σ → σ → Prop} (htrans : ∀ {s t u}, R s t → R t u → R s u) {f : α → σ → σ}
    (hf : ∀ a s, R s (f a s)) (l : List α) {r s : σ} (h : R r s) : R r (l.foldr f s) := by
  rw [← List.foldl_reverse]
  exact foldl_related (R := R) htrans (fun s a => hf a s) _ h

/-- A table whose entries are all rewritten, each by its number. -/
theorem mget_map_numbered {α : Type} (m : Map α) (f : Nat → α → α) (i : Nat) :
    mget (m.map fun x => (x.1, f x.1 x.2)) i = (mget m i).map (f i) := by
  induction m with
  | nil => rfl
  | cons p rest ih =>
    obtain ⟨k, v⟩ := p
    simp only [List.map_cons, mget]
    split
    · next h => rw [h]; rfl
    · split
      · rfl
      · exact ih

/-- A dome that has been set is the one that is read. -/
@[simp] theorem State.dome_setDome_same (s : State) (d : Nat) (x : Dome) : (s.setDome d x).dome d = x := by
  simp [State.dome, State.setDome]

/-- A virtual function that has been set is the one that is read. -/
@[simp] theorem State.vf_setVf_same (s : State) (n : Nat) (x : Vf) : (s.setVf n x).vf n = x := by
  simp [State.vf, State.setVf]

/-- A stack that has been set is the one that is read. -/
@[simp] theorem State.stack_setStack_same (s : State) (i : Nat) (x : Stack) : (s.setStack i x).stack i = x := by
  simp [State.stack, State.setStack]

/-! ## What a dome's recall changes (R56) -/

/-- State t is state s but for what waits or is on its way; each core runs what it ran. -/
structure Recalled (s t : State) : Prop where
  rest : ∃ c f p r v h, t = { s with cores := c, flights := f, placements := p, front := r, saved := v, homes := h }
  acts : ∀ {k c}, mget s.cores k = some c → ∃ d, mget t.cores k = some d ∧ d.act = c.act

/-- Nothing has changed. -/
theorem Recalled.refl (s : State) : Recalled s s := ⟨⟨_, _, _, _, _, _, rfl⟩, fun h => ⟨_, h, rfl⟩⟩

/-- One after the other. -/
theorem Recalled.trans {s t u : State} (h : Recalled s t) (g : Recalled t u) : Recalled s u := by
  refine ⟨?_, fun hc => ?_⟩
  · obtain ⟨_, _, _, _, _, _, rfl⟩ := h.rest
    obtain ⟨_, _, _, _, _, _, rfl⟩ := g.rest
    exact ⟨_, _, _, _, _, _, rfl⟩
  · obtain ⟨d, hd, hact⟩ := h.acts hc
    obtain ⟨e, he, hact'⟩ := g.acts hd
    exact ⟨e, he, hact'.trans hact⟩

/-- A change that leaves the cores alone. -/
theorem recalled_of {s : State} (f p r v h) : Recalled s { s with flights := f, placements := p, front := r, saved := v, homes := h } :=
  ⟨⟨_, _, _, _, _, _, rfl⟩, fun hc => ⟨_, hc, rfl⟩⟩

/-- A core whose slots are replaced. -/
theorem recalled_slots (s : State) (k : Nat) (l : Vector Slot 32) : Recalled s (s.setCore k { s.core k with slots := l }) := by
  refine ⟨⟨_, s.flights, s.placements, s.front, s.saved, s.homes, rfl⟩, fun {j c} hc => ?_⟩
  by_cases hj : j = k
  · subst hj
    exact ⟨_, mget_mput_same _ _ _, by simp [State.core, hc]⟩
  · exact ⟨c, (mget_mput_other _ _ hj).trans hc, rfl⟩

/-- Slots freed leave the activation alone. -/
theorem Core.withdraw_act (c : Core) (p : Packet → Bool) : (c.withdraw p).act = c.act :=
  foldl_keeps Core.act (f := fun c i => c.freeSlot i) (fun _ _ => rfl) _ c

/-- Messages withdrawn from their way and from the inboxes. -/
theorem recalled_pull (s : State) (p : Packet → Bool) : Recalled s (s.pull p) := by
  have hfree : Recalled s (s.freeFlights p) := by
    unfold State.freeFlights
    refine foldl_related (R := Recalled) Recalled.trans (fun u f => ?_) _ (recalled_of _ s.placements s.front s.saved s.homes)
    split
    · exact recalled_slots u _ _
    · exact .refl u
    · exact .refl u
  refine hfree.trans ⟨⟨_, _, _, _, _, _, rfl⟩, fun hc => ⟨_, ?_, Core.withdraw_act _ p⟩⟩
  exact (mget_map_entries _ (fun c : Core => c.withdraw p) _).trans (by rw [hc]; rfl)

/-- What a dome has not begun goes back to its streams. -/
theorem recalled_recall (s : State) (d : Nat) : Recalled s (s.recall d) := by
  unfold State.recall
  dsimp only
  refine foldr_related (R := Recalled) Recalled.trans (fun i v => ?_) _ (foldr_related (R := Recalled) Recalled.trans (fun p v => ?_) _
    ((recalled_pull s _).trans (recalled_of _ _ _ _ _)))
  rotate_left
  · split
    · exact recalled_of v.flights v.placements _ v.saved v.homes
    · exact recalled_of v.flights v.placements _ v.saved _
    · exact .refl v
  · cases i with
    | unit l n => exact recalled_of v.flights v.placements _ v.saved v.homes
    | task o => exact recalled_of v.flights v.placements _ v.saved v.homes
    | ctx c => exact recalled_of v.flights v.placements v.front _ v.homes
    | tcb g => exact .refl v

/-! ## A dome's retirement (R56, R405) -/

/-- What retires a dome leaves alone. -/
theorem State.retire_keeps (s : State) (d vf : Nat) (service p : Bool) :
    (s.retire d vf service p).mem = s.mem ∧ (s.retire d vf service p).kcp = s.kcp ∧ (s.retire d vf service p).replies = s.replies := by
  obtain ⟨_, _, _, _, _, _, heq⟩ := (recalled_recall (s.setVf vf { s.vf vf with domes := (s.vf vf).domes.filter (· != d) }) d).rest
  unfold State.retire
  dsimp only
  rw [heq]
  split <;> exact ⟨rfl, rfl, rfl⟩

/-- A dome that retires has left its partition. -/
theorem State.retire_dome (s : State) (d vf : Nat) (service p : Bool) :
    ((s.retire d vf service p).dome d).mode = .retiring vf service none ∧ d ∉ ((s.retire d vf service p).vf vf).domes := by
  obtain ⟨_, _, _, _, _, _, heq⟩ := (recalled_recall (s.setVf vf { s.vf vf with domes := (s.vf vf).domes.filter (· != d) }) d).rest
  unfold State.retire
  dsimp only
  rw [heq]
  split <;> simp [State.dome, State.vf, State.setDome, State.setVf]

/-- A dome that retires with pre-emption asks each of its cores that runs an activation. -/
theorem State.retire_asks {s : State} {d vf k : Nat} {service : Bool} {c : Core} (hc : mget s.cores k = some c) (hk : domeOf k = d)
    (hact : c.act ≠ none) : ((s.retire d vf service true).core k).preempt = true := by
  obtain ⟨x, hx, hxact⟩ := (recalled_recall (s.setVf vf { s.vf vf with domes := (s.vf vf).domes.filter (· != d) }) d).acts hc
  have hask : x.ask.preempt = true := by
    have hsome : x.act.isSome = true := by
      rw [hxact]
      exact Option.isSome_iff_ne_none.2 hact
    simp [Core.ask, hsome]
  unfold State.retire State.core
  simp only [if_true]
  rw [mget_map_numbered _ (fun n (y : Core) => if domeOf n = d then y.ask else y)]
  simp only [State.setDome, hx, hk, if_true, Option.map_some, Option.getD_some, hask]

/-! ## PART (R397) -/

/-- What PART sets lies outside memory and the endpoints. -/
theorem State.part_keeps {s u : State} {op : PartOp} (h : s.part op = some u) :
    u.mem = s.mem ∧ u.kcp = s.kcp ∧ u.replies = s.replies := by
  cases op with
  | assign vf d =>
    simp only [State.part] at h
    split at h <;> cases h <;> exact ⟨rfl, rfl, rfl⟩
  | remove d p =>
    simp only [State.part] at h
    split at h <;> cases h
    exact s.retire_keeps _ _ _ _
  | route d c r =>
    simp only [State.part] at h
    split at h
    · cases h; exact ⟨rfl, rfl, rfl⟩
    · split at h
      · split at h <;> cases h <;> exact ⟨rfl, rfl, rfl⟩
      · split at h <;> cases h
        exact ⟨rfl, rfl, rfl⟩
  | stitch vf x =>
    simp only [State.part] at h
    split at h
    · cases h; exact ⟨rfl, rfl, rfl⟩
    · split at h <;> cases h
      exact ⟨rfl, rfl, rfl⟩
  | weight | context | swb | remote | channel | slot | line | group | package => cases h; exact ⟨rfl, rfl, rfl⟩

/-- Whether PART is refused does not depend on the requests that wait. -/
theorem State.part_dequeued (s : State) (ep : Nat) (rest : List KcpReq) (op : PartOp) :
    (s.dequeued ep rest).part op = none ↔ s.part op = none := by
  have hquiet : ∀ v, (s.dequeued ep rest).quiet v = s.quiet v := fun _ => rfl
  cases op with
  | assign vf d => simp only [State.part, State.dequeued_dome]; split <;> simp
  | remove d p => simp only [State.part, State.dequeued_dome]; split <;> simp
  | route d c r =>
    simp only [State.part, State.dequeued_dome, State.dequeued_stitch, hquiet]
    split
    · simp
    · split
      · split <;> simp
      · split <;> simp
  | stitch vf x =>
    simp only [State.part, State.dequeued_stitch]
    split
    · simp
    · split <;> simp
  | weight | context | swb | remote | channel | slot | line | group | package => exact iff_of_false nofun nofun

/-- A dome that cannot be assigned. -/
theorem State.part_assign_none (s : State) (vf d : Nat) : s.part (.assign vf d) = none ↔
    (s.dome d).mode ≠ .unassigned ∧ ∀ old, (s.dome d).mode ≠ .retiring old false none := by
  simp only [State.part]
  split <;> simp_all

/-- A dome that cannot be removed. -/
theorem State.part_remove_none (s : State) (d : Nat) (p : Bool) : s.part (.remove d p) = none ↔ ∀ old, (s.dome d).mode ≠ .owned old := by
  simp only [State.part]
  split <;> simp_all

/-- A re-stitching that another partition's holds up. -/
theorem State.part_stitch_none (s : State) (vf : Nat) (x : Topology) : s.part (.stitch vf x) = none ↔
    ∃ y, s.stitch = some y ∧ y.vf ≠ vf := by
  simp only [State.part]
  split <;> simp_all

/-! ## Counters (R401) -/

/-- A counter that has been advanced. -/
theorem find_bump (c : Counter) (n : Nat) (l : List (Counter × Nat)) :
    (((bump c n l).find? (·.1 == c)).map Prod.snd).getD 0 = min (((l.find? (·.1 == c)).map Prod.snd).getD 0 + n) (2 ^ 64 - 1) := by
  induction l with
  | nil => simp [bump]
  | cons x rest ih =>
    obtain ⟨d, v⟩ := x
    unfold bump
    by_cases hd : d = c
    · simp [hd]
    · simpa [hd] using ih

/-- An event counted shows in its counter, which saturates. -/
theorem State.counter_count (s : State) (c : Counter) : (s.count c).counter c = min (s.counter c + 1) (2 ^ 64 - 1) := by
  simpa [State.counter, State.count] using find_bump c 1 s.sc.counters

end Sys2Proof.Machine
end

section
/-! SUPPORT. The effects of PART, of tokens, of firmware and of keys, each in the state that the operation leaves (R57, R58, R349, R391,
R396, R403). -/
namespace Sys2Proof.Machine

section
variable {s u : State}

/-! ## PART (R57, R58) -/

/-- A dome assigned: an unassigned one joins the partition, a retiring one is handed on later. -/
theorem State.part_assign {vf d : Nat} (h : s.part (.assign vf d) = some u) :
    ((s.dome d).mode = .unassigned → (u.dome d).mode = .owned vf ∧ (u.vf vf).domes = (s.vf vf).domes ++ [d]) ∧
      ∀ old, (s.dome d).mode = .retiring old false none → (u.dome d).mode = .retiring old false (some vf) ∧ u.vfs = s.vfs := by
  simp only [State.part] at h
  refine ⟨fun hm => ?_, fun old hm => ?_⟩
  · rw [hm] at h
    cases h
    simp [State.give, State.dome, State.setDome, State.setVf, State.vf]
  · rw [hm] at h
    cases h
    exact ⟨by simp, rfl⟩

/-- A dome removed retires. -/
theorem State.part_remove {d : Nat} {p : Bool} (h : s.part (.remove d p) = some u) (vf : Nat) (hm : (s.dome d).mode = .owned vf) :
    u = s.retire d vf false p := by
  simp only [State.part, hm] at h
  exact (Option.some.inj h).symm

/-- A route of a partition: it is loaded where the partition is quiet, and waits else. -/
theorem State.part_route {d c vf : Nat} {r : Route} (h : s.part (.route d c r) = some u) (hm : (s.dome d).mode = .owned vf)
    (hstitch : s.stitch = none) : (s.quiet vf = true → mget u.routes (64 * d + c) = some r ∧ u.stitch = none) ∧
      (s.quiet vf = false → u.routes = s.routes ∧ u.stitch = some ⟨vf, none, [(d, c, r)]⟩) := by
  simp only [State.part, hm, DomeMode.vf, hstitch] at h
  refine ⟨fun hquiet => ?_, fun hquiet => ?_⟩
  · simp only [hquiet, if_true] at h
    cases h
    exact ⟨mget_mput_same _ _ _, hstitch⟩
  · simp only [hquiet] at h
    cases h
    exact ⟨rfl, rfl⟩

/-! ## Tokens (R391) -/

/-- A field above bit 48 of a token is what lies above it. -/
theorem bits_reserved (b : BitVec 128) : bits b.toNat 48 80 = b.toNat / 2 ^ 48 := by
  have := b.isLt
  unfold bits
  omega

/-- The sequence number of a token. -/
theorem token_seq (b : BitVec 128) : BitVec.ofNat 32 (bits b.toNat 0 32) = b.truncate 32 := by
  apply BitVec.eq_of_toNat_eq
  simp [bits]

/-- A token with a nonzero reserved byte is ignored and counted. -/
theorem State.token_malformed (s : State) {b : BitVec 128} (arrived : Nat) (h : b.toNat / 2 ^ 48 ≠ 0) :
    s.token b.toNat arrived = s.count .tokensIgnored := by
  unfold State.token
  simp only [bits_reserved, h, ne_eq, not_false_eq_true, if_true]

/-- A token that is newer than the last, or the first. -/
def Station.newer (x : Station) (seq : BitVec 32) : Prop :=
  x.anyToken = false ∨ (0 < (seq - x.lastSeq).toNat ∧ (seq - x.lastSeq).toNat < 2 ^ 31)

/-- A newer token is in force for 500 ms from its arrival. -/
theorem State.token_newer (s : State) {b : BitVec 128} (arrived : Nat) (h : b.toNat / 2 ^ 48 = 0) (hnew : s.sc.newer (b.truncate 32)) :
    let t := s.token b.toNat arrived
    t.sc.lastSeq = b.truncate 32 ∧ t.sc.budget = max 900 (min 3000 (b.toNat / 2 ^ 32 % 2 ^ 16)) ∧ t.sc.expiry = arrived + 600000000 := by
  have hcond : (!s.sc.anyToken || (decide (0 < (b.truncate 32 - s.sc.lastSeq).toNat) &&
      decide ((b.truncate 32 - s.sc.lastSeq).toNat < 2 ^ 31))) = true := by
    simpa [Station.newer] using hnew
  unfold State.token
  simp only [bits_reserved, h, token_seq, hcond, ne_eq, not_true_eq_false, if_false, if_true]
  unfold State.count
  split <;> exact ⟨rfl, rfl, rfl⟩

/-- An older token is ignored and counted. -/
theorem State.token_older (s : State) {b : BitVec 128} (arrived : Nat) (h : b.toNat / 2 ^ 48 = 0)
    (hold : ¬ s.sc.newer (b.truncate 32)) : s.token b.toNat arrived = s.count .tokensIgnored := by
  have hcond : ¬ (!s.sc.anyToken || (decide (0 < (b.truncate 32 - s.sc.lastSeq).toNat) &&
      decide ((b.truncate 32 - s.sc.lastSeq).toNat < 2 ^ 31))) = true := by
    simpa [Station.newer] using hold
  unfold State.token
  simp only [bits_reserved, h, token_seq, ne_eq, not_true_eq_false, if_false]
  exact if_neg hcond

/-- A token leaves the endpoints alone. -/
theorem State.token_keeps (s : State) (b arrived : Nat) :
    (s.token b arrived).kcp = s.kcp ∧ (s.token b arrived).replies = s.replies := by
  unfold State.token State.count
  dsimp only
  repeat' split
  all_goals exact ⟨rfl, rfl⟩

/-! ## Firmware (R403) -/

/-- A good image becomes the active slot's, and the controller restarts. -/
theorem State.install_good (hready : s.sc.boot = .ready) {img : List Byte} (hsigned : Config.imageSigned img = true)
    (hversion : s.sc.fused.toNat ≤ (Config.imageVersion img).toNat) : ∃ x : Station, s.install img = (statusOnly 0, { s with sc := x }) ∧
      x.activeB = !s.sc.activeB ∧ x.boot = .restarting ∧ x.active = ⟨Config.imageVersion img, img, true, false⟩ := by
  unfold State.install
  simp only [hsigned, hversion, decide_true, Bool.and_self, if_true]
  refine ⟨_, rfl, ?_⟩
  cases hactive : s.sc.activeB <;> simp [hready, Station.active]

/-- Any other image leaves the active slot as it is. -/
theorem State.install_bad {img : List Byte}
    (hbad : ¬ (Config.imageSigned img = true ∧ s.sc.fused.toNat ≤ (Config.imageVersion img).toNat)) :
    ∃ x : Station, s.install img = (statusOnly 4, { s with sc := x }) ∧ x.active = s.sc.active ∧ x.boot = s.sc.boot := by
  have hgood : (Config.imageSigned img && decide (s.sc.fused.toNat ≤ (Config.imageVersion img).toNat)) = false := by
    simpa using hbad
  unfold State.install
  simp only [hgood]
  refine ⟨_, rfl, ?_⟩
  cases hactive : s.sc.activeB <;> simp [Station.active, hactive]

/-! ## The log and the keys (R396, R401) -/

/-- The latest entry stands in the log. -/
theorem State.mem_log_note (s : State) (src : Nat) (code : LogCode) (data : List Nat) : ∃ e ∈ (s.note src code data).sc.log,
    e.code = code ∧ e.data = BitVec.ofNat 128 (data.foldr (fun x acc => x + 2 ^ 64 * acc) 0) := by
  refine ⟨⟨s.time, src, code, _⟩, ?_, rfl, rfl⟩
  unfold State.note
  dsimp only
  rw [List.drop_append_of_le_length (by omega)]
  exact List.mem_append_right _ (List.mem_singleton_self _)

/-- A key change shows the first 16 bytes of the key of its body. -/
theorem State.mem_log_noteKey (s : State) (b : BitVec 320) : ∃ e ∈ (s.noteKey (keyOf b)).sc.log,
    e.code = .keyChange ∧ e.data = BitVec.ofNat 128 (b.toNat / 2 ^ 64) := by
  obtain ⟨e, he, hcode, hdata⟩ := s.mem_log_note 0xF000 .keyChange [(keyOf b).toNat % 2 ^ 128]
  refine ⟨e, he, hcode, hdata.trans (BitVec.eq_of_toNat_eq ?_)⟩
  have := b.isLt
  simp only [keyOf, BitVec.toNat_ofNat, List.foldr_cons, List.foldr_nil]
  omega

/-- The action of a KEYS request is its low byte. -/
theorem keyAction_eq (b : BitVec 320) : keyAction b = b.toNat % 256 := by
  simp [keyAction, bits]

/-- The reserved bytes of a KEYS request. -/
theorem bits_keyReserved (b : BitVec 320) : bits b.toNat 8 56 = b.toNat / 2 ^ 8 % 2 ^ 56 := by
  rw [bits]

end

end Sys2Proof.Machine
end

section
/-! SUPPORT. The steps of the management endpoint, when a request is noted as one that came to a busy controller (R400, R403), and what
PART and SVC answer. -/
namespace Sys2Proof.Machine

section
variable (ep : Nat) (s : State)

theorem exec_kcpPart : exec (.kcpPart ep) s = execKcpPart ep s := rfl
theorem exec_kcpUnknownOp : exec (.kcpUnknownOp ep) s = execKcpUnknownOp ep s := rfl
theorem exec_kcpToken : exec (.kcpToken ep) s = execKcpToken ep s := rfl
theorem exec_kcpFwupdImage : exec (.kcpFwupdImage ep) s = execKcpFwupdImage ep s := rfl
theorem exec_kcpFwupdCommit : exec (.kcpFwupdCommit ep) s = execKcpFwupdCommit ep s := rfl
theorem exec_kcpSvc : exec (.kcpSvc ep) s = execKcpSvc ep s := rfl
theorem exec_kcpLog : exec (.kcpLog ep) s = execKcpLog ep s := rfl
theorem exec_kcpKeysAdd : exec (.kcpKeysAdd ep) s = execKcpKeysAdd ep s := rfl
theorem exec_kcpKeysRevoke : exec (.kcpKeysRevoke ep) s = execKcpKeysRevoke ep s := rfl

end

/-- What an endpoint's requests note of the controller at their arrival: busy in a start and in a restart, and in SAFE but for the four
operations of the management endpoint that SAFE answers. -/
theorem State.busyFor_iff (s : State) (ep : Nat) (b : KcpBody) : s.busyFor ep b = true ↔
    s.sc.boot = .booting ∨ s.sc.boot = .restarting ∨ s.sc.boot = .restartingSafe ∨
      (s.sc.boot = .safe ∧ ¬ (ep = 1024 ∧ b.op ∈ [0x0A, 0x0B, 0x42, 0x44] ∧ ∀ n, b ≠ .other n)) := by
  unfold State.busyFor
  cases s.sc.boot with
  | safe => cases b <;> simp [KcpBody.op]
  | _ => simp

/-- The operation of the oldest request. -/
theorem State.oldestOp_eq {s : State} {ep : Nat} {q : KcpReq} {rest : List KcpReq} (hq : mget s.kcp ep = some (q :: rest)) :
    s.oldestOp ep = q.body.op := by
  simp [State.oldestOp, hq]

end Sys2Proof.Machine
end

section
namespace Sys2Proof.Settled
open Machine

/-- Settles O52: each operation of the management endpoint by the status that comes before it or by its own answer. -/
theorem kcpManagement : Obligations.KcpManagement := by
  unfold Obligations.KcpManagement
  refine ⟨?_, ?_, ?_, ?_, ?_, ?_, ?_, ?_, ?_, ?_, ?_, ?_, ?_, ?_⟩
  · intro s ep q rest op hq hbody
    rw [exec_kcpPart, execKcpPart]
    refine ⟨fun hbusy => serve_refuses hq (by rw [hbody]) ?_ ?_, fun hbusy hboot => ?_, fun hbusy hready hep => ?_,
      fun hbusy hready hep hsigner hkeys => ?_⟩
    · rcases hbusy with h | h <;> simp [State.paused, h]
    · rcases hbusy with h | h <;> simp [State.refuses, h]
    · refine (State.begin_eq (x := op) hq (by rw [hbody])).trans (if_pos ?_)
      rcases hboot with h | h | h <;> simp [State.paused, hbusy, h]
    · exact serve_refuses hq (by rw [hbody]) (State.paused_of_ready hready) (State.refuses_other hready hbusy hep)
    · exact serve_refuses hq (by rw [hbody]) (State.paused_of_ready hready) (State.refuses_unsigned hready hbusy hep hsigner hkeys)
  · intro s ep r hep
    exact ⟨s.busyFor ep r.body, by simp [State.input, hep], s.busyFor_iff ep r.body⟩
  · intro s ep q rest n hq hbody hep hready hbusy hform
    rw [exec_kcpUnknownOp, execKcpUnknownOp, State.oldestOp_eq hq, hbody, show (KcpBody.other n).op = n from rfl]
    have hpaused := State.paused_of_ready (q := q) hready
    by_cases hmgmt : 0x40 ≤ n ∧ n ≤ 0x45
    · have hvf : (!(List.range' 0x40 6).contains n) = false := by simp; omega
      rw [hvf]
      exact (serve_refuses hq (by rw [hbody]) hpaused (State.refuses_other hready hbusy hep)).imp fun t ⟨hexec, hans, hsame⟩ =>
        ⟨hexec, hsame, by omega, fun _ _ => hans⟩
    · have hvf : (!(List.range' 0x40 6).contains n) = true := by simp; omega
      rw [hvf]
      exact (serve_refuses hq (by rw [hbody]) hpaused (State.refuses_malformed hready hbusy hep hform)).imp
        fun t ⟨hexec, hans, hsame⟩ => ⟨hexec, hsame, fun _ => hans, by omega⟩
  · intro s ep q rest key op h hbody hbad
    rw [exec_kcpPart, execKcpPart]
    exact mgmtReady_refuses h (by rw [hbody]) (if_pos hbad)
  · intro s ep q rest key op h hbody hbad hnone
    rw [exec_kcpPart, execKcpPart]
    refine mgmtReady_refuses h (by rw [hbody]) ?_
    simp only [hbad, (s.part_dequeued ep rest op).2 hnone]
    rfl
  · intro s ep q rest key op h hbody hbad hsome
    rw [exec_kcpPart, execKcpPart]
    obtain ⟨u, hu⟩ := Option.ne_none_iff_exists'.1 (mt (s.part_dequeued ep rest op).1 hsome)
    obtain ⟨hmem, hkcp, hreplies⟩ := State.part_keeps hu
    refine mgmtReady_answers h (by rw [hbody]) (u := u) ?_ hkcp hreplies ⟨hmem, ?_⟩
    · simp only [hbad, hu]
      rfl
    cases op with
    | assign vf d =>
      have hassign := State.part_assign hu
      exact hassign
    | remove d p =>
      intro vf hm
      obtain rfl := State.part_remove hu vf hm
      obtain ⟨hmode, hdomes⟩ := State.retire_dome (s.dequeued ep rest) d vf false p
      refine ⟨hmode, hdomes, fun k c hc hk hp hact => ?_⟩
      subst hp
      have hasks := State.retire_asks (s := s.dequeued ep rest) (vf := vf) (service := false) hc hk hact
      exact hasks
    | route d c r =>
      intro vf hm hstitch
      have hroute := State.part_route hu hm hstitch
      exact hroute
    | stitch vf x =>
      intro hstitch
      have hquiet : (s.dequeued ep rest).stitch = none := hstitch
      simp only [State.part, hquiet] at hu
      cases hu
      rfl
    | group | line => cases hu; exact mget_mput_same _ _ _
    | package n => cases hu; rfl
    | channel | slot => cases hu; simp [State.barrier, State.bcast, State.reply]
    | weight | context | swb | remote => cases hu; simp [State.vf, State.setVf, State.reply]
  · exact fun s vf d p => ⟨s.part_assign_none vf d, s.part_remove_none d p, s.part_stitch_none vf⟩
  · intro s ep q rest key b h hbody seq watts new
    rw [exec_kcpToken, execKcpToken]
    obtain ⟨hkcp, hreplies⟩ := State.token_keeps (s.dequeued ep rest) b.toNat q.arrived
    refine ⟨fun hbad => ?_, fun hgood hn => ?_, fun hgood hn => ?_⟩
    · refine mgmtReady_answers h (by rw [hbody]) (Prod.ext (congrArg statusOnly (if_pos ?_)) rfl) hkcp hreplies ?_
      · rwa [bits_reserved]
      · rw [State.token_malformed _ _ hbad]
        exact ⟨rfl, rfl, State.counter_count _ _⟩
    · refine mgmtReady_answers h (by rw [hbody]) (Prod.ext (congrArg statusOnly (if_neg ?_)) rfl) hkcp hreplies ?_
      · rwa [bits_reserved, not_not]
      · exact State.token_newer _ _ hgood hn
    · refine mgmtReady_answers h (by rw [hbody]) (Prod.ext (congrArg statusOnly (if_neg ?_)) rfl) hkcp hreplies ?_
      · rwa [bits_reserved, not_not]
      · rw [State.token_older (s.dequeued ep rest) _ hgood hn]
        exact ⟨rfl, rfl, State.counter_count _ _⟩
  · intro s ep q rest key img h hbody good
    rw [exec_kcpFwupdImage, execKcpFwupdImage]
    obtain ⟨-, -, hready, -⟩ := id h
    refine ⟨fun ⟨hsigned, hversion⟩ => ?_, fun hbad => ?_⟩
    · obtain ⟨x, hinstall, hx⟩ := State.install_good (s := s.dequeued ep rest) hready hsigned hversion
      exact mgmtReady_answers h (x := (false, img)) (by rw [hbody]) hinstall rfl rfl hx
    · obtain ⟨x, hinstall, hactive, hboot⟩ := State.install_bad (s := s.dequeued ep rest) hbad
      exact mgmtReady_answers h (x := (false, img)) (by rw [hbody]) hinstall rfl rfl ⟨hactive, hboot.trans hready⟩
  · intro s ep q rest key h hbody
    rw [exec_kcpFwupdCommit, execKcpFwupdCommit]
    refine ⟨fun hno => ?_, fun hslot hrows hold => ?_, fun hslot hrows hnew => ?_⟩
    · refine mgmtReady_refuses h (by rw [hbody]) ?_
      rcases hno with hno | hno <;> simp [hno]
    · refine mgmtReady_answers h (by rw [hbody]) (u := { s.dequeued ep rest with sc := { s.sc with
        fused := s.sc.active.version
        rows := s.sc.rows + 1 } }) ?_ rfl rfl ⟨rfl, rfl⟩
      simp [hslot, hold, Nat.not_le.2 hrows]
    · refine mgmtReady_refuses h (by rw [hbody]) ?_
      simp [hslot, Nat.not_lt.2 hnew, Nat.not_le.2 hrows]
  · intro s ep q rest key i back h
    rw [exec_kcpSvc, execKcpSvc]
    refine ⟨fun hbody hi => mgmtReady_refuses h (x := (true, i, back)) (by rw [hbody]) (if_pos hi), fun hbody hi => ?_,
      fun hbody hi hm => ?_, fun vf hbody hi hm => ?_, fun vf hbody hi hm => ?_⟩
    · refine mgmtReady_answers h (by rw [hbody]) (u := (s.dequeued ep rest).recalibrate i) ?_ rfl rfl ⟨?_, rfl⟩
      · simp [Nat.not_le.2 hi]
      · exact congrArg Stack.recal (State.stack_setStack_same _ _ _)
    · refine mgmtReady_answers h (by rw [hbody]) (u := (s.dequeued ep rest).setDome i { s.dome i with mode := .testing }) ?_ rfl rfl ?_
      · simp [Nat.not_le.2 hi, hm]
      · exact congrArg Dome.mode (State.dome_setDome_same _ _ _)
    · obtain ⟨-, hkcp, hreplies⟩ := (s.dequeued ep rest).retire_keeps i vf true true
      refine mgmtReady_answers h (by rw [hbody]) (u := (s.dequeued ep rest).retire i vf true true) ?_ hkcp hreplies
        ((s.dequeued ep rest).retire_dome i vf true true)
      simp [Nat.not_le.2 hi, hm]
    · refine mgmtReady_refuses h (by rw [hbody]) ?_
      simp [Nat.not_le.2 hi, hm]
  · intro s ep q rest key first n h hbody es body
    have hrefuses := refuses_of_mgmtReady h (vf := false) (inSafe := true)
    obtain ⟨-, hq, hready, -⟩ := h
    rw [exec_kcpLog, execKcpLog]
    exact ⟨_, State.begin_answered (x := (first, n)) hq (by rw [hbody]) (State.paused_of_ready hready) hrefuses rfl,
      mget_mput_same _ _ _, rfl, rfl, rfl, rfl, rfl, rfl⟩
  · intro s ep q rest key b h hbody hreserved haction k
    rw [exec_kcpKeysAdd, execKcpKeysAdd]
    have hk : keyOf b = k := rfl
    have hadd : keyAction b = 0 := (keyAction_eq b).trans haction
    have hform : ¬ (keyAction b ≠ 0 ∨ bits b.toNat 8 56 ≠ 0) := by
      simp only [hadd, bits_keyReserved, hreserved, ne_eq, not_true_eq_false, or_self, not_false_eq_true]
    refine ⟨fun hfresh hroom => ?_, fun hno => ?_⟩
    · refine mgmtReady_answers h (x := b) (by simp [hbody, hadd])
        (u := State.noteKey { s.dequeued ep rest with sc := { s.sc with keys := s.sc.keys ++ [k] } } k) ?_ rfl rfl
        ⟨rfl, State.mem_log_noteKey _ b⟩
      have hrefused : ¬ ((s.sc.keys.contains (keyOf b) || decide (8 ≤ s.sc.keys.length)) = true) := by
        simpa [hk] using And.intro hfresh hroom
      exact (if_neg hform).trans (if_neg hrefused)
    · refine mgmtReady_refuses h (x := b) (by simp [hbody, hadd]) ((if_neg hform).trans (if_pos ?_))
      rcases hno with hno | hno <;> simp [hk, hno]
  · intro s ep q rest key b h hbody hreserved haction k
    rw [exec_kcpKeysRevoke, execKcpKeysRevoke]
    have hk : keyOf b = k := rfl
    have hrevoke : keyAction b = 1 := (keyAction_eq b).trans haction
    have hform : ¬ bits b.toNat 8 56 ≠ 0 := by rwa [bits_keyReserved, not_not]
    obtain ⟨-, -, -, -, -, hsigner, hkey⟩ := id h
    refine ⟨fun hin hmore hother => ?_, fun hno => ?_, fun hmore hown => ?_⟩
    · obtain ⟨e, he, hcode, -⟩ := State.mem_log_noteKey
        { s.dequeued ep rest with sc := { s.sc with keys := s.sc.keys.filter (· != k) } } b
      refine mgmtReady_answers h (x := b) (by simp [hbody, hrevoke])
        (u := State.noteKey { s.dequeued ep rest with sc := { s.sc with keys := s.sc.keys.filter (· != k) } } k) ?_ rfl rfl
        ⟨?_, fun x hx => ?_, e, he, hcode⟩
      · have hlast : ¬ ((!s.sc.keys.contains (keyOf b) || decide (s.sc.keys.length ≤ 1)) = true) := by
          simpa [hk] using And.intro hin hmore
        have hown : q.signer ≠ some (keyOf b) := by
          rw [hsigner]
          exact fun heq => hother (Option.some.inj heq).symm
        exact (if_neg hform).trans ((if_neg hlast).trans (if_neg hown))
      · change k ∉ s.sc.keys.filter (· != k)
        simp
      · change x ∈ s.sc.keys.filter (· != k) ↔ x ∈ s.sc.keys
        simp [hx]
    · refine mgmtReady_refuses h (x := b) (by simp [hbody, hrevoke]) ((if_neg hform).trans (if_pos ?_))
      rcases hno with hno | hno <;> simp [hk, hno]
    · have hlast : ¬ ((!s.sc.keys.contains (keyOf b) || decide (s.sc.keys.length ≤ 1)) = true) := by
        simpa [hk, hown] using And.intro hkey hmore
      exact mgmtReady_refuses h (x := b) (by simp [hbody, hrevoke])
        ((if_neg hform).trans ((if_neg hlast).trans (if_pos (hsigner.trans (congrArg some hown.symm)))))

end Sys2Proof.Settled
end

section
/-! SUPPORT. What the Station Controller's translations and writes change: memory, counts, its copy channels' TLBs and the free values
drawn, and nothing else (R205, R206, R210, R212). -/
namespace Sys2Proof.Machine

/-! ## A write, a check and a walk keep memory in its form -/

section
variable {s : State}

/-- Words' codes checked keep the form. -/
theorem State.checkWord_wf (w : Nat) (h : s.mem.wf = true) : (s.checkWord w).mem.wf = true := by
  unfold State.checkWord
  split
  · exact h
  · dsimp only
    have hkeep : (Memory.wf { s.mem with upsets := mdel s.mem.upsets w }) = true := Memory.wf_congr h rfl rfl rfl
    split
    · rw [(State.count_keeps _ _ _).1]
      exact hkeep
    · unfold State.markWord
      split
      · exact hkeep
      · change (State.count _ _ _).mem.wf = true
        rw [(State.count_keeps _ _ _).1]
        exact Memory.setMark_wf _ _ hkeep

/-- A list of them. -/
theorem State.foldl_checkWord_wf (l : List Nat) (h : s.mem.wf = true) : (l.foldl State.checkWord s).mem.wf = true := by
  induction l generalizing s with
  | nil => exact h
  | cons w l ih => exact ih (State.checkWord_wf w h)

end

/-! ## What is consulted -/

/-- State t is state s but for memory, the counts, the TLBs of agents other than cores, and the free values drawn; memory stays in
its form. -/
structure Consulted (s t : State) : Prop where
  rest : ∃ m sc l f, t = { s with mem := m, sc := sc, tlbs := l, fresh := f }
  form : s.mem.wf = true → t.mem.wf = true

namespace Consulted

/-- Nothing has changed. -/
theorem refl (s : State) : Consulted s s := ⟨⟨_, _, _, _, rfl⟩, id⟩

/-- One after the other. -/
theorem trans {s t u : State} (h : Consulted s t) (g : Consulted t u) : Consulted s u := by
  refine ⟨?_, g.form ∘ h.form⟩
  obtain ⟨_, _, _, _, rfl⟩ := h.rest
  obtain ⟨_, _, _, _, rfl⟩ := g.rest
  exact ⟨_, _, _, _, rfl⟩

/-- What changes memory and counts alone. -/
theorem of_sensed {s t : State} (h : Sensed s t) (hform : s.mem.wf = true → t.mem.wf = true) : Consulted s t := by
  obtain ⟨_, _, rfl⟩ := h
  exact ⟨⟨_, _, _, _, rfl⟩, hform⟩

section
variable {s t : State} (h : Consulted s t)
include h

theorem kcp : t.kcp = s.kcp := by obtain ⟨_, _, _, _, rfl⟩ := h.rest; rfl
theorem replies : t.replies = s.replies := by obtain ⟨_, _, _, _, rfl⟩ := h.rest; rfl
theorem kcpRuns : t.kcpRuns = s.kcpRuns := by obtain ⟨_, _, _, _, rfl⟩ := h.rest; rfl
theorem launches : t.launches = s.launches := by obtain ⟨_, _, _, _, rfl⟩ := h.rest; rfl
theorem jobs : t.jobs = s.jobs := by obtain ⟨_, _, _, _, rfl⟩ := h.rest; rfl
theorem phases : t.phases = s.phases := by obtain ⟨_, _, _, _, rfl⟩ := h.rest; rfl
theorem cores : t.cores = s.cores := by obtain ⟨_, _, _, _, rfl⟩ := h.rest; rfl

end

end Consulted

/-! ## Checks, walks and translations -/

/-- The codes of a span checked. -/
theorem consulted_checked (s : State) (pa n : Nat) : Consulted s (s.checked pa n) := by
  refine .of_sensed (sensed_checked s pa n) fun h => ?_
  unfold State.checked
  split
  · exact h
  · exact State.foldl_checkWord_wf _ h

/-- The codes checked of a walk's entries from a table on. -/
theorem consulted_checkedFrom (v : Viewer) (va : Nat) (l : List (Nat × Nat × Bool)) (table : Nat) (s : State) :
    Consulted s (State.checkedFrom v va l table s) := by
  induction l generalizing table s with
  | nil => exact .refl s
  | cons x rest ih =>
    unfold State.checkedFrom
    dsimp only
    split
    · exact consulted_checked s _ _
    · exact (consulted_checked s _ _).trans (ih _ _)

/-- The codes checked of a whole walk. -/
theorem consulted_checkedWalk (s : State) (v : Viewer) (vf asid va : Nat) : Consulted s (s.checkedWalk v vf asid va) := by
  unfold State.checkedWalk
  split
  · exact .refl s
  · exact (consulted_checked s _ _).trans (consulted_checkedFrom _ _ _ _ _)

/-- One walk. -/
theorem consulted_walkOnce (s : State) (v : Viewer) (vf asid va : Nat) (r : List Access) :
    Consulted s (s.walkOnce v vf asid va r).2 := by
  refine .of_sensed (sensed_walkOnce s v vf asid va r) fun h => ?_
  unfold State.walkOnce
  split
  · exact h
  · split
    · exact h
    · dsimp only
      split
      · exact setAD_wf _ _ _ h
      · exact h

/-- Walks until one holds. -/
theorem consulted_walks (v : Viewer) (vf asid va : Nat) (r : List Access) (n : Nat) (s : State) :
    Consulted s (State.walks v vf asid va r n s).2 := by
  induction n generalizing s with
  | zero => exact (consulted_checkedWalk s v vf asid va).trans (consulted_walkOnce _ _ _ _ _ _)
  | succ n ih =>
    unfold State.walks
    dsimp only
    split
    · exact (consulted_checkedWalk s v vf asid va).trans (consulted_walkOnce _ _ _ _ _ _)
    · refine ((consulted_checkedWalk s v vf asid va).trans ⟨⟨_, _, _, _, rfl⟩, fun h => ?_⟩).trans (ih _)
      exact Memory.wf_congr h (by simp [Memory.refresh]) (by simp [Memory.refresh]) (by simp [Memory.refresh])

/-- A translation by a walk. -/
theorem consulted_walkTo (s : State) (v : Viewer) (vf asid va : Nat) (r : List Access) : Consulted s (s.walkTo v vf asid va r).2 := by
  unfold State.walkTo
  split
  · exact .refl s
  · exact consulted_walks _ _ _ _ _ _ _

/-- An agent of the Station Controller: itself or a copy channel. -/
def ofStation : Viewer → Prop
  | .station | .kcpChannel _ => True
  | _ => False

/-- A leaf filled into the TLB of such an agent. -/
theorem consulted_fillTlb {v : Viewer} (hv : ofStation v) (s : State) (asid : Nat) (l : Leaf) :
    Consulted s (s.fillTlb (translatorOf v) asid l) := by
  cases v with
  | station => exact .refl s
  | kcpChannel c => exact ⟨⟨_, _, _, _, rfl⟩, id⟩
  | _ => exact hv.elim

/-- A translation for such an agent. -/
theorem consulted_engineTo {v : Viewer} (hv : ofStation v) (s : State) (vf asid va : Nat) (r : List Access) :
    Consulted s (s.engineTo v vf asid va r).2 := by
  have hwalk := consulted_walkTo s v vf asid va r
  unfold State.engineTo
  split
  · exact .refl s
  · split
    · exact .refl s
    · split
      · next heq =>
        rw [heq] at hwalk
        exact hwalk
      · next heq =>
        rw [heq] at hwalk
        exact hwalk.trans (consulted_fillTlb hv _ _ _)

/-- The translation of pages, as far as it goes. -/
theorem consulted_pages {v : Viewer} (hv : ofStation v) (vf asid : Nat) (r : List Access) (fuel va n : Nat) (s : State) :
    Consulted s (State.pages v vf asid r fuel va n s).2 := by
  induction fuel generalizing va n s with
  | zero => exact .refl s
  | succ fuel ih =>
    have htrans := consulted_engineTo hv s vf asid va r
    unfold State.pages
    split
    · exact .refl s
    · split
      · next heq =>
        rw [heq] at htrans
        exact htrans
      · next p t heq =>
        rw [heq] at htrans
        have hrest := ih (va + min n (65536 - va % 65536)) (n - min n (65536 - va % 65536)) t
        dsimp only
        split
        · next heq2 =>
          rw [heq2] at hrest
          exact htrans.trans hrest
        · exact htrans.trans hrest

/-- The pages of a span. -/
theorem consulted_spanPages {v : Viewer} (hv : ofStation v) (s : State) (vf asid : Nat) (r : List Access) (va n : Nat) :
    Consulted s (s.spanPages v vf asid r va n).2 := consulted_pages hv _ _ _ _ _ _ _

/-- Whether an address is mapped. -/
theorem consulted_mapped (s : State) (vf asid : Nat) (a : Int) : Consulted s (s.mapped vf asid a).2 := by
  unfold State.mapped
  split
  · exact .refl s
  · exact consulted_checkedWalk _ _ _ _ _

/-- Whether pages from one on are mapped. -/
theorem consulted_allMapped (vf asid n : Nat) (a : Int) (s : State) : Consulted s (State.allMapped vf asid n a s).2 := by
  induction n generalizing a s with
  | zero => exact .refl s
  | succ n ih =>
    have hmapped := consulted_mapped s vf asid a
    unfold State.allMapped
    split
    · next heq =>
      rw [heq] at hmapped
      exact hmapped.trans (ih _ _)
    · next heq =>
      rw [heq] at hmapped
      exact hmapped

/-- Whether a capability's bounds lie inside an address space. -/
theorem consulted_boundsInside (s : State) (vf asid : Nat) (info value : Word) : Consulted s (s.boundsInside vf asid info value).2 := by
  rw [State.boundsInside]
  generalize capBase info value = lo
  generalize capTop info value = hi
  by_cases h : hi ≤ lo
  · rw [if_pos h]
    exact consulted_mapped _ _ _ _
  · rw [if_neg h]
    exact consulted_allMapped _ _ _ _ _

/-! ## Writes -/

/-- The words that a write covers in part, checked for the merge. -/
theorem consulted_merged (s : State) (pa n : Nat) : Consulted s (s.merged pa n) := by
  unfold State.merged
  split
  · exact .refl s
  · exact .of_sensed (.foldl sensed_checkWord _ _) (State.foldl_checkWord_wf _)

/-- A write's counts leave memory. -/
theorem State.countMarks_mem (s : State) (pa : Nat) (ev : Nat × Nat × Nat) : (s.countMarks pa ev).mem = s.mem := by
  simp only [State.countMarks, State.count_keeps]

/-- The memory after a write. -/
theorem State.writeMem_mem (s : State) (v : Visibility) (pa : Nat) (bs : List Byte) (pois : Nat → Bool) (tag : Bool) :
    (s.writeMem v pa bs pois tag).mem = (s.merged pa bs.length).mem.write v pa bs pois tag :=
  State.countMarks_mem _ _ _

/-- A write. -/
theorem consulted_writeMem (s : State) (v : Visibility) (pa : Nat) (bs : List Byte) (pois : Nat → Bool) (tag : Bool) :
    Consulted s (s.writeMem v pa bs pois tag) := by
  refine (consulted_merged s pa bs.length).trans (.of_sensed ?_ fun h => ?_)
  · exact ((Sensed.trans ⟨_, _, rfl⟩ (sensed_count _ _ _)).trans (sensed_count _ _ _)).trans (sensed_count _ _ _)
  · rw [State.writeMem_mem]
    exact Memory.write_wf _ _ _ _ _ h

end Sys2Proof.Machine
end

section
/-! SUPPORT. How a request of a virtual function's endpoint is answered by its operation, and the operations that answer in one step
from what the state holds (R397 to R401, R404). -/
namespace Sys2Proof.Machine

/-! ## A request of a virtual function's endpoint -/

/-- The oldest request of a virtual function's endpoint of a ready package is well-formed, and came to a controller that was not busy. -/
structure VfReady (s : State) (ep : Nat) (q : KcpReq) (rest : List KcpReq) : Prop where
  oldest : mget s.kcp ep = some (q :: rest)
  virtual : ep < 1024
  ready : s.sc.boot = .ready
  heard : q.busy = false
  form : q.wellFormed = true

/-- A step answers the oldest request of an endpoint with a status and a body, and leads to a state with a property. -/
def KcpDone (s : State) (ep : Nat) (q : KcpReq) (rest : List KcpReq) (o : Out) (st : Nat) (body : List Byte) (more : State → Prop) :
    Prop :=
  ∃ (t : State) (p : List Nat) (es : List LogEntry), o = .next t ∧
    mget t.kcp ep = some rest ∧ t.replies = s.replies ++ [⟨ep, q.header.reply st body.length, body, p, es⟩] ∧
    (p ≠ [] → ∃ j a n, q.body = .read j a n) ∧ more t

/-- A step leaves the oldest request of an endpoint where it is, with its performance going on. -/
def KcpGoes (s : State) (ep : Nat) (o : Out) (more : State → KcpRun → Prop) : Prop :=
  ∃ (t : State) (y : KcpRun), o = .next t ∧ t.kcp = s.kcp ∧ t.replies = s.replies ∧ mget t.kcpRuns ep = some y ∧ more t y

section
variable {s : State} {ep : Nat} {q : KcpReq} {rest : List KcpReq} {α : Type} {pick : KcpBody → Option α} {x : α} {mgmt inSafe : Bool}
  {u : State} {st : Nat} {body : List Byte} {more : State → Prop}

/-- What an operation answers is what the request is answered with. -/
theorem VfReady.done {run : α → KcpReq → State → Option Answer × State} (h : VfReady s ep q rest)
    (hpick : pick q.body = some x) (hrun : run x q (s.dequeued ep rest) = (some ⟨st, body, [], []⟩, u))
    (hkcp : u.kcp = mput s.kcp ep rest) (hreplies : u.replies = s.replies) (hmore : more (u.reply ep q ⟨st, body, [], []⟩)) :
    KcpDone s ep q rest (s.begin ep pick true mgmt inSafe run) st body more := by
  refine ⟨_, [], [], State.begin_answered h.oldest hpick (State.paused_of_ready h.ready)
    (State.refuses_vf h.ready h.heard h.virtual h.form) hrun, ?_, ?_, fun hne => (hne rfl).elim, hmore⟩
  · change mget u.kcp ep = _
    rw [hkcp, mget_mput_same]
  · rw [← hreplies]
    rfl

/-- The same for an operation that is performed in one step. -/
theorem VfReady.served {run : α → KcpReq → State → Answer × State} (h : VfReady s ep q rest) (hpick : pick q.body = some x)
    (hrun : run x q (s.dequeued ep rest) = (⟨st, body, [], []⟩, u)) (hkcp : u.kcp = mput s.kcp ep rest) (hreplies : u.replies = s.replies)
    (hmore : more (u.reply ep q ⟨st, body, [], []⟩)) : KcpDone s ep q rest (s.serve ep pick true mgmt inSafe run) st body more :=
  h.done hpick (by rw [hrun]) hkcp hreplies hmore

/-- The same for an operation that has consulted memory at most. -/
theorem VfReady.done_of_consulted {run : α → KcpReq → State → Option Answer × State} (h : VfReady s ep q rest)
    (hpick : pick q.body = some x) (hrun : run x q (s.dequeued ep rest) = (some ⟨st, body, [], []⟩, u))
    (hu : Consulted (s.dequeued ep rest) u) (hmore : more (u.reply ep q ⟨st, body, [], []⟩)) : KcpDone s ep q rest (s.begin ep pick true mgmt inSafe run) st body more :=
  h.done hpick hrun hu.kcp hu.replies hmore

/-- An operation that goes on leaves its request the oldest. -/
theorem VfReady.goes {run : α → KcpReq → State → Option Answer × State} {y : KcpRun} {more : State → KcpRun → Prop}
    (h : VfReady s ep q rest) (hpick : pick q.body = some x)
    (hrun : run x q (s.dequeued ep rest) = (none, { u with kcpRuns := mput u.kcpRuns ep y })) (hreplies : u.replies = s.replies)
    (hmore : more { u with kcpRuns := mput u.kcpRuns ep y, kcp := s.kcp } y) :
    KcpGoes s ep (s.begin ep pick true mgmt inSafe run) more :=
  ⟨_, y, State.begin_goes h.oldest hpick (State.paused_of_ready h.ready)
    (State.refuses_vf h.ready h.heard h.virtual h.form) hrun, rfl, hreplies, mget_mput_same _ _ _, hmore⟩

/-- An operation that cannot be taken up yet changes nothing. -/
theorem VfReady.waits {run : α → KcpReq → State → Option Answer × State} (h : VfReady s ep q rest)
    (hpick : pick q.body = some x) (hrun : run x q (s.dequeued ep rest) = (none, s.dequeued ep rest)) :
    s.begin ep pick true mgmt inSafe run = .next s :=
  State.begin_goes (u := s.dequeued ep rest) h.oldest hpick (State.paused_of_ready h.ready)
    (State.refuses_vf h.ready h.heard h.virtual h.form) hrun

/-- A request refused before its operation has no effect but its reply. -/
theorem KcpDone.of_refused {vf : Bool} {run : α → KcpReq → State → Option Answer × State} {code : Nat}
    (h : VfReady s ep q rest) (hpick : pick q.body = some x)
    (hcode : s.refuses ep q vf mgmt inSafe = code + 1) (hmore : more ((s.dequeued ep rest).reply ep q (statusOnly (code + 1)))) :
    KcpDone s ep q rest (s.begin ep pick vf mgmt inSafe run) (code + 1) [] more :=
  ⟨_, [], [], State.begin_refused h.oldest hpick (State.paused_of_ready h.ready) hcode, mget_mput_same _ _ _, rfl,
    fun hne => (hne rfl).elim, hmore⟩

end

/-! ## Words -/

/-- The bytes of a number depend on it modulo their count. -/
theorem leBytes_mod (n x : Nat) : leBytes n (x % 256 ^ n) = leBytes n x := by
  refine List.ext_getElem (by simp) fun j hj _ => ?_
  rw [leBytes_getElem, leBytes_getElem]
  apply BitVec.eq_of_toNat_eq
  have hlt : j < n := by simpa using hj
  obtain ⟨k, rfl⟩ : ∃ k, n = j + (k + 1) := ⟨n - j - 1, by omega⟩
  rw [BitVec.toNat_ofNat, BitVec.toNat_ofNat, Nat.pow_add, Nat.mod_mul_right_div_self, Nat.pow_succ' (m := 256) (n := k)]
  exact Nat.mod_mul_right_mod _ _ _

/-- The bytes of a 64-bit word. -/
theorem leBytes_ofNat (x : Nat) : leBytes 8 (BitVec.ofNat 64 x).toNat = leBytes 8 x :=
  leBytes_mod 8 x

/-- The answer of a refusal. -/
theorem wordAnswer_refusal (c : Nat) : wordAnswer (refusal c) = ⟨0, leBytes 8 (2 ^ 63 + c), [], []⟩ := by
  rw [wordAnswer, refusal, leBytes_ofNat]

/-- The answer of a number. -/
theorem wordAnswer_w64 (n : Nat) : wordAnswer (w64 n) = ⟨0, leBytes 8 n, [], []⟩ := by
  rw [wordAnswer, w64, leBytes_ofNat]

end Sys2Proof.Machine
end

section
/-! SUPPORT. A cancelled launch and a sealed phase or job stay so in whatever completes and is cancelled after, and the endpoints hear of
none of it (R23, R25, R59, R72). -/
namespace Sys2Proof.Machine

/-! ## What lasts at a number of a table -/

section
variable {α : Type} {lo : Option Nat} {i j : Nat} {m : Map α}

/-- No entry stands below the lower end of a table whose numbers rise. -/
theorem mget_of_below (h : rising (some j) (m.map Prod.fst) = true) (hij : i ≤ j) : mget m i = none := by
  cases m with
  | nil => rfl
  | cons p rest =>
    obtain ⟨k, v⟩ := p
    obtain ⟨hk, -⟩ := rising_cons.1 h
    have := hk j rfl
    simp only [mget]
    rw [if_neg (by omega), if_pos (by omega)]

/-- An entry taken out of a table whose numbers rise is gone, and no other one is. -/
theorem mget_mdel (h : rising lo (m.map Prod.fst) = true) : mget (mdel m j) i = if i = j then none else mget m i := by
  induction m generalizing lo with
  | nil => simp [mdel, mget]
  | cons p rest ih =>
    obtain ⟨k, v⟩ := p
    obtain ⟨-, hrest⟩ := rising_cons.1 h
    have hbelow : i ≤ k → mget rest i = none := mget_of_below hrest
    simp only [mdel]
    split
    · next hjk =>
      by_cases hij : i = j
      · rw [if_pos hij, hbelow (by omega)]
      · simp only [mget, hij, if_false]
        rw [if_neg (by omega)]
        split
        · exact hbelow (by omega)
        · rfl
    · split
      · simp only [mget]
        split
        · rw [if_neg (by omega)]
        · split
          · exact (ite_self _).symm
          · rw [if_neg (by omega)]
      · simp only [mget, ih hrest]
        split
        · rw [if_neg (by omega)]
        · split <;> simp

end

/-- A table's numbers rise, and what stands at one of them has a property. -/
def Lasting {α : Type} (P : α → Prop) (i : Nat) (m : Map α) : Prop :=
  rising none (m.map Prod.fst) = true ∧ ∀ y, mget m i = some y → P y

section
variable {α : Type} {P : α → Prop} {i : Nat} {m : Map α}

/-- An entry's removal leaves it. -/
theorem Lasting.mdel (j : Nat) (h : Lasting P i m) : Lasting P i (mdel m j) := by
  refine ⟨rising_mdel j h.1, fun y hy => h.2 y ?_⟩
  rw [mget_mdel h.1] at hy
  split at hy
  · nomatch hy
  · exact hy

/-- A table's numbers rise on where an entry is changed. -/
theorem rising_mmod (j : Nat) (f : α → α) (h : rising none (m.map Prod.fst) = true) : rising none ((mmod m j f).map Prod.fst) = true := by
  unfold mmod
  split
  · exact rising_mput _ h nofun
  · exact h

/-- A change of an entry that keeps the property leaves it. -/
theorem Lasting.mmod {f : α → α} (hf : ∀ y, P y → P (f y)) (j : Nat) (h : Lasting P i m) : Lasting P i (mmod m j f) := by
  refine ⟨rising_mmod j f h.1, fun y hy => ?_⟩
  by_cases hij : i = j
  · subst hij
    rw [mget_mmod_same] at hy
    obtain ⟨z, hz, rfl⟩ := Option.map_eq_some_iff.1 hy
    exact hf z (h.2 z hz)
  · refine h.2 y ?_
    rw [← hy, Machine.mmod]
    split
    · exact (mget_mput_other _ _ hij).symm
    · rfl

/-- A change of the entry that gives it the property. -/
theorem lasting_mmod {f : α → α} (hf : ∀ y, P (f y)) (h : rising none (m.map Prod.fst) = true) : Lasting P i (Machine.mmod m i f) := by
  refine ⟨rising_mmod i f h, fun y hy => ?_⟩
  rw [mget_mmod_same] at hy
  obtain ⟨z, -, rfl⟩ := Option.map_eq_some_iff.1 hy
  exact hf z

end

/-! ## What stays ended -/

/-- From state s to state t no endpoint has heard anything, and what was cancelled or sealed under a number still is, if it is live. -/
structure StaysEnded (i : Nat) (s t : State) : Prop where
  kcp : t.kcp = s.kcp
  replies : t.replies = s.replies
  launches : Lasting (fun y : Launch => y.cancelled = true) i s.launches → Lasting (fun y : Launch => y.cancelled = true) i t.launches
  phases : Lasting (fun y : Phase => y.counts.closed = true) i s.phases → Lasting (fun y : Phase => y.counts.closed = true) i t.phases
  jobs : Lasting (fun y : Job => y.counts.closed = true) i s.jobs → Lasting (fun y : Job => y.counts.closed = true) i t.jobs

/-- Members that end leave what they are counted in sealed. -/
@[simp] theorem Counts.finish_closed (c : Counts) (e : End) (n : Nat) : (c.finish e n).closed = c.closed := by
  cases e <;> rfl

section
variable {i : Nat}

namespace StaysEnded

/-- Nothing has changed. -/
theorem refl (s : State) : StaysEnded i s s := ⟨rfl, rfl, id, id, id⟩

/-- One after the other. -/
theorem trans {s t u : State} (h : StaysEnded i s t) (g : StaysEnded i t u) : StaysEnded i s u :=
  ⟨g.kcp.trans h.kcp, g.replies.trans h.replies, g.launches ∘ h.launches, g.phases ∘ h.phases, g.jobs ∘ h.jobs⟩

/-- What does not touch the endpoints and the three tables. -/
theorem of_eq {s t : State} (hkcp : t.kcp = s.kcp) (hreplies : t.replies = s.replies) (hl : t.launches = s.launches)
    (hp : t.phases = s.phases) (hj : t.jobs = s.jobs) : StaysEnded i s t :=
  ⟨hkcp, hreplies, fun h => hl ▸ h, fun h => hp ▸ h, fun h => hj ▸ h⟩

/-- One launch changed that stays cancelled. -/
theorem of_launch {s t : State} {l : Nat} {f : Launch → Launch} (hl : t.launches = mmod s.launches l f)
    (hf : ∀ y : Launch, y.cancelled = true → (f y).cancelled = true) (hkcp : t.kcp = s.kcp) (hreplies : t.replies = s.replies)
    (hp : t.phases = s.phases) (hj : t.jobs = s.jobs) : StaysEnded i s t :=
  ⟨hkcp, hreplies, fun h => hl ▸ h.mmod hf l, fun h => hp ▸ h, fun h => hj ▸ h⟩

/-- A launch changed that stays cancelled. -/
theorem launch (s : State) (l : Nat) {f : Launch → Launch} (hf : ∀ y : Launch, y.cancelled = true → (f y).cancelled = true) :
    StaysEnded i s { s with launches := mmod s.launches l f } :=
  ⟨rfl, rfl, Lasting.mmod hf l, id, id⟩

/-- A phase changed that stays sealed. -/
theorem phase (s : State) (n : Nat) {f : Phase → Phase} (hf : ∀ y : Phase, y.counts.closed = true → (f y).counts.closed = true) :
    StaysEnded i s { s with phases := mmod s.phases n f } :=
  ⟨rfl, rfl, id, Lasting.mmod hf n, id⟩

/-- A job changed that stays sealed. -/
theorem job (s : State) (n : Nat) {f : Job → Job} (hf : ∀ y : Job, y.counts.closed = true → (f y).counts.closed = true) :
    StaysEnded i s { s with jobs := mmod s.jobs n f } :=
  ⟨rfl, rfl, id, id, Lasting.mmod hf n⟩

end StaysEnded

/-! ## What completes (R23, R25, R30) -/

/-- A successor's counter decreased. -/
theorem staysEnded_release1 (ids : List Nat) (s : State) (t : Nat) : StaysEnded i s (State.release1 ids s t) := by
  unfold State.release1
  dsimp only
  split
  · split <;> exact .of_eq rfl rfl rfl rfl rfl
  · exact .refl s

/-- A TCB's body completed. -/
theorem staysEnded_tcbEnd (s : State) (t : Nat) (e : End) (ids : List Nat) : StaysEnded i s (s.tcbEnd t e ids) := by
  unfold State.tcbEnd
  cases e with
  | faulted => exact .of_eq rfl rfl rfl rfl rfl
  | cancelled => exact .of_launch rfl (fun _ h => h) rfl rfl rfl rfl
  | done =>
    exact foldl_related (R := StaysEnded i) .trans (staysEnded_release1 ids) _ (.of_launch rfl (fun _ h => h) rfl rfl rfl rfl)

/-- A launch's message at its completion. -/
theorem staysEnded_notify (s : State) (l : Nat) (x : Launch) : StaysEnded i s (s.notify l x) := by
  unfold State.notify
  split
  · exact .of_eq rfl rfl rfl rfl rfl
  · obtain ⟨sc, h⟩ := s.count_eq .notifyDiscarded (if x.desc.notify then 1 else 0)
    rw [h]
    exact .of_eq rfl rfl rfl rfl rfl

/-- The first faulted launch of a job is noted. -/
theorem staysEnded_firstFault (s : State) (l : Nat) (x : Launch) :
    StaysEnded i s (if x.counts.outcome = .faulted then
      { s with jobs := mmod s.jobs x.desc.job fun j => { j with firstFault := j.firstFault.orElse fun _ => some l } } else s) := by
  split
  · exact .job s _ fun _ h => h
  · exact .refl s

/-- A launch completes. -/
theorem staysEnded_endLaunch (s : State) (l : Nat) (x : Launch) : StaysEnded i s (s.endLaunch l x) := by
  have hgone : StaysEnded i s (({ s with launches := mdel s.launches l } : State).endLeases l) := ⟨rfl, rfl, Lasting.mdel l, id, id⟩
  unfold State.endLaunch
  dsimp only
  have hnoted := (hgone.trans (staysEnded_notify _ l x)).trans (staysEnded_firstFault _ l x)
  revert hnoted
  generalize (if x.counts.outcome = .faulted then _ else _) = u
  intro hnoted
  split
  · exact hnoted.trans (staysEnded_tcbEnd u _ _ _)
  · split
    · exact hnoted.trans (.of_eq rfl rfl rfl rfl rfl)
    · exact hnoted.trans (.phase u _ fun y h => by simpa using h)

/-- A phase completes. -/
theorem staysEnded_endPhase (s : State) (n : Nat) (p : Phase) : StaysEnded i s (s.endPhase n p) :=
  ⟨rfl, rfl, id, Lasting.mdel n, Lasting.mmod (fun y h => by simpa using h) p.job⟩

/-- A graph completes. -/
theorem staysEnded_endGraph (s : State) (n : Nat) (g : Graph) : StaysEnded i s (s.endGraph n g) :=
  ⟨rfl, rfl, id, Lasting.mmod (fun y h => by simpa using h) g.phase, id⟩

/-- A job completes. -/
theorem staysEnded_endJob (s : State) (n : Nat) (j : Job) : StaysEnded i s (s.endJob n j) :=
  ⟨rfl, rfl, id, id, Lasting.mdel n⟩

/-- Whatever is complete completes. -/
theorem staysEnded_settle (s : State) : StaysEnded i s s.settle :=
  State.settle_of_ends (R := StaysEnded i) .refl .trans staysEnded_endLaunch staysEnded_endGraph staysEnded_endPhase staysEnded_endJob s

/-! ## What is cancelled (R59, R60, R72) -/

/-- What a recall changes. -/
theorem Recalled.staysEnded {s t : State} (h : Recalled s t) : StaysEnded i s t := by
  obtain ⟨_, _, _, _, _, _, rfl⟩ := h.rest
  exact .of_eq rfl rfl rfl rfl rfl

/-- Messages withdrawn. -/
theorem recalled_withdraw (s : State) (p : Packet → Bool) : Recalled s (s.withdraw p).2 :=
  (recalled_pull s p).trans (recalled_of _ _ _ _ _)

/-- Tasks passed. -/
theorem staysEnded_passTasks (s : State) (h qi : Nat) : StaysEnded i s (s.passTasks h qi) :=
  foldl_related (R := StaysEnded i) .trans (f := State.passTask h qi) (fun _ _ => .of_eq rfl rfl rfl rfl rfl) _ (.refl s)

/-- A TCB's task ended. -/
theorem staysEnded_tcbTaskEnd (s : State) (t : Nat) (e : End) (ids : List Nat) : StaysEnded i s (s.tcbTaskEnd t e ids) := by
  unfold State.tcbTaskEnd
  dsimp only
  split
  · refine StaysEnded.trans ?_ (staysEnded_tcbEnd _ _ _ _)
    exact .of_eq rfl rfl rfl rfl rfl
  · exact .of_eq rfl rfl rfl rfl rfl

/-- A task's target advanced. -/
theorem staysEnded_targetEnd (s : State) (d : TaskDesc) (e : End) (ids : List Nat) : StaysEnded i s (s.targetEnd d e ids) := by
  unfold State.targetEnd
  split
  · exact .launch s _ fun _ h => h
  · exact .of_eq rfl rfl rfl rfl rfl
  · exact staysEnded_tcbTaskEnd _ _ _ _
  · exact .refl s

/-- A task retired. -/
theorem staysEnded_retireTask (s : State) (t : TaskRef) (e : End) (ids : List Nat) : StaysEnded i s (s.retireTask t e ids) := by
  unfold State.retireTask
  dsimp only
  split
  · exact .refl s
  · next en _ =>
    refine StaysEnded.trans ?_ (staysEnded_settle _)
    refine StaysEnded.trans ?_ (.launch _ en.ctx fun _ h => h)
    refine StaysEnded.trans ?_ (staysEnded_targetEnd _ _ _ _)
    refine StaysEnded.trans ?_ (staysEnded_passTasks _ _ _)
    exact .of_eq rfl rfl rfl rfl rfl

/-- A task removed. -/
theorem staysEnded_removeTask (s : State) (t : TaskRef) : StaysEnded i s (s.removeTask t) := by
  unfold State.removeTask
  split
  · exact .refl s
  · next e _ =>
    have hgone : ∀ o f p, StaysEnded i s { (s.withdraw fun p => p.delivers t).2 with offers := o, front := f, placements := p } :=
      fun o f p => ((recalled_withdraw s _).staysEnded).trans (.of_eq rfl rfl rfl rfl rfl)
    dsimp only
    split
    · exact (hgone _ _ _).trans (staysEnded_retireTask _ _ _ _)
    · exact (hgone _ _ _).trans (staysEnded_retireTask _ _ _ _)
    · split
      · exact (hgone _ _ _).trans (staysEnded_retireTask _ _ _ _)
      · exact .refl s
    · exact .refl s

/-- Tasks cancelled by their target. -/
theorem staysEnded_cancelTasks (s : State) (p : TaskDesc → Bool) : StaysEnded i s (s.cancelTasks p) :=
  foldl_related (R := StaysEnded i) .trans staysEnded_removeTask _ (.refl s)

/-- A round abandoned. -/
theorem staysEnded_abandonRound (s : State) (g n : Nat) (contrib : List Nat) : StaysEnded i s (s.abandonRound g n contrib) :=
  foldl_related (R := StaysEnded i) .trans (f := fun u k => State.nextRound u k g) (fun _ _ => .of_eq rfl rfl rfl rfl rfl) _
    (.of_eq rfl rfl rfl rfl rfl)

/-- A launch's rounds abandoned. -/
theorem staysEnded_abandonRounds (s : State) (l : Nat) : StaysEnded i s (s.abandonRounds l) := by
  refine foldl_related (R := StaysEnded i) .trans (fun u g => ?_) _ (.refl s)
  split
  · split
    · exact foldl_related (R := StaysEnded i) .trans (fun v r => staysEnded_abandonRound v _ _ _) _ (.refl u)
    · exact .refl u
  · exact .refl u

/-- What a launch's cancellation does after the launch is marked cancelled. -/
theorem staysEnded_rest (s : State) (l : Nat) : StaysEnded i s
    (((s.cancelTasks fun d => d.tkind == 1 && d.tidx == l).abandonRounds l).settle) :=
  ((staysEnded_cancelTasks s _).trans (staysEnded_abandonRounds _ l)).trans (staysEnded_settle _)

/-- A launch cancelled. -/
theorem staysEnded_cancelLaunch (s : State) (l : Nat) : StaysEnded i s (s.cancelLaunch l) := by
  unfold State.cancelLaunch
  split
  · exact .refl s
  · refine StaysEnded.trans ?_ (staysEnded_rest _ l)
    refine ((recalled_withdraw s fun p => p.startsUnit l || p.memberOf l).staysEnded).trans ?_
    exact .of_launch rfl (fun _ _ => rfl) rfl rfl rfl rfl

/-- A launch cancelled is marked so as long as it is live. -/
theorem State.cancelLaunch_cancelled {s : State} {l : Nat} (h : rising none (s.launches.map Prod.fst) = true) :
    ∀ y, mget (s.cancelLaunch l).launches l = some y → y.cancelled = true := by
  unfold State.cancelLaunch
  split
  · next hnone =>
    intro y hy
    rw [hnone] at hy
    nomatch hy
  · obtain ⟨_, _, _, _, _, _, heq⟩ := (recalled_withdraw s fun p => p.startsUnit l || p.memberOf l).rest
    refine ((staysEnded_rest (i := l) _ l).launches ?_).2
    refine lasting_mmod (fun _ => rfl) ?_
    change rising none ((s.withdraw _).2.launches.map Prod.fst) = true
    rw [heq]
    exact h

/-- A TCB cancelled. -/
theorem staysEnded_cancelTcb (s : State) (t : Nat) : StaysEnded i s (s.cancelTcb t) := by
  unfold State.cancelTcb
  split
  · exact staysEnded_tcbEnd _ _ _ _
  · exact staysEnded_tcbEnd _ _ _ _
  · exact staysEnded_tcbEnd _ _ _ _
  · exact (foldl_related (R := StaysEnded i) .trans staysEnded_cancelLaunch _ (.refl s)).trans (staysEnded_cancelTasks _ _)
  · exact .refl s
  · exact .refl s
  · exact .refl s

/-- A graph cancelled. -/
theorem staysEnded_cancelGraph (s : State) (g : Nat) : StaysEnded i s (s.cancelGraph g) := by
  unfold State.cancelGraph
  refine StaysEnded.trans ?_ (staysEnded_settle _)
  refine StaysEnded.trans ?_ (staysEnded_cancelTasks _ _)
  refine StaysEnded.trans (foldl_related (R := StaysEnded i) .trans staysEnded_cancelTcb _ ?_) (.of_eq rfl rfl rfl rfl rfl)
  exact .of_eq rfl rfl rfl rfl rfl

/-- A phase cancelled. -/
theorem staysEnded_cancelPhase (s : State) (n : Nat) : StaysEnded i s (s.cancelPhase n) := by
  unfold State.cancelPhase
  refine StaysEnded.trans ?_ (staysEnded_settle _)
  refine foldl_related (R := StaysEnded i) .trans staysEnded_cancelLaunch _ ?_
  exact foldl_related (R := StaysEnded i) .trans staysEnded_cancelGraph _ (.phase s n fun _ _ => rfl)

/-- A job cancelled. -/
theorem staysEnded_cancelJob (s : State) (n : Nat) : StaysEnded i s (s.cancelJob n) := by
  unfold State.cancelJob
  refine StaysEnded.trans ?_ (staysEnded_settle _)
  exact foldl_related (R := StaysEnded i) .trans staysEnded_cancelPhase _ (.job s n fun _ _ => rfl)

/-- A launch, a graph, a phase or a job cancelled. -/
theorem staysEnded_cancelLevel (s : State) (lv : Level) (n : Nat) : StaysEnded i s (s.cancelLevel lv n) := by
  cases lv with
  | launch => exact staysEnded_cancelLaunch s n
  | graph => exact staysEnded_cancelGraph s n
  | phase => exact staysEnded_cancelPhase s n
  | job => exact staysEnded_cancelJob s n

end

end Sys2Proof.Machine
end

section
/-! SUPPORT. What LAUNCH, CANCEL, OPEN, SHOOT and COUNT of an endpoint come to (R40, R156, R210, R393, R399). -/
namespace Sys2Proof.Machine

/-! ## LAUNCH (R40) -/

section
variable {α : Type} {m : Map α}

/-- An entry that is found stands in the table under its number. -/
theorem mem_of_mget {i : Nat} {x : α} (h : mget m i = some x) : (i, x) ∈ m := by
  induction m with
  | nil => nomatch h
  | cons p rest ih =>
    obtain ⟨k, v⟩ := p
    simp only [mget] at h
    split at h
    · next hik =>
      cases h
      subst hik
      exact List.mem_cons_self
    · split at h
      · nomatch h
      · exact List.mem_cons_of_mem _ (ih h)

/-- A table of fewer entries than there are numbers below a bound leaves one of them free. -/
theorem exists_mget_none {n : Nat} (h : m.length < n) : ∃ i < n, mget m i = none := by
  by_contra hall
  push Not at hall
  have hsub : List.range n ⊆ m.map Prod.fst := fun i hi => by
    obtain ⟨x, hx⟩ := Option.ne_none_iff_exists'.1 (hall i (List.mem_range.1 hi))
    exact List.mem_map_of_mem (f := Prod.fst) (mem_of_mget hx)
  have hlen := (List.nodup_range.subperm hsub).length_le
  simp only [List.length_range, List.length_map] at hlen
  omega

end

/-- A free choice is of a number below the bound that meets the condition, where there is one. -/
theorem State.anyBelow_spec (s : State) {p : Nat → Bool} {n i : Nat} (hi : i < n) (hp : p i = true) :
    ∃ j, s.anyBelow p n = some j ∧ j < n ∧ p j = true := by
  have hmem : i ∈ (List.range n).filter p := List.mem_filter.2 ⟨List.mem_range.2 hi, hp⟩
  have hlt := Nat.mod_lt (Config.freeNat s.fresh) (List.length_pos_of_mem hmem)
  obtain ⟨hj, hpj⟩ := List.mem_filter.1 (List.getElem_mem hlt)
  exact ⟨_, List.getElem?_eq_getElem hlt, List.mem_range.1 hj, hpj⟩

section
variable {s : State} {who : Issuer} {raw : Nat} {tags : BitVec 6} {ids : List Nat}

/-- A launch that draws a code is refused with the least. -/
theorem State.launchResult_refused {c : Nat} (htcb : who.tcb = none) (hc : c ∈ s.launchCodes who raw (parseLaunch raw tags))
    (hleast : ∀ e ∈ s.launchCodes who raw (parseLaunch raw tags), c ≤ e) :
    s.launchResult (s.issueLaunch who (some (raw, tags)) ids) = (refusal c, s) := by
  simp only [State.issueLaunch, State.bodyDesc, htcb, min?_of_least hc hleast]
  rfl

/-- A launch that draws none is entered under a free number. -/
theorem State.launchResult_accepted (htcb : who.tcb = none) (hnone : s.launchCodes who raw (parseLaunch raw tags) = []) :
    ∃ i, i < 4096 ∧ mget s.launches i = none ∧ s.launchResult (s.issueLaunch who (some (raw, tags)) ids) =
      (w64 i, s.draw.openLaunch who (parseLaunch raw tags) ids i) := by
  have hroom : s.launches.length < 4096 := by
    by_contra hfull
    have : 9 ∈ s.launchCodes who raw (parseLaunch raw tags) := by
      simp [State.launchCodes, Nat.not_lt.1 hfull]
    rw [hnone] at this
    nomatch this
  obtain ⟨k, hk, hfree⟩ := exists_mget_none hroom
  obtain ⟨i, hany, hi, hp⟩ := s.anyBelow_spec (p := fun i => (mget s.launches i).isNone) hk (by simp [hfree])
  refine ⟨i, hi, by simpa using hp, ?_⟩
  simp only [State.issueLaunch, State.bodyDesc, htcb, hnone, List.min?_nil, hany]
  rfl

/-- A launch entered stands under its number for its virtual function, with its units. -/
theorem State.openLaunch_spec (s : State) (d : LaunchDesc) (i : Nat) : ∃ y,
    mget (s.openLaunch who d ids i).launches i = some y ∧ y.vf = who.vf ∧ y.desc.units = d.units := by
  unfold State.openLaunch
  dsimp only
  split
  · exact ⟨_, mget_mput_same _ _ _, rfl, rfl⟩
  · split <;> exact ⟨_, mget_mput_same _ _ _, rfl, rfl⟩

/-- No endpoint hears of it. -/
theorem State.openLaunch_keeps (s : State) (d : LaunchDesc) (i : Nat) :
    (s.openLaunch who d ids i).kcp = s.kcp ∧ (s.openLaunch who d ids i).replies = s.replies := by
  unfold State.openLaunch
  dsimp only
  split
  · exact ⟨rfl, rfl⟩
  · split <;> exact ⟨rfl, rfl⟩

end

/-! ## Jobs and what belongs to them (R156, R395) -/

section
variable {s : State} {ep : Nat}

/-- A live job of a virtual function is in the table of jobs, with that virtual function. -/
theorem State.jobIn_eq_some {j : Nat} {x : Job} : s.jobIn ep j = some x ↔ mget s.jobs j = some x ∧ x.vf = ep := by
  simp [State.jobIn, Option.filter_eq_some_iff]

/-- The virtual function of a launch, a graph, a phase or a job is that of its job. -/
theorem State.instanceVf_of {lv : Level} {i j : Nat} {x : Job} (hj : s.instanceJob lv i = some j) (hx : mget s.jobs j = some x) :
    s.instanceVf lv i = some x.vf := by
  simp [State.instanceVf, hj, hx]

/-- One that is not live has none. -/
theorem State.instanceVf_none {lv : Level} {i : Nat} (h : s.instanceJob lv i = none) : s.instanceVf lv i = none := by
  simp [State.instanceVf, h]

/-- A job is a virtual function's where it is live for it. -/
theorem State.instanceVf_job {i : Nat} : s.instanceVf .job i = some ep ↔ s.jobIn ep i ≠ none := by
  unfold State.instanceVf State.instanceJob State.jobIn
  cases h : mget s.jobs i <;> simp [h, Option.filter]

end

/-! ## SHOOT (R210) -/

/-- An entry is kept where it does not translate the address under the ASID. -/
theorem TlbEntry.kept_iff (e : TlbEntry) (asid va : Nat) :
    (!e.hits asid va) = true ↔ ¬ (e.asid = asid ∧ e.va ≤ va ∧ va < e.va + e.size) := by
  rw [Bool.not_eq_true', ← Bool.not_eq_true]
  simp [TlbEntry.hits, and_assoc]

/-! ## COUNT (R393, R401) -/

/-- What COUNT reads is a count but for the lowest balances and the times at a step. -/
theorem State.reading_count {s : State} {c : Counter} (hm : ∀ r, c ≠ .minimum r) (hs : ∀ k n, c ≠ .stepTime k n) :
    s.reading c = BitVec.ofNat 64 (s.counter c) := by
  cases c with
  | minimum r => exact (hm r rfl).elim
  | stepTime k n => exact (hs k n rfl).elim
  | _ => rfl

end Sys2Proof.Machine
end

section
/-! SUPPORT. What READ, WRITE, GRANT and COPY read and write of memory (R93, R94, R247, R249, R397, R398). -/
namespace Sys2Proof.Machine

/-! ## Bytes across checks and writes -/

/-- A word's code checked leaves every byte. -/
theorem State.checkWord_cells (s : State) (w : Nat) : (s.checkWord w).mem.cells = s.mem.cells := by
  unfold State.checkWord
  split
  · rfl
  · dsimp only
    split
    · rw [(State.count_keeps _ _ _).1]
      rfl
    · unfold State.markWord
      split
      · rfl
      · change (State.count _ _ _).mem.cells = _
        rw [(State.count_keeps _ _ _).1]
        rfl

/-- The words that a write covers in part, checked for the merge, keep every byte. -/
theorem State.merged_byte (s : State) (pa n a : Nat) : (s.merged pa n).mem.byte a = s.mem.byte a := by
  have hcells : (s.merged pa n).mem.cells = s.mem.cells := by
    unfold State.merged
    split
    · rfl
    · exact foldl_keeps (fun t : State => t.mem.cells) State.checkWord_cells _ s
  rw [Memory.byte, hcells]
  rfl

section
variable {s : State} {v : Visibility} {pa : Nat} {bs : List Byte} {pois : Nat → Bool} {tag : Bool}

/-- A write puts its bytes in place. -/
theorem State.byte_writeMem_in {j : Nat} (h : s.mem.wf = true) (hj : j < bs.length) :
    (s.writeMem v pa bs pois tag).mem.byte (pa + j) = bs[j] := by
  rw [State.writeMem_mem]
  exact Memory.byte_write_in ((consulted_merged s pa bs.length).form h) hj

/-- It leaves the others. -/
theorem State.byte_writeMem_out {a : Nat} (h : s.mem.wf = true) (ha : a < pa ∨ pa + bs.length ≤ a) :
    (s.writeMem v pa bs pois tag).mem.byte a = s.mem.byte a := by
  rw [State.writeMem_mem, Memory.byte_write_out ((consulted_merged s pa bs.length).form h) ha, State.merged_byte]

end

/-- Writes performed as seen leave every byte. -/
theorem KcpRun.byte_shown (x : KcpRun) (m : Memory) (a : Nat) : (x.shown m).byte a = m.byte a := by
  have hcells : (x.shown m).cells = m.cells :=
    foldl_keeps Memory.cells (f := fun n (i : Nat × Audience) => Memory.showAfter n [i.1] i.2) (fun _ _ => by simp) _ m
  rw [Memory.byte, hcells]
  rfl

/-! ## Tags (R93) -/

/-- A granule put into a set is in it. -/
theorem mem_setIn (l : List Nat) (i : Nat) : i ∈ setIn l i := by
  induction l with
  | nil => exact List.mem_singleton_self i
  | cons k rest ih =>
    simp only [setIn]
    split
    · next h => exact h ▸ List.mem_cons_self
    · split
      · exact List.mem_cons_self
      · exact List.mem_cons_of_mem _ ih

/-- A capability written sets the tag of its granule. -/
theorem State.tag_writeMem {s : State} {v : Visibility} {pa : Nat} {bs : List Byte} {pois : Nat → Bool} (hpa : pa % 16 = 0)
    (hbs : bs.length = 16) : (s.writeMem v pa bs pois true).mem.tag (pa / 16) = true := by
  have hgranules : granulesOf pa 16 = [pa / 16] := by
    have hone : (pa + 16 - 1) / 16 + 1 - pa / 16 = 1 := by omega
    rw [granulesOf, if_neg (by omega), hone]
    rfl
  rw [State.writeMem_mem, Memory.tag]
  simp only [Memory.write, hbs, hgranules, putTags, if_true, List.contains_iff_mem]
  exact mem_setIn _ _

/-! ## Poison -/

/-- A span without poison has no marked word. -/
theorem viewMark_of_poisonIn_none {m : Memory} {v : Viewer} {a n : Nat} (h : m.poisonIn v a n = none) :
    ∀ w ∈ wordsOf a n, (m.viewMark v w).isSome = false := by
  intro w hw
  have := List.findSome?_eq_none_iff.1 h w hw
  simpa using this

/-- The word of each of its addresses is a word of a span. -/
theorem div_mem_wordsOf {a n x : Nat} (h : x ∈ span a n) : x / 8 ∈ wordsOf a n := by
  obtain ⟨hlo, hhi⟩ : a ≤ x ∧ x < a + n := by simpa [span] using h
  rw [wordsOf, if_neg (by omega), List.mem_range'_1]
  omega

/-- The codes of a memory whose codes are all good. -/
theorem State.checked_of_good {s : State} (h : s.mem.upsets = []) (pa n : Nat) : s.checked pa n = s := by
  simp [State.checked, h]

/-- One page of a memory whose codes are all good. -/
theorem State.pagesChecked_of_good {s : State} (h : s.mem.upsets = []) (e : Extent) : s.pagesChecked [e] = s :=
  State.checked_of_good h _ _

/-- The bytes of a page without poison. -/
theorem State.pagesClean_of_clean {s : State} {v : Viewer} {e : Extent} (h : s.mem.poisonIn v e.pa e.size = none) :
    s.pagesClean v [e] = (s.mem.viewBytes v e.pa e.size, []) := by
  have hmark := viewMark_of_poisonIn_none h
  have hbytes : ((span e.pa e.size).map fun a => if (s.mem.viewMark v (a / 8)).isSome then 0 else s.mem.view v a) =
      s.mem.viewBytes v e.pa e.size :=
    List.map_congr_left fun a ha => by rw [hmark _ (div_mem_wordsOf ha)]; rfl
  have hwords : (wordsOf e.pa e.size).filter (fun w => (s.mem.viewMark v w).isSome) = [] :=
    List.filter_eq_nil_iff.2 fun w hw => by simp [hmark w hw]
  simp only [State.pagesClean, List.foldl_cons, List.foldl_nil, hbytes, hwords, List.map_nil, List.nil_append, List.append_nil]

/-- A poisoned word reads as zeros, and is named by its offset. -/
theorem State.pagesClean_of_poisoned {s : State} {v : Viewer} {e : Extent} {w : Nat} (hpa : e.pa = 8 * w) (hsize : e.size = 8)
    (h : s.mem.viewMark v w ≠ none) : s.pagesClean v [e] = (leBytes 8 0, [0]) := by
  have hbad : (s.mem.viewMark v w).isSome = true := Option.isSome_iff_ne_none.2 h
  have hbytes : ((span (8 * w) 8).map fun a => if (s.mem.viewMark v (a / 8)).isSome then 0 else s.mem.view v a) = leBytes 8 0 := by
    rw [show leBytes 8 0 = List.replicate 8 0 from rfl, List.eq_replicate_iff]
    refine ⟨by simp [span], fun b hb => ?_⟩
    obtain ⟨a, ha, rfl⟩ := List.mem_map.1 hb
    obtain ⟨hlo, hhi⟩ : 8 * w ≤ a ∧ a < 8 * w + 8 := by simpa [span] using ha
    rw [show a / 8 = w by omega, if_pos hbad]
  have hwords : wordsOf (8 * w) 8 = [w] := by
    have hone : (8 * w + 8 - 1) / 8 + 1 - 8 * w / 8 = 1 := by omega
    rw [wordsOf, if_neg (by omega), hone, Nat.mul_div_cancel_left _ (by omega)]
    rfl
  simp only [State.pagesClean, List.foldl_cons, List.foldl_nil, hpa, hsize, hbytes, hwords, List.filter_cons, hbad, if_true,
    List.filter_nil, List.map_cons, List.map_nil, List.length_nil, Nat.sub_self, Nat.zero_add, List.nil_append]

/-! ## A beat of a COPY (R247) -/

/-- A span without a marked word is clean as far as it goes. -/
theorem cleanPrefix_of_clean {pa n : Nat} {marks : List Bool} (h : ∀ b ∈ marks, b = false) : cleanPrefix pa n marks = n := by
  have hnone : marks.findIdx? id = none := List.findIdx?_eq_none_iff.2 fun b hb => by simp [h b hb]
  rw [cleanPrefix, hnone]

/-- As many bytes are copied as are read. -/
@[simp] theorem copiedBytes_length (fresh src n dst : Nat) (bs : List Byte) : (copiedBytes fresh src n dst bs).length = bs.length := by
  simp [copiedBytes]

/-- A byte copied outside the source is the one read. -/
theorem copiedBytes_getElem {fresh src n dst j : Nat} {bs : List Byte} (hj : j < bs.length)
    (hout : ¬ (src ≤ dst + j ∧ dst + j < src + n)) :
    (copiedBytes fresh src n dst bs)[j]'(by rwa [copiedBytes_length]) = bs[j] := by
  simp only [copiedBytes, List.getElem_map, List.getElem_zipIdx, Nat.zero_add]
  exact if_neg hout

/-- A beat whose source is clean and whose slices are not held copies all its bytes. -/
theorem State.kcpBeat_clean {s : State} {c n : Nat} {x : KcpRun} {p d : Nat × Nat}
    (hn : n = min (x.len - x.done) (min (64 - (x.src + x.done) % 64) (64 - (x.dst + x.done) % 64))) (hlen : x.done < x.len)
    (hp : placeIn x.sources (x.src + x.done) = some p) (hd : placeIn x.dests (x.dst + x.done) = some d)
    (hsrc : s.heldSpan p.1 n = false) (hdst : s.heldSpan d.1 n = false) (hgood : s.mem.upsets = [])
    (hclean : s.mem.poisonIn (.kcpChannel c) p.1 n = none) :
    s.kcpBeat c x = some (n, d.2, (s.draw n).writeMem { writer := .kcpChannel c } d.1
      (copiedBytes s.fresh x.src x.len (x.dst + x.done) (s.mem.viewBytes (.kcpChannel c) p.1 n)) (fun _ => false) false) := by
  have hmarks := viewMark_of_poisonIn_none hclean
  have hprefix : cleanPrefix p.1 n ((wordsOf p.1 n).map fun w => (s.mem.viewMark (.kcpChannel c) w).isSome) = n :=
    cleanPrefix_of_clean fun b hb => by
      obtain ⟨w, hw, rfl⟩ := List.mem_map.1 hb
      exact hmarks w hw
  have hpos : n ≠ 0 := by omega
  have hzero : (n == 0) = false := beq_false_of_ne hpos
  unfold State.kcpBeat
  simp only [← hn, hp, hd, hsrc, hdst, State.checked_of_good hgood, hprefix, hpos, if_false, Nat.min_self, Bool.or_self,
    hzero]
  rfl

/-- A beat waits where a slice of either side is held. -/
theorem State.kcpBeat_held {s : State} {c n : Nat} {x : KcpRun} {p d : Nat × Nat}
    (hn : n = min (x.len - x.done) (min (64 - (x.src + x.done) % 64) (64 - (x.dst + x.done) % 64)))
    (hp : placeIn x.sources (x.src + x.done) = some p) (hd : placeIn x.dests (x.dst + x.done) = some d)
    (hheld : s.heldSpan p.1 n = true ∨ s.heldSpan d.1 n = true) : s.kcpBeat c x = none := by
  unfold State.kcpBeat
  simp only [← hn, hp, hd]
  exact if_pos (Bool.or_eq_true_iff.2 hheld)

/-! ## The end of what runs on (R398) -/

/-- A request whose performance is over is answered. -/
theorem VfReady.done_endRun {s u : State} {ep : Nat} {q : KcpReq} {rest : List KcpReq} {more : State → Prop} {st : Nat}
    (h : VfReady s ep q rest) (hkcp : u.kcp = s.kcp) (hreplies : u.replies = s.replies)
    (hmore : ∀ t : State, t.mem = u.mem → more t) : KcpDone s ep q rest (.next (u.endRun ep st)) st [] more := by
  have hend : u.endRun ep st =
      State.reply { u with kcp := mput u.kcp ep rest, kcpRuns := mdel u.kcpRuns ep } ep q (statusOnly st) := by
    simp only [State.endRun, hkcp, h.oldest]
  refine ⟨_, [], [], rfl, ?_, ?_, fun hne => (hne rfl).elim, ?_⟩
  · rw [hend]
    exact mget_mput_same _ _ _
  · rw [hend, ← hreplies]
    rfl
  · rw [hend]
    exact hmore _ rfl

end Sys2Proof.Machine
end

section
/-! SUPPORT. The steps of a virtual function's endpoint. -/
namespace Sys2Proof.Machine

section
variable (ep : Nat) (s : State)

theorem exec_kcpLaunch : exec (.kcpLaunch ep) s = execKcpLaunch ep s := rfl
theorem exec_kcpCancel : exec (.kcpCancel ep) s = execKcpCancel ep s := rfl
theorem exec_kcpClose : exec (.kcpClose ep) s = execKcpClose ep s := rfl
theorem exec_kcpOpen : exec (.kcpOpen ep) s = execKcpOpen ep s := rfl
theorem exec_kcpListen : exec (.kcpListen ep) s = execKcpListen ep s := rfl
theorem exec_kcpGrant : exec (.kcpGrant ep) s = execKcpGrant ep s := rfl
theorem exec_kcpShoot : exec (.kcpShoot ep) s = execKcpShoot ep s := rfl
theorem exec_kcpRead : exec (.kcpRead ep) s = execKcpRead ep s := rfl
theorem exec_kcpWrite : exec (.kcpWrite ep) s = execKcpWrite ep s := rfl
theorem exec_kcpCopy : exec (.kcpCopy ep) s = execKcpCopy ep s := rfl
theorem exec_kcpCount : exec (.kcpCount ep) s = execKcpCount ep s := rfl
theorem exec_kcpAttest : exec (.kcpAttest ep) s = execKcpAttest ep s := rfl

end

section
variable {s : State} {ep : Nat} {q : KcpReq} {rest : List KcpReq} {more : State → Prop}

/-! ## LAUNCH (R40, R156) -/

/-- A launch whose descriptor is in the body of the request, which no code refuses. -/
theorem VfReady.launchBody_accepted (h : VfReady s ep q rest) {desc : BitVec 1024} (hbody : q.body = .launchBody desc)
    {who : Issuer} (hwho : who = ⟨none, ep, 0, none, none, none, 0⟩) {u : State}
    (hu : u = (s.dequeued ep rest).pcChecked who (some (desc.toNat, 0)))
    (hnone : u.launchCodes who desc.toNat (parseLaunch desc.toNat 0) = []) :
    ∃ i, i < 4096 ∧ mget s.launches i = none ∧ KcpDone s ep q rest (exec (.kcpLaunch ep) s) 0 (leBytes 8 i) fun t =>
      ∃ y, mget t.launches i = some y ∧ y.vf = ep ∧ y.desc.units = desc.toNat / 2 ^ 96 % 2 ^ 32 := by
  subst hwho
  rw [exec_kcpLaunch, execKcpLaunch]
  have hconsulted : Consulted (s.dequeued ep rest) u := hu ▸ consulted_checkedWalk _ _ _ _ _
  obtain ⟨i, hi, hfree, hresult⟩ := State.launchResult_accepted (ids := []) rfl hnone
  obtain ⟨hkcp, hreplies⟩ := State.openLaunch_keeps (who := ⟨none, ep, 0, none, none, none, 0⟩) (ids := []) u.draw
    (parseLaunch desc.toNat 0) i
  refine ⟨i, hi, (congrArg (mget · i) hconsulted.launches).symm.trans hfree, h.done (x := KcpBody.launchBody desc)
    (by rw [hbody]) ?_ (hkcp.trans hconsulted.kcp) (hreplies.trans hconsulted.replies) (State.openLaunch_spec _ _ _)⟩
  simp only [← hu, hresult, wordAnswer_w64]

/-- One that a code refuses. -/
theorem VfReady.launchBody_refused (h : VfReady s ep q rest) {desc : BitVec 1024} (hbody : q.body = .launchBody desc)
    {who : Issuer} (hwho : who = ⟨none, ep, 0, none, none, none, 0⟩) {u : State}
    (hu : u = (s.dequeued ep rest).pcChecked who (some (desc.toNat, 0))) {c : Nat}
    (hc : c ∈ u.launchCodes who desc.toNat (parseLaunch desc.toNat 0))
    (hleast : ∀ e ∈ u.launchCodes who desc.toNat (parseLaunch desc.toNat 0), c ≤ e)
    (hmore : more (u.reply ep q ⟨0, leBytes 8 (2 ^ 63 + c), [], []⟩)) :
    KcpDone s ep q rest (exec (.kcpLaunch ep) s) 0 (leBytes 8 (2 ^ 63 + c)) more := by
  subst hwho
  rw [exec_kcpLaunch, execKcpLaunch]
  have hconsulted : Consulted (s.dequeued ep rest) u := hu ▸ consulted_checkedWalk _ _ _ _ _
  refine h.done_of_consulted (x := KcpBody.launchBody desc) (by rw [hbody]) ?_ hconsulted hmore
  simp only [← hu, State.launchResult_refused (ids := []) rfl hc hleast, wordAnswer_refusal]

/-! ## CLOSE (R23) -/

/-- A job closed is sealed as long as it is live. -/
theorem VfReady.close_job (h : VfReady s ep q rest) {i : Nat} (hbody : q.body = .close false i) (hvf : s.instanceVf .job i = some ep)
    (hrising : rising none (s.jobs.map Prod.fst) = true) : KcpDone s ep q rest (execKcpClose ep s) 0 [] fun t =>
      ∀ y, mget t.jobs i = some y → y.counts.closed = true := by
  have hends := staysEnded_settle (i := i)
    { s.dequeued ep rest with jobs := mmod s.jobs i fun j => { j with counts := { j.counts with closed := true } } }
  have hlive : (s.dequeued ep rest).instanceVf .job i = some ep := hvf
  exact h.served (x := (false, i)) (by rw [hbody]) (if_pos hlive) hends.kcp hends.replies
    (hends.jobs (lasting_mmod (fun _ => rfl) hrising)).2

/-- So is a phase. -/
theorem VfReady.close_phase (h : VfReady s ep q rest) {i : Nat} (hbody : q.body = .close true i)
    (hvf : s.instanceVf .phase i = some ep) (hrising : rising none (s.phases.map Prod.fst) = true) :
    KcpDone s ep q rest (execKcpClose ep s) 0 [] fun t => ∀ y, mget t.phases i = some y → y.counts.closed = true := by
  have hends := staysEnded_settle (i := i)
    { s.dequeued ep rest with phases := mmod s.phases i fun p => { p with counts := { p.counts with closed := true } } }
  have hlive : (s.dequeued ep rest).instanceVf .phase i = some ep := hvf
  exact h.served (x := (true, i)) (by rw [hbody]) (if_pos hlive) hends.kcp hends.replies
    (hends.phases (lasting_mmod (fun _ => rfl) hrising)).2

/-! ## OPEN (R399) -/

section
variable {b : BitVec 128} {u : State}

/-- A job opened under a free number with a valid ASID is live. -/
theorem VfReady.open_job (h : VfReady s ep q rest) (hbody : q.body = .open b) (hgood : openBad b.toNat = false)
    (hkind : b.getLsbD 0 = false) (hfree : mget s.jobs (bits b.toNat 16 10) = none)
    (hvalid : ((s.dequeued ep rest).checked (s.asidAt ep (bits b.toNat 48 16)) 8).asidValid ep (bits b.toNat 48 16) = true) :
    KcpDone s ep q rest (execKcpOpen ep s) 0 [] fun t =>
      mget t.jobs (bits b.toNat 16 10) = some ⟨⟨false, 0, 0, 0, 0⟩, ep, bits b.toNat 48 16, none⟩ := by
  have hu := consulted_checked (s.dequeued ep rest) (s.asidAt ep (bits b.toNat 48 16)) 8
  have hform : ¬ openBad b.toNat = true := Bool.eq_false_iff.1 hgood
  have hjob : ¬ bit b.toNat 0 = true := by rw [bit_toNat, hkind]; exact Bool.false_ne_true
  have hok : ¬ ((mget ((s.dequeued ep rest).checked (s.asidAt ep (bits b.toNat 48 16)) 8).jobs (bits b.toNat 16 10)).isSome ||
      !((s.dequeued ep rest).checked (s.asidAt ep (bits b.toNat 48 16)) 8).asidValid ep (bits b.toNat 48 16)) = true := by
    rw [hu.jobs, State.dequeued_jobs, hfree, hvalid]
    exact Bool.false_ne_true
  exact h.served (x := b.toNat) (by rw [hbody]) ((if_neg hform).trans ((if_neg hjob).trans (if_neg hok))) hu.kcp hu.replies
    (mget_mput_same _ _ _)

/-- One whose number is taken or whose ASID is not valid is refused. -/
theorem VfReady.open_refused (h : VfReady s ep q rest) (hbody : q.body = .open b) (hgood : openBad b.toNat = false)
    (hkind : b.getLsbD 0 = false) (hno : mget s.jobs (bits b.toNat 16 10) ≠ none ∨
      ((s.dequeued ep rest).checked (s.asidAt ep (bits b.toNat 48 16)) 8).asidValid ep (bits b.toNat 48 16) = false)
    (hmore : more (((s.dequeued ep rest).checked (s.asidAt ep (bits b.toNat 48 16)) 8).reply ep q ⟨6, [], [], []⟩)) :
    KcpDone s ep q rest (execKcpOpen ep s) 6 [] more := by
  have hu := consulted_checked (s.dequeued ep rest) (s.asidAt ep (bits b.toNat 48 16)) 8
  have hform : ¬ openBad b.toNat = true := Bool.eq_false_iff.1 hgood
  have hjob : ¬ bit b.toNat 0 = true := by rw [bit_toNat, hkind]; exact Bool.false_ne_true
  have hrefused : ((mget ((s.dequeued ep rest).checked (s.asidAt ep (bits b.toNat 48 16)) 8).jobs (bits b.toNat 16 10)).isSome ||
      !((s.dequeued ep rest).checked (s.asidAt ep (bits b.toNat 48 16)) 8).asidValid ep (bits b.toNat 48 16)) = true := by
    rw [hu.jobs, State.dequeued_jobs, Bool.or_eq_true, Option.isSome_iff_ne_none, Bool.not_eq_true']
    exact hno
  exact h.served (x := b.toNat) (by rw [hbody]) ((if_neg hform).trans ((if_neg hjob).trans (if_pos hrefused))) hu.kcp hu.replies hmore

/-- A phase opened under a free number in an open job with room is live, and a member of the job. -/
theorem VfReady.open_phase (h : VfReady s ep q rest) {x : Job} (hbody : q.body = .open b) (hgood : openBad b.toNat = false)
    (hkind : b.getLsbD 0 = true) (hjob : s.jobIn ep (bits b.toNat 16 10) = some x) (hfree : mget s.phases (bits b.toNat 32 8) = none)
    (hopen : x.counts.closed = false) (hroom : x.counts.isFull = false) : KcpDone s ep q rest (execKcpOpen ep s) 0 [] fun t =>
      mget t.phases (bits b.toNat 32 8) = some ⟨⟨false, 0, 0, 0, 0⟩, bits b.toNat 16 10⟩ ∧
      ∃ y, mget t.jobs (bits b.toNat 16 10) = some y ∧ y.counts.members = x.counts.members + 1 := by
  have hform : ¬ openBad b.toNat = true := Bool.eq_false_iff.1 hgood
  have hphase : bit b.toNat 0 = true := (bit_toNat b 0).trans hkind
  have hmine : (s.dequeued ep rest).jobIn ep (bits b.toNat 16 10) = some x := hjob
  have hok : ¬ ((mget (s.dequeued ep rest).phases (bits b.toNat 32 8)).isSome || x.counts.closed || x.counts.isFull) = true := by
    rw [State.dequeued_phases, hfree, hopen, hroom]
    exact Bool.false_ne_true
  obtain ⟨hlive, -⟩ := State.jobIn_eq_some.1 hjob
  refine h.served (x := b.toNat) (by rw [hbody]) (u := { s.dequeued ep rest with
      phases := mput s.phases (bits b.toNat 32 8) ⟨Counts.new false 0, bits b.toNat 16 10⟩
      jobs := mmod s.jobs (bits b.toNat 16 10) fun x => { x with counts := x.counts.join } })
    ((if_neg hform).trans ((if_pos hphase).trans ?_)) rfl rfl ⟨mget_mput_same _ _ _, { x with counts := x.counts.join }, ?_, rfl⟩
  · rw [hmine]
    exact if_neg hok
  · exact (mget_mmod_same _ _ _).trans (by rw [hlive]; rfl)

end

/-! ## LISTEN (R24, R327) -/

/-- A launch of the virtual function is named the listener of a package. -/
theorem VfReady.listen_named (h : VfReady s ep q rest) {pkg l : Nat} {x : Launch} (hbody : q.body = .listen false pkg l)
    (hl : mget s.launches l = some x) (hown : x.vf = ep) :
    KcpDone s ep q rest (execKcpListen ep s) 0 [] fun t => mget (t.vf ep).listen pkg = some l := by
  have hends := staysEnded_settle (i := l) ((s.dequeued ep rest).setVf ep { s.vf ep with listen := mput (s.vf ep).listen pkg l })
  have hvf := (booked_settle ((s.dequeued ep rest).setVf ep { s.vf ep with listen := mput (s.vf ep).listen pkg l })).get
    fun t => t.vf ep
  refine h.served (x := (false, pkg, l)) (by rw [hbody])
    (u := ((s.dequeued ep rest).setVf ep { s.vf ep with listen := mput (s.vf ep).listen pkg l }).settle) ?_ hends.kcp hends.replies ?_
  · simp [hl, hown, statusOnly]
  · exact (congrArg (fun v : Vf => mget v.listen pkg) (hvf.trans (State.vf_setVf_same _ _ _))).trans (mget_mput_same _ _ _)

/-! ## READ (R397) -/

section
variable {j a n : Nat} {x : Job} {e : Extent} {u : State}

/-- What a READ of one page of a memory whose codes are good comes to. -/
theorem execKcpRead_page (hbody : q.body = .read j a n) (h : VfReady s ep q rest) (hn : 0 < n) (hmax : n ≤ 2 ^ 20)
    (hjob : s.jobIn ep j = some x) (hspan : (s.dequeued ep rest).spanPages .station ep x.asid [.read] a n = (some [e], u))
    (hsize : e.size = n) (hgood : u.mem.upsets = []) (hheld : u.heldSpan e.pa n = false) :
    execKcpRead ep s = .next (u.reply ep q ⟨0, (u.pagesClean .station [e]).1, (u.pagesClean .station [e]).2, []⟩) := by
  have hform : ¬ (n = 0 ∨ 2 ^ 20 < n) := by omega
  have hlive : (s.dequeued ep rest).jobIn ep j = some x := hjob
  have hfree : ¬ u.pagesHeld [e] = true := by simp [State.pagesHeld, hsize, hheld]
  refine State.begin_answered (x := (j, a, n)) h.oldest (by rw [hbody]) (State.paused_of_ready h.ready)
    (State.refuses_vf h.ready h.heard h.virtual h.form) ((if_neg hform).trans ?_)
  simp only [hlive, hspan]
  rw [if_neg hfree, State.pagesChecked_of_good hgood]

/-- A READ whose page has no poison answers with its bytes. -/
theorem VfReady.read_clean (h : VfReady s ep q rest) (hbody : q.body = .read j a n) (hn : 0 < n) (hmax : n ≤ 2 ^ 20)
    (hjob : s.jobIn ep j = some x) (hspan : (s.dequeued ep rest).spanPages .station ep x.asid [.read] a n = (some [e], u))
    (hsize : e.size = n) (hgood : u.mem.upsets = []) (hheld : u.heldSpan e.pa n = false)
    (hclean : u.mem.poisonIn .station e.pa n = none) :
    KcpDone s ep q rest (execKcpRead ep s) 0 (u.mem.viewBytes .station e.pa n) fun t => t.mem = u.mem := by
  have hu : Consulted (s.dequeued ep rest) u := by
    have hpages := consulted_spanPages (v := .station) trivial (s.dequeued ep rest) ep x.asid [.read] a n
    rwa [hspan] at hpages
  subst hsize
  rw [execKcpRead_page hbody h hn hmax hjob hspan rfl hgood hheld, State.pagesClean_of_clean hclean]
  refine ⟨_, [], [], rfl, ?_, ?_, fun hne => (hne rfl).elim, rfl⟩
  · exact (congrArg (mget · ep) hu.kcp).trans (mget_mput_same _ _ _)
  · exact congrArg (· ++ _) hu.replies

/-- One of a poisoned word answers with zeros and the word's offset. -/
theorem VfReady.read_poisoned (h : VfReady s ep q rest) (hbody : q.body = .read j a n) (hjob : s.jobIn ep j = some x)
    (hspan : (s.dequeued ep rest).spanPages .station ep x.asid [.read] a n = (some [e], u)) (hsize : e.size = n)
    (hgood : u.mem.upsets = []) (hheld : u.heldSpan e.pa n = false) {w : Nat} (hpa : e.pa = 8 * w) (hn : n = 8)
    (hpoison : u.mem.viewMark .station w ≠ none) : ∃ t : State, execKcpRead ep s = .next t ∧ t.mem = u.mem ∧
      t.replies = s.replies ++ [⟨ep, q.header.reply 0 8, leBytes 8 0, [0], []⟩] := by
  have hu : Consulted (s.dequeued ep rest) u := by
    have hpages := consulted_spanPages (v := .station) trivial (s.dequeued ep rest) ep x.asid [.read] a n
    rwa [hspan] at hpages
  refine ⟨_, execKcpRead_page hbody h (by omega) (by omega) hjob hspan hsize hgood hheld, rfl, ?_⟩
  rw [State.pagesClean_of_poisoned hpa (hsize.trans hn) hpoison]
  exact congrArg (· ++ _) hu.replies

end

/-! ## WRITE (R93, R398) -/

/-- What an endpoint keeps of a WRITE whose bytes are in place: the writes by which they went to their pages. -/
def writeRun (u : State) (a n : Nat) (l : List Extent) : KcpRun :=
  ⟨none, 0, a, n, [], l, ⟨0, 0, 0, 0⟩, 0, n, true, l.zipIdx.map fun e => (u.mem.nextId + e.2, kcpScope e.1.sc)⟩

/-- A WRITE of one page has its bytes in place, and goes on. -/
theorem VfReady.write_page (h : VfReady s ep q rest) {j a : Nat} {d : List Byte} {x : Job} {e : Extent} {u : State}
    (hbody : q.body = .write j a d) (hrun : mget s.kcpRuns ep = none) (hpos : 0 < d.length) (hmax : d.length ≤ 2 ^ 20)
    (hjob : s.jobIn ep j = some x) (hwf : s.mem.wf = true)
    (hspan : (s.dequeued ep rest).spanPages .station ep x.asid [.write] a d.length = (some [e], u)) (hsize : e.size = d.length)
    (hheld : u.heldSpan e.pa d.length = false) : KcpGoes s ep (execKcpWrite ep s) fun t y => y.channel = none ∧
      (∀ k < d.length, some (t.mem.byte (e.pa + k)) = d[k]?) ∧ t.mem.wf = true ∧
      ∀ z, z < e.pa ∨ e.pa + d.length ≤ z → t.mem.byte z = u.mem.byte z := by
  have hu : Consulted (s.dequeued ep rest) u := by
    have hpages := consulted_spanPages (v := .station) trivial (s.dequeued ep rest) ep x.asid [.write] a d.length
    rwa [hspan] at hpages
  have hform : ¬ (d.isEmpty = true ∨ 2 ^ 20 < d.length) := by
    rw [List.isEmpty_iff_length_eq_zero]
    omega
  have hlive : (s.dequeued ep rest).jobIn ep j = some x := hjob
  have hfree : ¬ u.pagesHeld [e] = true := by simp [State.pagesHeld, hsize, hheld]
  have htake : d.take e.size = d := List.take_of_length_le (Nat.le_of_eq hsize.symm)
  have hwrite : State.pagesWrite .station false [e] d u = u.writeMem { writer := .station } e.pa d (fun _ => false) false := by
    simp only [State.pagesWrite, htake]
  have hw := consulted_writeMem u { writer := .station } e.pa d (fun _ => false) false
  have huwf : u.mem.wf = true := hu.form hwf
  unfold execKcpWrite
  rw [hrun]
  refine h.goes (x := (j, a, d)) (y := writeRun u a d.length [e]) (by rw [hbody]) ((if_neg hform).trans ?_)
    (hw.replies.trans hu.replies) ⟨rfl, fun k hk => ?_, hw.form huwf, fun z hz => State.byte_writeMem_out huwf hz⟩
  · simp only [hlive, hspan, hwrite]
    exact if_neg hfree
  · rw [List.getElem?_eq_getElem hk]
    exact congrArg some (State.byte_writeMem_in huwf hk)

/-! ## GRANT (R94) -/

/-- A GRANT whose bounds do not lie inside the job's address space is refused. -/
theorem VfReady.grant_outside (h : VfReady s ep q rest) {j a : Nat} {v i : Word} {x : Job} {u : State}
    (hbody : q.body = .grant j a v i) (ha : a % 16 = 0) (hform : malformed i v = false) (hjob : s.jobIn ep j = some x)
    (hout : (s.dequeued ep rest).boundsInside ep x.asid i v = (false, u)) (hmore : more (u.reply ep q ⟨5, [], [], []⟩)) :
    KcpDone s ep q rest (execKcpGrant ep s) 5 [] more := by
  have hu : Consulted (s.dequeued ep rest) u := by
    have hbounds := consulted_boundsInside (s.dequeued ep rest) ep x.asid i v
    rwa [hout] at hbounds
  have hlive : (s.dequeued ep rest).jobIn ep j = some x := hjob
  have hgood : ¬ malformed i v = true := Bool.eq_false_iff.1 hform
  refine h.done_of_consulted (x := (j, a, v, i)) (by rw [hbody]) ?_ hu hmore
  refine (if_neg (not_not.2 ha)).trans ((if_neg hgood).trans ?_)
  -- Whether the bounds lie inside stands as a variable here: the kernel would begin to compute them.
  generalize State.boundsInside = inside at hout ⊢
  as_aux_lemma =>
    simp only [hlive, hout]
    rfl

/-- A GRANT writes the capability's two words, and tags them. -/
theorem VfReady.grant_writes (h : VfReady s ep q rest) {j a : Nat} {v i : Word} {x : Job} {p : Place} {u w : State}
    (hbody : q.body = .grant j a v i) (ha : a % 16 = 0) (hform : malformed i v = false) (hjob : s.jobIn ep j = some x)
    (hinside : (s.dequeued ep rest).boundsInside ep x.asid i v = (true, u))
    (hplace : u.engineTo .station ep x.asid a [.write] = (.ok p, w)) (hpa : p.pa % 16 = 0) (hwf : s.mem.wf = true) (hheld : w.heldAt p.pa = false) :
    KcpDone s ep q rest (execKcpGrant ep s) 0 [] fun t => t.mem.tag (p.pa / 16) = true ∧
      (∀ k < 8, t.mem.byte (p.pa + k) = BitVec.ofNat 8 (v.toNat / 256 ^ k)) ∧
      ∀ k < 8, t.mem.byte (p.pa + 8 + k) = BitVec.ofNat 8 (i.toNat / 256 ^ k) := by
  have hu : Consulted (s.dequeued ep rest) u := by
    have hbounds := consulted_boundsInside (s.dequeued ep rest) ep x.asid i v
    rwa [hinside] at hbounds
  have hw : Consulted (s.dequeued ep rest) w := by
    have htrans := consulted_engineTo (v := .station) trivial u ep x.asid a [.write]
    rw [hplace] at htrans
    exact hu.trans htrans
  have hlive : (s.dequeued ep rest).jobIn ep j = some x := hjob
  have hwwf : w.mem.wf = true := hw.form hwf
  have hgood : ¬ malformed i v = true := Bool.eq_false_iff.1 hform
  have hfree : ¬ w.heldAt p.pa = true := Bool.eq_false_iff.1 hheld
  have hbytes : ∀ k, (hk : k < 16) → (w.writeMem { writer := .station } p.pa (leBytes 8 v.toNat ++ leBytes 8 i.toNat) (fun _ => false)
      true).mem.byte (p.pa + k) = (leBytes 8 v.toNat ++ leBytes 8 i.toNat)[k]'(by simpa using hk) :=
    fun k hk => State.byte_writeMem_in hwwf (by simpa using hk)
  refine h.done_of_consulted (x := (j, a, v, i)) (by rw [hbody]) ?_ (hw.trans (consulted_writeMem w { writer := .station } p.pa
    (leBytes 8 v.toNat ++ leBytes 8 i.toNat) (fun _ => false) true)) ⟨State.tag_writeMem hpa (by simp), fun k hk => ?_, fun k hk => ?_⟩
  · refine (if_neg (not_not.2 ha)).trans ((if_neg hgood).trans ?_)
    -- Whether the bounds lie inside stands as a variable here: the kernel would begin to compute them.
    generalize State.boundsInside = inside at hinside ⊢
    as_aux_lemma =>
      simp only [hlive, hinside, hplace]
      exact if_neg hfree
  · refine (hbytes k (by omega)).trans ?_
    rw [List.getElem_append_left (by simpa using hk), leBytes_getElem]
  · rw [Nat.add_assoc]
    refine (hbytes (8 + k) (by omega)).trans ?_
    rw [List.getElem_append_right (by simp)]
    simp only [leBytes_length, Nat.add_sub_cancel_left, leBytes_getElem]

/-! ## COPY (R247, R249, R398) -/

section
variable {j src dst n flag val c : Nat} {x : Job}

/-- A COPY whose source has a page that fails is refused. -/
theorem VfReady.copy_unmapped (h : VfReady s ep q rest) {u : State} (hbody : q.body = .copy j src dst n flag val)
    (hrun : mget s.kcpRuns ep = none) (hform : ¬ (n = 0 ∨ 2 ^ 36 < n ∨ flag % 2 ≠ 0)) (hjob : s.jobIn ep j = some x)
    (hfree : s.freeKcpChannel = some c) (hsrc : (s.dequeued ep rest).spanPages (.kcpChannel c) ep x.asid [.read] src n = (none, u))
    (hmore : more (u.reply ep q ⟨5, [], [], []⟩)) : KcpDone s ep q rest (execKcpCopy ep s) 5 [] more := by
  have hu : Consulted (s.dequeued ep rest) u := by
    have hpages := consulted_spanPages (v := .kcpChannel c) trivial (s.dequeued ep rest) ep x.asid [.read] src n
    rwa [hsrc] at hpages
  have hlive : (s.dequeued ep rest).jobIn ep j = some x := hjob
  have hchannel : (s.dequeued ep rest).freeKcpChannel = some c := hfree
  rw [execKcpCopy, hrun]
  refine h.done_of_consulted (x := (j, src, dst, n, flag, val)) (by rw [hbody]) ((if_neg hform).trans ?_) hu hmore
  simp only [hlive, State.startKcpCopy, hchannel, hsrc]
  rfl

/-- A COPY is taken up by the free channel of the lowest number, translated whole. -/
theorem VfReady.copy_starts (h : VfReady s ep q rest) {a d : List Extent} {f : Place} {u v w : State}
    (hbody : q.body = .copy j src dst n flag val) (hrun : mget s.kcpRuns ep = none)
    (hform : ¬ (n = 0 ∨ 2 ^ 36 < n ∨ flag % 2 ≠ 0)) (hjob : s.jobIn ep j = some x) (hfree : s.freeKcpChannel = some c)
    (hsrc : (s.dequeued ep rest).spanPages (.kcpChannel c) ep x.asid [.read] src n = (some a, u))
    (hdst : u.spanPages (.kcpChannel c) ep x.asid [.write] dst n = (some d, v))
    (hflag : v.engineTo (.kcpChannel c) ep x.asid flag [.write] = (.ok f, w)) : KcpGoes s ep (execKcpCopy ep s) fun t y =>
      y = ⟨some c, src, dst, n, a, d, ⟨flag, f.pa, 2, f.sc⟩, val, 0, false, []⟩ ∧ t.mem = w.mem := by
  have hu := consulted_spanPages (v := .kcpChannel c) trivial (s.dequeued ep rest) ep x.asid [.read] src n
  have hv := consulted_spanPages (v := .kcpChannel c) trivial u ep x.asid [.write] dst n
  have hw := consulted_engineTo (v := .kcpChannel c) trivial v ep x.asid flag [.write]
  rw [hsrc] at hu
  rw [hdst] at hv
  rw [hflag] at hw
  have hlive : (s.dequeued ep rest).jobIn ep j = some x := hjob
  have hchannel : (s.dequeued ep rest).freeKcpChannel = some c := hfree
  rw [execKcpCopy, hrun]
  refine h.goes (x := (j, src, dst, n, flag, val)) (u := w)
    (y := ⟨some c, src, dst, n, a, d, ⟨flag, f.pa, 2, f.sc⟩, val, 0, false, []⟩) (by rw [hbody]) ((if_neg hform).trans ?_)
    ((hu.trans hv).trans hw).replies ⟨rfl, rfl⟩
  simp only [hlive, State.startKcpCopy, hchannel, hsrc, hdst, hflag]

/-- A COPY waits while every channel is busy. -/
theorem VfReady.copy_waits (h : VfReady s ep q rest) (hbody : q.body = .copy j src dst n flag val) (hrun : mget s.kcpRuns ep = none)
    (hform : ¬ (n = 0 ∨ 2 ^ 36 < n ∨ flag % 2 ≠ 0)) (hjob : s.jobIn ep j = some x) (hbusy : s.freeKcpChannel = none) :
    execKcpCopy ep s = .next s := by
  have hlive : (s.dequeued ep rest).jobIn ep j = some x := hjob
  have hchannel : (s.dequeued ep rest).freeKcpChannel = none := hbusy
  rw [execKcpCopy, hrun]
  refine h.waits (x := (j, src, dst, n, flag, val)) (by rw [hbody]) ((if_neg hform).trans ?_)
  simp only [hlive, State.startKcpCopy, hchannel]

end

section
variable {c : Nat} {x : KcpRun}

/-- The step of a channel that performs its endpoint's COPY. -/
theorem execKcpCopy_running (hrun : mget s.kcpRuns ep = some x) (hchannel : x.channel = some c) :
    execKcpCopy ep s = .next (s.kcpCopyStep ep c x) := by
  rw [execKcpCopy, hrun]
  simp only [hchannel]

/-- A beat held up changes nothing. -/
theorem State.kcpCopyStep_held (hlen : x.done < x.len) (hbeat : s.kcpBeat c x = none) : s.kcpCopyStep ep c x = s := by
  simp only [State.kcpCopyStep, hlen, if_true, hbeat]

/-- A beat of clean bytes puts them in place, but for those whose destination lies in the source. -/
theorem State.kcpCopyStep_beat {n : Nat} {p d : Nat × Nat}
    (hn : n = min (x.len - x.done) (min (64 - (x.src + x.done) % 64) (64 - (x.dst + x.done) % 64))) (hlen : x.done < x.len)
    (hp : placeIn x.sources (x.src + x.done) = some p) (hd : placeIn x.dests (x.dst + x.done) = some d)
    (hsrc : s.heldSpan p.1 n = false) (hdst : s.heldSpan d.1 n = false) (hgood : s.mem.upsets = []) (hwf : s.mem.wf = true)
    (hclean : s.mem.poisonIn (.kcpChannel c) p.1 n = none) : KcpGoes s ep (.next (s.kcpCopyStep ep c x)) fun t y =>
      y.done = x.done + n ∧ y.src = x.src ∧ y.dst = x.dst ∧ y.len = x.len ∧ y.sources = x.sources ∧ y.dests = x.dests ∧
      y.flagged = x.flagged ∧ ∀ k < n, x.src ≤ x.dst + x.done + k ∧ x.dst + x.done + k < x.src + x.len ∨
        t.mem.byte (d.1 + k) = s.mem.view (.kcpChannel c) (p.1 + k) := by
  have hw := consulted_writeMem (s.draw n) { writer := .kcpChannel c } d.1
    (copiedBytes s.fresh x.src x.len (x.dst + x.done) (s.mem.viewBytes (.kcpChannel c) p.1 n)) (fun _ => false) false
  have hstep := State.kcpBeat_clean hn hlen hp hd hsrc hdst hgood hclean
  simp only [State.kcpCopyStep, hlen, if_true, hstep]
  refine ⟨_, _, rfl, hw.kcp, hw.replies, mget_mput_same _ _ _, rfl, rfl, rfl, rfl, rfl, rfl, rfl, fun k hk => ?_⟩
  refine or_iff_not_imp_left.2 fun hout => ?_
  have hlenk : k < (s.mem.viewBytes (.kcpChannel c) p.1 n).length := by simpa [Memory.viewBytes, span] using hk
  refine (State.byte_writeMem_in (s := s.draw n) hwf (by simpa using hlenk)).trans ?_
  rw [copiedBytes_getElem hlenk hout]
  simp [Memory.viewBytes, span]

/-- The flag is written once all bytes are copied. -/
theorem State.kcpCopyStep_flag (hlen : x.len ≤ x.done) (hflag : x.flagged = false) (hwf : s.mem.wf = true)
    (hheld : s.heldSpan x.flag.pa 2 = false) : KcpGoes s ep (.next (s.kcpCopyStep ep c x)) fun t y =>
      y.flagged = true ∧ ∀ k < 2, t.mem.byte (x.flag.pa + k) = BitVec.ofNat 8 (x.val / 256 ^ k) := by
  have hw := consulted_writeMem s { writer := .kcpChannel c, inScope := kcpScope x.flag.sc, after := x.ids.map Prod.fst } x.flag.pa
    (leBytes 2 x.val) (fun _ => false) false
  simp only [State.kcpCopyStep, Nat.not_lt.2 hlen, if_false, hflag, Bool.not_false, if_true, hheld, Bool.false_eq_true]
  refine ⟨_, _, rfl, hw.kcp, hw.replies, mget_mput_same _ _ _, rfl, fun k hk => ?_⟩
  refine (State.byte_writeMem_in hwf (by simpa using hk)).trans ?_
  rw [leBytes_getElem]

/-- The COPY is answered once its flag is written. -/
theorem State.kcpCopyStep_end (hlen : x.len ≤ x.done) (hflag : x.flagged = true) :
    s.kcpCopyStep ep c x = State.endRun { s with mem := x.shown s.mem } ep 0 := by
  simp only [State.kcpCopyStep, Nat.not_lt.2 hlen, if_false, hflag, Bool.not_true, Bool.false_eq_true]

end

end

end Sys2Proof.Machine
end

section
namespace Sys2Proof.Settled
open Machine

/-- Settles O51: each operation by the status that it draws or by the effect that it has. -/
theorem kcpRequests : Obligations.KcpRequests := by
  unfold Obligations.KcpRequests
  intro s ep q rest hq hep hready hbusy hform s0 done left same goes w8 mine
  have h : VfReady s ep q rest := ⟨hq, hep, hready, hbusy, hform⟩
  have hdone : done = fun i st body more => KcpDone s ep q rest (exec i s) st body more := rfl
  have hgoes : goes = fun i more => KcpGoes s ep (exec i s) more := rfl
  have hw8 : w8 = leBytes 8 := rfl
  have hs0 : s0 = s.dequeued ep rest := rfl
  clear_value done goes w8 s0
  subst hdone hgoes hw8 hs0
  beta_reduce
  refine ⟨?_, ?_, ?_, ?_, ?_, ?_, ?_, ?_, ?_, ?_, ?_, ?_, ?_, ?_, ?_, ?_, ?_⟩
  · intro desc hbody who u codes
    have hu : Consulted (s.dequeued ep rest) u := consulted_checkedWalk _ _ _ _ _
    exact ⟨fun c hc hleast => h.launchBody_refused hbody rfl rfl hc hleast ⟨rfl, hu.launches, hu.jobs, hu.cores⟩,
      fun hnone => h.launchBody_accepted hbody rfl rfl hnone⟩
  · intro addr job res hbody
    rw [exec_kcpLaunch, execKcpLaunch]
    refine ⟨fun hbad => ?_, fun hres haddr hal hjob hnone => ?_⟩
    · have hmalformed : res = true ∨ 2 ^ 48 ≤ addr ∨ addr % 64 ≠ 0 ∨ 1024 ≤ job := by tauto
      exact h.done (x := KcpBody.launchAt addr job res) (by rw [hbody]) (if_pos hmalformed) rfl rfl ⟨rfl, rfl, rfl, rfl⟩
    · have hgood : ¬ (res = true ∨ 2 ^ 48 ≤ addr ∨ addr % 64 ≠ 0 ∨ 1024 ≤ job) := by
        rw [hres]
        simp only [Bool.false_eq_true, false_or]
        omega
      have hjob : (s.dequeued ep rest).jobIn ep job = none := hnone
      refine h.done (x := KcpBody.launchAt addr job res) (u := s.dequeued ep rest) (by rw [hbody]) ((if_neg hgood).trans ?_) rfl rfl
        ⟨rfl, rfl, rfl, rfl⟩
      simp only [hjob, wordAnswer_refusal]
  · intro lv i hbody
    rw [exec_kcpCancel, execKcpCancel]
    refine ⟨fun hnone => ?_, fun j x hj hx => ⟨fun hother => ?_, fun hown => ?_⟩⟩
    · have hvf : (s.dequeued ep rest).instanceVf lv i.toNat = none := State.instanceVf_none hnone
      refine h.served (x := (lv, i)) (by rw [hbody]) (u := s.dequeued ep rest) ?_ rfl rfl ⟨rfl, rfl, rfl, rfl⟩
      simp only [hvf, wordAnswer_refusal]
    · have hvf : (s.dequeued ep rest).instanceVf lv i.toNat = some x.vf := State.instanceVf_of hj hx
      refine h.served (x := (lv, i)) (by rw [hbody]) (u := s.dequeued ep rest) ?_ rfl rfl ⟨rfl, rfl, rfl, rfl⟩
      simp only [hvf, hother, if_false, wordAnswer_refusal]
    · have hvf : (s.dequeued ep rest).instanceVf lv i.toNat = some ep := (State.instanceVf_of hj hx).trans (congrArg some hown)
      have hends := staysEnded_cancelLevel (i := 0) (s.dequeued ep rest) lv i.toNat
      refine h.served (x := (lv, i)) (by rw [hbody]) (u := (s.dequeued ep rest).cancelLevel lv i.toNat) ?_
        hends.kcp hends.replies fun hrising hlv => ?_
      · simp only [hvf, if_true]
        rfl
      · subst hlv
        exact State.cancelLaunch_cancelled (s := s.dequeued ep rest) hrising
  · intro i hbody
    rw [exec_kcpClose, execKcpClose]
    refine ⟨fun hnone => ?_, fun hmine hrising => ?_⟩
    · have hvf : (s.dequeued ep rest).instanceVf .job i ≠ some ep := mt State.instanceVf_job.1 (not_not.2 hnone)
      exact h.served (x := (false, i)) (by rw [hbody]) (u := s.dequeued ep rest) (if_neg hvf) rfl rfl ⟨rfl, rfl, rfl, rfl⟩
    · exact h.close_job hbody (State.instanceVf_job.2 hmine) hrising
  · intro i x hbody hx hmine hrising
    rw [exec_kcpClose]
    obtain ⟨y, hy⟩ := Option.ne_none_iff_exists'.1 hmine
    obtain ⟨hjob, hown⟩ := State.jobIn_eq_some.1 hy
    have hvf := State.instanceVf_of (lv := .phase) (i := i) (congrArg (Option.map Phase.job) hx) hjob
    exact h.close_phase hbody (hvf.trans (congrArg some hown)) hrising
  · intro b hbody job phase asid u
    rw [exec_kcpOpen]
    refine ⟨fun hbad => ?_, h.open_job hbody, fun hgood hjob hno => ?_, fun x => h.open_phase hbody⟩
    · rw [execKcpOpen]
      exact h.served (x := b.toNat) (by rw [hbody]) (u := s.dequeued ep rest) (if_pos hbad) rfl rfl ⟨rfl, rfl, rfl, rfl⟩
    · have hu : Consulted (s.dequeued ep rest) u := consulted_checked _ _ _
      exact h.open_refused hbody hgood hjob hno ⟨rfl, hu.launches, hu.jobs, hu.cores⟩
  · intro pkg l x hbody hl
    rw [exec_kcpListen]
    refine ⟨fun hother => ?_, h.listen_named hbody hl⟩
    rw [execKcpListen]
    refine h.served (x := (false, pkg, l)) (by rw [hbody]) (u := s.dequeued ep rest) ?_ rfl rfl ⟨rfl, rfl, rfl, rfl⟩
    simp [hl, hother, statusOnly]
  · intro j a v i hbody
    rw [exec_kcpGrant]
    refine ⟨fun ha => ?_, fun ha hform => ?_, fun x u ha hform hjob hout => ?_, fun x p u w => h.grant_writes hbody⟩
    · exact h.done (x := (j, a, v, i)) (by rw [hbody]) (if_pos ha) rfl rfl ⟨rfl, rfl, rfl, rfl⟩
    · have haligned : ¬ a % 16 ≠ 0 := by omega
      exact h.done (x := (j, a, v, i)) (by rw [hbody]) ((if_neg haligned).trans (if_pos hform)) rfl rfl ⟨rfl, rfl, rfl, rfl⟩
    · have hu : Consulted (s.dequeued ep rest) u := by
        have hbounds := consulted_boundsInside (s.dequeued ep rest) ep x.asid i v
        rwa [hout] at hbounds
      exact h.grant_outside hbody ha hform hjob hout ⟨rfl, hu.launches, hu.jobs, hu.cores⟩
  · intro asid va hbody hit
    rw [exec_kcpShoot, execKcpShoot]
    refine h.served (x := (asid, va)) (by rw [hbody]) rfl rfl rfl ⟨rfl, fun k c hc e => ?_, fun y => ?_⟩
    · change e ∈ ((mget (s.cores.map fun c => (c.1, c.2.shoot asid va)) k).getD (Core.reset k)).tlb ↔ _
      rw [mget_map_entries s.cores (fun c : Core => c.shoot asid va), hc]
      exact List.mem_filter.trans (and_congr_right fun _ => e.kept_iff asid va)
    · exact List.mem_filter.trans (and_congr_right fun _ => y.2.kept_iff asid va)
  · intro j a n hbody
    rw [exec_kcpRead]
    refine ⟨fun hbad => ?_, fun hn hmax hnone => ?_, fun x e u hn hmax hjob hspan hsize hgood hheld =>
      ⟨h.read_clean hbody hn hmax hjob hspan hsize hgood hheld, fun w => h.read_poisoned hbody hjob hspan hsize hgood hheld⟩⟩
    · exact h.done (x := (j, a, n)) (by rw [hbody]) (if_pos hbad) rfl rfl ⟨rfl, rfl, rfl, rfl⟩
    · have hform : ¬ (n = 0 ∨ 2 ^ 20 < n) := by omega
      have hlive : (s.dequeued ep rest).jobIn ep j = none := hnone
      refine h.done (x := (j, a, n)) (by rw [hbody]) (u := s.dequeued ep rest) ((if_neg hform).trans ?_) rfl rfl ⟨rfl, rfl, rfl, rfl⟩
      simp only [hlive]
      rfl
  · intro j a d hbody hrun
    rw [exec_kcpWrite]
    refine ⟨fun hempty => ?_, fun x e u => h.write_page hbody hrun⟩
    rw [execKcpWrite, hrun]
    exact h.done (x := (j, a, d)) (by rw [hbody]) (if_pos (.inl (List.isEmpty_iff.2 hempty))) rfl rfl ⟨rfl, rfl, rfl, rfl⟩
  · intro x hrun hchannel
    rw [exec_kcpWrite, execKcpWrite, hrun]
    simp only [hchannel]
    exact h.done_endRun (u := { s with mem := x.shown s.mem }) rfl rfl fun t ht => ⟨ht, fun a => ht ▸ x.byte_shown s.mem a⟩
  · intro j src dst n flag val hbody hrun
    rw [exec_kcpCopy]
    have hform : 0 < n → n ≤ 2 ^ 36 → flag % 2 = 0 → ¬ (n = 0 ∨ 2 ^ 36 < n ∨ flag % 2 ≠ 0) := by omega
    refine ⟨fun hbad => ?_, fun hn hmax hodd hnone => ?_, fun x c u hn hmax hodd hjob hfree hsrc => ?_,
      fun hn hmax hodd hmine hbusy => ?_, fun x c a d f u v w hn hmax hodd => h.copy_starts hbody hrun (hform hn hmax hodd)⟩
    · rw [execKcpCopy, hrun]
      exact h.done (x := (j, src, dst, n, flag, val)) (by rw [hbody]) (if_pos hbad) rfl rfl ⟨rfl, rfl, rfl, rfl⟩
    · have hlive : (s.dequeued ep rest).jobIn ep j = none := hnone
      rw [execKcpCopy, hrun]
      refine h.done (x := (j, src, dst, n, flag, val)) (by rw [hbody]) (u := s.dequeued ep rest)
        ((if_neg (hform hn hmax hodd)).trans ?_) rfl rfl ⟨rfl, rfl, rfl, rfl⟩
      simp only [hlive]
      rfl
    · have hu := consulted_spanPages (v := .kcpChannel c) trivial (s.dequeued ep rest) ep x.asid [.read] src n
      rw [hsrc] at hu
      exact h.copy_unmapped hbody hrun (hform hn hmax hodd) hjob hfree hsrc ⟨rfl, hu.launches, hu.jobs, hu.cores⟩
    · obtain ⟨x, hx⟩ := Option.ne_none_iff_exists'.1 hmine
      exact h.copy_waits hbody hrun (hform hn hmax hodd) hx hbusy
  · intro x c hrun hchannel v from_ to_ n
    rw [exec_kcpCopy, execKcpCopy_running hrun hchannel]
    refine ⟨fun p d hlen hp hd => ⟨fun hheld => ?_, State.kcpCopyStep_beat rfl hlen hp hd⟩, State.kcpCopyStep_flag, fun hlen hflag => ?_⟩
    · rw [State.kcpCopyStep_held hlen (State.kcpBeat_held rfl hp hd hheld)]
    · rw [State.kcpCopyStep_end hlen hflag]
      exact h.done_endRun (u := { s with mem := x.shown s.mem }) rfl rfl fun t ht => ⟨ht, fun a => ht ▸ x.byte_shown s.mem a⟩
  · intro c hbody
    rw [exec_kcpCount, execKcpCount]
    refine ⟨h.served (by rw [hbody]) rfl rfl rfl ⟨rfl, rfl, rfl, rfl⟩, State.reading_count, ?_, ?_⟩
    · rintro k n rfl
      rfl
    · rintro r m rfl hm
      simp [State.reading, hm]
  · intro nonce hbody
    rw [exec_kcpAttest, execKcpAttest]
    exact ⟨fun hlen => h.served (x := nonce) (by rw [hbody]) (if_neg hlen) rfl rfl ⟨rfl, rfl, rfl, rfl⟩,
      fun hlen => h.served (x := nonce) (by rw [hbody]) (if_pos hlen) rfl rfl ⟨rfl, rfl, rfl, rfl⟩⟩
  · intro n hbody
    rw [exec_kcpUnknownOp, execKcpUnknownOp, State.oldestOp_eq hq, hbody, show (KcpBody.other n).op = n from rfl]
    refine ⟨fun hn => ?_, fun hn => ?_, fun hn => ?_⟩
    · have hvf : (!(List.range' 0x40 6).contains n) = true := by simp; omega
      have hknown : ¬ kcpOps.contains n = true := by simp [kcpOps]; omega
      rw [hvf]
      exact h.served (x := n) (u := s.dequeued ep rest) (by rw [hbody]) (by rw [if_neg hknown]; rfl) rfl rfl ⟨rfl, rfl, rfl, rfl⟩
    · have hvf : (!(List.range' 0x40 6).contains n) = true := by simp; omega
      have hknown : kcpOps.contains n = true := by simp [kcpOps]; omega
      rw [hvf]
      exact h.served (x := n) (u := s.dequeued ep rest) (by rw [hbody]) (by rw [if_pos hknown]; rfl) rfl rfl ⟨rfl, rfl, rfl, rfl⟩
    · have hvf : (!(List.range' 0x40 6).contains n) = false := by simp; omega
      rw [hvf]
      exact .of_refused h (x := n) (by rw [hbody]) (State.refuses_other hready hbusy hep) ⟨rfl, rfl, rfl, rfl⟩

end Sys2Proof.Settled
end

section
/-! SUPPORT. What ANQ and ANQB do once their places are translated, and what a cached load writes back when the cache is full (R78, R201,
R203). -/
namespace Sys2Proof.Machine

/-! ## The step of a batch (R78) -/

/-- From the allocation of the symbol on: the release, the reads of the descriptors, and the request on its way to the home. -/
def State.sendBatch (v : State) (res : Option SymRef) (y : Reg) (ps : List Place) : State :=
  let q := (v.release v.cur).2.loadDescs ps
  State.pin { q.2 with hreqs := q.2.hreqs ++ [.enqueue q.2.asker res q.1 (capBase y.info y.value).toNat
    (capTop y.info y.value).toNat (capPerms y.info) (v.release v.cur).1] } q.2.myLaunch

/-- A batch issues as a commit instruction of its two capabilities. -/
theorem State.enqueueTasks_eq (s : State) (d a b : GReg) (n : Nat) : s.enqueueTasks d a b n =
    s.issue { reads := [.g a, .g b], writes := [.g d], commit := true } fun t =>
      let x := t.me.readG a
      let y := t.me.readG b
      t.clean [x, y] 1 (t.ready [x, y] (t.imageAt x (64 * n) [.r] (match anchorFault y with
        | 0 => t.descPlaces n x.value.toNat fun ps u => u.lateG d .i64 fun res v => .ok (v.sendBatch res y ps)
        | e => .fault 5 e y.value 0 t))) := rfl

/-- A batch under its two capabilities is read and sent, once its places and its symbol are at hand. -/
theorem State.enqueueTasks_sent {s : State} {d a b : GReg} {n : Nat} {x y : Reg} {ps : List Place} {res : Option SymRef} {v : State}
    (hi : s.issues { reads := [.g a, .g b], writes := [.g d], commit := true })
    (hx : (s.settleLdes s.cur).me.readG a = x) (hy : (s.settleLdes s.cur).me.readG b = y)
    (hcap : capFault x x.value.toNat (64 * n) [.r] = 0) (halign : x.value.toNat % 64 = 0) (htag : y.tag = .cap)
    (hanchor : anchorFault y = 0) (hplaces : ∀ k, (s.settleLdes s.cur).descPlaces n x.value.toNat k = k ps (s.settleLdes s.cur))
    (hlate : ∀ k, (s.settleLdes s.cur).lateG d .i64 k = k res v) :
    s.enqueueTasks d a b n = .next ((v.sendBatch res y ps).advance
      { reads := [.g a, .g b], writes := [.g d], commit := true } ((s.settleLdes s.cur).me.pc + 4)) := by
  rw [State.enqueueTasks_eq, State.issue_of_issues hi]
  simp [hx, hy, State.clean, State.ready, tag_of_capFault hcap, htag, State.imageAt_of hcap halign, hanchor, hplaces, hlate,
    State.finish]

/-! ## Evictions (R203) -/

/-- One line flushed is written back where it is dirty. -/
theorem State.mem_flush_one {s : State} {k : Nat} {p : Line → Bool} {l : Line} (drop : Bool)
    (h : (s.core k).dcache.filter p = [l]) : (s.flush k drop p).mem = (s.writeLine k l).mem := by
  unfold State.flush
  simp only [h, List.foldl, State.setCore_mem]

/-- In a full cache without the line, the line that the hardware chooses is evicted: it is written back where it is dirty. -/
theorem State.mem_fill_full {s : State} {k pa : Nat} {old : Line} (hnone : (s.core k).lineAt pa = none) (hup : s.mem.upsets = [])
    (hfull : (s.core k).dcache.length = dataLines) (hold : (s.core k).dcache[Config.freeNat s.fresh % dataLines]? = some old)
    (honly : (s.core k).dcache.filter (fun x => x.base == old.base) = [old]) :
    (s.fill k pa).mem = (s.draw.writeLine k old).mem := by
  have hne : (s.core k).dcache.isEmpty = false := by
    rw [List.isEmpty_eq_false_iff, ← List.length_pos_iff, hfull]
    decide
  unfold State.fill
  simp only [hnone, State.checked_of_good hup, hne, hfull, Nat.lt_irrefl, if_false, Bool.false_eq_true, hold]
  exact State.mem_flush_one (s := s.draw) true honly

/-- Of memory, a cached load with an empty store buffer leaves what the fill leaves. -/
theorem State.mem_load_cached {s : State} {k : Nat} (pa n : Nat) (hbuf : (s.core k).buf = []) :
    (s.load k pa n true).2.mem = (s.fill k pa).mem := by
  have hdrain : ∀ p, s.drainPast k p = s := by
    intro p
    unfold State.drainPast
    rw [hbuf]
    rfl
  have hyoungest : (s.core k).youngest pa n = none := by simp [Core.youngest, hbuf]
  unfold State.load
  simp only [hdrain, hyoungest]
  unfold State.loadAt
  simp only [if_true]
  split <;> rfl

end Sys2Proof.Machine
end

section
/-! SUPPORT. A batch of two descriptors, the first on a shared page, the second on a page of the core's own, whose read evicts a line
that lies over the first. -/
namespace Sys2Proof.Machine

/-! ## The state -/

/-- A line of 64 bytes 1 that the core has written, the i-th in steps of 4 KiB from the address of descriptor 0 on. -/
def dirtyLine (i : Nat) : Line :=
  ⟨0x1FFC0 + 4096 * i, List.replicate 64 1, List.replicate 4 false, List.replicate 8 none, true⟩

/-- As many such lines as the data cache holds. -/
def dirtyLines : List Line := (List.range dataLines).map dirtyLine

/-- They stand so that the hardware's next choice, whatever number it is, falls on line 0. -/
def fullCache : List Line := dirtyLines.rotate (dataLines - Config.freeNat 0 % dataLines)

/-- Descriptor 0 lies at the end of a page of scope PACKAGE, descriptor 1 at the start of one of scope CORE, which is cached. -/
def mixedPages : Nat → TlbEntry
  | 0 => ⟨0, 0x10000, 0x10000, 0x10000, 3, 0, true, true, false, true⟩
  | _ => ⟨0, 0x20000, 0x10000, 0x20000, 0, 0, true, true, false, true⟩

/-- The places of the two descriptors. -/
def mixedPlaces : List Place := [⟨0x1FFC0, 3, 0⟩, ⟨0x20000, 0, 0⟩]

/-- Core 0 with that cache, about to enqueue the two under capabilities over the whole address space. -/
def mixedBatch : State :=
  let whole (v : Word) : Reg := Reg.mkCap v 0xFF60000001000000
  { State.reset with
    cores := [(0, { ((Core.reset 0).placed.setG 6 (whole 0x1FFC0)).setG 7 (whole 0x8000) with
      tlb := [mixedPages 0, mixedPages 1]
      dcache := fullCache })] }

/-! ## Its cache -/

/-- The lines of the cache. -/
theorem mem_fullCache {l : Line} : l ∈ fullCache ↔ ∃ i < 256, dirtyLine i = l := by
  simp [fullCache, dirtyLines, dataLines]

/-- The cache is full. -/
theorem length_fullCache : fullCache.length = dataLines := by
  simp [fullCache, dirtyLines]

/-- The hardware's choice is line 0. -/
theorem fullCache_choice : fullCache[Config.freeNat 0 % dataLines]? = some (dirtyLine 0) := by
  have hj : Config.freeNat 0 % dataLines < dataLines := Nat.mod_lt _ (by decide)
  have hlen : dirtyLines.length = dataLines := by simp [dirtyLines]
  unfold fullCache
  rw [List.getElem?_rotate (by rwa [hlen]), hlen, Nat.add_sub_cancel' hj.le, Nat.mod_self]
  rfl

/-- No other line has its address. -/
theorem fullCache_filter : fullCache.filter (fun x => x.base == (dirtyLine 0).base) = [dirtyLine 0] := by
  have hperm := (List.rotate_perm dirtyLines (dataLines - Config.freeNat 0 % dataLines)).filter fun x => x.base == (dirtyLine 0).base
  have hlines : dirtyLines.filter (fun x => x.base == (dirtyLine 0).base) = [dirtyLine 0] := by decide +kernel
  exact List.perm_singleton.1 (hlines ▸ hperm)

/-! ## Its step -/

/-- The batch can issue. -/
theorem mixedBatch_issues : mixedBatch.issues { reads := [.g 6, .g 7], writes := [.g 5], commit := true } :=
  State.issues_of rfl (by decide +kernel)

/-- The state once g5 holds its ephemeris. -/
def mixedBatch.ready : State :=
  let t := mixedBatch.settleLdes 0
  t.setMe ((t.me.allocate 0 .i64).setG 5 (Reg.newEph .i64 0))

/-- The two reads. -/
def mixedBatch.reads : List (Option (BitVec 512)) × State := (mixedBatch.ready.release 0).2.loadDescs mixedPlaces

/-- The state between the two reads. -/
def mixedBatch.between : State := ((mixedBatch.ready.release 0).2.loadDesc ⟨0x1FFC0, 3, 0⟩).2

/-- Memory as the second read leaves it: line 0 has been written back. -/
def mixedBatch.after : Memory := (mixedBatch.between.draw.writeLine 0 (dirtyLine 0)).mem

/-- The first read finds zeroes. -/
theorem mixedBatch_reads_first : mixedBatch.reads.1[0]? = some (some 0) := by decide +kernel

/-- The second read evicts line 0. -/
theorem mixedBatch_reads_mem : mixedBatch.reads.2.mem = mixedBatch.after := by
  have hcache : (mixedBatch.between.core 0).dcache = fullCache := rfl
  have hfresh : mixedBatch.between.fresh = 0 := rfl
  refine (State.mem_load_cached (s := mixedBatch.between) (k := 0) 0x20000 64 rfl).trans
    (State.mem_fill_full ?_ rfl ?_ ?_ ?_)
  · rw [Core.lineAt, hcache, List.find?_eq_none]
    intro l hl
    obtain ⟨i, -, rfl⟩ := mem_fullCache.1 hl
    simp [dirtyLine]
    omega
  · rw [hcache, length_fullCache]
  · rw [hcache, hfresh, fullCache_choice]
  · rw [hcache, fullCache_filter]

/-- The core then sees at the address of descriptor 0 a word that is neither poisoned nor 0. -/
theorem mixedBatch_after_view : ((wordsOf 0x1FFC0 64).any fun w => (mixedBatch.after.viewMark (.core 0) w).isSome) = false ∧
    BitVec.ofNat 512 (leNat ((List.range' 0x1FFC0 64).map fun z => mixedBatch.after.view (.core 0) z)) ≠ 0 := by
  decide +kernel

/-- The requests stay as they were. -/
theorem mixedBatch_reads_hreqs : mixedBatch.reads.2.hreqs = [] :=
  (reached_load mixedBatch.between 0 0x20000 64 true).get State.hreqs

/-- The step sends what the reads found, and leaves memory as they left it. -/
theorem mixedBatch_sent : ∃ (t : State) (who : Asker) (base top perms : Nat) (ids : List Nat),
    exec (.anqb 5 6 7 1) mixedBatch = .next t ∧
      t.hreqs = [.enqueue who (some ⟨0, 1⟩) mixedBatch.reads.1 base top perms ids] ∧ t.mem = mixedBatch.after := by
  have hexec := State.enqueueTasks_sent (d := 5) (n := 2) (ps := mixedPlaces) (res := some ⟨0, 1⟩) (v := mixedBatch.ready)
    mixedBatch_issues rfl rfl (by decide +kernel) (by decide +kernel) (by decide +kernel) (by decide +kernel) (fun _ => rfl) fun _ => rfl
  exact ⟨_, _, _, _, _, _, hexec, congrArg (· ++ [_]) mixedBatch_reads_hreqs, mixedBatch_reads_mem⟩

end Sys2Proof.Machine
end

section
namespace Sys2Proof.Settled
open Machine

/-- Refutes O36: the clause about a batch fails for its uncached descriptors where others are cached. The descriptors are read one after
the other, and the fill of a cached one may evict a dirty line (R203) over an earlier, uncached one. In `mixedBatch` descriptor 0 is read as
zeroes, and the read of descriptor 1 writes back the line over it, so that the request holds what stood there before, and not what the
core sees there in the next state. -/
theorem not_anchorInstructions : ¬ Obligations.AnchorInstructions := by
  unfold Obligations.AnchorInstructions
  intro h
  obtain ⟨-, hbatch⟩ := h mixedBatch mixedBatch 5 6 7 ⟨0, 0, 0⟩ placedAct rfl mixedBatch_issues (.inr (by decide +kernel))
  obtain ⟨t, ht, -, -, -, res, descs, ids, -, -, hreqs, hview, -⟩ := hbatch 1 2 (.anqb 5 6 7 1) mixedPages (by simp) rfl
    (by decide +kernel) (by decide +kernel) rfl (by decide +kernel) (by decide +kernel) (by decide +kernel) (by decide +kernel)
  obtain ⟨u, who, base, top, perms, ids', hu, hsent, hmem⟩ := mixedBatch_sent
  obtain rfl := Host.Outcome.next.inj (hu.symm.trans ht)
  obtain ⟨-, -, hdescs, -⟩ := HomeReq.enqueue.inj (List.cons.inj (hsent.symm.trans hreqs : [_] = [_])).1
  have hfirst := (congrArg (·[0]?) hdescs).trans (hview rfl 0 (by decide) (by decide +kernel))
  rw [hmem, mixedBatch_reads_first] at hfirst
  obtain ⟨hclean, hne⟩ := mixedBatch_after_view
  exact hne ((Option.some.inj (Option.some.inj (hfirst.trans (congrArg some (if_neg (Bool.eq_false_iff.1 hclean)))))).symm)

end Sys2Proof.Settled
end

section
/-! SUPPORT. Near units and the queues of their homes under what ends a task: drains, fault messages and retirements (R64, R70 to R72,
R314, R315, R319). -/
namespace Sys2Proof.Machine

variable {h u qi seq : Nat}

/-! ## Units and queues of a home -/

/-- States with the same homes have the same home h. -/
theorem State.home_congr {s t : State} (ht : t.homes = s.homes) (h : Nat) : t.home h = s.home h := by
  unfold State.home
  rw [ht]

/-- A near unit that has been set is the one that is read. -/
@[simp] theorem State.near_setNear_same (s : State) (h u : Nat) (x : NearUnit) : (s.setNear h u x).near h u = x := by
  simp [State.near, State.setNear]

/-- The queues of its home stay. -/
@[simp] theorem State.queue_setNear (s : State) (h u qi : Nat) (x : NearUnit) :
    ((s.setNear h u x).home h).queue qi = (s.home h).queue qi := by
  simp [State.setNear, Home.queue]

/-- So does its pointer. -/
@[simp] theorem State.ptr_setNear (s : State) (h u : Nat) (x : NearUnit) : ((s.setNear h u x).home h).ptr = (s.home h).ptr := by
  simp [State.setNear]

/-- The near units and the queues of a home. -/
def Home.tasks (x : Home) : Vector NearUnit 4 × Vector Queue 8 := (x.units, x.queues)

/-- Where they stay, each unit stays. -/
theorem State.near_of_tasks {s t : State} (ht : (t.home h).tasks = (s.home h).tasks) : t.near h u = s.near h u :=
  congrArg (fun p => p.1[Fin.ofNat 4 u]) ht

/-- And each queue. -/
theorem Home.queue_of_tasks {x y : Home} (ht : y.tasks = x.tasks) : y.queue qi = x.queue qi :=
  congrArg (fun p => p.2[Fin.ofNat 8 qi]) ht

/-- The sequence numbers of a queue's entries. -/
def Queue.seqs (q : Queue) : List Nat := q.entries.map (·.seq)

/-- An entry changed keeps its number. -/
theorem Queue.seqs_modEntry {f : Entry → Entry} (hf : ∀ e, (f e).seq = e.seq) (q : Queue) (seq : Nat) :
    (q.modEntry seq f).seqs = q.seqs := by
  simp only [Queue.seqs, Queue.modEntry, List.map_map]
  refine List.map_congr_left fun e _ => ?_
  simp only [Function.comp]
  split
  · exact hf e
  · rfl

/-! ## What completes, and fault messages -/

/-- A lease that ends leaves the units and the queues. -/
theorem Home.tasks_endLease (x : Home) : x.endLease.tasks = x.tasks := by
  unfold Home.endLease
  split <;> rfl

/-- Where instances complete, they stay. -/
theorem State.tasks_settle (s : State) (h : Nat) : (s.settle.home h).tasks = (s.home h).tasks := by
  refine State.settle_of_ends (R := fun s t => (t.home h).tasks = (s.home h).tasks) (fun _ => rfl) (fun hst htu => htu.trans hst) ?_
    (fun _ _ _ => rfl) (fun _ _ _ => rfl) (fun _ _ _ => rfl) s
  intro s l x
  rw [s.home_endLaunch, s.home_endLeases]
  split
  · exact Home.tasks_endLease _
  · rfl

/-- The same for a state with the homes of another. -/
theorem State.tasks_settle_of_homes {s t : State} (ht : t.homes = s.homes) (h : Nat) : (t.settle.home h).tasks = (s.home h).tasks :=
  (t.tasks_settle h).trans (congrArg Home.tasks (State.home_congr ht h))

/-- A fault message, sent or dropped, leaves them. -/
theorem State.tasks_faultMessage (s : State) (l src : Nat) (words : List Word) (ids : List Nat) (engine : Option Engine) (h : Nat) :
    ((s.faultMessage l src words ids engine).home h).tasks = (s.home h).tasks := by
  unfold State.faultMessage
  split
  · next x _ =>
    have hjoin : ((if s.canJoin l then s.join l else s).home h).tasks = (s.home h).tasks := by split <;> rfl
    unfold State.faultTo
    dsimp only
    generalize (if s.canJoin l then s.join l else s) = v at hjoin
    have hcount := State.homes_count v (.dropped src) 1
    split
    · exact hjoin
    · split
      · unfold State.endMember
        refine (State.tasks_settle_of_homes ?_ h).trans hjoin
        exact hcount
      · exact (congrArg Home.tasks (State.home_congr hcount h)).trans hjoin
  · rfl

/-- The advance of a task's target leaves the homes. -/
theorem State.homes_targetEnd (s : State) (d : TaskDesc) (e : End) (ids : List Nat) : (s.targetEnd d e ids).homes = s.homes := by
  unfold State.targetEnd
  split
  · rfl
  · rfl
  · unfold State.tcbTaskEnd
    dsimp only
    split
    · exact (levelled_tcbEnd _ _ _ _).homes
    · rfl
  · rfl

/-! ## Tasks passed and retired -/

/-- A task passed to the Orrery leaves the units of its home. -/
theorem State.units_passTask (h qi : Nat) (s : State) (e : Entry) : ((State.passTask h qi s e).home h).units = (s.home h).units := by
  change ((State.setHome s h _).home h).units = _
  rw [State.home_setHome_same]
  rfl

/-- And the numbers of its queue's entries. -/
theorem State.seqs_passTask (hq : qi < 8) (s : State) (e : Entry) :
    (((State.passTask h qi s e).home h).queue qi).seqs = ((s.home h).queue qi).seqs := by
  change (((State.setHome s h _).home h).queue qi).seqs = _
  rw [State.home_setHome_same, Home.queue_modQueue _ _ hq]
  refine Queue.seqs_modEntry ?_ _ _
  exact fun _ => rfl

/-- The tasks of a queue passed. -/
theorem State.passTasks_keeps (hq : qi < 8) (s : State) : ((s.passTasks h qi).home h).units = (s.home h).units ∧
    (((s.passTasks h qi).home h).queue qi).seqs = ((s.home h).queue qi).seqs :=
  ⟨foldl_keeps (fun t : State => (t.home h).units) (State.units_passTask h qi) _ s,
    foldl_keeps (fun t : State => ((t.home h).queue qi).seqs) (State.seqs_passTask hq) _ s⟩

/-- A task that retires leaves its queue, and the units as they are. -/
theorem State.retireTask_leaves (hq : qi < 8) (s : State) (e : End) (ids : List Nat) :
    ((s.retireTask ⟨h, qi, seq⟩ e ids).home h).units = (s.home h).units ∧
      seq ∉ (((s.retireTask ⟨h, qi, seq⟩ e ids).home h).queue qi).seqs := by
  unfold State.retireTask
  dsimp only
  split
  · next hnone =>
    refine ⟨rfl, fun hmem => ?_⟩
    obtain ⟨y, hy, hseq⟩ := List.mem_map.1 hmem
    exact List.find?_eq_none.1 hnone y hy (by simpa using hseq)
  · next en _ =>
    generalize hx : ({ (s.home h).modQueue qi fun q => { q with entries := q.entries.filter fun y => y.seq != seq } with
      released := _, retired := _ } : Home) = x
    have hqueue : seq ∉ (x.queue qi).seqs := by
      have : x.queue qi = ((s.home h).modQueue qi fun q => { q with entries := q.entries.filter fun y => y.seq != seq }).queue qi := by
        rw [← hx]
        rfl
      rw [this, Home.queue_modQueue _ _ hq]
      simp [Queue.seqs]
    have hunits : x.units = (s.home h).units := by
      rw [← hx]
      rfl
    obtain ⟨hpassU, hpassQ⟩ := State.passTasks_keeps (h := h) hq (s.setHome h x)
    rw [State.home_setHome_same] at hpassU hpassQ
    generalize (s.setHome h x).passTasks h qi = v at hpassU hpassQ
    have htasks := State.tasks_settle_of_homes (t := { v.targetEnd en.desc e ids with
      launches := mmod (v.targetEnd en.desc e ids).launches en.ctx fun l => { l with pins := l.pins - 1 } })
      (v.homes_targetEnd en.desc e ids) h
    refine ⟨(congrArg Prod.fst htasks).trans (hpassU.trans hunits), ?_⟩
    rw [Home.queue_of_tasks htasks, hpassQ]
    exact hqueue

end Sys2Proof.Machine
end

section
/-! SUPPORT. What a near unit's stores and loads do to memory, and how its task ends (R72, R313 to R315, R318, R319). -/
namespace Sys2Proof.Machine

variable {h u qi : Nat} {e : Entry}

/-! ## Stores (R313, R318) -/

/-- What is consulted leaves the homes. -/
theorem Consulted.homes {s t : State} (h : Consulted s t) : t.homes = s.homes := by
  obtain ⟨_, _, _, _, rfl⟩ := h.rest
  rfl

/-- One word of a store changes memory and counts. -/
theorem consulted_nearWord (h u : Nat) (e : Entry) (w : NearWrite) (s : State) (j : Nat) : Consulted s (State.nearWord h u e w s j) := by
  unfold State.nearWord
  dsimp only
  split
  · exact .refl s
  · exact consulted_writeMem _ _ _ _ _ _

/-- So does a store. -/
theorem consulted_nearStore (s : State) (h u : Nat) (e : Entry) (w : NearWrite) : Consulted s (s.nearStore h u e w) := by
  unfold State.nearStore
  generalize List.range 4 = l
  induction l generalizing s with
  | nil => exact .refl s
  | cons j l ih => exact (consulted_nearWord h u e w s j).trans (ih _)

/-- The addresses of a run that lie between two bounds are a run. -/
theorem filter_range'_between (a n lo hi : Nat) : (List.range' a n).filter (fun x => decide (lo ≤ x) && decide (x < hi)) =
    List.range' (max a lo) (min (a + n) hi - max a lo) := by
  induction n generalizing a with
  | zero =>
    have : min (a + 0) hi - max a lo = 0 := by omega
    rw [this]
    rfl
  | succ n ih =>
    rw [List.range'_succ, List.filter_cons, ih]
    by_cases hlo : lo ≤ a
    · by_cases hhi : a < hi
      · have hlen : min (a + (n + 1)) hi - max a lo = (min (a + 1 + n) hi - max (a + 1) lo) + 1 := by omega
        rw [hlen, List.range'_succ, if_pos (by simp [hlo, hhi])]
        simp [hlo, show lo ≤ a + 1 by omega]
      · have h1 : min (a + 1 + n) hi - max (a + 1) lo = 0 := by omega
        have h2 : min (a + (n + 1)) hi - max a lo = 0 := by omega
        simp [hhi, h1, h2]
    · have h1 : max (a + 1) lo = max a lo := by omega
      have h2 : a + 1 + n = a + (n + 1) := by omega
      simp [hlo, h1, h2]

/-- A store has a byte for a place where the mask has the place's lane and the anchor holds the place. -/
theorem NearWrite.isSome_byteAt (w : NearWrite) (e : Entry) (a : Nat) : (w.byteAt e a).isSome =
    (w.mask.getLsbD ((a - (e.base + w.off)) / 4) && e.inside a) := by
  unfold NearWrite.byteAt
  dsimp only
  split <;> simp_all

/-- Of the bytes of one of its words, a store writes a run: the word has two lanes, and the anchor is a run. -/
theorem NearWrite.byteAt_run (w : NearWrite) (e : Entry) (j : Nat) : ∃ lo hi, ∀ a ∈ span (e.base + w.off + 8 * j) 8,
    (w.byteAt e a).isSome = (decide (lo ≤ a) && decide (a < hi)) := by
  generalize hat : e.base + w.off + 8 * j = at_
  refine ⟨max e.pa (if w.mask.getLsbD (2 * j) then at_ else at_ + 4),
    min (e.pa + e.desc.alen + 1) (if w.mask.getLsbD (2 * j + 1) then at_ + 8 else at_ + 4), fun a ha => ?_⟩
  obtain ⟨hlo, hhi⟩ := List.mem_range'_1.1 ha
  rw [w.isSome_byteAt, Entry.inside, Bool.eq_iff_iff]
  by_cases hlow : a < at_ + 4
  · have hlane : (a - (e.base + w.off)) / 4 = 2 * j := by omega
    rw [hlane]
    cases w.mask.getLsbD (2 * j)
    · simp
      omega
    · simp
      split <;> omega
  · have hlane : (a - (e.base + w.off)) / 4 = 2 * j + 1 := by omega
    rw [hlane]
    cases w.mask.getLsbD (2 * j + 1)
    · simp
      omega
    · simp
      split <;> omega

/-- One word of a store: each of its bytes is what the store has for it, or as before. -/
theorem State.byte_nearWord {s : State} (hwf : s.mem.wf = true) (w : NearWrite) (j a : Nat) :
    (State.nearWord h u e w s j).mem.byte a = if a ∈ span (e.base + w.off + 8 * j) 8 then (w.byteAt e a).getD (s.mem.byte a)
      else s.mem.byte a := by
  obtain ⟨lo, hi, hrun⟩ := w.byteAt_run e j
  obtain ⟨p, m, hplaces⟩ : ∃ p m, (span (e.base + w.off + 8 * j) 8).filter (fun x => (w.byteAt e x).isSome) = List.range' p m :=
    ⟨_, _, (List.filter_congr hrun).trans (filter_range'_between _ _ _ _)⟩
  have hmem : ∀ x, x ∈ List.range' p m ↔ x ∈ span (e.base + w.off + 8 * j) 8 ∧ (w.byteAt e x).isSome = true := by
    intro x
    rw [← hplaces, List.mem_filter]
  have hbytes : (List.range' p m).filterMap (w.byteAt e) = (List.range' p m).map fun x => (w.byteAt e x).getD 0 := by
    rw [← List.filterMap_eq_map]
    refine List.filterMap_congr fun x hx => ?_
    obtain ⟨v, hv⟩ := Option.isSome_iff_exists.1 ((hmem x).1 hx).2
    simp [hv]
  have hout : a ∉ List.range' p m → (if a ∈ span (e.base + w.off + 8 * j) 8 then (w.byteAt e a).getD (s.mem.byte a)
      else s.mem.byte a) = s.mem.byte a := by
    intro ha
    split
    · next hspan =>
      have : w.byteAt e a = none := by
        by_contra hne
        exact ha ((hmem a).2 ⟨hspan, Option.isSome_iff_ne_none.2 hne⟩)
      rw [this]
      rfl
    · rfl
  unfold State.nearWord
  dsimp only
  rw [hplaces, hbytes]
  split
  · next hnil => exact (hout (by simp [hnil])).symm
  · next first rest hcons =>
    obtain rfl : first = p := by
      cases m with
      | zero => cases hcons
      | succ m => exact (List.cons.inj hcons).1.symm
    by_cases ha : a ∈ List.range' first m
    · obtain ⟨k, hk, rfl⟩ : ∃ k < m, a = first + k := by simpa [List.mem_range'] using ha
      obtain ⟨hspan, hsome⟩ := (hmem _).1 ha
      obtain ⟨v, hv⟩ := Option.isSome_iff_exists.1 hsome
      rw [State.byte_writeMem_in hwf (by simpa using hk), if_pos hspan]
      simp [hv]
    · rw [hout ha]
      refine State.byte_writeMem_out hwf ?_
      simp only [List.length_map, List.length_range']
      rw [List.mem_range'_1] at ha
      omega

/-- A whole store: each byte of its chunk is what the store has for it, and the others are as before. -/
theorem State.byte_nearStore {s : State} (hwf : s.mem.wf = true) (w : NearWrite) (a : Nat) :
    (s.nearStore h u e w).mem.byte a = if a ∈ span (e.base + w.off) 32 then (w.byteAt e a).getD (s.mem.byte a)
      else s.mem.byte a := by
  suffices ∀ n, ((List.range n).foldl (State.nearWord h u e w) s).mem.wf = true ∧
      ((List.range n).foldl (State.nearWord h u e w) s).mem.byte a =
        if a ∈ span (e.base + w.off) (8 * n) then (w.byteAt e a).getD (s.mem.byte a) else s.mem.byte a from (this 4).2
  intro n
  induction n with
  | zero => exact ⟨hwf, rfl⟩
  | succ n ih =>
    obtain ⟨hform, hbyte⟩ := ih
    rw [List.range_succ, List.foldl_append]
    refine ⟨(consulted_nearWord h u e w _ n).form hform, ?_⟩
    rw [List.foldl_cons, List.foldl_nil, State.byte_nearWord hform, hbyte]
    simp only [span, List.mem_range'_1]
    by_cases hlast : e.base + w.off + 8 * n ≤ a ∧ a < e.base + w.off + 8 * n + 8
    · rw [if_pos hlast, if_neg (by omega), if_pos (by omega)]
    · rw [if_neg hlast]
      exact if_congr (by omega) rfl rfl

/-- A byte of the chunk that the anchor holds is the store's where its lane is in the mask. -/
theorem NearWrite.byteAt_lane {w : NearWrite} {j b : Nat} (hj : j < 8) (hb : b < 4)
    (hin : e.inside (e.base + w.off + 4 * j + b) = true) : w.byteAt e (e.base + w.off + 4 * j + b) =
      if w.mask.getLsbD j then some (BitVec.ofNat 8 ((w.value.lanes[j]).toNat / 256 ^ b)) else none := by
  have hi : e.base + w.off + 4 * j + b - (e.base + w.off) = 4 * j + b := by omega
  have hdiv : (4 * j + b) / 4 = j := by omega
  have hmod : (4 * j + b) % 4 = b := by omega
  unfold NearWrite.byteAt
  simp only [hi, hdiv, hmod, hin, Bool.and_true, Fin.ofNat, Fin.getElem_fin, Nat.mod_eq_of_lt hj, Nat.pow_mul]

/-- What a store does not write is as before: outside its chunk, and outside the anchor. -/
theorem State.byte_nearStore_out {s : State} (hwf : s.mem.wf = true) {w : NearWrite} {a : Nat}
    (ha : a < e.base + w.off ∨ e.base + w.off + 32 ≤ a ∨ e.inside a = false) :
    (s.nearStore h u e w).mem.byte a = s.mem.byte a := by
  rw [State.byte_nearStore hwf]
  split
  · next hspan =>
    have hin : e.inside a = false := by
      obtain ⟨hlo, hhi⟩ := List.mem_range'_1.1 hspan
      exact (ha.resolve_left (by omega)).resolve_left (by omega)
    have hnone : w.byteAt e a = none := by
      rw [← Option.not_isSome_iff_eq_none, w.isSome_byteAt, hin]
      simp
    rw [hnone]
    rfl
  · rfl

/-- In the anchor, it writes the lanes of its mask. -/
theorem State.byte_nearStore_lane {s : State} (hwf : s.mem.wf = true) {w : NearWrite} {j b : Nat} (hj : j < 8) (hb : b < 4)
    (hin : e.inside (e.base + w.off + 4 * j + b) = true) :
    (s.nearStore h u e w).mem.byte (e.base + w.off + 4 * j + b) = if w.mask.getLsbD j
      then BitVec.ofNat 8 ((w.value.lanes[j]).toNat / 256 ^ b) else s.mem.byte (e.base + w.off + 4 * j + b) := by
  have hspan : e.base + w.off + 4 * j + b ∈ span (e.base + w.off) 32 := List.mem_range'_1.2 (by omega)
  rw [State.byte_nearStore hwf, if_pos hspan, NearWrite.byteAt_lane hj hb hin]
  split <;> rfl

/-! ## Loads (R313) -/

/-- A word's code checked leaves what some agent has not seen. -/
theorem State.checkWord_unseen (s : State) (w : Nat) : (s.checkWord w).mem.unseen = s.mem.unseen := by
  unfold State.checkWord
  split
  · rfl
  · dsimp only
    split
    · rw [(State.count_keeps _ _ _).1]
      rfl
    · unfold State.markWord
      split
      · rfl
      · change (State.count _ _ _).mem.unseen = _
        rw [(State.count_keeps _ _ _).1]
        rfl

/-- The codes of a span checked leave every byte as it is and as it is seen. -/
theorem State.checked_bytes (s : State) (pa n : Nat) : (s.checked pa n).mem.cells = s.mem.cells ∧
    ∀ v a, (s.checked pa n).mem.view v a = s.mem.view v a := by
  suffices (s.checked pa n).mem.cells = s.mem.cells ∧ (s.checked pa n).mem.unseen = s.mem.unseen by
    obtain ⟨hcells, hunseen⟩ := this
    refine ⟨hcells, fun v a => ?_⟩
    unfold Memory.view Memory.byte
    rw [hcells, hunseen]
  unfold State.checked
  split
  · exact ⟨rfl, rfl⟩
  · exact ⟨foldl_keeps (fun t : State => t.mem.cells) State.checkWord_cells _ s,
      foldl_keeps (fun t : State => t.mem.unseen) State.checkWord_unseen _ s⟩

/-- A number without its lowest bytes. -/
theorem leNat_drop (l : List Byte) (n : Nat) : leNat (l.drop n) = leNat l / 256 ^ n := by
  induction n generalizing l with
  | zero => simp
  | succ n ih =>
    cases l with
    | nil => simp [leNat]
    | cons b l =>
      have hb : b.toNat < 256 := b.isLt
      rw [List.drop_succ_cons, ih, leNat, Nat.pow_succ', ← Nat.div_div_eq_div_mul]
      congr 1
      omega

/-- Its lowest bytes alone. -/
theorem leNat_take (l : List Byte) (n : Nat) : leNat (l.take n) = leNat l % 256 ^ n := by
  induction n generalizing l with
  | zero => simp [leNat, Nat.mod_one]
  | succ n ih =>
    cases l with
    | nil => simp [leNat]
    | cons b l =>
      have hb : b.toNat < 256 := b.isLt
      rw [List.take_succ_cons, leNat, ih, leNat, Nat.pow_succ', Nat.mod_mul]
      have h1 : (b.toNat + 256 * leNat l) % 256 = b.toNat := by omega
      have h2 : (b.toNat + 256 * leNat l) / 256 = leNat l := by omega
      rw [h1, h2]

/-- A lane is the number of its four bytes. -/
theorem laneOf_leNat (l : List Byte) (j : Nat) : laneOf (leNat l) j = BitVec.ofNat 32 (leNat ((l.drop (4 * j)).take 4)) := by
  rw [leNat_take, leNat_drop, laneOf, Nat.pow_mul, Nat.pow_mul]
  apply BitVec.eq_of_toNat_eq
  simp

/-- A lane of a chunk that lies in the anchor whole is what the near unit sees there. -/
theorem Memory.lane_chunkRead (m : Memory) (v : Viewer) (off : Nat) (j : Fin 8)
    (hin : ∀ b < 4, e.inside (e.base + off + 4 * j.val + b) = true) :
    (m.chunkRead v e off).lanes[j.val] = BitVec.ofNat 32 (m.viewNat v (e.base + off + 4 * j.val) 4) := by
  unfold Memory.chunkRead
  simp only [Vector.getElem_ofFn, laneOf_leNat, Memory.viewNat, Memory.viewBytes, span]
  have htake : ((List.range' (e.base + off) 32).drop (4 * j.val)).take 4 = List.range' (e.base + off + 4 * j.val) 4 := by
    have hj := j.isLt
    exact List.ext_getElem (by simp; omega) fun i _ _ => by simp
  rw [← List.map_drop, ← List.map_take, htake]
  congr 2
  refine List.map_congr_left fun a ha => ?_
  obtain ⟨b, hb, rfl⟩ : ∃ b < 4, a = e.base + off + 4 * j.val + b := by simpa [List.mem_range'] using ha
  rw [if_pos (hin b hb)]

/-- The first chunk of a load FIFO that has not arrived. -/
theorem findIdx?_not_arrived {before after : List Chunk} {c : Chunk} (hbefore : ∀ b ∈ before, b.arrived ≠ none)
    (hc : c.arrived = none) : (before ++ c :: after).findIdx? (fun c => c.arrived.isNone) = some before.length := by
  have hnone : before.findIdx? (fun c => c.arrived.isNone) = none := by
    rw [List.findIdx?_eq_none_iff]
    intro b hb
    simpa [Option.isSome_iff_ne_none] using hbefore b hb
  simp [List.findIdx?_append, hnone, List.findIdx?_cons, hc]

/-- A list changed at one place. -/
theorem map_zipIdx_at {α : Type} (f : α → α) (before after : List α) (c : α) :
    ((before ++ c :: after).zipIdx.map fun x => if x.2 = before.length then f x.1 else x.1) = before ++ f c :: after := by
  refine List.ext_getElem (by simp) fun i hi _ => ?_
  simp only [List.getElem_map, List.getElem_zipIdx, Nat.zero_add]
  rcases Nat.lt_trichotomy i before.length with hlt | rfl | hgt
  · rw [if_neg hlt.ne, List.getElem_append_left hlt, List.getElem_append_left hlt]
  · simp
  · rw [if_neg hgt.ne', List.getElem_append_right hgt.le, List.getElem_append_right hgt.le, List.getElem_cons, List.getElem_cons]
    simp [show i - before.length ≠ 0 by omega]

/-! ## Drains (R315) -/

/-- A unit whose write queue is empty is as if it had been emptied. -/
theorem NearUnit.writes_nil {x : NearUnit} (h : x.writes = []) : { x with writes := [] } = x := by
  rw [← h]

/-- A drain empties the unit's write queue and leaves the rest of its home. -/
theorem State.home_nearDrain (s : State) (h u : Nat) (e : Entry) :
    (s.nearDrain h u e).home h = (s.setNear h u { s.near h u with writes := [] }).home h :=
  foldl_keeps (fun t : State => t.home h) (fun t w => State.home_congr (consulted_nearStore t h u e w).homes h) _ _

/-- The unit after a drain. -/
theorem State.near_nearDrain (s : State) (h u : Nat) (e : Entry) : (s.nearDrain h u e).near h u = { s.near h u with writes := [] } := by
  rw [State.near, State.home_nearDrain]
  exact State.near_setNear_same _ _ _ _

/-- With nothing to drain, memory stays. -/
theorem State.mem_nearDrain (e : Entry) {s : State} (hw : (s.near h u).writes = []) : (s.nearDrain h u e).mem = s.mem := by
  unfold State.nearDrain
  dsimp only
  rw [hw]
  rfl

/-! ## The end of a task (R72, R314, R319) -/

/-- In state t the unit is free, with the images that it had, and its task has left its queue. -/
structure NearEnded (s t : State) (h u qi : Nat) (e : Entry) : Prop where
  mode : (t.near h u).mode = .idle
  writes : (t.near h u).writes = []
  fifo : (t.near h u).fifo = []
  cache : (t.near h u).cache = (s.near h u).cache
  gone : ∀ y ∈ ((t.home h).queue qi).entries, y.seq ≠ e.seq

/-- A task that ends leaves its unit free and its queue without it. -/
theorem nearEnded_nearEnd (hq : qi < 8) (s : State) (u : Nat) (e : Entry) (end_ : End) :
    NearEnded s (s.nearEnd h u qi e end_) h u qi e := by
  have hend : s.nearEnd h u qi e end_ = ((s.nearDrain h u e).setNear h u ((s.nearDrain h u e).near h u).free).retireTask
    ⟨h, qi, e.seq⟩ end_ ((s.nearDrain h u e).nearIds h u e) := rfl
  have hfree := (s.nearDrain h u e).near_setNear_same h u ((s.nearDrain h u e).near h u).free
  obtain ⟨hunits, hgone⟩ := State.retireTask_leaves (h := h) (seq := e.seq) hq
    ((s.nearDrain h u e).setNear h u ((s.nearDrain h u e).near h u).free) end_ ((s.nearDrain h u e).nearIds h u e)
  rw [← hend] at hunits hgone
  have hnear : (s.nearEnd h u qi e end_).near h u = (s.near h u).free := by
    rw [State.near] at hfree ⊢
    rw [hunits, hfree, State.near_nearDrain]
    rfl
  refine ⟨by rw [hnear]; rfl, by rw [hnear]; rfl, by rw [hnear]; rfl, by rw [hnear]; rfl, fun y hy hseq => hgone ?_⟩
  exact List.mem_map.2 ⟨y, hy, hseq⟩

/-- So does one that ends faulted. -/
theorem nearEnded_nearFaultOf (hq : qi < 8) (s : State) (u : Nat) (e : Entry) (detail slot index : Nat) :
    NearEnded s (s.nearFaultOf h u qi e detail slot index) h u qi e := by
  obtain ⟨hmode, hwrites, hfifo, hcache, hgone⟩ := nearEnded_nearEnd (h := h) hq ((s.nearDrain h u e).faultMessage e.ctx e.core
    (nearFaultWords h qi e detail slot index (s.nearDrain h u e).time) ((s.nearDrain h u e).nearIds h u e) (some (.nearUnit h u)))
    u e .faulted
  rw [State.near_of_tasks (State.tasks_faultMessage _ _ _ _ _ _ h), State.near_nearDrain] at hcache
  exact ⟨hmode, hwrites, hfifo, hcache, hgone⟩

end Sys2Proof.Machine
end

section
/-! SUPPORT. The steps of a near unit: the header read, the arrival of a chunk, a store performed, the retirement and the taking of a
head (R66, R313 to R317, R319). -/
namespace Sys2Proof.Machine

variable {s : State} {h u qi seq : Nat} {e : Entry}

/-! ## The header and the image (R317) -/

/-- A translation leaves the homes. -/
theorem State.homes_engineTo (s : State) (v : Viewer) (vf asid va : Nat) (r : List Access) :
    (s.engineTo v vf asid va r).2.homes = s.homes := by
  have hwalk := (sensed_walkTo s v vf asid va r).homes
  have hfill : ∀ (t : State) (w : Viewer) (l : Leaf), (t.fillTlb w asid l).homes = t.homes := by
    intro t w l
    unfold State.fillTlb
    split
    · rfl
    · split <;> rfl
  unfold State.engineTo
  split
  · rfl
  · split
    · rfl
    · split
      · next heq =>
        rw [heq] at hwalk
        exact hwalk
      · next heq =>
        rw [heq] at hwalk
        exact (hfill _ _ _).trans hwalk

/-- So do the bytes of an image read. -/
theorem State.homes_imageBytes (v : Viewer) (vf asid fuel va n : Nat) (s : State) :
    (State.imageBytes v vf asid fuel va n s).2.homes = s.homes := by
  induction fuel generalizing va n s with
  | zero => rfl
  | succ fuel ih =>
    have htrans := s.homes_engineTo v vf asid va [.read]
    unfold State.imageBytes
    split
    · rfl
    · split
      · next heq =>
        rw [heq] at htrans
        exact htrans
      · next p t heq =>
        rw [heq] at htrans
        have hchecked := (sensed_checked t p.pa (min n (65536 - va % 65536))).homes.trans htrans
        have hrest := (ih (va + min n (65536 - va % 65536)) (n - min n (65536 - va % 65536))
          (t.checked p.pa (min n (65536 - va % 65536)))).trans hchecked
        dsimp only
        split
        · exact hchecked
        · split
          · next heq2 =>
            rw [heq2] at hrest
            exact hrest
          · exact hrest

/-- And the read of the image of a task. -/
theorem State.homes_nearImage (s : State) (h u : Nat) (e : Entry) : (s.nearImage h u e).2.homes = s.homes := by
  unfold State.nearImage
  split
  · rfl
  · next l _ =>
    have hhead := s.homes_imageBytes (.nearUnit h u) l.vf l.asid 2 e.desc.nearpc 16
    dsimp only
    split
    · next heq =>
      rw [heq] at hhead
      split
      · split
        · exact hhead
        · split
          · next heq2 => exact (congrArg (fun r => r.2.homes) heq2.symm).trans ((State.homes_imageBytes _ _ _ _ _ _ _).trans hhead)
          · next heq2 => exact (congrArg (fun r => r.2.homes) heq2.symm).trans ((State.homes_imageBytes _ _ _ _ _ _ _).trans hhead)
      · exact hhead
    · next heq _ =>
      rw [heq] at hhead
      exact hhead

/-- A header read that fails ends the task faulted. -/
theorem exec_headerRead_failed (hm : (s.near h u).mode = .header qi seq) (he : s.entryAt h qi seq = some e)
    (hi : (s.nearImage h u e).1 = none) : exec (.nearHeaderReadComplete h u) s =
      .next ((s.nearImage h u e).2.nearFaultOf h u qi e 10 0 0) := by
  change execNearHeaderReadComplete h u s = _
  unfold execNearHeaderReadComplete
  rw [hm]
  dsimp only
  rw [he]
  dsimp only
  split
  · next heq => rw [heq]
  · next heq =>
    rw [heq] at hi
    cases hi

/-- One that succeeds begins the body on the unit. -/
theorem exec_headerRead_begins {i : Image} (hm : (s.near h u).mode = .header qi seq) (he : s.entryAt h qi seq = some e)
    (hi : (s.nearImage h u e).1 = some i) : ∃ t, exec (.nearHeaderReadComplete h u) s = .next t ∧
      t.near h u = (s.near h u).begin qi seq i := by
  have hnear : (s.nearImage h u e).2.near h u = s.near h u :=
    State.near_of_tasks (congrArg Home.tasks (State.home_congr (s.homes_nearImage h u e) h))
  change ∃ t, execNearHeaderReadComplete h u s = .next t ∧ _
  unfold execNearHeaderReadComplete
  rw [hm]
  dsimp only
  rw [he]
  dsimp only
  split
  · next heq =>
    rw [heq] at hi
    cases hi
  · next heq =>
    rw [heq] at hi hnear
    obtain rfl := Option.some.inj hi
    exact ⟨_, rfl, (State.near_setNear_same _ _ _ _).trans (congrArg (fun x => NearUnit.begin x qi seq _) hnear)⟩

/-! ## A running task -/

/-- The task of a unit that runs. -/
theorem State.nearTask_of_running (hm : (s.near h u).mode = .running qi seq) (he : s.entryAt h qi seq = some e) :
    s.nearTask h u = some (qi, e) := by
  unfold State.nearTask
  rw [hm]
  simp [he]

/-- A word of a reserved form faults the task whose turn it is (R307, R319). -/
theorem exec_nearReservedForm (detail : Nat) (hcur : s.nearCur = some (h, u)) (ht : s.nearTask h u = some (qi, e))
    (hc : (s.near h u).count < nearMost) : exec (.nearReservedForm detail) s =
      .next (s.nearFaultOf h u qi e detail 0 (s.near h u).index) := by
  change execNearReservedForm detail s = _
  unfold execNearReservedForm State.nearReserved
  rw [hcur]
  dsimp only
  rw [ht]
  dsimp only
  rw [if_neg (Nat.not_le.2 hc)]

/-- The limit of instructions faults the task that reaches it (R319). -/
theorem exec_nearInstructionLimit (ht : s.nearTask h u = some (qi, e)) (hc : nearMost ≤ (s.near h u).count) :
    exec (.nearInstructionLimit h u) s = .next (s.nearFaultOf h u qi e 9 0 (s.near h u).index) := by
  change execNearInstructionLimit h u s = _
  unfold execNearInstructionLimit State.nearLimit
  rw [if_pos hc, ht]

/-- The oldest chunk on its way arrives (R313). -/
theorem exec_nearChunkArrival {before after : List Chunk} {c : Chunk} (ht : s.nearTask h u = some (qi, e))
    (hw : (s.near h u).writes = []) (hfifo : (s.near h u).fifo = before ++ c :: after)
    (hbefore : ∀ b ∈ before, b.arrived ≠ none) (hc : c.arrived = none) : ∃ t v, exec (.nearChunkArrival h u) s = .next t ∧
      t.mem.cells = s.mem.cells ∧
      t.near h u = { s.near h u with fifo := before ++ { c with arrived := some v } :: after } ∧
      ∀ j : Fin 8, (∀ b < 4, e.inside (e.base + c.off + 4 * j.val + b) = true) →
        v.lanes[j.val] = BitVec.ofNat 32 (s.mem.viewNat (.nearUnit h u) (e.base + c.off + 4 * j.val) 4) := by
  have hnear : (s.nearDrain h u e).near h u = s.near h u := (s.near_nearDrain h u e).trans (NearUnit.writes_nil hw)
  have hoff : ((((before ++ c :: after)[before.length]?).map (·.off)).getD 0) = c.off := by simp
  obtain ⟨hcells, hview⟩ := (s.nearDrain h u e).checked_bytes (e.base + c.off) 32
  rw [State.mem_nearDrain e hw] at hcells hview
  generalize hchecked : (s.nearDrain h u e).checked (e.base + c.off) 32 = t at hcells hview
  refine ⟨t.setNear h u { s.near h u with
      fifo := before ++ { c with arrived := some (t.mem.chunkRead (.nearUnit h u) e c.off) } :: after },
    t.mem.chunkRead (.nearUnit h u) e c.off, ?_, hcells, State.near_setNear_same _ _ _ _, fun j hin => ?_⟩
  · change execNearChunkArrival h u s = _
    unfold execNearChunkArrival
    rw [ht]
    dsimp only
    rw [hnear, hfifo, findIdx?_not_arrived hbefore hc]
    dsimp only
    rw [hoff, hchecked, map_zipIdx_at fun d : Chunk => { d with arrived := some (t.mem.chunkRead (.nearUnit h u) e d.off) }]
  · rw [Memory.lane_chunkRead _ _ _ _ hin]
    have hsame : t.mem.view (.nearUnit h u) = s.mem.view (.nearUnit h u) := funext (hview _)
    unfold Memory.viewNat Memory.viewBytes
    rw [hsame]

/-- The oldest store of a running task is performed (R315). -/
theorem exec_nearWriteQueueDrain {w : NearWrite} {rest : List NearWrite} (hm : (s.near h u).mode = .running qi seq)
    (he : s.entryAt h qi seq = some e) (hw : (s.near h u).writes = w :: rest) : exec (.nearWriteQueueDrain h u) s =
      .next ((s.setNear h u { s.near h u with writes := rest }).nearStore h u e w) := by
  have howner : s.nearOwner h u = some (qi, e) := by
    unfold State.nearOwner
    rw [hm]
    simp [he]
  change execNearWriteQueueDrain h u s = _
  unfold execNearWriteQueueDrain
  rw [howner, hw]

/-- A store performed leaves the unit as it is. -/
theorem State.near_nearStore (s : State) (h u : Nat) (e : Entry) (w : NearWrite) : (s.nearStore h u e w).near h u = s.near h u :=
  State.near_of_tasks (congrArg Home.tasks (State.home_congr (consulted_nearStore s h u e w).homes h))

/-! ## Retirement and taking (R66, R314) -/

/-- A task whose stores have all been performed retires. -/
theorem exec_nearTaskRetirement (hm : (s.near h u).mode = .retiring qi seq) (he : s.entryAt h qi seq = some e)
    (hw : (s.near h u).writes = []) : exec (.nearTaskRetirement h u) s = .next (s.nearEnd h u qi e .done) := by
  change execNearTaskRetirement h u s = _
  unfold execNearTaskRetirement
  rw [hm]
  dsimp only
  rw [hw, he]
  rfl

/-- The first takeable head in the order of the queues is that of the first queue which has one. -/
theorem Home.first_takeable {x : Home} (hq : qi < 8) (ht : x.takeable qi = some e)
    (hfirst : ∀ j < 8, j < (qi + 7 - x.ptr % 8) % 8 → x.takeable ((x.ptr + 1 + j) % 8) = none) :
    (x.ring.findSome? fun i => (x.takeable i).map fun e => (i, e)) = some (qi, e) := by
  generalize hj : (qi + 7 - x.ptr % 8) % 8 = j at hfirst
  obtain ⟨m, hm⟩ : ∃ m, 8 = j + (m + 1) := ⟨7 - j, by omega⟩
  obtain ⟨l, hrange⟩ : ∃ l, List.range 8 = List.range j ++ j :: l := ⟨_, by rw [hm, List.range_add, List.range_succ_eq_map]; rfl⟩
  have hat : (x.ptr + 1 + j) % 8 = qi := by omega
  have hbefore : ∀ i ∈ List.range j, (x.takeable ((x.ptr + 1 + i) % 8)).map (fun e => ((x.ptr + 1 + i) % 8, e)) = none := by
    intro i hi
    have hi := List.mem_range.1 hi
    rw [hfirst i (by omega) hi]
    rfl
  unfold Home.ring
  rw [hrange, List.findSome?_map, List.findSome?_append]
  refine (congrArg (Option.or · _) (List.findSome?_eq_none_iff.2 hbefore)).trans ?_
  simp only [Option.none_or, List.findSome?_cons, Function.comp, hat, ht, Option.map_some]

/-- The queues do not depend on the pointer. -/
theorem Home.queue_ptr (x : Home) (i qi : Nat) : ({ x with ptr := i } : Home).queue qi = x.queue qi := rfl

/-- A free unit takes it. -/
theorem exec_nearTake (hidle : (s.near h u).mode = .idle) (htakes : s.takesNear h = true)
    (hfirst : ((s.home h).ring.findSome? fun i => ((s.home h).takeable i).map fun e => (i, e)) = some (qi, e)) :
    exec (.nearTake h u) s = .next ((s.setHome h { (s.home h).modQueue qi (fun q =>
      q.modEntry e.seq fun w => { w with headerRead := true }) with ptr := qi }).setNear h u
        { s.near h u with mode := .header qi e.seq }) := by
  change execNearTake h u s = _
  unfold execNearTake
  dsimp only
  rw [if_pos ⟨hidle, htakes⟩, hfirst]

/-- The entries of a number after a change of that number. -/
theorem Queue.mem_modEntry {q : Queue} {f : Entry → Entry} {y : Entry} (hy : y ∈ (q.modEntry seq f).entries)
    (hseq : y.seq = seq) : ∃ z, y = f z := by
  obtain ⟨z, -, rfl⟩ := List.mem_map.1 hy
  split at hseq
  · next hz => exact ⟨z, if_pos hz⟩
  · next hz => exact absurd hseq hz

end Sys2Proof.Machine
end

section
namespace Sys2Proof.Settled
open Machine

/-- Settles O44: each step by its equation; that a task's end frees its unit and takes it from its queue is `nearEnded_nearEnd`, and what a
store does to each byte is `State.byte_nearStore`. -/
theorem nearSteps : Obligations.NearSteps := by
  unfold Obligations.NearSteps
  intro s h u qi seq e hq he x done
  have hdone : ∀ {r t : State}, r.near h u = x → NearEnded r t h u qi e → done t := fun hr ht =>
    ⟨ht.mode, ht.writes, ht.fifo, ht.cache.trans (congrArg NearUnit.cache hr), ht.gone⟩
  refine ⟨fun detail slot index => hdone rfl (nearEnded_nearFaultOf hq s u e detail slot index), fun hm => ?_,
    fun hm hw => ⟨_, exec_nearTaskRetirement hm he hw, hdone rfl (nearEnded_nearEnd hq s u e .done)⟩, fun hm => ?_, ?_⟩
  · have ht := State.nearTask_of_running hm he
    refine ⟨fun detail hcur hc => exec_nearReservedForm detail hcur ht hc, fun hc => exec_nearInstructionLimit ht hc,
      fun before c after hw hfifo hbefore hc => exec_nearChunkArrival ht hw hfifo hbefore hc, fun w rest hw hwf => ?_⟩
    have hform : (s.setNear h u { x with writes := rest }).mem.wf = true := hwf
    exact ⟨_, exec_nearWriteQueueDrain hm he hw, (State.near_nearStore _ _ _ _ _).trans (State.near_setNear_same _ _ _ _),
      (consulted_nearStore _ _ _ _ _).form hform, fun a ha => State.byte_nearStore_out hform ha,
      fun j b hb hin => State.byte_nearStore_lane hform j.isLt hb hin⟩
  · have hheader : (s.nearImage h u e).2.near h u = x :=
      State.near_of_tasks (congrArg Home.tasks (State.home_congr (s.homes_nearImage h u e) h))
    cases hi : (s.nearImage h u e).1 with
    | none => exact ⟨_, exec_headerRead_failed hm he hi, fun _ => hdone hheader (nearEnded_nearFaultOf hq _ u e 10 0 0), nofun⟩
    | some i =>
      obtain ⟨t, ht, hbegin⟩ := exec_headerRead_begins hm he hi
      refine ⟨t, ht, nofun, ?_⟩
      rintro _ ⟨⟩
      rw [hbegin]
      exact ⟨rfl, rfl, rfl, rfl, rfl, by simp [NearUnit.begin, cacheImage], by simp [NearUnit.begin, cacheImage]⟩
  · intro hidle htakes htake hfirst
    refine ⟨_, exec_nearTake hidle htakes (Home.first_takeable hq htake hfirst), ?_, ?_, rfl, fun y hy hseq => ?_⟩
    · rw [State.near_setNear_same]
    · rw [State.ptr_setNear, State.home_setHome_same]
    · rw [State.queue_setNear, State.home_setHome_same] at hy
      rw [Home.queue_ptr, Home.queue_modQueue _ _ hq] at hy
      obtain ⟨z, rfl⟩ := Queue.mem_modEntry hy hseq
      rfl

end Sys2Proof.Settled
end

section
/-! SUPPORT. What a two-operand integer instruction makes of poison and of ephemerides (R88, R97, R98). -/
namespace Sys2Proof.Machine

/-! ## Operands of the g file -/

section
variable {i : Instr} {s : State} {w carry : Bool} {d a b : GReg} {x y z : Reg} {xf : Option Xform} {f : Word → Word → Word}

/-- A poisoned first operand decides the result. -/
theorem State.integer_pois_left (hx : x.tag = .pois) : s.integer w d x y xf carry f = s.writeG d ⟨.pois, 0, x.info⟩ := by
  simp [State.integer, firstPois, hx, Reg.poisonOf]

/-- So does a poisoned second one after a clean first one. -/
theorem State.integer_pois_right (hx : x.tag ≠ .pois) (hy : y.tag = .pois) :
    s.integer w d x y xf carry f = s.writeG d ⟨.pois, 0, y.info⟩ := by
  simp [State.integer, firstPois, hx, hy, Reg.poisonOf]

/-- An ephemeris among clean operands: the transform where there is one, else the wait. -/
theorem State.integer_eph (hx : x.tag ≠ .pois) (hy : y.tag ≠ .pois) (he : x.tag = .eph ∨ y.tag = .eph) :
    s.integer w d x y xf carry f = ((xf.bind fun t => transform t w x y).map (s.writeG d)).getD (.wait .operand s) := by
  have hlate : (x.tag == .eph || y.tag == .eph) = true := by simpa using he
  simp only [State.integer, firstPois, List.find?_cons, hx, hy, beq_eq_false_iff_ne.2, ne_eq, not_false_eq_true, hlate, if_true,
    List.find?_nil]
  cases xf.bind fun t => transform t w x y <;> rfl

/-- A two-operand instruction that ends with d written. -/
theorem writesG_of_int3 (hi : s.issues (rrr d a b)) (h : exec i s = s.int3 w 0 d a b xf carry f)
    (hb : s.integer w d (s.me.readG a) (s.me.readG b) xf carry f = s.writeG d z) : WritesG i s d z :=
  writesG_of_issues hi rfl h hb

/-- One that waits for an operand. -/
theorem stalls_of_int3 (hi : s.issues (rrr d a b)) (h : exec i s = s.int3 w 0 d a b xf carry f)
    (hb : s.integer w d (s.me.readG a) (s.me.readG b) xf carry f = .wait .operand s) : Stalls i s .operand :=
  stalls_of_issues hi rfl h hb

end

/-- Every row of R125 is a two-operand integer instruction, and but for ADD and SUB it has no transform. -/
theorem exec_regRegRow {p : (Bool → GReg → GReg → GReg → Instr) × (∀ n : Nat, BitVec n → BitVec n → BitVec n)} (hp : p ∈ regRegRows)
    (s : State) (w : Bool) (d a b : GReg) : ∃ xf carry f, exec (p.1 w d a b) s = s.int3 w 0 d a b xf carry f ∧
      (p.1 w d a b ≠ .add w d a b → p.1 w d a b ≠ .sub w d a b → xf = none) := by
  simp only [regRegRows, List.mem_cons, List.not_mem_nil, or_false] at hp
  rcases hp with rfl | rfl | rfl | rfl | rfl | rfl | rfl | rfl | rfl | rfl | rfl | rfl | rfl | rfl | rfl | rfl
  · exact ⟨_, _, _, rfl, fun h _ => absurd rfl h⟩
  · exact ⟨_, _, _, rfl, fun _ h => absurd rfl h⟩
  all_goals exact ⟨_, _, _, rfl, fun _ _ => rfl⟩

/-! ## The fields of an ephemeris (R95) -/

/-- The metadata of an ephemeris as a number. -/
theorem Reg.toNat_info_eph (kind : EphKind) (sym : Fin 32) (scale : Nat) (off : Word) :
    (Reg.eph kind sym scale off).info.toNat = kind.code * 2 ^ 62 + sym.val * 2 ^ 51 + scale % 2 ^ 48 := by
  have hcode : kind.code ≤ 2 := by cases kind <;> decide
  have hsym : sym.val < 32 := sym.isLt
  have hscale : scale % 2 ^ 48 < 2 ^ 48 := Nat.mod_lt _ (by decide)
  simp only [Reg.eph, BitVec.toNat_ofNat]
  omega

/-- The symbol that an ephemeris names. -/
@[simp] theorem symOf_eph (kind : EphKind) (sym : Fin 32) (scale : Nat) (off : Word) : symOf (Reg.eph kind sym scale off) = sym := by
  have hsym : sym.val < 32 := sym.isLt
  have hscale : scale % 2 ^ 48 < 2 ^ 48 := Nat.mod_lt _ (by decide)
  apply Fin.ext
  simp only [symOf, Reg.toNat_info_eph, Fin.val_ofNat]
  omega

/-- The kind of an ephemeris. -/
@[simp] theorem kindOf_eph (kind : EphKind) (sym : Fin 32) (scale : Nat) (off : Word) : kindOf (Reg.eph kind sym scale off) = kind := by
  have hsym : sym.val < 32 := sym.isLt
  have hscale : scale % 2 ^ 48 < 2 ^ 48 := Nat.mod_lt _ (by decide)
  have hkind : (Reg.eph kind sym scale off).info.toNat / 2 ^ 62 = kind.code := by
    rw [Reg.toNat_info_eph]
    omega
  unfold kindOf
  rw [hkind]
  cases kind <;> rfl

/-- The scale field of an ephemeris. -/
@[simp] theorem scaleOf_eph (kind : EphKind) (sym : Fin 32) (scale : Nat) (off : Word) :
    scaleOf (Reg.eph kind sym scale off) = scale % 2 ^ 48 := by
  simp only [scaleOf, Reg.toNat_info_eph]
  omega

/-- A field of 48 bits read as a signed number. -/
theorem sextNat_toNat (sc : BitVec 48) : sextNat 48 sc.toNat = sc.toInt := by
  have hlt : sc.toNat < 2 ^ 48 := sc.isLt
  rw [BitVec.toInt_eq_toNat_cond]
  simp only [sextNat]
  split <;> split <;> omega

/-- The scale of an integer ephemeris. -/
@[simp] theorem iscale_eph (kind : EphKind) (sym : Fin 32) (sc : BitVec 48) (off : Word) :
    iscale (Reg.eph kind sym sc.toNat off) = sc.toInt := by
  rw [iscale, scaleOf_eph, Nat.mod_eq_of_lt sc.isLt, sextNat_toNat]

/-! ## Transforms (R97) -/

/-- A transform whose scale is in its range and not 0 gives an ephemeris. -/
theorem ephOf_inRange (kind : EphKind) (sym : Fin 32) {sc off : Int} (h0 : sc ≠ 0) (hlo : -(2 ^ 47) ≤ sc) (hhi : sc < 2 ^ 47) :
    ephOf kind sym sc off = some (Reg.eph kind sym (BitVec.ofInt 48 sc).toNat (BitVec.ofInt 64 off)) := by
  have hrange : ¬ (sc < -(2 ^ 47) ∨ 2 ^ 47 ≤ sc) := by omega
  have hbits : bitsOf 48 sc = (BitVec.ofInt 48 sc).toNat := by
    rw [BitVec.toNat_ofInt]
    rfl
  rw [ephOf, if_neg hrange, if_neg h0, hbits]

/-- The scale that an ephemeris has stays in range. -/
theorem ephOf_toInt (kind : EphKind) (sym : Fin 32) {sc : BitVec 48} {off : Int} (h0 : sc ≠ 0) :
    ephOf kind sym sc.toInt off = some (Reg.eph kind sym sc.toNat (BitVec.ofInt 64 off)) := by
  have hne : sc.toInt ≠ 0 := fun h => h0 (BitVec.eq_of_toInt_eq (h.trans BitVec.toInt_zero.symm))
  rw [ephOf_inRange kind sym hne (BitVec.le_toInt sc) BitVec.toInt_lt, BitVec.ofInt_toInt]

section
variable {sym : Fin 32} {sc sc2 : BitVec 48} {off y : Word}

/-- A 64-bit ephemeris and a number are the operands of a transform of the first. -/
theorem transform_number (xf : Xform) : transform xf false (Reg.eph .i64 sym sc.toNat off) (Reg.data y) =
    match xf with
    | .add => ephOf .i64 sym sc.toInt (off.toInt + y.toInt)
    | .sub => ephOf .i64 sym sc.toInt (off.toInt - y.toInt)
    | .mul => ephOf .i64 sym (sc.toInt * y.toInt) (off.toInt * y.toInt)
    | .sll => ephOf .i64 sym (sc.toInt * 2 ^ y.toNat) (off.toInt * 2 ^ y.toNat) := by
  unfold transform
  simp only [kindOf_eph, symOf_eph, iscale_eph]
  simp only [Reg.eph, Reg.data, arg]
  cases xf <;> rfl

/-- Two 64-bit ephemerides over one symbol. -/
theorem transform_add_eph : transform .add false (Reg.eph .i64 sym sc.toNat off) (Reg.eph .i64 sym sc2.toNat y) =
    ephOf .i64 sym (sc.toInt + sc2.toInt) (off.toInt + y.toInt) := by
  unfold transform
  simp only [kindOf_eph, symOf_eph, iscale_eph]
  simp [Reg.eph]

variable {i : Instr} {s : State} {d a b : GReg} {xf : Xform} {carry : Bool} {f : Word → Word → Word} {r : Reg}

/-- An instruction of a 64-bit ephemeris and a clean operand whose transform has a result writes that. -/
theorem writesG_of_transform (hi : s.issues (rrr d a b)) (h : exec i s = s.int3 false 0 d a b (some xf) carry f)
    (ha : s.me.readG a = Reg.eph .i64 sym sc.toNat off) (hb : (s.me.readG b).tag ≠ .pois)
    (hr : transform xf false (Reg.eph .i64 sym sc.toNat off) (s.me.readG b) = some r) : WritesG i s d r := by
  have hx : (s.me.readG a).tag = .eph := by rw [ha]; rfl
  refine writesG_of_int3 hi h ?_
  rw [State.integer_eph (by simp [hx]) hb (.inl hx), ha, Option.bind_some, hr]
  rfl

end

end Sys2Proof.Machine
end

section
namespace Sys2Proof.Settled
open Machine

/-- Settles O4: every row is a two-operand integer instruction, which looks for poison first, then for an ephemeris; no row but ADD and
SUB has a transform. -/
theorem poisonAndWaiting : Obligations.PoisonAndWaiting := by
  unfold Obligations.PoisonAndWaiting
  intro p hp s w d a b hi
  obtain ⟨xf, carry, f, hexec, hxf⟩ := exec_regRegRow hp s w d a b
  refine ⟨fun ha => ?_, fun ha hb => ?_, fun ha hb he hadd hsub => ?_⟩
  · exact writesG_of_int3 hi hexec (State.integer_pois_left ha)
  · exact writesG_of_int3 hi hexec (State.integer_pois_right ha hb)
  · refine stalls_of_int3 hi hexec ?_
    rw [State.integer_eph ha hb he, hxf hadd hsub]
    rfl

/-- Settles O5: the transform of each pair of operands has a result, with its scale in range, and the instruction writes that. -/
theorem ephemerisTransforms : Obligations.EphemerisTransforms := by
  unfold Obligations.EphemerisTransforms
  intro s d a b sym sc off y hi ha hsc
  refine ⟨fun hb => ?_, fun sc2 hb h0 hlo hhi => ?_⟩
  · have hclean : (s.me.readG b).tag ≠ .pois := by rw [hb]; nofun
    refine ⟨writesG_of_transform hi rfl ha hclean ?_, writesG_of_transform hi rfl ha hclean ?_, fun h0 hlo hhi =>
      writesG_of_transform hi rfl ha hclean ?_⟩ <;> rw [hb, transform_number]
    · simp [ephOf_toInt .i64 sym hsc, BitVec.ofInt_add]
    · simp [ephOf_toInt .i64 sym hsc, Int.sub_eq_add_neg, BitVec.sub_eq_add_neg, BitVec.ofInt_add, BitVec.ofInt_neg]
    · simp [ephOf_inRange .i64 sym h0 hlo hhi, BitVec.ofInt_mul]
  · have hclean : (s.me.readG b).tag ≠ .pois := by rw [hb]; nofun
    refine writesG_of_transform hi rfl ha hclean ?_
    rw [hb, transform_add_eph]
    simp [ephOf_inRange .i64 sym h0 hlo hhi, BitVec.ofInt_add]

/-- Settles O60: nothing is listed after reset, so that every core, byte and balance reads its reset value. -/
theorem resetState : Obligations.ResetState := by
  unfold Obligations.ResetState
  have hcore : ∀ k, State.reset.core k = Core.reset k := fun _ => rfl
  refine ⟨Memory.reset_wf, fun _ => rfl, rfl, fun k => ?_, rfl, fun _ => rfl⟩
  rw [hcore]
  exact ⟨rfl, rfl, rfl, rfl, rfl, rfl, rfl, rfl, rfl, rfl, rfl, rfl, rfl, fun _ => Vector.getElem_replicate _⟩

end Sys2Proof.Settled
end

section
/-! SUPPORT. What the system registers read, and what writing them changes (R101, R102, R150). -/
namespace Sys2Proof.Machine

/-! ## INBSTAT counts slots (R102) -/

/-- The slots of a core, by their numbers. -/
theorem Core.slots_toList (c : Core) : c.slots.toList = (List.finRange 32).map fun i => c.slots[i.val] :=
  List.ext_getElem (by simp) (by simp)

/-- The free unreserved slots are those of numbers below 28. -/
theorem Core.freeU_eq (c : Core) :
    c.freeU = ((List.finRange 32).filter fun i => decide (i.val < 28) && c.slots[i.val] == .free).length := by
  have htake : (List.finRange 32).take 28 = (List.finRange 32).filter fun i => decide (i.val < 28) := by decide
  rw [Core.freeU, c.slots_toList, ← List.map_take, htake, List.filter_map, List.length_map, List.filter_filter]
  simp only [Function.comp_def, Bool.and_comm]

/-- The free reserved slots are those of numbers from 28 on. -/
theorem Core.freeR_eq (c : Core) :
    c.freeR = ((List.finRange 32).filter fun i => decide (28 ≤ i.val) && c.slots[i.val] == .free).length := by
  have hdrop : (List.finRange 32).drop 28 = (List.finRange 32).filter fun i => decide (28 ≤ i.val) := by decide
  rw [Core.freeR, c.slots_toList, ← List.map_drop, hdrop, List.filter_map, List.length_map, List.filter_filter]
  simp only [Function.comp_def, Bool.and_comm]

/-- INBSTAT of the core whose turn it is, once the device is up. -/
theorem State.inbstat_row {s : State} (h : s.sc.boot ≠ .booting) : s.me.inbstat = sysRow s .inbstat := by
  simp only [sysRow, if_neg h, Core.inbstat, Core.freeU_eq, Core.freeR_eq, Core.waiting]
  cases hp : s.me.pinned with
  | none => simp [Core.pinClass, Core.pinnedMsg, hp]
  | some i =>
    simp only [Core.pinClass, Core.pinnedMsg, hp, Option.bind_some, Nat.add_assoc]
    cases s.me.slots[i.val] <;> rfl

/-- SRR reads what R101 and R102 give. -/
theorem State.sysValue_eq (s : State) (r : SysReg) : s.sysValue s.cur r = sysRow s r := by
  cases r with
  | inbstat =>
    by_cases h : s.sc.boot = .booting
    · simp [State.sysValue, sysRow, h]
    · rw [State.sysValue, if_neg h]
      exact State.inbstat_row h
  | extset => simp [State.sysValue, sysRow, boolWord, isExt]
  | _ => rfl

/-! ## Writing -/

/-- A read-only register stays as it is, and all else with it. -/
theorem Core.setSys_readOnly {r : SysReg} (h : r ∉ [SysReg.mwgt, .dseed, .dkeep]) (c : Core) (x : Word) : c.setSys x r = c := by
  cases r with
  | mwgt | dseed | dkeep => simp at h
  | _ => rfl

/-- No register but MWGT, DSEED and DKEEP is written. -/
theorem Core.setSys_rest (c : Core) (x : Word) (r : SysReg) : { c.setSys x r with
    mwgt := c.mwgt
    dseed := c.dseed
    dkeep := c.dkeep } = c := by
  cases r <;> rfl

/-- MWGT after a write. -/
theorem Core.setSys_mwgt (c : Core) (x : Word) (r : SysReg) :
    (c.setSys x r).mwgt = if r = .mwgt then (if x.truncate 4 = (0 : BitVec 4) then 1 else x.truncate 4) else c.mwgt := by
  cases r <;> rfl

/-- DSEED after a write. -/
theorem Core.setSys_dseed (c : Core) (x : Word) (r : SysReg) : (c.setSys x r).dseed = if r = .dseed then x else c.dseed := by
  cases r <;> rfl

/-- DKEEP after a write. -/
theorem Core.setSys_dkeep (c : Core) (x : Word) (r : SysReg) :
    (c.setSys x r).dkeep = if r = .dkeep then x.truncate 32 else c.dkeep := by
  cases r <;> rfl

/-- A write to a g register and one to a system register touch different parts of the core. -/
theorem Core.setG_setSys_rest (c : Core) (x : Word) (r : SysReg) (d : GReg) (y : Reg) : { (c.setSys x r).setG d y with
    mwgt := c.mwgt
    dseed := c.dseed
    dkeep := c.dkeep } = c.setG d y := by
  cases r <;> (unfold Core.setG; split <;> rfl)

/-- A single clean operand neither waits nor faults. -/
theorem State.ready_clean_one {s : State} {x : Reg} {detail : Nat} {k : Res} (he : x.tag ≠ .eph) (hp : x.tag ≠ .pois) :
    s.ready [x] (s.clean [x] detail k) = k := by
  simp [State.ready, State.clean, he, hp]

/-- What issues with registers to write issues without them. -/
theorem State.issues.noWrites {s : State} {i : Issue} (h : s.issues i) : s.issues { i with writes := [] } := by
  obtain ⟨a, ha, hl, hc, hx, ho⟩ := h
  refine ⟨a, ha, hl, ?_, hx, ho⟩
  unfold Issue.check at hc ⊢
  have hviol : i.violation s.me.windows = none := by
    cases hv : i.violation s.me.windows with
    | none => rfl
    | some p => simp [hv] at hc
  have hnone : Issue.violation { i with writes := [] } s.me.windows = none := by
    simp only [Issue.violation, Option.map_eq_none_iff, List.find?_eq_none] at hviol ⊢
    intro w hw hbad
    refine hviol w hw ?_
    simp only [List.contains_nil, Bool.or_false, Bool.and_eq_true, List.any_eq_true, Bool.or_eq_true] at hbad ⊢
    obtain ⟨hlive, r, hr, hread⟩ := hbad
    exact ⟨hlive, r, hr, .inl hread⟩
  rw [hviol] at hc
  rw [hnone]
  simp only [List.any_nil, Bool.false_eq_true, if_false] at hc ⊢
  split at hc
  · cases hc
  · next hcommit => rw [if_neg hcommit]

/-- An effect that replaces the core by one that differs in MWGT, DSEED, DKEEP and some registers. -/
theorem sysWritten_of_issues {i : Instr} {s : State} {u : Issue} {b : State → Res} {c : Core} {l : List RegName} (hi : s.issues u)
    (hc : u.commit = false) (hlen : u.len = 4) (h : exec i s = s.issue u b) (hb : b s = .ok (s.setMe c))
    (hk : s.me.KeepsBut { c with
      mwgt := s.me.mwgt
      dseed := s.me.dseed
      dkeep := s.me.dkeep } l) :
    ∃ t : State, exec i s = .next t ∧ t.me.pc = s.me.pc + 4 ∧ t.me.wait = none ∧ OnlyCore s t s.cur ∧
      s.me.KeepsBut { t.me with
        mwgt := s.me.mwgt
        dseed := s.me.dseed
        dkeep := s.me.dkeep } l ∧
      (∀ r, t.me.readG r = c.readG r) ∧ t.me.mwgt = c.mwgt ∧ t.me.dseed = c.dseed ∧ t.me.dkeep = c.dkeep := by
  refine ⟨s.setMe (c.advance u (s.me.pc + 4)), ?_, ?_⟩
  · rw [exec_of_issues hi hc h, hb, State.finish, State.advance_setMe, hlen]
    rfl
  · rw [State.me_setMe]
    exact ⟨rfl, rfl, s.onlyCore_setMe _, hk.advance u _ hc, fun _ => rfl, rfl, rfl, rfl⟩

/-- SRW takes a clean operand. -/
theorem exec_srw (r : SysReg) (a : GReg) (s : State) : exec (.srw r a) s = s.issue { reads := [.g a] } fun t =>
    t.ready [t.me.readG a] (t.clean [t.me.readG a] 4 (.ok (t.setMe (t.me.setSys (t.me.readG a).value r)))) := rfl

/-- SRX takes a clean operand, and returns the old value. -/
theorem exec_srx (d : GReg) (r : SysReg) (a : GReg) (s : State) : exec (.srx d r a) s = s.issue (rr d a) fun t =>
    t.ready [t.me.readG a] (t.clean [t.me.readG a] 4
      (.ok (t.setMe ((t.me.setSys (t.me.readG a).value r).setG d (Reg.data (t.sysValue t.cur r)))))) := rfl

section
variable {s : State} {a : GReg} (he : (s.me.readG a).tag ≠ .eph) (hp : (s.me.readG a).tag ≠ .pois)
include he hp

/-- What SRW of a clean operand changes. -/
theorem srw_writes (r : SysReg) (hi : s.issues { reads := [.g a] }) : ∃ t : State, exec (.srw r a) s = .next t ∧
    t.me.pc = s.me.pc + 4 ∧ t.me.wait = none ∧ OnlyCore s t s.cur ∧
    s.me.KeepsBut { t.me with
      mwgt := s.me.mwgt
      dseed := s.me.dseed
      dkeep := s.me.dkeep } [] ∧
    t.me.mwgt = (s.me.setSys (s.me.readG a).value r).mwgt ∧ t.me.dseed = (s.me.setSys (s.me.readG a).value r).dseed ∧
    t.me.dkeep = (s.me.setSys (s.me.readG a).value r).dkeep := by
  obtain ⟨t, hexec, hpc, hwait, honly, hkeeps, -, hregs⟩ := sysWritten_of_issues hi rfl rfl (exec_srw r a s) (State.ready_clean_one he hp)
    (by rw [Core.setSys_rest]; exact Core.KeepsBut.refl _ [])
  exact ⟨t, hexec, hpc, hwait, honly, hkeeps, hregs⟩

/-- What SRX of a clean operand changes. -/
theorem srx_writes (d : GReg) (r : SysReg) (hi : s.issues (rr d a)) : ∃ t : State, exec (.srx d r a) s = .next t ∧
    t.me.pc = s.me.pc + 4 ∧ t.me.wait = none ∧ OnlyCore s t s.cur ∧
    s.me.KeepsBut { t.me with
      mwgt := s.me.mwgt
      dseed := s.me.dseed
      dkeep := s.me.dkeep } [.g d] ∧
    t.me.readG d = written d (Reg.data (sysRow s r)) ∧
    t.me.mwgt = (s.me.setSys (s.me.readG a).value r).mwgt ∧ t.me.dseed = (s.me.setSys (s.me.readG a).value r).dseed ∧
    t.me.dkeep = (s.me.setSys (s.me.readG a).value r).dkeep := by
  obtain ⟨t, hexec, hpc, hwait, honly, hkeeps, hread, hm, hs, hk⟩ := sysWritten_of_issues hi rfl rfl (exec_srx d r a s)
    (State.ready_clean_one he hp) (by rw [Core.setG_setSys_rest]; exact s.me.setG_keeps d _)
  rw [Core.setG_mwgt] at hm
  rw [Core.setG_dseed] at hs
  rw [Core.setG_dkeep] at hk
  exact ⟨t, hexec, hpc, hwait, honly, hkeeps, by rw [hread, Core.readG_setG_same, State.sysValue_eq], hm, hs, hk⟩

end

/-- A core keeps all of itself where the registers that SRW and SRX may write stay too. -/
theorem Core.KeepsBut.of_setSys_readOnly {c d : Core} {l : List RegName} {r : SysReg} {x : Word}
    (hr : r ∉ [SysReg.mwgt, .dseed, .dkeep]) (hk : c.KeepsBut { d with
      mwgt := c.mwgt
      dseed := c.dseed
      dkeep := c.dkeep } l)
    (hm : d.mwgt = (c.setSys x r).mwgt) (hs : d.dseed = (c.setSys x r).dseed) (hd : d.dkeep = (c.setSys x r).dkeep) :
    c.KeepsBut d l := by
  rw [Core.setSys_readOnly hr] at hm hs hd
  rwa [← hm, ← hs, ← hd] at hk

end Sys2Proof.Machine
end

section
namespace Sys2Proof.Settled
open Machine

/-- Settles O13: a read-only register is left as it is by a write; a write to another one changes that register alone, and SRX puts the
old value in d besides. -/
theorem systemRegisters : Obligations.SystemRegisters := by
  unfold Obligations.SystemRegisters
  refine ⟨fun s d r hi => ?_, fun s d a r hi he hp => ?_⟩
  · refine writesG_of_issues (b := fun t => t.writeG d (Reg.data (t.sysValue t.cur r))) hi rfl rfl ?_
    rw [State.sysValue_eq]
  obtain ⟨t, hexec, hpc, hwait, honly, hkeeps, hm, hs, hk⟩ := srw_writes he hp r hi.noWrites
  obtain ⟨u, hexec', hpc', hwait', honly', hkeeps', hread', hm', hs', hk'⟩ := srx_writes he hp d r hi
  refine ⟨fun hr => ⟨?_, ?_⟩, fun hr p hmem => ?_⟩
  · exact ⟨t, hexec, hpc, hwait, honly, hkeeps.of_setSys_readOnly hr hm hs hk⟩
  · exact ⟨u, hexec', hread', hpc', hwait', honly', hkeeps'.of_setSys_readOnly hr hm' hs' hk'⟩
  · rw [Core.setSys_mwgt] at hm hm'
    rw [Core.setSys_dseed] at hs hs'
    rw [Core.setSys_dkeep] at hk hk'
    simp only [List.mem_cons, List.not_mem_nil, or_false] at hmem
    rcases hmem with rfl | rfl
    · exact ⟨t, hexec, hpc, honly, hkeeps, nofun, hm, hs, hk⟩
    · refine ⟨u, hexec', hpc', honly', hkeeps', ?_, hm', hs', hk'⟩
      rintro _ ⟨⟩
      exact hread'

end Sys2Proof.Settled
end

section
/-! SUPPORT. What a late value makes of the core that it reaches (R96, R99, R363). -/
namespace Sys2Proof.Machine

/-! ## A register that holds the symbol -/

/-- The value of an integer ephemeris. -/
theorem resolveReg_i64 (sym : Fin 32) (sc : BitVec 48) (off : Word) {v : Reg} (hv : v.tag = .data) :
    resolveReg (Reg.eph .i64 sym sc.toNat off) v = Reg.data (BitVec.ofInt 64 sc.toInt * v.value + off) := by
  have hclean : v.tag ≠ .pois := by rw [hv]; nofun
  have hscale : sextNat 48 (scaleOf (Reg.eph .i64 sym sc.toNat off)) = sc.toInt := iscale_eph .i64 sym sc off
  rw [resolveReg, if_neg hclean, kindOf_eph, hscale]
  simp [Reg.eph, BitVec.ofInt_add, BitVec.ofInt_mul]

/-- The value of a floating-point ephemeris. -/
theorem resolveReg_f32 (sym : Fin 32) (sc off : BitVec 32) {v : Reg} (hv : v.tag = .data) :
    resolveReg (Reg.eph .f32 sym sc.toNat (off.zeroExtend 64)) v =
      Reg.data (BitVec.ofNat 64 (fp32.fma .rne sc.toNat (v.value.toNat % 2 ^ 32) off.toNat)) := by
  have hclean : v.tag ≠ .pois := by rw [hv]; nofun
  have hsc : sc.toNat < 2 ^ 32 := sc.isLt
  have hoff : off.toNat < 2 ^ 32 := off.isLt
  have hscale : sc.toNat % 2 ^ 48 % 2 ^ 32 = sc.toNat := by omega
  have hoffset : (off.zeroExtend 64).toNat % 2 ^ 32 = off.toNat := by
    simp only [BitVec.truncate_eq_setWidth, BitVec.toNat_setWidth]
    omega
  rw [resolveReg, if_neg hclean, kindOf_eph, scaleOf_eph, hscale]
  simp only [Reg.eph, hoffset]

/-- A poisoned value poisons. -/
theorem resolveReg_pois (x : Reg) {v : Reg} (hv : v.tag = .pois) : (resolveReg x v).tag = .pois := by
  rw [resolveReg, if_pos hv]
  rfl

/-- A register that holds the symbol takes its value. -/
theorem rewriteReg_eph (kind : EphKind) (sym : Fin 32) (scale : Nat) (off : Word) (v : Reg) :
    rewriteReg sym v (Reg.eph kind sym scale off) = resolveReg (Reg.eph kind sym scale off) v :=
  if_pos ⟨rfl, symOf_eph kind sym scale off⟩

/-- Every other register stays. -/
theorem rewriteReg_other {sym : Fin 32} {v x : Reg} (h : x.tag ≠ .eph ∨ symOf x ≠ sym) : rewriteReg sym v x = x :=
  if_neg (not_and_or.2 h)

/-! ## The core -/

/-- What the registers of a symbol owe joins what others owe; all else stays. -/
theorem Core.owe_eq (c : Core) (sym : Fin 32) (ids : List Nat) : ∃ l, c.owe sym ids = { c with owed := l } ∧
    (ids ≠ [] → ∀ q ∈ c.holders sym, (q, ids) ∈ l) := by
  unfold Core.owe
  split
  · next h => exact ⟨c.owed, rfl, fun hne => absurd (List.isEmpty_iff.1 h) hne⟩
  · exact ⟨_, rfl, fun _ q hq => List.mem_append_right _ (List.mem_map.2 ⟨q, hq, rfl⟩)⟩

/-- A value whose symbol and generation are those of the table. -/
theorem Core.resolve_pending {c : Core} {r : SymRef} (v : Reg) (hstate : c.sym[r.sym.val].state ≠ .free)
    (hgen : c.sym[r.sym.val].gen = r.gen) : c.resolve r v = { c with
      g := c.g.map (rewriteReg r.sym v)
      f := c.f.map (rewriteReg r.sym v)
      sym := c.sym.set r.sym.val ⟨.free, 0, c.sym[r.sym.val].kind, r.gen⟩ } := by
  unfold Core.resolve
  rw [if_neg (by simp [hstate, hgen]), hgen]

/-! ## EPHEMERIS_RESOLUTION -/

section
variable {s : State} {n k : Nat} {r : SymRef} {v : Reg} {ids : List Nat} (hn : s.arrivals[n]? = some ⟨k, r, v, ids⟩)
include hn

/-- A core in an exchange is not reached. -/
theorem resolution_held (hheld : s.held k = true) : exec (.ephemerisResolution n) s = .next s := by
  change execEphemerisResolution n s = _
  simp [execEphemerisResolution, hn, hheld]

/-- A value that comes too late is discarded. -/
theorem resolution_stale (hheld : s.held k = false)
    (hstale : (s.core k).sym[r.sym.val].state = .free ∨ (s.core k).sym[r.sym.val].gen ≠ r.gen) :
    exec (.ephemerisResolution n) s = .next { s with arrivals := dropAt s.arrivals n } := by
  change execEphemerisResolution n s = _
  simp only [execEphemerisResolution, hn, hheld, Bool.false_eq_true, if_false]
  exact if_pos hstale

/-- Any other rewrites the registers of its symbol, which owe what it brings, and frees it. -/
theorem resolution_fresh (hheld : s.held k = false) (hstate : (s.core k).sym[r.sym.val].state ≠ .free)
    (hgen : (s.core k).sym[r.sym.val].gen = r.gen) : ∃ l : List (RegName × List Nat), exec (.ephemerisResolution n) s =
      .next (({ s with arrivals := dropAt s.arrivals n } : State).setCore k { s.core k with
        owed := l
        g := (s.core k).g.map (rewriteReg r.sym v)
        f := (s.core k).f.map (rewriteReg r.sym v)
        sym := (s.core k).sym.set r.sym.val ⟨.free, 0, (s.core k).sym[r.sym.val].kind, r.gen⟩ }) ∧
      (s.mem.live ids ≠ [] → ∀ q ∈ (s.core k).holders r.sym, (q, s.mem.live ids) ∈ l) := by
  obtain ⟨l, howe, hl⟩ := (s.core k).owe_eq r.sym (s.mem.live ids)
  refine ⟨l, ?_, hl⟩
  have hres := Core.resolve_pending (c := { s.core k with owed := l }) v hstate hgen
  rw [← howe] at hres
  change execEphemerisResolution n s = _
  simp only [execEphemerisResolution, hn, hheld, Bool.false_eq_true, if_false]
  refine (if_neg (not_or.2 ⟨hstate, not_not.2 hgen⟩)).trans ?_
  change Host.Outcome.next (State.setCore _ k (((s.core k).owe r.sym (s.mem.live ids)).resolve r v)) = _
  rw [hres, howe]

end

end Sys2Proof.Machine
end

section
/-! SUPPORT. What a write that an agent has seen becomes in the log, and what an agent's seeing it changes for the others (R356, R360,
R361, R363). -/
namespace Sys2Proof.Machine

/-! ## The log after some writes are shown -/

/-- What a list holds it holds with more put in. -/
theorem mem_foldl_addNew {α : Type} [DecidableEq α] {x : α} (l : List α) {acc : List α} (h : x ∈ acc) : x ∈ l.foldl addNew acc := by
  induction l generalizing acc with
  | nil => exact h
  | cons y l ih =>
    refine ih ?_
    unfold addNew
    split
    · exact h
    · exact List.mem_append_left _ h

/-- What is put in stands in the list. -/
theorem mem_addNew {α : Type} [DecidableEq α] (l : List α) (x : α) : x ∈ addNew l x := by
  unfold addNew
  split
  · next h => exact List.contains_iff_mem.1 h
  · exact List.mem_append_right _ (List.mem_singleton_self x)

/-- What it held it holds. -/
theorem mem_addNew_of_mem {α : Type} [DecidableEq α] {l : List α} {x : α} (y : α) (h : x ∈ l) : x ∈ addNew l y :=
  mem_foldl_addNew [y] h

/-- What a write of the log is to an agent stays as settled ones leave: its number, its writer and who has seen it. -/
theorem mem_withoutSettled {p : Unseen → Bool} {l : List Unseen} {e : Unseen} (h : e ∈ withoutSettled p l) :
    ∃ f ∈ l, f.id = e.id ∧ f.writer = e.writer ∧ f.seenBy = e.seenBy := by
  induction l with
  | nil => cases h
  | cons f rest ih =>
    unfold withoutSettled at h
    have hrest : e ∈ withoutSettled p rest → ∃ g ∈ f :: rest, g.id = e.id ∧ g.writer = e.writer ∧ g.seenBy = e.seenBy := fun h =>
      let ⟨g, hg, hsame⟩ := ih h
      ⟨g, List.mem_cons_of_mem _ hg, hsame⟩
    split at h
    · exact hrest h
    · rcases List.mem_cons.1 h with rfl | h
      · exact ⟨f, List.mem_cons_self, rfl, rfl, rfl⟩
      · exact hrest h

/-- A write of the log after some are shown to an audience was there, and the audience has seen it if it is one of them. -/
theorem Memory.mem_show {m : Memory} {ids : List Nat} {dest : Audience} {e : Unseen} (h : e ∈ (m.show ids dest).unseen) :
    ∃ f ∈ m.unseen, f.id = e.id ∧ f.writer = e.writer ∧ (∀ a ∈ f.seenBy, a ∈ e.seenBy) ∧ (e.id ∈ ids → dest ∈ e.seenBy) := by
  obtain ⟨g, hg, hid, hwriter, hseen⟩ := mem_withoutSettled h
  obtain ⟨f, hf, rfl⟩ := List.mem_map.1 hg
  rw [← hid, ← hwriter, ← hseen]
  refine ⟨f, hf, ?_⟩
  split
  · exact ⟨rfl, rfl, fun a ha => mem_addNew_of_mem dest ha, fun _ => mem_addNew _ dest⟩
  · next hnot =>
    exact ⟨rfl, rfl, fun a ha => ha, fun hin => absurd (List.contains_iff_mem.2 hin) hnot⟩

/-- Every write of the log with a number has been seen by an agent. -/
def Memory.SeenAll (m : Memory) (i : Nat) (v : Viewer) : Prop := ∀ e ∈ m.unseen, e.id = i → e.seen v = true

/-- A write with an audience among those that have seen it, to which the agent belongs, is seen by the agent. -/
theorem Unseen.seen_of_mem {e : Unseen} {a : Audience} {v : Viewer} (ha : a ∈ e.seenBy) (hv : a.covers v = true) : e.seen v = true := by
  rw [Unseen.seen, Bool.or_eq_true, List.any_eq_true]
  exact .inr ⟨a, ha, hv⟩

/-- The audience of one agent. -/
theorem covers_one (v w : Viewer) : Audience.covers [.one v] w = (w == v) := by
  simp [Audience.covers, Seer.covers, eq_comm]

/-- What has been seen stays seen as more is shown. -/
theorem Memory.SeenAll.show {m : Memory} {i : Nat} {v : Viewer} (h : m.SeenAll i v) (ids : List Nat) (dest : Audience) :
    (m.show ids dest).SeenAll i v := by
  intro e he hi
  obtain ⟨f, hf, hid, hwriter, hmono, -⟩ := Memory.mem_show he
  have hseen := h f hf (hid.trans hi)
  rw [Unseen.seen, Bool.or_eq_true, List.any_eq_true] at hseen ⊢
  rw [← hwriter]
  exact hseen.imp_right fun ⟨a, ha, hv⟩ => ⟨a, hmono a ha, hv⟩

/-- A write shown to an agent is seen by it. -/
theorem Memory.seenAll_show (m : Memory) (i : Nat) (v : Viewer) : (m.show [i] [.one v]).SeenAll i v := by
  intro e he hi
  obtain ⟨-, -, -, -, -, hin⟩ := Memory.mem_show he
  exact Unseen.seen_of_mem (hin (hi ▸ List.mem_singleton_self _)) (by simp [covers_one])

/-- What has been seen stays seen over a chain of showings. -/
theorem Memory.SeenAll.foldl {i : Nat} {v : Viewer} (l : List (Nat × Audience)) {m : Memory} (h : m.SeenAll i v) :
    (l.foldl (fun n p => n.show [p.1] p.2) m).SeenAll i v := by
  induction l generalizing m with
  | nil => exact h
  | cons p l ih => exact ih (h.show [p.1] p.2)

/-- A chain of showings that has the write for the agent. -/
theorem Memory.seenAll_foldl {i : Nat} {v : Viewer} {l : List (Nat × Audience)} (h : (i, [.one v]) ∈ l) (m : Memory) :
    (l.foldl (fun n p => n.show [p.1] p.2) m).SeenAll i v := by
  obtain ⟨before, after, rfl⟩ := List.append_of_mem h
  rw [List.foldl_append, List.foldl_cons]
  exact (Memory.seenAll_show _ i v).foldl after

/-- What is to be shown is among what is shown. -/
theorem Memory.mem_closure (m : Memory) {ids : List Nat} {i : Nat} (dest : Audience) (h : i ∈ ids) : (i, dest) ∈ m.closure ids dest := by
  unfold Memory.closure
  generalize m.unseen = l
  induction l with
  | nil => exact List.mem_map.2 ⟨i, h, rfl⟩
  | cons e l ih =>
    rw [List.foldr_cons]
    exact mem_foldl_addNew _ ih

/-- What an agent acquires it has seen (R361, R363). -/
theorem Memory.seenAll_acquire (m : Memory) {ids : List Nat} {i : Nat} (v : Viewer) (h : i ∈ ids) : (m.acquire ids v).SeenAll i v :=
  Memory.seenAll_foldl (m.mem_closure [.one v] h) m

/-- The writes of the log after an acquire are those of before. -/
theorem Memory.mem_acquire {m : Memory} {ids : List Nat} {v : Viewer} {e : Unseen} (h : e ∈ (m.acquire ids v).unseen) :
    ∃ f ∈ m.unseen, f.id = e.id := by
  unfold Memory.acquire Memory.showAfter at h
  generalize m.closure ids [.one v] = l at h
  induction l generalizing m with
  | nil => exact ⟨e, h, rfl⟩
  | cons p l ih =>
    obtain ⟨f, hf, hid⟩ := ih h
    obtain ⟨g, hg, hid', -⟩ := Memory.mem_show hf
    exact ⟨g, hg, hid'.trans hid⟩

/-! ## One write performed for one agent (R360) -/

/-- What an agent sees rests on which writes of the log it has seen. -/
theorem latestSeen_map {α : Type} (v : Viewer) (old : Unseen → Option α) (now : α) (g : Unseen → Unseen) (hold : ∀ e, old (g e) = old e)
    (hseen : ∀ e, (g e).seen v = e.seen v) (l : List Unseen) : latestSeen v old now (l.map g) = latestSeen v old now l := by
  unfold latestSeen
  rw [List.foldr_map]
  simp only [hold, hseen]

/-- A write shown to one agent is to every other one what it was. -/
theorem Memory.view_show_one (m : Memory) (ids : List Nat) {v w : Viewer} (hw : w ≠ v) (a : Nat) :
    (m.show ids [.one v]).view w a = m.view w a := by
  unfold Memory.show
  rw [Memory.view_trim]
  refine latestSeen_map w _ _ _ (fun e => ?_) (fun e => ?_) m.unseen
  · split <;> rfl
  · split
    · have hone : Audience.covers [.one v] w = false := by simpa [covers_one] using hw
      simp only [Unseen.seen, addNew]
      split
      · rfl
      · simp [hone]
    · rfl

section
variable {s : State} {n : Nat} {v : Viewer} {e : Unseen} (hfind : s.mem.unseen.find? (·.id == n) = some e)
include hfind

/-- A write that follows others which the agent has not seen waits for them. -/
theorem performed_waits (hbefore : s.mem.before e v ≠ []) : exec (.writePerformedAsSeen n v) s = .next s := by
  change Host.Outcome.next (s.setMem (s.mem.perform n v)) = _
  simp only [Memory.perform, hfind]
  rw [if_neg (by simpa using hbefore)]
  rfl

/-- Any other is shown to the agent. -/
theorem performed_shows (hbefore : s.mem.before e v = []) :
    exec (.writePerformedAsSeen n v) s = .next (s.setMem (s.mem.show [n] [.one v])) := by
  change Host.Outcome.next (s.setMem (s.mem.perform n v)) = _
  simp only [Memory.perform, hfind, hbefore]
  rfl

end

/-! ## What registers owe is acquired by their reader (R363, log 89) -/

/-- The part of what registers owe that an instruction's reading acquires. -/
def State.due (s : State) (l : List RegName) : List (RegName × List Nat) := s.me.owed.filter fun x => l.contains x.1

/-- Nothing is acquired where none of the registers read owes anything. -/
theorem State.acquireOwed_of_not_due {s : State} {l : List RegName} (h : s.due l = []) : s.acquireOwed l = s :=
  State.acquireOwed_none fun x hx hin => List.filter_eq_nil_iff.1 h x hx (List.contains_iff_mem.2 hin)

/-- Where some do, what they owe is acquired and owed no longer. -/
theorem State.acquireOwed_of_due {s : State} {l : List RegName} (h : s.due l ≠ []) : s.acquireOwed l =
    let t := s.acquire s.cur (s.mem.live ((s.due l).flatMap Prod.snd))
    t.setMe { t.me with owed := t.me.owed.filter fun x => !l.contains x.1 } := by
  unfold State.acquireOwed
  exact if_neg fun hnone => h (List.isEmpty_iff.1 hnone)

/-- What acquiring changes: memory, the core's observed writes, and what its registers owe. -/
theorem State.acquireOwed_eq (s : State) (l : List RegName) : ∃ m o, s.acquireOwed l = ({ s with mem := m } : State).setMe { s.me with
    obs := o
    owed := s.me.owed.filter fun x => !l.contains x.1 } ∨ s.due l = [] ∧ s.acquireOwed l = s := by
  by_cases hdue : s.due l = []
  · exact ⟨s.mem, [], .inr ⟨hdue, State.acquireOwed_of_not_due hdue⟩⟩
  · rw [State.acquireOwed_of_due hdue]
    obtain ⟨m, o, heq | heq⟩ := s.acquire_eq s.cur (s.mem.live ((s.due l).flatMap Prod.snd))
    · rw [heq]
      exact ⟨s.mem, s.me.obs, .inl rfl⟩
    · rw [heq]
      refine ⟨m, o, .inl ?_⟩
      change (State.setMe { s with mem := m } { s.me with obs := o }).setMe
        { (State.setMe { s with mem := m } { s.me with obs := o }).me with
          owed := (State.setMe { s with mem := m } { s.me with obs := o }).me.owed.filter _ } = _
      rw [State.setMe_setMe, State.me_setMe]

/-- What the registers still owe. -/
theorem State.owed_acquireOwed (s : State) (l : List RegName) :
    (s.acquireOwed l).me.owed = s.me.owed.filter fun x => !l.contains x.1 := by
  obtain ⟨m, o, h | ⟨hdue, h⟩⟩ := s.acquireOwed_eq l
  · rw [h, State.me_setMe]
  · rw [h]
    refine (List.filter_eq_self.2 fun x hx => ?_).symm
    simpa using List.filter_eq_nil_iff.1 hdue x hx

/-- What an instruction's reading acquires its core has seen. -/
theorem State.seen_acquireOwed {s : State} {l : List RegName} {x : RegName × List Nat} (hx : x ∈ s.me.owed) (hin : x.1 ∈ l) {e : Unseen}
    (he : e ∈ (s.acquireOwed l).mem.unseen) (hid : e.id ∈ x.2) : e.seen (.core s.cur) = true := by
  have hxdue : x ∈ s.due l := List.mem_filter.2 ⟨hx, List.contains_iff_mem.2 hin⟩
  have hids : e.id ∈ (s.due l).flatMap Prod.snd := List.mem_flatMap.2 ⟨x, hxdue, hid⟩
  have hmem : (s.acquireOwed l).mem = (s.acquire s.cur (s.mem.live ((s.due l).flatMap Prod.snd))).mem := by
    rw [State.acquireOwed_of_due (List.ne_nil_of_mem hxdue)]
    rfl
  generalize (s.due l).flatMap Prod.snd = ids at hids hmem
  rw [hmem] at he
  unfold State.acquire at he
  split at he
  · next hnone =>
    have hlive : e.id ∈ s.mem.live ids :=
      List.mem_map.2 ⟨e, List.mem_filter.2 ⟨he, List.contains_iff_mem.2 hids⟩, rfl⟩
    rw [List.isEmpty_iff.1 hnone] at hlive
    cases hlive
  · change e ∈ (s.mem.acquire (s.mem.live ids) (.core s.cur)).unseen at he
    obtain ⟨f, hf, hfid⟩ := Memory.mem_acquire he
    have hlive : e.id ∈ s.mem.live ids :=
      List.mem_map.2 ⟨f, List.mem_filter.2 ⟨hf, List.contains_iff_mem.2 (hfid ▸ hids)⟩, hfid⟩
    exact s.mem.seenAll_acquire (.core s.cur) hlive e he rfl

/-- Acquiring twice is acquiring once. -/
theorem State.acquireOwed_acquireOwed (s : State) (l : List RegName) : (s.acquireOwed l).acquireOwed l = s.acquireOwed l := by
  refine State.acquireOwed_none fun x hx hin => ?_
  rw [State.owed_acquireOwed] at hx
  simpa [hin] using (List.mem_filter.1 hx).2

/-- An instruction that the issue rules let go on issues as in the state in which what its registers owe is acquired. -/
theorem State.issue_acquireOwed {s : State} {i : Issue} {a : Act} (body : State → Res) (ha : s.me.act = some a)
    (hl : s.lookBlocked i = false) (hc : i.check s.me a = none) (hx : i.x64 = true → isExt s.cur = true) :
    s.issue i body = (s.acquireOwed i.reads).issue i body := by
  have hx' : (i.x64 && !isExt s.cur) = false := by
    cases h : i.x64 with
    | false => rfl
    | true => simp [hx h]
  have hissue : ∀ t : State, t.me.act = some a → t.lookBlocked i = false → i.check t.me a = none → t.cur = s.cur →
      t.issue i body = .next (State.finish
        (if i.commit then (t.acquireOwed i.reads).settleLdes (t.acquireOwed i.reads).cur else t.acquireOwed i.reads) i
        (body (if i.commit then (t.acquireOwed i.reads).settleLdes (t.acquireOwed i.reads).cur else t.acquireOwed i.reads))) := by
    intro t ha hl hc hcur
    simp [State.issue, ha, hl, hc, hcur, hx']
  rw [hissue s ha hl hc rfl]
  obtain ⟨m, o, h | ⟨-, h⟩⟩ := s.acquireOwed_eq i.reads
  · have hme : (s.acquireOwed i.reads).me = { s.me with
        obs := o
        owed := s.me.owed.filter fun x => !i.reads.contains x.1 } := by rw [h, State.me_setMe]
    have hcur : (s.acquireOwed i.reads).cur = s.cur := by rw [h]; rfl
    have hmat : (s.acquireOwed i.reads).mat = s.mat := by rw [h]; rfl
    rw [hissue _ (by rw [hme, ha]) ?_ ?_ hcur, State.acquireOwed_acquireOwed]
    · rw [← hl, State.lookBlocked, State.lookBlocked, hme, hmat, hcur]
    · rw [← hc, Issue.check, Issue.check, hme]
  · rw [h, hissue s ha hl hc rfl, h]

end Sys2Proof.Machine
end

section
/-! SUPPORT. What a walk of a core that its TLB does not serve leaves behind: the bits A and D, and the TLB's entry (R204 to R208). -/
namespace Sys2Proof.Machine

/-! ## The bits A and D -/

/-- A bit of a number, as the library names it. -/
theorem bit_eq_testBit (x i : Nat) : bit x i = x.testBit i := by
  simp [bit, bits, Nat.testBit_eq_decide_div_mod_eq, beq_eq_decide]

/-- The lowest byte of a little-endian number has its bits. -/
theorem bit_leNat_cons (b : Byte) (rest : List Byte) {i : Nat} (hi : i < 8) : bit (leNat (b :: rest)) i = b.getLsbD i := by
  have hb : b.toNat < 2 ^ 8 := b.isLt
  have hmod : leNat (b :: rest) % 2 ^ 8 = b.toNat := by
    rw [leNat]
    omega
  have hbit := Nat.testBit_mod_two_pow (leNat (b :: rest)) 8 i
  rw [hmod] at hbit
  rw [bit_eq_testBit, BitVec.getLsbD, hbit]
  simp [hi]

/-- A byte with A is not changed by setting it. -/
theorem or_accessed : ∀ b : Byte, b.getLsbD 6 = true → b ||| 0x40 = b := by decide

/-- Nor one with A and D by setting both. -/
theorem or_dirty : ∀ b : Byte, b.getLsbD 6 = true → b.getLsbD 7 = true → b ||| 0xC0 = b := by decide

/-- The bits of a PTE's lowest byte that a walk sets (R205). -/
def adBits (dirty : Bool) : Byte := if dirty then 0xC0 else 0x40

/-- Memory after a walk that holds: A is set, and D before a store, where the PTE lacks them. -/
def walkedMem (m : Memory) (v : Viewer) (pte : Nat) (dirty : Bool) : Memory := if lacksAD m v pte dirty then setAD m v pte dirty else m

/-- A PTE that lacks nothing has the bits. -/
theorem or_adBits_of_not_lacksAD {m : Memory} {v : Viewer} {pte : Nat} {dirty : Bool}
    (hview : m.viewNat v pte 8 = leNat ((span pte 8).map m.byte)) (hlacks : lacksAD m v pte dirty = false) :
    m.byte pte ||| adBits dirty = m.byte pte := by
  have hbytes : (span pte 8).map m.byte = m.byte pte :: (span (pte + 1) 7).map m.byte := rfl
  have hbit := fun i (hi : i < 8) => bit_leNat_cons (m.byte pte) ((span (pte + 1) 7).map m.byte) hi
  rw [hbytes] at hview
  simp only [lacksAD, hview, hbit 6 (by decide), hbit 7 (by decide), Bool.not_eq_false', Bool.and_eq_true, Bool.or_eq_true,
    Bool.not_eq_true'] at hlacks
  obtain ⟨haccessed, hdirty⟩ := hlacks
  cases dirty with
  | false => exact or_accessed _ haccessed
  | true => exact or_dirty _ haccessed (hdirty.resolve_right nofun)

/-- The PTE's lowest byte after a walk has the bits, and no other byte has changed. -/
theorem walkedMem_byte {m : Memory} {v : Viewer} {pte : Nat} {dirty : Bool} (hwf : m.wf = true)
    (hview : m.viewNat v pte 8 = leNat ((span pte 8).map m.byte)) :
    (walkedMem m v pte dirty).byte pte = m.byte pte ||| adBits dirty ∧ ∀ a, a ≠ pte → (walkedMem m v pte dirty).byte a = m.byte a := by
  unfold walkedMem
  split
  · obtain ⟨hpte, hother⟩ := setAD_byte v pte dirty hwf
    refine ⟨hpte.trans ?_, hother⟩
    cases dirty with
    | false => exact BitVec.or_zero
    | true => exact BitVec.or_assoc _ _ _
  · next hlacks => exact ⟨(or_adBits_of_not_lacksAD hview (by simpa using hlacks)).symm, fun _ _ => rfl⟩

/-! ## The walk -/

section
variable {s : State} {v : Viewer} {vf asid va : Nat} {rights : List Access} {l : Leaf} {pte : Nat}

/-- Where no word has flipped bits, a walk's checks change nothing. -/
theorem State.checkedWalk_of_good (h : s.mem.upsets = []) (v : Viewer) (vf asid va : Nat) : s.checkedWalk v vf asid va = s := by
  simp [State.checkedWalk, h]

/-- A walk whose compare-and-swap holds is the last. -/
theorem State.walks_of_not_stale (hup : s.mem.upsets = []) (h : s.walkStale v vf asid va rights = none) (n : Nat) :
    State.walks v vf asid va rights n s = s.walkOnce v vf asid va rights := by
  cases n with
  | zero => rw [State.walks, State.checkedWalk_of_good hup]
  | succ n => simp only [State.walks, State.checkedWalk_of_good hup, h]

/-- A leaf that grants the accesses to a place that exists. -/
theorem Leaf.check_granted (hmap : mappable (l.place va).pa = true) (hg : l.grants rights = true) : l.check va rights = .ok (l.place va) := by
  simp [Leaf.check, hmap, hg]

/-- A leaf that does not. -/
theorem Leaf.check_refused (hmap : mappable (l.place va).pa = true) (hg : l.grants rights = false) : l.check va rights = .error 5 := by
  simp [Leaf.check, hmap, hg]

variable (hva : va < 2 ^ 48) (hmiss : tlbFind (s.tlbOf (translatorOf v)) asid va = none) (hup : s.mem.upsets = [])
  (hwalk : walk s.mem v (s.vf vf).ctx asid va = .ok (l, pte)) (hmap : mappable (l.place va).pa = true)
include hva hmiss hup hwalk hmap

/-- A translation whose leaf does not grant the accesses changes nothing. -/
theorem State.engineTo_refused (hg : l.grants rights = false) : s.engineTo v vf asid va rights = (.error 5, s) := by
  have hstale : s.walkStale v vf asid va rights = none := by
    simp only [State.walkStale, hwalk, Leaf.check_refused hmap hg]
  have hto : s.walkTo v vf asid va rights = (.error 5, s) := by
    rw [State.walkTo, if_neg (by omega), State.walks_of_not_stale hup hstale]
    simp only [State.walkOnce, hwalk, Leaf.check_refused hmap hg]
  simp only [State.engineTo, if_neg (show ¬ 2 ^ 48 ≤ va by omega), hmiss, Option.filter_none, hto]

/-- One whose leaf grants them sets the bits and fills the TLB. -/
theorem State.engineTo_granted (hg : l.grants rights = true) (hview : s.mem.viewNat v pte 8 = leNat ((span pte 8).map s.mem.byte)) :
    s.engineTo v vf asid va rights = (.ok (l.place va),
      (s.setMem (walkedMem s.mem v pte (rights.contains .write))).fillTlb (translatorOf v) asid
        { l with d := l.d || rights.contains .write }) := by
  have hstale : s.walkStale v vf asid va rights = none := by
    simp [State.walkStale, hwalk, Leaf.check_granted hmap hg, pteChanged, hview]
  have hmem : (if lacksAD s.mem v pte (rights.contains .write) then { s with mem := setAD s.mem v pte (rights.contains .write) } else s) =
      s.setMem (walkedMem s.mem v pte (rights.contains .write)) := by
    unfold walkedMem
    split <;> rfl
  have hto : s.walkTo v vf asid va rights =
      (.ok (l.place va, { l with d := l.d || rights.contains .write }), s.setMem (walkedMem s.mem v pte (rights.contains .write))) := by
    rw [State.walkTo, if_neg (by omega), State.walks_of_not_stale hup hstale, ← hmem]
    simp only [State.walkOnce, hwalk, Leaf.check_granted hmap hg]
  simp only [State.engineTo, if_neg (show ¬ 2 ^ 48 ≤ va by omega), hmiss, Option.filter_none, hto]

end

/-- No entry of a TLB translates an address that none covers. -/
theorem tlbFind_none {t : List TlbEntry} {asid va : Nat} (h : ∀ e ∈ t, e.asid = asid → ¬ (e.va ≤ va ∧ va < e.va + e.size)) :
    tlbFind t asid va = none := by
  refine List.find?_eq_none.2 fun e he hbad => ?_
  simp only [Bool.and_eq_true, beq_iff_eq, decide_eq_true_eq] at hbad
  obtain ⟨⟨hasid, hlo⟩, hhi⟩ := hbad
  exact h e he hasid ⟨hlo, hhi⟩

section
variable {s : State} {k : Nat} {va : Word} {acc : Access} {l : Leaf} {pte : Nat} (hva : va.toNat < 2 ^ 48)
  (htlb : ∀ e ∈ (s.core k).tlb, e.asid = (s.core k).asid → ¬ (e.va ≤ va.toNat ∧ va.toNat < e.va + e.size)) (hup : s.mem.upsets = [])
  (hwalk : walk s.mem (.core k) (s.vf (s.core k).vfid).ctx (s.core k).asid va.toNat = .ok (l, pte))
  (hmap : mappable (l.place va.toNat).pa = true)
include hva htlb hup hwalk hmap

/-- A core's walk for an access that the leaf does not grant. -/
theorem pageTableWalk_refused (hg : l.grants [acc] = false) : exec (.pageTableWalk k va acc) s = .next s := by
  change Host.Outcome.next (s.translate k va.toNat [acc]).2 = _
  rw [State.translate, State.engineTo_refused (v := .core k) hva (tlbFind_none htlb) hup hwalk hmap hg]

/-- A core's walk for an access that the leaf grants. -/
theorem pageTableWalk_granted (hg : l.grants [acc] = true)
    (hview : s.mem.viewNat (.core k) pte 8 = leNat ((span pte 8).map s.mem.byte)) : exec (.pageTableWalk k va acc) s =
      .next ((s.setMem (walkedMem s.mem (.core k) pte (acc == .write))).setCore k { s.core k with
        tlb := tlbFill (s.core k).tlb (s.core k).asid { l with d := l.d || acc == .write } }) := by
  have hstore : [acc].contains .write = (acc == .write) := by cases acc <;> rfl
  change Host.Outcome.next (s.translate k va.toNat [acc]).2 = _
  rw [State.translate, State.engineTo_granted (v := .core k) hva (tlbFind_none htlb) hup hwalk hmap hg hview, hstore]
  rfl

end

/-! ## Looking again at a word (R240, R241) -/

/-- The core's watch is awake and its stall over; its PC and the bytes of memory stay. -/
def ReadsAgain (s t : State) (k : Nat) : Prop := (t.core k).wait = none ∧ (t.core k).pc = (s.core k).pc ∧
  (∀ x ∈ t.mem.watches, x.core = k → x.woken = true) ∧ t.mem.cells = s.mem.cells

/-- A core that waits in WAITA reads again. -/
theorem State.readsAgain {s : State} {k : Nat} (h : (s.core k).wait = some .waita) : ReadsAgain s (s.readAgain k) k := by
  unfold State.readAgain
  rw [if_pos h]
  refine ⟨by simp, by simp, fun x hx hk => ?_, rfl⟩
  obtain ⟨y, -, rfl⟩ := List.mem_map.1 hx
  by_cases hy : y.core = k
  · simp [hy]
  · simp [hy] at hk

section
variable {s : State} {k : Nat} {w : Watch} (hw : w ∈ s.mem.watches) (hk : w.core = k) (hheld : s.held k = false)
include hw hk hheld

/-- A wake sends the core on. -/
theorem exec_waitaWake (hwoken : w.woken = true) : exec (.waitaWake k) s = .next (s.readAgain k) := by
  change execWaitaWake k s = _
  exact if_pos (List.any_eq_true.2 ⟨w, hw, by simp [hk, hheld, hwoken]⟩)

/-- So does the timer. -/
theorem exec_waitaTimerExpiry (hdue : w.since + 4096 ≤ s.rc) : exec (.waitaTimerExpiry k) s = .next (s.readAgain k) := by
  change execWaitaTimerExpiry k s = _
  exact if_pos (List.any_eq_true.2 ⟨w, hw, by simp [hk, hheld, hdue]⟩)

end

end Sys2Proof.Machine
end

section
/-! SUPPORT. What is lost with an uncorrectable word, and what becomes of a marked one (R212, R333, log 80). -/
namespace Sys2Proof.Machine

/-! ## Counters -/

/-- The search for a counter in the table after another has been advanced. -/
theorem find_bump_other {c d : Counter} (h : c ≠ d) (n : Nat) (l : List (Counter × Nat)) :
    ((bump d n l).find? (·.1 == c)).map Prod.snd = (l.find? (·.1 == c)).map Prod.snd := by
  induction l with
  | nil => simp [bump, h.symm]
  | cons x rest ih =>
    obtain ⟨e, v⟩ := x
    unfold bump
    by_cases he : e = d
    · simp [he, h.symm]
    · by_cases hc : e = c
      · simp [hc, h]
      · simpa [he, hc] using ih

/-- Another counter stays. -/
theorem State.counter_count_other {c d : Counter} (h : c ≠ d) (s : State) (n : Nat) : (s.count d n).counter c = s.counter c := by
  unfold State.count
  split
  · rfl
  · exact congrArg (·.getD 0) (find_bump_other h n s.sc.counters)

/-- The Station Controller's record stays. -/
theorem Levelled.sc {s t : State} (h : Levelled s t) : t.sc = s.sc := by
  obtain ⟨_, _, _, rfl⟩ := h
  rfl

/-- A launch's completion counts at most a message not delivered. -/
theorem State.counter_endLaunch {c : Counter} (h : c ≠ .notifyDiscarded) (s : State) (l : Nat) (x : Launch) :
    (s.endLaunch l x).counter c = s.counter c := by
  have hnotify : ((({ s with launches := mdel s.launches l } : State).endLeases l).notify l x).counter c = s.counter c := by
    unfold State.notify
    split
    · rfl
    · exact State.counter_count_other h _ _
  rw [← hnotify]
  unfold State.endLaunch
  simp only
  generalize (({ s with launches := mdel s.launches l } : State).endLeases l).notify l x = u
  have hjobs : ∀ v : State, v = (if x.counts.outcome = .faulted then
      { u with jobs := mmod u.jobs x.desc.job fun j => { j with firstFault := j.firstFault.orElse fun _ => some l } }
      else u) → v.sc = u.sc := by
    rintro v rfl
    split <;> rfl
  generalize (if x.counts.outcome = .faulted then
    { u with jobs := mmod u.jobs x.desc.job fun j => { j with firstFault := j.firstFault.orElse fun _ => some l } }
    else u) = v at hjobs
  have hsc := hjobs v rfl
  unfold State.counter
  split
  · next t _ => rw [(levelled_tcbEnd v t x.counts.outcome x.finished).sc, hsc]
  · split <;> exact congrArg (fun y : Station => ((y.counters.find? (·.1 == c)).map Prod.snd).getD 0) hsc

/-- So does the end of a member. -/
theorem State.counter_endMember {c : Counter} (h : c ≠ .notifyDiscarded) (s : State) (l : Nat) (e : End) (ids : List Nat) :
    (s.endMember l e ids).counter c = s.counter c :=
  State.settle_of_ends (R := fun s t => t.counter c = s.counter c) (fun _ => rfl) (fun h g => g.trans h)
    (fun s l x => s.counter_endLaunch h l x) (fun _ _ _ => rfl) (fun _ _ _ => rfl) (fun _ _ _ => rfl) _

/-! ## What a message that is dropped had added -/

/-- A TCB's task has ended. -/
theorem levelled_tcbTaskEnd (s : State) (t : Nat) (e : End) (ids : List Nat) : Levelled s (s.tcbTaskEnd t e ids) := by
  unfold State.tcbTaskEnd
  simp only
  split
  · exact Levelled.trans ⟨_, _, _, rfl⟩ (levelled_tcbEnd _ t _ _)
  · exact ⟨_, _, _, rfl⟩

/-- A task's target has advanced. -/
theorem levelled_targetEnd (s : State) (d : TaskDesc) (e : End) (ids : List Nat) : Levelled s (s.targetEnd d e ids) := by
  unfold State.targetEnd
  split
  · exact ⟨_, _, _, rfl⟩
  · exact ⟨_, _, _, rfl⟩
  · exact levelled_tcbTaskEnd _ _ _ _
  · exact .refl s

/-- Where a task retires, messages join the traffic last. -/
theorem State.retireTask_flights (s : State) (t : TaskRef) (e : End) (ids : List Nat) : s.flights <+: (s.retireTask t e ids).flights := by
  unfold State.retireTask
  simp only
  split
  · exact List.prefix_rfl
  · next en _ =>
    generalize ({ (s.home t.home).modQueue t.queue fun q =>
      { q with entries := q.entries.filter fun y => y.seq != t.seq } with released := _, retired := _ } : Home) = x2
    have hpass : ((s.setHome t.home x2).passTasks t.home t.queue).flights = s.flights :=
      foldl_keeps State.flights (f := State.passTask t.home t.queue) (fun _ _ => rfl) _ _
    have htarget := (levelled_targetEnd ((s.setHome t.home x2).passTasks t.home t.queue) en.desc e ids).flights.trans hpass
    exact htarget ▸ State.settle_flights { (((s.setHome t.home x2).passTasks t.home t.queue).targetEnd en.desc e ids) with
      launches := mmod (((s.setHome t.home x2).passTasks t.home t.queue).targetEnd en.desc e ids).launches en.ctx
        fun l => { l with pins := l.pins - 1 } }

/-- What a lost message had added is counted; what is sent on that joins the traffic last. -/
theorem State.lost_keeps (s : State) (p : Packet) : Booked s (s.lost p) ∧ s.flights <+: (s.lost p).flights := by
  unfold State.lost
  split
  · exact ⟨booked_endMember _ _ _ _, (s.endMember_keeps _ _ _).2⟩
  · exact ⟨booked_retireTask _ _ _ _, s.retireTask_flights _ _ _⟩
  all_goals
    split
    · exact ⟨booked_endMember _ _ _ _, (s.endMember_keeps _ _ _).2⟩
    · exact ⟨.refl s, List.prefix_rfl⟩

/-- A lost SEND changes no counter but that of messages not delivered. -/
theorem State.counter_lost_send {s : State} {p : Packet} {c : Counter} (hp : p.kind = .send) (hc : c ≠ .notifyDiscarded) :
    (s.lost p).counter c = s.counter c := by
  simp only [State.lost, hp]
  split
  · exact State.counter_endMember hc _ _ _ _
  · rfl

/-! ## A message on a link -/

/-- A list without one of its elements is one shorter. -/
theorem length_dropAt {α : Type} (l : List α) (n : Nat) (h : n < l.length) : (dropAt l n).length = l.length - 1 := by
  induction l generalizing n with
  | nil => simp at h
  | cons x l ih =>
    cases n with
    | zero => rfl
    | succ n =>
      have hn : n < l.length := by simpa using h
      rw [dropAt, List.length_cons, ih n hn, List.length_cons]
      omega

/-- The messages that stay come first in the traffic. -/
theorem take_of_prefix {α : Type} {l m : List α} {n : Nat} (hn : n < l.length) (h : dropAt l n <+: m) :
    m.take (l.length - 1) = dropAt l n := by
  rw [← length_dropAt l n hn]
  exact (List.prefix_iff_eq_take.1 h).symm

/-- A message on a link with an uncorrectable word is taken out; the status of a SPAWN resolves. -/
theorem State.linkError_link {s : State} {n : Nat} {p : Packet} (hn : s.flights[n]? = some ⟨p, .link⟩) :
    ∃ u : State, s.linkError n = u.lost p ∧ u.flights = dropAt s.flights n ∧ u.mem = s.mem ∧
      ∀ st landing born, p.kind = .spawn (some st) landing born → ∃ b : Bool,
        u.arrivals = s.arrivals ++ [⟨p.msg.src, st, Reg.data (if b then 1 else 0), []⟩] := by
  have hdrop : ∀ t : State, t = (s.dropFlight n).count .linkDropped →
      t.flights = dropAt s.flights n ∧ t.mem = s.mem ∧ t.arrivals = s.arrivals := by
    rintro t rfl
    obtain ⟨sc, hcount⟩ := (s.dropFlight n).count_eq .linkDropped 1
    rw [hcount]
    exact ⟨rfl, rfl, rfl⟩
  cases hk : p.kind with
  | spawn st landing born =>
    simp only [State.linkError, hn, hk]
    generalize (s.dropFlight n).count .linkDropped = t at hdrop
    obtain ⟨hflights, hmem, harrivals⟩ := hdrop t rfl
    refine ⟨_, rfl, ?_⟩
    cases st with
    | none => exact ⟨hflights, hmem, nofun⟩
    | some st =>
      refine ⟨hflights, hmem, ?_⟩
      rintro _ _ _ ⟨⟩
      exact ⟨Config.freeBool s.fresh, congrArg (· ++ [_]) harrivals⟩
  | _ =>
    simp only [State.linkError, hn, hk]
    obtain ⟨hflights, hmem, -⟩ := hdrop _ rfl
    exact ⟨_, rfl, hflights, hmem, nofun⟩

/-! ## A branch of a multicast -/

/-- A copy without the members of some domes. -/
def McCopy.without (domes : List Nat) (c : McCopy) : McCopy := { c with left := c.left.filter fun k => !domes.contains (domeOf k) }

/-- The copies of a multicast without the members of some domes, those left with none taken out. -/
def copiesWithout (domes : List Nat) (l : List McCopy) : List McCopy := (l.map (McCopy.without domes)).filter (!·.left.isEmpty)

/-- They have every other member still to reach. -/
theorem left_copiesWithout (domes : List Nat) (l : List McCopy) :
    (copiesWithout domes l).flatMap (·.left) = (l.flatMap (·.left)).filter fun k => decide (k / 128 ∉ domes) := by
  induction l with
  | nil => rfl
  | cons c l ih =>
    have hleft : (c.without domes).left = c.left.filter fun k => decide (k / 128 ∉ domes) := by
      simp [McCopy.without, domeOf]
    have hrest : (copiesWithout domes (c :: l)).flatMap (·.left) =
        (c.without domes).left ++ (copiesWithout domes l).flatMap (·.left) := by
      unfold copiesWithout
      rw [List.map_cons, List.filter_cons]
      split
      · rfl
      · next hempty =>
        have hnil : (c.without domes).left = [] := by simpa using hempty
        rw [hnil, List.nil_append]
    rw [hrest, ih, hleft, List.flatMap_cons, List.filter_append]

/-- With some member left there is some copy left. -/
theorem copiesWithout_eq_nil {domes : List Nat} {l : List McCopy} :
    copiesWithout domes l = [] ↔ ∀ k ∈ l.flatMap (·.left), k / 128 ∈ domes := by
  constructor
  · intro h k hk
    have hleft := left_copiesWithout domes l
    rw [h] at hleft
    have := List.filter_eq_nil_iff.1 hleft.symm k hk
    simpa using this
  · intro h
    refine List.filter_eq_nil_iff.2 fun c hc => ?_
    obtain ⟨d, hd, rfl⟩ := List.mem_map.1 hc
    have hnil : (d.without domes).left = [] :=
      List.filter_eq_nil_iff.2 fun k hk => by simpa [domeOf] using h k (List.mem_flatMap.2 ⟨d, hd, hk⟩)
    simp [hnil]

/-- A multicast that loses some members goes on with the others' copies. -/
theorem State.branchError_keeps {s : State} {n : Nat} {x : Multicast} {domes : List Nat} (hx : s.multis[n]? = some x)
    (hgone : ∃ k ∈ x.left, k / 128 ∈ domes) : (s.branchError n domes).mem = s.mem ∧
      (s.branchError n domes).multis = (s.setCopies n x (copiesWithout domes x.copies)).multis := by
  obtain ⟨k, hk, hdome⟩ := hgone
  have hne : x.left.filter (fun k => domes.contains (domeOf k)) ≠ [] :=
    List.ne_nil_of_mem (List.mem_filter.2 ⟨hk, List.contains_iff_mem.2 hdome⟩)
  obtain ⟨sc, hcount⟩ := (s.setCopies n x (copiesWithout domes x.copies)).count_eq .linkDropped 1
  have hbranch : s.branchError n domes = (x.left.filter fun k => domes.contains (domeOf k)).foldl
      (fun u _ => u.endMember x.packet.msg.launch .cancelled) ((s.setCopies n x (copiesWithout domes x.copies)).count .linkDropped) := by
    unfold State.branchError
    simp only [hx]
    exact if_neg fun h => hne (List.isEmpty_iff.1 h)
  have hbooked := Booked.foldl (fun u (_ : Nat) => u.endMember x.packet.msg.launch .cancelled) (fun u _ => booked_endMember u _ _ _)
    (x.left.filter fun k => domes.contains (domeOf k)) ((s.setCopies n x (copiesWithout domes x.copies)).count .linkDropped)
  rw [← hbranch, hcount] at hbooked
  exact ⟨hbooked.get State.mem, hbooked.get State.multis⟩

/-! ## A message to another package, and a packet of a reduction -/

/-- A message sent to another package is taken out and counted. -/
theorem exec_uncorrectable_sent {s : State} {n : Nat} (h : n < s.sent.length) :
    exec (.wordBecomesUncorrectable (.sent n)) s = .next (State.count { s with sent := dropAt s.sent n } .linkDropped) := by
  change Host.Outcome.next (s.sentError n) = _
  rw [State.sentError, if_pos h]

/-- A packet of a round is taken out and counted. -/
theorem exec_uncorrectable_part {s : State} {n m : Nat} {r : Round} (hr : s.rounds[n]? = some r) (h : m < r.parts.length) :
    exec (.wordBecomesUncorrectable (.part n m)) s =
      .next ((s.setRound n { r with parts := dropAt r.parts m }).count .linkDropped) := by
  change Host.Outcome.next (s.partError n m) = _
  simp only [State.partError, hr, h, if_true]

/-! ## Words of memory and of the inbox -/

/-- A word marked. -/
theorem Memory.mark_setMark_same (m : Memory) (w : Nat) (k : Mark) : (m.setMark w k).mark w = some k := mget_mput_same m.marks w k

/-- The other words' marks stay. -/
theorem Memory.mark_setMark_other (m : Memory) {w x : Nat} (k : Mark) (h : x ≠ w) : (m.setMark w k).mark x = m.mark x :=
  mget_mput_other m.marks k h

/-- An uncorrectable word has a mark, the hardware's where it had none; no byte, no other word and no core changes. -/
theorem State.markWord_keeps (s : State) (w : Nat) : (s.markWord w).mem.mark w = (s.mem.mark w).or (some .hardware) ∧
    (s.markWord w).mem.cells = s.mem.cells ∧ (∀ x, x ≠ w → (s.markWord w).mem.mark x = s.mem.mark x) ∧
    (s.markWord w).cores = s.cores := by
  unfold State.markWord
  split
  · next h =>
    obtain ⟨k, hk⟩ := Option.isSome_iff_exists.1 h
    simp [hk]
  · next h =>
    have hnone : s.mem.mark w = none := by simpa using h
    obtain ⟨sc, hcount⟩ := (s.setMem (s.mem.setMark w .hardware)).count_eq (.poisoned (placeOf (8 * w))) 1
    rw [hcount, hnone]
    exact ⟨s.mem.mark_setMark_same w _, rfl, fun x hx => s.mem.mark_setMark_other _ hx, rfl⟩

/-- One tag of a payload becomes 11, the others stay. -/
theorem Msg.tagOf_poisonWord (m : Msg) (w n : Fin 6) : (m.poisonWord w.val).tagOf n.val = if n = w then 3 else m.tagOf n.val := by
  have hbit : ∀ w n : Fin 6, (BitVec.ofNat 12 (3 * 4 ^ w.val)).toNat / 2 ^ (2 * n.val) % 2 ^ 2 = if n = w then 3 else 0 := by decide
  have hall : ∀ x < 4, x ||| 3 = 3 := by decide
  have hpow : (4 : Nat) ^ n.val = 2 ^ (2 * n.val) := by rw [Nat.pow_mul]
  have hor := Nat.or_mod_two_pow (n := 2) (a := m.ptag.toNat / 2 ^ (2 * n.val))
    (b := (BitVec.ofNat 12 (3 * 4 ^ w.val)).toNat / 2 ^ (2 * n.val))
  unfold Msg.poisonWord Msg.tagOf
  rw [BitVec.toNat_or, hpow, Nat.or_div_two_pow]
  refine hor.trans ?_
  rw [hbit w n]
  split
  · exact hall _ (Nat.mod_lt _ (by decide))
  · exact Nat.or_zero _

section
variable {s : State} {k : Nat} {i : Fin 32} {p : Packet} (hslot : (s.core k).slots[i.val] = .holds p)
include hslot

/-- A word of a message in a slot becomes uncorrectable there. -/
theorem exec_uncorrectable_inbox (w : Nat) : exec (.wordBecomesUncorrectable (.inbox k i.val w)) s = .next (s.slotError k i p w) := by
  have hi : Fin.ofNat 32 i.val = i := Fin.ext (Nat.mod_eq_of_lt i.isLt)
  have hget : (s.core k).slots[i] = .holds p := hslot
  change execWordBecomesUncorrectable (.inbox k i.val w) s = _
  simp only [execWordBecomesUncorrectable, hi, hget]

/-- One of its payload takes tag 11. -/
theorem uncorrectable_payload (w : Fin 6) : ∃ (t : State) (q : Packet),
    exec (.wordBecomesUncorrectable (.inbox k i.val w.val)) s = .next t ∧ (t.core k).slots[i.val] = .holds q ∧
      (∀ j : Fin 6, q.msg.tagOf j.val = if j = w then 3 else p.msg.tagOf j.val) ∧ q.msg.m = p.msg.m ∧ t.mem = s.mem := by
  refine ⟨_, { p with msg := p.msg.poisonWord w.val }, exec_uncorrectable_inbox hslot w.val, ?_, fun j => p.msg.tagOf_poisonWord w j, rfl, ?_⟩
  · simp [State.slotError]
  · simp [State.slotError]

/-- With one of its header a SEND's message that no activation has pinned is dropped. -/
theorem uncorrectable_header {w : Nat} (hkind : p.kind = .send) (hw : w = 6 ∨ w = 7) (hpin : (s.core k).pinned ≠ some i) :
    ∃ t : State, exec (.wordBecomesUncorrectable (.inbox k i.val w)) s = .next t ∧ (t.core k).slots[i.val] = .free ∧
      i ∉ (t.core k).order ∧ t.counter .linkDropped = min (s.counter .linkDropped + 1) (2 ^ 64 - 1) ∧ t.mem = s.mem := by
  have hword : ¬ w < 6 ∧ w < 8 := by omega
  obtain ⟨hlow, hhigh⟩ := hword
  have hdrop : s.slotError k i p w = ((s.setCore k ((s.core k).freeSlot i)).count .linkDropped).lost p := by
    unfold State.slotError
    simp only
    rw [if_neg hlow, if_pos ⟨hhigh, hpin⟩]
  have hbooked := (booked_count (s.setCore k ((s.core k).freeSlot i)) .linkDropped 1).trans (State.lost_keeps _ p).1
  rw [← hdrop] at hbooked
  have hcore : (s.slotError k i p w).core k = (s.core k).freeSlot i := by
    rw [hbooked.core, State.core_setCore_same]
  refine ⟨_, exec_uncorrectable_inbox hslot w, ?_, ?_, ?_, hbooked.get State.mem⟩
  · simp [hcore, Core.freeSlot]
  · simp [hcore, Core.freeSlot]
  · rw [hdrop, State.counter_lost_send hkind (by decide), State.counter_count]
    rfl

end

end Sys2Proof.Machine
end

section
/-! SUPPORT. What barriers, broadcasts and pre-emption lines bring to the cores (R350 to R355). -/
namespace Sys2Proof.Machine

/-- A channel whose flips have come about. -/
theorem State.barrier_barrierDue {s : State} {c : Nat} {b : Barrier} (h : mget s.barriers c = some b) :
    (s.barrierDue c).barrier c = b.complete s.rc := by
  unfold State.barrier State.barrierDue
  rw [mget_mmod_same, h]
  rfl

/-- A slot whose writes have come about. -/
theorem State.bcast_bcastDue {s : State} {c : Nat} {b : Bcast} (h : mget s.bcasts c = some b) :
    (s.bcastDue c).bcast c = b.complete s.rc := by
  unfold State.bcast State.bcastDue State.bcast
  rw [mget_mmod_same, h]
  rfl

/-- A core sees the slot's state unless an exchange holds it. -/
theorem State.core_bcastDue {s : State} {c j : Nat} {b : Bcast} {d : Core} (h : mget s.bcasts c = some b) (hd : mget s.cores j = some d)
    (hheld : s.held j = false) : (s.bcastDue c).core j = d.receive c (b.complete s.rc) := by
  have hb : s.bcast c = b := by
    unfold State.bcast
    rw [h]
    rfl
  unfold State.core State.bcastDue
  rw [hb, mget_map_numbered s.cores (fun n (x : Core) => if s.held n then x else x.receive c (b.complete s.rc)), hd]
  simp [hheld]

/-- A slot's one write that is due. -/
theorem Bcast.complete_one {b : Bcast} {tick k rc : Nat} {v : BitVec 32} (h : b.pending = [(tick, k, v)]) (hdue : tick ≤ rc) :
    b.complete rc = { b with
      value := v
      seq := b.seq + 1
      pending := [] } := by
  simp [Bcast.complete, h, hdue]

section
variable {d : Core} {c : Nat} {r : SymRef} {want : Word} (hbc : d.bc = [(c, r, want)])
include hbc

/-- The one ephemeris of a core that waits for a slot resolves where the sequence meets it. -/
theorem Core.receive_met {b : Bcast} (hmet : seqMeets b.seq want = true) :
    d.receive c b = ({ d with bc := [] } : Core).resolve r (Reg.data (b.value.zeroExtend 64)) := by
  simp [Core.receive, hbc, hmet]

/-- Its symbol is free then, and the core waits for no slot. -/
theorem Core.receive_resolves {b : Bcast} (hmet : seqMeets b.seq want = true) (hstate : d.sym[r.sym.val].state = .pending)
    (hgen : d.sym[r.sym.val].gen = r.gen) : (d.receive c b).sym[r.sym.val].state = .free ∧ (d.receive c b).bc = [] := by
  have hne : d.sym[r.sym.val].state ≠ .free := by rw [hstate]; nofun
  have hres := Core.resolve_pending (c := { d with bc := [] }) (Reg.data (b.value.zeroExtend 64)) hne hgen
  rw [Core.receive_met hbc hmet, hres]
  exact ⟨by simp, rfl⟩

/-- Else it waits on. -/
theorem Core.receive_unmet {b : Bcast} (hmet : seqMeets b.seq want = false) : d.receive c b = d := by
  have hkeep : d.bc.filter (fun e => !(e.1 == c && seqMeets b.seq e.2.2)) = d.bc := by simp [hbc, hmet]
  have hnone : d.bc.filter (fun e => e.1 == c && seqMeets b.seq e.2.2) = [] := by simp [hbc, hmet]
  simp only [Core.receive, hkeep, hnone, List.foldl_nil]

end

/-- A line raised reaches every core of the die whose mask has it. -/
theorem preemptionLineRaise_core {s : State} {die line k : Nat} {c : Core} (hc : mget s.cores k = some c) : ∃ t : State,
    exec (.preemptionLineRaise die line) s = .next t ∧
      t.core k = (if k / 2048 = die ∧ c.lineMask.getLsbD line then { c with preempt := true } else c) ∧ t.mem = s.mem := by
  refine ⟨_, rfl, ?_, rfl⟩
  unfold State.core
  dsimp only
  rw [mget_map_numbered s.cores
    (fun n (x : Core) => if dieOf n = die ∧ x.lineMask.getLsbD line then { x with preempt := true } else x), hc]
  rfl

end Sys2Proof.Machine
end

section
namespace Sys2Proof.Settled
open Machine

/-- Settles O46: each event by what it does to the core, the memory or the traffic that it reaches. -/
theorem coreEvents : Obligations.CoreEvents := by
  unfold Obligations.CoreEvents
  refine ⟨?_, ?_, ?_, ?_, ?_, ?_, ?_, ?_, ?_, ?_, ?_, ?_, ?_, ?_, ?_⟩
  · intro s n k r v ids hn c e
    refine ⟨resolution_held hn, fun hheld => ?_⟩
    by_cases hstale : e.state = .free ∨ e.gen ≠ r.gen
    · exact ⟨_, resolution_stale hn hheld hstale, rfl, fun _ => rfl, fun hstate hgen => absurd hstale (by simp [hstate, hgen])⟩
    · have hpending := not_or.1 hstale
      obtain ⟨l, hexec, hl⟩ := resolution_fresh hn hheld hpending.1 (not_not.1 hpending.2)
      refine ⟨_, hexec, rfl, fun h => absurd h hstale, fun _ _ => ?_⟩
      rw [State.core_setCore_same]
      refine ⟨by simp, by simp, rfl, rfl, hl, fun i hi => ?_, fun i sc off hi => ⟨fun hv => ?_, fun hv => ?_⟩, fun i sc off hi hv => ?_⟩
      · simpa using rewriteReg_other hi
      · have hi' : (s.core k).g[i.val] = _ := hi
        simp only [Vector.getElem_map, hi', rewriteReg_eph, resolveReg_i64 _ _ _ hv]
      · have hi' : (s.core k).g[i.val] = _ := hi
        simp only [Vector.getElem_map, hi', rewriteReg_eph, resolveReg_pois _ hv]
      · have hi' : (s.core k).f[i.val] = _ := hi
        simp only [Vector.getElem_map, hi', rewriteReg_eph, resolveReg_f32 _ _ _ hv]
  · intro s i body
    refine ⟨fun a ha hl hc hx => State.issue_acquireOwed body ha hl hc hx, fun x hx => ?_, fun x hx hin e he hid =>
      State.seen_acquireOwed hx hin he hid⟩
    rw [State.owed_acquireOwed] at hx
    obtain ⟨howed, hnot⟩ := List.mem_filter.1 hx
    exact ⟨howed, by simpa using hnot⟩
  · intro s k va acc l pte hva htlb hwf hup hwalk hmap hview grants
    have hgrants : l.grants [acc] = grants := by cases acc <;> simp [Leaf.grants, grants]
    cases hg : grants with
    | false => exact ⟨s, pageTableWalk_refused hva htlb hup hwalk hmap (hgrants.trans hg), fun _ => rfl, nofun⟩
    | true =>
      obtain ⟨hpte, hother⟩ := walkedMem_byte (dirty := acc == .write) hwf hview
      have hbits : adBits (acc == .write) = if acc = .write then 0xC0 else 0x40 := by cases acc <;> rfl
      rw [hbits] at hpte
      refine ⟨_, pageTableWalk_granted hva htlb hup hwalk hmap (hgrants.trans hg) hview, nofun, fun _ => ⟨hpte, hother, ?_⟩⟩
      rw [State.core_setCore_same]
      exact ⟨_, List.mem_cons_self, rfl, rfl, rfl, rfl, rfl, rfl, rfl, rfl, rfl, fun hacc => by simp [hacc]⟩
  · intro s k w hw hk hwait hheld again
    exact ⟨fun hwoken => ⟨_, exec_waitaWake hw hk hheld hwoken, State.readsAgain hwait⟩,
      fun hdue => ⟨_, exec_waitaTimerExpiry hw hk hheld hdue, State.readsAgain hwait⟩⟩
  · intro s n v e hfind
    by_cases hbefore : s.mem.before e v = []
    · exact ⟨_, performed_shows hfind hbefore, rfl, rfl, fun h => absurd hbefore h, fun _ =>
        ⟨s.mem.seenAll_show n v, fun w a hw => s.mem.view_show_one [n] hw a⟩⟩
    · exact ⟨_, performed_waits hfind hbefore, rfl, rfl, fun _ => rfl, fun h => absurd h hbefore⟩
  · rintro s n ⟨p, _⟩ hn rfl
    obtain ⟨u, herror, hflights, hmem, harrivals⟩ := State.linkError_link hn
    obtain ⟨hbooked, hprefix⟩ := u.lost_keeps p
    obtain ⟨hlt, -⟩ := List.getElem?_eq_some_iff.1 hn
    rw [hflights] at hprefix
    have hexec : exec (.wordBecomesUncorrectable (.flight n)) s = .next (u.lost p) := congrArg _ herror
    refine ⟨_, hexec, take_of_prefix hlt hprefix, (hbooked.get State.mem).trans hmem, fun st landing born hk => ?_⟩
    obtain ⟨b, hb⟩ := harrivals st landing born hk
    exact ⟨b, (hbooked.get State.arrivals).trans hb⟩
  · intro s n x domes hx hgone
    obtain ⟨hmem, hmultis⟩ := State.branchError_keeps hx hgone
    refine ⟨_, rfl, hmem, fun hleft => ?_, fun hall => ?_⟩
    · have hne : copiesWithout domes x.copies ≠ [] := fun hnil => by
        obtain ⟨k, hk, hout⟩ := hleft
        exact hout (copiesWithout_eq_nil.1 hnil k hk)
      refine ⟨{ x with copies := copiesWithout domes x.copies }, ?_, rfl, rfl, left_copiesWithout domes x.copies⟩
      rw [hmultis]
      exact State.multi_setCopies hx hne
    · rw [hmultis, copiesWithout_eq_nil.2 hall]
      rfl
  · intro s n hlt
    have hbooked := booked_count { s with sent := dropAt s.sent n } .linkDropped 1
    exact ⟨_, exec_uncorrectable_sent hlt, hbooked.get State.sent, State.counter_count _ _, hbooked.get State.mem,
      hbooked.get State.cores⟩
  · intro s n m r hr hlt
    have hbooked := booked_count (s.setRound n { r with parts := dropAt r.parts m }) .linkDropped 1
    refine ⟨_, exec_uncorrectable_part hr hlt, ?_, State.counter_count _ _, hbooked.get State.mem⟩
    rw [hbooked.get State.rounds]
    exact State.round_setRound hr
  · intro s pa hpa
    obtain ⟨hmark, hcells, hother, hcores⟩ := s.markWord_keeps (pa / 8)
    have hmemory : isMemory pa = true := by
      unfold isMemory
      rcases hpa with h | h <;> simp [h]
    exact ⟨_, if_pos hmemory, hmark, hcells, hother, hcores⟩
  · intro s k i p w hslot
    obtain ⟨t, q, hexec, hq, htags, hm, hmem⟩ := uncorrectable_payload hslot w
    exact ⟨t, q, hexec, hq, (htags w).trans (if_pos rfl), fun j hj => (htags j).trans (if_neg hj), hm, hmem⟩
  · intro s k i p w hslot hkind _ hw hpin
    exact uncorrectable_header hslot hkind hw hpin
  · intro s c b hb
    refine ⟨_, rfl, (State.barrier_barrierDue hb).trans ?_, rfl⟩
    simp only [Barrier.complete, ← Nat.not_le, decide_not]
  · intro s c k tick b v hb hpending hdue
    have hcomplete := Bcast.complete_one hpending hdue
    have hslot := (State.bcast_bcastDue hb).trans hcomplete
    refine ⟨_, rfl, by rw [hslot], by rw [hslot], by rw [hslot], fun j d r want hheld hd hbc hstate hgen => ?_⟩
    rw [State.core_bcastDue hb hd hheld, hcomplete]
    exact ⟨fun hmet => Core.receive_resolves hbc (decide_eq_true hmet) hstate hgen,
      fun hunmet => Core.receive_unmet hbc (decide_eq_false hunmet)⟩
  · intro s die line k c hc
    exact preemptionLineRaise_core hc

end Sys2Proof.Settled
end
